-- ==== Sys2Proof/Word.lean ====
section
/-!
DEFINITION. The data units of the memory system: the byte, the 32-byte word that every request addresses (R18) and
the sparse table in which the model keeps memory, tags, tables and register files.
-/
namespace Sys2Proof

/-- One byte. -/
abbrev Byte := BitVec 8

/-- One word, 32 B: the unit of addressing and of single-copy atomicity (R18, R246). -/
abbrev Word := BitVec 256

/-- A sparse table: pairs of a key and a value, keys strictly rising, no entry equal to what an unlisted key reads as. -/
abbrev Tab (α : Type) := List (Nat × α)

/-- What key `k` reads as: the listed value, or `d k` where the key is not listed. -/
def Tab.get {α : Type} (d : Nat → α) : Tab α → Nat → α
  | [], k => d k
  | (a, x) :: t, k => if a = k then x else Tab.get d t k

/-- The table without key `k`. -/
def Tab.erase {α : Type} (t : Tab α) (k : Nat) : Tab α := t.filter (fun e => e.1 != k)

/-- `(k, v)` placed before the first larger key. -/
def Tab.insert {α : Type} : Tab α → Nat → α → Tab α
  | [], k, v => [(k, v)]
  | (a, x) :: t, k, v => if k < a then (k, v) :: (a, x) :: t else (a, x) :: Tab.insert t k v

/-- Store `v` at key `k`; storing what an unlisted key reads as removes the entry. -/
def Tab.set {α : Type} [DecidableEq α] (d : Nat → α) (t : Tab α) (k : Nat) (v : α) : Tab α :=
  if v = d k then Tab.erase t k else Tab.insert (Tab.erase t k) k v

/-- The table without the keys from `lo` up to, not including, `hi`. -/
def Tab.eraseRange {α : Type} (t : Tab α) (lo hi : Nat) : Tab α := t.filter (fun e => !(lo ≤ e.1 && e.1 < hi))

/-- Keys strictly rising. -/
def Tab.sorted {α : Type} : Tab α → Bool
  | [] => true
  | [_] => true
  | a :: b :: t => a.1 < b.1 && Tab.sorted (b :: t)

/-- The canonical form: keys strictly rising and no entry equal to what an unlisted key reads as. -/
def Tab.wf {α : Type} [DecidableEq α] (d : Nat → α) (t : Tab α) : Bool :=
  Tab.sorted t && t.all (fun e => e.2 != d e.1)

end Sys2Proof
end

