-- ==== Sys2Proof/Syntax.lean ====
section
/-!
DEFINITION. The commands of the memory system: `Instr` has one constructor for each row of the opcode table, with the
operands that the row's rule gives it. The types before it are those operands.
-/
namespace Sys2Proof

/-- A principal (R122): engine id and TID. -/
structure Principal where
  engine : BitVec 8
  tid    : BitVec 12
deriving DecidableEq, Repr

/-- The 4-bit status of a response (R13). -/
inductive Status
  | ok | collided | retry | nackOwner | nackBound | nackState | nackWindowClosed | nackLakeOff
  | poison | uncorrectable | absent
deriving DecidableEq, Repr

/-- The encoding of a status (R13). -/
def Status.code : Status → Nat
  | .ok => 0 | .collided => 1 | .retry => 2 | .nackOwner => 3 | .nackBound => 4 | .nackState => 5
  | .nackWindowClosed => 6 | .nackLakeOff => 7 | .poison => 8 | .uncorrectable => 9 | .absent => 10

/-- The place of a status in the order of R15, the first chosen having the lowest rank. -/
def Status.rank : Status → Nat
  | .absent => 0 | .nackLakeOff => 1 | .nackBound => 2 | .nackOwner => 3 | .nackWindowClosed => 4
  | .nackState => 5 | .retry => 6 | .uncorrectable => 7 | .poison => 8 | .collided => 9 | .ok => 10

/-- The slate of a row (R214). -/
inductive Slate
  | empty | reserved | full | stale
deriving DecidableEq, Repr

/-- The tag bits of a slate (R214). -/
def Slate.code : Slate → Nat
  | .empty => 0 | .reserved => 1 | .full => 2 | .stale => 3

/-- The slate that a 2-bit code names (R214). -/
def Slate.ofCode (n : Nat) : Slate :=
  match n % 4 with
  | 0 => .empty | 1 => .reserved | 2 => .full | _ => .stale

/-- The port through which a request is issued (00 "The block and its boundary", R53, R121). A fabric engine acts for
the local task whose context stands in `slot`; an arrival carries the engine or endpoint that sent it. `spring` is the canal
port of a lake's own Spring, used for the requests a descriptor issues; no command is presented through it. -/
inductive Port
  | vc (k : Fin 64)
  | me (k : Fin 16) (j : Fin 3) (sub : Fin 4)
  | meCanal (k : Fin 16)
  | fabric (m : Fin 4) (slot : Fin 272)
  | host (np : Bool)
  | mgmt
  | seq
  | sibling (engine : BitVec 8)
  | dexfer (m : Fin 4) (ep : BitVec 16)
  | spring (n : Fin 24) (seq piece : Nat)
deriving DecidableEq, Repr

/-- The sender of a control-space or other command: its port and the tag its response carries (R73). -/
structure Src where
  port : Port
  tag  : Nat
deriving DecidableEq, Repr

/-- A storage request (R18, R145): a task address, a die-local address (R101 sources) or, with `glob`, a Dexfer global
address; a word count; the take position `pos` (R235); the row valid bits of its two halves where it carries them
(R166); a deadline where the engine supplies one (R111); `joins` where it is presented in the PS cycle of the request
performed before it (R49). `bytes` is the offset and length, in the words read, of the bytes a host TLP asked for (R29),
and `posted` marks a host posted write, which has no completion. -/
structure Req where
  port  : Port
  tag   : Nat
  glob  : Bool := false
  addr  : BitVec 64
  words : Nat
  pos   : Bool := false
  vbit  : Option (Bool × Bool) := none
  dl    : Option (BitVec 16) := none
  joins : Bool := false
  bytes : Option (Nat × Nat) := none
  posted : Bool := false
deriving DecidableEq, Repr

/-- Attributes of a lake atomic (R145): `TYPE`, `RND`, `FETCH`. -/
structure Atom where
  ty    : Fin 4
  rnd   : Fin 4
  fetch : Bool
deriving DecidableEq, Repr

/-- The operation code of a request with its attributes (R145). -/
inductive Op
  | read
  | write
  | xread (ew : Fin 4) (stride : BitVec 16)
  | gather (stride : BitVec 16)
  | add (a : Atom)
  | addWide (a : Atom)
  | max (a : Atom)
  | min (a : Atom)
  | swap (ty : Fin 4) (elem : Fin 8)
  | cas (ty : Fin 4) (elem : Fin 8)
  | reserved (code : Fin 6)
deriving DecidableEq, Repr

/-- A host TLP (R28, R29): the BAR's privilege, the die-local byte address and length, the Relaxed Ordering attribute
(R261) and a tag. -/
structure Tlp where
  np   : Bool
  addr : Nat
  len  : Nat
  ro   : Bool
  tag  : Nat
deriving DecidableEq, Repr

/-- A requester identity at a retry point (R88). `wired 0` to `wired 7` are the sub-shores A0 to A3 and B0 to B3,
`wired 8` the Spring bulk engine and `wired 9` the trickle path. -/
inductive Ident
  | wired (i : Fin 10)
  | canal (pos : Fin 47) (idx : Fin 47)
deriving DecidableEq, Repr

/-- A retry point (R88). -/
inductive RetryPt
  | arrival (pos : Fin 47)
  | waiters (lake : Fin 24)
deriving DecidableEq, Repr

/-- An arbiter (R59, R75). Sub-shore 0 to 3 of shore A (`b` false) or B; arrivals and injections by ring direction
(`ccw` true for counter-clockwise). -/
inductive ArbId
  | wide (lake : Fin 24) (b : Bool) (sub : Fin 4)
  | shoreS (lake : Fin 24)
  | shoreC (lake : Fin 24) (ccw : Bool)
  | stop (pos : Fin 47) (ccw : Bool)
deriving DecidableEq, Repr

/-- A row request as a shore or a packet carries it (R36, R64): its operation, first word and word count, and whether it is a
masked row (R166). -/
structure RowAsk where
  op     : Op
  first  : Fin 8
  words  : Nat
  masked : Bool := false
deriving DecidableEq, Repr

/-- A requesting master at an arbiter (R75, R76, R112): its index, the traffic label of its head request, the deadline budget set
when that request was issued and the T-cycles since then (R111), the canal position it goes to, the row requests it presents for
a beat, head first (R59, R118), and whether source rows of an XREAD of that beat remain for later ones (R153). -/
structure Master where
  idx   : Fin 47
  label : Fin 64
  dl    : BitVec 16
  age   : Nat
  dst   : Fin 47
  beat  : List RowAsk
  more  : Bool := false
deriving DecidableEq, Repr

/-- A configuration set of an arbiter (R92, R96): set `i` of a lake, or the set of a stop and direction. -/
inductive ArbSet
  | lake (n : Fin 24) (i : Fin 5)
  | stop (pos : Fin 47) (ccw : Bool)
deriving DecidableEq, Repr

/-- A packet of the canal (R64): its number, source and destination position, whether it is a response, the index of its
source engine at the source stop, its traffic label and whether it is of a trickle path (R211); the row request it carries or answers, and
that request's row, numbered over the die; the deadline budget set at issue and the T-cycles since then (R111); its write or read data; a response's status and backoff
count; the response packets that its request takes (R149, R154). -/
structure Packet where
  id      : Nat
  src     : Fin 47
  dst     : Fin 47
  resp    : Bool
  idx     : Fin 47
  label   : Fin 64
  trickle : Bool := false
  ask     : RowAsk
  row     : Nat
  dl      : BitVec 16 := 0xFFFF
  age     : Nat := 0
  data    : List Word := []
  st      : Status := .ok
  backoff : Nat := 0
  parts   : Nat := 1
deriving DecidableEq, Repr

/-- A take command's place (R235, R236): an ME wide port, its sub-shore, the take position and a tag. -/
structure TakeCmd where
  k   : Fin 16
  j   : Fin 3
  sub : Fin 4
  pos : Bool
  tag : Nat
deriving DecidableEq, Repr

/-- A range of lake rows (R236). -/
structure Range where
  first : BitVec 16
  count : BitVec 16
deriving DecidableEq, Repr

/-- The fields that OPEN carries (R236). -/
structure TakeFields where
  consume : Bool
  sig     : Bool
  scope   : Fin 4
  cue     : BitVec 12
  opa     : Range
  opb     : Range
  res     : Range
deriving DecidableEq, Repr

/-- What a take command does (R236). -/
inductive TakeOp
  | opening (f : TakeFields)
  | commit
  | abort (fault : Bool)
deriving DecidableEq, Repr

/-- The repair word of one pond in the fuse array (R369): up to 8 row entries and 2 column entries, and whether its check
found a double-bit error. -/
structure FuseWord where
  lake : Fin 24
  pond : Fin 96
  rows : List (Fin 8 × Fin 512)
  cols : List (Fin 2 × Fin 36)
  bad  : Bool
deriving DecidableEq, Repr

/-- A failing cell group found by a march run (R366): pond, physical row (512 to 519 are the spare rows) and column group
(36 and 37 are the spare groups). -/
structure FailCell where
  pond  : Fin 96
  row   : Fin 520
  group : Fin 38
deriving DecidableEq, Repr

/-- The source of a wake from DEEP (R349). -/
inductive WakeSource
  | boundaryRequest
  | i3cAddress
  | wakeLine
deriving DecidableEq, Repr

/-- The commands, one constructor for each row of the opcode table. -/
inductive Instr
  -- storage requests (R24, R145, R216)
  | read (q : Req)
  | write (q : Req) (d : List Word)
  | peek (q : Req)
  | consume (q : Req)
  | produce (q : Req) (d : List Word)
  | xread (q : Req) (ew : Fin 4) (stride : BitVec 16)
  | gather (q : Req) (stride : BitVec 16)
  | add (q : Req) (a : Atom) (d : List Word)
  | addWide (q : Req) (a : Atom) (d : List Word)
  | max (q : Req) (a : Atom) (d : List Word)
  | min (q : Req) (a : Atom) (d : List Word)
  | swap (q : Req) (ty : Fin 4) (elem : Fin 8) (d : Word)
  | cas (q : Req) (ty : Fin 4) (elem : Fin 8) (d : Word)
  | takePeek (q : Req)
  | takeWrite (q : Req) (d : List Word)
  -- pond maintenance (R43, R311, R314); rows are numbered over the die, 49,152 to a lake
  | writeBack (row : Nat)
  | markWrite (row : Nat)
  | scrubDue (n : Fin 24)
  | scrubRead (row : Nat)
  | scrubForced (row : Nat)
  | scrubConfigWrite (src : Src) (n : Fin 24) (v : BitVec 32)
  -- host window (R28 to R30, R261 to R265)
  | hostReadTlp (t : Tlp)
  | hostWriteTlp (t : Tlp) (d : List (Option Byte))
  | hostRetryReissue (tag : Nat)
  | hostPostedRelease
  | atomicopFetchadd (t : Tlp) (wide : Bool) (v : BitVec 64)
  | atomicopSwap (t : Tlp) (wide : Bool) (v : BitVec 64)
  | atomicopCas (t : Tlp) (size : Fin 3) (cmp swap : BitVec 64)
  -- arrivals (R35, R283) and registers
  | arrivalRead (q : Req) (op : Op)
  | arrivalWrite (q : Req) (op : Op) (d : List Word)
  | epIdWrite (src : Src) (v : BitVec 32)
  | registerWrite (src : Src) (off : Nat) (size : Nat) (v : BitVec 64)
  | shoreCfgWrite (src : Src) (n : Fin 24) (v : BitVec 32)
  -- arbiters and canal
  | arbDecision (a : ArbId) (ms : List Master)
  | burstLimit (a : ArbId)
  | quotaWindowClose (a : ArbId)
  | arbConfigWrite (src : Src) (a : ArbSet) (which : Fin 3) (v : BitVec 32)
  | packetInject (k : Packet)
  | stopStarving (p : Fin 47) (ccw : Bool)
  | packetEject (id : Nat) (parityOk : Bool)
  | responseEject (id : Nat) (st : Status) (d : List Word) (parityOk : Bool)
  | stopReissue (p : Fin 47) (dst : Fin 47) (idx : Fin 47)
  | backoffReset (rp : RetryPt) (i : Ident)
  -- weir
  | qshareWrite (src : Src) (which : Fin 5) (v : BitVec 32)
  | lateRecordInterval (c : Fin 4)
  | pcapPeriod (skipped : Nat)
  | pcapWrite (src : Src) (v : BitVec 32)
  -- ownership, contexts, reels
  | handover (src : Src) (n : Fin 24) (v : BitVec 32)
  | ctxSelWrite (src : Src) (v : BitVec 32)
  | liveViewValidWrite (src : Src) (v : BitVec 64)
  | contextSave (src : Src) (v : BitVec 64)
  | contextSaveComplete
  | contextRestore (src : Src) (v : BitVec 64)
  | contextRestoreLoad
  | reelCfgWrite (src : Src) (e : Fin 64) (v : BitVec 32)
  | reelBaseWrite (src : Src) (e : Fin 64) (v : BitVec 64)
  | reelTailWrite (src : Src) (e : Fin 64) (v : BitVec 32)
  | reelHeadWrite (src : Src) (e : Fin 64) (v : BitVec 32)
  | srSeedWrite (src : Src) (n : Fin 24) (v : BitVec 64)
  -- Springs
  | sprReelBind (src : Src) (n : Fin 24) (reel : Fin 64)
  | sprReelUnbind (src : Src) (n : Fin 24)
  | slotRead (n : Fin 24)
  | nop (n : Fin 24)
  | load (n : Fin 24)
  | store (n : Fin 24)
  | pull (n : Fin 24)
  | push (n : Fin 24)
  | copy (n : Fin 24)
  | fill (n : Fin 24)
  | signalCue (n : Fin 24)
  | waitCue (n : Fin 24)
  | mark (n : Fin 24)
  | markRetest (n : Fin 24)
  | stackReadReturn (n : Fin 24) (seq piece : Nat) (st : Status) (d : List Word)
  | stackWriteAck (n : Fin 24) (seq piece : Nat) (st : Status)
  | descriptorComplete (n : Fin 24) (seq : Nat)
  | slotRelease (n : Fin 24)
  | sprCut (src : Src) (n : Fin 24) (v : BitVec 32)
  | cutComplete (n : Fin 24)
  | taskAbort (src : Src) (v : BitVec 32)
  | taskAbortComplete
  -- basin
  | basinLookup (n : Fin 24) (seq piece : Nat) (struck : List (Fin 32 × Bool))
  | basinFillReturn (sib : Bool) (line : Nat) (st : Status) (d : List Word)
  | basinInvAll (src : Src) (v : BitVec 64)
  | basinInvRange (src : Src) (v : BitVec 64)
  | basinInvDone
  -- slates, cues, takes
  | waiterWake (row : Nat)
  | waiterTimeout (n : Fin 24) (id : Nat)
  | rangeStepEnter (n : Fin 24)
  | tagSweep (row : Nat)
  | slateOp (src : Src) (n : Fin 24) (v : BitVec 64)
  | slateOpRow (n : Fin 24)
  | slateOpDone (n : Fin 24)
  | cueSignal (src : Src) (c : Fin 4096) (v : BitVec 64)
  | cueSignalSend (id : Nat)
  | cueWait (src : Src) (c : Fin 4096) (v : BitVec 64)
  | cueCountWrite (src : Src) (c : Fin 4096) (v : BitVec 64)
  | cueCfgWrite (src : Src) (c : Fin 4096) (v : BitVec 64)
  | takeOpen (t : TakeCmd) (f : TakeFields)
  | takeCommit (t : TakeCmd)
  | takeAbort (t : TakeCmd) (fault : Bool)
  | takeCommitStep (n : Fin 24) (slot : Fin 16)
  | takeAbortStep (n : Fin 24) (slot : Fin 16)
  -- fences and kernels
  | fence (src : Src) (scope : Fin 4)
  | fenceComplete (id : Nat)
  | kernelEnd (src : Src) (v : BitVec 32)
  | kernelBoundaryDone
  -- windows
  | winOwnerWrite (src : Src) (w : Fin 256) (v : BitVec 32)
  | winConfigWrite (src : Src) (w : Fin 256) (which : Fin 3) (v : BitVec 64)
  | winOpen (src : Src) (w : Fin 256)
  | winClose (src : Src) (w : Fin 256)
  | winRelease (src : Src) (w : Fin 256)
  | winClosed (w : Fin 256)
  -- pre-emption, protection, error log
  | preempt (src : Src) (v : BitVec 64)
  | preemptDeadline
  | protModeChange (src : Src) (n : Fin 24) (v : BitVec 32)
  | conversionDone (n : Fin 24)
  | recordEnter
  | corrInterval (source : Nat)
  | ibiInterval (c : Fin 8)
  | errTailWrite (src : Src) (v : BitVec 32)
  | errStatClear (src : Src) (v : BitVec 32)
  | eccInjectArm (src : Src) (n : Fin 24) (v : BitVec 64)
  -- power
  | monitorUpdate (k : Fin 4) (mv cur pwr : BitVec 16)
  | levelReqWrite (src : Src) (v : BitVec 32)
  | levelChangeStart
  | voltageStep
  | drainComplete
  | dividerSwitchEnd
  | drainAbandon
  | lakeStateReq (src : Src) (n : Fin 24) (v : BitVec 32)
  | lakeDrainComplete (n : Fin 24)
  | lakeEntryEnd (n : Fin 24)
  | autoIdle (n : Fin 24)
  | idleWake (n : Fin 24)
  | idleWakeEnd (n : Fin 24)
  | lakeWake (n : Fin 24)
  | lakeWakeEnd (n : Fin 24)
  | pwrWakeWrite (src : Src) (v : BitVec 32)
  | deepEnter (src : Src) (v : BitVec 32)
  | deepEntryEnd
  | deepWake (w : WakeSource)
  | deepExitEnd
  -- bring-up and resets
  | coldReset
  | aonRelease
  | pllLock
  | fuseRepairDone (ws : List FuseWord)
  | eccInitDone
  | warmResetPin
  | warmResetWrite (src : Src) (v : BitVec 32)
  | warmReinitDone
  | lakeReset (src : Src) (v : BitVec 32)
  | lakeResetDone
  -- march test
  | marchStart (src : Src) (n : Fin 24) (v : BitVec 32)
  | marchTestDone (n : Fin 24) (fails : List FailCell)
  | marchAnalysisDone (n : Fin 24)
  | marchRemapDone (n : Fin 24)
  | marchInitDone (n : Fin 24)
  -- counters
  | cntCfgWrite (src : Src) (entry : Nat) (v : BitVec 32)
  | cntValWrite (src : Src) (entry : Nat) (v : BitVec 64)
  | dailiesSnapshot (src : Src) (v : BitVec 32)
  | snapshotRelease
  -- sideband
  | requestFrame (bytes : List Byte) (parityOk mpriv : Bool)
  | dictRead
  | dictWrite
  | dictInfo
  | dictResponseReady
  | responseFrameRead
  | entdaa (addr : BitVec 7)
  | setnewda (addr : BitVec 7)
  | rstdaa
  | enec (enint enhj : Bool)
  | disec (disint dishj : Bool)
  | getpid
  | getbcr
  | getdcr
  | getstatus
  | setmwl (n : BitVec 16)
  | getmwl
  | setmrl (n : BitVec 16)
  | getmrl
  | entas (k : Fin 4)
  | unsupportedCcc (direct : Bool)
  | hdrEntry
  | hotJoin
  | ibiRaise (ack : Bool)
  -- firmware
  | settingsApply
  | fwBegin (v : BitVec 32) (mpriv : Bool)
  | fwChunk (bytes : List Byte) (mpriv : Bool)
  | fwVerify
  | fwActivateSchedule (bytes : List Byte) (mpriv : Bool)
  | fwActivateCancel (mpriv : Bool)
  | fwActivateRevert (mpriv : Bool)
  | fwActivationFire
  | loaderStart
  | imageStartTimeout
  | fwConfirm
  | trialExpire
  | sibStatusMsg (iface : BitVec 16) (trial : Bool)
  | sibTimeout
  -- meter
  | meterEnergySample (mv ma : List Nat)
  | meterSample
  | tallyRecord
  | meterClose
  | meterPowerUp
  | monitorSelfTest (ok : Bool)
  -- boundary
  | clientTakesRequest (p : Fin 47) (id : Nat)
  | referenceClockLoss
  | referenceClockReturn
  | hdrExitPattern
  | testPortAccess
  | vddLogLoss
deriving DecidableEq, Repr

end Sys2Proof
end

