-- ==== Sys2Proof/Decode.lean ====
section
/-!
DEFINITION. Decoding. The opcode table gives no row of this block any bits: its commands come from outside as requests, register
accesses, protocol operations and events, and no word encodes one. The decoder therefore reads a command from no word.
-/
namespace Sys2Proof

/-- The command that a word of `nbits` bits spells by the opcode table's bits: none, since the table gives no row bits. -/
def decodeTableWord (_nbits _w : Nat) : Option Instr := none

end Sys2Proof
end

