-- ==== Sys2Proof/Config.lean ====
section
/-!
DEFINITION. What an implementation fixes: the figures of the variants (00, R445), the performance levels (R333), the fixed
wiring and positions (R21, R63), and the free values of the model, which have no body.
-/
namespace Sys2Proof

/-- The variants (00 "Variants"). -/
inductive Variant
  | zt9 | zt9s | zt9e
deriving DecidableEq, Repr

namespace Config

/-- Rows of a lake (R19). -/
def rowsPerLake : Nat := 49152

/-- Bytes of a lake (R19). -/
def lakeBytes : Nat := 0x00C00000

/-- Lakes of the die on any variant (R23). -/
def lakes : Nat := 24

/-- `LAKE_COUNT` (R7). -/
def lakeCount : Variant → Nat
  | .zt9s => 16
  | _ => 24

/-- Lake `n` is present (R8). -/
def lakePresent (v : Variant) (n : Nat) : Bool := n < lakeCount v

/-- Transpose units present (R9). -/
def hasTranspose : Variant → Bool
  | .zt9s => false
  | _ => true

/-- Remote windows present (R9). -/
def hasWindows : Variant → Bool
  | .zt9e => false
  | _ => true

/-- Accumulate windows present (R9). -/
def hasAccWindows : Variant → Bool
  | .zt9e => false
  | _ => true

/-- `WINDOW_COUNT` (R9). -/
def windowCount : Variant → Nat
  | .zt9 => 256
  | .zt9s => 128
  | .zt9e => 0

/-- `TM_CAP0` (R445). -/
def cap0 : Variant → Nat
  | .zt9 => 0x10586018 | .zt9s => 0x11586010 | .zt9e => 0x12586018

/-- `TM_CAP1` (R445). -/
def cap1 : Variant → Nat
  | .zt9s => 0x0000FFFF
  | _ => 0x00FFFFFF

/-- `TM_CAP2` (R445). -/
def cap2 : Variant → Nat
  | .zt9 => 0x0100187F | .zt9s => 0x00800C7E | .zt9e => 0x00001879

/-- `TM_CAP3` (R445). -/
def cap3 : Variant → Nat := fun _ => 0x84081000

/-- Sets of the basin (R197). -/
def basinSets : Variant → Nat
  | .zt9s => 3072
  | _ => 6144

/-- Slices of the basin (R197). -/
def basinSlices : Variant → Nat
  | .zt9s => 16
  | _ => 24

/-- Sets of one slice (R197). -/
def basinSetsPerSlice : Variant → Nat
  | .zt9s => 192
  | _ => 256

/-- Root cycles of one T-cycle at a level (R330, R333). -/
def divider : Nat → Nat
  | 0 => 4 | 1 => 5 | 2 => 6 | 3 => 8 | _ => 16

/-- Target of VDD_LOG at a level, in mV (R333). -/
def vddLog : Nat → Nat
  | 0 => 800 | 1 => 720 | 2 => 660 | 3 => 600 | _ => 550

/-- Target of VDD_ARR at a level, in mV (R333). -/
def vddArr : Nat → Nat
  | 0 => 900 | 1 => 850 | 2 => 800 | _ => 750

/-- The lake that port `j` of ME `k` is wired to (R21). -/
def wireLake (k j : Nat) : Nat := (3 * k / 2 + j) % 24

/-- True where port `j` of ME `k` is wired to shore B: the higher-numbered of the lake's two MEs has it (R21). A lake
`n` is reached by ME `k` through port `j` when `3k/2 + j = n` modulo 24; lake 0 alone wraps, to ME 15. -/
def wireB (k j : Nat) : Bool :=
  if k = 15 then true
  else if k % 2 = 1 then j < 2 else j < 1 && k != 0

/-- Canal position of lake `n` (R63). -/
def lakePos (n : Nat) : Nat :=
  6 * (n / 3) + (match n % 3 with | 0 => 0 | 1 => 2 | _ => 3)

/-- Canal position of VC cluster `c` (R63). -/
def clusterPos (c : Nat) : Nat := 6 * (c / 2) + (if c % 2 = 0 then 1 else 4)

/-- Canal position of fabric stop `m` (R63). -/
def fabricPos : Nat → Nat
  | 0 => 5 | 1 => 17 | 2 => 29 | _ => 41

/-- Canal position of the host stop (R63). -/
def hostPos : Nat := 11

/-- Canal position of the die-to-die stop (R63). -/
def d2dPos : Nat := 23

/-- Canal position of the management stop (R63). -/
def mgmtPos : Nat := 35

/-- The lake whose stop stands at a canal position, where one does (R63). -/
def posLake (p : Nat) : Option Nat :=
  if p ≥ 48 then none
  else match p % 6 with
    | 0 => some (3 * (p / 6))
    | 2 => some (3 * (p / 6) + 1)
    | 3 => some (3 * (p / 6) + 2)
    | _ => none

/-- The clockwise distance of two positions (R69). -/
def cwDist (s d : Nat) : Nat := (d + 47 - s) % 47

/-- True where the route from `s` to `d` is counter-clockwise (R69). -/
def goesCcw (s d : Nat) : Bool := 24 ≤ cwDist s d

/-- Hops of the route from `s` to `d` (R69). -/
def hops (s d : Nat) : Nat := if goesCcw s d then 47 - cwDist s d else cwDist s d

/-- Packets a stop injects and ejects per T-cycle and direction (R65). -/
def stopRate (p : Nat) : Nat :=
  if p = hostPos ∨ p = mgmtPos then 1
  else if p = 5 ∨ p = 17 ∨ p = 29 ∨ p = 41 then 2
  else 4

/-- FREE VALUE: the draws of a lake's stochastic-rounding generator (R163): by lake, the values mixed into it with the T-cycle of each,
the T-cycle of the draw (it advances in every one), and the draws taken before. -/
opaque srDraw : Nat → List (Nat × BitVec 64) → Nat → Nat → BitVec 16

/-- FREE VALUE: when the walk of a basin invalidation reaches a line: by the T-cycle of the write, the die selector and the line (R208). -/
opaque walkAt : Nat → Bool → Nat → Nat

/-- FREE VALUE: the syndrome that `DETAIL` of a CORR or UNCORR record carries, which the device's own check matrix fixes
(R304, R319). -/
opaque syndrome : Nat → BitVec 8

/-- FREE VALUE: SHA-384 of a byte string (R419), left uninterpreted. -/
opaque sha384 : List Byte → List Byte

/-- FREE VALUE: whether a firmware signature verifies against the fused key, which the manual does not give (R419). -/
opaque signatureOk : List Byte → List Byte → Bool

/-- FREE VALUE: the signature the meter puts on the first 1,152 bytes of a record (R438, R440). -/
opaque meterSign : List Byte → List Byte

/-- FREE VALUE: a byte of `MTR_ID`, `MTR_PUBKEY` or `MTR_CERT` (R442), by entry and offset. -/
opaque meterIdentity : Nat → Nat → Byte

/-- FREE VALUE: the conversion of one stored setting to another settings format (R428), by format, key and value. -/
opaque convertSetting : BitVec 16 → Nat → Nat → Option Nat

/-- FREE VALUE: the fabric stop by which a request for another endpoint leaves the die; R34 says a fabric stop and does not
say which. -/
opaque fabricFor : BitVec 16 → Fin 4

/-- FREE VALUE: the lake, modulo those present, whose Spring carries a request for a stack's address; R34 says a Spring's stack
interface and does not say which. -/
opaque stackSpring : BitVec 44 → Nat

/-- FREE VALUE: the `STATUS` in the record of a discarded host write (0) and of a 128-bit CAS (1), which the manual does not
state (R29, R265). -/
opaque discardStatus : Nat → BitVec 4

/-- FREE VALUE: byte 1 of the INFO of `DEEP_ENTER`, whose right the manual calls both WO and RWP (R405, R414). -/
opaque deepEnterRight : BitVec 8

/-- FREE VALUE: the default in the INFO of an entry that the manual gives none (R405, R414), by index. -/
opaque infoDefault : Nat → BitVec 64

/-- FREE VALUE: a byte that a READ of `FW_CHUNK` returns, of which the manual says nothing (R414, R422), by read and offset. -/
opaque chunkRead : Nat → Nat → Byte

end Config
end Sys2Proof
end

