-- ==== Sys2Proof/Machine/State.lean ====
section
/-!
DEFINITION. The state of the memory system as plain data: every register, table, queue and mode the spec gives it, the queue
of waiting commands, and `State.reset`. Tables are sparse: an entry that is not listed holds its reset value.
-/
namespace Sys2Proof.Machine

/-- Faults of a step: none. No rule of the spec makes the block stop; every refusal is a response with a status. -/
inductive Fault
deriving DecidableEq, Repr

/-- Refusals of a step. -/
inductive Refusal
  /-- Raised by the dispatcher alone, for a command without a meaning; safe. -/
  | notModelled (mnemonic : String)
deriving DecidableEq, Repr

/-! ### Contexts, requesters and held requests -/

/-- A context record: 64 words of 8 bytes in the layout of R140. -/
abbrev Ctx := Tab (BitVec 64)

/-- A segment as captured with a command slot (R132, R175). -/
structure Seg where
  valid : Bool
  rd    : Bool
  wr    : Bool
  base  : Nat
  size  : Nat
deriving DecidableEq, Repr

/-- The engine class by which `LK_SHARE` grants rights (R125). -/
inductive EClass
  | vc | me | spring | fabric | host | remote | mgmt
deriving DecidableEq, Repr

/-- Who issues a request: issuing engine (R121), class (R125), principal (R122), privilege, label (R99 to R101), identity at
retry points (R88), context slot, wait timeout in T-cycles (R226, 0 for none), canal position, whether the request is
wired (R53), an arrival from another die or treated as one (R35, R283) and the endpoint it then carries; its deadline budget and the
T-cycles in which it was issued and granted injection (R111, R113), and a number that no other access not yet answered carries. -/
structure Who where
  engine  : Nat
  cls     : EClass
  pr      : Principal
  priv    : Bool
  label   : Nat
  ident   : Ident
  slot    : Option Nat
  timeout : Nat
  pos     : Nat
  wired   : Bool
  arrival : Option Nat
  segs    : List Seg
  dl      : Nat
  issued  : Nat
  granted : Nat
  id      : Nat
deriving DecidableEq, Repr

/-- The part of a request that falls in one row (R36, R157): row numbered over the die, the places of its words in the row,
operand words, masked (R166). -/
structure RowReq where
  row    : Nat
  places : List Nat
  data   : List Word
  masked : Bool
deriving DecidableEq, Repr

/-- How a row request treats the row's slate (R24, R216). -/
inductive Mode
  | plain | peek | consume | produce
  | takePeek (slot : Nat) | takeWrite (slot : Nat)
  | land (seq : Nat)
deriving DecidableEq, Repr

/-- A request held until its lake wakes (R341, R345), until DEEP ends (R349) or, at the host stop, until its backoff
expires (R30) or earlier posted writes have been performed (R261): a storage request of a requester, a control-space access of `size`
bytes at an offset, which writes where it carries a value, or a take command. `at_` is the view and the first word where the checks of the
issuing stop have been passed; `cls` the class under which it holds an entry of its shore's request queue (R105), or 4 where it holds
none. `due` is when a backoff expires, `w` the issuer with the label it issued under (R99). -/
inductive Held
  | access (op : Op) (q : Req) (data : List Word) (due : Nat) (w : Who) (at_ : Option (Nat × Nat)) (cls : Nat)
  | reg (src : Src) (off size : Nat) (v : Option (BitVec 64)) (due : Nat) (w : Who)
  | take (t : TakeCmd) (op : TakeOp) (w : Who)
deriving DecidableEq, Repr

/-- A host TLP that waits at the host stop for earlier posted writes (R261, R262): its Relaxed Ordering attribute, whether it
is posted, its requests. -/
structure HostTlp where
  ro     : Bool
  posted : Bool
  parts  : List Held
deriving DecidableEq, Repr

/-- A completion at the host bus (R30): Completer Abort, the EP bit, the bytes. -/
structure Cpl where
  abort : Bool
  ep    : Bool
  bytes : List Byte
deriving DecidableEq, Repr

/-- A host read of several requests: its tag, the word each request starts at and its completion where it has come; completions go
out in address order (R262). -/
structure HostRead where
  tag   : Nat
  parts : List (Nat × Option Cpl)
deriving DecidableEq, Repr

/-- What waits in a waiter entry (R223): a storage access on its rows, a landing write of the Spring's descriptor, or a cue
wait (R231). -/
inductive Waiting
  | access (op : Op) (q : Req) (mode : Mode) (rid part : Nat) (rows : List RowReq)
  | land (seq piece : Nat)
  | cue (c : Nat) (n : Nat) (src : Src)
deriving DecidableEq, Repr

/-- A waiter-table entry (R224). -/
structure Waiter where
  id    : Nat
  who   : Who
  what  : Waiting
  rows  : List Nat
  since : Nat
deriving DecidableEq, Repr

/-- A request of which some row requests still wait (R37, R216): its address as presented and its operand, the parts done so
far, each with the backoff count of a RETRY, its latency without the wait and the T-cycle in which it was presented. -/
structure Flight where
  rid   : Nat
  who   : Who
  op    : Op
  q     : Req
  orig  : BitVec 64
  opnd  : List Word
  parts : List (Option (Status × List Word × Nat))
  lat   : Nat
  start : Nat
deriving DecidableEq, Repr

/-! ### Lakes -/

/-- The tag and check state of a row (R17, R304, R310): slate, poison mark, units or codewords holding a correctable error
and those that cannot be corrected. -/
structure RowTag where
  slate : Slate
  mark  : Bool
  corr  : List Nat
  bad   : List Nat
deriving DecidableEq, Repr

/-- A row performed in the present PS cycle (R49): the rank of the shore served last (R48), its contents and tag from before the cycle,
the words written by WRITEs and those touched by lake atomics, whether a read has checked the row. DESIGN CHOICE (assumption log 8). -/
structure Grp where
  row     : Nat
  rank    : Nat
  old     : List Word
  tag     : RowTag
  writes  : List Nat
  atoms   : List Nat
  checked : Bool
deriving DecidableEq, Repr

/-- The row requests presented so far in the present PS cycle: how many each arbiter has placed in its lanes (R36, R38), and the rows
whose pond cycles they take, in the order served (R48, R50). DESIGN CHOICE (assumption log 8). -/
structure PsCycle where
  lanes : List (Nat × Nat)
  rows  : List Nat
deriving DecidableEq, Repr

/-- A pending write-back (R43, R46): its row, due T-cycle, the words, errors and mark to restore if a reset drops it (R357), and whether
an armed error may still be applied to it (R324). The row itself already holds what the write-back will write, since every access in
between is performed as if it had taken place (R46). DEDUCED (assumption log 9). -/
structure WriteBack where
  row   : Nat
  due   : Nat
  undo  : List (Nat × Word)
  corr  : List Nat
  bad   : List Nat
  mark  : Bool
  fresh : Bool
deriving DecidableEq, Repr

/-- A mark-queue entry (R311): its row, whether the mark write also writes STALE. -/
structure MarkEntry where
  row   : Nat
  stale : Bool
deriving DecidableEq, Repr

/-- A range step in the range table (R221, R222): the rows whose tag bits are still to be rewritten, and the slate each
takes. -/
structure RangeStep where
  sets : List (Nat × Slate)
deriving DecidableEq, Repr

/-- A range step that waits for a range-table entry (R222): the end of a take position, or a descriptor's completion, cut or
abort. -/
inductive StepWait
  | take (t : Nat)
  | complete (seq : Nat)
  | cut
  | abort
deriving DecidableEq, Repr

/-- The states of a take position (R240). -/
inductive TakeState
  | free | open | committing | aborting
deriving DecidableEq, Repr

/-- A take position (R240), with the cause, step and status of an end without commit (R294), the T-cycle and tag of its command,
and the number that later requests exceed. `PENDING` is counted from the accesses themselves (`State.takePending`). -/
structure Take where
  state   : TakeState
  f       : TakeFields
  pr      : Principal
  who     : Option Who
  cause   : Nat
  fault   : Bool
  at_     : Nat
  tag     : Nat
  byCmd   : Bool
  mark    : Nat
  st      : Status
deriving DecidableEq, Repr

/-- An arbiter set's configuration (R92 to R94, R96). -/
structure ArbCfg where
  burstM1  : BitVec 5
  fallback : Bool
  q0       : BitVec 6
  q1       : BitVec 6
  q2       : BitVec 6
  ovr      : BitVec 32
deriving DecidableEq, Repr

/-- An arbiter's own state (R60 to R62, R79 to R91): active grant, master granted last, whether it is parked on it, beats issued, burst
limit and mode of the grant, grants of each class in the window, classes masked as of its last decision (R97), window closed, round-robin
pointers; the T-cycles its beat has been withheld in a row, what that beat costs, its class, and the T-cycle in which it was last offered
tokens (R118); the source rows of an XREAD of the grant that remain to be issued, their label, and one more than the T-cycle in which it last
issued some (R153); the T-cycles `[holdFrom, holdTo)` in which a stall holds its shore (R50, R82). -/
structure Arb where
  active   : Bool
  last     : Nat
  beats    : Nat
  limit    : Nat
  fb       : Bool
  g        : Nat × Nat × Nat × Nat
  closed   : Bool
  rr       : Nat × Nat × Nat × Nat
  withheld : Nat
  parked   : Bool
  mask     : BitVec 3
  want     : Nat
  wantCls  : Nat
  offered  : Nat
  xr       : Nat
  xrAt     : Nat
  xrLabel  : Nat
  holdFrom : Nat
  holdTo   : Nat
deriving DecidableEq, Repr

/-- A spare row or column group binding (R369, R377). -/
structure Spare where
  used   : Bool
  soft   : Bool
  bad    : Bool
  target : Nat
deriving DecidableEq, Repr

/-- The repair state of a pond (R369, R377). -/
structure PondRepair where
  rows     : Tab Spare
  cols     : Tab Spare
  unrep    : Bool
  failRows : Nat
  failCols : Nat
deriving DecidableEq, Repr

/-- The march test engine of a lake (R377) and the failing cells of the run in progress. -/
structure Mte where
  mode    : Bool
  bg      : BitVec 4
  busy    : Bool
  done    : Bool
  result  : Nat
  phase   : Nat
  modeRun : Bool
  cold    : Bool
  cycles  : Nat
  start   : Nat
  due     : Nat
  sel     : Nat
  fails   : List FailCell
  repair  : Tab PondRepair
  remap   : Nat
deriving DecidableEq, Repr

/-- The registers and tables of a lake page's `LK_` block (chapters 03, 04, 06, 07, 10, 15, 22). The generator of R163 is the draws taken
and the values mixed in, each with its T-cycle. -/
structure Lake where
  owner     : Principal
  share     : BitVec 14
  aSplit    : BitVec 2
  bSplit    : BitVec 2
  arbCfg    : Tab ArbCfg
  slFirst   : BitVec 16
  slCount   : BitVec 16
  slState   : BitVec 2
  slZero    : Bool
  slBusy    : Bool
  slDone    : Bool
  slNext    : Nat
  slWho     : Option Who
  skipped   : Nat
  query     : BitVec 16
  forceRne  : Bool
  fInvalid  : Bool
  fOverflow : Bool
  iOverflow : Bool
  srForced  : Bool
  srSeed    : BitVec 64
  draws     : Nat
  mixes     : List (Nat × BitVec 64)
  takes     : Tab Take
  waiters   : List Waiter
  steps     : List RangeStep
  stepWait  : List StepWait
  wMode     : Bool
  convBusy  : Bool
  convDue   : Nat
  scrubInt  : BitVec 5
  scrubEn   : Bool
  nextRow   : Nat
  passes    : Nat
  scrubFrom : Nat
  scrubDue  : List (Nat × Nat)
  corrected : Nat
  uncorr    : Nat
  poison    : Nat
  injRow    : BitVec 16
  injArm    : Bool
  injKind   : BitVec 2
  injUnit   : BitVec 5
  wbs       : List WriteBack
  marks     : List MarkEntry
  billLabel : BitVec 6
  billEn    : Bool
  tokens    : Nat
  idleFrom  : Nat
  inReset   : Bool
  wakeSweep : Bool
deriving DecidableEq, Repr

/-- The states of a lake (R340). -/
inductive LkState
  | on | idle | ret | off | draining | entering | waking
deriving DecidableEq, Repr

/-- The power state of a lake (R340) and its transition: where it goes, when it ends, whether a wake waits (R347), whether
a wake from IDLE runs (R341), the requests held for a wake. -/
structure LakePower where
  req       : BitVec 2
  autoIdle  : Bool
  wakeReq   : Bool
  idleDelay : BitVec 16
  state     : LkState
  nacks     : Nat
  toOff     : Bool
  fromOff   : Bool
  due       : Nat
  dueNs     : Nat
  wakePend  : Bool
  waking    : Bool
  held      : List Held
  deepBack  : Bool
deriving DecidableEq, Repr

/-! ### Springs -/

/-- A command slot that has become FULL (R175): its reel position and what was recorded for it; whether it has been read; the
sequence from which a cut has cancelled it (R187). -/
structure Slot where
  pos   : Nat
  pr    : Principal
  priv  : Bool
  label : Nat
  segs  : List Seg
  taskBound : Bool
  read  : Bool
  cutAt : Option Nat
deriving DecidableEq, Repr

/-- Where a descriptor stands (R181, R184, R187, R190). -/
inductive DStage
  | decoded | flight | ended
deriving DecidableEq, Repr

/-- A descriptor (R177): its sequence number, its eight words, the slot it came from and its stage. `issued` once its requests
have been issued. Its data moves in pieces: those looked up in the basin, those asked for, those whose data or acknowledgement has come back, data that waits to be landed in order, pieces landed in
the own lake, and the rows landed. `met` where a MARK or WAIT_CUE has found its condition, `failed` after a fault, `watch` the age
of a cue watch, `cut` and `removed` after a cut or an abort, `depthLim` and `stalled` the flags of its flight (R186). -/
structure Desc where
  seq      : Nat
  w        : List (BitVec 64)
  slot     : Slot
  stage    : DStage
  issued   : Bool
  looked   : List Nat
  asked    : List Nat
  returned : List Nat
  ready    : List (Nat × List Word)
  written  : List Nat
  landed   : List Nat
  met      : Bool
  failed   : Bool
  watch    : Nat
  cut      : Bool
  removed  : Bool
  depthLim : Bool
  stalled  : Bool
deriving DecidableEq, Repr

/-- A fault that starts, or waits for, a task abort (R190, R192): its principal, the faulting Spring, the descriptor's sequence,
tag and kind, the status and its T-cycle. -/
structure Faulted where
  pr   : Principal
  lake : Nat
  seq  : Nat
  tag  : Nat
  kind : Nat
  st   : Status
  at_  : Nat
deriving DecidableEq, Repr

/-- A Spring (R195, R213). -/
structure Spring where
  reel      : BitVec 6
  bound     : Bool
  pause     : Bool
  depthMax  : BitVec 7
  depthFix  : Bool
  depth     : Nat
  run256    : Nat
  nextRead  : Nat
  slots     : List Slot
  descs     : List Desc
  cutSeq    : BitVec 32
  cutBusy   : Bool
  cutDone   : Bool
  cancelled : Nat
  firstSeq  : Nat
  faultSt   : Nat
  faultV    : Bool
  faultPr   : Principal
  faultKind : Nat
  faultSeq  : Nat
  faultAddr : BitVec 64
  discard   : Nat
  skip      : Nat
  follow    : Nat
  trkDesc   : Nat
  deferred  : List Faulted
deriving DecidableEq, Repr

/-! ### Basin -/

/-- A basin line (R197): its tag, its data, the 64-bit units of it that hold an error which can and cannot be corrected, and the T-cycle in
which the stack read that filled it was issued (R208). -/
structure Line where
  valid : Bool
  sib   : Bool
  line  : Nat
  ref   : Bool
  data  : List Word
  corr  : List Nat
  bad   : List Nat
  at_   : Nat
deriving DecidableEq, Repr

/-- A fill entry (R201, R202): the line, its set and reserved way, whether it is to be installed, its requesters, the T-cycle of its
stack read. -/
structure Fill where
  sib       : Bool
  line      : Nat
  set       : Nat
  way       : Nat
  noInstall : Bool
  reqs      : List (Nat × Nat × Nat)
  at_       : Nat
deriving DecidableEq, Repr

/-- The basin and its registers (R197 to R209); `start` and `due` bound the invalidation in progress and `walkLen` is its length in lines
(R208); `seen` are the lines looked
up in T-cycle `seenAt` (R200). -/
structure Basin where
  lines    : Tab Line
  fills    : List Fill
  invAll   : Bool
  invSib   : Bool
  invAddr  : BitVec 36
  invLen   : BitVec 24
  busy     : Bool
  done     : Bool
  eccDrop  : Bool
  due      : Nat
  start    : Nat
  walkLen  : Nat
  seenAt   : Nat
  seen     : List (Bool × Nat)
deriving DecidableEq, Repr

/-! ### Cues, windows, reels -/

/-- A cue (R229). -/
structure Cue where
  owner   : Principal
  sigOpen : Bool
  home    : BitVec 5
  count   : Nat
  ovf     : Bool
  lost    : Nat
  sig     : BitVec 18
  wait    : BitVec 18
deriving DecidableEq, Repr

/-- The states of a window (R280). -/
inductive WinState
  | free | open | closing | closed
deriving DecidableEq, Repr

/-- A window entry (R273 to R280), with its accepted writes that have not reached DV and the CLOSEs that wait (R287). -/
structure Win where
  owner    : Principal
  first    : BitVec 16
  rows     : BitVec 16
  lake     : BitVec 5
  epFirst  : BitVec 16
  epLast   : BitVec 16
  mode     : BitVec 2
  cmd      : BitVec 2
  state    : WinState
  cause    : Nat
  late     : Bool
  accepted : Nat
  rejected : Nat
  closers  : List Src
  atClose  : Nat
deriving DecidableEq, Repr

/-- A reel entry (R136). -/
structure Reel where
  base     : BitVec 36
  size     : BitVec 5
  enable   : Bool
  slated   : Bool
  producer : BitVec 8
  consumer : BitVec 8
  tail     : BitVec 32
  head     : BitVec 32
  refused  : Bool
deriving DecidableEq, Repr

/-! ### Weir, canal -/

/-- A deadline estimator (R113): samples taken, their sum while fewer than 16, Ŵ. -/
structure Est where
  n   : Nat
  sum : Nat
  w   : Nat
deriving DecidableEq, Repr

/-- Late deadline requests of a class (R114): the count and the record that waits. -/
structure Late where
  count   : Nat
  sat     : Bool
  since   : Option Nat
  pending : Nat
  label   : Nat
  pos     : Nat
deriving DecidableEq, Repr

/-- The weir (chapter 05). `qshare` holds `WEIR_QSHARE_A`, `_B`, `_S`, `_C`, `_STOP`; `pSum` the sum of the power readings of each supply in
the present period and their number (R116). -/
structure Weir where
  labelMap : Tab (BitVec 32)
  clsDl    : BitVec 4
  qshare   : Tab (BitVec 32)
  ways0    : BitVec 32
  ways1    : BitVec 32
  srcLabel : BitVec 64
  cap      : BitVec 12
  allow    : Nat
  limit    : Nat
  unmet    : Bool
  pMeas    : BitVec 16
  low      : Nat
  calm     : Nat
  late     : Tab Late
  est      : Tab Est
  lwords   : Tab Nat
  pSum     : Tab (Nat × Nat)
deriving DecidableEq, Repr

/-- An entry of an arrival queue (R71, R105): packet, source position, source engine's index, class it entered with; the row request it
carries (R72), its label, and the T-cycle at which its deadline budget is spent (R111). -/
structure QEntry where
  id    : Nat
  src   : Nat
  idx   : Nat
  cls   : Nat
  label : Fin 64
  row   : Nat
  ask   : RowAsk
  due   : Int
deriving DecidableEq, Repr

/-- A packet at a stop or on a ring: the packet, its direction, the T-cycle it was held or injected, and that in which its request was
issued. -/
structure Transit where
  k    : Packet
  ccw  : Bool
  at_  : Nat
  iss  : Int
deriving DecidableEq, Repr

/-- A canal stop (R65 to R71, R89): packets held for injection, starvation and reservation by direction, outstanding
requests by direction, arrival queue, recorded refusals (source position, index, packet, expiry), copies of its own refused
requests, each with the T-cycle in which its backoff expires; positions reserved for it (direction, phase, the packet that occupies the position), the T-cycle of its last ejections and
their number, by direction, and of the last requests its client took (R105). -/
structure Stop where
  held     : List Transit
  starvCw  : Bool
  starvCcw : Bool
  outCw    : List Transit
  outCcw   : List Transit
  queue    : List QEntry
  refused  : List (Nat × Nat × Nat × Nat)
  copies   : List (Packet × Nat)
  rsv      : List (Bool × Nat × Nat)
  ejCw     : Nat × Nat
  ejCcw    : Nat × Nat
  took     : Nat × Nat
deriving DecidableEq, Repr

/-! ### Error log, counters, power, sideband, firmware, meter -/

/-- An error record (R319). -/
structure Rec where
  time   : Nat
  seq    : Nat
  cls    : Nat
  status : Nat
  source : Nat
  engine : Nat
  tid    : Nat
  detail : Nat
  count  : Nat
  addr   : Nat
deriving DecidableEq, Repr

/-- Held corrections of a CORR source (R320): time of its last record, corrections held, the first of them. -/
structure Corr where
  last  : Option Nat
  held  : Nat
  first : Option Rec
deriving DecidableEq, Repr

/-- The error log (R320 to R323). -/
structure ErrLog where
  recEn    : BitVec 8
  ibiEn    : BitVec 8
  lost     : Bool
  firstV   : Bool
  fatal    : Bool
  ibiPend  : BitVec 8
  intake   : List Rec
  head     : Nat
  tail     : Nat
  ctrlCorr : Nat
  lostC    : Tab Nat
  first    : Option Rec
  ring     : Tab (Option Rec)
  corr     : Tab Corr
  lastIbi  : Tab (Option Nat)
deriving DecidableEq, Repr

/-- A counter (R382 to R389): configuration, value, wrap, pending count, and one more than the T-cycle in which its event
last occurred, for edge counting. -/
structure Counter where
  cfg  : BitVec 32
  val  : Nat
  wrap : Bool
  pend : Nat
  nz   : Nat
deriving DecidableEq, Repr

/-- The counters and the dailies (R388 to R390). -/
structure Counters where
  ctrs    : Tab Counter
  halt    : Bool
  clrWrap : Bool
  busy    : Bool
  done    : Bool
  seq     : Nat
  due     : Nat
  epoch   : Nat
  page    : Tab Counter
  seqA    : Nat
  time    : Nat
  level   : Nat
  clr     : Bool
  pepoch  : Nat
  seqB    : Nat
deriving DecidableEq, Repr

/-- The counter sets (R378). -/
inductive CSet
  | lake | spring | arb | canal | basin
deriving DecidableEq, Repr

/-- The registers of the control space (R443), with their index in a table. An error record and a context record are read as
words of 8 bytes; a counter is named by its offset in the `CNT_` block. -/
inductive Reg
  | tmStatus | tmCap (i : Nat) | tmEpId | tmReset | tmResetStat | tmLakeReset | tmLakeResetStat
  | tmCtxSel | tmCtxSave | tmCtxRestore | tmCtxStat | tmTaskAbort | tmAbortStat | tmKernelEnd | tmKernelStat
  | tmPreempt | tmPreemptStat | liveView (i : Nat) | tmBasinInv | tmBasinInvLen | tmBasinStat | tmFwStat
  | pwrLevel | pwrLevelStat | pwrLake (n : Nat) | pwrLakeStat (n : Nat) | pwrWake | pwrDeep | pwrMon (i : Nat) | pwrTime
  | pwrFtimeOfs
  | labelMap (n : Nat) | labelMapCls | qshare (i : Nat) | basinWays (i : Nat) | srcLabel | pcap | pcapStat | late (c : Nat)
  | dlEst (i : Nat) | lwords (n : Nat) | stopArb (i which : Nat) | stopStat (i : Nat)
  | errCtl | errStat | errHead | errTail | errCtrlCorr | errLost (c : Nat) | errFirst (i : Nat) | errRing (slot i : Nat)
  | dlyCtl | dlyStat | cntGlobal | cntEpoch | cntCfg (o : Nat) | cntVal (o : Nat) | dlyHead (i : Nat) | dlyCfg (o : Nat)
  | dlyVal (o : Nat)
  | cueCfg (c : Nat) | cueCount (c : Nat) | cueSignal (c : Nat) | cueWait (c : Nat)
  | winOwner (w : Nat) | winRange (w : Nat) | winSrc (w : Nat) | winMode (w : Nat) | winCtl (w : Nat) | winStat (w : Nat)
  | winCount (w : Nat) | winLate (w : Nat)
  | reelBase (e : Nat) | reelCfg (e : Nat) | reelTail (e : Nat) | reelHead (e : Nat) | reelStat (e : Nat)
  | lkOwner (n : Nat) | lkShare (n : Nat) | lkQuiet (n : Nat) | lkShoreCfg (n : Nat) | lkArb (n i which : Nat)
  | lkArbStat (n i j : Nat) | lkSlateOp (n : Nat) | lkSlateStat (n : Nat) | lkSlateQuery (n : Nat) | lkMsoCtl (n : Nat)
  | lkMsoStat (n : Nat) | lkSrSeed (n : Nat) | lkTakeCtl (n t : Nat) | lkTakeOps (n t : Nat) | lkTakeRes (n t : Nat)
  | lkProt (n : Nat) | lkScrub (n : Nat) | lkScrubStat (n : Nat) | lkEccCnt (n : Nat) | lkEccInj (n : Nat) | lkBill (n : Nat)
  | sprReel (n : Nat) | sprCtl (n : Nat) | sprStat (n : Nat) | sprDoneSeq (n : Nat) | sprCut (n : Nat) | sprCutStat (n : Nat)
  | sprFault (n : Nat) | sprFaultAddr (n : Nat) | sprDiscard (n : Nat) | sprSkip (n : Nat) | sprFaultFollow (n : Nat)
  | sprTrkStat (n : Nat) | sprTrkDesc (n : Nat)
  | mteCtl (n : Nat) | mteStat (n : Nat) | mteSummary (n : Nat) | mtePondSel (n : Nat) | mtePondMap (n : Nat)
  | mteRowMap (n i : Nat) | mteColMap (n j : Nat)
deriving DecidableEq, Repr

/-- The block's power and time (chapter 16): time, level, level change, supplies, DEEP, clocks. -/
structure Power where
  now       : Nat
  ns        : Nat
  frac      : Nat
  ftimeOfs  : BitVec 64
  req       : BitVec 3
  cur       : Nat
  busy      : Bool
  done      : Bool
  drainTo   : Bool
  phase     : Nat
  goal      : Nat
  drainAt   : Nat
  lastDrain : Nat
  switching : Bool
  arrMv     : Nat
  logMv     : Nat
  stepNs    : Nat
  mon       : Tab (BitVec 48)
  deep      : Nat
  deepPend  : Bool
  deepDueNs : Nat
  deepTimed : Bool
  refOk     : Bool
  logOk     : Bool
  held      : List Held
deriving DecidableEq, Repr

/-- An access that has not been answered, as what waits for it names it (R249 to R251, R259): by its number, by its Spring, sequence and
piece, or by its sender where it has neither. -/
inductive Access
  | num (id : Nat)
  | piece (n seq i : Nat)
  | sent (src : Src)
deriving DecidableEq, Repr

/-- The global block (chapters 01, 06, 08, 11, 14, 17) but for what stands elsewhere. -/
structure Global where
  ready      : Bool
  step       : Nat
  stepDue    : Nat
  stepDueNs  : Nat
  fuseErr    : Bool
  lakeFail   : BitVec 24
  aonUp      : Bool
  pkgDie     : Bool
  epId       : BitVec 16
  epValid    : Bool
  rstCause   : Nat
  warmCount  : Nat
  lrLake     : BitVec 5
  lrBusy     : Bool
  lrDone     : Bool
  lrTarget   : Nat
  lrWait     : Bool
  lrDue      : Nat
  ctxSel     : BitVec 9
  ctxSave    : BitVec 64
  ctxRestore : BitVec 64
  ctxBusy    : Bool
  ctxIsSave  : Bool
  ctxStatus  : Nat
  ctxLast    : Nat
  abEngine   : BitVec 8
  abTid      : BitVec 12
  abBusy     : Bool
  abDone     : Bool
  abFault    : Bool
  abCur      : Principal
  abFirst    : Option Faulted
  abSrcPos   : Nat
  abAt       : Nat
  abQueue    : List Faulted
  kEnd       : BitVec 16
  kPoint     : Nat
  kBusy      : Bool
  kDone      : Bool
  kLast      : BitVec 16
  kCover     : List Access
  preempt    : BitVec 64
  peBusy     : Bool
  peDone     : Bool
  peMe       : Nat
  peSub      : BitVec 12
  peCommit   : Nat
  peAbort    : Nat
  peDeadline : Nat
  pePassed   : Bool
deriving DecidableEq, Repr

/-- A remote access of this die that has not been answered (R250): number, requester, the position of the stop it leaves by and its
operation, whether it goes to the sibling die, where its response goes, the descriptor it belongs to where a Spring issued it (lake,
sequence, piece). -/
structure Remote where
  id      : Nat
  who     : Who
  pos     : Nat
  op      : Op
  sibling : Bool
  src     : Option Src
  desc    : Option (Nat × Nat × Nat)
deriving DecidableEq, Repr

/-- A response of this die on its way back to a Spring's stop (R64): its number, the Spring, the descriptor and piece it
belongs to, its status and data. -/
structure SpringMail where
  id    : Nat
  n     : Nat
  seq   : Nat
  piece : Nat
  st    : Status
  data  : List Word
deriving DecidableEq, Repr

/-- A fence that waits (R249): its number, sender, scope, the accesses it waits for. -/
structure Fence where
  id    : Nat
  src   : Src
  scope : Nat
  waits : List Access
deriving DecidableEq, Repr

/-- A cue signal held at its stop, with its issuer, the accesses it waits for, and the control-space accesses that its source has issued
behind it (R244, R251). -/
structure HeldSignal where
  id    : Nat
  src   : Src
  who   : Who
  cue   : Nat
  v     : BitVec 64
  waits : List Access
  after : List Held
deriving DecidableEq, Repr

/-- A dictionary request held by the target (R398, R402). -/
structure DictReq where
  tag   : Nat
  op    : Nat
  index : Nat
  sub   : Nat
  off   : Nat
  len   : Nat
  data  : List Byte
  mpriv : Bool
deriving DecidableEq, Repr

/-- A dictionary response (R399). -/
structure DictResp where
  tag    : Nat
  status : Status
  detail : Nat
  data   : List Byte
deriving DecidableEq, Repr

/-- The I3C target (R394 to R412): `held` and `resp` are the request being served and the response made for it, `ready` that it
may be read, `unread` that it has not been; `pend` and `last` the pending payload and the last raise of each event code. -/
structure I3c where
  addr    : Option (BitVec 7)
  enint   : Bool
  enhj    : Bool
  mwl     : BitVec 16
  mrl     : BitVec 16
  err     : Bool
  hdr     : Bool
  inst    : BitVec 3
  held    : Option DictReq
  resp    : Option DictResp
  ready   : Bool
  unread  : Bool
  pend    : Tab (Option (BitVec 32))
  last    : Tab (Option Nat)
  ibiMask : BitVec 8
  hjNs    : Nat
deriving DecidableEq, Repr

/-- A firmware image or slot: its bytes by offset; an unlisted byte is zero. -/
abbrev Image := Tab Byte

/-- The states of the update (R420). -/
inductive FwState
  | idle | receiving | verifying | staged | scheduled | trial | rejected
deriving DecidableEq, Repr

/-- A settings bank (R428): the format it holds and its settings by entry key (index × 256 + sub-index). -/
structure Bank where
  fmt  : BitVec 16
  vals : Tab (Option Nat)
deriving DecidableEq, Repr

/-- The sequencer and its boot store (chapter 21). `starting`: the loader has started an image that has not signalled its start;
`running`: it has; `stopped`: no image can be started before a cold reset. `conv`: the image on trial has converted the settings
into its own bank `cur` (R428). -/
structure Fw where
  running   : Bool
  starting  : Bool
  stopped   : Bool
  startNs   : Nat
  slotA     : Image
  slotB     : Image
  bank      : Tab Bank
  cur       : Nat
  conv      : Bool
  state     : FwState
  version   : BitVec 32
  bitmap    : List Nat
  fired     : Bool
  at_       : Nat
  sched     : List Byte
  trialNs   : Nat
  revert    : Bool
  reason    : Nat
  arb       : Nat
  setOk     : Bool
  sibValid  : Bool
  sibTrial  : Bool
  sibIface  : BitVec 16
  sibNs     : Nat
  pcapMw    : Nat
deriving DecidableEq, Repr

/-- The sealed meter (chapter 22). Meter time is `time` plus the nanoseconds since `base` of the timestamp. Energy is kept in units of
10⁻¹⁴ J, data moved in words; the `Due` times are those of the next samples and record; the `f` flags belong to the interval. -/
structure Meter where
  running   : Bool
  time      : Nat
  base      : Nat
  energyDue : Nat
  sampleDue : Nat
  recDue    : Nat
  energy    : Tab Nat
  moved     : Tab Nat
  occ       : Tab Nat
  lastW     : Tab Nat
  restart   : Bool
  fStart    : Bool
  fRestart  : Bool
  fAonOff   : Bool
  clkFree   : Bool
  tamper    : Bool
  cause     : BitVec 5
  aonSeen   : Bool
  seq       : Nat
  recs      : Tab (List Byte)
deriving DecidableEq, Repr

/-- What the block drives on its ports. -/
inductive Out
  | resp (port : Port) (tag : Nat) (status : Status) (data : List Word) (lat : Nat) (backoff : Nat)
  | reg (port : Port) (tag : Nat) (status : Status) (value : BitVec 64)
  | cpl (tag : Nat) (abort unsupported ep : Bool) (bytes : List Byte)
  | stackRead (n : Nat) (seq piece : Nat) (sib : Bool) (off words label : Nat)
  | stackWrite (n : Nat) (seq piece : Nat) (sib : Bool) (off : Nat) (data : List Word) (label : Nat)
  | basinRead (sib : Bool) (line label : Nat) (pr : Principal)
  | remote (id : Nat) (pos : Nat) (op : Op) (addr : BitVec 64) (words : Nat) (data : List Word) (label : Nat)
  | abortNotice (lake slot cause : Nat)
  | fenceDone (port : Port) (tag : Nat) (status : Status)
  | ibi (mdb : Nat) (payload : BitVec 32)
  | hotJoin
  | frame (bytes : List Byte)
  | busNack
  | ccc (bytes : List Byte)
  | dict (status : Status) (detail : Nat)
  | voltage (arr log : Nat)
  | packet (p : Nat) (id : Nat) (status : Status) (data : List Word) (backoff : Nat)
  | delivered (p : Nat) (id : Nat)
deriving DecidableEq, Repr

/-- The state of the block. `out` lists what it has driven, newest first; `pending` is the queue of commands; `group` the
rows performed in the present PS cycle (R49), `ps` what has been placed in it, and `inPond` the T-cycle of the latest DV of the requests of
each shore, four to a lake (R58, R336); `clientsOff` the positions of the stops whose client, no
lake, is absent, in reset or unpowered (R74), which the outside world alone decides. -/
structure State where
  pending  : List Instr
  variant  : Variant
  mem      : List Host.Cell
  rows     : Tab RowTag
  lakes    : Tab Lake
  lpow     : Tab LakePower
  mtes     : Tab Mte
  springs  : Tab Spring
  arbs     : Tab Arb
  backoff  : List ((RetryPt × Ident) × (Nat × Nat))
  stops    : Tab Stop
  stopCfg  : Tab ArbCfg
  ring     : List Transit
  cues     : Tab Cue
  wins     : Tab Win
  reels    : Tab Reel
  ctxs     : Tab Ctx
  basin    : Basin
  weir     : Weir
  err      : ErrLog
  cnt      : Counters
  pw       : Power
  tm       : Global
  remotes  : List Remote
  fences   : List Fence
  signals  : List HeldSignal
  inbox    : List SpringMail
  flights  : List Flight
  hostHeld : List HostTlp
  hostReads : List HostRead
  hostRetry : List Held
  group    : List Grp
  ps       : PsCycle
  inPond   : Tab Nat
  clientsOff : List Nat
  i3c      : I3c
  fw       : Fw
  meter    : Meter
  nextId   : Nat
  fresh    : Nat
  out      : List Out
deriving DecidableEq, Repr

/-! ### Reset values -/

/-- The management controller's principal, the owner after reset (R123). -/
def mgmtPrincipal : Principal := ⟨0x7C, 0⟩

def TakeFields.none : TakeFields := ⟨false, false, 0, 0, ⟨0, 0⟩, ⟨0, 0⟩, ⟨0, 0⟩⟩

/-- A FREE take position (R240). -/
def Take.reset : Take := ⟨.free, TakeFields.none, ⟨0, 0⟩, none, 0, false, 0, 0, false, 0, .ok⟩

/-- Reset values of an arbiter set (R92 to R94). -/
def ArbCfg.reset : ArbCfg := ⟨15, false, 48, 56, 62, 0⟩

/-- An arbiter after reset (R91): parked on its lowest index `low`, pointers at the last index `high`. -/
def Arb.reset (high : Nat) : Arb :=
  ⟨false, 0, 0, 16, false, (0, 0, 0, 0), false, (high, high, high, high), 0, true, 0, 0, 0, 0, 0, 0, 0, 0, 0⟩

/-- A row after initialisation (R352, R361). -/
def RowTag.reset : RowTag := ⟨.empty, false, [], []⟩

/-- Reset values of a lake page (chapters 03 to 15, 22). -/
def Lake.reset : Lake where
  owner := mgmtPrincipal
  share := 0
  aSplit := 0
  bSplit := 0
  arbCfg := []
  slFirst := 0
  slCount := 0
  slState := 0
  slZero := false
  slBusy := false
  slDone := false
  slNext := 0
  slWho := none
  skipped := 0
  query := 0
  forceRne := false
  fInvalid := false
  fOverflow := false
  iOverflow := false
  srForced := false
  srSeed := 0
  draws := 0
  mixes := []
  takes := []
  waiters := []
  steps := []
  stepWait := []
  wMode := false
  convBusy := false
  convDue := 0
  scrubInt := 20
  scrubEn := true
  nextRow := 0
  passes := 0
  scrubFrom := 0
  scrubDue := []
  corrected := 0
  uncorr := 0
  poison := 0
  injRow := 0
  injArm := false
  injKind := 0
  injUnit := 0
  wbs := []
  marks := []
  billLabel := 0
  billEn := false
  tokens := 96
  idleFrom := 0
  inReset := false
  wakeSweep := false

/-- Reset values of a lake's power registers (R340): IDLE. -/
def LakePower.reset : LakePower :=
  ⟨1, true, true, 256, .idle, 0, false, false, 0, 0, false, false, [], false⟩

def Spare.reset : Spare := ⟨false, false, false, 0⟩
def PondRepair.reset : PondRepair := ⟨[], [], false, 0, 0⟩

/-- Reset values of a march engine (R377). -/
def Mte.reset : Mte := ⟨false, 0xF, false, false, 0, 0, false, false, 0, 0, 0, 0, [], [], 0⟩

/-- Reset values of a Spring (R195, R196). -/
def Spring.reset : Spring :=
  ⟨0, false, false, 16, false, 2, 0, 0, [], [], 0, false, false, 0, 0, 0, false, ⟨0, 0⟩, 0, 0, 0, 0, 0, 0, 0, []⟩

/-- Reset values of cue `c` (R229): `HOME` is `c` modulo `LAKE_COUNT`. -/
def Cue.reset (v : Variant) (c : Nat) : Cue :=
  ⟨mgmtPrincipal, false, BitVec.ofNat 5 (c % Config.lakeCount v), 0, false, 0, 0, 0⟩

/-- Reset values of a window entry (R274 to R280). -/
def Win.reset : Win := ⟨mgmtPrincipal, 0, 0, 0, 0, 0, 0, 0, .free, 0, false, 0, 0, [], 0⟩

/-- Reset values of a reel entry (R136). -/
def Reel.reset : Reel := ⟨0, 0, false, false, 0, 0, 0, 0, false⟩

def Line.reset : Line := ⟨false, false, 0, false, [], [], [], 0⟩
def Basin.reset : Basin := ⟨[], [], false, false, 0, 1, false, false, false, 0, 0, 0, 0, []⟩
def Est.reset : Est := ⟨0, 0, 0⟩
def Late.reset : Late := ⟨0, false, none, 0, 0, 0⟩

/-- `WEIR_LABELMAPn` after reset (R102): class 1, group 0, deadline 0xFFFF. -/
def labelMapReset : BitVec 32 := 0xFFFF0001

/-- `WEIR_QSHARE` after reset (R107): 8 entries to each class. -/
def qshareReset : BitVec 32 := 0x08080808

/-- Reset values of the weir (R120). -/
def Weir.reset : Weir :=
  ⟨[], 0, [], 0xFFFFFFFF, 0xFFFFFFFF, 0, 0, 96, 0, false, 0, 0, 0, [], [], [], []⟩

def Stop.reset : Stop := ⟨[], false, false, [], [], [], [], [], [], (0, 0), (0, 0), (0, 0)⟩
def Corr.reset : Corr := ⟨none, 0, none⟩

/-- Reset values of the error log (R323). -/
def ErrLog.reset : ErrLog := ⟨0xFF, 0xFF, false, false, false, 0, [], 0, 0, 0, [], none, [], [], []⟩

/-- Reset values of a counter (R382, R386): `QUAL` 0x3F, `DIR` 2. -/
def Counter.reset : Counter := ⟨0xBF000000, 0, false, 0, 0⟩

/-- A counter entry of the dailies page before the first snapshot (R390). -/
def Counter.zero : Counter := ⟨0, 0, false, 0, 0⟩

/-- Reset values of the counter block (R388, R393). -/
def Counters.reset : Counters := ⟨[], false, false, false, false, 0, 0, 0, [], 0, 0, 0, false, 0, 0⟩

/-- Power and time at the end of cold reset (R331, R334, R351): level P4 at its supplies. -/
def Power.reset : Power where
  now := 0
  ns := 0
  frac := 0
  ftimeOfs := 0
  req := 4
  cur := 4
  busy := false
  done := false
  drainTo := false
  phase := 0
  goal := 4
  drainAt := 0
  lastDrain := 0
  switching := false
  arrMv := 750
  logMv := 550
  stepNs := 0
  mon := []
  deep := 0
  deepPend := false
  deepDueNs := 0
  deepTimed := false
  refOk := true
  logOk := true
  held := []

/-- The global block at the end of cold reset (R353): bring-up step 3 in progress. -/
def Global.reset : Global where
  ready := false
  step := 3
  stepDue := 0
  stepDueNs := 0
  fuseErr := false
  lakeFail := 0
  aonUp := true
  pkgDie := false
  epId := 0
  epValid := false
  rstCause := 0
  warmCount := 0
  lrLake := 0
  lrBusy := false
  lrDone := false
  lrTarget := 0
  lrWait := false
  lrDue := 0
  ctxSel := 0
  ctxSave := 0
  ctxRestore := 0
  ctxBusy := false
  ctxIsSave := false
  ctxStatus := 0
  ctxLast := 0
  abEngine := 0
  abTid := 0
  abBusy := false
  abDone := false
  abFault := false
  abCur := ⟨0, 0⟩
  abFirst := none
  abSrcPos := 0
  abAt := 0
  abQueue := []
  kEnd := 0
  kPoint := 0
  kBusy := false
  kDone := false
  kLast := 0
  kCover := []
  preempt := 0
  peBusy := false
  peDone := false
  peMe := 0
  peSub := 0
  peCommit := 0
  peAbort := 0
  peDeadline := 0
  pePassed := false

/-- Reset values of the sideband target (R394 to R396). -/
def I3c.reset : I3c :=
  ⟨none, true, true, 1042, 1037, false, false, 0, none, none, false, false, [], [], 0x3F, 0⟩

def Bank.reset : Bank := ⟨0, []⟩

/-- The sequencer at first use: no image started; an empty boot store. DEDUCED (assumption log 30). -/
def Fw.reset : Fw where
  running := false
  starting := false
  stopped := false
  startNs := 0
  slotA := []
  slotB := []
  bank := []
  cur := 0
  conv := false
  state := .idle
  version := 0
  bitmap := []
  fired := false
  at_ := 0
  sched := []
  trialNs := 0
  revert := false
  reason := 0
  arb := 0
  setOk := false
  sibValid := false
  sibTrial := false
  sibIface := 0
  sibNs := 0
  pcapMw := 0

/-- The meter at first use (R437, R442). DEDUCED (assumption log 31). -/
def Meter.reset : Meter where
  running := true
  time := 0
  base := 0
  energyDue := 10
  sampleDue := 1000000
  recDue := 60000000000
  energy := []
  moved := []
  occ := []
  lastW := []
  restart := true
  fStart := true
  fRestart := false
  fAonOff := false
  clkFree := false
  tamper := false
  cause := 0
  aonSeen := false
  seq := 0
  recs := []

/-- The block at the moment cold reset ends (R353): the AON domain released, `PWR_TIME` 0, bring-up at step 3. DEDUCED (assumption log
4). -/
def State.reset : State where
  pending := []
  variant := .zt9
  mem := []
  rows := []
  lakes := []
  lpow := []
  mtes := []
  springs := []
  arbs := []
  backoff := []
  stops := []
  stopCfg := []
  ring := []
  cues := []
  wins := []
  reels := []
  ctxs := []
  basin := Basin.reset
  weir := Weir.reset
  err := ErrLog.reset
  cnt := Counters.reset
  pw := Power.reset
  tm := Global.reset
  remotes := []
  fences := []
  signals := []
  inbox := []
  flights := []
  hostHeld := []
  hostReads := []
  hostRetry := []
  group := []
  ps := ⟨[], []⟩
  inPond := []
  clientsOff := []
  i3c := I3c.reset
  fw := Fw.reset
  meter := Meter.reset
  nextId := 0
  fresh := 0
  out := []

end Sys2Proof.Machine
end

