-- ==== Sys2Proof/Machine/Ops.lean ====
section
/-!
DEFINITION. The named operations over State that every meaning shares: fields of words, the tables, memory, the rows of a
lake with their tags and range steps, time, the event counters, the error log, and what is driven on a port.
-/
namespace Sys2Proof.Machine

/-! ### Fields of words -/

/-- Bits `lo` to `lo + n - 1` of a word, as a number. -/
def bits {w : Nat} (v : BitVec w) (lo n : Nat) : Nat := (v.toNat >>> lo) % 2 ^ n

/-- Bit `i` of a word. -/
def bit {w : Nat} (v : BitVec w) (i : Nat) : Bool := v.getLsbD i

/-- A flag as a number. -/
def b2n (b : Bool) : Nat := if b then 1 else 0

/-- A word of `w` bits put together from fields: (low bit, value). -/
def pack (w : Nat) (fs : List (Nat × Nat)) : BitVec w := BitVec.ofNat w (fs.foldl (fun a f => a + f.2 <<< f.1) 0)

/-- A count that holds at its ceiling. -/
def satAdd (ceil a b : Nat) : Nat := if a + b > ceil then ceil else a + b

/-- The ceiling of a 32-bit count. -/
def max32 : Nat := 0xFFFFFFFF

/-- The values of a table changed one by one, keeping the table's canonical form. -/
def mapTab {α : Type} [DecidableEq α] (d : Nat → α) (f : Nat → α → α) (t : Tab α) : Tab α :=
  (t.map (fun e => (e.1, f e.1 e.2))).filter (fun e => e.2 != d e.1)

/-! ### Tables of the state -/

def State.lake (s : State) (n : Nat) : Lake := Tab.get (fun _ => Lake.reset) s.lakes n
def State.modLake (s : State) (n : Nat) (f : Lake → Lake) : State :=
  { s with lakes := Tab.set (fun _ => Lake.reset) s.lakes n (f (s.lake n)) }

def State.lp (s : State) (n : Nat) : LakePower := Tab.get (fun _ => LakePower.reset) s.lpow n
def State.modLp (s : State) (n : Nat) (f : LakePower → LakePower) : State :=
  { s with lpow := Tab.set (fun _ => LakePower.reset) s.lpow n (f (s.lp n)) }

def State.mte (s : State) (n : Nat) : Mte := Tab.get (fun _ => Mte.reset) s.mtes n
def State.modMte (s : State) (n : Nat) (f : Mte → Mte) : State :=
  { s with mtes := Tab.set (fun _ => Mte.reset) s.mtes n (f (s.mte n)) }

def State.spring (s : State) (n : Nat) : Spring := Tab.get (fun _ => Spring.reset) s.springs n
def State.modSpring (s : State) (n : Nat) (f : Spring → Spring) : State :=
  { s with springs := Tab.set (fun _ => Spring.reset) s.springs n (f (s.spring n)) }

def State.stop (s : State) (p : Nat) : Stop := Tab.get (fun _ => Stop.reset) s.stops p
def State.modStop (s : State) (p : Nat) (f : Stop → Stop) : State :=
  { s with stops := Tab.set (fun _ => Stop.reset) s.stops p (f (s.stop p)) }

def State.cue (s : State) (c : Nat) : Cue := Tab.get (Cue.reset s.variant) s.cues c
def State.modCue (s : State) (c : Nat) (f : Cue → Cue) : State :=
  { s with cues := Tab.set (Cue.reset s.variant) s.cues c (f (s.cue c)) }

def State.win (s : State) (w : Nat) : Win := Tab.get (fun _ => Win.reset) s.wins w
def State.modWin (s : State) (w : Nat) (f : Win → Win) : State :=
  { s with wins := Tab.set (fun _ => Win.reset) s.wins w (f (s.win w)) }

def State.reel (s : State) (e : Nat) : Reel := Tab.get (fun _ => Reel.reset) s.reels e
def State.modReel (s : State) (e : Nat) (f : Reel → Reel) : State :=
  { s with reels := Tab.set (fun _ => Reel.reset) s.reels e (f (s.reel e)) }

def State.ctx (s : State) (x : Nat) : Ctx := Tab.get (fun _ => []) s.ctxs x
def State.setCtx (s : State) (x : Nat) (c : Ctx) : State :=
  { s with ctxs := Tab.set (fun _ => []) s.ctxs x c }

/-- Word `i` of a context record (R140), by its offset divided by 8. -/
def Ctx.word (c : Ctx) (i : Nat) : BitVec 64 := Tab.get (fun _ => 0) c i

/-- `VALID` of a context slot cleared (R142). -/
def State.invalidSlot (s : State) (x : Nat) : State :=
  s.setCtx x (Tab.set (fun _ => 0) (s.ctx x) 0 ((s.ctx x).word 0 &&& 0xFFFFFFDFFFFFFFFF))

/-- Arbiter numbers in the table of arbiters: 16 to a lake (A0 to A3, B0 to B3, S, C clockwise, C counter-clockwise), then
two to a stop. -/
def arbKey : ArbId → Nat
  | .wide n b i => 16 * n + (if b then 4 else 0) + i
  | .shoreS n => 16 * n + 8
  | .shoreC n ccw => 16 * n + 9 + b2n ccw
  | .stop p ccw => 400 + 2 * p + b2n ccw

/-- The highest master index of an arbiter (R75), where its round-robin pointers stand after reset (R91). -/
def arbHigh (k : Nat) : Nat :=
  if k < 400 then (if k % 16 < 8 then 0 else if k % 16 = 8 then 1 else 46)
  else
    let p := (k - 400) / 2
    if p = Config.mgmtPos then 1 else if p % 6 = 1 ∨ p % 6 = 4 then 4 else 0

def State.arb (s : State) (k : Nat) : Arb := Tab.get (fun k => Arb.reset (arbHigh k)) s.arbs k
def State.modArb (s : State) (k : Nat) (f : Arb → Arb) : State :=
  { s with arbs := Tab.set (fun k => Arb.reset (arbHigh k)) s.arbs k (f (s.arb k)) }

def Lake.take (l : Lake) (t : Nat) : Take := Tab.get (fun _ => Take.reset) l.takes t
def Lake.setTake (l : Lake) (t : Nat) (x : Take) : Lake :=
  { l with takes := Tab.set (fun _ => Take.reset) l.takes t x }
def Lake.arbSet (l : Lake) (i : Nat) : ArbCfg := Tab.get (fun _ => ArbCfg.reset) l.arbCfg i

def State.emit (s : State) (o : Out) : State := { s with out := o :: s.out }

/-- A number that no earlier request, waiter or signal of the model carries. DESIGN CHOICE (assumption log 17). -/
def State.fresh1 (s : State) : Nat × State := (s.nextId, { s with nextId := s.nextId + 1 })

/-! ### Lakes, rows and memory -/

/-- The lake of a row numbered over the die (R19). -/
def lakeOf (row : Nat) : Nat := row / Config.rowsPerLake
/-- The row of a lake as numbered over the die. -/
def gRow (n r : Nat) : Nat := n * Config.rowsPerLake + r
/-- The lake row of a row numbered over the die. -/
def lRow (row : Nat) : Nat := row % Config.rowsPerLake
/-- The pond of a row (R19). -/
def pondOf (row : Nat) : Nat := lRow row % 96
/-- The die-local data-view address of a row. -/
def rowAddr (row : Nat) : Nat := row * 256

/-- What a byte that nothing has written reads as: zero, as initialisation leaves every row (R352). DESIGN CHOICE (assumption log 10).
-/
def memDefault : Nat → Byte := fun _ => 0
def readByte (m : List Host.Cell) (a : Nat) : Byte := Tab.get memDefault m a
def writeByte (m : List Host.Cell) (a : Nat) (b : Byte) : List Host.Cell := Tab.set memDefault m a b

/-- The canonical form of memory: addresses strictly rising, and no byte listed that holds what an unlisted address reads as. -/
def Memory.wf (m : List Host.Cell) : Bool := Tab.wf memDefault m

/-- The word of 32 bytes at word address `w` (byte address / 32), lowest byte in the lowest bits (R150). -/
def wordFrom (m : List Host.Cell) (a : Nat) : Nat → Nat
  | 0 => 0
  | k + 1 => (readByte m a).toNat + 256 * wordFrom m (a + 1) k
def readWord (m : List Host.Cell) (w : Nat) : Word := BitVec.ofNat 256 (wordFrom m (32 * w) 32)
/-- `k` bytes of `v`, lowest first, written from address `a` on. -/
def bytesTo (m : List Host.Cell) (a : Nat) (v : Nat) : Nat → List Host.Cell
  | 0 => m
  | k + 1 => bytesTo (writeByte m a (BitVec.ofNat 8 v)) (a + 1) (v / 256) k
def writeWord (m : List Host.Cell) (w : Nat) (v : Word) : List Host.Cell := bytesTo m (32 * w) v.toNat 32

/-- The 8 words of a row. -/
def State.rowWords (s : State) (row : Nat) : List Word := (List.range 8).map (fun i => readWord s.mem (8 * row + i))
/-- Words `ws` written into a row, each at its place. -/
def State.putWords (s : State) (row : Nat) (ws : List (Nat × Word)) : State :=
  { s with mem := ws.foldl (fun m e => writeWord m (8 * row + e.1) e.2) s.mem }
/-- Every byte of a range of rows zero. -/
def State.zeroRows (s : State) (lo hi : Nat) : State := { s with mem := Tab.eraseRange s.mem (rowAddr lo) (rowAddr hi) }

def State.tag (s : State) (row : Nat) : RowTag := Tab.get (fun _ => RowTag.reset) s.rows row
def State.setTag (s : State) (row : Nat) (t : RowTag) : State :=
  { s with rows := Tab.set (fun _ => RowTag.reset) s.rows row t }
/-- Tags of a range of rows as initialisation leaves them. -/
def State.clearTags (s : State) (lo hi : Nat) : State := { s with rows := Tab.eraseRange s.rows lo hi }

/-- The slate that the range table gives a row, where a step on it has been taken and its tag bits not yet rewritten: the
newest such step's (R222). -/
def stepSlate (steps : List RangeStep) (row : Nat) : Option Slate :=
  steps.reverse.findSome? (fun st => (st.sets.find? (·.1 = row)).map (·.2))

/-- The slate of a row as a slated access sees it, range table included (R222, R227). -/
def State.slate (s : State) (row : Nat) : Slate :=
  (stepSlate (s.lake (lakeOf row)).steps row).getD (s.tag row).slate

/-- A pond cycle of the row takes its pending range steps into its tag bits, and frees the entries it completes (R222). -/
def State.settle (s : State) (row : Nat) : State :=
  match stepSlate (s.lake (lakeOf row)).steps row with
  | none => s
  | some sl =>
    (s.setTag row { s.tag row with slate := sl }).modLake (lakeOf row) fun l =>
      { l with steps := (l.steps.map (fun st => { st with sets := st.sets.filter (·.1 != row) })).filter (·.sets != []) }

/-- The row's slate set in its own pond cycle (R217). -/
def State.setSlate (s : State) (row : Nat) (sl : Slate) : State :=
  let s := s.settle row
  s.setTag row { s.tag row with slate := sl }

/-- The row carries a poison mark, or waits in a mark queue and is treated as marked (R310, R311). DESIGN CHOICE (assumption log 10). -/
def State.marked (s : State) (row : Nat) : Bool :=
  (s.tag row).mark || (s.lake (lakeOf row)).marks.any (·.row = row)

/-- The units (A-mode) or codewords (W-mode) that word `w` of a row touches (R304). -/
def unitsOf (wMode : Bool) (w : Nat) : List Nat :=
  if wMode then [w / 2] else [4 * w, 4 * w + 1, 4 * w + 2, 4 * w + 3]

/-- Units or codewords without those that `ws` whole words refresh: in W-mode a codeword is refreshed when both of its
words are written, which a write-back does for every codeword (R45). -/
def refreshed (wMode : Bool) (ws us : List Nat) : List Nat :=
  if wMode then us.filter (fun c => !(ws.contains (2 * c) && ws.contains (2 * c + 1)))
  else us.filter (fun u => !ws.contains (u / 4))

/-- From its drain point until the divider switch ends, a level change stops new requests, re-entries and maintenance (R336). -/
def State.draining (s : State) : Bool := s.pw.phase = 2 && s.pw.drainAt ≤ s.pw.now

/-! ### Counters (R378 to R387) -/

/-- How many members of a list a test holds of. -/
def countTrue {α : Type} (p : α → Bool) (l : List α) : Nat := (l.filter p).length

/-- The counter set and instance of the entry at an offset of the `CNT_` block (R378). Instance of an arbiter set: 5n + j. -/
def cntSetOf (o : Nat) : Option (CSet × Nat) :=
  if o % 0x10 ≠ 0 then none
  else if 0x1000 ≤ o ∧ o < 0x2800 then some (.lake, (o - 0x1000) / 0x100)
  else if 0x2800 ≤ o ∧ o < 0x3400 then some (.spring, (o - 0x2800) / 0x80)
  else if 0x4000 ≤ o ∧ o < 0x7000 then
    if (o - 0x4000) % 0x200 < 0x140 then some (.arb, (o - 0x4000) / 0x200 * 5 + (o - 0x4000) % 0x200 / 0x40) else none
  else if 0x7000 ≤ o ∧ o < 0x7200 then some (.canal, 0)
  else if 0x7200 ≤ o ∧ o < 0x7280 then some (.basin, 0)
  else none

/-- `v` added to a counter, or to its pending count during a snapshot (R386, R389). -/
def Counter.add (pendMode : Bool) (c : Counter) (v : Nat) : Counter :=
  if pendMode then { c with pend := c.pend + v }
  else { c with val := (c.val + v) % 2 ^ 48, wrap := c.wrap || decide (2 ^ 48 ≤ c.val + v) }

/-- An enabled counter takes the value `v` of its event in the `dt` T-cycles from `now` on: level counting adds it in each,
edge counting adds 1 where the value was zero in the T-cycle before (R383). -/
def Counter.takeValue (pendMode : Bool) (now dt : Nat) (c : Counter) (v : Nat) : Counter :=
  if v = 0 then c
  else if bit c.cfg 8 then
    let c' := if c.nz < now then c.add pendMode 1 else if c.nz = 0 then c.add pendMode 1 else c
    { c' with nz := now + dt }
  else { c.add pendMode (v * dt) with nz := now + dt }

/-- An occurrence of an event (R383, R387): the set and instance, its code, the qualifiers and the label it carries, its
direction on the canal, and how many. -/
structure Occ where
  set   : CSet
  inst  : Nat
  ev    : Nat
  quals : List Nat := []
  label : Option Nat := none
  ccw   : Option Bool := none
  n     : Nat := 1

/-- The filters of a counter let through an occurrence (R382 to R384). -/
def Counter.admits (c : Counter) (o : Occ) : Bool :=
  bit c.cfg 9 && bits c.cfg 0 8 = o.ev && (bits c.cfg 24 6 = 0x3F || o.quals.contains (bits c.cfg 24 6)) &&
  (!bit c.cfg 10 || o.label = some (bits c.cfg 12 6)) &&
  (o.set != .canal || bits c.cfg 30 2 = 2 || (match o.ccw with | none => true | some d => bits c.cfg 30 2 = b2n d))

def cntDefault : Nat → Counter := fun _ => Counter.reset

/-- Count an occurrence in this T-cycle (R383). -/
def State.count (s : State) (o : Occ) : State :=
  if s.cnt.halt || o.n = 0 then s
  else { s with cnt := { s.cnt with ctrs := mapTab cntDefault (fun k c =>
      if cntSetOf k = some (o.set, o.inst) && c.admits o then c.takeValue s.cnt.busy s.pw.now 1 o.n else c) s.cnt.ctrs } }

/-- Count an event of a lake, with the identity and label of the request where it has one. -/
def State.countLake (s : State) (n ev : Nat) (quals : List Nat := []) (label : Option Nat := none) (k : Nat := 1) : State :=
  s.count { set := .lake, inst := n, ev := ev, quals := quals, label := label, n := k }

/-! ### The error log (R318 to R322) -/

/-- A report reaches the recorder's intake (R320): discarded where its class is not recorded, lost where the intake is full. -/
def State.report (s : State) (r : Rec) : State :=
  if !bit s.err.recEn r.cls then s
  else if s.err.intake.length ≥ 16 then
    { s with err := { s.err with
        lost := true
        lostC := Tab.set (fun _ => 0) s.err.lostC r.cls (satAdd max32 (Tab.get (fun _ => 0) s.err.lostC r.cls) 1) } }
  else { s with err := { s.err with intake := s.err.intake ++ [r] } }

/-- A record of one event at this moment. -/
def State.log (s : State) (cls : Nat) (st : Status) (source : Nat) (pr : Principal) (detail addr : Nat) : State :=
  s.report ⟨s.pw.ns, 0, cls, st.code, source, pr.engine.toNat, pr.tid.toNat, detail, 1, addr⟩

/-- A record of class REJECT (R131, R318). -/
def State.reject (s : State) (st : Status) (source : Nat) (pr : Principal) (detail addr : Nat) : State :=
  s.log 4 st source pr detail addr

/-- The correction sources: lake n, 24 the basin, 25 the control state; their SOURCE codes (R319, R320). -/
def corrSource (k : Nat) : Nat := if k < 24 then Config.lakePos k else if k = 24 then 0x30 else 0x31

/-- A correction of a source is reported (R320): a record at once where its last is more than 1 ms old, else it is held. DEDUCED
(assumption log 15). -/
def State.correction (s : State) (k detail addr : Nat) : State :=
  let c := Tab.get (fun _ => Corr.reset) s.err.corr k
  let r : Rec := ⟨s.pw.ns, 0, 0, 0, corrSource k, 0x7C, 0, detail, 1, addr⟩
  let open_ := match c.last with | none => false | some t => decide (s.pw.ns < t + 1000000)
  let c' : Corr := if open_ then ⟨c.last, c.held + 1, c.first.orElse (fun _ => some r)⟩ else ⟨some s.pw.ns, 0, none⟩
  let s := { s with err := { s.err with corr := Tab.set (fun _ => Corr.reset) s.err.corr k c' } }
  if open_ then s else s.report r

/-! ### In-band interrupts (R411, R412) -/

/-- An event takes the pending slot of its code, or replaces that slot's payload; a masked event is discarded (R412). -/
def State.event (s : State) (code : Nat) (payload : BitVec 32) : State :=
  if 0x10 ≤ code && !bit s.i3c.ibiMask (code - 0x10) then s
  else { s with i3c := { s.i3c with pend := Tab.set (fun _ => none) s.i3c.pend code (some payload) } }

/-! ### Responses -/

/-- The response to a control-space access or a command (R13, R73). -/
def State.reply (s : State) (src : Src) (st : Status) (v : BitVec 64 := 0) : State := s.emit (.reg src.port src.tag st v)

/-- The first of some statuses in the order of R15. -/
def firstStatus : List Status → Status
  | [] => .ok
  | a :: l => let b := firstStatus l; if a.rank ≤ b.rank then a else b

end Sys2Proof.Machine
end

