-- ==== Sys2Proof/Machine/Operands.lean ====
section
/-!
DEFINITION. The operand forms of requests: elements of words, the number formats and element operations of the lake
atomics (R160 to R164), the transposed block (R150), and the words that a request names (R145, R148 to R157).
-/
namespace Sys2Proof.Machine

/-! ### Elements of a word (R150) -/

/-- Element `j` of width `e` of a word: bits `[(j + 1) × e − 1 : j × e]`. -/
def elem (e : Nat) (w : Word) (j : Nat) : Nat := bits w (j * e) e

/-- The elements of width `e` of a word. -/
def elems (e : Nat) (w : Word) : List Nat := (List.range (256 / e)).map (elem e w)

/-- The number whose digits in base `2 ^ e` are the list, lowest first. -/
def digits (e : Nat) : List Nat → Nat
  | [] => 0
  | x :: xs => x % 2 ^ e + 2 ^ e * digits e xs

/-- The word whose elements of width `e` are the list. -/
def ofElems (e : Nat) (l : List Nat) : Word := BitVec.ofNat 256 (digits e l)

/-- Width of an element in bits (R145 `EW`). -/
def ewBits : Fin 4 → Nat
  | 0 => 4 | 1 => 8 | 2 => 16 | 3 => 32

/-- Elements to a word, which is also the number of source rows of an XREAD (R149). -/
def ewCount (ew : Fin 4) : Nat := 256 / ewBits ew

/-- The block with rows and columns exchanged: output word `j` holds, as its element `i`, element `j` of source row `i` (R150). -/
def transposeBlock (ew : Fin 4) (src : List Word) : List Word :=
  (List.range (ewCount ew)).map fun j => ofElems (ewBits ew) (src.map (fun w => elem (ewBits ew) w j))

/-! ### Two's complement and floating-point values -/

/-- The signed value of a number of `w` bits. -/
def signed (w x : Nat) : Int := if x < 2 ^ (w - 1) then (x : Int) else (x : Int) - 2 ^ w

/-- A signed value as a number of `w` bits, modulo `2 ^ w`. -/
def unsigned (w : Nat) (x : Int) : Nat := (x % 2 ^ w).toNat

/-- Width of an element by `TYPE`: I32, I64, F32, BF16. -/
def typeBits : Fin 4 → Nat
  | 0 => 32 | 1 => 64 | 2 => 32 | 3 => 16

/-- A BF16 code as the binary32 code of the same value. -/
def bf16ToF32 (x : Nat) : Nat := x <<< 16

def f32Nan : Nat := 0x7FC00000
def isNan (x : Nat) : Bool := x % 2 ^ 31 > 0x7F800000
def isInf (x : Nat) : Bool := x % 2 ^ 31 = 0x7F800000
def isNeg (x : Nat) : Bool := x / 2 ^ 31 % 2 = 1

/-- The magnitude of a finite binary32 code in units of 2^-149; subnormals are kept (R161). -/
def f32Mag (x : Nat) : Nat :=
  let e := x / 2 ^ 23 % 256
  let f := x % 2 ^ 23
  if e = 0 then f else (2 ^ 23 + f) <<< (e - 1)

/-- The value of a finite binary32 code in units of 2^-149. -/
def f32Val (x : Nat) : Int := if isNeg x then -(f32Mag x : Int) else (f32Mag x : Int)

/-- `m / 2 ^ k` rounded to nearest, ties to even. -/
def roundEven (m k : Nat) : Nat :=
  let q := m >>> k
  let r := m % 2 ^ k
  if k = 0 then q else if r > 2 ^ (k - 1) ∨ (r = 2 ^ (k - 1) ∧ q % 2 = 1) then q + 1 else q

/-- How far a magnitude in units of 2^-149 reaches beyond 24 significant bits: its exponent above the subnormal range. -/
def excess (m : Nat) : Nat := if m < 2 ^ 24 then 0 else m.log2 - 23

/-- A magnitude rounded to the nearest binary32 code, ties to even, without sign; 0x7F800000 where it is too large. -/
def f32Round (m : Nat) : Nat :=
  let k := excess m
  let c := k * 2 ^ 23 + roundEven m k
  if c ≥ 0x7F800000 then 0x7F800000 else c

/-- A magnitude rounded to the nearest BF16 code, ties to even, without sign; 0x7F80 where it is too large. -/
def bf16Round (m : Nat) : Nat :=
  let k := excess m
  let c := k * 2 ^ 7 + roundEven m (k + 16)
  if c ≥ 0x7F80 then 0x7F80 else c

/-- A magnitude rounded stochastically to BF16 with a draw (R162): truncated to 16 bits beyond the last bit, the draw added
there, and the total truncated. -/
def bf16Stochastic (m draw : Nat) : Nat :=
  let k := excess m
  let c := k * 2 ^ 7 + (m >>> k + draw) >>> 16
  if c ≥ 0x7F80 then 0x7F80 else c

/-- The flags of `LK_MSO_STAT` that an element operation raises (R161, R164, R168). -/
structure MsoFlags where
  invalid   : Bool := false
  overflow  : Bool := false
  intOver   : Bool := false
  forced    : Bool := false
deriving DecidableEq, Repr

/-- Flags of one operation joined to those of others. -/
def MsoFlags.or (a b : MsoFlags) : MsoFlags :=
  ⟨a.invalid || b.invalid, a.overflow || b.overflow, a.intOver || b.intOver, a.forced || b.forced⟩

/-- How a floating-point sum is rounded: to binary32, to BF16 to nearest even, to BF16 with a draw. -/
inductive Rounding
  | f32 | bf16 | bf16Draw (draw : Nat)
deriving DecidableEq, Repr

def Rounding.signBit : Rounding → Nat
  | .f32 => 2 ^ 31
  | _ => 2 ^ 15
def Rounding.inf : Rounding → Nat
  | .f32 => 0x7F800000
  | _ => 0x7F80
def Rounding.nan : Rounding → Nat
  | .f32 => 0x7FC00000
  | _ => 0x7FC0
def Rounding.mag (r : Rounding) (m : Nat) : Nat :=
  match r with
  | .f32 => f32Round m
  | .bf16 => bf16Round m
  | .bf16Draw d => bf16Stochastic m d

/-- The floating-point sum of two values given as binary32 codes (R161, R162). -/
def fAdd (r : Rounding) (x y : Nat) : Nat × MsoFlags :=
  if isNan x || isNan y then (r.nan, {})
  else if isInf x && isInf y then
    if isNeg x = isNeg y then ((if isNeg x then r.signBit else 0) + r.inf, {}) else (r.nan, { invalid := true })
  else if isInf x then ((if isNeg x then r.signBit else 0) + r.inf, {})
  else if isInf y then ((if isNeg y then r.signBit else 0) + r.inf, {})
  else
    let v := f32Val x + f32Val y
    if v = 0 then (if isNeg x && isNeg y then r.signBit else 0, {})
    else
      let c := r.mag v.natAbs
      ((if v < 0 then r.signBit else 0) + c, { overflow := decide (c = r.inf) })

/-- The key that orders floating-point codes of `w` bits, -0 below +0. -/
def fKey (w x : Nat) : Int := if x < 2 ^ (w - 1) then (x : Int) else -1 - ((x - 2 ^ (w - 1) : Nat) : Int)

/-- A code of `w` bits (binary32 or BF16) is a NaN. -/
def isNanW (w x : Nat) : Bool := if w = 16 then isNan (bf16ToF32 x) else isNan x

/-- The larger, or with `least` the smaller, of two elements (R160, R161). -/
def pick (ty : Fin 4) (least : Bool) (x y : Nat) : Nat :=
  let w := typeBits ty
  if ty = 0 ∨ ty = 1 then
    if least then (if signed w y < signed w x then y else x) else (if signed w x < signed w y then y else x)
  else if isNanW w x || isNanW w y then (if w = 16 then 0x7FC0 else 0x7FC00000)
  else if least then (if fKey w y < fKey w x then y else x) else (if fKey w x < fKey w y then y else x)

/-! ### Element operations of the lake atomics (R160) -/

/-- What an element operation needs beside its two elements: the lake, whose generator it draws from, `SR_FORCE_RNE`, the values mixed
into the generator, and the T-cycle. -/
structure AtEnv where
  lake  : Nat
  force : Bool
  mixes : List (Nat × BitVec 64)
  now   : Nat

/-- One element of an ADD: the result, the flags, and whether it takes a draw (R160 to R164). -/
def addElem (env : AtEnv) (ty rnd : Fin 4) (draws x y : Nat) : Nat × MsoFlags × Nat :=
  match ty with
  | 0 => let v := signed 32 x + signed 32 y
         (unsigned 32 v, { intOver := decide (signed 32 (unsigned 32 v) ≠ v) }, draws)
  | 1 => let v := signed 64 x + signed 64 y
         (unsigned 64 v, { intOver := decide (signed 64 (unsigned 64 v) ≠ v) }, draws)
  | 2 => let r := fAdd .f32 x y; (r.1, r.2, draws)
  | 3 =>
    let a := bf16ToF32 x; let b := bf16ToF32 y
    if rnd = 1 && env.force then let r := fAdd .bf16 a b; (r.1, r.2.or { forced := true }, draws)
    else if rnd = 1 && !(isNan a || isInf a || isNan b || isInf b) then
      let r := fAdd (.bf16Draw (Config.srDraw env.lake env.mixes env.now draws).toNat) a b; (r.1, r.2, draws + 1)
    else let r := fAdd .bf16 a b; (r.1, r.2, draws)

/-- An operation applied along two lists of elements, gathering flags and counting draws. -/
def zipElems (f : Nat → Nat → Nat → Nat × MsoFlags × Nat) : Nat → List Nat → List Nat → List Nat × MsoFlags × Nat
  | draws, x :: xs, y :: ys =>
    let r := f draws x y
    let t := zipElems f r.2.2 xs ys
    (r.1 :: t.1, r.2.1.or t.2.1, t.2.2)
  | draws, xs, _ => (xs, {}, draws)

/-- The destination word after a lake atomic, with the flags raised and the count of draws taken (R160). `y` is the operand
word; for ADD_WIDE it is the operand word that the destination word's elements use, `hi` naming its upper half. -/
def atomWord (env : AtEnv) (op : Op) (hi : Bool) (draws : Nat) (x y : Word) : Word × MsoFlags × Nat :=
  match op with
  | .add a =>
    let e := typeBits a.ty
    let r := zipElems (addElem env a.ty a.rnd) draws (elems e x) (elems e y)
    (ofElems e r.1, r.2.1, r.2.2)
  | .addWide _ =>
    let ys := ((elems 16 y).drop (if hi then 8 else 0)).map bf16ToF32
    let r := zipElems (addElem env 2 0) draws (elems 32 x) ys
    (ofElems 32 r.1, r.2.1, r.2.2)
  | .max a => let e := typeBits a.ty; (ofElems e (List.zipWith (pick a.ty false) (elems e x) (elems e y)), {}, draws)
  | .min a => let e := typeBits a.ty; (ofElems e (List.zipWith (pick a.ty true) (elems e x) (elems e y)), {}, draws)
  | .swap ty k => let e := typeBits ty; (ofElems e ((elems e x).set k (bits y 0 e)), {}, draws)
  | .cas ty k =>
    let e := typeBits ty
    (if elem e x k = bits y 0 e then ofElems e ((elems e x).set k (bits y e e)) else x, {}, draws)
  | _ => (x, {}, draws)

/-! ### What a request names -/

/-- A lake atomic (R145). -/
def opIsAtomic : Op → Bool
  | .add _ | .addWide _ | .max _ | .min _ | .swap _ _ | .cas _ _ => true
  | _ => false

/-- The operation returns the old words (R145, R160). -/
def opFetches : Op → Bool
  | .add a | .addWide a | .max a | .min a => a.fetch
  | .swap _ _ | .cas _ _ => true
  | _ => false

/-- The operation writes: WRITE or a lake atomic. -/
def opWrites : Op → Bool
  | .write => true
  | op => opIsAtomic op

/-- The word offsets from the first word that a request reads or writes, in order (R145, R150, R156). -/
def opOffsets (op : Op) (words : Nat) : List Int :=
  match op with
  | .xread ew st => (List.range (ewCount ew)).map (fun i : Nat => (i : Int) * (st.toNat : Int))
  | .gather st => (List.range words).map (fun k : Nat => (k : Int) * st.toInt)
  | _ => (List.range words).map (fun i : Nat => (i : Int))

/-- The smallest and the largest member of a list of offsets, 0 for an empty one. -/
def lowest (l : List Int) : Int := l.foldl min 0
def highest (l : List Int) : Int := l.foldl max 0

/-- The combination of code, attributes and word count is one that R145 permits (R146). `w0` is the first word. -/
def opPermitted (op : Op) (q : Req) (w0 : Nat) : Bool :=
  let count := 1 ≤ q.words && q.words ≤ 8
  let body := match op with
    | .read | .write | .gather _ => count
    | .xread _ _ => q.words = 1
    | .add a => count && !(a.ty = 3 && (a.rnd = 2 || a.rnd = 3))
    | .addWide a => a.ty = 3 && q.words % 2 = 0 && count && w0 % 2 = 0
    | .max _ | .min _ => count
    | .swap ty k | .cas ty k => q.words = 1 && (ty = 0 || ty = 1) && !(ty = 1 && 3 < k.val)
    | .reserved _ => false
  let vbit := q.vbit.isNone || (op = .read && (match q.port with | .me .. => true | _ => false))
  body && vbit

/-- `DETAIL` of a request that R146 does not perform: 1 for a reserved operation code, 2 for a combination that is not permitted (R319).
DEDUCED (assumption log 12). -/
def opDetail : Op → Nat
  | .reserved _ => 1
  | _ => 2

/-- The nominal lake latency of R41 in an A-mode or W-mode lake. A write is a read-modify-write where it leaves a codeword
of a W-mode lake partly covered (R45). -/
def partialW (first n : Nat) : Bool := n != 0 && (first % 2 = 1 || (first + n) % 2 = 1)

def opLatency (op : Op) (wMode : Bool) (first n lanes : Nat) : Nat :=
  let rd := if wMode then 11 else 9
  match op with
  | .write => if wMode && partialW first n then 12 else 6
  | .xread ew _ => rd + 2 + ((ewCount ew + lanes - 1) / lanes - 1)
  | op => if opIsAtomic op then 12 else rd

end Sys2Proof.Machine
end

