-- ==== Sys2Proof/Machine/Requests.lean ====
section
/-!
DEFINITION. Who issues a request and where it goes: principals and labels (R99 to R101, R121, R122), the address map (R23,
R25), segments (R132 to R135), global addresses (R34), and the backoff counts of the retry points (R88 to R90).
-/
namespace Sys2Proof.Machine

/-! ### The issuer (R121, R122, R99 to R101) -/

/-- The lake that an ME wide port is wired to (R21). -/
def portLake (k : Fin 16) (j : Fin 3) : Nat := Config.wireLake k j

/-- The sub-shore number, 0 to 7 for A0 to A3 and B0 to B3, of a wide-port request (R21, R235). -/
def subShore (k : Fin 16) (j : Fin 3) (sub : Fin 4) : Nat := sub + (if Config.wireB k j then 4 else 0)

/-- The context slot of a port (R139); a fabric engine presents the task of the slot it acts for. -/
def portSlot : Port → Option Nat
  | .vc k => some k
  | .me k j sub => some (80 + 8 * portLake k j + subShore k j sub)
  | .meCanal k => some (64 + k)
  | .fabric _ x => some x
  | _ => none

/-- The context slot under which a port issues (R139). A fabric engine issues under none: it acts for a task, which a save does not stop, with
what the task's slot holds (R100, R122, R142). DEDUCED (assumption log 25). -/
def portIssuer : Port → Option Nat
  | .fabric .. => none
  | p => portSlot p

/-- Segment `i` of a context record (R132). -/
def ctxSeg (c : Ctx) (i : Nat) : Seg :=
  let b := Ctx.word c (2 + 2 * i)
  let z := Ctx.word c (3 + 2 * i)
  ⟨bit z 0, bit z 1, bit z 2, bits b 8 36 * 256, bits z 8 36 * 256⟩

def ctxSegs (c : Ctx) : List Seg := (List.range 4).map (ctxSeg c)
/-- The principal of a context record (R140). -/
def ctxPrincipal (c : Ctx) : Principal :=
  ⟨BitVec.ofNat 8 (bits (Ctx.word c 0) 16 8), BitVec.ofNat 12 (bits (Ctx.word c 0) 24 12)⟩
def ctxPriv (c : Ctx) : Bool := bit (Ctx.word c 0) 36
def ctxValid (c : Ctx) : Bool := bit (Ctx.word c 0) 37
def ctxDly (c : Ctx) : Bool := bit (Ctx.word c 0) 38
def ctxLabel (c : Ctx) : Nat := bits (Ctx.word c 1) 0 6
def ctxTimeout (c : Ctx) : Nat := bits (Ctx.word c 1) 32 32

/-- An identity at a stop: the source stop and the index of the source engine (R75, R88). -/
def canalIdent (pos idx : Nat) : Ident := .canal (Fin.ofNat 47 pos) (Fin.ofNat 47 idx)

/-- Engine id of a port (R121). -/
def portEngine : Port → Nat
  | .vc k => k
  | .me k _ _ => 0x40 + k
  | .meCanal k => 0x40 + k
  | .fabric m _ => 0x70 + m
  | .host _ => 0x78
  | .mgmt => 0x7C
  | .seq => 0x7D
  | .sibling _ => 0x79
  | .dexfer _ _ => 0x7A
  | .spring n _ _ => 0x50 + n

/-- Engine class of a port (R121). -/
def portClass : Port → EClass
  | .vc _ => .vc
  | .me .. => .me
  | .meCanal _ => .me
  | .fabric .. => .fabric
  | .host _ => .host
  | .mgmt => .mgmt
  | .seq => .mgmt
  | .sibling _ => .remote
  | .dexfer .. => .remote
  | .spring .. => .spring

/-- Canal position of a port's stop; for an ME wide port, of the lake it is wired to (R63, R75). -/
def portPos : Port → Nat
  | .vc k => Config.clusterPos (k / 4)
  | .me k j _ => Config.lakePos (portLake k j)
  | .meCanal k => Config.clusterPos k
  | .fabric m _ => Config.fabricPos m
  | .host _ => Config.hostPos
  | .mgmt => Config.mgmtPos
  | .seq => Config.mgmtPos
  | .sibling _ => Config.d2dPos
  | .dexfer m _ => Config.fabricPos m
  | .spring n _ _ => Config.lakePos n

/-- Index of a port among the engines of its stop (R75). -/
def portIdx : Port → Nat
  | .vc k => k % 4
  | .meCanal _ => 4
  | .seq => 1
  | _ => 0

/-- The label that `WEIR_SRC_LABEL` gives traffic of no task (R101). -/
def srcLabel (s : State) : Port → Nat
  | .host _ => bits s.weir.srcLabel 0 6
  | .mgmt => bits s.weir.srcLabel 8 6
  | .seq => bits s.weir.srcLabel 16 6
  | .sibling _ => bits s.weir.srcLabel 24 6
  | .dexfer m _ => bits s.weir.srcLabel (32 + 8 * m) 6
  | _ => 0

/-- The class that the label map gives a label (R102). -/
def State.classOf (s : State) (label : Nat) : Nat := bits (Tab.get (fun _ => labelMapReset) s.weir.labelMap label) 0 2
/-- The basin group of a label (R102). -/
def State.groupOf (s : State) (label : Nat) : Nat := bits (Tab.get (fun _ => labelMapReset) s.weir.labelMap label) 2 2
/-- The default deadline of a label (R102). -/
def State.defDl (s : State) (label : Nat) : Nat := bits (Tab.get (fun _ => labelMapReset) s.weir.labelMap label) 16 16

/-- The issuer of what a port presents (R121, R122), at this moment; its budget is the default of its label (R111). A cue wait of the host
stop waits as long as a slated access of it does (R226). DESIGN CHOICE (assumption log 25). -/
def whoOf (s : State) (p : Port) : Who :=
  let c := match portSlot p with | some x => s.ctx x | none => []
  let task := (portSlot p).isSome
  let label := if task then ctxLabel c else srcLabel s p
  { engine := portEngine p
    cls := portClass p
    pr := if task then ctxPrincipal c else ⟨BitVec.ofNat 8 (portEngine p), 0⟩
    priv := if task then ctxPriv c else (p = .mgmt || p = .host true)
    label := label
    ident := match p with
      | .me k j sub => .wired (Fin.ofNat 10 (subShore k j sub))
      | p => canalIdent (portPos p) (portIdx p)
    slot := portIssuer p
    timeout := match p with
      | .host _ => 1048576
      | p => match portIssuer p with | some x => ctxTimeout (s.ctx x) | none => 0
    pos := portPos p
    wired := match p with | .me .. => true | _ => false
    arrival := match p with
      | .sibling _ => some (s.tm.epId.toNat ^^^ 1)
      | .dexfer _ ep => some ep.toNat
      | _ => none
    segs := if task then ctxSegs c else []
    dl := s.defDl label
    issued := s.pw.now
    granted := s.pw.now
    id := s.nextId }

/-- The deadline that a VC or a fabric engine supplies with a request becomes its budget (R111). -/
def Who.budget (w : Who) (q : Req) : Who :=
  match q.port, q.dl with
  | .vc _, some d => { w with dl := d.toNat }
  | .fabric .., some d => { w with dl := d.toNat }
  | _, _ => w

/-- An access that is not answered at once keeps its number, which no later one takes. DESIGN CHOICE (assumption log 17). -/
def State.claim (s : State) (w : Who) : State := { s with nextId := max s.nextId (w.id + 1) }

/-- The qualifiers of an identity in a lake's counters (R384). -/
def identQuals : Ident → List Nat
  | .wired i => [i]
  | .canal p _ => [0x10 + p.val]
def Who.quals (w : Who) : List Nat := identQuals w.ident

/-- A context slot passes requests on: `VALID` is 1, and no save of the slot has begun (R139, R142). -/
def State.slotLive (s : State) (x : Nat) : Bool :=
  ctxValid (s.ctx x) && !(s.tm.ctxBusy && s.tm.ctxIsSave && bits s.tm.ctxSave 0 9 = x)

/-- The port presents under a slot that does not pass requests on (R139). -/
def State.slotDead (s : State) (p : Port) : Bool :=
  match portIssuer p with | some x => !s.slotLive x | none => false

/-- The `DETAIL` of the record that R139 asks for: 1 from step 2 of a save, 2 while `VALID` is 0 (R319). DEDUCED (assumption log 12). -/
def State.deadDetail (s : State) (p : Port) : Nat :=
  match portIssuer p with
  | some x => if s.tm.ctxBusy && s.tm.ctxIsSave && bits s.tm.ctxSave 0 9 = x then 1 else 2
  | none => 0

/-- The block answers every request with ABSENT: it is in reset, or its logic has no supply (R353, R362). DESIGN CHOICE (assumption log
14). -/
def State.absentNow (s : State) : Bool := !s.tm.ready || !s.pw.logOk

/-! ### The address map (R23, R24) -/

/-- The views of the address map that reach storage (R24). -/
inductive View
  | data | peek | pc
deriving DecidableEq, Repr

/-- What a die-local address names (R23); storage by the view and the word number over the die. -/
inductive Target
  | absent
  | control (off : Nat)
  | word (view : View) (w : Nat)
deriving DecidableEq, Repr

/-- The decode that every stop applies (R23). -/
def decodeAddr (v : Variant) (a : Nat) : Target :=
  if a ≥ 0x80000000 then .absent
  else
    let off := a % 0x20000000
    match a / 0x20000000 with
    | 1 => if off ≥ 0x1000000 then .absent else .control off
    | r =>
      if off / Config.lakeBytes < 24 ∧ Config.lakePresent v (off / Config.lakeBytes) then
        .word (if r = 0 then .data else if r = 2 then .peek else .pc) (off / 32)
      else .absent

/-- Read and write rights that an operation needs in a view (R126, R133, R148). A reserved operation code needs none: the tables of R126
and R133 list no right for it. DESIGN CHOICE (assumption log 12). -/
def rightsFor (op : Op) (v : View) : Bool × Bool :=
  match op with
  | .write => (false, true)
  | .read => if v = .pc then (true, true) else (true, false)
  | .xread .. | .gather _ => (true, false)
  | .reserved _ => (false, false)
  | _ => (true, true)

/-! ### Segments (R132 to R135) -/

/-- The conditions of R133's list that a request of `len` bytes at an offset fails, in the list's order; the first, that bits [63:44]
of the task address are zero, as `hi` says. -/
def Seg.fails (g : Seg) (hi : Bool) (off : Int) (len : Nat) (rd wr : Bool) : List Bool :=
  [hi, !g.valid, decide (off < 0) || decide (g.size < off + len), decide (2 ^ 44 < g.base + off + len), (rd && !g.rd) || (wr && !g.wr)]

/-- The first condition that holds, counted from 1; 0 where none does (R319). -/
def firstOf : List Bool → Nat
  | [] => 0
  | b :: l => if b then 1 else (match firstOf l with | 0 => 0 | k => k + 1)

/-- A segment covers the image of `len` bytes at die-local address `d` with the rights needed (R134). -/
def Seg.covers (g : Seg) (d : Int) (len : Nat) (rd wr : Bool) : Bool :=
  g.valid && decide ((g.base : Int) ≤ d) && decide (d + len ≤ g.base + g.size) && (!rd || g.rd) && (!wr || g.wr)

def noSeg : Seg := ⟨false, false, false, 0, 0⟩

/-- Where a request goes once its issuing stop has judged it: refused there, with a record of a `DETAIL` or without; away from this die,
through the stop at a position; to the control space; or to storage. -/
inductive Aim
  | fail (st : Status) (rec : Option Nat)
  | away (sibling : Bool) (pos : Nat)
  | control (off : Nat)
  | word (view : View) (w : Nat)
deriving DecidableEq, Repr

def aimOf (v : Variant) (a : Nat) : Aim :=
  match decodeAddr v a with
  | .absent => .fail .absent none
  | .control off => .control off
  | .word view w => .word view w

/-- The rights that an operation needs at an address, whatever stands there: a read in the slated-produce/consume region is a consume
(R133). -/
def rightsAt (op : Op) (a : Nat) : Bool × Bool := rightsFor op (if a / 0x20000000 = 3 then .pc else .data)

/-- A task address through its segment (R132, R133). `lo` and `len` are the first byte and the length, from the first word
on, of the smallest span that covers every word the request touches (R148). -/
def aimTask (s : State) (segs : List Seg) (op : Op) (a : Nat) (lo : Int) (len : Nat) : Aim :=
  let g := segs.getD (a / 2 ^ 42 % 4) noSeg
  let off := a % 2 ^ 42
  let r := rightsAt op (g.base + off)
  match firstOf (g.fails (2 ^ 44 ≤ a) (off + lo) len r.1 r.2) with
  | 0 => aimOf s.variant (g.base + off)
  | k => .fail .nackBound (some k)

/-- A global address, routed by the die that issues it (R34), with the segments of a task checked by image (R134). DEDUCED (assumption
log 7). -/
def aimGlobal (s : State) (task : Bool) (segs : List Seg) (op : Op) (a : BitVec 64) (lo : Int) (len : Nat) : Aim :=
  let ep := bits a 44 16
  let off := bits a 0 44
  let own := s.tm.epId.toNat
  match bits a 60 4 with
  | 0 =>
    if !s.tm.epValid then .fail .absent none
    else if ep = own then
      let r := rightsAt op off
      if task && !segs.any (fun g => g.covers (off + lo) len r.1 r.2) then .fail .nackBound (some 0)
      else aimOf s.variant off
    else if ep = own ^^^ 1 then .away true Config.d2dPos
    else .away false (Config.fabricPos (Config.fabricFor (BitVec.ofNat 16 ep)))
  | 1 =>
    if !s.tm.epValid then .fail .absent none
    else if ep = own ∨ ep = own ^^^ 1 then
      .away (ep != own) (Config.lakePos (Config.stackSpring (BitVec.ofNat 44 off) % Config.lakeCount s.variant))
    else .away false (Config.fabricPos (Config.fabricFor (BitVec.ofNat 16 ep)))
  | _ => .fail .absent none

/-- A request carries a global address: it says so, or a fabric engine presents it (R134). -/
def isGlobal (q : Req) : Bool := q.glob || (match q.port with | .fabric .. => true | _ => false)

/-- Where a request of a port goes (R34, R133, R135), before its lake or register judges it. A wide-port request that names another lake
than its port is wired to, the control space or another die has no path (R53). DEDUCED (assumption log 7). -/
def aim (s : State) (w : Who) (op : Op) (q : Req) : Aim :=
  let a := q.addr.toNat / 32 * 32
  let offs := opOffsets op q.words
  let lo := lowest offs * 32
  let len := ((highest offs - lowest offs + 1) * 32).toNat
  let task := (portSlot q.port).isSome
  let g :=
    if isGlobal q then aimGlobal s task w.segs op (BitVec.ofNat 64 a) lo len
    else if task then aimTask s w.segs op a lo len
    else aimOf s.variant a
  match q.port, g with
  | .me k j _, .word v x => if x / 8 / Config.rowsPerLake = portLake k j then .word v x else .fail .nackBound (some 0)
  | .me .., .fail st l => .fail st l
  | .me .., _ => .fail .nackBound (some 0)
  | _, g => g

/-- The request names this die by its global address, and is checked as if it had arrived from outside (R34, R283). DEDUCED (assumption
log 7). -/
def Who.ownGlobal (w : Who) (s : State) (q : Req) : Who :=
  if isGlobal q && w.arrival.isNone then { w with arrival := some s.tm.epId.toNat } else w

/-! ### Request queues (R105 to R108) -/

/-- The reservations of a queue-share register (R107). -/
def rsvs {w : Nat} (v : BitVec w) : List Nat := [bits v 0 7, bits v 8 7, bits v 16 7, bits v 24 7]
/-- The reservations of a kind of queue: 0 to 4 for A, B, S, C and stops (R107). -/
def State.shares (s : State) (kind : Nat) : List Nat := rsvs (Tab.get (fun _ => qshareReset) s.weir.qshare kind)

/-- An arriving request of class `c` has a free entry among 64, whose holders' classes are `q` (R105). -/
def freeEntry (q : List Nat) (r : List Nat) (c : Nat) : Bool :=
  let held (k : Nat) : Nat := countTrue (· = k) q
  let excess := ((List.range 4).map fun k => held k - r.getD k 0).sum
  held c < r.getD c 0 || excess < 64 - r.sum

/-- The kind of the request queue of a wired requester's shore (R105). -/
def Who.queueKind (w : Who) : Nat :=
  match w.ident with
  | .wired i => if i.val < 4 then 0 else if i.val < 8 then 1 else 2
  | .canal .. => 3

/-- A request of a shore of a lake is in the ponds up to T-cycle `t`, its DV (R58, R336). DESIGN CHOICE (assumption log 2). -/
def State.inPonds (s : State) (w : Who) (n t : Nat) : State :=
  let k := 4 * n + w.queueKind
  { s with inPond := Tab.set (fun _ => 0) s.inPond k (max t (Tab.get (fun _ => 0) s.inPond k)) }

/-- The T-cycle of the latest DV of the requests of some shores (R58, R336, R342). -/
def State.lastDv (s : State) (p : Nat → Bool) : Nat := (s.inPond.filter fun e => p e.1).foldl (fun t e => max t e.2) 0

/-! ### Retry points (R88 to R90) -/

/-- The backoff count and the expiry of an identity at a retry point. -/
def State.backoffOf (s : State) (pt : RetryPt) (i : Ident) : Nat × Nat :=
  match s.backoff.find? (fun e => e.1 = (pt, i)) with
  | some e => e.2
  | none => (1, 0)

/-- The count set to 1: the entry is dropped. -/
def State.backoffClear (s : State) (pt : RetryPt) (i : Ident) : State :=
  { s with backoff := s.backoff.filter (fun e => e.1 != (pt, i)) }

/-- A request turned away: the count doubles up to 256, expires that many T-cycles from now, and goes with the RETRY (R89). -/
def State.turnAway (s : State) (pt : RetryPt) (i : Ident) : Nat × State :=
  let c := min (2 * (s.backoffOf pt i).1) 256
  (c, { (s.backoffClear pt i) with backoff := ((pt, i), (c, s.pw.now + c)) :: (s.backoffClear pt i).backoff })

/-- T-cycles that remain until an early request's expiry, where it comes before it (R90). -/
def State.early (s : State) (pt : RetryPt) (i : Ident) : Option Nat :=
  let b := s.backoffOf pt i
  if s.pw.now < b.2 then some (b.2 - s.pw.now) else none

end Sys2Proof.Machine
end

