-- ==== Sys2Proof/Machine/Pond.lean ====
section
/-!
DEFINITION. One pond cycle: how a row request is performed on its row (R44 to R49, R158 to R166, R214 to R222, R306 to R312),
with the check of the row, poison marks, write-backs and error injection.
-/
namespace Sys2Proof.Machine

/-- The lake is in W-mode (R303). -/
def State.wMode (s : State) (row : Nat) : Bool := (s.lake (lakeOf row)).wMode

/-- One pond cycle spent on a row (R44, R52); the lake's idle count starts afresh (R341). -/
def State.pondCycle (s : State) (row : Nat) (quals : List Nat := []) (label : Option Nat := none) : State :=
  (s.countLake (lakeOf row) 0x04 quals label).modLake (lakeOf row) fun l => { l with idleFrom := s.pw.now }

/-- Words moved by a performed row request (R119): counted under the label and in the lake. -/
def State.moved (s : State) (w : Who) (n k : Nat) : State :=
  let s := s.countLake n 0x06 w.quals (some w.label) k
  if k = 0 then s
  else { s with weir := { s.weir with lwords := Tab.set (fun _ => 0) s.weir.lwords w.label ((Tab.get (fun _ => 0) s.weir.lwords w.label + k) % 2 ^ 48) } }

/-- An access completes with POISON on a marked row (R312). -/
def State.poisonHit (s : State) (w : Who) (row : Nat) : State :=
  (s.countLake (lakeOf row) 0x0C w.quals (some w.label)).modLake (lakeOf row) fun l => { l with poison := satAdd 0xFFFFFF l.poison 1 }

/-- `DETAIL` of a CORR or UNCORR record (R319): first unit, mode, syndrome, finder. DESIGN CHOICE (assumption log 17). -/
def eccDetail (s : State) (row : Nat) (us : List Nat) (finder : Nat) : Nat :=
  us.headD 0 % 32 + b2n (s.wMode row) * 32 + (Config.syndrome s.fresh).toNat * 64 + finder * 2 ^ 14

/-- A row is found uncorrectable (R309): the count rises and one record of class UNCORR is written. -/
def State.foundBad (s : State) (w : Option Who) (row : Nat) (us : List Nat) (finder : Nat) : State :=
  let n := lakeOf row
  let pr := match w with | some x => x.pr | none => ⟨0x7C, 0⟩
  let s := s.log 1 .uncorrectable (Config.lakePos n) pr (eccDetail s row us finder) (rowAddr row)
  { (s.modLake n fun l => { l with uncorr := satAdd 0xFFFF l.uncorr 1 }) with fresh := s.fresh + 1 }

/-- A pond cycle corrects at least one unit (R308): counted and reported. -/
def State.foundCorr (s : State) (row : Nat) (us : List Nat) (finder : Nat) : State :=
  let n := lakeOf row
  let s := s.countLake n 0x09
  let s := s.correction n (eccDetail s row us finder) (rowAddr row)
  { (s.modLake n fun l => { l with corrected := satAdd 0xFFFFFF l.corrected 1 }) with fresh := s.fresh + 1 }

/-- The tag bits of a row cannot be recovered: units 0 and 1, or codeword 0, cover them (R305, R309). -/
def tagsBad (wMode : Bool) (bad : List Nat) : Bool := if wMode then bad.contains 0 else bad.contains 0 || bad.contains 1

/-- An uncorrectable row enters its pond's mark queue (R311). DESIGN CHOICE (assumption log 10). -/
def State.queueMark (s : State) (row : Nat) : State :=
  let st := tagsBad (s.wMode row) (s.tag row).bad
  s.modLake (lakeOf row) fun l => { l with marks := l.marks ++ [⟨row, st⟩] }

/-- The mark put on a row: check bytes at the poison syndrome, STALE where its tag bits could not be recovered (R309, R311). DESIGN
CHOICE (assumption log 10). -/
def State.mark (s : State) (row : Nat) (stale : Bool) : State :=
  let s := if stale then s.setSlate row .stale else s
  s.setTag row { s.tag row with mark := true, corr := [], bad := [] }

/-- A write-back is scheduled 6 T-cycles after the read pond cycle (R43), with what it would restore if it is dropped; the requests of
one group share one write-back (R52). DEDUCED (assumption log 9). -/
def State.scheduleWb (s : State) (row : Nat) (old : RowTag) (undo : List (Nat × Word)) (fresh : Bool) : State :=
  let due := s.pw.now + 6
  s.modLake (lakeOf row) fun l =>
    if l.wbs.any (fun b => b.row = row && b.due = due) then
      { l with wbs := l.wbs.map fun b => if b.row = row && b.due = due then
          { b with undo := b.undo ++ undo.filter (fun e => !b.undo.any (·.1 = e.1)), fresh := b.fresh && fresh } else b }
    else { l with wbs := l.wbs ++ [⟨row, due, undo, old.corr, old.bad, old.mark, fresh⟩] }

/-- An armed error is applied by a pond cycle that writes the row's data with fresh check bytes (R324). -/
def State.inject (s : State) (row : Nat) : State :=
  let n := lakeOf row
  let l := s.lake n
  if !(l.injArm && l.injRow.toNat = lRow row) then s
  else
    let t := s.tag row
    let u := l.injUnit.toNat
    let t' := match l.injKind.toNat with
      | 0 => { t with corr := if t.corr.contains u then t.corr.filter (· != u) else t.corr ++ [u] }
      | 1 => { t with bad := if t.bad.contains u then t.bad else t.bad ++ [u] }
      | 2 => { t with mark := true, corr := [], bad := [] }
      | _ => t
    (s.setTag row t').modLake n fun l => { l with injArm := false }

/-- Words `ws` of a row written with fresh check bytes: their errors are gone, and a write of all 8 words clears the mark and
its queued mark write (R311, R312). -/
def State.refresh (s : State) (row : Nat) (ws : List Nat) : State :=
  let wm := s.wMode row
  let t := s.tag row
  let whole := (List.range 8).all ws.contains
  let t' : RowTag := { t with corr := refreshed wm ws t.corr, bad := refreshed wm ws t.bad, mark := t.mark && !whole }
  (s.setTag row t').modLake (lakeOf row) fun l =>
    { l with marks := if whole then l.marks.filter (·.row != row) else l.marks }

/-- A write performed in its own pond cycle is merged into the row's pending write-backs, which never undo it (R46). DEDUCED (assumption
log 9). -/
def State.mergeWbs (s : State) (row : Nat) (ws : List Nat) : State :=
  let wm := s.wMode row
  let whole := (List.range 8).all ws.contains
  s.modLake (lakeOf row) fun l =>
    { l with wbs := l.wbs.map fun b => if b.row = row then
        { b with undo := b.undo.filter (fun e => !ws.contains e.1), corr := refreshed wm ws b.corr,
                 bad := refreshed wm ws b.bad, mark := b.mark && !whole } else b }

/-! ### Groups (R49) -/

/-- The rank of a requester's shore at a pond of a lake: S, the two arrival arbiters of C, A0 to A3, B0 to B3 (R48, R56, R159). -/
def shoreRank (w : Who) (row : Nat) : Nat :=
  match w.ident with
  | .wired i => if 8 ≤ i.val then 0 else 3 + i.val
  | .canal .. => 1 + b2n (Config.goesCcw w.pos (Config.lakePos (lakeOf row)))

def State.groupOfRow (s : State) (row : Nat) : Option Grp := s.group.find? (·.row = row)

/-- The group of this PS cycle that a request of a shore of rank `k` joins at a row: it is presented in the same PS cycle, and every
request of the group precedes it (R48, R49). DESIGN CHOICE (assumption log 8). -/
def State.joins (s : State) (joined : Bool) (row k : Nat) : Option Grp :=
  if joined then (s.groupOfRow row).filter (·.rank ≤ k) else none

/-- The row's part in the group of this PS cycle: words written and words under atomics added to it, and whether a read of the group has
checked the row. A request that joins no group begins one. DESIGN CHOICE (assumption log 8). -/
def State.joinGroup (s : State) (grp : Option Grp) (row k : Nat) (old : List Word) (tag : RowTag) (ws atoms : List Nat) (checked : Bool) : State :=
  let g : Grp := match grp with
    | some g => { g with rank := k, writes := g.writes ++ ws, atoms := g.atoms ++ atoms, checked := g.checked || checked }
    | none => ⟨row, k, old, tag, ws, atoms, checked⟩
  { s with group := g :: s.group.filter (·.row != row) }

/-- A row request that forms its group alone leaves no group at its row (R49). DESIGN CHOICE (assumption log 8). -/
def State.alone (s : State) (row : Nat) : State := { s with group := s.group.filter (·.row != row) }

/-- The row as a contender of this PS cycle finds it: its words and its tag from before the cycle, with a queued mark taken as
a mark (R49, R311). -/
def State.before (s : State) (row : Nat) (grp : Option Grp) : List Word × RowTag :=
  match grp with
  | some g => (g.old, g.tag)
  | none => (s.rowWords row, { s.tag row with mark := s.marked row })

/-! ### The outcome of one row request -/

/-- Words that a row request names. -/
def RowReq.n (r : RowReq) : Nat := r.places.length

/-- The row request touches some codeword and does not cover it (R45). -/
def RowReq.splitsCodeword (r : RowReq) : Bool :=
  r.places.any (fun i => !(r.places.contains (i / 2 * 2) && r.places.contains (i / 2 * 2 + 1)))

/-- The outcome of a row request that was performed or refused at its pond: its status and the words it returns. -/
structure RowRes where
  st    : Status
  words : List Word
deriving DecidableEq, Repr

def zeros (n : Nat) : List Word := List.replicate n 0

/-- A read pond cycle checks the row, which held the errors of `t` before it (R306): counts and repairs. A corrected row is written
back, an uncorrectable one is marked, by that write-back where there is one (R308, R309, R311). One check serves a whole group, and the
repair finds what the writes of the group have left (R49). -/
def State.checkRow (s : State) (w : Option Who) (row finder : Nat) (t : RowTag) (grp : Option Grp) : State :=
  if grp.any (·.checked) || t.mark then s
  else
    let s := if t.corr ≠ [] then s.foundCorr row t.corr finder else s
    let s := if t.bad ≠ [] then s.foundBad w row t.bad finder else s
    let u := s.tag row
    if t.corr ≠ [] then
      let s := s.setTag row { u with corr := [] }
      let s := if u.bad ≠ [] then s.mark row (tagsBad (s.wMode row) u.bad) else s
      s.scheduleWb row u [] (u.bad = [])
    else if u.bad ≠ [] then s.queueMark row else s

/-- The named words include an uncorrectable unit or codeword (R309). -/
def namedBad (wMode : Bool) (bad places : List Nat) : Bool :=
  places.any (fun i => (unitsOf wMode i).any bad.contains)

/-- The pond cycle of a row request, which a request that joins a group shares (R44, R49, R52). -/
def State.spend (s : State) (w : Who) (row : Nat) (grp : Option Grp) : State :=
  if grp.isSome then s else (s.settle row).pondCycle row w.quals (some w.label)

/-- A plain read of words of a row (R24, R49, R309, R312): it always returns the stored words, with POISON on a marked row and
UNCORRECTABLE where a named word is. -/
def readRow (s : State) (w : Who) (grp : Option Grp) (r : RowReq) : RowRes × State :=
  let (old, t) := s.before r.row grp
  let ws := r.places.map (fun i => old.getD i 0)
  let s := s.spend w r.row grp
  let st := if t.mark then .poison else if namedBad (s.wMode r.row) t.bad r.places then .uncorrectable else .ok
  let s := s.checkRow (some w) r.row 0 t grp
  let s := if t.mark then s.poisonHit w r.row else s
  let s := (s.joinGroup grp r.row (shoreRank w r.row) old t [] [] true).countLake (lakeOf r.row) 0x05 w.quals (some w.label)
  (⟨st, ws⟩, s.moved w (lakeOf r.row) r.n)

/-- Words `data` at the places they are written to; a word that is not supplied is zero. -/
def placed : List Nat → List Word → List (Nat × Word)
  | [], _ => []
  | i :: is, [] => (i, 0) :: placed is []
  | i :: is, d :: ds => (i, d) :: placed is ds

/-- Words stored by a write in its own pond cycle or carried by its write-back (R45, R46). -/
def storeWords (s : State) (w : Who) (r : RowReq) (ws : List (Nat × Word)) : State :=
  ((s.putWords r.row ws).moved w (lakeOf r.row) ws.length)

/-- A plain write of words of a row (R24, R45 to R49, R312). `whole` writes all or nothing, as a slated write does (R47). A write that
is not performed is no write already taken: the words of one that collided, or met a marked row, hold no later write back. DESIGN
CHOICE (assumption log 8). -/
def writeRow (s : State) (w : Who) (grp : Option Grp) (whole : Bool) (r : RowReq) : RowRes × State :=
  let n := lakeOf r.row
  let wm := s.wMode r.row
  let k := shoreRank w r.row
  let (old, t) := s.before r.row grp
  let clash := grp.any (fun g => r.places.any (fun i => g.writes.contains i || g.atoms.contains i))
  let ws := placed r.places r.data
  -- a read-modify-write of codewords that the write covers only partly
  let rmw := wm && r.splitsCodeword
  let lost := if rmw then t.bad.filter (fun c => r.places.any (fun i => i / 2 = c) && !(r.places.contains (2 * c) && r.places.contains (2 * c + 1))) else []
  let s := (s.spend w r.row grp).countLake n 0x05 w.quals (some w.label)
  if t.mark && r.n < 8 then (⟨.poison, []⟩, (s.poisonHit w r.row).joinGroup grp r.row k old t [] [] rmw)
  else if lost ≠ [] && (whole || clash) then
    (⟨.uncorrectable, []⟩, (s.checkRow (some w) r.row 0 t grp).joinGroup grp r.row k old t [] [] true)
  else if clash then (⟨.collided, []⟩, (s.countLake n 0x0A w.quals (some w.label)).joinGroup grp r.row k old t [] [] false)
  else if rmw then
    -- the row is read and decoded, and written whole 6 T-cycles later
    let keep := ws.filter (fun e => !lost.contains (e.1 / 2))
    let told := grp.any (·.checked)
    let s := if t.corr ≠ [] && !told then s.foundCorr r.row t.corr 0 else s
    let s := if t.bad ≠ [] && !told then s.foundBad (some w) r.row t.bad 0 else s
    let s := storeWords s w r keep
    let s := s.refresh r.row (keep.map (·.1))
    let u := s.tag r.row
    let s := s.setTag r.row { u with corr := [] }
    let s := if u.bad ≠ [] then s.mark r.row (tagsBad wm u.bad) else s
    let s := s.scheduleWb r.row t ((keep.map (fun e => (e.1, old.getD e.1 0)))) (u.bad = [])
    (⟨if lost ≠ [] then .uncorrectable else .ok, []⟩, s.joinGroup grp r.row k old t (keep.map (·.1)) [] true)
  else
    let s := storeWords s w r ws
    let s := ((s.refresh r.row (ws.map (·.1))).mergeWbs r.row (ws.map (·.1))).inject r.row
    (⟨.ok, []⟩, s.joinGroup grp r.row k old t (ws.map (·.1)) [] false)

/-- The operand word, and whether its upper half, that acts on the `i`-th destination word of a request (R160). -/
def operandAt (op : Op) (data : List Word) (i : Nat) : Word × Bool :=
  match op with
  | .addWide _ => (data.getD (i / 2) 0, i % 2 = 1)
  | _ => (data.getD i 0, false)

/-- The words of a row after a lake atomic on some of them, with the flags and draws (R160). `todo` pairs the place of each
destination word with its number in the request. -/
def atomWords (env : AtEnv) (op : Op) (cur data : List Word) :
    List (Nat × Nat) → Nat → List (Nat × Word) × MsoFlags × Nat
  | [], draws => ([], {}, draws)
  | (p, i) :: todo, draws =>
    let o := operandAt op data i
    let r := atomWord env op o.2 draws (cur.getD p 0) o.1
    let t := atomWords env op cur data todo r.2.2
    ((p, r.1) :: t.1, r.2.1.or t.2.1, t.2.2)

/-- Flags and draws of a lake atomic taken into the lake's registers (R161 to R164, R168). -/
def State.takeFlags (s : State) (n : Nat) (f : MsoFlags) (draws : Nat) (w : Who) : State :=
  let k := draws - (s.lake n).draws
  (s.countLake n 0x23 w.quals (some w.label) k).modLake n fun l =>
    { l with fInvalid := l.fInvalid || f.invalid, fOverflow := l.fOverflow || f.overflow,
             iOverflow := l.iOverflow || f.intOver, srForced := l.srForced || f.forced, draws := draws }

/-- A lake atomic on words of a row (R158 to R165). The words it touches count as written for the writes after it in its group, whether
or not it performed an operation in them (R159). -/
def atomRow (s : State) (w : Who) (grp : Option Grp) (op : Op) (r : RowReq) : RowRes × State :=
  let n := lakeOf r.row
  let wm := s.wMode r.row
  let k := shoreRank w r.row
  let (old, t) := s.before r.row grp
  let clash := grp.any (fun g => r.places.any g.writes.contains)
  let cur := s.rowWords r.row
  let got := if opFetches op then r.places.map (fun i => cur.getD i 0) else []
  let good := (r.places.zip (List.range r.n)).filter (fun e => !(unitsOf wm e.1).any t.bad.contains)
  let s := ((s.spend w r.row grp).countLake n 0x05 w.quals (some w.label)).countLake n 0x22 w.quals (some w.label)
  if t.mark then (⟨.poison, if clash then [] else got⟩, (s.poisonHit w r.row).joinGroup grp r.row k old t [] (if clash then [] else r.places) true)
  else if clash && good.length = r.n then
    (⟨.collided, []⟩, (s.countLake n 0x0A w.quals (some w.label)).joinGroup grp r.row k old t [] [] false)
  else if clash then (⟨.uncorrectable, []⟩, (s.checkRow (some w) r.row 0 t grp).joinGroup grp r.row k old t [] [] true)
  else
    let res := atomWords ⟨n, (s.lake n).forceRne, (s.lake n).mixes, s.pw.now⟩ op cur r.data good (s.lake n).draws
    let st := if good.length < r.n then .uncorrectable else .ok
    let told := grp.any (·.checked)
    let s := if t.corr ≠ [] && !told then s.foundCorr r.row t.corr 0 else s
    let s := if t.bad ≠ [] && !told then s.foundBad (some w) r.row t.bad 0 else s
    let s := storeWords s w r res.1
    let s := s.takeFlags n res.2.1 res.2.2 w
    let s := s.refresh r.row (res.1.map (·.1))
    let u := s.tag r.row
    let s := s.setTag r.row { u with corr := [] }
    let s := if u.bad ≠ [] then s.mark r.row (tagsBad wm u.bad) else s
    let s := s.scheduleWb r.row t (res.1.map (fun e => (e.1, cur.getD e.1 0))) (u.bad = [])
    (⟨st, got⟩, s.joinGroup grp r.row k old t [] r.places true)

/-! ### Slated accesses (R216 to R219) -/

/-- The row lies in the range of a running maintenance operation (R228). -/
def Lake.inMaint (l : Lake) (r : Nat) : Bool := l.slBusy && l.slFirst.toNat ≤ r && r < l.slFirst.toNat + l.slCount.toNat

/-- Row `r` of a lake lies in a range. -/
def Range.has (g : Range) (r : Nat) : Bool := g.first.toNat ≤ r && r < g.first.toNat + g.count.toNat

/-- The open take whose result range holds a row of the lake (R215). -/
def Lake.resTake (l : Lake) (r : Nat) : Option Nat :=
  (List.range 16).find? (fun t => (l.take t).state ≠ .free && Range.has (l.take t).f.res r)

/-- The condition of a slated access on the slate of its row (R216, R219); a take is its rows' reserver (R215). -/
def slateMeets (l : Lake) (r : Nat) (m : Mode) (sl : Slate) : Bool :=
  match m with
  | .plain => true
  | .peek | .takePeek _ | .consume => sl = .full
  | .produce => sl = .empty || sl = .reserved
  | .takeWrite t => sl = .empty || (sl = .reserved && l.resTake r = some t)
  | .land _ => (sl = .empty || sl = .reserved) && l.resTake r = none

/-- The slate that a performed slated access leaves (R219). -/
def slateAfter (m : Mode) (sl : Slate) : Slate :=
  match m with
  | .consume => .empty
  | .produce => .full
  | .takeWrite _ | .land _ => .reserved
  | _ => sl

/-- Position `a` lies before `b` in a reel whose head stands at `h` (R138). -/
def posBefore (h a b : Nat) : Bool := (a + 2 ^ 32 - h) % 2 ^ 32 < (b + 2 ^ 32 - h) % 2 ^ 32

/-- A slot recorded in position order; a FULL slot not yet read is recorded afresh, one that has been read is not (R174). DEDUCED
(assumption log 13). -/
def addSlot (h : Nat) (x : Slot) : List Slot → List Slot
  | [] => [x]
  | y :: l =>
    if x.pos = y.pos then (if y.read then y :: l else x :: l)
    else if posBefore h x.pos y.pos then x :: y :: l else y :: addSlot h x l

/-- A row becomes FULL. Where it is a command slot of the lake's Spring, the principal, label and segments of what set it FULL are
recorded (R175), and the reel's `TAIL` advances over every FULL slot in position order (R172). -/
def State.slotFull (s : State) (row : Nat) (pr : Principal) (priv : Bool) (label : Nat) (segs : List Seg) : State :=
  let n := lakeOf row
  let x := s.spring n
  let r := s.reel x.reel.toNat
  let size := 2 ^ r.size.toNat
  if !x.bound || row < r.base.toNat || r.base.toNat + size ≤ row then s
  else
    let h := r.head.toNat
    let pos := (h + (row - r.base.toNat + size - h % size) % size) % 2 ^ 32
    let slots := addSlot h ⟨pos, pr, priv, label, segs, !segs.isEmpty, false, none⟩ x.slots
    let tail := slots.foldl (fun t y => if y.pos = t then (t + 1) % 2 ^ 32 else t) r.tail.toNat
    (s.modSpring n fun x => { x with slots := slots }).modReel x.reel.toNat fun r => { r with tail := BitVec.ofNat 32 tail }

/-- A request has set a row FULL: what its context slot holds at this moment is recorded, where the slot still holds the task that issued
it (R100, R175). -/
def State.slotFullBy (s : State) (row : Nat) (w : Who) : State :=
  match w.slot with
  | some x =>
    let c := s.ctx x
    if ctxPrincipal c = w.pr then s.slotFull row w.pr w.priv (ctxLabel c) (ctxSegs c) else s.slotFull row w.pr w.priv w.label w.segs
  | none => s.slotFull row w.pr w.priv w.label w.segs

/-- What a row request came to: performed or refused with a status, or its condition is not met and it waits, with the words that its
pond cycle found stored. -/
inductive RowOut
  | done (r : RowRes)
  | unmet (stored : List Word)
deriving DecidableEq, Repr

/-- Modes that read the row, and modes that change its slate and so form their group alone (R49). -/
def Mode.reads : Mode → Bool
  | .produce | .takeWrite _ | .land _ => false
  | _ => true
def Mode.alone : Mode → Bool
  | .plain | .peek | .takePeek _ => false
  | _ => true

/-- A landing write on a row of an open take's result range finds the row RESERVED by another, whatever its tag bits hold (R215). -/
def foreignLand (l : Lake) (r : Nat) (m : Mode) : Bool := match m with | .land _ => (l.resTake r).isSome | _ => false

/-- A slated row request at its pond cycle (R216 to R220, R228, R309, R312): STALE and marked rows give POISON, rows whose
tag bits or named words cannot be recovered UNCORRECTABLE, each with the stored words of a read (R13, R309); nothing is performed unless
the slate meets the condition. A read that ends so has read the row and shares its pond cycle as any other does (R43, R49). -/
def slatedRow (s : State) (w : Who) (grp : Option Grp) (m : Mode) (r : RowReq) : RowOut × State :=
  let l := s.lake (lakeOf r.row)
  let (old, t) := s.before r.row grp
  let stored := if m.reads then r.places.map (fun i => old.getD i 0) else []
  let sl := s.slate r.row
  let spent := s.spend w r.row grp
  let cantRead := t.mark && (m.reads || r.n < 8)
  let badNow := !t.mark && (tagsBad (s.wMode r.row) t.bad || (m.reads && namedBad (s.wMode r.row) t.bad r.places))
  let read := if m.reads || badNow then spent.checkRow (some w) r.row 0 t grp else spent
  let close (s : State) := if m.alone then s.alone r.row else s.joinGroup grp r.row (shoreRank w r.row) old t [] [] true
  if l.inMaint (lRow r.row) || foreignLand l (lRow r.row) m then (.unmet stored, close read)
  else if badNow then (.done ⟨.uncorrectable, stored⟩, close read)
  else if cantRead then (.done ⟨.poison, stored⟩, close (read.poisonHit w r.row))
  else if sl = .stale then (.done ⟨.poison, stored⟩, close read)
  else if !slateMeets l (lRow r.row) m sl then (.unmet stored, close read)
  else
    let res := if m.reads then readRow s w grp r else writeRow s w grp true r
    let s := if res.1.st = .ok && m.alone then res.2.setSlate r.row (slateAfter m sl) else res.2
    let s := if res.1.st = .ok && m = .produce then s.slotFullBy r.row w else s
    (.done res.1, if m.alone then s.alone r.row else s)

/-- The source rows of an XREAD form their groups alone, in every view (R49, R152). -/
def opSolo : Op → Bool
  | .xread .. => true
  | _ => false

/-- A row request by its mode and operation; a masked row is answered with zeros and touches nothing (R166). An XREAD's source
row and a slated access that changes the slate join no group (R49, R152). -/
def rowAccess (s : State) (w : Who) (op : Op) (joined : Bool) (m : Mode) (r : RowReq) : RowOut × State :=
  if r.masked then (.done ⟨.ok, zeros r.n⟩, s.countLake (lakeOf r.row) 0x24 w.quals (some w.label))
  else
    let grp := s.joins (joined && !opSolo op && !m.alone) r.row (shoreRank w r.row)
    let x := match m with
      | .plain =>
        let x := if opIsAtomic op then atomRow s w grp op r else if op = Op.write then writeRow s w grp false r else readRow s w grp r
        (RowOut.done x.1, x.2)
      | m => slatedRow s w grp m r
    (x.1, if opSolo op then x.2.alone r.row else x.2)

end Sys2Proof.Machine
end

