-- ==== Sys2Proof/Machine/Access.lean ====
section
/-!
DEFINITION. A request at its lake: its row requests (R36, R37, R152, R157), the checks a lake makes (R15, R39, R126, R146,
R147, R284, R343), its waits (R223 to R226), and its response (R40, R70, R113, R114).
-/
namespace Sys2Proof.Machine

/-! ### The row requests of a request -/

/-- Word `w` of the die as a row and a place in it. -/
def wordRow (w : Nat) : Nat := w / 8
def wordPlace (w : Nat) : Nat := w % 8

/-- The words that a request names, numbered over the die (R145). -/
def wordsOf (op : Op) (q : Req) (w0 : Nat) : List Nat :=
  (opOffsets op q.words).map (fun (o : Int) => ((w0 : Int) + o).toNat)

/-- The row requests of a request, in parts that wait and complete on their own: each half of a request that crosses a row
(R37, R216); all source rows of an XREAD, each alone (R152); all rows of a GATHER, one row request to a row (R157). -/
def partsOf (op : Op) (q : Req) (w0 : Nat) (data : List Word) : List (List RowReq) :=
  let ws := wordsOf op q w0
  match op with
  | .xread .. => [ws.map (fun w => ⟨wordRow w, [wordPlace w], [], false⟩)]
  | .gather _ =>
    let rows := (ws.map wordRow).eraseDups
    [rows.map (fun r => ⟨r, ((ws.filter (wordRow · = r)).map wordPlace).eraseDups, [], false⟩)]
  | _ =>
    let k := min q.words (8 - wordPlace w0)
    let v := q.vbit.getD (true, true)
    let cut := match op with | .addWide _ => k / 2 | _ => k
    let a : RowReq := ⟨wordRow w0, (ws.take k).map wordPlace, data.take cut, !v.1⟩
    let b : RowReq := ⟨wordRow w0 + 1, (ws.drop k).map wordPlace, data.drop cut, !v.2⟩
    if k < q.words then [[a], [b]] else [[a]]

/-- The word at a row and place among those that row requests returned. -/
def foundWord (rows : List RowReq) (got : List (List Word)) (w : Nat) : Word :=
  match (rows.zip got).find? (fun e => e.1.row = wordRow w && e.1.places.contains (wordPlace w)) with
  | some e => e.2.getD (e.1.places.idxOf (wordPlace w)) 0
  | none => 0

/-- The data of a part's response: the words in order, the packed words of a GATHER (R156), the block of an XREAD (R150). -/
def assemble (op : Op) (q : Req) (w0 : Nat) (rows : List RowReq) (got : List (List Word)) : List Word :=
  match op with
  | .xread ew _ => transposeBlock ew (got.map (fun l => l.headD 0))
  | .gather _ => (wordsOf op q w0).map (foundWord rows got)
  | _ => got.flatten

/-! ### Responses -/

/-- Lanes of the shore that carries a request (R36, R56, R59). -/
def lanesOf (s : State) (w : Who) (n : Nat) : Nat :=
  match w.ident with
  | .wired i =>
    if 8 ≤ i.val then 16
    else
      let sp := if i.val < 4 then (s.lake n).aSplit else (s.lake n).bSplit
      if sp = 0 then 32 else if sp = 1 then 16 else 8
  | .canal .. => 4

/-- The latency of an access that meets no wait: the lake's (R41, R154), and the canal path for a canal request (R70). -/
def latencyOf (s : State) (w : Who) (op : Op) (q : Req) (n w0 : Nat) : Nat :=
  let l := opLatency op (s.lake n).wMode (wordPlace w0) q.words (lanesOf s w n)
  if w.wired then l else 12 + 2 * Config.hops w.pos (Config.lakePos n) + l

/-- The nominal latency that deadlines are reckoned with (R112). -/
def nominalL (op : Op) : Nat := if op = .write then 6 else if opIsAtomic op then 12 else 9

/-- A sample for a deadline estimator (R113): empty until 16 samples, then a running estimate. -/
def Est.sample (e : Est) (x : Nat) : Est :=
  if e.n < 16 then
    let sum := e.sum + x
    if e.n = 15 then ⟨16, 0, min 32767 (sum / 16)⟩ else ⟨e.n + 1, sum, 0⟩
  else
    let d : Int := (x : Int) - e.w
    ⟨16, 0, min 32767 ((e.w : Int) + d / 16).toNat⟩

/-- A late request of a deadline class is counted (R114), and held for the class's next record. DEDUCED (assumption log 15). -/
def State.lateOne (s : State) (c label pos : Nat) : State :=
  let l := Tab.get (fun _ => Late.reset) s.weir.late c
  let k := satAdd (2 ^ 63 - 1) l.count 1
  let l' : Late := { l with count := k, sat := l.sat || decide (k = 2 ^ 63 - 1), pending := satAdd max32 l.pending 1,
                            label := if l.pending = 0 then label else l.label, pos := if l.pending = 0 then pos else l.pos }
  { s with weir := { s.weir with late := Tab.set (fun _ => Late.reset) s.weir.late c l' } }

/-- A response of a request that becomes valid at its requester in T-cycle `valid` (R113, R114): where the request's class is a deadline
class, it is counted if its budget is spent, and a canal request to the stop at `dst` gives the estimator of its source stop a sample. A control-space
access gives none, since no rule says which stop answers it or when. DESIGN CHOICE (assumption log 15). -/
def State.deadlines (s : State) (w : Who) (op : Op) (lake : Bool) (dst : Option Nat) (valid : Nat) : State :=
  let c := s.classOf w.label
  if !bit s.weir.clsDl c then s
  else
    let s := if w.dl < valid - w.issued then s.lateOne c w.label w.pos else s
    match dst, w.ident with
    | some d, .canal .. =>
      let k := (2 * w.pos + b2n (Config.goesCcw w.pos d)) * 4 + c
      let x := valid - w.granted - (12 + 2 * Config.hops w.pos d + if lake then nominalL op else 0)
      { s with weir := { s.weir with est := Tab.set (fun _ => Est.reset) s.weir.est k ((Tab.get (fun _ => Est.reset) s.weir.est k).sample x) } }
    | _, _ => s

/-- The bytes of words, lowest first. -/
def wordBytes (w : Word) : List Byte := (List.range 32).map (fun i => BitVec.ofNat 8 (bits w (8 * i) 8))

/-- A response is a Completer Abort at the host bus (R30). -/
def stAborts : Status → Bool
  | .nackOwner | .nackBound | .nackState | .nackWindowClosed | .nackLakeOff | .absent => true
  | _ => false
def stMarks (st : Status) : Bool := st = .poison || st = .uncorrectable

/-- The completions of a host read that may go out: those before the first that has not come (R262). DEDUCED (assumption log 27). -/
def readyCpls : List (Nat × Option Cpl) → List Cpl × List (Nat × Option Cpl)
  | (_, some c) :: l => let r := readyCpls l; (c :: r.1, r.2)
  | l => ([], l)

/-- The first request of a host read that starts at a word and has no completion takes one. -/
def fillCpl (w : Nat) (c : Cpl) : List (Nat × Option Cpl) → Option (List (Nat × Option Cpl))
  | [] => none
  | (x, o) :: l => if x = w && o.isNone then some ((x, some c) :: l) else (fillCpl w c l).map ((x, o) :: ·)

/-- The completion of a host request that starts at a word: driven at once, or in address order among those of its TLP (R262). DEDUCED
(assumption log 27). -/
def State.hostCpl (s : State) (tag w : Nat) (c : Cpl) : State :=
  let out (s : State) (c : Cpl) := s.emit (.cpl tag c.abort false c.ep c.bytes)
  match s.hostReads.findSome? (fun r => if r.tag = tag then (fillCpl w c r.parts).map (r, ·) else none) with
  | none => out s c
  | some (r, parts) =>
    let (go, rest) := readyCpls parts
    let others := s.hostReads.erase r
    go.foldl out { s with hostReads := if rest = [] then others else ⟨tag, rest⟩ :: others }

/-- The completion of a register read, which at the host stop becomes one of the bus (R30). -/
def State.answerRead (s : State) (src : Src) (st : Status) (size : Nat) (v : BitVec 64) : State :=
  match src.port with
  | .host _ => s.emit (.cpl src.tag (stAborts st) false false (if stAborts st then [] else (List.range size).map fun i => BitVec.ofNat 8 (bits v (8 * i) 8)))
  | _ => s.reply src st v

/-- The response of a request is driven (R73), `lat` T-cycles after `from_`; `dst` is the lake it comes from, where it reached one. At the
host stop a RETRY is waited out there, as is the COLLIDED of an AtomicOp (R265), a posted write has no completion,
and every other response becomes a completion that carries the bytes asked for (R29, R30). A Spring's response travels back to
its stop. -/
def State.respond (s : State) (w : Who) (dst : Option Nat) (op : Op) (q : Req) (opnd : List Word) (st : Status) (data : List Word)
    (from_ lat backoff : Nat) : State :=
  let again : Bool := st = .retry || (st = .collided && opIsAtomic op)
  match q.port, again with
  | .host _, true => { (s.claim w) with hostRetry := s.hostRetry ++ [.access op q opnd (s.pw.now + backoff) w none 4] }
  | port, _ =>
  let s := s.deadlines w op true (dst.map Config.lakePos) (from_ + lat)
  match port with
  | .host _ =>
    if q.posted then s
    else
      let b := q.bytes.getD (0, 32 * data.length)
      s.hostCpl q.tag (q.addr.toNat % 0x20000000 / 32)
        ⟨stAborts st, stMarks st, if stAborts st then [] else ((data.map wordBytes).flatten.drop b.1).take b.2⟩
  | .spring n seq piece =>
    let (id, s) := s.fresh1
    { s with inbox := s.inbox ++ [⟨id, n, seq, piece, st, data⟩] }
  | p => s.emit (.resp p q.tag st data lat backoff)

/-- Zeros as a read of an absent target returns them (R3, R23): as many words as the request reads (R145). DEDUCED (assumption log 14). -/
def absentData (op : Op) (words : Nat) : List Word :=
  match op with
  | .read | .gather _ => zeros words
  | .xread ew _ => zeros (ewCount ew)
  | op => if opFetches op then zeros words else []

/-- A request refused before its pond: no side effect but its record, and zero data of an absent target (R3, R15, R23, R131). -/
def State.refuse (s : State) (w : Who) (op : Op) (q : Req) (st : Status) (rec : Option (Nat × Nat × Nat)) (addr : Nat)
    (dst : Option Nat := none) (lat : Nat := 0) : State :=
  let s := match rec with | some (cls, source, detail) => s.log cls st source w.pr detail addr | none => s
  s.respond w dst op q [] st (if st = .absent then absentData op q.words else []) s.pw.now lat 0

/-! ### Takes: the end of a position without commit (R239, R292) -/

/-- The take position that a mode belongs to. -/
def Mode.takeSlot : Mode → Option Nat
  | .takePeek t | .takeWrite t => some t
  | _ => none

def Waiting.mode : Waiting → Option Mode
  | .access _ _ m _ _ _ => some m
  | _ => none

/-! ### Waits (R223 to R226) -/

/-- A part of a waiting request has completed: the whole request responds when every part has (R216). -/
def State.finishPart (s : State) (rid part : Nat) (st : Status) (data : List Word) (backoff : Nat) : State :=
  match s.flights.find? (·.rid = rid) with
  | none => s
  | some f =>
    let parts := f.parts.set part (some (st, data, backoff))
    if parts.all Option.isSome then
      let done := parts.filterMap id
      let lat := f.lat + (s.pw.now - f.start)
      let n := lakeOf (wordRow (f.q.addr.toNat / 32))
      let s := { s with flights := s.flights.filter (·.rid != rid) }
      s.respond f.who (some n) f.op { f.q with addr := f.orig } f.opnd (firstStatus (done.map (·.1))) ((done.map (·.2.1)).flatten)
        f.start lat (done.foldl (fun b o => max b o.2.2) 0)
    else { s with flights := s.flights.map fun g => if g.rid = rid then { g with parts := parts } else g }

/-- A waiter entry is freed without its access being performed; the access completes with a status, a RETRY with its count (R225). The
count of a cue wait is the value that its response carries. -/
def State.dropWaiter (s : State) (n : Nat) (e : Waiter) (st : Status) (backoff : Nat) : State :=
  let s := s.modLake n fun l => { l with waiters := l.waiters.filter (·.id != e.id) }
  match e.what with
  | .access _ _ _ rid part _ => s.finishPart rid part st [] backoff
  | .cue _ _ src => (s.deadlines e.who .read false none s.pw.now).reply src st (BitVec.ofNat 64 backoff)
  | .land _ _ => s

/-- Every waiter of a lake that a test picks is released (R225). -/
def State.releaseWaiters (s : State) (n : Nat) (p : Waiter → Bool) (st : Status) (backoff : Nat := 0) : State :=
  ((s.lake n).waiters.filter p).foldl (fun s e => s.dropWaiter n e st backoff) s

/-- A take position begins to end without commit (R239, R292): it is ABORTING, and its held accesses are released with
NACK_STATE. -/
def State.endTake (s : State) (n t cause : Nat) (st : Status := .ok) : State :=
  let x := (s.lake n).take t
  if x.state = .open ∨ x.state = .committing then
    let fault := cause = 1 ∨ cause = 5 ∨ cause = 6
    let s := s.modLake n fun l => l.setTake t { x with state := .aborting, cause := cause, fault := fault, at_ := s.pw.now, st := st }
    s.releaseWaiters n (fun e => (e.what.mode.bind Mode.takeSlot) = some t) .nackState
  else s

/-- A take access that found STALE, UNCORRECTABLE or POISON ends its take with a take-fault (R239). -/
def State.takeOutcome (s : State) (n : Nat) (m : Mode) (st : Status) : State :=
  match m.takeSlot with
  | some t => if stMarks st then s.endTake n t 5 st else s
  | none => s

/-- The row requests of one part are performed, each in turn; the first `fit` of them may join the present PS cycle. -/
def rowsAccess (w : Who) (op : Op) (m : Mode) : State → Nat → List RowReq → List RowOut × State
  | s, _, [] => ([], s)
  | s, fit, r :: rs =>
    let a := rowAccess s w op (0 < fit) m r
    let t := rowsAccess w op m a.2 (fit - 1) rs
    (a.1 :: t.1, t.2)

def RowOut.met : RowOut → Bool
  | .done _ => true
  | .unmet _ => false
/-- The result of a row request; a row whose condition was not met has the words stored in it. -/
def RowOut.res : RowOut → RowRes
  | .done x => x
  | .unmet ws => ⟨.ok, ws⟩

/-- One part at its pond: its outcome with data, or none where it has to wait. A part of several rows waits while any is unmet, unless
one of them is STALE, marked or uncorrectable, with which the whole completes (R147, R218, R224). -/
def partAccess (s : State) (w : Who) (op : Op) (q : Req) (w0 : Nat) (m : Mode) (fit : Nat) (rows : List RowReq) :
    Option (Status × List Word) × State :=
  let s := match op with
    | .xread .. => s.countLake (lakeOf (wordRow w0)) 0x20 w.quals (some w.label) rows.length
    | .gather _ => s.countLake (lakeOf (wordRow w0)) 0x21 w.quals (some w.label) q.words
    | _ => s
  let (os, s) := rowsAccess w op m s fit rows
  let xs := os.map RowOut.res
  let st := firstStatus (xs.map (·.st))
  if os.all RowOut.met || stMarks st then (some (st, assemble op q w0 rows (xs.map (·.words))), s) else (none, s)

/-- A part waits: it takes a waiter entry where one is free, else it is turned away with RETRY (R223). -/
def State.wait (s : State) (n : Nat) (w : Who) (what : Waiting) (rows : List Nat) : Option Nat × State :=
  if (s.lake n).waiters.length ≥ 64 then
    let (c, s) := s.turnAway (.waiters (Fin.ofNat 24 n)) w.ident
    (some c, s.countLake n 0x1A w.quals (some w.label))
  else
    let (id, s) := s.fresh1
    let s := (s.backoffClear (.waiters (Fin.ofNat 24 n)) w.ident).countLake n 0x18 w.quals (some w.label)
    (none, s.modLake n fun l => { l with waiters := l.waiters ++ [⟨id, w, what, rows, s.pw.now⟩] })

/-- The parts of a request presented one after another; the outcome of each, none where it waits. A slated part that is performed is
accepted by the waiter table (R89). -/
def partsAccess (w : Who) (op : Op) (q : Req) (w0 : Nat) (m : Mode) (rid : Nat) :
    State → Nat → Nat → List (List RowReq) → List (Option (Status × List Word × Nat)) × State
  | s, _, _, [] => ([], s)
  | s, i, fit, rows :: rest =>
    let n := lakeOf (wordRow w0)
    let (r, s) := partAccess s w op q w0 m fit rows
    let (o, s) := match r with
      | some x => (some (x.1, x.2, 0), if m = .plain then s else s.backoffClear (.waiters (Fin.ofNat 24 n)) w.ident)
      | none =>
        let (t, s) := s.wait n w (.access op q m rid i rows) (rows.map (·.row))
        (t.map (fun c => (Status.retry, ([] : List Word), c)), s)
    let (os, s) := partsAccess w op q w0 m rid s (i + 1) (fit - rows.length) rest
    (o :: os, s)

/-! ### Lanes and ponds in a PS cycle (R36, R38, R48 to R51, R56) -/

/-- The number, in the table of arbiters, of the arbiter that grants a requester's row requests at a lake. -/
def laneKey (w : Who) (n : Nat) : Nat :=
  16 * n + match w.ident with
    | .wired i => min i.val 8
    | .canal .. => 9 + b2n (Config.goesCcw w.pos (Config.lakePos n))

/-- The arbiters whose shore, or sub-shore, a stall of an arbiter's row request holds (R50, R56). -/
def heldWith (k : Nat) : List Nat := if k % 16 = 9 then [k, k + 1] else if k % 16 = 10 then [k - 1, k] else [k]

/-- Row requests that go to PS in one T-cycle, each behind those before it that take another pond cycle of its pond (R49 to R51): the
longest stall, the sum of the stalls, and the rows served. -/
def placeRows (solo : Bool) : List Nat → List Nat → Nat × Nat × List Nat
  | placed, [] => (0, 0, placed)
  | placed, r :: rs =>
    let same := placed.filter (fun x => lakeOf x = lakeOf r && pondOf x = pondOf r)
    let joins : Bool := !solo && same.contains r
    let k := if joins then same.idxOf r else same.length
    let t := placeRows solo (if joins then placed else placed ++ [r]) rs
    (max k t.1, k + t.2.1, t.2.2)

/-- Where the row requests of a request go: how many reach PS in the present cycle, the T-cycles that lanes and ponds add (R38, R42), and
the T-cycles of stall, in all. -/
structure Placing where
  fit    : Nat
  late   : Nat
  stalls : Nat

/-- The row requests of a request take their arbiter's lanes in order; those that find none spill into the T-cycles after (R38). A request
that joins no PS cycle begins one. An XREAD shares no beat with other codes (R152), and `opLatency` counts the beats of its own. A stall
holds the shore (R50). DESIGN CHOICE (assumption log 8). -/
def State.place (s : State) (w : Who) (n : Nat) (op : Op) (m : Mode) (joins : Bool) (rows : List RowReq) : Placing × State :=
  let s := if joins then s else { s with group := [], ps := ⟨[], []⟩ }
  let key := laneKey w n
  let lanes := lanesOf s w n
  let used0 := ((s.ps.lanes.find? (·.1 = key)).map (·.2)).getD 0
  let used := if opSolo op then (used0 + lanes - 1) / lanes * lanes else used0
  let beats := (used + rows.length - 1) / lanes
  let solo := opSolo op || m.alone
  let chunk (c : Nat) : List Nat :=
    ((rows.zip (List.range rows.length)).filter (fun e => (used + e.2) / lanes = c && !e.1.masked)).map (·.1.row)
  let stalls := (List.range (beats + 1)).map fun c => placeRows solo (if c = 0 then s.ps.rows else []) (chunk c)
  let longest := (stalls.map (·.1)).sum
  let all := (stalls.map (·.2.1)).sum
  let s := { s with ps := ⟨(key, used + rows.length) :: s.ps.lanes.filter (·.1 != key), (placeRows solo s.ps.rows (chunk 0)).2.2⟩ }
  let s := if all = 0 then s else
    let s := (s.countLake n 0x0B w.quals (some w.label) all).countLake n 0x12 w.quals (some w.label) longest
    (heldWith key).foldl (fun s k => s.modArb k fun a => { a with holdFrom := s.pw.now + 2, holdTo := s.pw.now + 2 + longest }) s
  (⟨lanes - used, beats - (if opSolo op then (rows.length - 1) / lanes else 0) + longest, all⟩, s)

/-- A request at the ponds of its lake: performed, waiting or turned away part by part. Its response is driven when every part has
completed (R216); a take access that finds its row spoilt then ends its take (R239). DESIGN CHOICE (assumption log 8). -/
def State.perform (s : State) (w : Who) (op : Op) (q : Req) (data : List Word) (w0 : Nat) (m : Mode) : State :=
  let n := lakeOf (wordRow w0)
  let parts := partsOf op q w0 data
  let (pl, s) := s.place w n op m q.joins parts.flatten
  let lat := latencyOf s w op q n w0 + pl.late
  let s := (s.claim w).inPonds w n (s.pw.now + opLatency op (s.lake n).wMode (wordPlace w0) q.words (lanesOf s w n) + pl.late)
  let here : Req := { q with addr := BitVec.ofNat 64 (32 * w0), glob := false }
  let (os, s) := partsAccess w op here w0 m w.id s 0 (if q.joins then pl.fit else 0) parts
  let done := os.filterMap id
  let s := if os.all Option.isSome then
      s.respond w (some n) op q data (firstStatus (done.map (·.1))) ((done.map (·.2.1)).flatten) s.pw.now lat (done.foldl (fun b o => max b o.2.2) 0)
    else { s with flights := s.flights ++ [⟨w.id, w, op, here, q.addr, data, os, lat, s.pw.now⟩] }
  done.foldl (fun s o => s.takeOutcome n m o.1) s

/-- A waiter placed among others by shore and then by age (R48, R224). -/
def insertWaiter (row : Nat) (e : Waiter) : List Waiter → List Waiter
  | [] => [e]
  | f :: l =>
    if shoreRank e.who row < shoreRank f.who row ∨ (shoreRank e.who row = shoreRank f.who row ∧ e.id < f.id) then e :: f :: l
    else f :: insertWaiter row e l

def orderWaiters (n : Nat) (l : List Waiter) : List Waiter := l.foldr (insertWaiter (gRow n 0)) []

/-- A woken waiter re-enters at its pond: performed, or back in its entry with its age (R224). A take access that finds its row spoilt
completes, and then ends its take (R218, R239). -/
def State.reenter (s : State) (n : Nat) (e : Waiter) : State :=
  if !(s.lake n).waiters.any (·.id = e.id) then s
  else
    match e.what with
    | .access op q m rid part rows =>
      let w0 := q.addr.toNat / 32
      let s := { s with group := [], ps := ⟨[], []⟩ }
      match partAccess s e.who op { q with joins := false } w0 m 0 rows with
      | (none, s) => s
      | (some x, s) =>
        let s := s.modLake n fun l => { l with waiters := l.waiters.filter (·.id != e.id) }
        (s.finishPart rid part x.1 x.2 0).takeOutcome n m x.1
    | _ => s

/-- A waiter's condition holds in the present state: the slate of every row it waits on meets it, or some row is STALE; no row
lies in a running maintenance range (R224, R228). -/
def wakes (s : State) (n : Nat) (e : Waiter) : Bool :=
  match e.what.mode with
  | none => false
  | some m =>
    let l := s.lake n
    !e.rows.any (fun r => l.inMaint (lRow r)) &&
    (e.rows.any (fun r => s.slate r = .stale) || e.rows.all (fun r => slateMeets l (lRow r) m (s.slate r)))

/-- Every waiter among some, whose condition the present state meets, re-enters, in the order of R48 and then of age (R224). -/
def State.wakeThose (s : State) (n : Nat) (p : Waiter → Bool) : State :=
  (orderWaiters n ((s.lake n).waiters.filter (fun e => p e && wakes s n e))).foldl (fun s e => s.reenter n e) s

/-- The waiters on a row whose condition its slate meets re-enter (R224). -/
def State.wakeRow (s : State) (row : Nat) : State := s.wakeThose (lakeOf row) (fun e => e.rows.contains row)

/-! ### The checks of a lake -/

/-- A lake is in a power state in which it serves only what waits for its wake (R343). -/
def LkState.down : LkState → Bool
  | .on | .idle => false
  | _ => true

/-- The class of an issuer holds read and write rights of a lake's share mask (R125, R126). A fabric engine's request for a local task
is of its own class, though it names this die by its global address. DEDUCED (assumption log 7). -/
def shareRights (l : Lake) (w : Who) (op : Op) : Bool × Bool :=
  if w.arrival.isSome && w.cls != .fabric then (bit l.share 10 && !opWrites op, false)
  else
    let f := match w.cls with
      | .vc => bits l.share 0 2 | .me => bits l.share 2 2 | .spring => bits l.share 4 2 | .fabric => bits l.share 6 2
      | .host => bits l.share 8 2 | .mgmt => bits l.share 12 2 | .remote => 0
    (f % 2 = 1, f / 2 = 1)

/-- The ownership check (R126). -/
def State.owns (s : State) (w : Who) (n : Nat) : Bool := w.priv || w.pr = (s.lake n).owner
def State.ownerCheck (s : State) (w : Who) (n : Nat) (op : Op) (v : View) : Bool :=
  s.owns w n ||
    let need := rightsFor op v
    let have_ := shareRights (s.lake n) w op
    (!need.1 || have_.1) && (!need.2 || have_.2)

/-- The operation is one of those a window's mode accepts (R278). -/
def modeAccepts (mode : Nat) (op : Op) : Bool :=
  match mode, op with
  | 0, .write => true
  | 1, .add a => a.ty = 2 && !a.fetch
  | 1, .addWide a => !a.fetch
  | 2, .add a => a.ty = 3 && !a.fetch && (a.rnd = 0 || a.rnd = 1)
  | 3, .add _ => true
  | 3, .max _ => true
  | 3, .min _ => true
  | 3, .swap .. => true
  | 3, .cas .. => true
  | _, _ => false

/-- A lake row lies in a window; an endpoint in its source set (R276, R277). -/
def Win.has (x : Win) (r : Nat) : Bool := x.first.toNat ≤ r && r < x.first.toNat + x.rows.toNat
def Win.admitsSrc (x : Win) (ep : Nat) : Bool := x.epFirst.toNat ≤ ep && ep ≤ x.epLast.toNat

/-- The check of an arriving write against the window table (R284): a status, whether it is logged, and the state with the window's
counts. Where the spec says any late window, the lowest numbered takes the count; the record of a late write names its window and its
address and leaves the sending endpoint out, since R319 gives a record no field for it. DEDUCED (assumption log 7). -/
def windowCheck (s : State) (w : Who) (op : Op) (q : Req) (n w0 addr : Nat) : Option Status × State :=
  let r0 := lRow (wordRow w0)
  let r1 := lRow (wordRow (w0 + q.words - 1))
  let ep := w.arrival.getD 0
  let lg (s : State) (st : Status) (d : Nat) := s.log 4 st (Config.lakePos n) w.pr d addr
  match s.wins.find? (fun e => e.2.state = .open && e.2.lake.toNat = n && e.2.has r0) with
  | some (k, x) =>
    if !x.has r1 then (some .nackBound, lg s .nackBound 0)
    else if !x.admitsSrc ep then (some .nackOwner, lg s .nackOwner 0)
    else if !modeAccepts x.mode.toNat op then (some .nackOwner, lg s .nackOwner 0)
    else if !opPermitted op q w0 then (some .nackState, lg s .nackState (opDetail op))
    else (none, (s.modWin k fun y => { y with accepted := y.accepted + 1 }).countLake n 0x30 w.quals (some w.label))
  | none =>
    match s.wins.find? (fun e => (e.2.state = .closing || e.2.state = .closed) && e.2.lake.toNat = n && e.2.has r0 && e.2.admitsSrc ep) with
    | some (k, x) =>
      let s := s.countLake n 0x31 w.quals (some w.label)
      let s := if x.late then s else s.log 5 .nackWindowClosed (Config.lakePos n) w.pr k addr
      (some .nackWindowClosed, s.modWin k fun y => { y with rejected := satAdd max32 y.rejected 1, late := true })
    | none => (some .nackOwner, lg s .nackOwner 0)

/-- The words of a request leave its lake (R39, R151, R156). -/
def leavesLake (op : Op) (q : Req) (w0 : Nat) : Bool :=
  let n := w0 / (8 * Config.rowsPerLake)
  (opOffsets op q.words).any fun o => decide ((w0 : Int) + o < n * 8 * Config.rowsPerLake) || decide ((n + 1) * 8 * Config.rowsPerLake ≤ (w0 : Int) + o)

/-- The take slot that a wide-port request names (R235). -/
def slotNamed (q : Req) : Option Nat :=
  match q.port with
  | .me k j sub => some (2 * subShore k j sub + b2n q.pos)
  | _ => none

/-- A sub-shore index exists in the present split (R57). -/
def subExists (l : Lake) (sh : Nat) : Bool :=
  let sp := if sh < 4 then l.aSplit else l.bSplit
  sh % 4 < (if sp = 0 then 1 else if sp = 1 then 2 else 4)

/-- How a request treats slates, by its view, its operation and the open take it names (R24, R147, R235). -/
def modeOf (s : State) (n : Nat) (op : Op) (q : Req) (v : View) : Mode :=
  let t := match slotNamed q with
    | some t => if ((s.lake n).take t).state = .open then some t else none
    | none => none
  match v, op, t with
  | .pc, .read, _ => .consume
  | .pc, .write, some t => .takeWrite t
  | .pc, .write, none => .produce
  | .peek, .read, some t => .takePeek t
  | .peek, .xread .., some t => .takePeek t
  | .peek, .gather _, some t => .takePeek t
  | .peek, .read, none => .peek
  | .peek, .xread .., none => .peek
  | .peek, .gather _, none => .peek
  | _, _, _ => .plain

/-- The operation is permitted in the view (R147). -/
def viewPermits (op : Op) (v : View) : Bool :=
  match op, v with
  | .read, _ => true
  | .write, _ => true
  | _, .pc => false
  | _, _ => true

/-- A take write names a row outside its take's result range (R237). -/
def outsideRes (s : State) (n : Nat) (m : Mode) (q : Req) (w0 : Nat) : Bool :=
  match m with
  | .takeWrite t =>
    let g := ((s.lake n).take t).f.res
    !(Range.has g (lRow (wordRow w0)) && Range.has g (lRow (wordRow (w0 + q.words - 1))))
  | _ => false

/-- What the checks of a lake make of a request: refused with a status, a record (class, index of the failed condition) or
none; held until the lake wakes; or admitted. -/
inductive Gate
  | refuse (st : Status) (rec : Option (Nat × Nat))
  | hold
  | go
deriving DecidableEq, Repr

/-- The checks that come before the lake's own clock is needed: reset, power state (R343, R345), and the bounds of the request (R35,
R39, R151, R237). The DETAIL of a POWER record counts the cases of R343's list (R319). DEDUCED (assumption log 6, 32). -/
def gateEarly (s : State) (w : Who) (op : Op) (q : Req) (v : View) (n w0 : Nat) : Gate :=
  let lp := s.lp n
  if (s.lake n).inReset then .refuse .absent none
  else if w.arrival.isSome && opWrites op && !Config.hasWindows s.variant then .refuse .absent none
  else if lp.state.down && w.wired then .refuse .nackLakeOff (some (6, 1))
  else if lp.state.down && w.arrival.isSome then .refuse .nackLakeOff (some (6, 2))
  else if lp.state = .draining ∨ lp.state = .entering ∨ lp.state = .off then .refuse .nackLakeOff (some (6, 3))
  else if lp.state = .ret && !lp.wakeReq then .refuse .nackLakeOff (some (6, 4))
  else if w.arrival.isSome && v != .data then .refuse .nackBound (some (4, 0))
  else if leavesLake op q w0 then .refuse .nackBound (some (4, 0))
  else if lp.state = .ret ∨ lp.state = .waking then .hold
  else .go

/-- The checks made at IS (R126, R127): the take's range, ownership, then the state of the lake and of the request. DEDUCED (assumption
log 6). -/
def gateLate (s : State) (w : Who) (op : Op) (q : Req) (v : View) (n w0 : Nat) : Gate :=
  let l := s.lake n
  let m := modeOf s n op q v
  if outsideRes s n m q w0 then .refuse .nackBound none
  else if !(w.arrival.isSome && opWrites op) && !s.ownerCheck w n op v then .refuse .nackOwner (some (4, 0))
  else if (match q.port with | .me k j sub => !subExists l (subShore k j sub) | _ => false) then .refuse .nackState (some (4, 0))
  else if !opPermitted op q w0 then .refuse .nackState (some (4, opDetail op))
  else if !viewPermits op v then .refuse .nackState (some (4, 0))
  else if (s.mte n).busy || l.convBusy then .refuse .nackState (some (4, 0))
  else match slotNamed q with
    | some t =>
      let st := (l.take t).state
      if st = .committing ∨ st = .aborting then .refuse .nackState none else .go
    | none => .go

/-- A wake from IDLE begins: the lake is ON 20 T-cycles later (R341). -/
def State.wakeIdle (s : State) (n : Nat) : State :=
  if (s.lp n).state = .idle && !(s.lp n).waking then
    (s.countLake n 0x0E).modLp n fun x => { x with waking := true, due := s.pw.now + 20 }
  else s

/-- A wake from RET or OFF begins (R344, R345): 6 µs from RET, 40 µs and initialisation from OFF; `REQ_STATE` becomes ON where
the wake's source sets it. -/
def State.wakeDown (s : State) (n : Nat) (setOn : Bool) : State :=
  let x := s.lp n
  let x := if setOn then { x with req := 0 } else x
  match x.state with
  | .ret => s.modLp n fun _ => { x with state := .waking, fromOff := false, due := 0, dueNs := s.pw.ns + 6000 }
  | .off => s.modLp n fun _ => { x with state := .waking, fromOff := true, due := 0, dueNs := s.pw.ns + 40000 }
  | _ => s.modLp n fun _ => x

def viewCode : View → Nat
  | .data => 0 | .peek => 2 | .pc => 3
def viewOf : Nat → View
  | 0 => .data | 2 => .peek | _ => .pc

/-- The classes under which wired requests hold the entries of their shore's request queue at a lake (R105). -/
def State.shoreQueue (s : State) (n kind : Nat) : List Nat :=
  (s.lp n).held.filterMap fun h => match h with
    | .access _ _ _ _ w (some _) c => if c < 4 && w.queueKind = kind then some c else none
    | _ => none

/-- A request is held until its lake's wake ends (R341, R345), which it starts where none runs. A wired request holds an entry of its
shore's request queue meanwhile; one that finds none free is held by its master, which counts as a stall by the weir (R105, R106). -/
def State.holdAt (s : State) (w : Who) (op : Op) (q : Req) (data : List Word) (v : View) (n w0 : Nat) : State :=
  let s := if (s.lp n).state = .ret then s.wakeDown n true else s.wakeIdle n
  let c := s.classOf w.label
  let kind := w.queueKind
  let enters : Bool := kind = 3 || freeEntry (s.shoreQueue n kind) (s.shares kind) c
  let s := (if enters then s else s.countLake n 0x11 w.quals (some w.label)).claim w
  s.modLp n fun x => { x with held := x.held ++ [.access op q data 0 w (some (viewCode v, w0)) (if enters then c else 4)] }

/-- The die-local address that a record of a storage request names. -/
def wordAddr (v : View) (w0 : Nat) : Nat := 32 * w0 + viewCode v * 0x20000000

/-- A request refused at its lake, with its record, and counted in `NACKS` where the lake is down (R15, R343). -/
def State.refuseAt (s : State) (w : Who) (op : Op) (q : Req) (v : View) (n w0 : Nat) (st : Status) (rec : Option (Nat × Nat)) : State :=
  let s := if st = .nackLakeOff then
      (s.countLake n 0x0D w.quals (some w.label)).modLp n fun x => { x with nacks := satAdd max32 x.nacks 1 }
    else s
  s.refuse w op q st (rec.map fun r => (r.1, Config.lakePos n, r.2)) (wordAddr v w0) (some n)
    (if w.wired then 0 else 12 + 2 * Config.hops w.pos (Config.lakePos n))

/-- A slated request that comes before its identity's backoff has expired (R90), or that finds every waiter entry in use
(R223), is turned away with RETRY; otherwise it takes its pond cycles. One whose rows are all masked has no slate access (R166, R217). -/
def State.startAccess (s : State) (w : Who) (op : Op) (q : Req) (data : List Word) (n w0 : Nat) (m : Mode) : State :=
  let pt : RetryPt := .waiters (Fin.ofNat 24 n)
  let lat := latencyOf s w op q n w0
  if m = .plain || (partsOf op q w0 data).flatten.all (·.masked) then s.perform w op q data w0 m
  else match s.early pt w.ident with
    | some k => (s.countLake n 0x1B w.quals (some w.label)).respond w (some n) op q data .retry [] s.pw.now lat k
    | none =>
      if (s.lake n).waiters.length ≥ 64 then
        let (c, s) := s.turnAway pt w.ident
        (s.countLake n 0x1A w.quals (some w.label)).respond w (some n) op q data .retry [] s.pw.now lat c
      else s.perform w op q data w0 m

/-- Take peeks and take writes of a position that have not completed, its waiting accesses and those held for the lake's wake (R240). -/
def State.takePending (s : State) (n t : Nat) : Nat :=
  let waiting := ((s.lake n).waiters.filterMap fun e => match e.what with
    | .access _ _ m rid _ _ => if m.takeSlot = some t then some rid else none
    | _ => none).eraseDups
  let held := countTrue (fun h => match h with
    | .access op q _ _ _ (some (v, _)) _ => (modeOf s n op q (viewOf v)).takeSlot = some t
    | _ => false) (s.lp n).held
  waiting.length + held

/-- A request that has reached its lake, or that proceeds there after a wake (`woken`). DEDUCED (assumption log 6). -/
def State.atLake (s : State) (w : Who) (op : Op) (q : Req) (data : List Word) (v : View) (w0 : Nat) (woken : Bool) : State :=
  let n := lakeOf (wordRow w0)
  match gateEarly s w op q v n w0 with
  | .refuse st rec => s.refuseAt w op q v n w0 st rec
  | .hold => s.holdAt w op q data v n w0
  | .go =>
    let (verdict, s) :=
      if w.arrival.isSome && opWrites op && !woken then windowCheck s w op q n w0 (wordAddr v w0) else (none, s)
    match verdict with
    | some st => s.refuseAt w op q v n w0 st none
    | none =>
      if (s.lp n).state = .idle then s.holdAt w op q data v n w0
      else match gateLate s w op q v n w0 with
        | .refuse st rec => s.refuseAt w op q v n w0 st rec
        | .hold => s
        | .go => s.startAccess w op q data n w0 (modeOf s n op q v)

/-- A held request proceeds (R341, R345). -/
def State.proceed (s : State) (h : Held) : State :=
  match h with
  | .access op q data _ w (some (v, w0)) _ => s.atLake w op { q with joins := false } data (viewOf v) w0 true
  | _ => s

end Sys2Proof.Machine
end

