-- ==== Sys2Proof/Machine/Descriptors.lean ====
section
/-!
DEFINITION. Descriptors of the Springs: the fields of the format (R177), what a kind permits (R178), the check (R180), the
span and the pieces of a transfer (R179, R181, R182), and the start conditions (R181, R186).
-/
namespace Sys2Proof.Machine

/-! ### Fields (R177) -/

def dword (w : List (BitVec 64)) (i : Nat) : BitVec 64 := w.getD i 0
def dKind (w : List (BitVec 64)) : Nat := bits (dword w 0) 0 4
def dShared (w : List (BitVec 64)) : Bool := bit (dword w 0) 4
def dSlate (w : List (BitVec 64)) : Bool := bit (dword w 0) 5
def dAfterAll (w : List (BitVec 64)) : Bool := bit (dword w 0) 6
def dSigDone (w : List (BitVec 64)) : Bool := bit (dword w 0) 7
def dScope (w : List (BitVec 64)) : Nat := bits (dword w 0) 8 2
def dCue (w : List (BitVec 64)) : Nat := bits (dword w 0) 16 12
def dTag (w : List (BitVec 64)) : Nat := bits (dword w 0) 32 32
def dSrc (w : List (BitVec 64)) : BitVec 64 := dword w 1
def dDst (w : List (BitVec 64)) : BitVec 64 := dword w 2
def dLen (w : List (BitVec 64)) : Nat := bits (dword w 3) 0 32
def dCount (w : List (BitVec 64)) : Nat := bits (dword w 3) 32 32
def dSrcStride (w : List (BitVec 64)) : Int := (dword w 4).toInt
def dDstStride (w : List (BitVec 64)) : Int := (dword w 5).toInt
def dArg (w : List (BitVec 64)) : BitVec 64 := dword w 6
def dN (w : List (BitVec 64)) : Nat := if dKind w = 9 then bits (dArg w) 16 16 else bits (dArg w) 0 16
def dCond (w : List (BitVec 64)) : Nat := bits (dArg w) 0 2
def dPushOp (w : List (BitVec 64)) : Nat := bits (dArg w) 0 4

/-- The operation of a PUSH's requests (R178). -/
def pushOp (w : List (BitVec 64)) : Op :=
  let a : Atom := ⟨Fin.ofNat 4 (bits (dArg w) 4 2), Fin.ofNat 4 (bits (dArg w) 6 2), false⟩
  if dPushOp w = 4 then .add a else if dPushOp w = 5 then .addWide a else .write

/-- Bytes that block `k` touches at its destination: twice the operand bytes for ADD_WIDE (R178). -/
def dDstLen (w : List (BitVec 64)) : Nat := if dKind w = 4 && dPushOp w = 5 then 2 * dLen w else dLen w

/-- The address of block `k` of a strided series. -/
def blockAt (base : BitVec 64) (stride : Int) (k : Nat) : BitVec 64 := base + BitVec.ofInt 64 (stride * k)

/-! ### Kinds and the check (R178, R180) -/

def kMoves (k : Nat) : Bool := 1 ≤ k && k ≤ 6
def kUsesSrc (k : Nat) : Bool := kMoves k
def kUsesDst (w : List (BitVec 64)) : Bool := kMoves (dKind w) || (dKind w = 9 && (dCond w = 1 || dCond w = 2))

/-- A flag or field that the kind does not permit is set, or a value is out of its range: NACK_STATE (R178, R180). -/
def badForm (w : List (BitVec 64)) : Bool :=
  let k := dKind w
  let mv := kMoves k
  let usesCue := dSigDone w || k = 7 || k = 8
  let widePush := k = 4 && dPushOp w = 5
  9 < k || bits (dword w 0) 10 6 != 0 || bits (dword w 0) 28 4 != 0 || dword w 7 != 0
  || (dShared w && k != 1) || (dSlate w && !(k = 1 || k = 3 || k = 5 || k = 6)) || (dAfterAll w && !mv) || (dSigDone w && !mv)
  || (dScope w = 3) || (!usesCue && dScope w != 0) || (!(usesCue || (k = 9 && dCond w = 0)) && dCue w != 0)
  || (!mv && (dSrc w != 0 || dword w 3 != 0 || dword w 4 != 0 || dword w 5 != 0)) || (!kUsesDst w && dDst w != 0)
  || (mv && (dLen w = 0 || dLen w % 32 != 0 || 0x00C00000 < dLen w || dCount w = 0 || 65536 < dCount w
      || (dword w 4).toNat % 32 != 0 || (dword w 5).toNat % 32 != 0))
  || (k = 6 && dword w 4 != 0)
  || ((k ≤ 3 || k = 5 || k = 6) && dArg w != 0)
  || (k = 4 && (bits (dArg w) 8 56 != 0 || !(dPushOp w = 1 || dPushOp w = 4 || dPushOp w = 5)
      || (dPushOp w = 1 && bits (dArg w) 4 4 != 0) || (dPushOp w = 5 && bits (dArg w) 4 2 != 3)
      || (bits (dArg w) 6 2 != 0 && !(dPushOp w = 4 && bits (dArg w) 4 2 = 3)) || (1 < bits (dArg w) 6 2)))
  || (widePush && ((dDst w).toNat % 64 != 0 || (dword w 5).toNat % 64 != 0))
  || ((k = 7 || k = 8) && (bits (dArg w) 16 48 != 0 || dN w = 0))
  || (k = 9 && (bits (dArg w) 2 14 != 0 || bits (dArg w) 32 32 != 0 || (dCond w = 0 && dN w = 0) || (dCond w != 0 && dN w != 0)))

/-- What a kind asks of an address: in the Spring's own lake; in any lake of this die; in the stacks of this die or its
sibling; what a PULL may read; anything in space 0x0. -/
inductive Place
  | own | die | stack | far | space0
deriving DecidableEq, Repr

def srcPlace (k : Nat) : Option Place :=
  match k with
  | 1 => some .stack | 2 => some .own | 3 => some .far | 4 => some .own | 5 => some .die | _ => none
def dstPlace (w : List (BitVec 64)) : Option Place :=
  match dKind w with
  | 1 => some .own | 2 => some .stack | 3 => some .own | 4 => some .space0 | 5 => some .own | 6 => some .own
  | 9 => if kUsesDst w then some .own else none
  | _ => none

/-- Lake `n` holds `len` bytes at data-view address `a`. -/
def inLake (n a len : Nat) : Bool := n * Config.lakeBytes ≤ a && a + len ≤ (n + 1) * Config.lakeBytes

/-- A block of bytes touches an address that R23 decodes as ABSENT. Such addresses lie between any two regions, and after the present lakes
of each. -/
def blockAbsent (v : Variant) (off len : Nat) : Bool :=
  decodeAddr v off = .absent || decodeAddr v (off + (len - 1)) = .absent || off / 0x20000000 != (off + (len - 1)) / 0x20000000

/-- A block at a global address fails the check of its place: ABSENT, NACK_BOUND, or neither (R34, R134, R178, R180). A COPY's read in the
slated-produce/consume region is a consume and needs both rights (R133, R134). DEDUCED (assumption log 13). -/
def placeFault (s : State) (n : Nat) (slot : Slot) (p : Place) (rd wr : Bool) (a : BitVec 64) (len : Nat) : Option Status :=
  let sp := bits a 60 4
  let ep := bits a 44 16
  let off := bits a 0 44
  let own := s.tm.epId.toNat
  let seg := !slot.taskBound || slot.segs.any (fun g => g.covers off len rd (wr || (p = .die && off / 0x20000000 = 3)))
  if 1 < sp || !s.tm.epValid then some .absent
  else if p = .stack then (if sp = 1 && (ep = own || ep = own ^^^ 1) then none else some .nackBound)
  else if p = .far then
    (if (sp = 0 && ep != own) || (sp = 1 && ep != own && ep != own ^^^ 1) then none else some .nackBound)
  else if sp != 0 then some .nackBound
  else if ep != own then (if p = .space0 then none else some .nackBound)
  else if blockAbsent s.variant off len then some .absent
  else match decodeAddr s.variant off with
    | .absent => some .absent
    | .control _ => if p = .space0 && seg then none else some .nackBound
    | .word v _ =>
      if !seg then some .nackBound
      else match p with
        | .own => if v = .data && inLake n off len then none else some .nackBound
        | _ => none

/-- The first block of a series that fails its place with a status, by its global address. -/
def seriesFault (s : State) (n : Nat) (slot : Slot) (p : Place) (rd wr : Bool) (base : BitVec 64) (stride : Int) (count len : Nat)
    (st : Status) : Option (BitVec 64) :=
  ((List.range count).map (blockAt base stride)).find? (fun a => placeFault s n slot p rd wr a len = some st)

/-- The check of a descriptor (R180): the first status in the order of R15 among its faults, with the first address that
failed under it, or zero. The blocks of the source come before those of the destination, each in block order, and a block is named by its
first byte. DESIGN CHOICE (assumption log 13). -/
def descCheck (s : State) (n : Nat) (slot : Slot) (w : List (BitVec 64)) : Option (Status × BitVec 64) :=
  let k := dKind w
  let src (st : Status) := match srcPlace k with
    | some p => seriesFault s n slot p true false (dSrc w) (dSrcStride w) (dCount w) (dLen w) st
    | none => none
  let dst (st : Status) := match dstPlace w with
    | some p =>
      if k = 9 then seriesFault s n slot p true false (BitVec.ofNat 64 ((dDst w).toNat / 256 * 256)) 0 1 256 st
      else seriesFault s n slot p (k = 4 && dPushOp w != 1) true (dDst w) (dDstStride w) (dCount w) (dDstLen w) st
    | none => none
  match (src .absent).orElse (fun _ => dst .absent) with
  | some a => some (.absent, a)
  | none =>
    match (src .nackBound).orElse (fun _ => dst .nackBound) with
    | some a => some (.nackBound, a)
    | none => if badForm w then some (.nackState, 0) else none

/-! ### Pieces and spans -/

/-- The descriptor is carried by the trickle path (R179). -/
def Desc.trickle (d : Desc) : Bool := kMoves (dKind d.w) && decide (dLen d.w * dCount d.w ≤ 256)

/-- One request of a transfer: its number, the own-lake word it starts at, its words there, the address of its other side and
the words there. -/
structure Piece where
  i      : Nat
  own    : Nat
  n      : Nat
  other  : BitVec 64
  nOther : Nat
deriving DecidableEq, Repr

/-- A run of `len` bytes cut where either side crosses a row; `fuel` bounds the cuts. `ra` bytes of the other side go with each
byte of the own side over `rb` (2 over 1 for ADD_WIDE, else 1 over 1). -/
def cutRun (wide : Bool) : Nat → Nat → BitVec 64 → Nat → List (Nat × Nat × BitVec 64 × Nat)
  | 0, _, _, _ => []
  | fuel + 1, own, other, words =>
    if words = 0 then []
    else
      let room := 8 - own % 8
      let oroom := if wide then (8 - other.toNat / 32 % 8 + 1) / 2 else 8 - other.toNat / 32 % 8
      let k := min words (min room (max 1 oroom))
      let ok := if wide then 2 * k else k
      (own, k, other, ok) :: cutRun wide fuel (own + k) (other + BitVec.ofNat 64 (32 * ok)) (words - k)

def numbered : Nat → List (Nat × Nat × BitVec 64 × Nat) → List Piece
  | _, [] => []
  | i, (a, k, o, m) :: l => ⟨i, a, k, o, m⟩ :: numbered (i + 1) l

/-- The own-lake side of a kind is its source: STORE and PUSH read their lake, the others write it. -/
def ownIsSrc (k : Nat) : Bool := k = 2 || k = 4

/-- The pieces of a transfer in block order and address order (R177, R182). -/
def piecesOf (w : List (BitVec 64)) : List Piece :=
  let k := dKind w
  let wide := k = 4 && dPushOp w = 5
  let runs := (List.range (dCount w)).map fun b =>
    let so := blockAt (dSrc w) (dSrcStride w) b
    let de := blockAt (dDst w) (dDstStride w) b
    let own := if ownIsSrc k then so else de
    let other := if ownIsSrc k then de else so
    cutRun wide (dLen w / 32) (bits own 0 44 / 32) (if k = 6 then 0 else other) (dLen w / 32)
  if kMoves k then numbered 0 runs.flatten else []

/-- The smallest range that holds two ranges of rows, either of which may be absent. -/
def hull : Option (Nat × Nat) → Option (Nat × Nat) → Option (Nat × Nat)
  | some a, some b => some (min a.1 b.1, max a.2 b.2)
  | a, none => a
  | none, b => b

/-- The rows of lake `n`, numbered over the die, that a block at a global address touches, through any view or, with `data`, the data view
alone (R181). -/
def State.blockRows (s : State) (n : Nat) (data : Bool) (len : Nat) (a : BitVec 64) : Option (Nat × Nat) :=
  let r := bits a 29 15
  let lo := max (bits a 0 29) (n * Config.lakeBytes)
  let hi := min (bits a 0 29 + len) ((n + 1) * Config.lakeBytes)
  if bits a 44 20 = s.tm.epId.toNat && (r = 0 || (!data && (r = 2 || r = 3))) && lo < hi then some (lo / 256, (hi - 1) / 256) else none

/-- The rows of lake `n` between the lowest and the highest that any block of a series touches (R181). -/
def State.seriesRows (s : State) (n : Nat) (data : Bool) (base : BitVec 64) (stride : Int) (count len : Nat) : Option (Nat × Nat) :=
  ((List.range count).map (blockAt base stride)).foldl (fun h a => hull h (s.blockRows n data len a)) none

/-- The rows of the Spring's own lake that a descriptor writes, from the lowest to the highest (R181). -/
def State.spanWritten (s : State) (n : Nat) (w : List (BitVec 64)) : Option (Nat × Nat) :=
  if kMoves (dKind w) && dKind w != 2 then s.seriesRows n true (dDst w) (dDstStride w) (dCount w) (dDstLen w) else none

/-- The span of a descriptor: from the lowest to the highest row of the Spring's own lake that any of its blocks touches (R181). -/
def State.span (s : State) (n : Nat) (w : List (BitVec 64)) : Option (Nat × Nat) :=
  hull (s.spanWritten n w) (match srcPlace (dKind w) with
    | some .own => s.seriesRows n false (dSrc w) (dSrcStride w) (dCount w) (dLen w)
    | some .die => s.seriesRows n false (dSrc w) (dSrcStride w) (dCount w) (dLen w)
    | _ => none)

def overlaps (a b : Nat × Nat) : Bool := a.1 ≤ b.2 && b.1 ≤ a.2

/-- A span holds a row; it meets a range of rows. -/
def spanHas (p : Option (Nat × Nat)) (row : Nat) : Bool := match p with | some p => p.1 ≤ row && row ≤ p.2 | none => false
def spanMeets (p : Option (Nat × Nat)) (q : Option (Nat × Nat)) : Bool := match p, q with | some p, some q => overlaps p q | _, _ => false

/-- A range of rows of a lake meets the span of an in-flight descriptor with `SLATE_DST` (R228, R236). -/
def State.meetsSpan (s : State) (n first count : Nat) : Bool :=
  count != 0 && (s.spring n).descs.any fun d =>
    d.stage = .flight && dSlate d.w && spanMeets (s.span n d.w) (some (gRow n first, gRow n (first + count - 1)))

/-! ### Start conditions (R181, R186) -/

/-- The sequence order of R173: `s` is at or after `a`. -/
def seqAtOrAfter (s a : Nat) : Bool := (s + 2 ^ 32 - a % 2 ^ 32) % 2 ^ 32 < 2 ^ 31

/-- How many of a slot's descriptors an earlier cut has cancelled (R187). -/
def Slot.cancelled (y : Slot) : Nat :=
  match y.cutAt with
  | some a => ((List.range 4).filter fun i => seqAtOrAfter ((4 * y.pos + i) % 2 ^ 32) a).length
  | none => 0

/-- The descriptor that starts next: the first decoded one in sequence order (R181). -/
def Spring.nextDesc (x : Spring) : Option Desc := x.descs.find? (·.stage = .decoded)

/-- Descriptors before one in sequence order. -/
def Spring.earlier (x : Spring) (d : Desc) : List Desc := x.descs.takeWhile (·.seq != d.seq)
def Spring.inFlight (x : Spring) : List Desc := x.descs.filter (·.stage = .flight)

/-- A MARK or WAIT_CUE in flight that is not met (R181). -/
def Desc.holding (d : Desc) : Bool := d.stage = .flight && (dKind d.w = 8 || dKind d.w = 9) && !d.met

/-- A principal whose fault waits for its abort: its descriptors do not start (R189, R190, R192). -/
def State.stopped (s : State) (p : Principal) : Bool :=
  s.tm.abQueue.any (·.pr = p) || (List.range Config.lakes).any (fun n => (s.spring n).deferred.any (·.pr = p))

/-- Every start condition of R181 but the count in flight. -/
def startsBut (s : State) (n : Nat) (d : Desc) : Bool :=
  let x := s.spring n
  let before := x.earlier d
  !d.failed && !before.any (·.holding)
  && (!(dAfterAll d.w || dKind d.w = 7) || before.all (·.stage = .ended))
  && !(x.inFlight.any fun e => (s.spanWritten n e.w).isSome && spanMeets (s.span n e.w) (s.span n d.w))
  && !x.pause && s.tm.abQueue.length < 64 && !s.stopped d.slot.pr

/-- The descriptor starts (R181); a NOP never counts towards D. -/
def starts (s : State) (n : Nat) (d : Desc) : Bool :=
  startsBut s n d && (dKind d.w = 0 || (s.spring n).inFlight.length < (s.spring n).depth)

/-- In this T-cycle a descriptor is depth-limited (R186). -/
def depthLimited (s : State) (n : Nat) : Bool :=
  match (s.spring n).nextDesc with
  | some d => startsBut s n d && dKind d.w != 0 && (s.spring n).depth ≤ (s.spring n).inFlight.length
  | none => false

/-- What a waiting request on some rows of a lake waits for, by the codes of its stall event (R193, R387): the basin, the stacks, another
die or lake, or another producer. -/
def State.awaited (s : State) (n : Nat) (rows : List Nat) : Nat :=
  let ds := (s.spring n).inFlight.filter fun d => rows.any (spanHas (s.span n d.w))
  if ds.any (fun d => dKind d.w = 1 && dShared d.w) then 0x13
  else if ds.any (fun d => dKind d.w = 1) then 0x14
  else if ds.any (fun d => dKind d.w = 3 || dKind d.w = 5) then 0x15
  else 0x16

/-- The identity holds an unexpired backoff count from the lake's waiter table (R193). -/
def State.backsOff (s : State) (n : Nat) (i : Ident) : Bool := (s.early (.waiters (Fin.ofNat 24 n)) i).isSome

/-- In this T-cycle a consumer in the lake is stalled under awaiting stack, basin or remote (R186, R193): a waiting slated request, the
Spring's own landing writes among them. -/
def consumerStalled (s : State) (n : Nat) : Bool :=
  (s.lake n).waiters.any fun e =>
    (match e.what with | .cue .. => false | _ => true) && !s.backsOff n e.who.ident && s.awaited n e.rows != 0x16

end Sys2Proof.Machine
end

