-- ==== Sys2Proof/Machine/Time.lean ====
section
/-!
DEFINITION. Time: what passes with each T-cycle (R330, R331): the timestamp, the counters that watch conditions (R383, R387),
the weir's tokens (R118) and the depth flags of descriptors in flight (R186).
-/
namespace Sys2Proof.Machine

/-- The T-cycles `[now, now + dt)` in which a packet occupies the link that leaves position `p` (R387). -/
def linkCycles (now dt p : Nat) (t : Transit) : Nat :=
  let d := if t.ccw then Config.cwDist p t.k.src else Config.cwDist t.k.src p
  let x := t.at_ + 3 + d
  if d < Config.hops t.k.src t.k.dst ∧ now ≤ x ∧ x < now + dt then 1 else 0

/-- An occurrence in the present T-cycle of a condition or level (R387): the qualifiers and the label it carries, how many, and for how many
of the T-cycles that pass. -/
structure LevelOcc where
  quals : List Nat := []
  label : Option Nat := none
  n     : Nat := 1
  dt    : Nat

/-- The consumers of a lake that stall under a cause of R193: those with an unexpired backoff (0x10), and those whose waiting requests wait
for what the spans of the descriptors in flight bring (0x13 to 0x16). A consumer counts once, under the first cause that applies, with the
label of its oldest waiting request. DESIGN CHOICE (assumption log 14). -/
def stalls (s : State) (n ev dt : Nat) : List LevelOcc :=
  let pt : RetryPt := .waiters (Fin.ofNat 24 n)
  let back := (s.backoff.filter fun e => e.1.1 = pt && s.pw.now < e.2.2).map fun e => (identQuals e.1.2, e.2.2)
  if ev = 0x10 then
    ((back.map (·.1)).eraseDups).map fun q =>
      ⟨q, none, 1, min dt (((back.filter (·.1 = q)).map (·.2)).foldl max 0 - s.pw.now)⟩
  else
    let ws := ((s.lake n).waiters.filter fun e => (match e.what with | .cue .. => false | _ => true)).map fun e =>
      (e.who.quals, e.who.label, s.awaited n e.rows)
    ((ws.map (·.1)).eraseDups).filterMap fun q =>
      let mine := ws.filter (·.1 = q)
      if back.any (·.1 = q) || (mine.map (·.2.2)).foldl min 0x16 != ev then none
      else some ⟨q, mine.head?.map (·.2.1), 1, dt⟩

/-- The occurrences in the T-cycles that pass of an event that is a condition or a level (R387); other events have none here. DESIGN CHOICE
(assumption log 14). -/
def levelOccs (s : State) (set : CSet) (i ev dt : Nat) : List LevelOcc :=
  let always (b : Bool) : List LevelOcc := if b then [{ dt := dt }] else []
  let stops (f : Stop → Bool) : List LevelOcc := s.stops.filterMap fun e => if f e.2 then some ⟨[e.1], none, 1, dt⟩ else none
  match set, ev with
  | _, 0x01 => always true
  | .lake, 0x02 => always ((s.lp i).state = .on)
  | .lake, 0x03 => always ((s.lp i).state = .idle)
  | .lake, 0x04 => if (s.mte i).busy then [⟨[], none, 96, dt⟩] else []
  | .lake, 0x10 => stalls s i ev dt
  | .lake, 0x13 => stalls s i ev dt
  | .lake, 0x14 => stalls s i ev dt
  | .lake, 0x15 => stalls s i ev dt
  | .lake, 0x16 => stalls s i ev dt
  | .lake, 0x19 => (s.lake i).waiters.map fun e => ⟨e.who.quals, some e.who.label, 1, dt⟩
  | .lake, 0x2D => [⟨[], none, (s.lake i).steps.length, dt⟩]
  | .spring, 0x44 => ((s.spring i).descs.filter (·.stage = .flight)).map fun d => ⟨[if d.trickle then 2 else 1], some d.slot.label, 1, dt⟩
  | .spring, 0x45 => always (depthLimited s i)
  | .spring, 0x46 => always ((s.spring i).descs.any (·.holding))
  | .canal, 0x63 => stops fun x => x.held.any fun t => t.k.src != t.k.dst
  | .canal, 0x64 => stops fun x => x.starvCw || x.starvCcw
  | .basin, 0x78 => [⟨[], none, s.basin.fills.length, dt⟩]
  | _, _ => []

/-- What one enabled counter takes of its condition over the next `dt` T-cycles. -/
def levelStep (s : State) (dt k : Nat) (c : Counter) : Counter :=
  match cntSetOf k with
  | none => c
  | some (set, i) =>
    if !bit c.cfg 9 then c
    else if set = .canal && bits c.cfg 0 8 = 0x60 then
      c.takeValue s.cnt.busy s.pw.now 1
        ((s.ring.filter (fun t => bits c.cfg 30 2 = 2 || bits c.cfg 30 2 = b2n t.ccw)).foldl
          (fun a t => a + linkCycles s.pw.now dt (bits c.cfg 24 6) t) 0)
    else
      let ls := (levelOccs s set i (bits c.cfg 0 8) dt).filter fun o =>
        c.admits { set := set, inst := i, ev := bits c.cfg 0 8, quals := o.quals, label := o.label }
      match ls.all (·.dt = dt) with
      | true => c.takeValue s.cnt.busy s.pw.now dt (ls.map (·.n)).sum
      | false => c.takeValue s.cnt.busy s.pw.now 1 (ls.map fun o => o.n * o.dt).sum

/-- Every enabled counter takes the values of its conditions over the next `dt` T-cycles. -/
def State.countLevels (s : State) (dt : Nat) : State :=
  if s.cnt.halt || dt = 0 then s
  else { s with cnt := { s.cnt with ctrs := mapTab cntDefault (levelStep s dt) s.cnt.ctrs } }

/-- Tokens of every present lake after `dt` T-cycles: `ALLOW` more in each, at most 96, while a cap is set (R118). While none is set the count
stands as it was, and a cap set later goes on from it. DESIGN CHOICE (assumption log 2). -/
def State.refill (s : State) (dt : Nat) : State :=
  if s.weir.cap = 0 then s
  else { s with lakes := mapTab (fun _ => Lake.reset) (fun _ l => { l with tokens := min 96 (l.tokens + s.weir.allow * dt) }) s.lakes }

/-- Descriptors in flight take the flags of the T-cycles that pass (R186). -/
def State.flagDepth (s : State) : State :=
  { s with springs := mapTab (fun _ => Spring.reset) (fun n x =>
      if depthLimited s n then
        { x with descs := x.descs.map fun d => if d.stage = .flight then
            { d with depthLim := true, stalled := d.stalled || consumerStalled s n } else d }
      else x) s.springs }

/-- `dt` T-cycles pass (R330, R331): T-cycles, root cycles and nanoseconds advance together at the divider in force. -/
def State.elapse (s : State) (dt : Nat) : State :=
  let s := ((s.countLevels dt).refill dt).flagDepth
  let root := s.pw.frac + dt * Config.divider s.pw.cur
  { s with pw := { s.pw with now := s.pw.now + dt, ns := s.pw.ns + root / 8, frac := root % 8 } }

/-- Time passes until T-cycle `t`, where it has not been reached. DESIGN CHOICE (assumption log 2). -/
def State.reach (s : State) (t : Nat) : State := if t ≤ s.pw.now then s else s.elapse (t - s.pw.now)

/-- T-cycles that reach `dns` more nanoseconds. -/
def tCyclesFor (cur frac dns : Nat) : Nat := (8 * dns - frac + Config.divider cur - 1) / Config.divider cur

/-- Time passes until the timestamp is at least `t`. While the root clock is absent, or in DEEP and on the way out of it, the timestamp
alone advances, by 10 per AON cycle (R331). DESIGN CHOICE (assumption log 2). -/
def State.reachNs (s : State) (t : Nat) : State :=
  if t ≤ s.pw.ns then s
  else if s.pw.refOk && s.pw.deep < 2 then s.elapse (tCyclesFor s.pw.cur s.pw.frac (t - s.pw.ns))
  else { s with pw := { s.pw with ns := s.pw.ns + (t - s.pw.ns + 9) / 10 * 10 } }

/-- A T-cycle passes on an empty queue; without a root clock, an AON cycle of 10 ns does (R330, R331). DESIGN CHOICE (assumption log 3). -/
def idle (s : State) : State :=
  if s.pw.refOk && s.pw.deep < 2 then s.elapse 1 else { s with pw := { s.pw with ns := s.pw.ns + 10 } }

end Sys2Proof.Machine
end

