-- ==== Sys2Proof/Machine/Aborts.lean ====
section
/-!
DEFINITION. Range steps (R220 to R222), the faults of the Springs (R189) and the task abort (R190 to R192).
-/
namespace Sys2Proof.Machine

/-! ### Range steps (R220 to R222) -/

/-- The range table of a lake has no free entry (R222). -/
def State.tableFull (s : State) (n : Nat) : Bool := 128 ≤ (s.lake n).steps.length

/-- A range step in its step cycle: rows among `range` that `mine` picks and that are RESERVED take the target, every other row of
`range` is counted in `SKIPPED` (R220), and FULL rows among `release` become EMPTY (R238). A step wakes an IDLE lake (R341). DEDUCED
(assumption log 13). -/
def State.rangeStep (s : State) (n : Nat) (range : List Nat) (mine : Nat → Bool) (target : Slate) (release : List Nat) : State :=
  let hit := range.filter (fun r => mine r && s.slate r = .reserved)
  let sets := hit.map (·, target) ++ (release.filter (fun r => s.slate r = .full)).map (·, Slate.empty)
  ((s.wakeIdle n).countLake n 0x2C).modLake n fun l =>
    { l with skipped := satAdd max32 l.skipped (range.length - hit.length)
             steps := if sets = [] then l.steps else l.steps ++ [⟨sets⟩] }

/-- Rows that a step has turned FULL are seen by the Spring of the lake as command slots, under the identity of the step's
reserver (R175). -/
def State.slotsFull (s : State) (rows : List Nat) (pr : Principal) (priv : Bool) (label : Nat) (segs : List Seg) : State :=
  rows.foldl (fun s r => if s.slate r = .full then s.slotFull r pr priv label segs else s) s

/-- Lake rows of a range, numbered over the die. -/
def rangeRows (g : Range) (n : Nat) : List Nat := (List.range g.count.toNat).map (fun i => gRow n (g.first.toNat + i))

/-! ### The descriptors of a Spring -/

/-- Count an event of a Spring; the trickle path and the bulk engine are its qualifiers (R384). -/
def State.countSpring (s : State) (n ev k : Nat) (label : Option Nat) (quals : List Nat := []) : State :=
  s.count { set := .spring, inst := n, ev := ev, quals := quals, label := label, n := k }

def Desc.quals (d : Desc) : List Nat := [if d.trickle then 2 else 1]

def State.desc (s : State) (n seq : Nat) : Option Desc := (s.spring n).descs.find? (·.seq = seq)
def State.modDesc (s : State) (n seq : Nat) (f : Desc → Desc) : State :=
  s.modSpring n fun x => { x with descs := x.descs.map fun d => if d.seq = seq then f d else d }

/-- A landing write of the descriptor waits in a waiter entry (R183). -/
def State.landWaits (s : State) (n seq : Nat) : Bool :=
  (s.lake n).waiters.any fun e => match e.what with | .land q _ => q = seq | _ => false

/-- Every request that the descriptor has issued has ended (R187, R190). -/
def State.quiet (s : State) (n : Nat) (d : Desc) : Bool :=
  d.asked.all d.returned.contains && !s.landWaits n d.seq

/-- The rows of the span of a descriptor of lake `n` that lands rows (R181, R215). -/
def State.spanRows (s : State) (n : Nat) (d : Desc) : List Nat :=
  match s.span n d.w with
  | some (a, b) => if dSlate d.w then (List.range (b + 1 - a)).map (a + ·) else []
  | none => []

/-- The step that ends what a descriptor has landed (R184, R187, R190): rows it landed that are RESERVED by it take the target. DEDUCED
(assumption log 13). -/
def State.descStep (s : State) (n : Nat) (ds : List Desc) (target : Slate) : State :=
  let ds := ds.filter (fun d => dSlate d.w)
  if ds = [] then s
  else s.rangeStep n ((ds.map (s.spanRows n)).flatten)
    (fun r => ds.any (·.landed.contains r) && ((s.lake n).resTake (lRow r)).isNone) target []

/-- The rows that the completion step of a descriptor turns FULL (R184). -/
def State.stepRows (s : State) (n : Nat) (d : Desc) : List Nat :=
  if dSlate d.w then d.landed.filter fun r => (s.spanRows n d).contains r && s.slate r = .reserved && ((s.lake n).resTake (lRow r)).isNone
  else []

/-! ### Faults and task abort (R189 to R192) -/

/-- A follow-on status is counted (R190). -/
def State.followOn (s : State) (n : Nat) (label : Option Nat) : State :=
  (s.countSpring n 0x4F 1 label).modSpring n fun x => { x with follow := satAdd max32 x.follow 1 }

/-- Read data dropped by a cut or an abort is counted (R187, R190). -/
def State.discard (s : State) (n bytes : Nat) (label : Option Nat) : State :=
  (s.countSpring n 0x4D bytes label).modSpring n fun x => { x with discard := (x.discard + bytes) % 2 ^ 64 }

/-- Bytes of read data that have come back for a descriptor and have not been landed; a FILL has none. -/
def unlanded (d : Desc) (l : List (Nat × List Word)) : Nat := if dKind d.w = 6 then 0 else (l.map (fun e => 32 * e.2.length)).sum

/-- Removal of a principal's descriptors of one Spring that have not completed, those of FULL slots not yet read included (R174,
R190). A descriptor that has issued nothing, or is held, ends at once; the others end with the abort. -/
def Spring.remove (x : Spring) (p : Principal) : Spring :=
  { x with
    slots := x.slots.map fun y => if y.pr = p then { y with read := true } else y
    descs := x.descs.map fun d =>
      if d.slot.pr = p && d.stage != .ended then
        { d with removed := true, ready := [],
                 stage := if d.stage = .decoded || !kMoves (dKind d.w) then .ended else d.stage }
      else d }

/-- How many descriptors of a principal a removal removes. -/
def Spring.removes (x : Spring) (p : Principal) : Nat :=
  countTrue (fun d => d.slot.pr = p && d.stage != .ended) x.descs +
    ((x.slots.filter (fun y => y.pr = p && !y.read)).map (fun y => 4 - y.cancelled)).sum

/-- The waiter is a landing write of a Spring. -/
def Waiter.lands (e : Waiter) : Bool := match e.what with | .land .. => true | _ => false

/-- What an abort does in one lake (R190, R225): descriptors removed, takes ended with cause 6, waiters released with
NACK_STATE; a landing write so released is a follow-on. -/
def State.abortLake (p : Principal) (s : State) (n : Nat) : State :=
  let k := (s.spring n).removes p
  let dropped := ((s.spring n).descs.filter (fun d => d.slot.pr = p && d.stage != .ended)).foldl
    (fun a d => a + unlanded d d.ready) 0
  let s := ((s.countSpring n 0x4C k none).modSpring n (·.remove p)).discard n dropped none
  let lands := countTrue (fun e => e.lands && e.who.pr = p) (s.lake n).waiters
  let s := (List.range lands).foldl (fun s _ => s.followOn n none) s
  let s := (List.range 16).foldl (fun s t => if ((s.lake n).take t).pr = p then s.endTake n t 6 else s) s
  s.releaseWaiters n (fun e => e.who.pr = p) .nackState

/-- The abort of a principal starts (R190). -/
def State.startAbort (s : State) (f : Faulted) (byFault : Bool) : State :=
  let s := { s with tm := { s.tm with abBusy := true, abFault := byFault, abCur := f.pr, abFirst := some f, abAt := s.pw.now } }
  (List.range Config.lakes).foldl (State.abortLake f.pr) s

/-- A fault is recorded in its Spring's registers unless one is recorded already (R189). -/
def State.recordFault (s : State) (n : Nat) (f : Faulted) (addr : BitVec 64) : State :=
  (s.countSpring n 0x4E 1 none).modSpring n fun x =>
    if x.faultV then x
    else { x with faultV := true, faultSt := f.st.code, faultPr := f.pr, faultKind := f.kind, faultSeq := f.seq, faultAddr := addr }

/-- A fault takes its place in the pending queue: behind those before it, those of its own T-cycle in the order of their lakes (R192). -/
def insertFault (f : Faulted) : List Faulted → List Faulted
  | [] => [f]
  | g :: l => if g.at_ = f.at_ && f.lake < g.lake then f :: g :: l else g :: insertFault f l

/-- A fault of a principal (R189, R192): a follow-on where its abort runs or waits; else its abort starts, or waits in the pending
queue, or in its Spring's deferred list while the queue is full. -/
def State.fault (s : State) (f : Faulted) (addr : BitVec 64) : State :=
  if s.tm.abBusy && s.tm.abCur = f.pr then
    (s.followOn f.lake none).modDesc f.lake f.seq fun d => { d with removed := true, ready := [] }
  else if s.tm.abQueue.any (·.pr = f.pr) then s.followOn f.lake none
  else
    let s := s.recordFault f.lake f addr
    if !s.tm.abBusy && s.tm.abQueue = [] then s.startAbort f true
    else if s.tm.abQueue.length < 64 then { s with tm := { s.tm with abQueue := insertFault f s.tm.abQueue } }
    else s.modSpring f.lake fun x => { x with deferred := x.deferred ++ [f] }

/-- A fault of a descriptor (R189). -/
def State.descFault (s : State) (n : Nat) (d : Desc) (st : Status) (addr : BitVec 64) : State :=
  let s := s.modDesc n d.seq fun d => { d with failed := true }
  s.fault ⟨d.slot.pr, n, d.seq, dTag d.w, dKind d.w, st, s.pw.now⟩ addr

/-- A request of a descriptor ended with a status other than OK (R189, R190): a follow-on of a removed descriptor, else a fault. DEDUCED
(assumption log 13). -/
def State.badStatus (s : State) (n : Nat) (d : Desc) (st : Status) (addr : BitVec 64) : State :=
  if d.removed then s.followOn n (some d.slot.label) else s.descFault n d st addr

/-- The oldest deferred fault of the die, faults of one T-cycle in lake order (R192). -/
def State.oldestDeferred (s : State) : Option Faulted :=
  ((List.range Config.lakes).map (fun n => (s.spring n).deferred)).flatten.foldl
    (fun o f => match o with | none => some f | some g => if f.at_ < g.at_ then some f else some g) none

/-- Deferred faults enter the pending queue as entries free; one whose principal holds an entry is a follow-on (R192). -/
def State.enterDeferred : Nat → State → State
  | 0, s => s
  | k + 1, s =>
    if 64 ≤ s.tm.abQueue.length then s
    else match s.oldestDeferred with
      | none => s
      | some f =>
        let s := s.modSpring f.lake fun x => { x with deferred := x.deferred.erase f }
        let s := if s.tm.abQueue.any (·.pr = f.pr) then s.followOn f.lake none
                 else { s with tm := { s.tm with abQueue := s.tm.abQueue ++ [f] } }
        State.enterDeferred k s

/-- In-flight descriptors of a Spring that the running abort has removed. -/
def State.removedOf (s : State) (n : Nat) : List Desc := (s.spring n).descs.filter (fun d => d.removed && d.stage = .flight)

/-- Every request of the removed descriptors has ended (R190). -/
def abortReady (s : State) : Bool :=
  (List.range Config.lakes).all fun n => (s.removedOf n).all (s.quiet n)

/-- The step of an abort in one lake (R190): rows its descriptors landed go STALE, and the descriptors have ended. -/
def State.abortStep (s : State) (n : Nat) : State :=
  (s.descStep n (s.removedOf n) .stale).modSpring n fun x =>
    { x with descs := x.descs.map fun d => if d.removed then { d with stage := .ended } else d }

/-- The record of an abort (R319): of the Spring fault that started it, or of the write to `TM_TASK_ABORT`. -/
def State.abortRecord (s : State) : State :=
  match s.tm.abFirst with
  | some f =>
    if s.tm.abFault then s.log 3 f.st (Config.lakePos f.lake) f.pr f.kind (f.seq + f.tag <<< 32)
    else s.log 3 .ok s.tm.abSrcPos f.pr 0 0
  | none => s

/-- The abort ends (R190, R192): rows STALE in one step per lake, one FAULT record, `DONE`; the next pending abort starts in the next
T-cycle. It waits where a lake's range table has no entry for its step. -/
def State.abortEnd (s : State) : State :=
  let full := (List.range Config.lakes).filter (fun n => s.tableFull n && (s.removedOf n).any (fun d => dSlate d.w))
  if full ≠ [] then
    full.foldl (fun s n => s.modLake n fun l =>
      { l with stepWait := if l.stepWait.contains .abort then l.stepWait else l.stepWait ++ [.abort] }) s
  else
    let s := (List.range Config.lakes).foldl State.abortStep s
    let s := s.abortRecord
    let s := { s with tm := { s.tm with abBusy := false, abDone := true } }
    match s.tm.abQueue with
    | [] => s
    | f :: rest => State.enterDeferred 1536 (({ s.elapse 1 with tm := { (s.elapse 1).tm with abQueue := rest } }).startAbort f true)

end Sys2Proof.Machine
end

