-- ==== Sys2Proof/Machine/Control.lean ====
section
/-!
DEFINITION. A control-space access that has passed the checks made before its register (R27, R133, R139): who makes it and where,
how it is answered, and how one that is not allowed in the present state is rejected (R131).
-/
namespace Sys2Proof.Machine

/-- A register access: its sender, issuer, and the control-space offset. -/
structure Ctl where
  src : Src
  w   : Who
  off : Nat

/-- The lake of a lake page offset, and of a lake's power registers. -/
def pageLake (off : Nat) : Nat := (off - 0x100000) / 0x10000

/-- `SOURCE` of a record about a register (R319): its lake's stop for a lake page, else the writer's stop. DEDUCED (assumption log 12).
-/
def Ctl.source (c : Ctl) : Nat := if 0x100000 ≤ c.off then Config.lakePos (pageLake c.off) else c.w.pos

/-- The access completes with OK. -/
def State.done (s : State) (c : Ctl) : State := s.reply c.src .ok

/-- The access is refused without a record: a write of a field that its writer may not write (R11, R124), or an absent unit. -/
def State.nack (s : State) (c : Ctl) (st : Status) : State := s.reply c.src st

/-- The access is rejected with one record of class REJECT (R131). DEDUCED (assumption log 12). -/
def State.deny (s : State) (c : Ctl) (st : Status) (detail : Nat) : State :=
  (s.reject st c.source c.w.pr detail (0x20000000 + c.off)).reply c.src st

/-- Rejected with NACK_STATE under the first condition that holds, else carried on. -/
def State.unless (s : State) (c : Ctl) (fails : List Bool) (go : State → State) : State :=
  match firstOf fails with
  | 0 => go s
  | k => s.deny c .nackState k

/-- Rejected with NACK_STATE where the rule's one condition holds. -/
def State.unless0 (s : State) (c : Ctl) (fail : Bool) (go : State → State) : State :=
  if fail then s.deny c .nackState 0 else go s

/-- A privileged agent's write is carried on, any other gets NACK_OWNER (R11). -/
def State.privOnly (s : State) (c : Ctl) (go : State → State) : State :=
  if c.w.priv then go s else s.nack c .nackOwner

/-- A write by the lake's owner or a privileged agent is carried on, any other gets NACK_OWNER (R124). -/
def State.ownerOnly (s : State) (c : Ctl) (n : Nat) (go : State → State) : State :=
  if s.owns c.w n then go s else s.nack c .nackOwner

/-! ### Accesses that an engine has outstanding (R249, R250) -/

/-- An access not yet answered, the issuing engine and context slot, and where it goes: 0 this die, 1 the sibling, 2 another die. -/
structure Await where
  what   : Access
  engine : Nat
  slot   : Option Nat
  far    : Nat
deriving DecidableEq, Repr

def heldAwait : Held → Await
  | .access _ _ _ _ w _ _ => ⟨.num w.id, w.engine, w.slot, 0⟩
  | .reg _ _ _ _ _ w => ⟨.num w.id, w.engine, w.slot, 0⟩
  | .take _ _ w => ⟨.num w.id, w.engine, w.slot, 0⟩

/-- A landing write that waits. A waiting access is found among the requests with parts that wait, and a held cue wait is not waited for: in
the example of R234 an engine signals while its own wait is held. -/
def waiterAwait (e : Waiter) : List Await :=
  match e.what with
  | .land q p => [⟨.piece (e.who.engine - 0x50) q p, e.who.engine, none, 0⟩]
  | _ => []

/-- Requests of a Spring's descriptors that have not ended. -/
def springAwait (s : State) (n : Nat) : List Await :=
  ((s.spring n).descs.map fun d =>
    (d.asked.filter (fun p => !d.returned.contains p)).map fun p => (⟨.piece n d.seq p, 0x50 + n, none, 0⟩ : Await)).flatten

/-- Every access of the die that has not been answered, but those of remotes. -/
def awaitsHere (s : State) : List Await :=
  s.flights.map (fun f => ⟨.num f.who.id, f.who.engine, f.who.slot, 0⟩) ++
  (s.pw.held ++ s.hostRetry ++ (s.hostHeld.map (·.parts)).flatten ++ (s.signals.map (·.after)).flatten).map heldAwait ++
  ((List.range Config.lakes).map (fun n =>
    (s.lp n).held.map heldAwait ++ ((s.lake n).waiters.map waiterAwait).flatten ++ springAwait s n)).flatten ++
  s.signals.map (fun h => ⟨.num h.id, h.who.engine, h.who.slot, 0⟩) ++
  ((s.wins.map (fun e => e.2.closers)).flatten).map (fun c => ⟨.sent c, portEngine c.port, portIssuer c.port, 0⟩)

def remoteAwait (r : Remote) : Await :=
  ⟨match r.desc with | some (n, q, p) => .piece n q p | none => .num r.id, r.who.engine, r.who.slot, if r.sibling then 1 else 2⟩

/-- The accesses that are not yet performed with respect to a scope (R250): CORE waits for this die's alone, CHIP for the sibling's too,
SYSTEM for all. DEDUCED (assumption log 32). -/
def awaits (s : State) (scope : Nat) : List Await :=
  awaitsHere s ++ (s.remotes.map remoteAwait).filter (fun a => a.far ≤ scope)

/-- Accesses of an engine issued so far that a fence of a scope waits for (R249). -/
def engineAwaits (s : State) (engine scope : Nat) : List Access :=
  ((awaits s scope).filter (fun a => a.engine = engine)).map (·.what)

/-- None of some accesses is still outstanding with respect to a scope. -/
def settled (s : State) (scope : Nat) (ws : List Access) : Bool := ws.all fun x => !(awaits s scope).any (·.what = x)

end Sys2Proof.Machine
end

