-- ==== Sys2Proof/Machine/Cues.lean ====
section
/-!
DEFINITION. Cues (R229 to R234): signals, waits, and the writes of a cue entry's registers.
-/
namespace Sys2Proof.Machine

/-- A principal may signal a cue; may wait on it (R232). -/
def State.maySignal (s : State) (priv : Bool) (pr : Principal) (k : Nat) : Bool :=
  priv || pr = (s.cue k).owner || (s.cue k).sigOpen
def State.mayWait (s : State) (priv : Bool) (pr : Principal) (k : Nat) : Bool := priv || pr = (s.cue k).owner

/-- A wait held on a cue: its age, its amount, and whether it is a waiter entry or a Spring's WAIT_CUE (R231, R234). -/
inductive Holder
  | entry (e : Waiter) (src : Src)
  | desc (n seq : Nat)
deriving DecidableEq, Repr

structure HeldWait where
  age : Nat
  n   : Nat
  who : Holder
deriving DecidableEq, Repr

/-- The lake whose waiter table holds a cue's waits. -/
def State.homeOf (s : State) (k : Nat) : Nat := (s.cue k).home.toNat

def entryWait (k : Nat) (e : Waiter) : Option HeldWait :=
  match e.what with
  | .cue c n src => if c = k then some ⟨e.id, n, .entry e src⟩ else none
  | _ => none

/-- A descriptor in flight that watches a cue: a WAIT_CUE, or a MARK with `COND` 0 (R234). -/
def Desc.watches (k kind : Nat) (d : Desc) : Bool :=
  d.stage = .flight && !d.met && !d.failed && dKind d.w = kind && dCue d.w = k && (kind = 8 || dCond d.w = 0)

/-- The waits held on a cue, in no order. -/
def heldWaits (s : State) (k : Nat) : List HeldWait :=
  (s.lake (s.homeOf k)).waiters.filterMap (entryWait k) ++
  ((List.range Config.lakes).map fun n =>
    ((s.spring n).descs.filter (Desc.watches k 8)).map fun d => (⟨d.watch, dN d.w, .desc n d.seq⟩ : HeldWait)).flatten

/-- The oldest of some waits. -/
def oldest : List HeldWait → Option HeldWait
  | [] => none
  | a :: l => match oldest l with | none => some a | some b => if a.age ≤ b.age then some a else some b

/-- A met wait: `N` is taken from the count, and the wait is acknowledged with OK, or its WAIT_CUE is met (R231). -/
def State.meet (s : State) (k : Nat) (h : HeldWait) : State :=
  let s := s.modCue k fun c => { c with count := c.count - h.n }
  match h.who with
  | .entry e src => ((s.modLake (s.homeOf k) fun l => { l with waiters := l.waiters.filter (·.id != e.id) }).deadlines e.who .read false none s.pw.now).reply src .ok
  | .desc n q => s.modDesc n q fun d => { d with met := true }

/-- Held waits are served strictly oldest first while the count satisfies them (R231). -/
def State.serveCue (k : Nat) : Nat → State → State
  | 0, s => s
  | fuel + 1, s =>
    match oldest (heldWaits s k) with
    | none => s
    | some h => if h.n ≤ (s.cue k).count then State.serveCue k fuel (s.meet k h) else s

/-- MARKs with `COND` 0 on a cue whose count they find reached are met; they consume nothing (R185). -/
def State.meetMarks (s : State) (k : Nat) : State :=
  (List.range Config.lakes).foldl (fun s n =>
    if (s.spring n).descs.any (fun d => d.watches k 9 && dN d.w ≤ (s.cue k).count) then
      s.modSpring n fun x =>
        { x with descs := x.descs.map fun d => if d.watches k 9 && dN d.w ≤ (s.cue k).count then { d with met := true } else d }
    else s) s

/-- A cue's count has changed: its watches and waits are judged against it (R185, R230, R231). -/
def State.cueChanged (s : State) (k : Nat) : State :=
  let s := s.meetMarks k
  State.serveCue k (heldWaits s k).length s

/-- A wait or watch has gone, or a count has changed elsewhere: the waits left on each cue are judged again (R231). -/
def State.serveCues (s : State) : State := s.cues.foldl (fun s e => State.serveCue e.1 (heldWaits s e.1).length s) s

/-- A signal of `N` (R230): the count saturates at 65,535, what is lost is counted and sets `OVF`; waits are then served. -/
def State.signal (s : State) (k n : Nat) : State :=
  let excess := (s.cue k).count + n - 65535
  let s := s.modCue k fun c =>
    { c with count := min (c.count + n) 65535, ovf := c.ovf || decide (excess ≠ 0), lost := satAdd max32 c.lost excess }
  s.cueChanged k

/-- Tests of a signal or wait that come before it: permission, then its fields (R15, R230, R232). -/
def cueVerdict (may : Bool) (v : BitVec 64) : Status × Nat :=
  if !may then (.nackOwner, 0)
  else if bits v 0 16 = 0 then (.nackState, 1)
  else if bits v 16 2 = 3 then (.nackState, 2)
  else (.ok, 0)

/-- A signal that its stop has sent on reaches the cue (R230, R232). -/
def State.signalAt (s : State) (c : Ctl) (k : Nat) (v : BitVec 64) : State :=
  match cueVerdict (s.maySignal c.w.priv c.w.pr k) v with
  | (.ok, _) =>
    ((s.modCue k fun x => { x with sig := BitVec.ofNat 18 v.toNat }).signal k (bits v 0 16)).done c
  | (st, d) => s.deny c st d

/-- A write to `CUE_SIGNAL`: the issuing stop holds it until a fence of its scope would complete for the engine's earlier
accesses (R251). -/
def cueSignalWrite (c : Ctl) (k : Nat) (v : BitVec 64) (s : State) : State :=
  let ws := engineAwaits s c.w.engine (bits v 16 2)
  if bits v 16 2 = 3 || ws = [] then s.signalAt c k v
  else
    let (id, s) := s.fresh1
    { s with signals := s.signals ++ [⟨id, c.src, c.w, k, v, ws, []⟩] }

/-- A cue wait turned away with RETRY and its backoff, as the value that the response carries; the host stop waits it out (R30, R223). -/
def State.retryWait (s : State) (c : Ctl) (v : BitVec 64) (b : Nat) : State :=
  match c.src.port with
  | .host _ => { (s.claim c.w) with hostRetry := s.hostRetry ++ [.reg c.src c.off 8 (some v) (s.pw.now + b) c.w] }
  | _ => s.reply c.src .retry (BitVec.ofNat 64 b)

/-- A write to `CUE_WAIT` that its cue accepts (R231): met at once, or held as a waiter entry of the `HOME` lake, or turned away there. -/
def State.takeWait (s : State) (c : Ctl) (k : Nat) (v : BitVec 64) (now : Bool) : State :=
  let n := bits v 0 16
  let home := s.homeOf k
  let pt : RetryPt := .waiters (Fin.ofNat 24 home)
  let accept (s : State) : State := s.modCue k fun x => { x with wait := BitVec.ofNat 18 v.toNat }
  if now then ((accept s).modCue k fun x => { x with count := x.count - n }).done c
  else match s.early pt c.w.ident with
    | some b => (s.countLake home 0x1B c.w.quals (some c.w.label)).retryWait c v b
    | none =>
      match s.wait home c.w (.cue k n c.src) [] with
      | (some b, s) => s.retryWait c v b
      | (none, s) => accept s

/-- A write to `CUE_WAIT` (R231, R233): one that cannot be met at once needs its `HOME` lake ON or IDLE, which R15 puts before its
permission and its fields. -/
def cueWaitWrite (c : Ctl) (k : Nat) (v : BitVec 64) (s : State) : State :=
  let now : Bool := bits v 0 16 ≤ (s.cue k).count && heldWaits s k = []
  if !now && (s.lp (s.homeOf k)).state.down then s.nack c .nackLakeOff
  else match cueVerdict (s.mayWait c.w.priv c.w.pr k) v with
    | (.ok, _) => s.takeWait c k v now
    | (st, d) => s.deny c st d

/-- A write to `CUE_COUNT` (R231). -/
def cueCountSet (c : Ctl) (k : Nat) (v : BitVec 64) (s : State) : State :=
  s.privOnly c fun s =>
    ((s.modCue k fun x => { x with count := bits v 0 16, ovf := false, lost := 0 }).cueChanged k).done c

/-- A write to `CUE_CFG` (R232). -/
def cueCfgSet (c : Ctl) (k : Nat) (v : BitVec 64) (s : State) : State :=
  s.privOnly c fun s =>
    let x := s.cue k
    let pr : Principal := ⟨BitVec.ofNat 8 (bits v 0 8), BitVec.ofNat 12 (bits v 8 12)⟩
    let home := bits v 24 5
    s.unless c [(pr != x.owner || home != x.home.toNat) && heldWaits s k != [], !Config.lakePresent s.variant home] fun s =>
      (s.modCue k fun x => { x with owner := pr, sigOpen := bit v 20, home := BitVec.ofNat 5 home }).done c

/-- A held signal is sent on (R251). -/
def State.sendSignal (s : State) (h : HeldSignal) : State :=
  ({ s with signals := s.signals.filter (·.id != h.id) }.deadlines h.who .read false none s.pw.now).signalAt ⟨h.src, h.who, 0x80000 + 64 * h.cue + 0x10⟩ h.cue h.v

end Sys2Proof.Machine
end

