-- ==== Sys2Proof/Machine/Takes.lean ====
section
/-!
DEFINITION. Takes (R235 to R240, R291 to R296, R300): the commands of a wide port and the steps that end a take position.
-/
namespace Sys2Proof.Machine

def cmdPort (t : TakeCmd) : Port := .me t.k t.j t.sub
/-- The slot of a take command: 2s + p (R235). -/
def cmdSlot (t : TakeCmd) : Nat := 2 * subShore t.k t.j t.sub + b2n t.pos

/-- Two ranges of lake rows, neither unused, share a row. -/
def rangeMeets (a b : Range) : Bool :=
  a.count != 0 && b.count != 0 && a.first.toNat < b.first.toNat + b.count.toNat && b.first.toNat < a.first.toNat + a.count.toNat
/-- A range passes lake row 49,151 (R236). -/
def rangePasses (g : Range) : Bool := g.count != 0 && Config.rowsPerLake < g.first.toNat + g.count.toNat

/-- The answer to a take command (R291). -/
def State.answer (s : State) (t : TakeCmd) (st : Status) (lat : Nat) : State := s.emit (.resp (cmdPort t) t.tag st [] lat 0)

/-- A take command rejected with a record (R126, R131, R232). -/
def State.rejectTake (s : State) (w : Who) (t : TakeCmd) (n : Nat) (st : Status) (detail : Nat) : State :=
  (s.reject st (Config.lakePos n) w.pr detail 0).answer t st 2

/-- What a wide port asks before its sub-shore passes a request or a take command on (R5, R139, R296, R343, R362): the status
of a refusal and the `DETAIL` of its record. -/
def wideGate (s : State) (w : Who) (k : Fin 16) (j : Fin 3) (sub : Fin 4) : Option (Status × Option Nat) :=
  let n := portLake k j
  if s.absentNow || !Config.lakePresent s.variant n || (s.lake n).inReset then some (.absent, none)
  else if (s.lp n).state.down then some (.nackLakeOff, some 1)
  else if !s.slotLive (w.slot.getD 0) then some (.nackState, some (s.deadDetail (.me k j sub)))
  else if !subExists (s.lake n) (subShore k j sub) then some (.nackState, some 0)
  else none

/-- A sub-shore named by the pre-emption in progress (R297, R298). -/
def State.preempted (s : State) (k : Fin 16) (j : Fin 3) (sub : Fin 4) : Bool :=
  s.tm.peBusy && s.tm.peMe = k && bit s.tm.peSub (4 * j + sub)

/-- The take slots of a lake's sub-shore that a pre-emption names, as (lake, slot) (R297). -/
def preemptSlots (s : State) : List (Nat × Nat) :=
  ((List.range 3).map fun j => ((List.range 4).map fun i =>
    let k := Fin.ofNat 16 s.tm.peMe
    let n := portLake k (Fin.ofNat 3 j)
    let sh := subShore k (Fin.ofNat 3 j) (Fin.ofNat 4 i)
    if bit s.tm.peSub (4 * j + i) && Config.lakePresent s.variant n && subExists (s.lake n) sh then [(n, 2 * sh), (n, 2 * sh + 1)]
    else []).flatten).flatten

/-- The pre-emption ends once every take of the named sub-shores is FREE (R298). -/
def State.preemptCheck (s : State) : State :=
  if s.tm.peBusy && (preemptSlots s).all (fun e => ((s.lake e.1).take e.2).state = .free) then
    { s with tm := { s.tm with peBusy := false, peDone := true } }
  else s

/-- The rights that OPEN needs and its issuer lacks, in the order of R236: write rights for `RES`, read and write rights for the operand
ranges, the right to signal `CUE` (R126). -/
def openLacks (s : State) (w : Who) (n : Nat) (f : TakeFields) : List Bool :=
  let own := s.owns w n
  let r := shareRights (s.lake n) w .write
  [!(f.res.count = 0 || own || r.2),
   !(!f.consume || (f.opa.count = 0 && f.opb.count = 0) || own || (r.1 && r.2)),
   !(!f.sig || s.maySignal w.priv w.pr f.cue.toNat)]
def openRights (s : State) (w : Who) (n : Nat) (f : TakeFields) : Bool := (openLacks s w n f).all (!·)

/-- OPEN (R236, R291). On a position that is COMMITTING or ABORTING it is recorded as on any other that is not FREE: R293's exception is read
as being for accesses. DESIGN CHOICE (assumption log 18). -/
def takeOpenAt (s : State) (w : Who) (t : TakeCmd) (f : TakeFields) : State :=
  let n := portLake t.k t.j
  let l := s.lake n
  let maint : Range := ⟨l.slFirst, l.slCount⟩
  let busy := (s.mte n).busy || l.convBusy
  if rangePasses f.opa || rangePasses f.opb || rangePasses f.res then s.answer t .nackBound 2
  else if !openRights s w n f then s.rejectTake w t n .nackOwner (firstOf (openLacks s w n f))
  else
    match firstOf [
      (l.take (cmdSlot t)).state != .free, f.scope = 3, rangeMeets f.opa f.res || rangeMeets f.opb f.res,
      (List.range 16).any (fun i => (l.take i).state != .free && rangeMeets (l.take i).f.res f.res) ||
        s.meetsSpan n f.res.first.toNat f.res.count.toNat,
      l.slBusy && (rangeMeets f.opa maint || rangeMeets f.opb maint || rangeMeets f.res maint),
      s.preempted t.k t.j t.sub, busy] with
    | 0 =>
      let x : Take := { Take.reset with state := .open, f := f, pr := w.pr, who := some w }
      ((s.countLake n 0x28 w.quals (some w.label)).modLake n fun l => l.setTake (cmdSlot t) x).answer t .ok 2
    | d => s.rejectTake w t n .nackState d

/-- COMMIT (R238, R292): the position is COMMITTING, and its response comes with the step. One that names a position COMMITTING or ABORTING
gets NACK_STATE without a record, as a request does (R293). DESIGN CHOICE (assumption log 18). -/
def takeCommitAt (s : State) (w : Who) (t : TakeCmd) : State :=
  let n := portLake t.k t.j
  let x := (s.lake n).take (cmdSlot t)
  match x.state with
  | .open =>
    let y := { x with state := .committing, tag := t.tag, byCmd := true, at_ := s.pw.now, mark := s.nextId }
    s.modLake n fun l => l.setTake (cmdSlot t) y
  | .free => s.rejectTake w t n .nackState 0
  | _ => s.answer t .nackState 2

/-- ABORT (R239, R292): the position is ABORTING, its held accesses are released, and its response comes after the step. One that names a
position COMMITTING does not end it, and gets NACK_STATE without a record (R238, R293). DESIGN CHOICE (assumption log 18). -/
def takeAbortAt (s : State) (w : Who) (t : TakeCmd) (fault : Bool) : State :=
  let n := portLake t.k t.j
  let x := (s.lake n).take (cmdSlot t)
  match x.state with
  | .open =>
    let s := s.modLake n fun l => l.setTake (cmdSlot t) { x with tag := t.tag, byCmd := true }
    s.endTake n (cmdSlot t) (if fault then 1 else 0)
  | .free => s.rejectTake w t n .nackState 0
  | _ => s.answer t .nackState 2

/-- A take command at its lake. -/
def takeAt (s : State) (w : Who) (t : TakeCmd) (op : TakeOp) : State :=
  match op with
  | .opening f => takeOpenAt s w t f
  | .commit => takeCommitAt s w t
  | .abort fault => takeAbortAt s w t fault

/-- A boundary request wakes the block from DEEP (R349): exit starts from DEEP, and a wake during entry is remembered. -/
def State.wakeDeep (s : State) : State :=
  match s.pw.deep with
  | 1 => { s with pw := { s.pw with deepPend := true } }
  | 2 => { s with pw := { s.pw with deep := 3, deepDueNs := s.pw.ns + 8000, deepTimed := true } }
  | _ => s

/-- A boundary request is held by its port while the block is not in RUN (R349), and by its stop or shore during the drain and
switch of a level change (R336). -/
def State.holdDeep (s : State) (h : Held) : State := { s.wakeDeep with pw := { s.wakeDeep.pw with held := s.wakeDeep.pw.held ++ [h] } }

/-- A take command of an issuer at its wide port (R291, R296, R341, R343). DEDUCED (assumption log 18). -/
def takePresentBy (w : Who) (t : TakeCmd) (op : TakeOp) (s : State) : State :=
  let n := portLake t.k t.j
  if s.pw.deep != 0 || s.draining then (s.claim w).holdDeep (.take t op w)
  else match wideGate s w t.k t.j t.sub with
    | some (.nackLakeOff, _) =>
      let s := (s.countLake n 0x0D w.quals (some w.label)).modLp n fun x => { x with nacks := satAdd max32 x.nacks 1 }
      (s.log 6 .nackLakeOff (Config.lakePos n) w.pr 1 0).answer t .nackLakeOff 2
    | some (st, some d) => s.rejectTake w t n st d
    | some (st, none) => s.answer t st 2
    | none =>
      if (s.lp n).state = .idle then ((s.claim w).wakeIdle n).modLp n fun x => { x with held := x.held ++ [.take t op w] }
      else takeAt s w t op

/-- A take command presented at a wide port. -/
def takePresent (t : TakeCmd) (op : TakeOp) (s : State) : State := takePresentBy (whoOf s (cmdPort t)) t op s

/-! ### Steps (R238, R239, R292, R293, R300) -/

/-- An access that the take's sub-shore issued before the COMMIT has not completed (R292). -/
def commitWaits (s : State) (n t : Nat) : Bool :=
  let x := (s.lake n).take t
  s.takePending n t != 0 || s.flights.any (fun f => f.who.ident = .wired (Fin.ofNat 10 (t / 2)) && f.rid < x.mark &&
    lakeOf (wordRow (f.q.addr.toNat / 32)) = n)

/-- The port and tag that a take position answers to. -/
def takePort (x : Take) : Port :=
  match x.who with
  | some w => .me (Fin.ofNat 16 (w.engine - 0x40))
      (Fin.ofNat 3 (((List.range 3).find? (fun j => decide (Config.lakePos (Config.wireLake (w.engine - 0x40) j) = w.pos))).getD 0))
      (match w.ident with | .wired i => Fin.ofNat 4 i | _ => 0)
  | none => .mgmt

/-- The result rows of a take that become FULL are command slots filled under the take's identity (R175). -/
def State.takeSlots (s : State) (x : Take) (rows : List Nat) : State :=
  match x.who with
  | some w => rows.foldl (fun s r => if s.slate r = .full then s.slotFullBy r w else s) s
  | none => s

def takeQuals (t : Nat) : List Nat := [t / 2]

/-- The commit step (R238): results FULL, consumed operands EMPTY; in the next T-cycle the cue is signalled and the position is
FREE; then the response. -/
def State.commitStep (s : State) (n t : Nat) : State :=
  let x := (s.lake n).take t
  let ops := if x.f.consume then rangeRows x.f.opa n ++ rangeRows x.f.opb n else []
  let s := s.reach (x.at_ + 2)
  let rows := (rangeRows x.f.res n).filter (fun r => s.slate r = .reserved)
  let s := s.rangeStep n (rangeRows x.f.res n) (fun _ => true) .full ops
  let s := s.takeSlots x rows
  let s := s.countLake n 0x29 (takeQuals t)
  let s := s.reach (s.pw.now + 1)
  let s := if x.f.sig then s.signal x.f.cue.toNat 1 else s
  let s := s.modLake n fun l => l.setTake t { x with state := .free }
  let s := if s.tm.peBusy && (preemptSlots s).contains (n, t) then { s with tm := { s.tm with peCommit := s.tm.peCommit + 1 } } else s
  (s.emit (.resp (takePort x) x.tag .ok [] (s.pw.now + 1 - x.at_) 0)).preemptCheck

/-- The take-abort or take-fault step (R239, R292, R293, R300): result rows EMPTY or STALE, the abort notice, a FAULT record for the two
causes of R300, while a task abort writes its own (R190); the position is FREE in the next T-cycle; then the response that its COMMIT or ABORT awaits. DEDUCED (assumption log 18). -/
def State.takeEndStep (s : State) (n t : Nat) : State :=
  let x := (s.lake n).take t
  let own := x.cause = 0 ∨ x.cause = 1
  let s := s.reach (x.at_ + if own then 2 else 1)
  let s := s.rangeStep n (rangeRows x.f.res n) (fun _ => true) (if x.fault then .stale else .empty) []
  let s := s.countLake n (if x.fault then 0x2B else 0x2A) (takeQuals t)
  let s := s.emit (.abortNotice n t x.cause)
  let s := if x.cause = 1 ∨ x.cause = 5 then
      s.log 3 x.st (Config.lakePos n) x.pr (0xF + x.cause * 16 + t * 128) (rowAddr (gRow n x.f.res.first.toNat))
    else s
  let s := s.reach (s.pw.now + 1)
  let s := s.modLake n fun l => l.setTake t { x with state := .free }
  let s := if x.byCmd then s.emit (.resp (takePort x) x.tag (if own then .ok else .nackState) [] (s.pw.now + 1 - x.at_) 0) else s
  s.preemptCheck

/-- The step that ends a take position, or a place among the steps that wait for a range-table entry (R222). -/
def State.takeStep (s : State) (n t : Nat) : State :=
  let st := ((s.lake n).take t).state
  if !(st = .committing && !commitWaits s n t || st = .aborting) then s
  else if s.tableFull n then
    s.modLake n fun l => { l with stepWait := if l.stepWait.contains (.take t) then l.stepWait else l.stepWait ++ [.take t] }
  else if st = .committing then s.commitStep n t else s.takeEndStep n t

/-! ### The commands -/

/-- TAKE_OPEN (R236). -/
def execTakeOpen (t : TakeCmd) (f : TakeFields) (s : State) : Host.Outcome State Fault Refusal := .next (takePresent t (.opening f) s)
/-- TAKE_COMMIT (R238). -/
def execTakeCommit (t : TakeCmd) (s : State) : Host.Outcome State Fault Refusal := .next (takePresent t .commit s)
/-- TAKE_ABORT (R239). -/
def execTakeAbort (t : TakeCmd) (fault : Bool) (s : State) : Host.Outcome State Fault Refusal :=
  .next (takePresent t (.abort fault) s)
/-- TAKE_COMMIT_STEP (R292). -/
def execTakeCommitStep (n : Fin 24) (slot : Fin 16) (s : State) : Host.Outcome State Fault Refusal :=
  .next (if ((s.lake n).take slot).state = .committing then s.takeStep n slot else s)
/-- TAKE_ABORT_STEP (R292). -/
def execTakeAbortStep (n : Fin 24) (slot : Fin 16) (s : State) : Host.Outcome State Fault Refusal :=
  .next (if ((s.lake n).take slot).state = .aborting then s.takeStep n slot else s)

/-! ### Pre-emption (R297, R298) -/

/-- A write to `TM_PREEMPT` (R297). -/
def preemptSet (c : Ctl) (v : BitVec 64) (s : State) : State :=
  s.privOnly c fun s => s.unless c [s.tm.peBusy, bits v 8 12 = 0] fun s =>
    let s := { s with tm := { s.tm with
      preempt := pack 64 [(0, bits v 0 4), (8, bits v 8 12), (32, bits v 32 16)]
      peBusy := true, peMe := bits v 0 4, peSub := BitVec.ofNat 12 (bits v 8 12), peCommit := 0, peAbort := 0
      peDeadline := s.pw.ns + bits v 32 16, pePassed := false } }
    (s.preemptCheck).done c

/-- At the deadline, one take of the named sub-shores (R298): an OPEN take, or a COMMITTING one with a held access, is aborted. -/
def State.preemptOne (s : State) (e : Nat × Nat) : State :=
  let x := (s.lake e.1).take e.2
  let held := (s.lake e.1).waiters.any (fun w => (w.what.mode.bind Mode.takeSlot) = some e.2)
  if x.state = .open || (x.state = .committing && held) then
    let s := s.endTake e.1 e.2 2
    { s with tm := { s.tm with peAbort := s.tm.peAbort + 1 } }
  else s

/-- PREEMPT_DEADLINE (R298). -/
def execPreemptDeadline (s : State) : Host.Outcome State Fault Refusal :=
  if !s.tm.peBusy || s.tm.pePassed then .next s
  else
    let s := s.reachNs s.tm.peDeadline
    let s := { s with tm := { s.tm with pePassed := true } }
    .next ((preemptSlots s).foldl State.preemptOne s).preemptCheck

end Sys2Proof.Machine
end

