-- ==== Sys2Proof/Machine/Springs.lean ====
section
/-!
DEFINITION. The Springs (R170 to R196, R210 to R213): reading command slots, starting descriptors, their transfers, their
completion, and cuts.
-/
namespace Sys2Proof.Machine

/-! ### Requests of a Spring -/

/-- The issuer of a descriptor's requests (R122, R170, R175): on shore S as bulk engine or trickle path, else over the canal. -/
def springWho (s : State) (n : Nat) (d : Desc) (wired : Bool) : Who :=
  { engine := 0x50 + n, cls := .spring, pr := d.slot.pr, priv := d.slot.priv, label := d.slot.label
    ident := if wired then .wired (if d.trickle then 9 else 8) else canalIdent (Config.lakePos n) 0
    slot := none, timeout := 0, pos := Config.lakePos n, wired := wired, arrival := none, segs := d.slot.segs
    dl := s.defDl d.slot.label, issued := s.pw.now, granted := s.pw.now, id := s.nextId }

/-- The global address of a word of this die. -/
def State.globalOf (s : State) (w : Nat) : BitVec 64 := BitVec.ofNat 64 (s.tm.epId.toNat * 2 ^ 44 + 32 * w)

def pieceOf (d : Desc) (i : Nat) : Option Piece := (piecesOf d.w).find? (·.i = i)

/-- A row request on shore S for the words of a piece. -/
def pieceRow (p : Piece) (data : List Word) : RowReq := ⟨p.own / 8, (List.range p.n).map (p.own % 8 + ·), data, false⟩

/-- The Spring's own lake refuses it at its wired shore S (R343): counted and recorded. -/
def State.refuseSpring (s : State) (n : Nat) (w : Who) (addr : Nat) : State :=
  let s := (s.countLake n 0x0D w.quals (some w.label)).modLp n fun x => { x with nacks := satAdd max32 x.nacks 1 }
  s.log 6 .nackLakeOff (Config.lakePos n) w.pr 1 addr

/-- A row request on shore S (R170): it opens a PS cycle, which requests of shores behind it may join (R48, R49), and its response comes at
the lake's latency (R41, R114). -/
def State.shoreS (s : State) (n : Nat) (d : Desc) (w : Who) (op : Op) (m : Mode) (p : Piece) (data : List Word) : RowOut × State :=
  let s := s.countSpring n 0x49 1 (some d.slot.label) d.quals
  let (pl, s) := s.place w n op m false [pieceRow p data]
  let (o, s) := rowAccess s w op false m (pieceRow p data)
  let valid := s.pw.now + opLatency op (s.lake n).wMode (p.own % 8) p.n 16 + pl.late
  let s := s.inPonds w n valid
  (o, if o.met then s.deadlines w op true none valid else s)

/-- A plain read of own-lake words for a STORE or PUSH, or of a command slot (R174, R182). -/
def State.springRead (s : State) (n : Nat) (d : Desc) (p : Piece) : RowRes × State :=
  let w := springWho s n d true
  if (s.lp n).state.down then (⟨.nackLakeOff, []⟩, s.refuseSpring n w (32 * p.own))
  else
    let (o, s) := s.shoreS n d w .read .plain p []
    (o.res, s)

/-! ### Landing (R182, R183) -/

/-- The next piece of a descriptor that may be written to its own lake, in block order, with its data. -/
def Desc.nextLanding (d : Desc) : Option (Nat × List Word) := d.ready.find? (·.1 = d.written.length)

/-- A piece has been written: the row it landed is remembered. -/
def State.landed (s : State) (n seq i row : Nat) : State :=
  s.modDesc n seq fun d =>
    { d with written := d.written ++ [i], ready := d.ready.filter (·.1 != i)
             landed := if d.landed.contains row then d.landed else d.landed ++ [row] }

/-- One write of a descriptor to its own lake: performed, or waiting as a waiter entry of the bulk engine, or turned away, or at
fault. True where the next may follow. A landing write that finds every waiter entry in use is turned away before its pond cycle, and the
Spring waits out the count (R89, R223); one that re-enters (`since` its issue) is not judged so. None is issued in a level change's drain
(R194). -/
def State.landOne (s : State) (n : Nat) (d : Desc) (i : Nat) (data : List Word) (since : Option Nat) : Bool × State :=
  match pieceOf d i with
  | none => (false, s)
  | some p =>
    let w := { springWho s n d true with issued := since.getD s.pw.now }
    let row := p.own / 8
    let pt : RetryPt := .waiters (Fin.ofNat 24 n)
    let m : Mode := if dSlate d.w then .land d.seq else .plain
    let first : Bool := since.isNone && m != .plain
    if (s.lp n).state.down then
      (false, (s.refuseSpring n w (32 * p.own)).badStatus n d .nackLakeOff (s.globalOf p.own))
    else if (s.lp n).state = .idle then (false, s.wakeIdle n)
    else if s.draining || (first && (s.early pt w.ident).isSome) then (false, s)
    else if first && 64 ≤ (s.lake n).waiters.length then
      (false, ((s.countSpring n 0x49 1 (some d.slot.label) d.quals).turnAway pt w.ident).2.countLake n 0x1A w.quals (some w.label))
    else
      match s.shoreS n d w .write m p data with
      | (.unmet _, s) => (false, (s.wait n w (.land d.seq i) [row]).2)
      | (.done r, s) =>
        let s := if m = .plain then s else s.backoffClear pt w.ident
        if r.st = .ok then (true, s.landed n d.seq i row)
        else (false, s.badStatus n d r.st (s.globalOf p.own))

/-- A descriptor writes what has returned to it, in order, until a write has to wait. -/
def State.land (n seq : Nat) : Nat → State → State
  | 0, s => s
  | fuel + 1, s =>
    match s.desc n seq with
    | none => s
    | some d =>
      if d.stage != .flight || d.removed || d.cut || d.failed || s.landWaits n seq then s
      else match d.nextLanding with
        | none => s
        | some (i, data) =>
          match s.landOne n d i data none with
          | (true, s) => State.land n seq fuel s
          | (false, s) => s

def State.landAll (s : State) (n seq : Nat) : State :=
  match s.desc n seq with
  | some d => State.land n seq (d.ready.length + 1) s
  | none => s

/-- Landing writes that wait on a row are presented again where the row's slate lets them (R224). A write under way when its
descriptor is cut still lands (R187). -/
def State.wakeLandings (s : State) (row : Nat) : State :=
  let n := lakeOf row
  ((s.lake n).waiters.filter (fun e => e.lands && e.rows.contains row)).foldl (fun s e =>
    match e.what with
    | .land seq i =>
      match s.desc n seq with
      | none => s
      | some d =>
        let sl := s.slate row
        if (s.lake n).inMaint (lRow row) || foreignLand (s.lake n) (lRow row) (.land seq) ||
            !(sl = .stale || slateMeets (s.lake n) (lRow row) (.land seq) sl) then s
        else
          let s := s.modLake n fun l => { l with waiters := l.waiters.filter (·.id != e.id) }
          match d.ready.find? (·.1 = i) with
          | none => s
          | some (_, data) => (s.landOne n d i data (some e.who.issued)).2.landAll n seq
    | _ => s) s

/-! ### Data and acknowledgements that come back -/

/-- Data placed among what waits to be landed. -/
def Desc.give (d : Desc) (i : Nat) (data : List Word) : Desc := { d with ready := d.ready ++ [(i, data)] }

/-- The answer to one request of a descriptor (R184, R187, R189, R190): data is landed in order, or dropped where the descriptor is
cut or removed; a status other than OK is a fault or a follow-on. -/
def State.springReturn (s : State) (n seq i : Nat) (st : Status) (data : List Word) : State :=
  match s.desc n seq with
  | none => s
  | some d =>
    if !d.asked.contains i || d.returned.contains i then s
    else
      let s := s.modDesc n seq fun d => { d with returned := d.returned ++ [i] }
      let addr := match pieceOf d i with | some p => p.other | none => 0
      if st != .ok then s.badStatus n d st addr
      else if ownIsSrc (dKind d.w) then s
      else if d.removed || d.cut then s.discard n (32 * data.length) (some d.slot.label)
      else (s.modDesc n seq fun d => d.give i data).landAll n seq

/-! ### Issue (R178, R182) -/

def State.ask (s : State) (n seq i : Nat) : State := s.modDesc n seq fun d => { d with asked := d.asked ++ [i] }

/-- The stack bytes of an address of space 0x1: sibling selector and offset (R31, R198). -/
def stackOf (s : State) (a : BitVec 64) : Bool × Nat := (bits a 44 16 != s.tm.epId.toNat, bits a 0 44)

/-- Basin lines that a stack write overlaps are invalidated, and fills of them will not be installed (R205). -/
def State.basinStore (s : State) (sib : Bool) (off len : Nat) : State :=
  let hits (l : Nat) : Bool := off / 256 ≤ l && l ≤ (off + len - 1) / 256
  let gone := countTrue (fun e => e.2.valid && e.2.sib = sib && hits e.2.line) s.basin.lines
  let s := s.count { set := .basin, inst := 0, ev := 0x76, n := gone }
  { s with basin := { s.basin with
      lines := s.basin.lines.filter (fun e => !(e.2.valid && e.2.sib = sib && hits e.2.line))
      fills := s.basin.fills.map fun (f : Fill) => if f.sib = sib && hits f.line then { f with noInstall := true } else f } }

/-- A request that leaves the die for a descriptor (R34, R64, R250). -/
def State.springRemote (s : State) (n : Nat) (d : Desc) (i : Nat) (op : Op) (a : BitVec 64) (words : Nat) (data : List Word) : State :=
  let (id, s) := s.fresh1
  let sib : Bool := bits a 44 16 = (s.tm.epId.toNat ^^^ 1)
  let pos := if sib then Config.d2dPos else Config.fabricPos (Config.fabricFor (BitVec.ofNat 16 (bits a 44 16)))
  let s := s.countSpring n 0x4A 1 (some d.slot.label) d.quals
  let r : Remote := ⟨id, { springWho s n d false with id := id }, pos, op, sib, none, some (n, d.seq, i)⟩
  { s with remotes := s.remotes ++ [r] }.emit (.remote id pos op a words data d.slot.label)

/-- A canal request of a descriptor to storage of this die; an address outside storage cannot take words (R27). -/
def State.springCanal (s : State) (n : Nat) (d : Desc) (i : Nat) (op : Op) (a : BitVec 64) (words : Nat) (data : List Word) (global : Bool) :
    State :=
  let w0 := springWho s n d false
  let w := if global then { w0 with arrival := some s.tm.epId.toNat } else w0
  let q : Req := { port := .spring (Fin.ofNat 24 n) d.seq i, tag := 0, addr := BitVec.ofNat 64 (bits a 0 44), words := words }
  let s := s.countSpring n 0x4A 1 (some d.slot.label) d.quals
  match decodeAddr s.variant (bits a 0 44) with
  | .word v x => s.atLake w op q data v x false
  | .control off => s.refuse w op q .nackBound (some (4, w.pos, 0)) (0x20000000 + off)
  | .absent => s.refuse w op q .absent none 0

/-- The request of one piece is issued (R178): a stack read or its lookup in the basin, a stack write of words read from the lake,
a remote read, a write sent on, a canal read, or a pattern. A read of the lake that fails sends nothing (R313). -/
def State.issuePiece (n seq : Nat) (s : State) (p : Piece) : State :=
  match s.desc n seq with
  | none => s
  | some d =>
    if d.failed || d.removed then s
    else
      let st := stackOf s p.other
      match dKind d.w with
      | 1 =>
        let s := s.ask n seq p.i
        if dShared d.w then s else s.emit (.stackRead n seq p.i st.1 st.2 p.n d.slot.label)
      | 2 =>
        match s.springRead n d p with
        | (r, s) =>
          if r.st = .ok then
            let s := (s.ask n seq p.i).emit (.stackWrite n seq p.i st.1 st.2 r.words d.slot.label)
            (s.countSpring n 0x48 (32 * p.n) (some d.slot.label) d.quals).basinStore st.1 st.2 (32 * p.n)
          else s.badStatus n d r.st (s.globalOf p.own)
      | 3 => (s.ask n seq p.i).springRemote n d p.i .read p.other p.n []
      | 4 =>
        match s.springRead n d p with
        | (r, s) =>
          if r.st = .ok then
            let s := s.ask n seq p.i
            if bits p.other 44 16 = s.tm.epId.toNat then s.springCanal n d p.i (pushOp d.w) p.other p.nOther r.words true
            else s.springRemote n d p.i (pushOp d.w) p.other p.nOther r.words
          else s.badStatus n d r.st (s.globalOf p.own)
      | 5 => (s.ask n seq p.i).springCanal n d p.i .read p.other p.n [] false
      | _ => s

/-- The pattern of a FILL, four times in each word (R178). -/
def fillWord (v : BitVec 64) : Word := BitVec.ofNat 256 (v.toNat * (1 + 2 ^ 64 + 2 ^ 128 + 2 ^ 192))

/-- The descriptor is in flight, and neither cut nor removed nor at fault. -/
def Desc.live (d : Desc) : Bool := d.stage = .flight && !d.cut && !d.removed && !d.failed

/-- Trickle descriptors of a Spring that hold a queue entry, which cancellation and removal free (R210). -/
def trickleUsed (x : Spring) : Nat := countTrue (fun d => d.live && d.trickle && d.issued) x.descs

/-- A trickle descriptor waits for a queue entry, or for an older one that waits (R210, R212). -/
def trickleWaits (x : Spring) (d : Desc) : Bool :=
  d.trickle && (16 ≤ trickleUsed x || (x.earlier d).any (fun e => e.live && e.trickle && !e.issued))

/-- The requests of a started descriptor are issued, unless it waits for a trickle-queue entry, the end of a level change's drain or, where
it reads its own lake, the end of a wake (R182, R194, R210, R341). -/
def State.issue (s : State) (n seq : Nat) : State :=
  match s.desc n seq with
  | none => s
  | some d =>
    if d.issued || !d.live || s.draining || trickleWaits (s.spring n) d then s
    else if ownIsSrc (dKind d.w) && (s.lp n).state = .idle then s.wakeIdle n
    else
      let s := s.modDesc n seq fun d => { d with issued := true }
      if dKind d.w = 6 then
        (s.modDesc n seq fun d =>
          { d with ready := (piecesOf d.w).map fun p => (p.i, List.replicate p.n (fillWord (dSrc d.w))) }).landAll n seq
      else (piecesOf d.w).foldl (State.issuePiece n seq) s

/-- Descriptors in flight whose requests have had to wait are issued, oldest first (R194, R210). -/
def State.issueWaiting (s : State) (n : Nat) : State :=
  ((s.spring n).descs.filter (fun d => d.live && kMoves (dKind d.w) && !d.issued)).foldl (fun s d => s.issue n d.seq) s

/-! ### Cue operations and MARKs (R184, R185) -/

/-- A SIGNAL_CUE, WAIT_CUE or MARK is met. -/
def State.met (s : State) (n seq : Nat) : State := s.modDesc n seq fun d => { d with met := true }

/-- SIGNAL_CUE starts (R184, R232). -/
def State.startSignal (s : State) (n : Nat) (d : Desc) : State :=
  if s.maySignal d.slot.priv d.slot.pr (dCue d.w) then (s.met n d.seq).signal (dCue d.w) (dN d.w)
  else s.descFault n d .nackOwner 0

/-- WAIT_CUE starts (R185, R232): it consumes its count at once, or watches the cue. -/
def State.startWait (s : State) (n : Nat) (d : Desc) : State :=
  let k := dCue d.w
  if !s.mayWait d.slot.priv d.slot.pr k then s.descFault n d .nackOwner 0
  else
    let older := (heldWaits s k).any fun h => match h.who with | .desc m q => !(m = n && q = d.seq) | _ => true
    if dN d.w ≤ (s.cue k).count && !older then (s.modCue k fun c => { c with count := c.count - dN d.w }).met n d.seq
    else
      let (id, s) := s.fresh1
      s.modDesc n d.seq fun d => { d with watch := id }

/-- The test of a MARK on a row (R185): one pond cycle; the slate in its AR cycle, range table included. It waits for an IDLE lake's wake
and the end of a level change's drain (R194, R341). -/
def State.testMark (s : State) (n : Nat) (d : Desc) : State :=
  let row := bits (dDst d.w) 0 44 / 256
  let w := springWho s n d true
  if s.draining then s
  else if (s.lp n).state = .idle then s.wakeIdle n
  else
    let s := (s.countSpring n 0x49 1 (some d.slot.label) d.quals).modDesc n d.seq fun d => { d with issued := true }
    let (_, s) := s.place w n .read .peek false [⟨row, [], [], false⟩]
    let sl := s.slate row
    let (_, t) := s.before row none
    let s := (s.spend w row none).checkRow (some w) row 0 t none
    if !t.mark && tagsBad (s.wMode row) t.bad then s.badStatus n d .uncorrectable (dDst d.w)
    else if sl = (if dCond d.w = 1 then .full else .empty) then s.met n d.seq
    else s

/-- MARKs with `COND` 3 are met once every earlier descriptor has completed (R185). -/
def State.meetOrder (s : State) (n : Nat) : State :=
  let x := s.spring n
  let ok (d : Desc) : Bool := d.stage = .flight && dKind d.w = 9 && dCond d.w = 3 && (x.earlier d).all (·.stage = .ended)
  s.modSpring n fun x => { x with descs := x.descs.map fun d => if ok d then { d with met := true } else d }

/-- MARK starts (R185, R232). -/
def State.startMark (s : State) (n : Nat) (d : Desc) : State :=
  match dCond d.w with
  | 0 =>
    if !s.mayWait d.slot.priv d.slot.pr (dCue d.w) then s.descFault n d .nackOwner 0
    else if dN d.w ≤ (s.cue (dCue d.w)).count then s.met n d.seq else s
  | 3 => s.meetOrder n
  | _ => s.testMark n d

/-! ### What waits and may go on -/

/-- Cue waits, trickle descriptors and MARKs behind what a removal, a cut, an end or a completion has taken away go on (R185, R210, R231). -/
def State.takeUp (s : State) : State :=
  (List.range Config.lakes).foldl (fun s n => (s.issueWaiting n).meetOrder n) s.serveCues

/-- What a Spring could not do while its lake woke or a level change drained is done: landings, issues and tests of MARKs (R194, R341). -/
def State.resumeSpring (s : State) (n : Nat) : State :=
  let s := ((s.spring n).descs.filter (·.live)).foldl (fun s d => s.landAll n d.seq) s
  let s := s.issueWaiting n
  ((s.spring n).descs.filter (fun d => d.live && d.holding && !d.issued && dKind d.w = 9 && (dCond d.w = 1 || dCond d.w = 2))).foldl
    (fun s d => s.testMark n d) s

/-- The answer to a request of a descriptor has come, and what it lets go on goes on. -/
def State.springBack (s : State) (n seq i : Nat) (st : Status) (data : List Word) : State := (s.springReturn n seq i st data).takeUp

/-! ### Start (R181) -/

/-- The descriptor that would start next, where it is of a kind and every start condition holds; not in a level change's drain
(R194), nor in a lake that is down (R342). -/
def startable (s : State) (n kind : Nat) : Option Desc :=
  match (s.spring n).nextDesc with
  | some d =>
    if dKind d.w = kind && starts s n d && !s.draining && s.pw.deep = 0 && !(s.lp n).state.down && s.tm.ready && !(s.lake n).inReset
    then some d else none
  | none => none

/-- The depth after a completion (R186). -/
def Spring.adjust (x : Spring) (d : Desc) : Spring :=
  if x.depthFix then { x with depth := x.depthMax.toNat }
  else
    let x := if (dKind d.w = 1 || dKind d.w = 3 || dKind d.w = 5) && d.stalled then
        { x with depth := min (x.depth + 1) x.depthMax.toNat } else x
    if d.depthLim then { x with run256 := 0 }
    else if x.run256 = 255 then { x with run256 := 0, depth := max 2 (x.depth - 1) }
    else { x with run256 := x.run256 + 1 }

/-- A descriptor starts (R181): it is in flight and issues its requests, or makes its test; a NOP ends at once. -/
def startDesc (kind : Nat) (n : Nat) (s : State) : State :=
  match startable s n kind with
  | none => s
  | some d =>
    let s := s.countSpring n 0x42 1 (some d.slot.label) d.quals
    let s := s.modDesc n d.seq fun d => { d with stage := if kind = 0 then .ended else .flight }
    let s := if kind = 0 then (((s.countSpring n 0x43 1 (some d.slot.label) d.quals).modSpring n fun x => x.adjust d)).meetOrder n else s
    match kind with
    | 0 => s
    | 7 => s.startSignal n d
    | 8 => s.startWait n d
    | 9 => s.startMark n d
    | _ => s.issue n d.seq

/-! ### Completion (R184, R186) -/

/-- A descriptor has done what its kind asks for (R184). -/
def Desc.finished (d : Desc) : Bool :=
  d.stage = .flight && !d.removed && !d.cut && !d.failed &&
  (match dKind d.w with
   | 7 => d.met | 8 => d.met | 9 => d.met
   | 2 => d.issued && d.returned.length = (piecesOf d.w).length
   | 4 => d.issued && d.returned.length = (piecesOf d.w).length
   | _ => d.issued && d.written.length = (piecesOf d.w).length)

/-- The completion step (R184, R221): rows it landed become FULL in one step; with `SIG_DONE` its cue is signalled in the next
T-cycle. -/
def State.complete (s : State) (n : Nat) (d : Desc) : State :=
  let rows := s.stepRows n d
  let s := (s.descStep n [d] .full).slotsFull rows d.slot.pr d.slot.priv d.slot.label d.slot.segs
  let s := s.countSpring n 0x43 1 (some d.slot.label) d.quals
  let s := s.modDesc n d.seq fun d => { d with stage := .ended }
  let s := s.modSpring n fun x => { x.adjust d with trkDesc := x.trkDesc + b2n d.trickle }
  let s := s.takeUp
  if !dSigDone d.w then s
  else
    let s := s.reach (s.pw.now + 1)
    if s.maySignal d.slot.priv d.slot.pr (dCue d.w) then s.signal (dCue d.w) 1 else (s.descFault n d .nackOwner 0).takeUp

/-- A finished descriptor takes its completion step, or waits for a range-table entry (R222). -/
def State.completeStep (s : State) (n seq : Nat) : State :=
  match (s.landAll n seq).desc n seq with
  | none => s
  | some d =>
    let s := s.landAll n seq
    if !d.finished then s
    else if dSlate d.w && s.tableFull n then
      s.modLake n fun l =>
        { l with stepWait := if l.stepWait.contains (.complete seq) then l.stepWait else l.stepWait ++ [.complete seq] }
    else s.complete n d

/-! ### Command slots (R172 to R176) -/

/-- The row of the slot at a reel position. -/
def slotRow (r : Reel) (pos : Nat) : Nat := r.base.toNat + pos % 2 ^ r.size.toNat

/-- The slot that is read next: positions that a cut or an abort covered are passed over (R174). -/
def nextPos (slots : List Slot) : Nat → Nat → Nat
  | 0, p => p
  | fuel + 1, p => if slots.any (fun y => y.pos = p && y.read) then nextPos slots fuel ((p + 1) % 2 ^ 32) else p

def slotWords (ws : List Word) (i : Nat) : List (BitVec 64) :=
  (List.range 8).map fun k => BitVec.ofNat 64 (bits (ws.getD (2 * i + k / 4) 0) (64 * (k % 4)) 64)

def newDesc (seq : Nat) (w : List (BitVec 64)) (y : Slot) (cut : Bool) : Desc :=
  ⟨seq, w, y, if cut then .ended else .decoded, false, [], [], [], [], [], [], false, false, 0, cut, false, false, false⟩

/-- The four descriptors of a slot (R173), those from `cutAt` on cancelled (R187). -/
def slotDescs (y : Slot) (ws : List Word) : List Desc :=
  (List.range 4).map fun i =>
    let seq := (4 * y.pos + i) % 2 ^ 32
    newDesc seq (slotWords ws i) y (match y.cutAt with | some a => seqAtOrAfter seq a | none => false)

/-- A decoded descriptor is checked (R180). -/
def State.checkDesc (n : Nat) (s : State) (d : Desc) : State :=
  if d.cut then s
  else match descCheck s n d.slot d.w with
    | some (st, a) => s.descFault n d st a
    | none => s

/-- The next command slot is read, decoded and checked (R174, R175, R180). A fault of the read has no descriptor, and its abort record
carries the `TAG` 0. DESIGN CHOICE (assumption log 13). -/
def State.readSlot (s : State) (n : Nat) (y : Slot) : State :=
  let x := s.spring n
  let row := slotRow (s.reel x.reel.toNat) y.pos
  let mark (s : State) : State := s.modSpring n fun x =>
    { x with slots := x.slots.map (fun z => if z.pos = y.pos then { z with read := true } else z), nextRead := (y.pos + 1) % 2 ^ 32 }
  if !(y.priv || y.pr = (s.lake n).owner) then
    let s := (s.countSpring n 0x41 1 (some y.label) [1]).modSpring n fun x => { x with skip := satAdd max32 x.skip 1 }
    mark (s.log 4 .nackOwner (Config.lakePos n) y.pr 0 (rowAddr row))
  else
    let probe := newDesc (4 * y.pos % 2 ^ 32) [] y false
    match s.springRead n probe ⟨0, 8 * row, 8, 0, 8⟩ with
    | (r, s) =>
      let s := mark (s.countSpring n 0x40 1 (some y.label) [1])
      if r.st != .ok then
        s.fault ⟨y.pr, n, 4 * y.pos % 2 ^ 32, 0, 0, r.st, s.pw.now⟩ (s.globalOf (8 * row))
      else
        let ds := slotDescs { y with read := true } r.words
        let s := s.modSpring n fun x => { x with descs := x.descs ++ ds }
        ds.foldl (State.checkDesc n) s

/-- The descriptors of a slot have ended (R176). -/
def slotEnded (x : Spring) (p : Nat) : Bool := (x.descs.filter (fun d => d.slot.pos = p)).all (·.stage = .ended)

/-- The slot at `HEAD` is released: its row goes from FULL to EMPTY and `HEAD` advances (R176, R219). -/
def State.releaseSlot (s : State) (n : Nat) : State :=
  let x := s.spring n
  let r := s.reel x.reel.toNat
  let h := r.head.toNat
  if !x.bound || !(x.slots.any (fun y => y.pos = h && y.read)) || !slotEnded x h || (s.lp n).state.down then s
  else if (s.lp n).state = .idle then s.wakeIdle n
  else
    let row := slotRow r h
    let s := (s.countSpring n 0x49 1 none [1]).pondCycle row [8]
    let s := if s.slate row = .full then s.setSlate row .empty else s.settle row
    let s := s.modReel x.reel.toNat fun r => { r with head := BitVec.ofNat 32 (h + 1) }
    s.modSpring n fun x =>
      { x with slots := x.slots.filter (·.pos != h), descs := x.descs.filter (·.slot.pos != h)
               nextRead := nextPos x.slots 32769 x.nextRead }

/-! ### Cut (R187, R188) -/

/-- The sequence numbers of a slot's descriptors. -/
def Slot.seqs (y : Slot) : List Nat := (List.range 4).map fun i => (4 * y.pos + i) % 2 ^ 32

/-- The sequence numbers of a slot that a cut at `a` cancels, and no earlier cut has (R187). -/
def Slot.cuts (a : Nat) (y : Slot) : List Nat :=
  y.seqs.filter fun q => seqAtOrAfter q a && !(match y.cutAt with | some b => seqAtOrAfter q b | none => false)

/-- An unread slot cut at `a` as well (R187): it is not read where all of it is now cancelled (R174). -/
def Slot.cut (a : Nat) (y : Slot) : Slot :=
  let z := { y with cutAt := some (match y.cutAt with | some b => if seqAtOrAfter b a then a else b | none => a) }
  if y.read || y.cuts a = [] then y else if z.cancelled = 4 then { z with read := true } else z

/-- A descriptor is cancelled (R187): one that has issued nothing, or is held, ends at once; read data not yet on its way to the
lake is dropped. -/
def Desc.cancel (waiting : Bool) (d : Desc) : Desc :=
  { d with cut := true, ready := if waiting then d.ready.take 1 else []
           stage := if d.stage = .decoded || !kMoves (dKind d.w) then .ended else d.stage }

/-- A write to `SPR_CUT` (R187). Read data that has returned by the cut point, but whose landing write has not been issued, is dropped and
counted with the data that returns later. DESIGN CHOICE (assumption log 13). Descriptors that an abort has removed are left to it (R188). -/
def sprCutSet (c : Ctl) (n : Nat) (v : BitVec 64) (s : State) : State :=
  s.ownerOnly c n fun s => s.unless0 c (s.spring n).cutBusy fun s =>
    let a := bits v 0 32
    let x := s.spring n
    let hit (d : Desc) : Bool := d.stage != .ended && !d.removed && seqAtOrAfter d.seq a
    let seqs := (x.descs.filter hit).map (·.seq) ++ ((x.slots.filter (!·.read)).map (Slot.cuts a)).flatten
    let kept (d : Desc) : Nat := if s.landWaits n d.seq then 1 else 0
    let dropped := ((x.descs.filter hit).map fun d => unlanded d (d.ready.drop (kept d))).sum
    let s := (s.countSpring n 0x4B seqs.length none).discard n dropped none
    let s := s.modSpring n fun x =>
      { x with
        cutSeq := BitVec.ofNat 32 a, cancelled := seqs.length, firstSeq := seqs.headD a, cutBusy := seqs != []
        cutDone := x.cutDone || seqs = []
        slots := x.slots.map (Slot.cut a)
        descs := x.descs.map fun d => if hit d then d.cancel (kept d != 0) else d }
    s.takeUp.done c

/-- Cancelled descriptors of a Spring that are still in flight. -/
def cutOf (x : Spring) : List Desc := x.descs.filter (fun d => d.cut && d.stage = .flight)

/-- The end of a cut (R187): rows landed go EMPTY in one step; `DONE`. Those of a descriptor that an abort has removed since are left to the
abort (R190). -/
def State.cutEnd (s : State) (n : Nat) : State :=
  let ds := (cutOf (s.spring n)).filter (!·.removed)
  if !(s.spring n).cutBusy || !(cutOf (s.spring n)).all (s.quiet n) then s
  else if ds.any (fun d => dSlate d.w) && s.tableFull n then
    s.modLake n fun l => { l with stepWait := if l.stepWait.contains .cut then l.stepWait else l.stepWait ++ [.cut] }
  else
    let s := s.descStep n ds .empty
    let s := s.modSpring n fun x =>
      { x with cutBusy := false, cutDone := true
               descs := x.descs.map fun d => if d.cut && !d.removed && d.stage = .flight then { d with stage := .ended } else d }
    s.takeUp

/-- A step that waited for a range-table entry is taken (R222). -/
def State.takeWaiting (s : State) (n : Nat) : State :=
  match (s.lake n).stepWait with
  | [] => s
  | x :: rest =>
    if s.tableFull n then s
    else
      let s := s.modLake n fun l => { l with stepWait := rest }
      match x with
      | .take t => s.takeStep n t
      | .complete q => s.completeStep n q
      | .cut => s.cutEnd n
      | .abort => if s.tm.abBusy && abortReady s then s.abortEnd.takeUp else s

/-! ### Bindings (R171) -/

/-- The Spring is idle: no descriptor in progress and no command slot FULL (R128). -/
def State.springIdle (s : State) (n : Nat) : Bool :=
  let x := s.spring n
  x.descs.all (·.stage = .ended) && !x.slots.any (fun y => s.slate (slotRow (s.reel x.reel.toNat) y.pos) = .full)

/-- Unread positions from the head on whose rows are FULL become slots of the writer that binds the reel (R171). -/
def State.bindSlots (s : State) (n : Nat) (w : Who) : State :=
  let x := s.spring n
  let r := s.reel x.reel.toNat
  let h := r.head.toNat
  (List.range (2 ^ r.size.toNat)).foldl (fun s i =>
    let row := slotRow r (h + i)
    if s.slate row = .full then s.slotFullBy row w else s) s

/-- A write to `SPR_REEL` (R171). -/
def sprReelSet (c : Ctl) (n : Nat) (v : BitVec 64) (s : State) : State :=
  s.ownerOnly c n fun s =>
    let x := s.spring n
    let e := bits v 0 6
    let b := bit v 8
    let r := s.reel e
    let lo := gRow n 0
    let inside := lo ≤ r.base.toNat && r.base.toNat + 2 ^ r.size.toNat ≤ lo + Config.rowsPerLake
    let others := (List.range Config.lakes).any (fun m => m != n && (s.spring m).bound && (s.spring m).reel.toNat = e)
    if e = x.reel.toNat && b = x.bound then s.done c
    else if b && !x.bound then
      s.unless c [!s.springIdle n, !(r.enable && r.slated), !inside, r.consumer.toNat != 0x50 + n, others] fun s =>
        let s := s.modSpring n fun x =>
          { x with reel := BitVec.ofNat 6 e, bound := true, depth := if x.depthFix then x.depthMax.toNat else 2, run256 := 0
                   nextRead := r.head.toNat, slots := [], descs := [] }
        (s.bindSlots n c.w).done c
    else if !b && x.bound then
      s.unless c [!s.springIdle n] fun s =>
        (s.modSpring n fun x => { x with reel := BitVec.ofNat 6 e, bound := false, slots := [], descs := [] }).done c
    else s.deny c .nackState 6

/-- A write to `SPR_CTL` (R186, R195): a `DEPTH_MAX` outside 2 to 64 leaves the field. -/
def sprCtlSet (c : Ctl) (n : Nat) (v : BitVec 64) (s : State) : State :=
  s.ownerOnly c n fun s =>
    let m := bits v 8 7
    let s := s.modSpring n fun x =>
      let mx := if 2 ≤ m && m ≤ 64 then BitVec.ofNat 7 m else x.depthMax
      { x with pause := bit v 0, depthFix := bit v 15, depthMax := mx
               depth := if bit v 15 then mx.toNat else min x.depth mx.toNat }
    s.done c

/-- A write to `TM_TASK_ABORT` (R190, R191): the abort starts in the next T-cycle, from which `BUSY` reads 1. A write given after it is
performed in that T-cycle or later, so that no two are judged in one. DESIGN CHOICE (assumption log 32). -/
def taskAbortSet (c : Ctl) (v : BitVec 64) (s : State) : State :=
  s.privOnly c fun s => s.unless c [s.tm.abBusy, s.tm.abQueue != []] fun s =>
    let pr : Principal := ⟨BitVec.ofNat 8 (bits v 0 8), BitVec.ofNat 12 (bits v 8 12)⟩
    let s := ({ s with tm := { s.tm with abEngine := pr.engine, abTid := pr.tid, abSrcPos := c.w.pos } }.done c).elapse 1
    (s.startAbort ⟨pr, 0, 0, 0, 0, .ok, s.pw.now⟩ false).takeUp

/-! ### The commands -/

/-- NOP (R178). -/
def execNop (n : Fin 24) (s : State) : Host.Outcome State Fault Refusal := .next (startDesc 0 n s).takeUp
/-- LOAD (R178). -/
def execLoad (n : Fin 24) (s : State) : Host.Outcome State Fault Refusal := .next (startDesc 1 n s).takeUp
/-- STORE (R178). -/
def execStore (n : Fin 24) (s : State) : Host.Outcome State Fault Refusal := .next (startDesc 2 n s).takeUp
/-- PULL (R178). -/
def execPull (n : Fin 24) (s : State) : Host.Outcome State Fault Refusal := .next (startDesc 3 n s).takeUp
/-- PUSH (R178). -/
def execPush (n : Fin 24) (s : State) : Host.Outcome State Fault Refusal := .next (startDesc 4 n s).takeUp
/-- COPY (R178). -/
def execCopy (n : Fin 24) (s : State) : Host.Outcome State Fault Refusal := .next (startDesc 5 n s).takeUp
/-- FILL (R178). -/
def execFill (n : Fin 24) (s : State) : Host.Outcome State Fault Refusal := .next (startDesc 6 n s).takeUp
/-- SIGNAL_CUE (R184). -/
def execSignalCue (n : Fin 24) (s : State) : Host.Outcome State Fault Refusal := .next (startDesc 7 n s).takeUp
/-- WAIT_CUE (R185). -/
def execWaitCue (n : Fin 24) (s : State) : Host.Outcome State Fault Refusal := .next (startDesc 8 n s).takeUp
/-- MARK (R185). -/
def execMark (n : Fin 24) (s : State) : Host.Outcome State Fault Refusal := .next (startDesc 9 n s).takeUp

/-- MARK_RETEST (R185): MARKs held on a row are tested again. -/
def execMarkRetest (n : Fin 24) (s : State) : Host.Outcome State Fault Refusal :=
  .next (((s.spring n).descs.filter (fun d => d.holding && !d.failed && dKind d.w = 9 && (dCond d.w = 1 || dCond d.w = 2))).foldl
    (fun s d => s.testMark n d) s)

/-- SLOT_READ (R174): of a slot that has become FULL and still is, or that a mark write has since made STALE. -/
def execSlotRead (n : Fin 24) (s : State) : Host.Outcome State Fault Refusal :=
  let x := s.spring n
  let p := nextPos x.slots 32769 x.nextRead
  match x.slots.find? (fun y => y.pos = p && !y.read) with
  | none => .next s
  | some y =>
    let row := slotRow (s.reel x.reel.toNat) p
    if !x.bound || !(s.slate row = .full || s.slate row = .stale) || 64 ≤ s.tm.abQueue.length || (s.lp n).state.down || !s.tm.ready
        || s.pw.deep != 0 || s.draining then .next s
    else if (s.lp n).state = .idle then .next (s.wakeIdle n)
    else .next (s.readSlot n y).takeUp

/-- STACK_READ_RETURN (R170). -/
def execStackReadReturn (n : Fin 24) (seq piece : Nat) (st : Status) (d : List Word) (s : State) : Host.Outcome State Fault Refusal :=
  match s.desc n seq with
  | some x =>
    if dKind x.w != 1 || (dShared x.w && !x.looked.contains piece) then .next s
    else .next ((s.countSpring n 0x47 (32 * d.length) (some x.slot.label) x.quals).springBack n seq piece st d)
  | none => .next s

/-- STACK_WRITE_ACK (R184). -/
def execStackWriteAck (n : Fin 24) (seq piece : Nat) (st : Status) (s : State) : Host.Outcome State Fault Refusal :=
  match s.desc n seq with
  | some x => .next (if dKind x.w != 2 then s else s.springBack n seq piece st [])
  | none => .next s

/-- TASK_ABORT_COMPLETE (R190): once the removed descriptors' writes have ended. -/
def execTaskAbortComplete (s : State) : Host.Outcome State Fault Refusal :=
  .next (if s.tm.abBusy && abortReady s then s.abortEnd.takeUp else s)

/-- DESCRIPTOR_COMPLETE (R184). -/
def execDescriptorComplete (n : Fin 24) (seq : Nat) (s : State) : Host.Outcome State Fault Refusal := .next (s.completeStep n seq)
/-- SLOT_RELEASE (R176), which is issued on shore S (R194). -/
def execSlotRelease (n : Fin 24) (s : State) : Host.Outcome State Fault Refusal := .next (if s.draining then s else s.releaseSlot n)
/-- CUT_COMPLETE (R187). -/
def execCutComplete (n : Fin 24) (s : State) : Host.Outcome State Fault Refusal := .next (s.cutEnd n)
/-- RANGE_STEP_ENTER (R222). -/
def execRangeStepEnter (n : Fin 24) (s : State) : Host.Outcome State Fault Refusal := .next (s.takeWaiting n)

/-- Every waiter of a lake whose condition the present state meets re-enters: at the end of a wake or of a level change (R224, R336,
R341). -/
def State.wakeLake (s : State) (n : Nat) : State :=
  let rows := ((s.lake n).waiters.map (·.rows)).flatten.eraseDups
  let s := rows.foldl State.wakeLandings s
  (s.wakeThose n (fun _ => true)).resumeSpring n

/-- A waiter on a row may re-enter: its condition is met, or it is a landing that the row's slate lets through or stops (R224). -/
def mayReenter (s : State) (n row : Nat) (e : Waiter) : Bool :=
  e.rows.contains row && (wakes s n e ||
    (match e.what with
     | .land seq _ => !(s.lake n).inMaint (lRow row) && !foreignLand (s.lake n) (lRow row) (.land seq) && (s.slate row = .stale || slateMeets (s.lake n) (lRow row) (.land seq) (s.slate row))
     | _ => false))

/-- WAITER_WAKE (R224): waiters of an IDLE lake wake it first (R341); during a level change's drain they stay (R336). -/
def execWaiterWake (row : Nat) (s : State) : Host.Outcome State Fault Refusal :=
  let n := lakeOf row
  if s.draining || (s.lp n).state.down then .next s
  else if (s.lp n).state = .idle then .next (if (s.lake n).waiters.any (mayReenter s n row) then s.wakeIdle n else s)
  else .next ((s.wakeLandings row).wakeRow row).takeUp

/-- TAG_SWEEP (R222): the tag bits of one row are rewritten, at one pond cycle. An IDLE lake is woken first (R341); a lake that is
down, but for DRAINING, takes none, and none is taken in a level change's drain (R336, R342). -/
def execTagSweep (row : Nat) (s : State) : Host.Outcome State Fault Refusal :=
  let n := lakeOf row
  match stepSlate (s.lake n).steps row with
  | none => .next s
  | some _ =>
    if s.draining then .next s
    else if (s.lp n).state = .idle then .next (s.wakeIdle n)
    else if (s.lp n).state.down && (s.lp n).state != .draining then .next s
    else .next (((s.countLake n 0x2E).pondCycle row).settle row)

end Sys2Proof.Machine
end

