-- ==== Sys2Proof/Machine/Basin.lean ====
section
/-!
DEFINITION. The basin (R197 to R209): lookups, fills and invalidation.
-/
namespace Sys2Proof.Machine

def basinDefault : Nat → Line := fun _ => Line.reset

def basinSet (v : Variant) (line : Nat) : Nat := line % Config.basinSets v
/-- The line in way `w` of a set; ways are numbered 16 to a set. -/
def Basin.way (b : Basin) (set w : Nat) : Line := Tab.get basinDefault b.lines (16 * set + w)
def Basin.setWay (b : Basin) (set w : Nat) (l : Line) : Basin := { b with lines := Tab.set basinDefault b.lines (16 * set + w) l }

/-- The way of a set that holds a line (R199). -/
def Basin.match (b : Basin) (set : Nat) (sib : Bool) (line : Nat) : Option Nat :=
  (List.range 16).find? (fun w => (b.way set w).valid && (b.way set w).sib = sib && (b.way set w).line = line)

/-- The ways that a label group may allocate (R109). -/
def waysOf (s : State) (g : Nat) : Nat :=
  if g < 2 then bits s.weir.ways0 (16 * g) 16 else bits s.weir.ways1 (16 * (g - 2)) 16

/-- The choice of a victim among some ways (R203), with the ways' reference bits cleared where it found all set. -/
def victim (b : Basin) (set : Nat) (allowed : List Nat) : Option (Nat × Basin) :=
  match allowed.find? (fun w => !(b.way set w).valid) with
  | some w => some (w, b)
  | none =>
    match allowed.find? (fun w => !(b.way set w).ref) with
    | some w => some (w, b)
    | none =>
      match allowed with
      | [] => none
      | w :: _ => some (w, allowed.foldl (fun b w => b.setWay set w { b.way set w with ref := false }) b)

/-- Count an event of the basin for a request of a label (R384). -/
def State.countBasin (s : State) (ev label : Nat) : State :=
  s.count { set := .basin, inst := 0, ev := ev, quals := [s.groupOf label], label := some label }

/-- Fill entries of one slice in use (R202). -/
def sliceFills (s : State) (set : Nat) : Nat :=
  countTrue (fun f => f.set % Config.basinSlices s.variant = set % Config.basinSlices s.variant) s.basin.fills

/-- A line lies in the range of an invalidation (R207). -/
def invCovers (all sib : Bool) (first lines : Nat) (lsib : Bool) (line : Nat) : Bool :=
  all || (lsib = sib && first ≤ line && line < first + lines)

/-- What the stacks were read for up to the T-cycle after the write of the invalidation in progress, and lies in its range (R208). -/
def Basin.swept (b : Basin) (sib : Bool) (line at_ : Nat) : Bool :=
  b.busy && invCovers b.invAll b.invSib b.invAddr.toNat b.walkLen sib line && at_ ≤ b.start + 1

/-- The lines that the walk of the invalidation in progress has reached are invalid (R208); when it reaches each is the slices' own. -/
def State.walk (s : State) : State :=
  let b := s.basin
  if !b.busy then s
  else { s with basin := { b with lines := b.lines.filter fun e =>
    !(b.swept e.2.sib e.2.line e.2.at_ && b.start + 2 + Config.walkAt b.start e.2.sib e.2.line % (b.due - b.start - 1) ≤ s.pw.now) } }

/-- A fill is not to be installed: a store has covered its line, or an invalidation marked it, in the T-cycle after its write (R205, R208). -/
def State.barred (s : State) (f : Fill) : Bool := f.noInstall || (s.basin.swept f.sib f.line f.at_ && s.basin.start < s.pw.now)

/-- A read for which the basin has no line: merged, missed or passed by (R201, R203). One issued after its line's fill was barred does not
merge with it (R205). -/
def State.basinMiss (s : State) (n : Nat) (d : Desc) (p : Piece) (sib : Bool) (line set : Nat) : State :=
  let label := d.slot.label
  if s.basin.fills.any (fun f => f.sib = sib && f.line = line && !s.barred f) then
    { s.countBasin 0x72 label with basin := { (s.countBasin 0x72 label).basin with
        fills := s.basin.fills.map fun f =>
          if f.sib = sib && f.line = line && !s.barred f then { f with reqs := f.reqs ++ [(n, d.seq, p.i)] } else f } }
  else
    let reserved (w : Nat) : Bool := s.basin.fills.any (fun f => f.set = set && f.way = w)
    let allowed := (List.range 16).filter (fun w => (waysOf s (s.groupOf label)).testBit w && !reserved w)
    match (if 16 ≤ sliceFills s set then none else victim s.basin set allowed) with
    | some (w, b) =>
      let b := b.setWay set w Line.reset
      let f : Fill := ⟨sib, line, set, w, false, [(n, d.seq, p.i)], s.pw.now⟩
      { s.countBasin 0x73 label with basin := { b with fills := b.fills ++ [f] } }.emit (.basinRead sib line label d.slot.pr)
    | none =>
      let s := (s.countBasin 0x74 label).modDesc n d.seq fun d => { d with looked := d.looked ++ [p.i] }
      s.emit (.stackRead n d.seq p.i sib (bits p.other 0 44) p.n label)

/-- The words of a piece in the line that holds it. -/
def pieceWords (p : Piece) (line : List Word) : List Word := (line.drop (bits p.other 0 44 / 32 % 8)).take p.n

/-- `DETAIL` and `ADDR` of a record of a basin line (R319): its first unit in error, finder 3, a syndrome that R304 leaves open; the line's
global address (R31). DESIGN CHOICE (assumption log 17). -/
def lineDetail (s : State) (us : List Nat) : Nat := us.headD 0 % 32 + (Config.syndrome s.fresh).toNat * 64 + 3 * 2 ^ 14
def lineAddr (s : State) (sib : Bool) (line : Nat) : Nat :=
  2 ^ 60 + (if sib then s.tm.epId.toNat ^^^ 1 else s.tm.epId.toNat) * 2 ^ 44 + 256 * line

/-- A lookup's turn in its slice (R200): requests for one line in one T-cycle share a lookup, and a fifth line of a T-cycle waits for the next.
DESIGN CHOICE (assumption log 2). -/
def State.sliceTurn (s : State) (label : Nat) (sib : Bool) (line : Nat) : State :=
  let slice (l : Nat) : Nat := basinSet s.variant l % Config.basinSlices s.variant
  let seen := if s.basin.seenAt = s.pw.now then s.basin.seen else []
  if seen.contains (sib, line) then s
  else
    let full : Bool := 4 ≤ countTrue (fun e => slice e.2 = slice line) seen
    let s := if full then (s.countBasin 0x79 label).elapse 1 else s
    let s := s.countBasin 0x70 label
    { s with basin := { s.basin with seenAt := s.pw.now, seen := (sib, line) :: (if full then [] else seen) } }

/-- The line of a way is found by a lookup (R201, R204): it is served, its correctable errors corrected and scrubbed back, or, where some error
of it cannot be corrected, dropped. The record of a dropped line names the requester's principal. DESIGN CHOICE (assumption log 17). -/
def State.lineFound (s : State) (n : Nat) (d : Desc) (p : Piece) (set w : Nat) (l : Line) : State :=
  if l.bad ≠ [] then
    let s := (s.countBasin 0x77 d.slot.label).log 1 .uncorrectable 0x30 d.slot.pr (lineDetail s l.bad) (lineAddr s l.sib l.line)
    { s with basin := { s.basin.setWay set w Line.reset with eccDrop := true }, fresh := s.fresh + 1 }.basinMiss n d p l.sib l.line set
  else
    let s := if l.corr = [] then s else
      { s.correction 24 (lineDetail s l.corr) (lineAddr s l.sib l.line) with fresh := s.fresh + 1 }
    let s := { s.countBasin 0x71 d.slot.label with basin := s.basin.setWay set w { l with ref := true, corr := [] } }
    s.springBack n d.seq p.i .ok (pieceWords p l.data)

/-- A SHARED stack read looks up the basin (R201, R204). `struck` are the units of the line that errors have struck since it was last read,
each with whether the error cannot be corrected. -/
def State.lookup (s : State) (n : Nat) (d : Desc) (p : Piece) (struck : List (Fin 32 × Bool)) : State :=
  let st := stackOf s p.other
  let line := st.2 / 256
  let set := basinSet s.variant line
  let s := (s.sliceTurn d.slot.label st.1 line).walk
  match s.basin.match set st.1 line with
  | some w =>
    let l := s.basin.way set w
    let units (b : Bool) : List Nat := (struck.filter (·.2 = b)).map (·.1.val)
    s.lineFound n d p set w { l with corr := l.corr ++ units false, bad := l.bad ++ units true }
  | none => s.basinMiss n d p st.1 line set

/-- The answer of a fill's stack read is given to one of its requesters (R204). -/
def State.fillGive (st : Status) (data : List Word) (s : State) (r : Nat × Nat × Nat) : State :=
  match s.desc r.1 r.2.1 with
  | none => s
  | some d =>
    match pieceOf d r.2.2 with
    | none => s
    | some p =>
      let ws := pieceWords p data
      (s.countSpring r.1 0x47 (32 * ws.length) (some d.slot.label) d.quals).springBack r.1 r.2.1 r.2.2 st (if st = .ok then ws else [])

/-- A fill's stack data is given to its requesters, and is installed unless it failed or was invalidated (R201, R204, R205). -/
def State.fillReturn (s : State) (f : Fill) (st : Status) (data : List Word) : State :=
  let line : Line := ⟨true, f.sib, f.line, true, (data ++ zeros 8).take 8, [], [], f.at_⟩
  let s := s.walk
  let ok : Bool := st = .ok && !s.barred f
  let s := { s with basin := { s.basin with fills := s.basin.fills.erase f } }
  let s := if ok then
      { s.count { set := .basin, inst := 0, ev := 0x75 } with basin := s.basin.setWay f.set f.way line }
    else s
  f.reqs.foldl (State.fillGive st line.data) s

/-- T-cycles of an invalidation (R208). -/
def invCycles (v : Variant) (all : Bool) (lines : Nat) : Nat :=
  let sp := Config.basinSetsPerSlice v
  let sl := Config.basinSlices v
  if all then sp + 4 else min ((lines + sl - 1) / sl) sp + 4

/-- A write to `TM_BASIN_INV` (R207, R208). -/
def basinInvSet (c : Ctl) (v : BitVec 64) (s : State) : State :=
  s.privOnly c fun s =>
    let all := bit v 0
    let first := bits v 8 36
    let lines := s.basin.invLen.toNat
    s.unless c [s.basin.busy, !all && (lines = 0 || 2 ^ 36 < first + lines)] fun s =>
      { s with basin := { s.basin with
        invAll := all, invSib := bit v 1, invAddr := BitVec.ofNat 36 first, busy := true
        start := s.pw.now, walkLen := lines, due := s.pw.now + invCycles s.variant all lines } }.done c

/-- A write to `TM_BASIN_INV_LEN` (R207). -/
def basinLenSet (c : Ctl) (v : BitVec 64) (s : State) : State :=
  s.privOnly c fun s => { s with basin := { s.basin with invLen := BitVec.ofNat 24 v.toNat } }.done c

/-- The 12 µs of the entry to DEEP run from the end of the last drain, once no snapshot runs, no invalidation is in progress and every fill
has come back (R209, R347, R348, R389). DEDUCED (assumption log 21). -/
def State.deepTimer (s : State) : State :=
  let up := (List.range (Config.lakeCount s.variant)).any (fun n =>
    (s.lp n).state = .on || (s.lp n).state = .idle || (s.lp n).state = .draining)
  if s.pw.deep = 1 && !s.pw.deepTimed && !up && !s.cnt.busy && !s.basin.busy && s.basin.fills = [] then
    { s with pw := { s.pw with deepTimed := true, deepDueNs := s.pw.ns + 12000 } }
  else s

/-! ### The commands -/

/-- BASIN_LOOKUP (R201): of a SHARED read that has been issued and not yet looked up. -/
def execBasinLookup (n : Fin 24) (seq piece : Nat) (struck : List (Fin 32 × Bool)) (s : State) : Host.Outcome State Fault Refusal :=
  match s.desc n seq with
  | none => .next s
  | some d =>
    let waits := s.basin.fills.any (fun f => f.reqs.contains (n.val, seq, piece))
    if !(dKind d.w = 1 && dShared d.w && d.asked.contains piece) || d.returned.contains piece || d.looked.contains piece || waits then .next s
    else match pieceOf d piece with
      | none => .next s
      | some p => .next (s.lookup n d p struck)

/-- BASIN_FILL_RETURN (R204). -/
def execBasinFillReturn (sib : Bool) (line : Nat) (st : Status) (d : List Word) (s : State) : Host.Outcome State Fault Refusal :=
  match s.basin.fills.find? (fun f => f.sib = sib && f.line = line) with
  | none => .next s
  | some f => .next (s.fillReturn f st d).deepTimer

/-- BASIN_INV_DONE (R208): no line of the range is left but those whose stack read came after the write's next T-cycle. -/
def execBasinInvDone (s : State) : Host.Outcome State Fault Refusal :=
  if !s.basin.busy then .next s
  else
    let s := s.reach s.basin.due
    let b := s.basin
    .next (State.deepTimer { s with basin := { b with
      busy := false, done := true
      lines := b.lines.filter (fun e => !b.swept e.2.sib e.2.line e.2.at_)
      fills := b.fills.map fun (f : Fill) => if s.barred f then { f with noInstall := true } else f } })

end Sys2Proof.Machine
end

