-- ==== Sys2Proof/Machine/Windows.lean ====
section
/-!
DEFINITION. Remote windows (R273 to R289): the registers of an entry and the states it passes through.
-/
namespace Sys2Proof.Machine

/-- A write to a window entry passes on where its entry exists and its writer is the entry's principal or privileged (R4, R275). -/
def State.winOnly (s : State) (c : Ctl) (w : Nat) (go : State → State) : State :=
  if Config.windowCount s.variant ≤ w then s.nack c .absent
  else if c.w.priv || c.w.pr = (s.win w).owner then go s else s.nack c .nackOwner

/-- A write to `WIN_OWNER` (R274). -/
def winOwnerSet (c : Ctl) (w : Nat) (v : BitVec 64) (s : State) : State :=
  if Config.windowCount s.variant ≤ w then s.nack c .absent
  else s.privOnly c fun s => s.unless0 c ((s.win w).state != .free) fun s =>
    (s.modWin w fun x => { x with owner := ⟨BitVec.ofNat 8 (bits v 0 8), BitVec.ofNat 12 (bits v 8 12)⟩ }).done c

/-- A write to `WIN_RANGE`, `WIN_SRC` or `WIN_MODE` (R275 to R278). -/
def winConfigSet (c : Ctl) (w which : Nat) (v : BitVec 64) (s : State) : State :=
  s.winOnly c w fun s =>
    let st := (s.win w).state
    s.unless0 c (st = .open || st = .closing) fun s =>
      let s := s.modWin w fun x => match which with
        | 0 => { x with first := BitVec.ofNat 16 (bits v 0 16), rows := BitVec.ofNat 16 (bits v 16 16), lake := BitVec.ofNat 5 (bits v 32 5) }
        | 1 => { x with epFirst := BitVec.ofNat 16 (bits v 0 16), epLast := BitVec.ofNat 16 (bits v 16 16) }
        | _ => { x with mode := BitVec.ofNat 2 (bits v 0 2) }
      s.done c

/-- Two windows share a row of one lake. -/
def Win.meets (x y : Win) : Bool :=
  x.lake = y.lake && x.first.toNat < y.first.toNat + y.rows.toNat && y.first.toNat < x.first.toNat + x.rows.toNat

def Win.active (x : Win) : Bool := x.state = .open || x.state = .closing

/-- OPEN (R281, R282): what its unit or its lake cannot take comes before who writes it (R15). -/
def winOpenAt (c : Ctl) (w : Nat) (s : State) : State :=
  let x := s.win w
  let n := x.lake.toNat
  if Config.windowCount s.variant ≤ w || !Config.lakePresent s.variant n || (!Config.hasAccWindows s.variant && (x.mode = 1 || x.mode = 2)) then s.nack c .absent
  else if (s.lp n).state.down then s.nack c .nackLakeOff
  else if Config.rowsPerLake < x.first.toNat + x.rows.toNat then s.nack c .nackBound
  else if !(c.w.priv || c.w.pr = x.owner) || x.owner != (s.lake n).owner then s.nack c .nackOwner
  else
    s.unless c [x.active, x.rows = 0, x.epLast.toNat < x.epFirst.toNat,
        s.wins.any (fun e => e.1 != w && e.2.active && e.2.meets x), (s.mte n).busy] fun s =>
      (s.modWin w fun x => { x with state := .open, cause := 0, late := false, accepted := 0, rejected := 0, cmd := 1 }).done c

/-- CLOSE (R281, R287): the entry is CLOSING, and the write is acknowledged when it is CLOSED. -/
def winCloseAt (c : Ctl) (w : Nat) (s : State) : State :=
  match (s.win w).state with
  | .free => s.deny c .nackState 0
  | .open => s.modWin w fun x => { x with state := .closing, cause := 0, cmd := 2, closers := x.closers ++ [c.src], atClose := s.pw.now }
  | .closing => s.modWin w fun x => { x with cmd := 2, closers := x.closers ++ [c.src] }
  | .closed => (s.modWin w fun x => { x with cmd := 2 }).done c

/-- RELEASE (R281). -/
def winReleaseAt (c : Ctl) (w : Nat) (s : State) : State :=
  match (s.win w).state with
  | .free => (s.modWin w fun x => { x with cmd := 3 }).done c
  | .closed => (s.modWin w fun x => { x with state := .free, cmd := 3 }).done c
  | _ => s.deny c .nackState 0

/-- A write to `WIN_CTL` (R279). -/
def winCtlSet (c : Ctl) (w : Nat) (v : BitVec 64) (s : State) : State :=
  match bits v 0 2 with
  | 0 => s.winOnly c w fun s => (s.modWin w fun x => { x with cmd := 0 }).done c
  | 1 => winOpenAt c w s
  | 2 => s.winOnly c w (winCloseAt c w)
  | _ => s.winOnly c w (winReleaseAt c w)

/-- A window that its lake's power-down or reset closes (R281, R288). -/
def State.forceClose (s : State) (n : Nat) : State :=
  { s with wins := mapTab (fun _ => Win.reset) (fun _ x =>
      if x.lake.toNat = n && x.state = .open then { x with state := .closing, cause := 1, atClose := s.pw.now } else x) s.wins }

/-- An accepted write of a window still waits at its lake. -/
def winBusy (s : State) (x : Win) : Bool :=
  (s.lp x.lake.toNat).held.any fun h =>
    match h with
    | .access op _ _ _ w (some (_, w0)) _ => w.arrival.isSome && opWrites op && x.has (lRow (wordRow w0))
    | _ => false

/-- A window that has taken every write it accepted is CLOSED, and the CLOSEs that wait on it are acknowledged (R287). -/
def State.winDone (s : State) (w : Nat) (st : Status) : State :=
  let cs := (s.win w).closers
  cs.foldl (fun s c => s.reply c st) (s.modWin w fun x => { x with state := .closed, closers := [] })

/-- WIN_CLOSED (R287). -/
def execWinClosed (w : Fin 256) (s : State) : Host.Outcome State Fault Refusal :=
  let x := s.win w
  if x.state != .closing || winBusy s x then .next s else .next ((s.reach (x.atClose + 1)).winDone w .ok)

end Sys2Proof.Machine
end

