-- ==== Sys2Proof/Machine/Fences.lean ====
section
/-!
DEFINITION. Fences and kernel boundaries (R249, R250, R258 to R260).
-/
namespace Sys2Proof.Machine

/-- FENCE (R249): answered at once where nothing is outstanding, else it waits. Scope 3 orders nothing, and a slot without `VALID` has its
fence refused (R139). -/
def execFence (src : Src) (scope : Fin 4) (s : State) : Host.Outcome State Fault Refusal :=
  let w := whoOf s src.port
  let ws := engineAwaits s w.engine scope
  if s.absentNow && s.pw.deep = 0 then .next (s.emit (.fenceDone src.port src.tag .absent))
  else if s.slotDead src.port then .next ((s.reject .nackState w.pos w.pr (s.deadDetail src.port) 0).emit (.fenceDone src.port src.tag .nackState))
  else if scope = 3 then .next ((s.reject .nackState w.pos w.pr 0 0).emit (.fenceDone src.port src.tag .nackState))
  else if s.pw.deep = 0 && ws = [] then .next (s.emit (.fenceDone src.port src.tag .ok))
  else
    let (id, s) := s.fresh1
    .next { s with fences := s.fences ++ [⟨id, src, scope, ws⟩] }

/-- FENCE_COMPLETE (R249): every issue point has answered. -/
def execFenceComplete (id : Nat) (s : State) : Host.Outcome State Fault Refusal :=
  match s.fences.find? (·.id = id) with
  | none => .next s
  | some f =>
    if s.pw.deep != 0 || !settled s f.scope f.waits then .next s
    else .next ({ s with fences := s.fences.filter (·.id != id) }.emit (.fenceDone f.src.port f.src.tag .ok))

/-- Engines whose accesses a kernel boundary covers: those of this die, not the host (R259). -/
def ofDie (engine : Nat) : Bool := engine < 0x78 || engine = 0x7C || engine = 0x7D

/-- A write to `TM_KERNEL_END` (R258, R259): the boundary point. DEDUCED (assumption log 24). Of writes given in the boundary's own T-cycle
the one given first is the first by canal position, and a later one comes in the T-cycle after it, in which the boundary is in progress.
DESIGN CHOICE (assumption log 32). -/
def kernelEndSet (c : Ctl) (v : BitVec 64) (s : State) : State :=
  let s := if s.tm.kBusy then s.reach (s.tm.kPoint + 1) else s
  s.privOnly c fun s => s.unless0 c s.tm.kBusy fun s =>
    let cover := ((awaits s 2).filter (fun a => ofDie a.engine)).map (·.what)
    { s with tm := { s.tm with kEnd := BitVec.ofNat 16 v.toNat, kLast := BitVec.ofNat 16 v.toNat, kBusy := true, kPoint := s.pw.now, kCover := cover } }.done c

/-- KERNEL_BOUNDARY_DONE (R258, R259): every covered access has been performed with respect to SYSTEM, the second T-cycle after the
boundary point at the earliest, since the boundary is in progress throughout the first. -/
def execKernelBoundaryDone (s : State) : Host.Outcome State Fault Refusal :=
  if s.tm.kBusy && settled s 2 s.tm.kCover then
    let s := s.reach (s.tm.kPoint + 2)
    .next { s with tm := { s.tm with kBusy := false, kDone := true, kCover := [] } }
  else .next s

end Sys2Proof.Machine
end

