-- ==== Sys2Proof/Machine/Power.lean ====
section
/-!
DEFINITION. Levels and their changes (R333 to R338), and how a lake goes to IDLE, RET and OFF (R339 to R343).
-/
namespace Sys2Proof.Machine

/-! ### Performance levels (R333 to R337) -/

/-- The target level (R333). -/
def State.targetLevel (s : State) : Nat := max s.pw.req.toNat s.weir.limit

/-- `PWR_LEVEL_STAT` (R334). -/
def State.levelStat (s : State) : BitVec 32 :=
  pack 32 [(0, s.pw.cur), (3, s.targetLevel), (6, b2n s.pw.busy), (7, b2n s.pw.done), (8, b2n s.pw.drainTo), (9, s.pw.phase),
    (16, s.pw.lastDrain)]

/-- A level change has ended, completed or abandoned (R411). DEDUCED (assumption log 19). -/
def State.levelEvent (s : State) : State := s.event 0x11 s.levelStat

/-- A write to `PWR_LEVEL` (R334). A level given up under R337 may be tried again after it. -/
def levelReqSet (c : Ctl) (v : BitVec 64) (s : State) : State :=
  s.privOnly c fun s =>
    let r := bits v 0 3
    s.unless c [4 < r, s.pw.busy && r != s.pw.req.toNat] fun s =>
      { s with pw := { s.pw with req := BitVec.ofNat 3 r, goal := if s.pw.busy then s.pw.goal else s.pw.cur } }.done c

/-- LEVEL_CHANGE_START (R335, R337). A level that a drain could not reach is not tried again on its own. DEDUCED (assumption log 19). -/
def execLevelChangeStart (s : State) : Host.Outcome State Fault Refusal :=
  let t := s.targetLevel
  if s.pw.busy || t = s.pw.cur || t = s.pw.goal || !s.tm.ready || s.pw.deep != 0 || !s.pw.logOk || !s.pw.refOk then .next s
  else
    .next { s with pw := { s.pw with
      busy := true, goal := t, switching := false, stepNs := s.pw.ns
      phase := if t < s.pw.cur then 1 else 2
      drainAt := if t < s.pw.cur then s.pw.drainAt else s.pw.now + 1 } }

/-- A voltage moved by at most 10 mV towards another. -/
def stepMv (v t : Nat) : Nat := if v < t then min (v + 10) t else max (v - 10) t

/-- VOLTAGE_STEP (R327, R335): the array supply rises first and falls last; after the last step the drain begins, or the change
ends. -/
def execVoltageStep (s : State) : Host.Outcome State Fault Refusal :=
  if !(s.pw.busy && (s.pw.phase = 1 || s.pw.phase = 3)) then .next s
  else
    let arr := Config.vddArr s.pw.goal
    let log := Config.vddLog s.pw.goal
    let s := s.reachNs (s.pw.stepNs + 1000)
    let p := s.pw
    let arrFirst := if p.phase = 1 then p.arrMv != arr else p.logMv = log
    let a := if arrFirst then stepMv p.arrMv arr else p.arrMv
    let l := if arrFirst then p.logMv else stepMv p.logMv log
    let p := { p with arrMv := a, logMv := l, stepNs := s.pw.stepNs + 1000 }
    let there := a = arr ∧ l = log
    let p := if !there then p
      else if p.phase = 1 then { p with phase := 2, drainAt := p.now + 1, switching := false }
      else { p with phase := 0, busy := false, done := true }
    let s := { s with pw := p }.emit (.voltage a l)
    .next (if p.busy then s else s.levelEvent)

/-- Nothing is left to drain: no active grant, no pending write-back, no queued mark write, no packet on a ring (R336), no fill that has not
come back (R209). -/
def drained (s : State) : Bool :=
  s.arbs.all (fun e => !e.2.active) && s.lakes.all (fun e => e.2.wbs = [] && e.2.marks = []) && s.ring = [] && s.basin.fills = []

/-- DRAIN_COMPLETE (R336): no row request being between IS and DV, the divider switches. -/
def execDrainComplete (s : State) : Host.Outcome State Fault Refusal :=
  if !(s.pw.busy && s.pw.phase = 2) || s.pw.switching || !drained s then .next s
  else
    let s := s.reach (max s.pw.drainAt (s.lastDv fun _ => true))
    .next { s with pw := { s.pw with switching := true, lastDrain := min 0xFFFF (s.pw.now - s.pw.drainAt) } }

/-! ### A lake goes down (R340, R342) -/

def LkState.transit : LkState → Bool
  | .draining | .entering | .waking => true
  | _ => false

/-- A failed lake (R354). -/
def State.failedLake (s : State) (n : Nat) : Bool := bit s.tm.lakeFail n

/-- What waited for a wake proceeds (R341, R345). -/
def State.proceedAll (s : State) (hs : List Held) : State :=
  hs.foldl (fun s h => match h with
    | .take t op w => takeAt s w t op
    | h => s.proceed h) s

/-- Landing writes released as a lake goes down end with NACK_LAKE_OFF, a fault of their descriptors (R225, R342). DEDUCED (assumption
log 20). -/
def State.dropLandings (s : State) (n : Nat) (es : List Waiter) : State :=
  es.foldl (fun s e => match e.what with
    | .land q i =>
      match s.desc n q with
      | some d => s.badStatus n d .nackLakeOff (match pieceOf d i with | some p => s.globalOf p.own | none => 0)
      | none => s
    | _ => s) s

/-- A lake enters DRAINING (R342): requests accepted before are performed, windows close, takes are aborted with cause 4, waiters and
cue waits are released with NACK_LAKE_OFF. DEDUCED (assumption log 20). -/
def State.drainLake (s : State) (n : Nat) (toOff back : Bool) : State :=
  let hs := (s.lp n).held
  let s := if hs = [] then s else (s.modLp n fun x => { x with state := .on, waking := false, held := [] }).proceedAll hs
  let lands := (s.lake n).waiters.filter Waiter.lands
  let s := s.modLp n fun x =>
    { x with state := .draining, toOff := toOff, deepBack := back, waking := false, wakePend := false, due := s.pw.now + 1 }
  let s := (s.forceClose n).releaseWaiters n (fun _ => true) .nackLakeOff
  let s := (List.range 16).foldl (fun s t => s.endTake n t 4) s
  (s.dropLandings n lands).takeUp

/-- An enabled reel has its base in the lake, or the lake's Spring is bound (R340). -/
def State.pinned (s : State) (n : Nat) : Bool :=
  (s.spring n).bound || s.reels.any (fun e => e.2.enable && e.2.base.toNat / Config.rowsPerLake = n)

/-- No work keeps the lake awake (R341). -/
def lakeQuietForIdle (s : State) (n : Nat) : Bool :=
  let l := s.lake n
  let x := s.spring n
  (s.lp n).held = [] && l.wbs = [] && l.marks = [] && l.steps = [] && !(s.mte n).busy && !l.convBusy && !l.slBusy
    && !x.slots.any (fun y => !y.read) && !x.descs.any (·.stage = .flight)

/-- A lake that is asked for IDLE, or has been idle long enough, gates its clocks (R339, R341). DEDUCED (assumption log 20). -/
def State.goIdle (s : State) (n : Nat) : State :=
  if (s.lp n).state = .on && lakeQuietForIdle s n then s.modLp n fun x => { x with state := .idle, waking := false } else s

/-- The transition that an accepted change of `REQ_STATE` starts (R340). A RET lake asked for OFF enters OFF. DEDUCED (assumption log
20). -/
def State.moveLake (s : State) (n : Nat) (r : Nat) : State :=
  match (s.lp n).state, r with
  | .on, 1 => s.goIdle n
  | .idle, 0 => s.wakeIdle n
  | .on, 2 => s.drainLake n false false
  | .idle, 2 => s.drainLake n false false
  | .on, 3 => s.drainLake n true false
  | .idle, 3 => s.drainLake n true false
  | .ret, 3 => s.modLp n fun x => { x with state := .entering, toOff := true, wakePend := false, dueNs := s.pw.ns + 1000 }
  | .ret, 0 => s.wakeDown n false
  | .ret, 1 => s.wakeDown n false
  | .off, 0 => s.wakeDown n false
  | .off, 1 => s.wakeDown n false
  | _, _ => s

/-- A write to `PWR_LAKEn` (R340, R354). -/
def lakePowerSet (c : Ctl) (n : Nat) (v : BitVec 64) (s : State) : State :=
  s.privOnly c fun s =>
    let x := s.lp n
    let r := bits v 0 2
    let change : Bool := r != x.req.toNat
    s.unless c [change && x.state.transit, change && (s.mte n).busy, change && s.pw.deep != 0, change && r = 2 && x.state = .off,
        change && r = 3 && s.pinned n, r != 3 && s.failedLake n] fun s =>
      let s := s.modLp n fun x =>
        { x with req := BitVec.ofNat 2 r, autoIdle := bit v 2, wakeReq := bit v 3,
                 idleDelay := if bits v 16 16 = 0 then x.idleDelay else BitVec.ofNat 16 (bits v 16 16) }
      (if change then s.moveLake n r else s).done c

/-- What a draining lake still waits for (R342). DEDUCED (assumption log 20). -/
def lakeDrained (s : State) (n : Nat) : Bool :=
  let l := s.lake n
  l.wbs = [] && l.marks = [] && l.steps = [] && l.stepWait = [] && (List.range 16).all (fun t => (l.take t).state = .free) &&
  s.wins.all (fun e => !(e.2.lake.toNat = n && e.2.active)) && ((s.spring n).inFlight).all (s.quiet n)

/-- LAKE_DRAIN_COMPLETE (R342), once every request accepted before has reached DV. -/
def execLakeDrainComplete (n : Fin 24) (s : State) : Host.Outcome State Fault Refusal :=
  if !((s.lp n).state = .draining && lakeDrained s n) then .next s
  else
    let s := s.reach (max (s.lp n).due (s.lastDv fun k => k / 4 = n.val))
    .next (s.modLp n fun x => { x with state := .entering, dueNs := s.pw.ns + if x.toOff then 1000 else 2000 }).deepTimer

/-- LAKE_ENTRY_END (R342, R347): RET or OFF, and the wake that arrived meanwhile begins in the next T-cycle. -/
def execLakeEntryEnd (n : Fin 24) (s : State) : Host.Outcome State Fault Refusal :=
  if (s.lp n).state != .entering then .next s
  else
    let s := s.reachNs (s.lp n).dueNs
    let pend := (s.lp n).wakePend
    let s := s.modLp n fun x => { x with state := if x.toOff then .off else .ret, wakePend := false }
    .next (if pend then (s.reach (s.pw.now + 1)).wakeDown n true else s)

/-- AUTO_IDLE (R341). -/
def execAutoIdle (n : Fin 24) (s : State) : Host.Outcome State Fault Refusal :=
  let x := s.lp n
  if !(x.state = .on && (x.autoIdle || x.req = 1) && lakeQuietForIdle s n) then .next s
  else .next ((s.reach ((s.lake n).idleFrom + x.idleDelay.toNat)).goIdle n)

/-- IDLE_WAKE (R341). -/
def execIdleWake (n : Fin 24) (s : State) : Host.Outcome State Fault Refusal := .next (s.wakeIdle n)

/-- IDLE_WAKE_END (R341): the lake is ON, what waited proceeds, and waiters and landings whose rows allow it re-enter. During a level
change's drain what waited stays with the requests the drain holds, before those that came after it (R244, R336). -/
def execIdleWakeEnd (n : Fin 24) (s : State) : Host.Outcome State Fault Refusal :=
  if !((s.lp n).state = .idle && (s.lp n).waking) then .next s
  else
    let s := s.reach (s.lp n).due
    let hs := (s.lp n).held
    let s := s.modLp n fun x => { x with state := .on, waking := false, held := [] }
    let s := s.modLake n fun l => { l with idleFrom := s.pw.now }
    if s.draining then .next { s with pw := { s.pw with held := hs ++ s.pw.held } }
    else .next ((s.proceedAll hs).wakeLake n).takeUp

/-- LAKE_WAKE (R345, R347): a RET lake whose `WAKE_REQ` is 1 begins its wake; a lake on its way down remembers it. -/
def execLakeWake (n : Fin 24) (s : State) : Host.Outcome State Fault Refusal :=
  match (s.lp n).state with
  | .ret => .next (if (s.lp n).wakeReq then s.wakeDown n true else s)
  | .draining => .next (s.modLp n fun x => { x with wakePend := true })
  | .entering => .next (s.modLp n fun x => { x with wakePend := true })
  | _ => .next s

/-- Lakes named by a write to `PWR_WAKE`. -/
def wakeNamed (v : BitVec 64) : List Nat := (List.range 24).filter (fun n => bit v n)

/-- A write to `PWR_WAKE` (R346). -/
def pwrWakeSet (c : Ctl) (v : BitVec 64) (s : State) : State :=
  let ns := wakeNamed v
  if !(c.w.priv || ns.all (fun n => (s.lake n).owner = c.w.pr)) then s.nack c .nackOwner
  else
    s.unless0 c (ns.any (fun n => !Config.lakePresent s.variant n || (s.lp n).state = .off)) fun s =>
      (ns.foldl (fun s n =>
        match (s.lp n).state with
        | .idle => s.wakeIdle n
        | .ret => s.wakeDown n true
        | .draining => s.modLp n fun x => { x with wakePend := true }
        | .entering => s.modLp n fun x => { x with wakePend := true }
        | _ => s) s).done c

/-- MONITOR_UPDATE (R329). The power readings of the array, logic and AON supplies are summed for the weir's period (R116). -/
def execMonitorUpdate (m : Fin 4) (mv cur pwr : BitVec 16) (s : State) : Host.Outcome State Fault Refusal :=
  let v : BitVec 48 := pack 48 [(0, mv.toNat), (16, cur.toNat), (32, pwr.toNat)]
  let sum := Tab.get (fun _ => ((0 : Nat), (0 : Nat))) s.weir.pSum m
  let s := if m = 3 then s else
    { s with weir := { s.weir with pSum := Tab.set (fun _ => (0, 0)) s.weir.pSum m (sum.1 + pwr.toNat, sum.2 + 1) } }
  .next { s with pw := { s.pw with mon := Tab.set (fun _ => 0) s.pw.mon m v } }

/-- A write to `PWR_FTIME_OFS` (R332). -/
def ftimeSet (c : Ctl) (v : BitVec 64) (s : State) : State :=
  s.privOnly c fun s => { s with pw := { s.pw with ftimeOfs := v } }.done c

end Sys2Proof.Machine
end

