-- ==== Sys2Proof/Machine/March.lean ====
section
/-!
DEFINITION. The march test engine and repair (R365 to R377), and the initialisation of a lake's rows (R344, R352, R372).
-/
namespace Sys2Proof.Machine

/-! ### A lake's rows and its quiet -/

/-- Every row of a lake with zero data, fresh check bytes, no mark and the slate EMPTY (R344, R352, R372); nothing of an earlier
access is left at its ponds. -/
def State.initRows (s : State) (n : Nat) : State :=
  ((s.zeroRows (gRow n 0) (gRow (n + 1) 0)).clearTags (gRow n 0) (gRow (n + 1) 0)).modLake n fun l =>
    { l with steps := [], stepWait := [], wbs := [], marks := [] }

/-- Windows on a lake in OPEN or CLOSING; takes open on it (R128). -/
def windowsActive (s : State) (n : Nat) : Nat := countTrue (fun e => e.2.lake.toNat = n && e.2.active) s.wins
def takesOpen (s : State) (n : Nat) : Nat := countTrue (fun t => ((s.lake n).take t).state != .free) (List.range 16)

/-- A power-state transition of the lake is in progress (R128, R339). -/
def inTransit (s : State) (n : Nat) : Bool := (s.lp n).state.transit

/-- The lake is quiescent (R128). -/
def quiescent (s : State) (n : Nat) : Bool :=
  takesOpen s n = 0 && (s.lake n).waiters = [] && windowsActive s n = 0 && s.springIdle n && !inTransit s n && !(s.mte n).busy

/-! ### Runs (R366 to R368, R374, R375) -/

/-- Backgrounds of a run. -/
def backgrounds (bg : BitVec 4) : Nat := countTrue (fun i => bit bg i) [0, 1, 2, 3]

/-- T-cycles of the test phase (R368). -/
def testCycles (preserving : Bool) (nb : Nat) : Nat := if preserving then 3 * 520 * (3 + 11 * nb) + 16 else 5200 * nb + 16

/-- A run starts (R374, R375); what waited for the lake's wake is judged against the run. -/
def State.startMarch (s : State) (n : Nat) (preserving cold : Bool) (bg : BitVec 4) : State :=
  let s := s.modMte n fun m =>
    { m with mode := preserving, bg := bg, busy := true, phase := 1, modeRun := preserving, cold := cold, start := s.pw.now,
             due := s.pw.now + testCycles preserving (backgrounds bg), fails := [] }
  if cold then s
  else
    let hs := (s.lp n).held
    (s.modLp n fun x => { x with state := .on, waking := false, held := [] }).proceedAll hs

/-- A write to `MTE_CTL` (R374). -/
def marchSet (c : Ctl) (n : Nat) (v : BitVec 64) (s : State) : State :=
  s.privOnly c fun s =>
    let bg := BitVec.ofNat 4 (bits v 2 4)
    let st := (s.lp n).state
    if bit v 0 then
      s.unless c [(s.mte n).busy, bg = 0, s.failedLake n, !quiescent s n, !(st = .on || st = .idle), (s.lake n).convBusy,
          s.tm.lrBusy && s.tm.lrTarget = n, s.pw.deep != 0] fun s =>
        (s.startMarch n (bit v 1) false bg).done c
    else (s.modMte n fun m => { m with mode := bit v 1, bg := bg }).done c

/-- A write to `MTE_POND_SEL` (R377). -/
def pondSelSet (c : Ctl) (n : Nat) (v : BitVec 64) (s : State) : State :=
  s.privOnly c fun s => (s.modMte n fun m => { m with sel := if bits v 0 7 < 96 then bits v 0 7 else m.sel }).done c

/-- A run ends (R368, R377, R411). -/
def State.endMarch (s : State) (n result : Nat) : State :=
  let s := s.modMte n fun m =>
    { m with busy := false, done := true, phase := 0, result := result, cycles := min max32 (s.pw.now - m.start) }
  (s.modLake n fun l => { l with idleFrom := s.pw.now }).event 0x12 (pack 32 [(0, n), (8, result)])

/-- The rows of a preserving run are saved, restored and verified (R367): corrected rows are repaired, uncorrectable ones marked.
DEDUCED (assumption log 22). -/
def State.restoreRow (n : Nat) (s : State) (row : Nat) : State :=
  if lakeOf row = n then
    let t := s.tag row
    let s := if t.corr ≠ [] then s.foundCorr row t.corr 0 else s
    let s := if t.bad ≠ [] then s.foundBad none row t.bad 0 else s
    if t.mark then s
    else if t.bad ≠ [] then s.mark row (tagsBad (s.wMode row) t.bad)
    else s.setTag row { s.tag row with corr := [] }
  else s

/-- MARCH_TEST_DONE (R366, R367). DEDUCED (assumption log 22). -/
def execMarchTestDone (n : Fin 24) (fails : List FailCell) (s : State) : Host.Outcome State Fault Refusal :=
  if !((s.mte n).busy && (s.mte n).phase = 1) then .next s
  else
    let s := s.reach (s.mte n).due
    let s := if (s.mte n).modeRun then (s.rows.map (·.1)).foldl (State.restoreRow n) s else s
    .next (s.modMte n fun m => { m with phase := 2, due := s.pw.now + 64, fails := fails })

/-! ### Analysis (R369, R370) -/

def spareDefault : Nat → Spare := fun _ => Spare.reset
def pondDefault : Nat → PondRepair := fun _ => PondRepair.reset
def PondRepair.row (p : PondRepair) (i : Nat) : Spare := Tab.get spareDefault p.rows i
def PondRepair.col (p : PondRepair) (j : Nat) : Spare := Tab.get spareDefault p.cols j
def PondRepair.setRow (p : PondRepair) (i : Nat) (x : Spare) : PondRepair := { p with rows := Tab.set spareDefault p.rows i x }
def PondRepair.setCol (p : PondRepair) (j : Nat) (x : Spare) : PondRepair := { p with cols := Tab.set spareDefault p.cols j x }
def Mte.pond (m : Mte) (p : Nat) : PondRepair := Tab.get pondDefault m.repair p

/-- Bad spares are noted, and one that was in use is withdrawn (R370). -/
def withdrawBad (fails : List (Nat × Nat)) (p : PondRepair) : PondRepair :=
  let p := (List.range 8).foldl (fun p i =>
    if fails.any (fun e => e.1 = 512 + i) then p.setRow i { p.row i with bad := true, used := false, soft := false } else p) p
  (List.range 2).foldl (fun p j =>
    if fails.any (fun e => e.2 = 36 + j) then p.setCol j { p.col j with bad := true, used := false, soft := false } else p) p

/-- Cells that a withdrawn spare covered count as failing (R370). -/
def uncovered (old new : PondRepair) : List (Nat × Nat) :=
  ((List.range 8).map fun i =>
    if (old.row i).used && !(new.row i).used then (List.range 36).map fun g => ((old.row i).target, g) else []).flatten ++
  ((List.range 2).map fun j =>
    if (old.col j).used && !(new.col j).used then (List.range 512).map fun r => (r, (old.col j).target) else []).flatten

/-- The set F of R370: failing primary cells not covered by a good spare in use. -/
def failSet (fails : List (Nat × Nat)) (old p : PondRepair) : List (Nat × Nat) :=
  (fails ++ uncovered old p).filter fun e =>
    e.1 < 512 && e.2 < 36 && !(List.range 8).any (fun i => (p.row i).used && (p.row i).target = e.1) &&
    !(List.range 2).any (fun j => (p.col j).used && (p.col j).target = e.2)

def distinctRows (f : List (Nat × Nat)) : List Nat := (f.map (·.1)).eraseDups
def distinctCols (f : List (Nat × Nat)) : List Nat := (f.map (·.2)).eraseDups
def rowsIn (f : List (Nat × Nat)) (g : Nat) : Nat := (distinctRows (f.filter (·.2 = g))).length

/-- The group with the most distinct rows, the lowest on a tie. -/
def worstGroup (f : List (Nat × Nat)) : Nat :=
  (List.range 36).foldl (fun b g => if rowsIn f b < rowsIn f g then g else b) 0

def freeRows (p : PondRepair) : List Nat := (List.range 8).filter (fun i => !(p.row i).used && !(p.row i).bad)
def freeCols (p : PondRepair) : List Nat := (List.range 2).filter (fun j => !(p.col j).used && !(p.col j).bad)

/-- Spare groups are bound while the rows left exceed the free spare rows (R370); the bindings made are counted. -/
def bindCols : Nat → PondRepair → List (Nat × Nat) → Nat → PondRepair × List (Nat × Nat) × Nat
  | 0, p, f, k => (p, f, k)
  | fuel + 1, p, f, k =>
    match freeCols p with
    | [] => (p, f, k)
    | j :: _ =>
      if (freeRows p).length < (distinctRows f).length then
        let g := worstGroup f
        bindCols fuel (p.setCol j ⟨true, true, false, g⟩) (f.filter (·.2 != g)) (k + 1)
      else (p, f, k)

/-- Spare rows, lowest first, are bound to rows in ascending order. -/
def bindRows (p : PondRepair) (rows : List Nat) : PondRepair :=
  ((freeRows p).zip rows).foldl (fun p e => p.setRow e.1 ⟨true, true, false, e.2⟩) p

def sortedRows (l : List Nat) : List Nat := (List.range 512).filter l.contains

/-- The outcome of a pond's analysis: its repair, and without new bindings where it is unrepairable; rows to copy; whether F was
not empty. -/
structure Verdict where
  repair : PondRepair
  plain  : PondRepair
  unrep  : Bool
  copies : Nat
  hit    : Bool

/-- The analysis of one pond (R370). -/
def analyse (old : PondRepair) (fails : List (Nat × Nat)) : Verdict :=
  let p := withdrawBad fails old
  let f := failSet fails old p
  let p := { p with failRows := (distinctRows f).length, failCols := (distinctCols f).length }
  let r := bindCols 2 p f 0
  let rows := sortedRows (distinctRows r.2.1)
  let unrep := old.unrep || decide ((freeRows r.1).length < rows.length)
  ⟨bindRows r.1 rows, { p with unrep := unrep }, unrep, 520 * r.2.2 + rows.length, !f.isEmpty⟩

/-- The failing cells of one pond. -/
def pondFails (fs : List FailCell) (p : Nat) : List (Nat × Nat) := (fs.filter (·.pond.val = p)).map (fun c => (c.row.val, c.group.val))

/-- The lake is failed (R354, R373): OFF, its contents lost, one UNCORR record. DEDUCED (assumption log 22). -/
def State.failLake (s : State) (n : Nat) : State :=
  let s := { s with tm := { s.tm with lakeFail := s.tm.lakeFail ||| BitVec.ofNat 24 (2 ^ n) } }
  let s := (s.initRows n).modLp n fun x => { x with state := .off, req := 3, waking := false, held := [] }
  s.log 1 .uncorrectable (Config.lakePos n) ⟨0x7C, 0⟩ 0 (rowAddr (gRow n 0))

/-- ECC initialisation begins once the cold-start march of every present lake has ended (R352). -/
def State.coldStep (s : State) : State :=
  if s.tm.step = 5 && (List.range Config.lakes).all (fun n => !(s.mte n).busy) then
    { s with tm := { s.tm with step := 6, stepDue := s.pw.now + 528 } }
  else s

/-- MARCH_ANALYSIS_DONE (R370, R373): soft repairs are bound, or the lake is failed; then remap, initialisation or the end. -/
def execMarchAnalysisDone (n : Fin 24) (s : State) : Host.Outcome State Fault Refusal :=
  let m := s.mte n
  if !(m.busy && m.phase = 2) then .next s
  else
    let s := s.reach m.due
    let vs := (List.range 96).map fun p => (p, analyse (m.pond p) (pondFails m.fails p))
    if vs.any (·.2.unrep) then
      let s := s.modMte n fun m => { m with repair := vs.foldl (fun t e => Tab.set pondDefault t e.1 e.2.plain) m.repair }
      .next ((s.endMarch n 2).failLake n).coldStep
    else
      let result := b2n (vs.any (fun e => e.2.hit))
      let copies := vs.foldl (fun k e => max k e.2.copies) 0
      let s := s.modMte n fun m => { m with repair := vs.foldl (fun t e => Tab.set pondDefault t e.1 e.2.repair) m.repair, result := result }
      if m.modeRun && copies != 0 then .next (s.modMte n fun m => { m with phase := 3, due := s.pw.now + 2 * copies, remap := copies })
      else if m.modeRun || m.cold then .next (s.endMarch n result).coldStep
      else .next (s.modMte n fun m => { m with phase := 4, due := s.pw.now + 528 })

/-- MARCH_REMAP_DONE (R371). -/
def execMarchRemapDone (n : Fin 24) (s : State) : Host.Outcome State Fault Refusal :=
  let m := s.mte n
  if !(m.busy && m.phase = 3) then .next s else .next ((s.reach m.due).endMarch n m.result)

/-- MARCH_INIT_DONE (R372). -/
def execMarchInitDone (n : Fin 24) (s : State) : Host.Outcome State Fault Refusal :=
  let m := s.mte n
  if !(m.busy && m.phase = 4) then .next s else .next (((s.reach m.due).initRows n).endMarch n m.result)

/-! ### Fuse repair (R369) -/

/-- One fuse word applied: its entries bind spares, unless its check found a double-bit error. -/
def State.fuse (s : State) (w : FuseWord) : State :=
  let s := if w.bad then { s with tm := { s.tm with fuseErr := true } } else s
  s.modMte w.lake fun m =>
    let p := m.pond w.pond
    let p := if w.bad then { p with unrep := true }
      else
        let p := w.rows.foldl (fun p e => p.setRow e.1 ⟨true, false, false, e.2⟩) p
        w.cols.foldl (fun p e => p.setCol e.1 ⟨true, false, false, e.2⟩) p
    { m with repair := Tab.set pondDefault m.repair w.pond p }

/-- The march engine as a warm reset leaves it (R376, R377): repairs stay, a run in progress is abandoned. DEDUCED (assumption log 22).
-/
def Mte.warm (m : Mte) : Mte := { Mte.reset with repair := m.repair, result := if m.busy then 3 else 0 }

end Sys2Proof.Machine
end

