-- ==== Sys2Proof/Machine/Packets.lean ====
section
/-!
DEFINITION. Packets at the stops and on the rings of the canal (R64 to R69, R71, R74): which may be injected, where they travel, and how a
stop answers a request.
-/
namespace Sys2Proof.Machine

/-! ### Stops -/

def State.countCanal (s : State) (ev p : Nat) (label : Option Nat) (ccw : Option Bool) : State :=
  s.count { set := .canal, inst := 0, ev := ev, quals := [p], label := label, ccw := ccw }

def Stop.out (x : Stop) (ccw : Bool) : List Transit := if ccw then x.outCcw else x.outCw
def Stop.setOut (x : Stop) (ccw : Bool) (l : List Transit) : Stop := if ccw then { x with outCcw := l } else { x with outCw := l }
def Stop.starving (x : Stop) (ccw : Bool) : Bool := if ccw then x.starvCcw else x.starvCw
def Stop.setStarving (x : Stop) (ccw b : Bool) : Stop := if ccw then { x with starvCcw := b } else { x with starvCw := b }

/-- A packet of the same number and kind. -/
def samePacket (k l : Packet) : Bool := k.id = l.id && k.resp = l.resp

/-- The packet's direction (R69). -/
def packetCcw (k : Packet) : Bool := Config.goesCcw k.src k.dst

/-- Response packets that a row request's answer takes on the canal (R149, R154). -/
def askParts (a : RowAsk) : Nat := match a.op with | .xread ew _ => 8 / 2 ^ ew.val | _ => 1

/-! ### Positions of the rings (R64, R66, R67) -/

/-- The positions of a direction that leave stop `p` in T-cycle `x`, which are the same positions at every stop they pass. -/
def phase (ccw : Bool) (p x : Nat) : Nat := if ccw then (x + p) % 47 else (x + 47 - p % 47) % 47

/-- Packets on a direction's link that leaves a stop in T-cycle `x` (R64). -/
def onLink (s : State) (p : Nat) (ccw : Bool) (x : Nat) : List Transit :=
  s.ring.filter fun t => t.ccw = ccw && linkCycles x 1 p t = 1

/-- Of the four positions of a link, those that a stop may fill in T-cycle `x`: empty, and reserved for no other stop (R66, R67). -/
def freePlaces (s : State) (p : Nat) (ccw : Bool) (x : Nat) : Nat :=
  let here := onLink s p ccw x
  let kept := (s.stops.map fun e => if e.1 = p then 0 else
    countTrue (fun r => r.1 = ccw && r.2.1 = phase ccw p x && !here.any (·.k.id = r.2.2)) e.2.rsv).sum
  4 - here.length - kept

/-- A stop's injection arbiter has granted a master, or stands parked on it while no other master has a request there (R62, R77). -/
def granted (s : State) (k : Packet) (ccw : Bool) : Bool :=
  let a := s.arb (arbKey (.stop k.src ccw))
  a.last = k.idx.val && (a.active || !(s.stop k.src).held.any (fun h => h.ccw = ccw && !h.k.resp && h.k.idx != k.idx))

/-- A stop has space for the responses of a request in a direction (R66, R154); one that is outstanding already holds its space (R71). -/
def Stop.hasSpace (x : Stop) (ccw : Bool) (k : Packet) : Bool :=
  (x.out ccw).any (·.k.id = k.id) || ((x.out ccw).map (·.k.parts)).sum + k.parts ≤ 64

/-- Packets of a stop that go before a request in its direction: responses, packets of the trickle path, and earlier requests of its own
engine (R66, R72, R211). -/
def Stop.waitsFor (x : Stop) (ccw : Bool) (k : Packet) : Bool :=
  let mine := x.held.filter fun h => h.ccw = ccw && h.k.src != h.k.dst
  mine.any (fun h => h.k.resp || (h.k.trickle && !k.trickle)) ||
  (mine.takeWhile (fun h => !samePacket h.k k)).any (fun h => h.k.idx = k.idx && h.k.trickle = k.trickle)

/-- A packet may enter a ring in T-cycle `t`: the stop has not spent its rate, a position passes empty, and a request is granted, has
space for its response, is behind no other, and no level change drains the stops (R65, R66, R72, R77, R336). -/
def mayInject (s : State) (k : Packet) (ccw : Bool) (t : Nat) : Bool :=
  countTrue (fun u => u.k.src = k.src && u.ccw = ccw && u.at_ = t) s.ring < Config.stopRate k.src
  && 0 < freePlaces s k.src ccw (t + 3)
  && (k.resp || (!s.draining && granted s k ccw && (s.stop k.src).hasSpace ccw k && !(s.stop k.src).waitsFor ccw k))

/-- The packet as its stop holds it, with the T-cycle in which its request was issued: held for injection, outstanding, or new. -/
def State.asHeld (s : State) (k : Packet) (ccw : Bool) (t : Nat) : Packet × Int :=
  let x := s.stop k.src
  match x.held.find? (samePacket ·.k k), if k.resp then none else (x.out ccw).find? (·.k.id = k.id) with
  | some h, _ => (h.k, h.iss)
  | none, some h => (h.k, h.iss)
  | none, none => (k, (t : Int) - k.age)

/-- A packet enters a ring in T-cycle `t`; a request stays among the stop's outstanding requests until its response arrives. The stop's
starvation and its reservations in that direction are over. DESIGN CHOICE (assumption log 11). -/
def State.enterRing (s : State) (k : Packet) (iss : Int) (ccw : Bool) (t : Nat) : State :=
  let u : Transit := ⟨k, ccw, t, iss⟩
  let s := s.modStop k.src fun x =>
    let x := { x.setStarving ccw false with held := x.held.filter (fun h => !samePacket h.k k), rsv := x.rsv.filter (·.1 != ccw) }
    if k.resp || (x.out ccw).any (·.k.id = k.id) then x else x.setOut ccw (x.out ccw ++ [u])
  { s with ring := s.ring ++ [u] }.countCanal 0x61 k.src (some k.label) (some ccw)

/-- A packet is injected in T-cycle `t`, or held by its stop until a position passes empty (R66). -/
def State.launch (s : State) (k0 : Packet) (t : Nat) : State :=
  let ccw := packetCcw k0
  let (k, iss) := s.asHeld k0 ccw t
  if mayInject s k ccw t then s.enterRing k iss ccw t
  else if (s.stop k.src).held.any (samePacket ·.k k) then s
  else s.modStop k.src fun x => { x with held := x.held ++ [⟨k, ccw, t, iss⟩] }

/-! ### Responses (R66, R71, R74) -/

/-- Responses that a request takes have come, `n` of them: with the last it is no longer outstanding (R66, R154). -/
def closeOut (id n : Nat) (l : List Transit) : List Transit :=
  (l.map fun t => if t.k.id = id then { t with k := { t.k with parts := t.k.parts - n } } else t).filter
    fun t => t.k.id != id || t.k.parts != 0

/-- A response reaches its source stop (R66, R71): its engine has it. -/
def State.closePacket (s : State) (p id n : Nat) : State :=
  s.modStop p fun x => { x with outCw := closeOut id n x.outCw, outCcw := closeOut id n x.outCcw }

/-- The source stop has a RETRY for a request, which it will issue again once the backoff has expired (R71, R90). -/
def State.keepCopy (s : State) (k : Packet) (b : Nat) : State :=
  s.modStop k.src fun x => { x with copies := x.copies.filter (·.1.id != k.id) ++ [(k, s.pw.now + b)] }

/-- A response packet is delivered at its source stop; a RETRY stays there (R66, R71, R73). -/
def State.deliver (s : State) (k : Packet) : State :=
  if k.st = .retry then
    match ((s.stop k.dst).outCw ++ (s.stop k.dst).outCcw).find? (·.k.id = k.id) with
    | some t => s.keepCopy t.k k.backoff
    | none => s
  else (s.closePacket k.dst k.id k.parts).emit (.packet k.dst k.id k.st k.data k.backoff)

/-- The stop that a request packet has reached answers it itself, from the T-cycle after E3 on (R71, R74, R316); to its own Spring, straight
back (R68). -/
def State.sendResponse (s : State) (k : Packet) (st : Status) (b : Nat) : State :=
  let r : Packet := { k with
    src := k.dst, dst := k.src, resp := true, st := st, backoff := b, trickle := false
    data := if st = .absent then absentData k.ask.op k.ask.words else [] }
  if k.src != k.dst then s.launch r (s.pw.now + 1)
  else if st = .retry then s.keepCopy k b
  else s.emit (.packet k.dst k.id st r.data b)

/-- The request packet that an entry of the arrival queue at a stop carried. -/
def QEntry.packet (e : QEntry) (p : Nat) : Packet :=
  { id := e.id, src := Fin.ofNat 47 e.src, dst := Fin.ofNat 47 p, resp := false, idx := Fin.ofNat 47 e.idx, label := e.label, ask := e.ask
    row := e.row, parts := askParts e.ask }

end Sys2Proof.Machine
end

