-- ==== Sys2Proof/Machine/Reset.lean ====
section
/-!
DEFINITION. Bring-up and the resets (R352 to R361): what each ends, what each keeps, and how the block starts.
-/
namespace Sys2Proof.Machine

/-! ### What a reset ends (R357) -/

/-- A pending write-back is never performed: its row is as it was before (R357). DEDUCED (assumption log 9). -/
def State.undoWb (s : State) (b : WriteBack) : State :=
  let s := s.putWords b.row b.undo
  s.setTag b.row { s.tag b.row with corr := b.corr, bad := b.bad, mark := b.mark }

/-- What waits at a stop, a port or a lake is answered with ABSENT (R225, R357, R362). -/
def State.answerAbsent (s : State) (h : Held) : State :=
  match h with
  | .access op q d _ w _ _ => s.respond w none op q d .absent (absentData op q.words) s.pw.now 0 0
  | .reg src _ size v _ _ => if v.isSome then s.reply src .absent else s.answerRead src .absent size 0
  | .take t _ _ => s.answer t .absent 4

def State.answerAll (s : State) (hs : List Held) : State := hs.foldl State.answerAbsent s

/-- The reset point at a lake (R225, R325, R357): write-backs are dropped, newest first, queued mark writes performed, and what waits is
answered with ABSENT. -/
def State.dropLake (s : State) (n : Nat) : State :=
  let s := (s.lake n).wbs.reverse.foldl State.undoWb s
  let s := (s.lake n).marks.foldl (fun s m => s.mark m.row m.stale) s
  let s := s.modLake n fun l => { l with wbs := [], marks := [] }
  let hs := (s.lp n).held
  let s := (s.modLp n fun x => { x with held := [] }).answerAll hs
  s.releaseWaiters n (fun _ => true) .absent

/-- The range steps taken are applied, and every row still RESERVED becomes STALE (R219, R360). -/
def State.staleRows (s : State) (n : Nat) : State :=
  let rows := ((s.lake n).steps.map (fun st => st.sets.map (·.1))).flatten
  let s := rows.foldl State.settle s
  { s with rows := mapTab (fun _ => RowTag.reset) (fun r t => if lakeOf r = n && t.slate = .reserved then { t with slate := .stale } else t) s.rows }

/-! ### Per-lake reset (R359, R360) -/

/-- A lake's page as a per-lake reset leaves it (R120, R144, R169, R241, R325): protection, scrub, error counts, shore splits and arbiter sets
stay. -/
def Lake.afterReset (l : Lake) : Lake :=
  { l with owner := mgmtPrincipal, share := 0, slBusy := false, slWho := none, forceRne := false, fInvalid := false, fOverflow := false,
           iOverflow := false, srForced := false, srSeed := 0, takes := [], waiters := [], steps := [], stepWait := [],
           billLabel := 0, billEn := false, tokens := 96 }

/-- A Spring as a reset leaves it (R192, R196, R213): the bytes discarded, the trickle descriptors counted, and through a per-lake reset
the faults deferred stay. -/
def Spring.afterReset (x : Spring) : Spring := { Spring.reset with discard := x.discard, trkDesc := x.trkDesc, deferred := x.deferred }
def Spring.warm (x : Spring) : Spring := { x.afterReset with deferred := [] }

/-- Windows on the lake are CLOSED with `CAUSE` 2, and CLOSEs that wait get ABSENT (R289). -/
def State.closeForReset (s : State) (n : Nat) : State :=
  let mine := s.wins.filter (fun e => e.2.lake.toNat = n && e.2.active)
  mine.foldl (fun s e => (s.winDone e.1 .absent).modWin e.1 fun x => { x with cause := 2 }) s

/-- A save or restore whose record lies in a lake in reset ends with ABSENT; a save leaves `VALID` 0 (R144). -/
def State.voidContext (s : State) (n : Nat) : State :=
  let v := if s.tm.ctxIsSave then s.tm.ctxSave else s.tm.ctxRestore
  let x := bits v 0 9
  if !s.tm.ctxBusy || bits v 9 35 * 512 / Config.lakeBytes != n then s
  else
    let s := if s.tm.ctxIsSave then s.invalidSlot x else s
    { s with tm := { s.tm with ctxBusy := false, ctxStatus := Status.absent.code } }

/-- The requests in the arrival queue of a lake's C shore end with ABSENT, and what its stop has refused is forgotten (R91, R120, R357). -/
def State.emptyQueue (s : State) (p : Nat) : State :=
  let q := (s.stop p).queue
  let s := s.modStop p fun x => { x with queue := [], refused := [] }
  q.foldl (fun s e => s.sendResponse (e.packet p) .absent 0) s

/-- Data of fills in flight for a Spring will be dropped (R209). -/
def Basin.forget (b : Basin) (n : Nat) : Basin :=
  { b with fills := b.fills.map fun f => { f with reqs := f.reqs.filter (·.1 != n) } }

/-- The reset point of a per-lake reset and what follows it up to its end (R360). -/
def State.resetLake (s : State) (n : Nat) : State :=
  let s := ((((s.dropLake n).staleRows n).closeForReset n).voidContext n).emptyQueue (Config.lakePos n)
  let s := (s.modLake n fun l => { l.afterReset with inReset := true }).modSpring n Spring.afterReset
  let s := { s with
    reels := mapTab (fun _ => Reel.reset) (fun _ r => if r.base.toNat / Config.rowsPerLake = n then { r with enable := false } else r) s.reels
    ctxs := Tab.eraseRange s.ctxs (80 + 8 * n) (88 + 8 * n)
    arbs := Tab.eraseRange s.arbs (16 * n) (16 * n + 16)
    backoff := s.backoff.filter fun e => match e.1.1 with
      | .waiters m => m.val != n
      | .arrival p => p.val != Config.lakePos n
    basin := s.basin.forget n
    inPond := s.inPond.filter (·.1 / 4 != n)
    inbox := s.inbox.filter (·.n != n)
    tm := { s.tm with lrWait := false, lrDue := s.pw.now + 529 } }
  s.takeUp

/-- A write to `TM_LAKE_RESET` (R356, R359); the absence of the lake it names comes first (R15). -/
def lakeResetSet (c : Ctl) (v : BitVec 64) (s : State) : State :=
  let n := bits v 0 5
  let st := (s.lp n).state
  if !Config.lakePresent s.variant n then s.nack c .absent
  else s.privOnly c fun s =>
    s.unless c [s.tm.lrBusy, s.failedLake n, st = .ret || st = .off || st = .draining || st = .entering, (s.mte n).busy,
        (s.lake n).convBusy] fun s =>
      let s := { s with tm := { s.tm with lrLake := BitVec.ofNat 5 n, lrTarget := n, lrBusy := true, lrWait := decide (st = LkState.waking) } }
      (if st = LkState.waking then s else s.resetLake n).done c

/-- LAKE_RESET_DONE (R360). -/
def execLakeResetDone (s : State) : Host.Outcome State Fault Refusal :=
  if !s.tm.lrBusy || s.tm.lrWait then .next s
  else
    let n := s.tm.lrTarget
    let s := s.reach s.tm.lrDue
    let s := (s.modLake n fun l => { l with inReset := false, idleFrom := s.pw.now }).modLp n fun x => { x with state := .on, waking := false }
    .next { s with tm := { s.tm with lrBusy := false, lrDone := true } }

/-! ### Warm and cold reset -/

/-- Every request in progress ends with ABSENT (R225, R357, R362). -/
def State.dropAll (s : State) : State :=
  let s := (List.range Config.lakes).foldl State.dropLake s
  let hs := s.pw.held ++ (s.hostHeld.map (·.parts)).flatten ++ s.hostRetry ++ (s.signals.map (·.after)).flatten
  let s := { s with pw := { s.pw with held := [] }, hostHeld := [], hostRetry := [] }
  let s := s.answerAll hs
  let cs := (s.wins.map (fun e => e.2.closers)).flatten ++ s.signals.map (·.src)
  let s := cs.foldl (fun s c => s.reply c .absent) s
  { s with signals := [], flights := [], inbox := [], ring := [], stops := [], arbs := [], backoff := [], remotes := [], group := [], ps := ⟨[], []⟩,
           inPond := [], hostReads := [] }

/-- The lake keeps its contents through a warm reset, as a lake in RET (R358). -/
def LakePower.asRet (x : LakePower) : Bool :=
  match x.state with
  | .ret => true
  | .draining => !x.toOff
  | .entering => !x.toOff
  | .waking => !x.fromOff
  | _ => false

/-- A lake's page after a warm reset (R144, R169, R241, R325, R434): the generator runs on and `SKIPPED` stays; a lake in RET keeps its
protection mode, scrub and error counts too, and its next wake sweeps its rows. -/
def Lake.warm (l : Lake) (asRet : Bool) : Lake :=
  let z : Lake := { Lake.reset with draws := l.draws, mixes := l.mixes, skipped := l.skipped }
  if asRet then
    { z with wMode := l.wMode, scrubInt := l.scrubInt, scrubEn := l.scrubEn, nextRow := l.nextRow, passes := l.passes,
             scrubFrom := l.scrubFrom, scrubDue := l.scrubDue, corrected := l.corrected, uncorr := l.uncorr, poison := l.poison,
             injRow := l.injRow, injArm := l.injArm, injKind := l.injKind, injUnit := l.injUnit, wakeSweep := true }
  else z

/-- The weir after a warm reset (R120): the word counts and late counts stay. -/
def Weir.warm (w : Weir) : Weir :=
  { Weir.reset with lwords := w.lwords, late := mapTab (fun _ => Late.reset) (fun _ l => { l with since := none, pending := 0 }) w.late }

/-- The error log after a warm reset (R325): ring, first record and lost counts stay. DEDUCED (assumption log 23). -/
def ErrLog.warm (e : ErrLog) : ErrLog :=
  { ErrLog.reset with lost := e.lost, firstV := e.firstV, head := e.head, tail := e.tail, lostC := e.lostC, first := e.first,
                      ring := e.ring, lastIbi := e.lastIbi }

/-- The global block after a warm reset (R33, R354, R355): the endpoint, the failed lakes and the count of warm resets stay. DEDUCED
(assumption log 23). -/
def Global.warm (g : Global) : Global :=
  { Global.reset with fuseErr := g.fuseErr, lakeFail := g.lakeFail, pkgDie := g.pkgDie, epId := g.epId, epValid := g.epValid,
                      rstCause := g.rstCause, warmCount := g.warmCount, ready := g.ready, step := g.step, stepDue := g.stepDue }

/-- The control state that a warm reset sets to its reset values in every unit but the lakes' power (R358, R393, R196, R209, R241, R289,
R377). DEDUCED (assumption log 23). -/
def State.warmControl (s : State) (asRet : Nat → Bool) : State :=
  { s with
    lakes := (List.range Config.lakes).foldl (fun t n => Tab.set (fun _ => Lake.reset) t n ((s.lake n).warm (asRet n))) s.lakes
    springs := mapTab (fun _ => Spring.reset) (fun _ x => x.warm) s.springs
    mtes := mapTab (fun _ => Mte.reset) (fun _ m => m.warm) s.mtes
    arbs := []
    backoff := []
    stops := []
    stopCfg := []
    cues := []
    wins := []
    reels := []
    ctxs := []
    basin := Basin.reset
    weir := s.weir.warm
    err := s.err.warm
    cnt := { Counters.reset with epoch := satAdd max32 s.cnt.epoch 1 }
    tm := s.tm.warm }

/-- The sequencer is in reset until `READY`; its boot store, update record and settings stay (R352, R424, R426). -/
def Fw.halt (f : Fw) : Fw :=
  { f with running := false, starting := false, startNs := 0, sibValid := false, sibTrial := false, sibIface := 0 }

/-- Range steps already taken are applied to the rows of a lake that keeps them (R219). -/
def State.staleSteps (s : State) (n : Nat) : State :=
  (((s.lake n).steps.map (fun st => st.sets.map (·.1))).flatten).foldl State.settle s

/-- The reset point of a warm reset (R358). A level change is given up at the level in force; a lake in RET, or on its way there, keeps
its rows. DEDUCED (assumption log 23). -/
def State.warmReset (s : State) (cause : Nat) : State :=
  let s := s.dropAll
  let keep (n : Nat) : Bool := (s.lp n).asRet
  let s := (List.range Config.lakes).foldl (fun s n => if keep n then s.staleSteps n else s) s
  let s := s.warmControl keep
  { s with
    pw := { s.pw with busy := false, done := false, drainTo := false, phase := 0, goal := s.pw.cur, lastDrain := 0, switching := false
                      arrMv := Config.vddArr s.pw.cur, logMv := Config.vddLog s.pw.cur, deep := 0, deepPend := false, deepTimed := false }
    lpow := mapTab (fun _ => LakePower.reset) (fun _ x => { x with nacks := 0, wakePend := false, deepBack := x.state = .waking && x.fromOff, waking := false }) s.lpow
    fw := s.fw.halt
    tm := { s.tm with ready := false, step := 9, stepDue := s.pw.now + 528, rstCause := cause, warmCount := satAdd max32 s.tm.warmCount 1 } }

/-- A warm reset is asked for (R356): it merges with one that runs. During cold bring-up it changes nothing. DEDUCED (assumption log
23). -/
def State.askWarm (s : State) (cause : Nat) : State := if s.tm.step != 0 || !s.tm.aonUp then s else s.warmReset cause

/-- WARM_RESET_PIN (R358). -/
def execWarmResetPin (s : State) : Host.Outcome State Fault Refusal := .next (s.askWarm 1)

/-- A write to `TM_RESET` (R356). -/
def resetSet (c : Ctl) (v : BitVec 64) (s : State) : State :=
  s.privOnly c fun s => if bit v 0 then (s.done c).askWarm 2 else s.done c

/-- `TM_STATUS` (R355). -/
def State.tmStatus (s : State) : BitVec 32 :=
  pack 32 [(0, b2n s.tm.ready), (1, s.tm.step), (5, b2n s.tm.fuseErr), (8, s.tm.lakeFail.toNat)]

/-- `READY` is set (R352, R358, R411). -/
def State.setReady (s : State) : State :=
  let s := { s with tm := { s.tm with ready := true, step := 0 } }
  s.event 0x10 s.tmStatus

/-- The lakes that are ON or IDLE are initialised and IDLE; a failed lake stays OFF. -/
def State.initLakes (s : State) : State :=
  (List.range (Config.lakeCount s.variant)).foldl (fun s n =>
    if (s.lp n).state.down || s.failedLake n then s
    else
      let s := s.initRows n
      (s.modLake n fun l => { l with scrubFrom := s.pw.now, idleFrom := s.pw.now }).modLp n fun x => { x with state := .idle, waking := false }) s

/-- WARM_REINIT_DONE (R358). -/
def execWarmReinitDone (s : State) : Host.Outcome State Fault Refusal :=
  if s.tm.step != 9 then .next s else .next ((s.reach s.tm.stepDue).initLakes).setReady

/-- The sequencer's store through a cold reset (R426): a stopped sequencer may start again; a schedule is cancelled. -/
def Fw.cold (f : Fw) : Fw :=
  { f.halt with stopped := false, state := if f.state = .scheduled && !f.fired then .staged else f.state }

/-- Meter time (R437). -/
def State.meterNow (s : State) : Nat := s.meter.time + (s.pw.ns - s.meter.base)

/-- The meter's time goes on where the timestamp starts anew (R356). -/
def State.meterRebase (s : State) : Meter := { s.meter with time := s.meterNow, base := 0 }

/-- COLD_RESET (R352, R353): the block loses everything but the meter and the boot store; the generators are seeded afresh, so no draw
of theirs repeats. DEDUCED (assumption log 4). -/
def execColdReset (s : State) : Host.Outcome State Fault Refusal :=
  let s := s.dropAll
  .next { State.reset with
    pending := s.pending
    variant := s.variant
    lakes := mapTab (fun _ => Lake.reset) (fun _ l => { Lake.reset with draws := l.draws }) s.lakes
    pw := { Power.reset with logOk := false }
    tm := { Global.reset with aonUp := false, step := 1, pkgDie := s.tm.pkgDie }
    fences := s.fences
    clientsOff := s.clientsOff
    fw := s.fw.cold
    i3c := { I3c.reset with inst := s.i3c.inst }
    meter := { s.meterRebase with restart := true }
    nextId := s.nextId
    fresh := s.fresh
    out := s.out }

/-- AON_RELEASE (R352, R353): the supplies having risen, step 3 begins and `PWR_TIME` starts from 0. DEDUCED (assumption log 4). -/
def execAonRelease (s : State) : Host.Outcome State Fault Refusal :=
  if s.tm.aonUp then .next s
  else .next { s with pw := Power.reset, meter := s.meterRebase, tm := { s.tm with aonUp := true, step := 3 } }

/-- PLL_LOCK (R352): the clocks start, and fuse repair takes 8,192 M-cycles. DEDUCED (assumption log 4). -/
def execPllLock (s : State) : Host.Outcome State Fault Refusal :=
  if s.tm.step != 3 then .next s
  else .next { s with tm := { s.tm with step := 4, stepDueNs := s.pw.ns + 32768 } }

/-- FUSE_REPAIR_DONE (R352, R368, R369): the repair words are applied, and every present lake is marched. DEDUCED (assumption log 4). -/
def execFuseRepairDone (ws : List FuseWord) (s : State) : Host.Outcome State Fault Refusal :=
  if s.tm.step != 4 then .next s
  else
    let s := s.reachNs s.tm.stepDueNs
    let s := (ws.filter (fun w => Config.lakePresent s.variant w.lake)).foldl State.fuse s
    let s := { s with tm := { s.tm with step := 5 } }
    .next ((List.range (Config.lakeCount s.variant)).foldl (fun s n => s.startMarch n false true 0xF) s)

/-- ECC_INIT_DONE (R352): rows initialised, lakes IDLE, and in the next T-cycle `READY`. DEDUCED (assumption log 4). -/
def execEccInitDone (s : State) : Host.Outcome State Fault Refusal :=
  if s.tm.step != 6 then .next s
  else
    let s := (s.reach s.tm.stepDue).initLakes
    .next (s.reach (s.pw.now + 1)).setReady

/-- VDD_LOG_LOSS (R362): outside DEEP, requests at the ports are answered with ABSENT from now on. -/
def execVddLogLoss (s : State) : Host.Outcome State Fault Refusal :=
  if s.pw.deep = 2 then .next s
  else .next { s.dropAll with pw := { s.dropAll.pw with logOk := false } }

/-! ### The end of a lake's wake (R344, R345, R358, R359) -/

/-- LAKE_WAKE_END (R344): a lake that was OFF is initialised; one whose sweep a warm reset left does it now; the lake takes its requested
state and what waited proceeds, unless a per-lake reset waits for this moment. -/
def execLakeWakeEnd (n : Fin 24) (s : State) : Host.Outcome State Fault Refusal :=
  if (s.lp n).state != .waking then .next s
  else
    let s := s.reachNs (s.lp n).dueNs
    let s := if (s.lp n).fromOff then (s.reach (s.pw.now + 528)).initRows n
      else if (s.lake n).wakeSweep then (s.reach (s.pw.now + 528)).staleRows n
      else s
    let s := s.modLake n fun l => { l with wakeSweep := false, idleFrom := s.pw.now, steps := if l.wakeSweep then [] else l.steps }
    let on : Bool := (s.lp n).req = 0 && !(s.lp n).deepBack
    let s := s.modLp n fun x => { x with state := if on then .on else .idle, waking := false, deepBack := false }
    if s.tm.lrWait && s.tm.lrTarget = n.val then .next ((s.reach (s.pw.now + 1)).resetLake n)
    else if on then
      let hs := (s.lp n).held
      let s := s.modLp n fun x => { x with held := [] }
      if s.draining then .next { s with pw := { s.pw with held := hs ++ s.pw.held } }
      else .next ((s.proceedAll hs).wakeLake n).takeUp
    else .next (if (s.lp n).held = [] then s else s.wakeIdle n)

end Sys2Proof.Machine
end

