-- ==== Sys2Proof/Machine/ErrorLog.lean ====
section
/-!
DEFINITION. Pond maintenance (R43, R311, R314, R315), protection modes (R303, R307), the error log (R320 to R323) and error
injection (R324).
-/
namespace Sys2Proof.Machine

/-! ### Write-backs, marks and scrub -/

/-- WRITE_BACK (R43, R324): the oldest write-back due at the row is performed; the row already holds its data, and an armed error is applied
to fresh check bytes. -/
def execWriteBack (row : Nat) (s : State) : Host.Outcome State Fault Refusal :=
  let n := lakeOf row
  match (s.lake n).wbs.find? (·.row = row) with
  | none => .next s
  | some b =>
    let s := ((s.reach b.due).countLake n 0x07).pondCycle row
    let s := s.modLake n fun l => { l with wbs := l.wbs.erase b }
    .next (if b.fresh then s.inject row else s)

/-- MARK_WRITE (R311). -/
def execMarkWrite (row : Nat) (s : State) : Host.Outcome State Fault Refusal :=
  let n := lakeOf row
  match (s.lake n).marks.find? (·.row = row) with
  | none => .next s
  | some m => .next (((s.pondCycle row).modLake n fun l => { l with marks := l.marks.erase m }).mark row m.stale)

/-- The patrol scrub of a lake runs (R314, R315). -/
def scrubRuns (s : State) (n : Nat) : Bool :=
  ((s.lp n).state = .on || (s.lp n).state = .idle) && !(s.mte n).busy && !(s.lake n).convBusy && !(s.lake n).inReset && s.tm.ready

/-- SCRUB_DUE (R314). -/
def execScrubDue (n : Fin 24) (s : State) : Host.Outcome State Fault Refusal :=
  let l := s.lake n
  if !(l.scrubEn && scrubRuns s n) then .next s
  else
    let s := s.reach (l.scrubFrom + 2 ^ l.scrubInt.toNat)
    let last : Bool := l.nextRow + 1 = Config.rowsPerLake
    .next (s.modLake n fun l =>
      { l with scrubDue := l.scrubDue ++ [(gRow n l.nextRow, s.pw.now)], scrubFrom := s.pw.now
               nextRow := if last then 0 else l.nextRow + 1, passes := if last then satAdd max32 l.passes 1 else l.passes })

/-- A scrub read takes its pond (R314): it checks the row, and changes no slate. -/
def State.scrub (s : State) (row : Nat) : State :=
  let n := lakeOf row
  let (_, t) := s.before row none
  let s := s.modLake n fun l => { l with scrubDue := l.scrubDue.filter (·.1 != row) }
  let s := ((((s.alone row).settle row).countLake n 0x04).countLake n 0x08)
  s.checkRow none row 1 t none

/-- A queued mark write of the pond, or a write-back that is due, goes before any scrub read (R48, R311). -/
def pondPledged (s : State) (row : Nat) : Bool :=
  let l := s.lake (lakeOf row)
  l.wbs.any (fun b => pondOf b.row = pondOf row && b.due ≤ s.pw.now) || l.marks.any (fun m => pondOf m.row = pondOf row)

/-- A shore request of the present PS cycle wants the pond (R48). -/
def pondWanted (s : State) (row : Nat) : Bool := s.ps.rows.any fun r => lakeOf r = lakeOf row && pondOf r = pondOf row

/-- A due scrub read is performed once it has waited `wait` T-cycles (R48); in an IDLE lake the clock is ungated first (R341). One that is not
forced takes a cycle that no other contender wants. -/
def scrubAfter (row wait : Nat) (s : State) : State :=
  let n := lakeOf row
  match (s.lake n).scrubDue.find? (·.1 = row) with
  | none => s
  | some d =>
    if s.draining || !scrubRuns s n || pondPledged s row then s
    else
      let s := s.reach (d.2 + wait + if (s.lp n).state = .idle then 20 else 0)
      (if wait = 0 && pondWanted s row then { s.elapse 1 with ps := ⟨[], []⟩, group := [] } else s).scrub row

/-- SCRUB_READ (R48, R314). -/
def execScrubRead (row : Nat) (s : State) : Host.Outcome State Fault Refusal := .next (scrubAfter row 0 s)
/-- SCRUB_FORCED (R48, R314). -/
def execScrubForced (row : Nat) (s : State) : Host.Outcome State Fault Refusal := .next (scrubAfter row 4096 s)

/-- A write to `LK_SCRUB` (R314). -/
def scrubSet (c : Ctl) (n : Nat) (v : BitVec 64) (s : State) : State :=
  s.privOnly c fun s =>
    (s.modLake n fun l =>
      let i := if 12 ≤ bits v 0 5 && bits v 0 5 ≤ 30 then BitVec.ofNat 5 (bits v 0 5) else l.scrubInt
      { l with scrubInt := i, scrubEn := bit v 5
               scrubFrom := if i != l.scrubInt || (bit v 5 && !l.scrubEn) then s.pw.now else l.scrubFrom }).done c

/-! ### Protection modes (R303, R307) -/

/-- One row of a conversion: a corrected row is counted, an uncorrectable one marked in its new code (R307). DEDUCED (assumption log
24). -/
def State.convertRow (n : Nat) (s : State) (row : Nat) : State :=
  if lakeOf row != n then s
  else
    let s := s.settle row
    let t := s.tag row
    if t.mark then s.setTag row { t with corr := [], bad := [] }
    else
      let s := if t.corr ≠ [] then s.foundCorr row t.corr 2 else s
      let s := if t.bad ≠ [] then s.foundBad none row t.bad 2 else s
      if t.bad ≠ [] then s.mark row (tagsBad (s.wMode row) t.bad) else s.setTag row { s.tag row with corr := [] }

/-- The rows of a lake that a conversion finds anything at. -/
def rowsHeld (s : State) (n : Nat) : List Nat :=
  (s.rows.map (·.1) ++ ((s.lake n).steps.map (fun st => st.sets.map (·.1))).flatten).eraseDups

/-- A write to `LK_PROT` (R303, R307). DEDUCED (assumption log 24). -/
def protSet (c : Ctl) (n : Nat) (v : BitVec 64) (s : State) : State :=
  s.ownerOnly c n fun s =>
    let m := bit v 0
    if m = (s.lake n).wMode then s.done c
    else s.unless c [!quiescent s n, (s.lp n).state != .on, (s.lake n).convBusy] fun s =>
      let s := (s.lake n).marks.foldl (fun s m => s.mark m.row m.stale) s
      let s := s.modLake n fun l => { l with marks := [], wbs := [] }
      let s := (rowsHeld s n).foldl (State.convertRow n) s
      (s.modLake n fun l => { l with wMode := m, convBusy := true, convDue := s.pw.now + 1040, injArm := false }).done c

/-- CONVERSION_DONE (R307). -/
def execConversionDone (n : Fin 24) (s : State) : Host.Outcome State Fault Refusal :=
  if !(s.lake n).convBusy then .next s
  else
    let s := s.reach (s.lake n).convDue
    .next (s.modLake n fun l => { l with convBusy := false, idleFrom := s.pw.now })

/-- A write to `LK_ECC_INJ` (R324). -/
def eccInjSet (c : Ctl) (n : Nat) (v : BitVec 64) (s : State) : State :=
  s.privOnly c fun s =>
    s.unless c [bit v 16 && bits v 17 2 = 3, bit v 16 && Config.rowsPerLake ≤ bits v 0 16,
        bit v 16 && 3 < bits v 19 5 && (s.lake n).wMode] fun s =>
      (s.modLake n fun l =>
        { l with injRow := BitVec.ofNat 16 (bits v 0 16), injArm := bit v 16, injKind := BitVec.ofNat 2 (bits v 17 2),
                 injUnit := BitVec.ofNat 5 (bits v 19 5) }).done c

/-! ### Recording (R320 to R323) -/

/-- An in-band interrupt of an error class is raised (R322, R411). -/
def State.raiseClass (s : State) (k : Nat) : State :=
  let s := { s with err := { s.err with
    lastIbi := Tab.set (fun _ => none) s.err.lastIbi k (some s.pw.ns), ibiPend := s.err.ibiPend &&& ~~~(BitVec.ofNat 8 (2 ^ k)) } }
  s.event k (BitVec.ofNat 32 s.err.head)

/-- A record of a class has entered the ring (R322). -/
def State.classEvent (s : State) (k : Nat) : State :=
  if !bit s.err.ibiEn k then s
  else
    let open_ := match Tab.get (fun _ => none) s.err.lastIbi k with | some t => decide (s.pw.ns < t + 1000000) | none => false
    if open_ then { s with err := { s.err with ibiPend := s.err.ibiPend ||| BitVec.ofNat 8 (2 ^ k) } } else s.raiseClass k

/-- The oldest unread record is overwritten where the ring holds 64 (R320). -/
def ErrLog.makeRoom (e : ErrLog) : ErrLog :=
  if (e.head + 2 ^ 32 - e.tail) % 2 ^ 32 < 64 then e
  else
    let k := match Tab.get (fun _ => none) e.ring (e.tail % 64) with | some r => r.cls | none => 0
    { e with tail := (e.tail + 1) % 2 ^ 32, lost := true
             lostC := Tab.set (fun _ => 0) e.lostC k (satAdd max32 (Tab.get (fun _ => 0) e.lostC k) 1) }

/-- A record takes the ring slot at `HEAD`, and is the first record where none is held (R320). -/
def ErrLog.enter (e : ErrLog) (r : Rec) : ErrLog :=
  let e := e.makeRoom
  let r : Rec := { r with seq := e.head }
  { e with ring := Tab.set (fun _ => none) e.ring (e.head % 64) (some r), head := (e.head + 1) % 2 ^ 32
           first := if e.firstV then e.first else some r, firstV := true }

/-- RECORD_ENTER (R320). -/
def execRecordEnter (s : State) : Host.Outcome State Fault Refusal :=
  match s.err.intake with
  | [] => .next s
  | r :: rest => .next (({ s with err := ({ s.err with intake := rest }).enter r }).classEvent r.cls)

/-- CORR_INTERVAL (R320): the corrections held are recorded at the end of their interval. -/
def execCorrInterval (k : Nat) (s : State) : Host.Outcome State Fault Refusal :=
  let c := Tab.get (fun _ => Corr.reset) s.err.corr k
  match c.last, c.first with
  | some t, some r =>
    if c.held = 0 then .next s
    else
      let s := s.reachNs (t + 1000000)
      let s := { s with err := { s.err with corr := Tab.set (fun _ => Corr.reset) s.err.corr k ⟨some (t + 1000000), 0, none⟩ } }
      .next (s.report { r with time := t + 1000000, count := min max32 c.held })
  | _, _ => .next s

/-- IBI_INTERVAL (R322): a class whose interrupts have been disabled meanwhile raises none. -/
def execIbiInterval (c : Fin 8) (s : State) : Host.Outcome State Fault Refusal :=
  if !bit s.err.ibiPend c then .next s
  else
    let s := match Tab.get (fun _ => none) s.err.lastIbi c with | some t => s.reachNs (t + 1000000) | none => s
    if bit s.err.ibiEn c then .next (s.raiseClass c)
    else .next { s with err := { s.err with ibiPend := s.err.ibiPend &&& ~~~(BitVec.ofNat 8 (2 ^ c.val)) } }

/-- A write to `ERR_TAIL` (R321). -/
def errTailSet (c : Ctl) (v : BitVec 64) (s : State) : State :=
  s.privOnly c fun s =>
    let t := bits v 0 32
    let e := s.err
    s.unless0 c ((e.head + 2 ^ 32 - e.tail) % 2 ^ 32 < (t + 2 ^ 32 - e.tail) % 2 ^ 32) fun s =>
      { s with err := { s.err with tail := t } }.done c

/-- A write to `ERR_STAT` (R323). -/
def errStatSet (c : Ctl) (v : BitVec 64) (s : State) : State :=
  let s := if bit v 0 then { s with err := { s.err with lost := false, lostC := [] } } else s
  let s := if bit v 1 then { s with err := { s.err with firstV := false } } else s
  s.done c

/-- A write to `ERR_CTL` (R323). -/
def errCtlSet (c : Ctl) (v : BitVec 64) (s : State) : State :=
  s.privOnly c fun s =>
    { s with err := { s.err with recEn := BitVec.ofNat 8 (bits v 0 8), ibiEn := BitVec.ofNat 8 (bits v 8 8) } }.done c

end Sys2Proof.Machine
end

