-- ==== Sys2Proof/Machine/Slates.lean ====
section
/-!
DEFINITION. Slate maintenance (R227, R228) and the timeout of waits (R225, R226).
-/
namespace Sys2Proof.Machine

/-- A row of the range lies in an open take's result range, or in the span of an in-flight landing descriptor (R228). -/
def maintBlocked (s : State) (n first count : Nat) : Bool :=
  let g : Range := ⟨BitVec.ofNat 16 first, BitVec.ofNat 16 count⟩
  (List.range 16).any (fun t => ((s.lake n).take t).state != .free && rangeMeets ((s.lake n).take t).f.res g) || s.meetsSpan n first count

/-- A write to `LK_SLATE_OP` (R227, R228, R375). -/
def slateOpSet (c : Ctl) (n : Nat) (v : BitVec 64) (s : State) : State :=
  s.ownerOnly c n fun s =>
    let first := bits v 0 16
    let count := bits v 16 16
    let st := bits v 32 2
    s.unless c [(s.lake n).slBusy, count = 0, Config.rowsPerLake < first + count, st = 1, maintBlocked s n first count, (s.mte n).busy]
      fun s =>
        (s.modLake n fun l =>
          { l with slFirst := BitVec.ofNat 16 first, slCount := BitVec.ofNat 16 count, slState := BitVec.ofNat 2 st, slZero := bit v 34
                   slBusy := true, slNext := first, slWho := some c.w }).done c

/-- A write to `LK_SLATE_QUERY` (R227). -/
def slateQuerySet (c : Ctl) (n : Nat) (v : BitVec 64) (s : State) : State :=
  s.ownerOnly c n fun s =>
    (s.modLake n fun l => { l with query := if bits v 0 16 < Config.rowsPerLake then BitVec.ofNat 16 (bits v 0 16) else l.query }).done c

/-- The pond cycle of one row of an operation (R228, R312, R324): its slate, and with `ZERO` zero data with fresh check bytes. A row
that becomes FULL counts as filled by the operation's writer (R175). -/
def State.maintRow (s : State) (n : Nat) : State :=
  let l := s.lake n
  let row := gRow n l.slNext
  let s := (s.alone row).pondCycle row
  let all := List.range 8
  let s := if l.slZero then
      ((((s.putWords row (all.map (·, 0))).refresh row all).mergeWbs row all).inject row)
    else s
  let was := s.slate row
  let s := s.setSlate row (Slate.ofCode l.slState.toNat)
  let s := match l.slWho with
    | some w => if l.slState = 2 && was != Slate.full then s.slotFullBy row w else s
    | none => s
  s.modLake n fun l => { l with slNext := l.slNext + 1 }

/-- SLATE_OP_ROW (R228, R336): an IDLE lake is woken first. DEDUCED (assumption log 24). -/
def execSlateOpRow (n : Fin 24) (s : State) : Host.Outcome State Fault Refusal :=
  let l := s.lake n
  if !l.slBusy || l.slFirst.toNat + l.slCount.toNat ≤ l.slNext || s.draining || (s.lp n).state.down then .next s
  else if (s.lp n).state = .idle then .next (s.wakeIdle n)
  else .next (s.maintRow n)

/-- SLATE_OP_DONE (R228): in the T-cycle after the last row, and the waiters of the range are examined again. -/
def execSlateOpDone (n : Fin 24) (s : State) : Host.Outcome State Fault Refusal :=
  let l := s.lake n
  if !l.slBusy || l.slNext < l.slFirst.toNat + l.slCount.toNat then .next s
  else
    let s := s.reach (s.pw.now + 1)
    let s := s.modLake n fun l => { l with slBusy := false, slDone := true, slWho := none }
    let mine (r : Nat) : Bool := l.slFirst.toNat ≤ lRow r && lRow r < l.slFirst.toNat + l.slCount.toNat
    if s.draining || (s.lp n).state.down then .next s
    else if (s.lp n).state = .idle then .next (if (s.lake n).waiters.any (fun e => e.rows.any mine) then s.wakeIdle n else s)
    else
      let rows := (((s.lake n).waiters.map (·.rows)).flatten.filter mine).eraseDups
      let s := rows.foldl State.wakeLandings s
      .next (s.wakeThose n (fun e => e.rows.any mine)).takeUp

/-- The die-local address of a waiting access, in its view (R24, R319); 0 for a cue wait, which makes no access to storage. DEDUCED
(assumption log 12). -/
def Waiting.addr : Waiting → Nat
  | .access _ q m _ _ _ => q.addr.toNat + (match m with | .consume | .produce | .takeWrite _ => 0x60000000 | .peek | .takePeek _ => 0x40000000 | _ => 0)
  | _ => 0

/-- WAITER_TIMEOUT (R226): the entry is released with NACK_STATE and recorded; a take access so released ends its take with cause 7.
A wait behind a cue wait so released is served (R231). DEDUCED (assumption log 15). -/
def execWaiterTimeout (n : Fin 24) (id : Nat) (s : State) : Host.Outcome State Fault Refusal :=
  match (s.lake n).waiters.find? (·.id = id) with
  | none => .next s
  | some e =>
    if e.who.timeout = 0 then .next s
    else
      let s := (s.reach (e.since + e.who.timeout)).countLake n 0x1C e.who.quals (some e.who.label)
      let s := s.dropWaiter n e .nackState 0
      let s := s.log 7 .nackState (Config.lakePos n) e.who.pr (Config.lakePos n) e.what.addr
      .next (match e.what.mode.bind Mode.takeSlot with | some t => s.endTake n t 7 | none => s).serveCues

end Sys2Proof.Machine
end

