-- ==== Sys2Proof/Machine/Counters.lean ====
section
/-!
DEFINITION. The counter registers and the dailies (R382 to R390), and the entry to DEEP that waits for a snapshot (R348).
-/
namespace Sys2Proof.Machine

/-- The events that a set may select (R387); 0x00 selects none. DEDUCED (assumption log 24). -/
def eventListed (set : CSet) (e : Nat) : Bool :=
  e ≤ 1 || match set with
    | .lake => e ≤ 0x16 || (0x18 ≤ e && e ≤ 0x1C) || (0x20 ≤ e && e ≤ 0x24) || (0x28 ≤ e && e ≤ 0x2E) || e = 0x30 || e = 0x31
    | .spring => 0x40 ≤ e && e ≤ 0x4F
    | .arb => 0x50 ≤ e && e ≤ 0x5B
    | .canal => 0x50 ≤ e && e ≤ 0x5B || (0x60 ≤ e && e ≤ 0x68)
    | .basin => 0x70 ≤ e && e ≤ 0x79

/-- The qualifiers of a set (R384). -/
def qualListed (set : CSet) (q : Nat) : Bool :=
  q = 0x3F || match set with
    | .lake => q ≤ 9 || 0x10 ≤ q
    | .spring => q = 1 || q = 2
    | .arb => q ≤ 3 || (0x10 ≤ q && q ≤ 0x13)
    | .canal => q ≤ 0x2E
    | .basin => q ≤ 3

def State.ctr (s : State) (o : Nat) : Counter := Tab.get cntDefault s.cnt.ctrs o
def State.setCtr (s : State) (o : Nat) (c : Counter) : State := { s with cnt := { s.cnt with ctrs := Tab.set cntDefault s.cnt.ctrs o c } }

/-- A register write that the counter block performs takes its T-cycle (R381, R383): the events of the T-cycle are counted as before it, what
is written stands from the next, and the next write is performed in a later one. Writes that reach the block in one T-cycle are given in the
order of their stops' positions. DESIGN CHOICE (assumption log 32). -/
def State.cntWrite (s : State) (c : Ctl) (go : State → State) : State := go ((s.done c).elapse 1)

/-- A write to `CNT_CFG` at an offset of a counter entry (R382, R383, R385, R388). -/
def cntCfgSet (c : Ctl) (o : Nat) (v : BitVec 64) (s : State) : State :=
  s.privOnly c fun s => s.unless0 c s.cnt.busy fun s =>
    match cntSetOf o with
    | none => s.cntWrite c id
    | some (set, _) =>
      s.unless c [!eventListed set (bits v 0 8), !qualListed set (bits v 24 6), set = .canal && bits v 30 2 = 3] fun s =>
        s.cntWrite c fun s => s.setCtr o { s.ctr o with cfg := BitVec.ofNat 32 v.toNat &&& 0xFF03F7FF, nz := 0 }

/-- A write to `CNT_VAL` (R383, R386, R388). -/
def cntValSet (c : Ctl) (o : Nat) (v : BitVec 64) (s : State) : State :=
  s.privOnly c fun s => s.unless0 c s.cnt.busy fun s =>
    s.cntWrite c fun s => s.setCtr o { s.ctr o with val := bits v 0 48, wrap := false }

/-- A write to `CNT_GLOBAL` (R388). -/
def cntGlobalSet (c : Ctl) (v : BitVec 64) (s : State) : State :=
  s.privOnly c fun s => s.unless0 c s.cnt.busy fun s =>
    s.cntWrite c fun s => { s with cnt := { s.cnt with halt := bit v 0 } }

/-- A snapshot whose freeze point was the T-cycle before, at time `ns` (R389, R390): every counter is copied as it stood at that T-cycle's
end, and counts apart until the release. DEDUCED (assumption log 24). -/
def State.snapshot (s : State) (clr : Bool) (ns : Nat) : State :=
  let k := s.cnt
  { s with cnt := { k with
    busy := true, due := s.pw.now + 138, page := k.ctrs, seqA := (k.seq + 1) % 2 ^ 32, time := ns, level := s.pw.cur, clr := clr
    pepoch := k.epoch, clrWrap := clr, ctrs := if clr then mapTab cntDefault (fun _ c => { c with wrap := false }) k.ctrs else k.ctrs } }

/-- A write to `DLY_CTL` (R388, R389). -/
def dlyCtlSet (c : Ctl) (v : BitVec 64) (s : State) : State :=
  s.privOnly c fun s =>
    if bit v 0 then s.unless0 c s.cnt.busy fun s => s.cntWrite c fun t => t.snapshot (bit v 1) s.pw.ns
    else s.cntWrite c fun s => { s with cnt := { s.cnt with clrWrap := bit v 1 } }

/-- Step 1 of the entry to DEEP (R348): every lake that is ON or IDLE drains towards RET. DEDUCED (assumption log 21). -/
def State.deepDrain (s : State) : State :=
  let s := (List.range (Config.lakeCount s.variant)).foldl (fun s n =>
    if (s.lp n).state = .on || (s.lp n).state = .idle then s.drainLake n false true else s) s
  s.deepTimer

/-- A write to `PWR_DEEP` (R348, R375). -/
def deepSet (c : Ctl) (v : BitVec 64) (s : State) : State :=
  s.privOnly c fun s =>
    if !bit v 0 then s.done c
    else s.unless c [s.pw.deep != 0, (List.range Config.lakes).any (fun n => (s.lp n).state.transit || (s.mte n).busy)] fun s =>
      let s := ({ s with pw := { s.pw with deep := 1, deepPend := false, deepTimed := false } }.done c)
      if s.cnt.busy then s else s.deepDrain

/-- SNAPSHOT_RELEASE (R389): the pending counts are added; an entry to DEEP that waited goes on in the next T-cycle (R348). -/
def execSnapshotRelease (s : State) : Host.Outcome State Fault Refusal :=
  if !s.cnt.busy then .next s
  else
    let s := s.reach s.cnt.due
    let rel (_ : Nat) (c : Counter) : Counter := { (c.add false c.pend) with pend := 0 }
    let k := s.cnt
    let s := { s with cnt := { k with busy := false, done := true, seq := k.seqA, seqB := k.seqA, ctrs := mapTab cntDefault rel k.ctrs } }
    .next (if s.pw.deep = 1 then (s.reach (s.pw.now + 1)).deepDrain else s)

/-- DEEP_ENTRY_END (R209, R348, R349): the basin is invalid, the sequencer stops, and a wake that came meanwhile begins the exit.
DEDUCED (assumption log 21). -/
def execDeepEntryEnd (s : State) : Host.Outcome State Fault Refusal :=
  let all := (List.range (Config.lakeCount s.variant)).all (fun n => (s.lp n).state = .ret || (s.lp n).state = .off)
  if !(s.pw.deep = 1 && s.pw.deepTimed && all && s.basin.fills = [] && !s.basin.busy) then .next s
  else
    let s := s.reachNs s.pw.deepDueNs
    let s := { s with basin := { Basin.reset with done := s.basin.done }, fw := s.fw.halt, pw := { s.pw with deep := 2, deepTimed := false, arrMv := 550, logMv := 0 } }
    .next (if s.pw.deepPend then ({ s with pw := { s.pw with deepPend := false } }).wakeDeep else s)

/-- DEEP_WAKE (R349). -/
def execDeepWake (_ : WakeSource) (s : State) : Host.Outcome State Fault Refusal := .next s.wakeDeep

end Sys2Proof.Machine
end

