-- ==== Sys2Proof/Machine/Weir.lean ====
section
/-!
DEFINITION. The weir (R99 to R120): its registers, the power loop and the late records.
-/
namespace Sys2Proof.Machine

/-- A write to `WEIR_LABELMAPn` (R102, R104). -/
def labelMapSet (c : Ctl) (n : Nat) (v : BitVec 64) (s : State) : State :=
  s.privOnly c fun s =>
    let x := BitVec.ofNat 32 v.toNat &&& 0xFFFF000F
    { s with weir := { s.weir with labelMap := Tab.set (fun _ => labelMapReset) s.weir.labelMap n x } }.done c

/-- A write to `WEIR_LABELMAP_CLS` (R103). -/
def clsDlSet (c : Ctl) (v : BitVec 64) (s : State) : State :=
  s.privOnly c fun s => { s with weir := { s.weir with clsDl := BitVec.ofNat 4 (bits v 0 4) } }.done c

/-- A write to a `WEIR_QSHARE` register (R107, R108): 0 to 4 for A, B, S, C and stops. -/
def qshareSet (c : Ctl) (which : Nat) (v : BitVec 64) (s : State) : State :=
  s.privOnly c fun s => s.unless c [(rsvs v).any (fun r => 64 < r), 64 < (rsvs v).sum] fun s =>
    let x := BitVec.ofNat 32 v.toNat &&& 0x7F7F7F7F
    { s with weir := { s.weir with qshare := Tab.set (fun _ => qshareReset) s.weir.qshare which x } }.done c

/-- A write to `WEIR_BASIN_WAYS0` or `WEIR_BASIN_WAYS1` (R109, R110). -/
def waysSet (c : Ctl) (i : Nat) (v : BitVec 64) (s : State) : State :=
  s.privOnly c fun s =>
    let x := BitVec.ofNat 32 v.toNat
    (if i = 0 then { s with weir := { s.weir with ways0 := x } } else { s with weir := { s.weir with ways1 := x } }).done c

/-- A write to `WEIR_SRC_LABEL` (R101). -/
def srcLabelSet (c : Ctl) (v : BitVec 64) (s : State) : State :=
  s.privOnly c fun s => { s with weir := { s.weir with srcLabel := v &&& 0x3F3F3F3F3F3F3F3F } }.done c

/-- The cap takes a new value and `CAP_UNMET` clears (R115, R117). -/
def State.setCap (s : State) (cap : Nat) : State := { s with weir := { s.weir with cap := BitVec.ofNat 12 cap, unmet := false } }

/-- A write to `WEIR_PCAP` (R115, R117). -/
def pcapSet (c : Ctl) (v : BitVec 64) (s : State) : State := s.privOnly c fun s => (s.setCap (bits v 0 12)).done c

/-- One period of the power loop for an average power of `p` quarter watts (R116), and whether a record is written. -/
def Weir.period (w : Weir) (p : Nat) : Weir × Bool :=
  let cap := w.cap.toNat
  let w := { w with pMeas := BitVec.ofNat 16 p }
  if cap = 0 then ({ w with allow := 96, limit := 0, low := 0, calm := 0 }, false)
  else if cap < p then
    let allow := max 8 (w.allow - (w.allow * (p - cap) + p - 1) / p)
    let low := if allow = 8 then w.low + 1 else 0
    let w := { w with allow := allow, calm := 0, low := if low = 8 then 0 else low }
    if low = 8 then
      if w.limit < 4 then ({ w with limit := w.limit + 1 }, false) else ({ w with unmet := true }, true)
    else (w, false)
  else
    let allow := if 100 * p < 98 * cap then min 96 (w.allow + 4) else w.allow
    let calm := if 100 * p < 90 * cap ∧ allow = 96 ∧ 0 < w.limit then w.calm + 1 else 0
    ({ w with allow := allow, low := 0, limit := if calm = 100 then w.limit - 1 else w.limit, calm := if calm = 100 then 0 else calm }, false)

/-- The average power of a period, in quarter watts (R116): for each of the array, logic and AON supplies the mean of its monitor's readings,
or the last reading where the period brought none. DEDUCED (assumption log 15). -/
def State.periodPower (s : State) : Nat :=
  ([0, 1, 2].map fun m =>
    let x := Tab.get (fun _ => ((0 : Nat), (0 : Nat))) s.weir.pSum m
    if x.2 = 0 then bits (Tab.get (fun _ => (0 : BitVec 48)) s.pw.mon m) 32 16 else x.1 / x.2).sum

/-- PCAP_PERIOD (R116), every 10 µs of the timestamp: the end of a period, after `skipped` ends that nothing commands. A level that the weir
asks for may be tried again after it (R337). DESIGN CHOICE (assumption log 2). -/
def execPcapPeriod (skipped : Nat) (s : State) : Host.Outcome State Fault Refusal :=
  let s := s.reachNs ((s.pw.ns / 10000 + 1 + skipped) * 10000)
  let r := { s.weir with pSum := [] }.period s.periodPower
  let s := { s with weir := r.1, pw := { s.pw with goal := if !s.pw.busy && s.pw.req.toNat ≤ r.1.limit then s.pw.cur else s.pw.goal } }
  .next (if r.2 then s.log 6 .ok 0x32 ⟨0x7C, 0⟩ 0 0 else s)

/-- LATE_RECORD_INTERVAL (R114): at most one record of a class in 1 ms. The record names the first late request's stop as its source and
its label as its address. DEDUCED (assumption log 15). -/
def execLateRecordInterval (c : Fin 4) (s : State) : Host.Outcome State Fault Refusal :=
  let l := Tab.get (fun _ => Late.reset) s.weir.late c
  if l.pending = 0 then .next s
  else
    let s := match l.since with | some t => s.reachNs (t + 1000000) | none => s
    let l' : Late := { l with since := some s.pw.ns, pending := 0 }
    let s := { s with weir := { s.weir with late := Tab.set (fun _ => Late.reset) s.weir.late c l' } }
    .next (s.report ⟨s.pw.ns, 0, 7, 0, l.pos, 0x7C, 0, c.val, l.pending, l.label⟩)

end Sys2Proof.Machine
end

