-- ==== Sys2Proof/Machine/Arbiters.lean ====
section
/-!
DEFINITION. Shores and arbiters: splits (R54 to R58), masters and their beats (R59, R75 to R77), decisions and grants (R60 to R62, R78 to
R86, R112, R153), the tokens of the weir (R118), and the backoff counts (R88 to R90).
-/
namespace Sys2Proof.Machine

/-! ### Splits (R54 to R58) -/

/-- A take is open on a sub-shore of a wide shore: slots 0 to 7 are shore A's, 8 to 15 shore B's (R235). -/
def takeOn (s : State) (n : Nat) (b : Bool) : Bool :=
  (List.range 8).any fun t => ((s.lake n).take (t + if b then 8 else 0)).state != .free

/-- A request of a wide shore has not reached its DV: it is in the pond pipeline, or waits (R58). DEDUCED (assumption log 11). -/
def shoreBusy (s : State) (n : Nat) (b : Bool) : Bool :=
  s.pw.now < s.lastDv (· = 4 * n + b2n b) ||
  s.flights.any fun f => f.who.wired && f.who.queueKind = b2n b && f.who.pos = Config.lakePos n

/-- A write to `LK_SHORE_CFG` (R54, R55, R58, R375). -/
def shoreCfgSet (c : Ctl) (n : Nat) (v : BitVec 64) (s : State) : State :=
  s.ownerOnly c n fun s =>
    let l := s.lake n
    let a : BitVec 2 := if bits v 0 2 = 3 then l.aSplit else BitVec.ofNat 2 (bits v 0 2)
    let b : BitVec 2 := if bits v 2 2 = 3 then l.bSplit else BitVec.ofNat 2 (bits v 2 2)
    let ca : Bool := a != l.aSplit
    let cb : Bool := b != l.bSplit
    s.unless c [(ca && shoreBusy s n false) || (cb && shoreBusy s n true), (ca && takeOn s n false) || (cb && takeOn s n true),
        (ca || cb) && (s.mte n).busy] fun s =>
      (s.modLake n fun l => { l with aSplit := a, bSplit := b }).done c

/-! ### Arbiters and their registers -/

/-- The arbiter set of a lake that an arbiter belongs to, and its sub-shore number (R92, R95). -/
def arbSetNo : ArbId → Nat
  | .wide _ b _ => if b then 1 else 0
  | .shoreS _ => 2
  | .shoreC _ ccw => if ccw then 4 else 3
  | .stop _ _ => 0
def arbSub : ArbId → Nat
  | .wide _ _ i => i
  | _ => 0
/-- The lake whose shore an arbiter serves. -/
def arbLake : ArbId → Option Nat
  | .wide n _ _ => some n
  | .shoreS n => some n
  | .shoreC n _ => some n
  | .stop _ _ => none

/-- The number of a stop's set: 2p + d (R95). -/
def stopSet (p : Nat) (ccw : Bool) : Nat := 2 * p + b2n ccw
def State.stopArb (s : State) (k : Nat) : ArbCfg := Tab.get (fun _ => ArbCfg.reset) s.stopCfg k

/-- The configuration in force at an arbiter (R92 to R96). -/
def arbCfgOf (s : State) (a : ArbId) : ArbCfg :=
  match a with
  | .stop p ccw => { s.stopArb (stopSet p ccw) with fallback := false }
  | a => (s.lake ((arbLake a).getD 0)).arbSet (arbSetNo a)

/-- Override slots that have a master (R75, R94): bit m set for master m. -/
def ovrSlots (a : ArbSet) : Nat :=
  match a with
  | .lake _ i => if i.val ≤ 1 then 1 else if i.val = 2 then 3 else 0
  | .stop p _ => if p.val = Config.mgmtPos then 3 else if p.val % 6 = 1 ∨ p.val % 6 = 4 then 0x1F else 1
def ovrMask (a : ArbSet) : BitVec 32 :=
  pack 32 ((List.range 8).map fun m => (4 * m, if (ovrSlots a).testBit m then 7 else 0))

/-- A write to a register of an arbiter set (R92 to R97): 0 `CTL`, 1 `QUOTA`, 2 `OVR`. -/
def arbCfgSet (c : Ctl) (a : ArbSet) (which : Nat) (v : BitVec 64) (s : State) : State :=
  s.privOnly c fun s =>
    let put (x : ArbCfg) : ArbCfg := match which with
      | 0 => { x with burstM1 := BitVec.ofNat 5 (bits v 0 5)
                      fallback := match a with | .stop _ _ => false | _ => bit v 8 }
      | 1 => { x with q0 := BitVec.ofNat 6 (bits v 0 6), q1 := BitVec.ofNat 6 (bits v 8 6), q2 := BitVec.ofNat 6 (bits v 16 6) }
      | _ => { x with ovr := BitVec.ofNat 32 v.toNat &&& ovrMask a }
    let s := match a with
      | .lake n i => s.modLake n fun l => { l with arbCfg := Tab.set (fun _ => ArbCfg.reset) l.arbCfg i (put (l.arbSet i)) }
      | .stop p ccw =>
        let k := stopSet p ccw
        { s with stopCfg := Tab.set (fun _ => ArbCfg.reset) s.stopCfg k (put (s.stopArb k)) }
    s.done c

/-- Count an event of an arbiter (R384, R387): of a lake's set, or of a stop in its direction. -/
def State.countArb (s : State) (a : ArbId) (ev : Nat) (cls : Option Nat := none) : State :=
  match a with
  | .stop p ccw => s.count { set := .canal, inst := 0, ev := ev, quals := [p.val], ccw := some ccw }
  | a =>
    let quals := arbSub a :: (match cls with | some c => [0x10 + c] | none => [])
    s.count { set := .arb, inst := 5 * (arbLake a).getD 0 + arbSetNo a, ev := ev, quals := quals }

/-! ### Requesting masters and the beats they present (R59, R75 to R77) -/

/-- A requesting master: its index, identity (R88) and head label; the budget of its head request (R111), that request's nominal latency,
hops and whether it goes to a lake (R112); the tokens its beat costs (R118), whether the beat carries source rows of an XREAD and how many
remain for later beats (R153), and the entries of the arrival queue whose IS cycle it is (R105). -/
structure Contender where
  idx    : Nat
  ident  : Ident
  label  : Nat
  budget : Int
  lat    : Nat
  hops   : Nat
  toLake : Bool
  cost   : Nat
  xread  : Bool
  more   : Nat
  takes  : List Nat
deriving DecidableEq, Repr

def budgetAfter (dl : Nat) (age : Int) : Int := max ((dl : Int) - age) (-65536)

/-- Row requests of a packet, which take as many lanes (R36, R152, R157). -/
def askRows (a : RowAsk) : Nat :=
  match a.op with
  | .xread ew _ => ewCount ew
  | .gather _ => ((opOffsets a.op a.words).map fun o => ((a.first.val : Int) + o) / 8).eraseDups.length
  | _ => 1

/-- What a row request costs beyond one token: a lake atomic, or a W-mode write that leaves a codeword partly covered (R52, R118). -/
def askExtra (wMode : Bool) (a : RowAsk) : Nat :=
  b2n (opIsAtomic a.op || (wMode && a.op = Op.write && (a.first.val % 2 = 1 || (a.first.val + a.words) % 2 = 1)))

/-- Lanes or positions that an arbiter controls (R56, R59). A sub-shore that the present split has not controls none. -/
def arbLanes (s : State) (a : ArbId) : Nat :=
  match a with
  | .wide n b i =>
    let sp := if b then (s.lake n).bSplit else (s.lake n).aSplit
    if !subExists (s.lake n) (i + if b then 4 else 0) then 0 else if sp = 0 then 32 else if sp = 1 then 16 else 8
  | .shoreS _ => 16
  | .shoreC _ _ => 4
  | .stop p _ => Config.stopRate p

/-- The identity of a master (R88). -/
def masterIdent (a : ArbId) (idx : Nat) : Ident :=
  match a with
  | .wide _ b i => .wired (Fin.ofNat 10 (i + if b then 4 else 0))
  | .shoreS _ => .wired (Fin.ofNat 10 (8 + idx))
  | .shoreC _ _ => canalIdent idx 0
  | .stop p _ => canalIdent p idx

/-- A wired master, or an engine at its stop, with the beat it presents (R59). -/
def fromMaster (s : State) (a : ArbId) (m : Master) : Contender :=
  let wm := (s.lake ((arbLake a).getD 0)).wMode
  let beat := m.beat.take (arbLanes s a)
  let x := beat.any fun r => opSolo r.op
  { idx := m.idx, ident := masterIdent a m.idx, label := m.label, budget := budgetAfter m.dl.toNat m.age
    lat := nominalL ((m.beat.head?.map (·.op)).getD .read)
    hops := match a with | .stop p _ => Config.hops p m.dst | _ => 0
    toLake := (Config.posLake m.dst).isSome
    cost := (beat.map fun r => if r.masked then 0 else 1 + askExtra wm r).sum
    xread := x, more := if x then m.beat.length - arbLanes s a + b2n m.more else 0, takes := [] }

/-- Entries that go with the head of a source's queue in one beat (R59, R72, R152): they fit the lanes, no two of one engine name one row,
and those of an XREAD go with no other code. -/
def fillBeat (x : Bool) : Nat → List (Nat × Nat) → List QEntry → List QEntry
  | _, _, [] => []
  | room, seen, e :: l =>
    if opSolo e.ask.op = x && askRows e.ask ≤ room && !seen.contains (e.idx, e.row) then
      e :: fillBeat x (room - askRows e.ask) ((e.idx, e.row) :: seen) l
    else []

/-- A source stop with requests queued from a ring at a C shore (R59, R68). -/
def fromQueue (s : State) (n : Nat) (e : QEntry) (l : List QEntry) : Contender :=
  let x := opSolo e.ask.op
  let beat := e :: fillBeat x (4 - askRows e.ask) [(e.idx, e.row)] (l.drop 1)
  let rows := (beat.map fun e => askRows e.ask).sum
  { idx := e.src, ident := canalIdent e.src e.idx, label := e.label, budget := max (e.due - s.pw.now) (-65536)
    lat := nominalL e.ask.op, hops := if e.src = Config.lakePos n then 0 else Config.hops e.src (Config.lakePos n), toLake := true
    cost := (if x then min 4 rows else rows) + (beat.map fun e => askExtra (s.lake n).wMode e.ask).sum
    xread := x, more := if x then rows - 4 else 0, takes := beat.map (·.id) }

/-- The queue entries at a C shore that a source sent round a ring. -/
def queuedFrom (s : State) (n : Nat) (ccw : Bool) (src : Nat) : List QEntry :=
  (s.stop (Config.lakePos n)).queue.filter fun e =>
    e.src = src && (Config.goesCcw e.src (Config.lakePos n) && e.src != Config.lakePos n) = ccw

/-- An engine with a request packet held at its stop (R77). -/
def fromHeld (s : State) (p : Nat) (t : Transit) : Contender :=
  { idx := t.k.idx, ident := canalIdent p t.k.idx, label := t.k.label, budget := budgetAfter t.k.dl.toNat (s.pw.now - t.iss)
    lat := nominalL t.k.ask.op, hops := Config.hops p t.k.dst, toLake := (Config.posLake t.k.dst).isSome
    cost := 0, xread := false, more := 0, takes := [] }

/-- The masters that request at an arbiter in a T-cycle (R59, R77): the source stops queued at a C shore; the engines whose packets a stop
holds, and others named; the wired masters named. Source rows of an XREAD under way go before all else of their source (R153). DESIGN
CHOICE (assumption log 11). -/
def contenders (s : State) (a : ArbId) (ms : List Master) : List Contender :=
  match a with
  | .shoreC n ccw =>
    let x := s.arb (arbKey a)
    let srcs := ((s.stop (Config.lakePos n)).queue.map (·.src)).eraseDups
    let heads := srcs.filterMap fun p =>
      let l := queuedFrom s n ccw p
      l.head?.map fun e => fromQueue s n e l
    if x.active && x.xr != 0 then
      let c : Contender :=
        ⟨x.last, canalIdent x.last 0, x.xrLabel, 0, 9, 0, true, min 4 x.xr, true, x.xr - 4, []⟩
      c :: heads.filter (·.idx != x.last)
    else heads
  | .stop p ccw =>
    let held := (s.stop p).held.filter fun t => t.ccw = ccw && !t.k.resp && t.k.src != t.k.dst
    let heads := ((held.map (·.k.idx)).eraseDups).filterMap fun i => (held.find? (·.k.idx = i)).map (fromHeld s p)
    heads ++ (ms.map (fromMaster s a)).filter fun c => !heads.any (·.idx = c.idx)
  | _ => if arbLanes s a = 0 then [] else ms.map (fromMaster s a)

/-! ### Classes, masks and keys (R76, R79, R80, R85, R112) -/

/-- The class of a requesting master (R76). -/
def masterClass (s : State) (a : ArbId) (cfg : ArbCfg) (m : Contender) : Nat :=
  let o := match a with | .shoreC _ _ => 0 | _ => if m.idx < 8 then bits cfg.ovr (4 * m.idx) 3 else 0
  if 4 ≤ o then o % 4 else s.classOf m.label

def quota (q : BitVec 6) : Nat := if q = 0 then 64 else q.toNat
def Arb.granted (x : Arb) : Nat := x.g.1 + x.g.2.1 + x.g.2.2.1 + x.g.2.2.2

/-- The class is masked in the current window (R85). -/
def masked (cfg : ArbCfg) (g : Nat × Nat × Nat × Nat) (c : Nat) : Bool :=
  let g0 := g.1
  let g1 := g.1 + g.2.1
  let g2 := g.1 + g.2.1 + g.2.2.1
  match c with
  | 0 => quota cfg.q0 ≤ g0 || quota cfg.q1 ≤ g1 || quota cfg.q2 ≤ g2
  | 1 => quota cfg.q1 ≤ g1 || quota cfg.q2 ≤ g2
  | 2 => quota cfg.q2 ≤ g2
  | _ => false

/-- `MASKED` as a decision leaves it (R95, R97). -/
def maskBits (cfg : ArbCfg) (g : Nat × Nat × Nat × Nat) : BitVec 3 :=
  pack 3 [(0, b2n (masked cfg g 0)), (1, b2n (masked cfg g 1)), (2, b2n (masked cfg g 2))]

/-- The key of a head request in a deadline class (R112). -/
def dlKey (s : State) (a : ArbId) (c : Nat) (m : Contender) : Int :=
  let rest : Nat := match a with
    | .wide _ _ _ => m.lat
    | .shoreS _ => m.lat
    | .shoreC _ _ => m.lat + 6 + m.hops
    | .stop p ccw =>
      let w := (Tab.get (fun _ => Est.reset) s.weir.est ((2 * p.val + b2n ccw) * 4 + c)).w
      12 + 2 * m.hops + (if m.toLake then m.lat else 0) + w
  m.budget - (rest : Int)

def rrOf (x : Arb) (c : Nat) : Nat :=
  match c with | 0 => x.rr.1 | 1 => x.rr.2.1 | 2 => x.rr.2.2.1 | _ => x.rr.2.2.2
def setNth (t : Nat × Nat × Nat × Nat) (c v : Nat) : Nat × Nat × Nat × Nat :=
  match c with
  | 0 => (v, t.2) | 1 => (t.1, v, t.2.2) | 2 => (t.1, t.2.1, v, t.2.2.2) | _ => (t.1, t.2.1, t.2.2.1, v)
def addNth (t : Nat × Nat × Nat × Nat) (c : Nat) : Nat × Nat × Nat × Nat :=
  match c with
  | 0 => (t.1 + 1, t.2) | 1 => (t.1, t.2.1 + 1, t.2.2) | 2 => (t.1, t.2.1, t.2.2.1 + 1, t.2.2.2) | _ => (t.1, t.2.1, t.2.2.1, t.2.2.2 + 1)

/-- How far after the class's pointer a master stands, in cyclic index order (R79). -/
def rrDist (rr : Nat) (m : Contender) : Nat := (m.idx + 47 - (rr + 1)) % 47

/-- The winner among masters of one class: round robin, or the smallest key with round robin between equals (R79, R80). -/
def choose (s : State) (a : ArbId) (x : Arb) (c : Nat) (ms : List Contender) : Option Contender :=
  let better (m n : Contender) : Bool :=
    if bit s.weir.clsDl c then
      let k := dlKey s a c m
      let l := dlKey s a c n
      k < l || (k = l && rrDist (rrOf x c) m < rrDist (rrOf x c) n)
    else rrDist (rrOf x c) m < rrDist (rrOf x c) n
  ms.foldl (fun o m => match o with | none => some m | some n => if better m n then some m else some n) none

/-! ### Tokens (R118) and the transpose units (R153) -/

/-- The place of an arbiter of a lake in the order S, C, A0 to A3, B0 to B3. -/
def offerRank (k : Nat) : Nat := if k % 16 = 8 then 0 else if 9 ≤ k % 16 then k % 16 - 8 else 3 + k % 16

/-- Tokens of a lake that shores offered before this one may still take in this T-cycle (R118): those withheld for 4 T-cycles or more, then by
class, then in the fixed order. -/
def pledged (s : State) (n key cls : Nat) : Nat :=
  let late (x : Arb) : Nat := if 4 ≤ x.withheld then 0 else 1
  let me := late (s.arb key)
  (s.arbs.map fun e =>
    let x := e.2
    let before : Bool := late x < me || (late x = me && (x.wantCls < cls || (x.wantCls = cls && offerRank e.1 < offerRank key)))
    if e.1 < 400 && e.1 / 16 = n && e.1 != key && x.want != 0 && x.offered != s.pw.now + 1 && before && x.want ≤ (s.lake n).tokens
    then x.want else 0).sum

/-- The weir withholds a beat of a shore (R118): its cost exceeds the lake's remaining tokens while a cap is set. -/
def withheld (s : State) (a : ArbId) (cls : Nat) (m : Contender) : Bool :=
  match arbLake a with
  | some n => s.weir.cap != 0 && (s.lake n).tokens - pledged s n (arbKey a) cls < m.cost
  | none => false

/-- A shore that the weir withholds is busy for the T-cycle, and its master stalls (R82, R118, R193). DESIGN CHOICE (assumption log 14). -/
def State.withhold (s : State) (a : ArbId) (cls : Nat) (m : Contender) : State :=
  let s := (s.modArb (arbKey a) fun x =>
    { x with withheld := x.withheld + 1, want := m.cost, wantCls := cls, offered := s.pw.now + 1 }).countArb a 0x56
  match arbLake a with
  | some n => (s.countLake n 0x0F (identQuals m.ident) (some m.label)).countLake n 0x11 (identQuals m.ident) (some m.label)
  | none => s

/-- The arbiters that share an arbiter's transpose unit (R153). -/
def unitMates : ArbId → List Nat
  | .wide n b i => ((List.range 4).filter (· != i.val)).map fun j => 16 * n + (if b then 4 else 0) + j
  | .shoreC n ccw => [16 * n + 9 + b2n (!ccw)]
  | _ => []

/-- The transpose unit issues source rows for another sub-shore or ring (R153). -/
def unitTaken (s : State) (a : ArbId) (m : Contender) : Bool :=
  m.xread && (unitMates a).any fun k => (s.arb k).xr != 0 || (s.arb k).xrAt = s.pw.now + 1

/-- A beat issues (R60, R105, R118): its tokens are spent, its queue entries leave, and a stop injects what it holds of the master. -/
def State.beat (s : State) (a : ArbId) (m : Contender) : State :=
  let s := (s.modArb (arbKey a) fun x =>
    { x with beats := x.beats + 1, withheld := 0, want := 0, xr := m.more, xrLabel := m.label
             xrAt := if m.xread then s.pw.now + 1 else x.xrAt }).countArb a 0x52
  let s := match arbLake a with
    | some n => if s.weir.cap = 0 then s else s.modLake n fun l => { l with tokens := l.tokens - m.cost }
    | none => s
  match a with
  | .shoreC n _ => s.modStop (Config.lakePos n) fun x => { x with queue := x.queue.filter fun e => !(e.src = m.idx && m.takes.contains e.id) }
  | .stop p ccw =>
    (((s.stop p).held.filter fun t => t.ccw = ccw && !t.k.resp && t.k.src != t.k.dst && t.k.idx = m.idx).take (Config.stopRate p)).foldl
      (fun s t => s.launch t.k s.pw.now) s
  | _ => s

/-- The holder's beat: withheld by the weir, held behind the transpose unit, or issued (R82, R118, R153). -/
def State.offerBeat (s : State) (a : ArbId) (cls : Nat) (m : Contender) : State :=
  if withheld s a cls m then s.withhold a cls m
  else if unitTaken s a m then
    match arbLake a with
    | some n => s.countLake n 0x12 (identQuals m.ident) (some m.label)
    | none => s
  else s.beat a m

/-! ### Decisions (R78 to R86) -/

/-- The winner `m` of a decision, of class `c`, is granted from the arbiter's state `x` (R60, R61, R79, R84, R85): the events of the decision
are counted, and its beat issues where it is the master granted last. -/
def State.grantTo (s : State) (a : ArbId) (x : Arb) (c : Nat) (m : Contender) (brk someMasked restart : Bool) : State :=
  let cfg := arbCfgOf s a
  let g := addNth x.g c
  let full : Bool := g.1 + g.2.1 + g.2.2.1 + g.2.2.2 = 64
  let x' : Arb := { x with
    active := true, last := m.idx, beats := 0, limit := cfg.burstM1.toNat + 1, fb := cfg.fallback, g := g, closed := full
    rr := setNth x.rr c m.idx, withheld := 0, want := 0, parked := false, mask := maskBits cfg g, xr := 0 }
  let s := ((s.modArb (arbKey a) fun _ => x').countArb a 0x50 (some c)).countArb a 0x51 (some c)
  let s := if brk then s.countArb a 0x54 else s
  let s := if someMasked then s.countArb a 0x57 (some c) else s
  let s := if restart then (s.countArb a 0x58).countArb a 0x59 else s
  let s := if full then s.countArb a 0x58 else s
  if m.idx = x.last then (if x.parked then s.countArb a 0x55 else s).offerBeat a c m else s.countArb a 0x53

/-- The decision of a T-cycle (R79 to R86): windows, class, winner, its grant and its beat or turnaround. `brk` where the burst limit has just
ended a grant. One whose winner stands and is withheld is none, and is made again (R82). DESIGN CHOICE (assumption log 11). -/
def State.decide (s : State) (a : ArbId) (ms : List Contender) (brk : Bool) : State :=
  let cfg := arbCfgOf s a
  let x0 := s.arb (arbKey a)
  let x := if x0.closed then { x0 with g := (0, 0, 0, 0), closed := false } else x0
  let cls (m : Contender) : Nat := masterClass s a cfg m
  let someMasked := ms.any (fun m => masked cfg x.g (cls m))
  let restart := ms.all (fun m => masked cfg x.g (cls m))
  let x := if restart then { x with g := (0, 0, 0, 0) } else x
  let open_ := ms.filter (fun m => !masked cfg x.g (cls m))
  let c := open_.foldl (fun c m => min c (cls m)) 3
  match choose s a x c (open_.filter (fun m => cls m = c)) with
  | none => s
  | some m =>
    if m.idx = x.last && withheld s a c m then s.withhold a c m else s.grantTo a x c m brk someMasked restart

/-- A grant ends without another (R60, R81). -/
def State.endGrant (s : State) (a : ArbId) : State := s.modArb (arbKey a) fun x => { x with active := false, xr := 0 }

/-- One T-cycle of an arbiter (R79): it is busy while its shore is held, or in a level change's drain (R82, R336); a grant continues; a
decision is made; or it parks (R62). -/
def State.arbStep (s : State) (a : ArbId) (ms : List Master) : State :=
  let x := s.arb (arbKey a)
  let cs := contenders s a ms
  let holder := if x.active then cs.find? (·.idx = x.last) else none
  let s := if x.active && holder.isNone then s.endGrant a else s
  if x.holdFrom ≤ s.pw.now && s.pw.now < x.holdTo then s.countArb a 0x56
  else match holder, x.fb || x.beats < x.limit || x.xr != 0 with
    | some m, true => s.offerBeat a (masterClass s a (arbCfgOf s a) m) m
    | _, _ =>
      if cs = [] then s.modArb (arbKey a) fun x => { x with active := false, parked := true, withheld := 0, want := 0 }
      else if s.draining then (if holder.isSome then (s.endGrant a).countArb a 0x54 else s).countArb a 0x56
      else s.decide a cs holder.isSome

/-! ### The commands of the arbiters -/

/-- ARB_DECISION (R79 to R86). -/
def execArbDecision (a : ArbId) (ms : List Master) (s : State) : Host.Outcome State Fault Refusal := .next (s.arbStep a ms)

/-- BURST_LIMIT (R60, R153): a grant that has run its beats ends, unless source rows of an XREAD it carries remain to be issued. -/
def execBurstLimit (a : ArbId) (s : State) : Host.Outcome State Fault Refusal :=
  let x := s.arb (arbKey a)
  if x.active && !x.fb && x.limit ≤ x.beats && x.xr = 0 then .next ((s.endGrant a).countArb a 0x54) else .next s

/-- QUOTA_WINDOW_CLOSE (R84): a window that has reached 64 grants gives way to a new one. -/
def execQuotaWindowClose (a : ArbId) (s : State) : Host.Outcome State Fault Refusal :=
  .next (if (s.arb (arbKey a)).closed then s.modArb (arbKey a) fun x => { x with g := (0, 0, 0, 0), closed := false, mask := 0 } else s)

/-- BACKOFF_RESET (R89): 4,096 T-cycles after a count expired without a request, it is 1 again. -/
def execBackoffReset (rp : RetryPt) (i : Ident) (s : State) : Host.Outcome State Fault Refusal :=
  match s.backoff.find? (fun e => e.1 = (rp, i)) with
  | none => .next s
  | some e => .next ((s.reach (e.2.2 + 4096)).backoffClear rp i)

end Sys2Proof.Machine
end

