-- ==== Sys2Proof/Machine/Canal.lean ====
section
/-!
DEFINITION. The canal: packets that arrive at their stop (R65, R70 to R74, R105, R316), their answers, and what the source stops do with
them (R66, R67, R71), with the answers that come back to a Spring.
-/
namespace Sys2Proof.Machine

/-! ### Arrival (R71, R74, R105) -/

/-- The kind of the arrival queue at a position: a C shore's at a lake, a stop queue elsewhere (R107). -/
def queueKindAt (p : Nat) : Nat := if (Config.posLake p).isSome then 3 else 4

/-- Count an event of an arrival queue (R387): in a lake's set 3 or 4, or at a stop. -/
def State.countArrival (s : State) (ev p : Nat) (k : Packet) (ccw : Bool) : State :=
  match Config.posLake p with
  | some n => s.count { set := .arb, inst := 5 * n + (if ccw then 4 else 3), ev := ev, quals := [0], label := some k.label }
  | none => s.countCanal ev p (some k.label) (some ccw)

/-- The packet is refused with RETRY, which goes back to its source stop (R71). -/
def State.refusePacket (s : State) (p : Nat) (k : Packet) (ccw : Bool) (b : Nat) : State :=
  (s.countCanal 0x66 p (some k.label) (some ccw)).sendResponse k .retry b

/-- A packet for which its class has no free entry is turned away and recorded: later packets of its source engine are refused until it comes
again (R71, R89). -/
def State.recordRefusal (s : State) (p : Nat) (k : Packet) (ccw : Bool) : State :=
  let (b, s) := s.turnAway (.arrival (Fin.ofNat 47 p)) (canalIdent k.src k.idx)
  let s := s.modStop p fun x =>
    { x with refused := x.refused.filter (fun e => !(e.1 = k.src.val && e.2.1 = k.idx.val)) ++ [(k.src.val, k.idx.val, k.id, s.pw.now + b)] }
  (s.countArrival 0x5A p k ccw).refusePacket p k ccw b

/-- A packet enters the arrival queue under the class that its label has now (R71, R104, R105). -/
def State.enqueue (s : State) (p : Nat) (k : Packet) (iss : Int) : State :=
  let e : QEntry := ⟨k.id, k.src.val, k.idx.val, s.classOf k.label, k.label, k.row, k.ask, iss + k.dl.toNat⟩
  (s.backoffClear (.arrival (Fin.ofNat 47 p)) (canalIdent k.src k.idx)).modStop p fun x =>
    { x with queue := x.queue ++ [e], refused := x.refused.filter (fun e => !(e.1 = k.src.val && e.2.1 = k.idx.val)) }

/-- A request packet at its destination's arrival queue (R71, R90, R105). -/
def State.arrive (s : State) (p : Nat) (k : Packet) (iss : Int) (ccw : Bool) : State :=
  match (s.stop p).refused.find? (fun e => e.1 = k.src.val && e.2.1 = k.idx.val && e.2.2.1 != k.id) with
  | some r => s.refusePacket p k ccw (r.2.2.2 - s.pw.now)
  | none =>
    match s.early (.arrival (Fin.ofNat 47 p)) (canalIdent k.src k.idx) with
    | some b => (s.countArrival 0x5B p k ccw).sendResponse k .retry b
    | none =>
      if freeEntry ((s.stop p).queue.map (·.cls)) (s.shares (queueKindAt p)) (s.classOf k.label) then s.enqueue p k iss
      else s.recordRefusal p k ccw

/-- The stop answers requests with ABSENT: its lake is absent or in reset, its client absent, in reset or unpowered, or the block is not ready
(R74, R353). -/
def stopAbsent (s : State) (p : Nat) : Bool :=
  !s.tm.ready || (match Config.posLake p with
    | some n => !Config.lakePresent s.variant n || (s.lake n).inReset
    | none => s.clientsOff.contains p)

/-- A packet that fails parity is recorded (R316). -/
def State.linkFail (s : State) (p : Nat) (label : Option Nat) (ccw : Option Bool) : State :=
  (s.countCanal 0x68 p label ccw).log 2 .uncorrectable p ⟨0x7C, 0⟩ p 0

/-- A request packet leaves its ring and reaches its stop (R6, R15, R70, R71, R74, R316). -/
def State.ejectRequest (s : State) (k : Packet) (iss : Int) (ccw : Bool) (parityOk : Bool) : State :=
  let p := k.dst.val
  if stopAbsent s p then (s.countCanal 0x67 p (some k.label) (some ccw)).sendResponse k .absent 0
  else if !parityOk then (s.linkFail p (some k.label) (some ccw)).sendResponse k .uncorrectable 0
  else s.arrive p k iss ccw

/-! ### Injection and ejection (R65 to R68, R72) -/

/-- A request of a lake's stop to its own lake never enters a ring (R68); in a level change's drain it stays at its stop (R194, R336). -/
def State.passStraight (s : State) (k : Packet) (iss : Int) : State :=
  let s := s.modStop k.src fun x => { x with held := x.held.filter fun h => !samePacket h.k k }
  if s.draining then s.modStop k.src fun x => { x with held := x.held ++ [⟨k, false, s.pw.now, iss⟩] }
  else s.ejectRequest k iss false true

/-- PACKET_INJECT (R66 to R68). -/
def execPacketInject (k : Packet) (s : State) : Host.Outcome State Fault Refusal :=
  if k.src != k.dst then .next (s.launch k s.pw.now)
  else if k.resp then .next (s.deliver k)
  else
    let h := s.asHeld k false s.pw.now
    .next (s.passStraight h.1 h.2)

/-- Where a starving stop's reservation goes: the first full position without a reservation that will pass the stop (R67). -/
def nextFull (s : State) (p : Nat) (ccw : Bool) : Option (Nat × Nat) :=
  let taken := (s.stops.map fun e => (e.2.rsv.filter (·.1 = ccw)).map (·.2.2)).flatten
  let comes (t : Transit) : Nat := t.at_ + 3 + (if ccw then Config.cwDist p t.k.src else Config.cwDist t.k.src p)
  let can := s.ring.filter fun t => t.ccw = ccw && s.pw.now ≤ comes t && comes t - t.at_ - 3 < Config.hops t.k.src t.k.dst
    && t.k.src != p && !taken.contains t.k.id
  let first := can.foldl (fun o t => match o with
    | none => some t
    | some u => if comes t < comes u then some t else some u) none
  first.map fun t => (phase ccw p (comes t), t.k.id)

/-- STOP_STARVING (R67): a stop that has held a packet for 32 T-cycles reserves the next full position. -/
def execStopStarving (p : Fin 47) (ccw : Bool) (s : State) : Host.Outcome State Fault Refusal :=
  match (s.stop p).held.find? (fun t => t.ccw = ccw && t.k.src != t.k.dst) with
  | none => .next s
  | some t =>
    if (s.stop p).starving ccw then .next s
    else
      let s := s.reach (t.at_ + 32)
      let s := match nextFull s p ccw with
        | some r => (s.modStop p fun x => { x with rsv := x.rsv ++ [(ccw, r)] }).countCanal 0x65 p none (some ccw)
        | none => s
      .next (s.modStop p fun x => x.setStarving ccw true)

/-- A packet leaves its ring at its destination; a stop that has ejected as many of its direction as it may in the T-cycle takes it in the next
(R65). DESIGN CHOICE (assumption log 11). -/
def State.leaveRing (s : State) (t : Transit) : State :=
  let p := t.k.dst.val
  let s := s.reach (t.at_ + 5 + Config.hops t.k.src t.k.dst)
  let last (s : State) : Nat × Nat := if t.ccw then (s.stop p).ejCcw else (s.stop p).ejCw
  let s := if (last s).1 = s.pw.now && Config.stopRate p ≤ (last s).2 then s.elapse 1 else s
  let e : Nat × Nat := (s.pw.now, if (last s).1 = s.pw.now then (last s).2 + 1 else 1)
  let s := s.modStop p fun x => if t.ccw then { x with ejCcw := e } else { x with ejCw := e }
  { s with ring := s.ring.erase t }.countCanal 0x62 p (some t.k.label) (some t.ccw)

/-- PACKET_EJECT (R65, R70, R71). A packet does not leave its ring before an earlier one of its engine to the same stop (R72). -/
def execPacketEject (id : Nat) (parityOk : Bool) (s : State) : Host.Outcome State Fault Refusal :=
  match s.ring.find? (fun t => t.k.id = id && !t.k.resp) with
  | none => .next s
  | some t =>
    if (s.ring.takeWhile (· != t)).any (fun u => !u.k.resp && u.k.src = t.k.src && u.k.idx = t.k.idx && u.k.dst = t.k.dst) then .next s
    else .next ((s.leaveRing t).ejectRequest t.k t.iss t.ccw parityOk)

/-! ### Responses (R66, R71, R73, R316) -/

/-- The answer to a request of a Spring that this die has served: data lands; a RETRY is waited out and the request issued again (R71,
R89, R184). DEDUCED (assumption log 13). -/
def State.springMail (s : State) (m : SpringMail) (parityOk : Bool) : State :=
  let s := { s with inbox := s.inbox.filter (·.id != m.id) }
  if !parityOk then (s.linkFail (Config.lakePos m.n) none none).springBack m.n m.seq m.piece .uncorrectable []
  else if m.st = .retry then
    match s.desc m.n m.seq with
    | some d =>
      match pieceOf d m.piece with
      | some p =>
        let due := (s.backoff.filter (fun e => e.1.2 = canalIdent (Config.lakePos m.n) 0)).foldl (fun t e => max t e.2.2) 0
        let s := (s.reach due).modDesc m.n m.seq fun d => { d with asked := d.asked.filter (· != m.piece) }
        State.issuePiece m.n m.seq s p
      | none => s
    | none => s
  else s.springBack m.n m.seq m.piece m.st m.data

/-- The answer from another die to a request of this one (R34, R113, R114, R250), ejected at its requester's stop. -/
def State.remoteAnswer (s : State) (r : Remote) (st : Status) (d : List Word) (parityOk : Bool) : State :=
  let s := { s with remotes := s.remotes.filter (·.id != r.id) }
  let st := if parityOk then st else .uncorrectable
  let s := if parityOk then s else s.linkFail r.who.pos none none
  let s := s.deadlines r.who r.op false (some r.pos) s.pw.now
  match r.src, r.desc with
  | some c, _ => s.emit (.resp c.port c.tag st d 0 0)
  | none, some (n, q, i) => s.springBack n q i st d
  | _, _ => s

/-- A response on a ring is ejected at its source stop; one that fails parity is delivered with UNCORRECTABLE (R66, R316). -/
def State.ejectResponse (s : State) (t : Transit) (parityOk : Bool) : State :=
  let s := s.leaveRing t
  if parityOk then s.deliver t.k
  else (s.linkFail t.k.dst (some t.k.label) (some t.ccw)).deliver { t.k with st := .uncorrectable }

/-- RESPONSE_EJECT (R66, R73, R316): of this die to a Spring, from another die with a status and data, or a packet on a ring with its own. -/
def execResponseEject (id : Nat) (st : Status) (d : List Word) (parityOk : Bool) (s : State) : Host.Outcome State Fault Refusal :=
  match s.inbox.find? (·.id = id), s.remotes.find? (·.id = id), s.ring.find? (fun t => t.k.id = id && t.k.resp) with
  | some m, _, _ => .next (s.springMail m parityOk)
  | none, some r, _ => .next (s.remoteAnswer r st d parityOk)
  | none, none, some t => .next (s.ejectResponse t parityOk)
  | none, none, none => .next s

/-- STOP_REISSUE (R71): once their backoff has expired, a refused request and those refused after it go again, in their order. -/
def execStopReissue (p dst idx : Fin 47) (s : State) : Host.Outcome State Fault Refusal :=
  let ks := (s.stop p).copies.filter (fun e => e.1.dst = dst && e.1.idx = idx)
  if ks = [] then .next s
  else
    let s := s.reach (ks.foldl (fun t e => max t e.2) 0)
    let s := s.modStop p fun x => { x with copies := x.copies.filter fun e => !(e.1.dst = dst && e.1.idx = idx) }
    .next (ks.foldl (fun s e => if p = dst then s.passStraight e.1 (s.asHeld e.1 false s.pw.now).2 else s.launch e.1 s.pw.now) s)

/-- CLIENT_TAKES_REQUEST (R105): at a stop that is no lake's, at most the stop's eject limit in a T-cycle. -/
def execClientTakesRequest (p : Fin 47) (id : Nat) (s : State) : Host.Outcome State Fault Refusal :=
  if (Config.posLake p).isSome || !(s.stop p).queue.any (·.id = id) then .next s
  else
    let s := if (s.stop p).took.1 = s.pw.now && Config.stopRate p ≤ (s.stop p).took.2 then s.elapse 1 else s
    .next ((s.modStop p fun x =>
      { x with queue := x.queue.filter (·.id != id)
               took := (s.pw.now, if x.took.1 = s.pw.now then x.took.2 + 1 else 1) }).emit (.delivered p id))

end Sys2Proof.Machine
end

