-- ==== Sys2Proof/Machine/Ownership.lean ====
section
/-!
DEFINITION. Ownership of lakes, segments' contexts and reels (R121 to R144): the registers that name owners and rights, the
handover, the context slots with their saves and restores, and the reels.
-/
namespace Sys2Proof.Machine

/-! ### Lakes (R121, R123 to R129) -/

/-- Engine ids that R121 lists. -/
def engineListed (e : Nat) : Bool :=
  e < 0x50 || (0x50 ≤ e && e < 0x68) || (0x70 ≤ e && e < 0x74) || e = 0x78 || e = 0x79 || e = 0x7A || e = 0x7C || e = 0x7D

/-- The principal in the low 20 bits of an owner register. -/
def ownerIn (v : BitVec 64) : Principal := ⟨BitVec.ofNat 8 (bits v 0 8), BitVec.ofNat 12 (bits v 8 12)⟩

/-- A principal that may own a lake: a listed engine, and TID 0 for the sources of R101 alone (R122, R129). -/
def mayOwn (p : Principal) : Bool :=
  engineListed p.engine.toNat && (p.tid != 0 || p.engine = 0x78 || p.engine = 0x7C || p.engine = 0x7D)

/-- The lake passes to a new owner in one T-cycle: its share mask is cleared and its Spring unbound (R129). -/
def State.handover (s : State) (n : Nat) (p : Principal) : State :=
  (s.modLake n fun l => { l with owner := p, share := 0 }).modSpring n fun x => { x with bound := false, slots := [], descs := [] }

/-- A write to `LK_OWNER` (R123, R129). -/
def lkOwnerSet (c : Ctl) (n : Nat) (v : BitVec 64) (s : State) : State :=
  s.privOnly c fun s =>
    if ownerIn v = (s.lake n).owner then s.done c
    else s.unless c [!mayOwn (ownerIn v), !quiescent s n] fun s => (s.handover n (ownerIn v)).done c

/-- A write to `LK_SHARE` (R124, R125). -/
def lkShareSet (c : Ctl) (n : Nat) (v : BitVec 64) (s : State) : State :=
  s.ownerOnly c n fun s => (s.modLake n fun l => { l with share := BitVec.ofNat 14 v.toNat &&& 0x37FF }).done c

/-- A write to `LK_MSO_CTL` (R164, R168). -/
def msoCtlSet (c : Ctl) (n : Nat) (v : BitVec 64) (s : State) : State :=
  s.ownerOnly c n fun s => (s.modLake n fun l => { l with forceRne := bit v 0 }).done c

/-- A write to `LK_MSO_STAT` (R11, R168): each 1 clears its flag. -/
def msoStatSet (c : Ctl) (n : Nat) (v : BitVec 64) (s : State) : State :=
  (s.modLake n fun l => { l with fInvalid := l.fInvalid && !bit v 0, fOverflow := l.fOverflow && !bit v 1,
                                 iOverflow := l.iOverflow && !bit v 2, srForced := l.srForced && !bit v 3 }).done c

/-- A write to `LK_SR_SEED` (R163, R168): the value is mixed into the generator, whose draws stay free. DESIGN CHOICE (assumption log
17). -/
def srSeedSet (c : Ctl) (n : Nat) (v : BitVec 64) (s : State) : State :=
  s.privOnly c fun s => (s.modLake n fun l => { l with srSeed := v, mixes := l.mixes ++ [(s.pw.now, v)] }).done c

/-- A write to `LK_BILL` (R434). -/
def billSet (c : Ctl) (n : Nat) (v : BitVec 64) (s : State) : State :=
  s.privOnly c fun s => (s.modLake n fun l => { l with billLabel := BitVec.ofNat 6 (bits v 0 6), billEn := bit v 6 }).done c

/-- A write to `TM_EP_ID` (R32, R33): only the first is stored, with bit 0 as the package strap has it. -/
def epIdSet (c : Ctl) (v : BitVec 64) (s : State) : State :=
  s.privOnly c fun s => s.unless0 c s.tm.epValid fun s =>
    { s with tm := { s.tm with epId := BitVec.ofNat 16 (bits v 1 15 * 2 + b2n s.tm.pkgDie), epValid := true } }.done c

/-! ### Contexts (R139 to R143) -/

/-- Context slots there are, and those of an absent lake (R139, R446). -/
def slotExists (x : Nat) : Bool := x < 272
def slotAbsent (v : Variant) (x : Nat) : Bool := 80 ≤ x && x < 272 && !Config.lakePresent v ((x - 80) / 8)

/-- The bits of word `i` of a context record that are not reserved (R140). -/
def ctxMask (i : Nat) : BitVec 64 :=
  if i = 0 then 0x0000007FFFFFFFFF
  else if i = 1 then 0xFFFFFFFF0000003F
  else if i < 10 then (if i % 2 = 0 then 0x00000FFFFFFFFF00 else 0x00000FFFFFFFFF07)
  else if i < 12 then 0x01FFFFFF01FFFFFF
  else if i < 20 then (if i % 2 = 0 then 0xFFFFFFFF000000FF else 0x00000000FFFFFFFF)
  else 0

/-- A cue range of a record: first cue and count (R140). -/
def ctxCues (r : Ctx) : List (Nat × Nat) :=
  (List.range 4).map fun i => let v := Ctx.word r (10 + i / 2); (bits v (32 * (i % 2)) 12, bits v (32 * (i % 2) + 12) 13)

/-- A reel binding of a record: reel, `APPLY`, `USED`, `TAIL`, `HEAD` (R140). -/
structure Binding where
  reel  : Nat
  apply : Bool
  used  : Bool
  tail  : Nat
  head  : Nat

def ctxBinding (r : Ctx) (i : Nat) : Binding :=
  let a := Ctx.word r (12 + 2 * i)
  ⟨bits a 0 6, bit a 6, bit a 7, bits a 32 32, bits (Ctx.word r (13 + 2 * i)) 0 32⟩
def ctxBindings (r : Ctx) : List Binding := (List.range 4).map (ctxBinding r)

/-- The cases of R143's list in which a restore into a slot fails, in its order. -/
def restoreFails (s : State) (valid : Bool) (r : Ctx) : List Bool :=
  [valid, bits (r.word 0) 0 16 != 1, !(List.range 64).all (fun i => r.word i &&& ~~~ ctxMask i = 0),
   !engineListed (bits (r.word 0) 16 8), bits (r.word 0) 24 12 = 0,
   !(ctxCues r).all (fun c => c.1 + c.2 ≤ 4096), !(ctxBindings r).all (fun b => !b.apply || !(s.reel b.reel).enable)]

/-- The checks of a restore on the record itself pass (R143). -/
def recordOk (s : State) (r : Ctx) : Bool := (restoreFails s false r).all (!·)

/-- The load step (R143): the context, the cues of its ranges (R232), the reels of its bindings, `VALID`. -/
def State.loadCtx (s : State) (x : Nat) (r : Ctx) : State :=
  let pr := ctxPrincipal r
  let s := s.setCtx x (Tab.set (fun _ => 0) r 0 (r.word 0 ||| 0x2000000000))
  let s := ((ctxCues r).map fun c => (List.range c.2).map (c.1 + ·)).flatten.foldl (fun s k => s.modCue k fun c => { c with owner := pr }) s
  (ctxBindings r).foldl (fun s b =>
    if b.used && b.apply then s.modReel b.reel fun e => { e with tail := BitVec.ofNat 32 b.tail, head := BitVec.ofNat 32 b.head } else s) s

/-- A write to `TM_CTX_SEL` (R141). -/
def ctxSelSet (c : Ctl) (v : BitVec 64) (s : State) : State :=
  s.privOnly c fun s => s.unless0 c (!slotExists (bits v 0 9)) fun s =>
    { s with tm := { s.tm with ctxSel := BitVec.ofNat 9 (bits v 0 9) } }.done c

/-- A write to word `i` of the live view (R141): while the slot's `VALID` is 0, stored; setting `VALID` is the load step, under the
checks of a restore. -/
def liveSet (c : Ctl) (i : Nat) (v : BitVec 64) (s : State) : State :=
  let x := s.tm.ctxSel.toNat
  if slotAbsent s.variant x then s.nack c .absent
  else s.privOnly c fun s =>
    let r : Ctx := Tab.set (fun _ => 0) (s.ctx x) i (v &&& ctxMask i)
    s.unless c (if i = 0 && bit v 37 then restoreFails s (ctxValid (s.ctx x)) r else [ctxValid (s.ctx x)]) fun s =>
      if i = 0 && bit v 37 then (s.loadCtx x r).done c else (s.setCtx x r).done c

/-- Data-view byte address of the record named by `TM_CTX_SAVE` or `TM_CTX_RESTORE`. -/
def recordAddr (v : BitVec 64) : Nat := bits v 9 35 * 512

/-- The address lies in the data view of a present lake. -/
def inDataView (v : Variant) (a : Nat) : Bool := match decodeAddr v a with | .word .data _ => true | _ => false

/-- The stop of a slot's engine begins a save (R142, steps 2 to 4): takes under the slot are aborted, its waiter entries released.
DEDUCED (assumption log 25). -/
def State.beginSave (s : State) (x : Nat) : State :=
  let s := if 80 ≤ x then (s.endTake ((x - 80) / 8) (2 * ((x - 80) % 8)) 3).endTake ((x - 80) / 8) (2 * ((x - 80) % 8) + 1) 3 else s
  ((List.range Config.lakes).foldl (fun s n => s.releaseWaiters n (fun e => e.who.slot = some x) .retry 1) s).serveCues

/-- A write to `TM_CTX_SAVE` (R141, R142). -/
def ctxSaveSet (c : Ctl) (v : BitVec 64) (s : State) : State :=
  let x := bits v 0 9
  if slotAbsent s.variant x then s.nack c .absent
  else s.privOnly c fun s => s.unless c [s.tm.ctxBusy, !slotExists x, !inDataView s.variant (recordAddr v)] fun s =>
    let s := { s with tm := { s.tm with ctxSave := v &&& 0x00000FFFFFFFFFFF, ctxBusy := true, ctxIsSave := true, ctxLast := x } }
    (if ctxValid (s.ctx x) then s.beginSave x else s).done c

/-- A write to `TM_CTX_RESTORE` (R141, R143). -/
def ctxRestoreSet (c : Ctl) (v : BitVec 64) (s : State) : State :=
  let x := bits v 0 9
  if slotAbsent s.variant x then s.nack c .absent
  else s.privOnly c fun s => s.unless c [s.tm.ctxBusy, !slotExists x, !inDataView s.variant (recordAddr v)] fun s =>
    { s with tm := { s.tm with ctxRestore := v &&& 0x00000FFFFFFFFFFF, ctxBusy := true, ctxIsSave := false, ctxLast := x } }.done c

/-- The save or restore in progress ends with a status. DEDUCED (assumption log 26). -/
def State.endCtx (s : State) (st : Status) : State := { s with tm := { s.tm with ctxBusy := false, ctxStatus := st.code } }

/-- Who reads and writes context records: the management stop (R142). -/
def recordWho (s : State) : Who := whoOf s .mgmt
def recordReq (a : Nat) : Req := { port := .mgmt, tag := 0, addr := BitVec.ofNat 64 a, words := 8 }

/-- A row of a record refused by its lake (R131, R343). -/
def State.refuseRecord (s : State) (w : Who) (n a : Nat) (st : Status) (rec : Option (Nat × Nat)) : State :=
  let s := if st = .nackLakeOff then
      (s.countLake n 0x0D w.quals (some w.label)).modLp n fun x => { x with nacks := satAdd max32 x.nacks 1 }
    else s
  match rec with | some r => s.log r.1 st (Config.lakePos n) w.pr r.2 a | none => s

/-- What the record's lake makes of one of its rows: refused, to be waited for (a wake that this starts), or open. DEDUCED (assumption
log 25). -/
def State.recordGate (s : State) (op : Op) (a : Nat) : Gate × State :=
  let w := recordWho s
  let n := lakeOf (a / 256)
  match gateEarly s w op (recordReq a) .data n (a / 32) with
  | .refuse st rec => (.refuse st rec, s.refuseRecord w n a st rec)
  | .hold => (.hold, if (s.lp n).state = .ret then s.wakeDown n true else s)
  | .go =>
    if (s.lp n).state = .idle then (.hold, s.wakeIdle n)
    else match gateLate s w op (recordReq a) .data n (a / 32) with
      | .refuse st rec => (.refuse st rec, s.refuseRecord w n a st rec)
      | g => (g, s)

/-- Four words of 8 bytes as a word, and the record's words in a row's worth. -/
def packWord (f : Nat → BitVec 64) (i : Nat) : Word :=
  BitVec.ofNat 256 ((f (4 * i)).toNat + 2 ^ 64 * (f (4 * i + 1)).toNat + 2 ^ 128 * (f (4 * i + 2)).toNat + 2 ^ 192 * (f (4 * i + 3)).toNat)

/-- The record built from a slot (R142): the bindings in use take the pointers of their reels. -/
def recordOf (s : State) (r : Ctx) (i : Nat) : BitVec 64 :=
  if 12 ≤ i && i < 20 then
    let b := ctxBinding r ((i - 12) / 2)
    let e := s.reel b.reel
    if !b.used then r.word i
    else if i % 2 = 0 then BitVec.ofNat 64 (bits (r.word i) 0 8 + 2 ^ 32 * e.tail.toNat)
    else BitVec.ofNat 64 e.head.toNat
  else r.word i

/-- One row of a record at its pond. -/
def State.recordRow (s : State) (op : Op) (r : RowReq) : RowOut × State :=
  let w := recordWho s
  let (_, s) := s.place w (lakeOf r.row) op .plain false [r]
  rowAccess s w op false .plain r

/-- One row of the record written whole. -/
def State.writeRecordRow (s : State) (r : Ctx) (a k : Nat) : Status × State :=
  let data := (List.range 8).map fun i => packWord (recordOf s r) (8 * k + i)
  let (o, s) := s.recordRow .write ⟨a / 256 + k, List.range 8, data, false⟩
  (o.res.st, s)

/-- One row of a record read. -/
def State.readRecordRow (s : State) (a k : Nat) : Status × List Word × State :=
  let (o, s) := s.recordRow .read ⟨a / 256 + k, List.range 8, [], false⟩
  (o.res.st, o.res.words, s)

/-- Everything that slot `x` issued has completed, and its takes have ended (R142, steps 3 to 5). DEDUCED (assumption log 25). -/
def slotQuiet (s : State) (x : Nat) : Bool :=
  !(awaits s 2).any (·.slot = some x) &&
  (x < 80 || (((s.lake ((x - 80) / 8)).take (2 * ((x - 80) % 8))).state = .free &&
              ((s.lake ((x - 80) / 8)).take (2 * ((x - 80) % 8) + 1)).state = .free))

/-- CONTEXT_SAVE_COMPLETE (R142, steps 5 to 9). DEDUCED (assumption log 25). -/
def execContextSaveComplete (s : State) : Host.Outcome State Fault Refusal :=
  let x := bits s.tm.ctxSave 0 9
  let a := recordAddr s.tm.ctxSave
  if !s.tm.ctxBusy || !s.tm.ctxIsSave || s.pw.deep != 0 || s.draining then .next s
  else if !ctxValid (s.ctx x) then .next (s.endCtx .nackState)
  else if !slotQuiet s x then .next s
  else
    match s.recordGate .write a with
    | (.hold, s) => .next s
    | (.refuse st _, s) => .next ((s.invalidSlot x).endCtx st)
    | (.go, s) =>
      let r := s.ctx x
      let (a1, s) := s.writeRecordRow r a 0
      let (a2, s) := s.writeRecordRow r a 1
      .next ((s.invalidSlot x).endCtx (firstStatus [a1, a2]))

/-- Word `i` of 8 bytes among words of 32. -/
def octOf (ws : List Word) (i : Nat) : BitVec 64 := BitVec.ofNat 64 (bits (ws.getD (i / 4) 0) (64 * (i % 4)) 64)

/-- CONTEXT_RESTORE_LOAD (R143). DEDUCED (assumption log 26). -/
def execContextRestoreLoad (s : State) : Host.Outcome State Fault Refusal :=
  let x := bits s.tm.ctxRestore 0 9
  let a := recordAddr s.tm.ctxRestore
  if !s.tm.ctxBusy || s.tm.ctxIsSave || s.pw.deep != 0 || s.draining then .next s
  else if ctxValid (s.ctx x) then .next (s.endCtx .nackState)
  else
    match s.recordGate .read a with
    | (.hold, s) => .next s
    | (.refuse st _, s) => .next (s.endCtx st)
    | (.go, s) =>
      let (a1, w1, s) := s.readRecordRow a 0
      let (a2, w2, s) := s.readRecordRow a 1
      let st := firstStatus [a1, a2]
      let r : Ctx := (List.range 64).foldl (fun t i => Tab.set (fun _ => 0) t i (octOf (w1 ++ w2) i)) []
      if st != .ok then .next (s.endCtx st)
      else if !recordOk s r then .next (s.endCtx .nackState)
      else .next ((s.loadCtx x r).endCtx .ok)

/-! ### Reels (R136 to R138, R172) -/

/-- The reel is some Spring's command reel. -/
def reelBound (s : State) (e : Nat) : Bool := (List.range Config.lakes).any fun n => (s.spring n).bound && (s.spring n).reel.toNat = e

/-- The conditions of R137 that a reel in use fails, in its order: its rows lie in one present lake, and it holds no more than its
capacity. -/
def Reel.misfits (v : Variant) (r : Reel) : List Bool :=
  let n := r.base.toNat / Config.rowsPerLake
  [!(Config.lakePresent v n && r.base.toNat + 2 ^ r.size.toNat ≤ (n + 1) * Config.rowsPerLake),
   decide (2 ^ r.size.toNat < (r.tail - r.head).toNat)]
def Reel.fits (v : Variant) (r : Reel) : Bool := (r.misfits v).all (!·)

/-- A write to `REEL_CFG` (R136, R137, R172). -/
def reelCfgSet (c : Ctl) (e : Nat) (v : BitVec 64) (s : State) : State :=
  s.privOnly c fun s =>
    let r := s.reel e
    let r' : Reel := { r with size := BitVec.ofNat 5 (bits v 0 5), enable := bit v 5, slated := bit v 6, producer := BitVec.ofNat 8 (bits v 8 8),
                              consumer := BitVec.ofNat 8 (bits v 16 8), refused := false }
    s.unless0 c (reelBound s e || 16 ≤ bits v 0 5) fun s =>
      s.unless c (if bit v 5 || (r.enable && r'.size != r.size) then r'.misfits s.variant else []) fun s => (s.modReel e fun _ => r').done c

/-- A write to `REEL_BASE` (R136, R137, R172). -/
def reelBaseSet (c : Ctl) (e : Nat) (v : BitVec 64) (s : State) : State :=
  s.privOnly c fun s =>
    let r := s.reel e
    let r' := { r with base := BitVec.ofNat 36 (bits v 8 36) }
    s.unless0 c (reelBound s e) fun s =>
      s.unless c (if r.enable && r'.base != r.base then r'.misfits s.variant else []) fun s => (s.modReel e fun _ => r').done c

/-- An advance of a reel that is in use is refused (R138). -/
def State.refuseReel (s : State) (c : Ctl) (e detail : Nat) : State := (s.modReel e fun r => { r with refused := true }).deny c .nackState detail

/-- A write to a pointer of a reel by a privileged agent or the engine named for it (R136 to R138, R172). -/
def State.movePointer (s : State) (c : Ctl) (e : Nat) (named : BitVec 8) (fails : Reel → List Bool) (store : Reel → Reel) : State :=
  let r := s.reel e
  if !(c.w.priv || named.toNat = c.w.engine) then s.nack c .nackOwner
  else s.unless0 c (reelBound s e || (!r.enable && !c.w.priv)) fun s =>
    match firstOf (if r.enable then fails r else []) with
    | 0 => (s.modReel e store).done c
    | k => s.refuseReel c e k

/-- A write to `REEL_TAIL` (R138). -/
def reelTailSet (c : Ctl) (e : Nat) (v : BitVec 64) (s : State) : State :=
  let p := BitVec.ofNat 32 v.toNat
  s.movePointer c e (s.reel e).producer
    (fun r => [2 ^ 31 ≤ (p - r.tail).toNat, 2 ^ r.size.toNat < (p - r.head).toNat]) (fun r => { r with tail := p })

/-- A write to `REEL_HEAD` (R138). -/
def reelHeadSet (c : Ctl) (e : Nat) (v : BitVec 64) (s : State) : State :=
  let p := BitVec.ofNat 32 v.toNat
  s.movePointer c e (s.reel e).consumer (fun r => [(r.tail - r.head).toNat < (p - r.head).toNat]) (fun r => { r with head := p })

end Sys2Proof.Machine
end

