-- ==== Sys2Proof/Machine/Flags.lean ====
section
/-!
DEFINITION. What the registers of the control space read as: the status words and flags that the spec computes from the state
of each unit (R443), and the words of error records, firmware images and the dailies page.
-/
namespace Sys2Proof.Machine

/-! ### Parts of words -/

def prWord (p : Principal) : Nat := p.engine.toNat + p.tid.toNat * 2 ^ 8

/-- A word of 64 bits put together from fields. -/
def word64 (fs : List (Nat × Nat)) : BitVec 64 := pack 64 fs

def LkState.code : LkState → Nat
  | .on => 0 | .idle => 1 | .ret => 2 | .off => 3 | .draining => 4 | .entering => 5 | .waking => 6
def TakeState.code : TakeState → Nat
  | .free => 0 | .open => 1 | .committing => 2 | .aborting => 3
def WinState.code : WinState → Nat
  | .free => 0 | .open => 1 | .closing => 2 | .closed => 3

/-- `n` bytes of a firmware image from an offset on, lowest first (R419). -/
def Image.field (m : Image) (off : Nat) : Nat → Nat
  | 0 => 0
  | k + 1 => (Tab.get (fun _ => 0) m off).toNat + 256 * Image.field m (off + 1) k

/-! ### Global block -/

/-- `TM_EP_ID` (R32): bit 0 always reads as `PKG_DIE`. -/
def epIdWord (s : State) : BitVec 64 :=
  word64 [(0, s.tm.epId.toNat / 2 * 2 + b2n s.tm.pkgDie), (16, b2n s.tm.epValid), (17, b2n s.tm.pkgDie)]

/-- `TM_CAP0` to `TM_CAP3` (R7 to R10, R445). -/
def capWord (v : Variant) (i : Nat) : BitVec 64 :=
  BitVec.ofNat 64 (match i with | 0 => Config.cap0 v | 1 => Config.cap1 v | 2 => Config.cap2 v | _ => Config.cap3 v)

/-- `TM_ABORT_STAT` (R191). -/
def abortStat (s : State) : BitVec 64 :=
  word64 [(0, b2n s.tm.abBusy), (1, b2n s.tm.abDone), (2, b2n s.tm.abFault),
    (3, b2n (s.tm.abQueue != [] || s.oldestDeferred.isSome)), (4, prWord s.tm.abCur), (24, s.tm.abQueue.length)]

/-- `TM_PREEMPT_STAT` (R297). -/
def preemptStat (s : State) : BitVec 64 :=
  word64 [(0, b2n s.tm.peBusy), (1, b2n s.tm.peDone), (2, s.tm.peMe), (6, s.tm.peCommit), (11, s.tm.peAbort)]

/-- `TM_FW_STAT` (R429). -/
def fwStat (s : State) : BitVec 64 :=
  word64 [(0, if s.fw.running then s.fw.slotA.field 0x14 2 else 0), (16, b2n (s.fw.running && s.fw.state = .trial)),
    (17, b2n s.fw.sibValid), (18, b2n s.fw.sibTrial), (32, s.fw.sibIface.toNat)]

/-! ### Power -/

def lakePowerWord (x : LakePower) : BitVec 64 :=
  word64 [(0, x.req.toNat), (2, b2n x.autoIdle), (3, b2n x.wakeReq), (16, x.idleDelay.toNat)]
def lakePowerStat (x : LakePower) : BitVec 64 := word64 [(0, x.state.code), (32, x.nacks)]

/-! ### Arbiters (R92 to R96) -/

def ArbCfg.word (a : ArbCfg) : Nat → BitVec 64
  | 0 => word64 [(0, a.burstM1.toNat), (8, b2n a.fallback)]
  | 1 => word64 [(0, a.q0.toNat), (8, a.q1.toNat), (16, a.q2.toNat)]
  | _ => a.ovr.setWidth 64

/-- `LK_ARB_STAT` and `WEIR_STOP_STAT` (R95, R96), with the masks of the arbiter's last decision (R97). Between the grant that closes a
window and the next decision, which opens another, the word shows no grant and no class masked, where R95 leaves open what it shows.
DESIGN CHOICE (assumption log 11). -/
def arbStat (x : Arb) : BitVec 64 :=
  let g := if x.closed then (0, 0, 0, 0) else x.g
  let m := if x.closed then 0 else x.mask.toNat
  word64 [(0, g.1 + g.2.1 + g.2.2.1 + g.2.2.2), (8, m), (16, x.last), (22, b2n x.active)]

/-- The arbiter that `LK_ARB_STATj` of a set shows, where it is in use (R95). In the two-way split `LK_ARB_STAT2` and `LK_ARB_STAT3` belong
to no sub-shore and read zero, where R95 speaks of the whole setting alone. DESIGN CHOICE (assumption log 11). -/
def statArb (s : State) (n i j : Nat) : Option Nat :=
  if i < 2 then
    if subExists (s.lake n) (4 * i + j) then some (16 * n + 4 * i + j) else none
  else if j = 0 then some (16 * n + 6 + i) else none

/-! ### Weir -/

/-- `WEIR_DL_EST` of a stop and direction (R113). -/
def dlEst (s : State) (i : Nat) : BitVec 64 :=
  let e (c : Nat) : Est := Tab.get (fun _ => Est.reset) s.weir.est (4 * i + c)
  word64 (((List.range 4).map fun c => [(16 * c, (e c).w), (16 * c + 15, b2n (decide (16 ≤ (e c).n)))]).flatten)

/-! ### Error log (R319, R323) -/

/-- Word `i` of 8 bytes of a record (R319). -/
def Rec.word (r : Rec) : Nat → BitVec 64
  | 0 => BitVec.ofNat 64 r.time
  | 1 => word64 [(0, r.seq), (32, r.cls), (36, r.status), (40, r.source), (48, r.engine)]
  | 2 => word64 [(0, r.tid), (16, r.detail), (32, r.count)]
  | _ => BitVec.ofNat 64 r.addr
def recWord (r : Option Rec) (i : Nat) : BitVec 64 := match r with | some r => r.word i | none => 0

def errStat (s : State) : BitVec 64 :=
  word64 [(0, b2n s.err.lost), (1, b2n s.err.firstV), (2, b2n s.err.fatal), (3, s.err.ibiPend.toNat), (16, s.err.intake.length)]

/-! ### Counters and dailies (R382 to R390) -/

/-- `CNT_CFG` as it reads (R12, R382): `DIR` is reserved outside the canal set. -/
def cfgWord (o : Nat) (cfg : BitVec 32) : BitVec 64 :=
  match cntSetOf o with
  | some (.canal, _) => cfg.setWidth 64
  | _ => (cfg &&& 0x3FFFFFFF).setWidth 64

def Counter.word (c : Counter) : BitVec 64 := word64 [(0, c.val), (48, b2n c.wrap)]

/-- A lake's, Spring's or arbiter set's counter entry belongs to an absent lake (R378). -/
def ctrAbsent (v : Variant) (o : Nat) : Bool :=
  match cntSetOf o with
  | some (.lake, n) => !Config.lakePresent v n
  | some (.spring, n) => !Config.lakePresent v n
  | some (.arb, k) => !Config.lakePresent v (k / 5)
  | _ => false

/-- The copy of a counter entry in the dailies page (R389, R390): zero before the first snapshot and for absent units. -/
def pageEntry (s : State) (o : Nat) : Counter :=
  let none_ := s.cnt.seqA = 0 && s.cnt.time = 0
  if ctrAbsent s.variant o then Counter.zero
  else Tab.get (fun _ => if none_ then Counter.zero else Counter.reset) s.cnt.page o

/-! ### Springs (R195, R213) -/

/-- `NEXT_SEQ` of `SPR_STAT`: the next descriptor to start. -/
def nextSeq (x : Spring) : Nat :=
  match x.nextDesc with | some d => d.seq | none => 4 * x.nextRead % 2 ^ 32

def sprStat (s : State) (n : Nat) : BitVec 64 :=
  let x := s.spring n
  word64 [(0, b2n (s.springIdle n)), (1, b2n (x.nextDesc.isSome && x.descs.any (·.holding))), (2, b2n x.cutBusy),
    (3, b2n (s.removedOf n != [])), (4, x.depth), (11, countTrue (·.stage = .flight) x.descs), (32, nextSeq x)]

/-- `SPR_DONE_SEQ`: a cancelled or removed descriptor counts no more, though its cut or abort has not ended. -/
def sprDoneSeq (x : Spring) : Nat :=
  match x.inFlight.find? (fun d => !d.cut && !d.removed) with | some d => d.seq | none => nextSeq x

/-! ### March (R377) -/

def sumOver (l : List Nat) : Nat := l.foldl (· + ·) 0
/-- Spares of a lake that a test picks: rows, and column groups. -/
def spareRows (m : Mte) (p : Spare → Bool) : Nat := sumOver (m.repair.map fun e => countTrue (fun r => p r.2) e.2.rows)
def spareCols (m : Mte) (p : Spare → Bool) : Nat := sumOver (m.repair.map fun e => countTrue (fun r => p r.2) e.2.cols)

def mteSummary (m : Mte) : BitVec 64 :=
  word64 [(0, spareRows m (fun x => x.used && !x.soft)), (10, spareRows m (fun x => x.used && x.soft)),
    (20, spareCols m (fun x => x.used && !x.soft)), (28, spareCols m (fun x => x.used && x.soft)),
    (36, countTrue (fun e => e.2.unrep) m.repair), (43, spareRows m (·.bad) + spareCols m (·.bad))]

/-- A mask whose bit i is set where a test holds of spare i. -/
def spareMask (k : Nat) (f : Nat → Bool) : Nat := sumOver ((List.range k).map fun i => b2n (f i) * 2 ^ i)

def pondMap (p : PondRepair) : BitVec 64 :=
  word64 [(0, spareMask 8 fun i => (p.row i).used), (8, spareMask 8 fun i => (p.row i).used && (p.row i).soft), (16, spareMask 8 fun i => (p.row i).bad),
    (24, spareMask 2 fun j => (p.col j).used), (26, spareMask 2 fun j => (p.col j).used && (p.col j).soft), (28, spareMask 2 fun j => (p.col j).bad),
    (30, b2n p.unrep), (32, p.failRows), (42, p.failCols)]

/-- A binding as `MTE_ROW_MAPi` or `MTE_COL_MAPj` shows it, its flags after `w` bits of target. -/
def Spare.word (x : Spare) (w : Nat) : BitVec 64 :=
  if x.used then word64 [(0, x.target), (w, 1), (w + 1, b2n x.soft)] else 0

/-! ### Every register -/

/-- The registers of a lake page (R26). -/
def lakeRegRead (s : State) : Reg → BitVec 64
  | .lkOwner n => BitVec.ofNat 64 (prWord (s.lake n).owner)
  | .lkShare n => (s.lake n).share.setWidth 64
  | .lkQuiet n =>
    word64 [(0, takesOpen s n), (5, (s.lake n).waiters.length), (12, windowsActive s n), (21, b2n (!s.springIdle n)), (22, b2n (inTransit s n)),
      (23, b2n (s.mte n).busy), (24, b2n (quiescent s n))]
  | .lkShoreCfg n => word64 [(0, (s.lake n).aSplit.toNat), (2, (s.lake n).bSplit.toNat)]
  | .lkArb n i which => ((s.lake n).arbSet i).word which
  | .lkArbStat n i j => match statArb s n i j with | some k => arbStat (s.arb k) | none => 0
  | .lkSlateOp n =>
    word64 [(0, (s.lake n).slFirst.toNat), (16, (s.lake n).slCount.toNat), (32, (s.lake n).slState.toNat), (34, b2n (s.lake n).slZero)]
  | .lkSlateStat n =>
    word64 [(0, b2n (s.lake n).slBusy), (1, b2n (s.lake n).slDone), (16, (s.lake n).steps.length), (32, (s.lake n).skipped)]
  | .lkSlateQuery n => word64 [(0, (s.lake n).query.toNat), (16, (s.slate (gRow n (s.lake n).query.toNat)).code)]
  | .lkMsoCtl n => BitVec.ofNat 64 (b2n (s.lake n).forceRne)
  | .lkMsoStat n =>
    word64 [(0, b2n (s.lake n).fInvalid), (1, b2n (s.lake n).fOverflow), (2, b2n (s.lake n).iOverflow), (3, b2n (s.lake n).srForced),
      (4, b2n (Config.hasTranspose s.variant))]
  | .lkSrSeed n => (s.lake n).srSeed
  | .lkTakeCtl n t =>
    let x := (s.lake n).take t
    word64 [(0, x.state.code), (2, b2n x.f.consume), (3, b2n x.f.sig), (4, x.f.scope.val), (8, x.f.cue.toNat), (32, prWord x.pr)]
  | .lkTakeOps n t =>
    let f := ((s.lake n).take t).f
    word64 [(0, f.opa.first.toNat), (16, f.opa.count.toNat), (32, f.opb.first.toNat), (48, f.opb.count.toNat)]
  | .lkTakeRes n t =>
    let x := (s.lake n).take t
    word64 [(0, x.f.res.first.toNat), (16, x.f.res.count.toNat), (32, s.takePending n t)]
  | .lkProt n => word64 [(0, b2n (s.lake n).wMode), (1, b2n (s.lake n).convBusy)]
  | .lkScrub n => word64 [(0, (s.lake n).scrubInt.toNat), (5, b2n (s.lake n).scrubEn)]
  | .lkScrubStat n => word64 [(0, (s.lake n).nextRow), (32, (s.lake n).passes)]
  | .lkEccCnt n => word64 [(0, (s.lake n).corrected), (24, (s.lake n).uncorr), (40, (s.lake n).poison)]
  | .lkEccInj n =>
    word64 [(0, (s.lake n).injRow.toNat), (16, b2n (s.lake n).injArm), (17, (s.lake n).injKind.toNat), (19, (s.lake n).injUnit.toNat)]
  | .lkBill n => word64 [(0, (s.lake n).billLabel.toNat), (6, b2n (s.lake n).billEn)]
  | .sprReel n => word64 [(0, (s.spring n).reel.toNat), (8, b2n (s.spring n).bound)]
  | .sprCtl n => word64 [(0, b2n (s.spring n).pause), (8, (s.spring n).depthMax.toNat), (15, b2n (s.spring n).depthFix)]
  | .sprStat n => sprStat s n
  | .sprDoneSeq n => BitVec.ofNat 64 (sprDoneSeq (s.spring n))
  | .sprCut n => (s.spring n).cutSeq.setWidth 64
  | .sprCutStat n =>
    word64 [(0, b2n (s.spring n).cutBusy), (1, b2n (s.spring n).cutDone), (2, (s.spring n).cancelled), (32, (s.spring n).firstSeq)]
  | .sprFault n =>
    let x := s.spring n
    word64 [(0, x.faultSt), (4, b2n x.faultV), (8, x.faultPr.engine.toNat), (16, x.faultPr.tid.toNat), (28, x.faultKind), (32, x.faultSeq)]
  | .sprFaultAddr n => (s.spring n).faultAddr
  | .sprDiscard n => BitVec.ofNat 64 (s.spring n).discard
  | .sprSkip n => BitVec.ofNat 64 (s.spring n).skip
  | .sprFaultFollow n => BitVec.ofNat 64 (s.spring n).follow
  | .sprTrkStat n => word64 [(0, trickleUsed (s.spring n)), (5, b2n (decide (trickleUsed (s.spring n) = 16)))]
  | .sprTrkDesc n => BitVec.ofNat 64 (s.spring n).trkDesc
  | .mteCtl n => word64 [(1, b2n (s.mte n).mode), (2, (s.mte n).bg.toNat)]
  | .mteStat n =>
    let m := s.mte n
    word64 [(0, b2n m.busy), (1, b2n m.done), (2, m.result), (4, m.phase), (7, b2n m.modeRun), (32, m.cycles)]
  | .mteSummary n => mteSummary (s.mte n)
  | .mtePondSel n => BitVec.ofNat 64 (s.mte n).sel
  | .mtePondMap n => pondMap ((s.mte n).pond (s.mte n).sel)
  | .mteRowMap n i => (((s.mte n).pond (s.mte n).sel).row i).word 9
  | .mteColMap n j => (((s.mte n).pond (s.mte n).sel).col j).word 6
  | _ => 0

/-- The registers of the cue, window and reel tables (R229, R273, R136). -/
def tableRegRead (s : State) : Reg → BitVec 64
  | .cueCfg c => word64 [(0, prWord (s.cue c).owner), (20, b2n (s.cue c).sigOpen), (24, (s.cue c).home.toNat)]
  | .cueCount c => word64 [(0, (s.cue c).count), (16, b2n (s.cue c).ovf), (32, (s.cue c).lost)]
  | .cueSignal c => (s.cue c).sig.setWidth 64
  | .cueWait c => (s.cue c).wait.setWidth 64
  | .winOwner w => BitVec.ofNat 64 (prWord (s.win w).owner)
  | .winRange w => word64 [(0, (s.win w).first.toNat), (16, (s.win w).rows.toNat), (32, (s.win w).lake.toNat)]
  | .winSrc w => word64 [(0, (s.win w).epFirst.toNat), (16, (s.win w).epLast.toNat)]
  | .winMode w => (s.win w).mode.setWidth 64
  | .winCtl w => (s.win w).cmd.setWidth 64
  | .winStat w => word64 [(0, (s.win w).state.code), (2, (s.win w).cause), (4, b2n (s.win w).late)]
  | .winCount w => BitVec.ofNat 64 (s.win w).accepted
  | .winLate w => BitVec.ofNat 64 (s.win w).rejected
  | .reelBase e => word64 [(8, (s.reel e).base.toNat)]
  | .reelCfg e =>
    let r := s.reel e
    word64 [(0, r.size.toNat), (5, b2n r.enable), (6, b2n r.slated), (8, r.producer.toNat), (16, r.consumer.toNat)]
  | .reelTail e => (s.reel e).tail.setWidth 64
  | .reelHead e => (s.reel e).head.setWidth 64
  | .reelStat e =>
    let r := s.reel e
    let o := (r.tail - r.head).toNat
    word64 [(0, bits (r.tail - r.head) 0 16), (16, b2n (decide (o = 0))), (17, b2n (decide (o = 2 ^ r.size.toNat))), (18, b2n r.refused)]
  | r => lakeRegRead s r

/-- Every other register, by block. -/
def regRead (s : State) : Reg → BitVec 64
  | .tmStatus => s.tmStatus.setWidth 64
  | .tmCap i => capWord s.variant i
  | .tmEpId => epIdWord s
  | .tmReset => 0
  | .tmResetStat => word64 [(0, s.tm.rstCause), (32, s.tm.warmCount)]
  | .tmLakeReset => s.tm.lrLake.setWidth 64
  | .tmLakeResetStat => word64 [(0, b2n s.tm.lrBusy), (1, b2n s.tm.lrDone), (2, s.tm.lrTarget)]
  | .tmCtxSel => s.tm.ctxSel.setWidth 64
  | .tmCtxSave => s.tm.ctxSave
  | .tmCtxRestore => s.tm.ctxRestore
  | .tmCtxStat => word64 [(0, b2n s.tm.ctxBusy), (1, s.tm.ctxStatus), (5, s.tm.ctxLast)]
  | .tmTaskAbort => word64 [(0, s.tm.abEngine.toNat), (8, s.tm.abTid.toNat)]
  | .tmAbortStat => abortStat s
  | .tmKernelEnd => s.tm.kEnd.setWidth 64
  | .tmKernelStat => word64 [(0, b2n (s.tm.kBusy && s.tm.kPoint < s.pw.now)), (1, b2n s.tm.kDone), (16, s.tm.kLast.toNat)]
  | .tmPreempt => s.tm.preempt
  | .tmPreemptStat => preemptStat s
  | .liveView i => (s.ctx s.tm.ctxSel.toNat).word i
  | .tmBasinInv => word64 [(0, b2n s.basin.invAll), (1, b2n s.basin.invSib), (8, s.basin.invAddr.toNat)]
  | .tmBasinInvLen => s.basin.invLen.setWidth 64
  | .tmBasinStat => word64 [(0, b2n (s.basin.busy && s.basin.start < s.pw.now)), (1, b2n s.basin.done), (2, b2n s.basin.eccDrop)]
  | .tmFwStat => fwStat s
  | .pwrLevel => s.pw.req.setWidth 64
  | .pwrLevelStat => s.levelStat.setWidth 64
  | .pwrLake n => lakePowerWord (s.lp n)
  | .pwrLakeStat n => lakePowerStat (s.lp n)
  | .pwrWake => 0
  | .pwrDeep => word64 [(1, s.pw.deep), (3, b2n s.pw.deepPend)]
  | .pwrMon i => (Tab.get (fun _ => (0 : BitVec 48)) s.pw.mon i).setWidth 64
  | .pwrTime => BitVec.ofNat 64 s.pw.ns
  | .pwrFtimeOfs => s.pw.ftimeOfs
  | .labelMap n => (Tab.get (fun _ => labelMapReset) s.weir.labelMap n).setWidth 64
  | .labelMapCls => s.weir.clsDl.setWidth 64
  | .qshare i => (Tab.get (fun _ => qshareReset) s.weir.qshare i).setWidth 64
  | .basinWays i => (if i = 0 then s.weir.ways0 else s.weir.ways1).setWidth 64
  | .srcLabel => s.weir.srcLabel
  | .pcap => s.weir.cap.setWidth 64
  | .pcapStat => word64 [(0, s.weir.allow), (8, s.weir.limit), (11, b2n s.weir.unmet), (16, s.weir.pMeas.toNat)]
  | .late c => let l := Tab.get (fun _ => Late.reset) s.weir.late c; word64 [(0, l.count), (63, b2n l.sat)]
  | .dlEst i => dlEst s i
  | .lwords n => BitVec.ofNat 64 (Tab.get (fun _ => 0) s.weir.lwords n)
  | .stopArb i which => (s.stopArb i).word which
  | .stopStat i => arbStat (s.arb (400 + i))
  | .errCtl => word64 [(0, s.err.recEn.toNat), (8, s.err.ibiEn.toNat)]
  | .errStat => errStat s
  | .errHead => BitVec.ofNat 64 s.err.head
  | .errTail => BitVec.ofNat 64 s.err.tail
  | .errCtrlCorr => BitVec.ofNat 64 s.err.ctrlCorr
  | .errLost c => BitVec.ofNat 64 (Tab.get (fun _ => 0) s.err.lostC c)
  | .errFirst i => recWord s.err.first i
  | .errRing k i => recWord (Tab.get (fun _ => none) s.err.ring k) i
  | .dlyCtl => word64 [(1, b2n s.cnt.clrWrap)]
  | .dlyStat => word64 [(0, b2n s.cnt.busy), (1, b2n s.cnt.done), (32, s.cnt.seq)]
  | .cntGlobal => BitVec.ofNat 64 (b2n s.cnt.halt)
  | .cntEpoch => BitVec.ofNat 64 s.cnt.epoch
  | .cntCfg o => cfgWord o (s.ctr o).cfg
  | .cntVal o => (s.ctr o).word
  | .dlyHead i => match i with
    | 0 => BitVec.ofNat 64 s.cnt.seqA
    | 1 => BitVec.ofNat 64 s.cnt.time
    | 2 => word64 [(0, s.cnt.level), (3, b2n s.cnt.clr), (32, s.cnt.pepoch)]
    | _ => BitVec.ofNat 64 s.cnt.seqB
  | .dlyCfg o => cfgWord o (pageEntry s o).cfg
  | .dlyVal o => (pageEntry s o).word
  | r => tableRegRead s r

end Sys2Proof.Machine
end

