-- ==== Sys2Proof/Machine/Regs.lean ====
section
/-!
DEFINITION. Accesses to the control space (R25 to R27, R131, R133, R380, R443, R444): which register an offset names, what a write
does to it, the checks made before it, and the commands that write registers.
-/
namespace Sys2Proof.Machine

/-! ### The register at an offset (R443) -/

/-- The register that starts at an offset of the global block, and its width in bytes. -/
def tmReg (o : Nat) : Option (Reg × Nat) :=
  match o with
  | 0x000 => some (.tmStatus, 4)
  | 0x010 => some (.tmCap 0, 4)
  | 0x014 => some (.tmCap 1, 4)
  | 0x018 => some (.tmCap 2, 4)
  | 0x01C => some (.tmCap 3, 4)
  | 0x020 => some (.tmEpId, 4)
  | 0x030 => some (.tmReset, 4)
  | 0x038 => some (.tmResetStat, 8)
  | 0x040 => some (.tmLakeReset, 4)
  | 0x048 => some (.tmLakeResetStat, 4)
  | 0x100 => some (.tmCtxSel, 4)
  | 0x108 => some (.tmCtxSave, 8)
  | 0x110 => some (.tmCtxRestore, 8)
  | 0x118 => some (.tmCtxStat, 4)
  | 0x120 => some (.tmTaskAbort, 4)
  | 0x124 => some (.tmAbortStat, 4)
  | 0x140 => some (.tmKernelEnd, 4)
  | 0x148 => some (.tmKernelStat, 4)
  | 0x180 => some (.tmPreempt, 8)
  | 0x188 => some (.tmPreemptStat, 4)
  | 0x400 => some (.tmBasinInv, 8)
  | 0x408 => some (.tmBasinInvLen, 4)
  | 0x410 => some (.tmBasinStat, 4)
  | 0x500 => some (.tmFwStat, 8)
  | o => if 0x200 ≤ o ∧ o < 0x400 ∧ o % 8 = 0 then some (.liveView ((o - 0x200) / 8), 8) else none

/-- The same for the `PWR_` block. -/
def pwrReg (o : Nat) : Option (Reg × Nat) :=
  match o with
  | 0x000 => some (.pwrLevel, 4)
  | 0x008 => some (.pwrLevelStat, 4)
  | 0x300 => some (.pwrWake, 4)
  | 0x400 => some (.pwrDeep, 4)
  | 0x600 => some (.pwrTime, 8)
  | 0x608 => some (.pwrFtimeOfs, 8)
  | o =>
    if o % 8 ≠ 0 then none
    else if 0x100 ≤ o ∧ o < 0x1C0 then some (.pwrLake ((o - 0x100) / 8), 4)
    else if 0x200 ≤ o ∧ o < 0x2C0 then some (.pwrLakeStat ((o - 0x200) / 8), 8)
    else if 0x500 ≤ o ∧ o < 0x520 then some (.pwrMon ((o - 0x500) / 8), 8)
    else none

/-- The same for the `WEIR_` block. -/
def weirReg (o : Nat) : Option (Reg × Nat) :=
  match o with
  | 0x100 => some (.labelMapCls, 4)
  | 0x300 => some (.basinWays 0, 4)
  | 0x304 => some (.basinWays 1, 4)
  | 0x400 => some (.srcLabel, 8)
  | 0x500 => some (.pcap, 4)
  | 0x508 => some (.pcapStat, 4)
  | o =>
    if o % 4 ≠ 0 then none
    else if o < 0x100 then some (.labelMap (o / 4), 4)
    else if 0x200 ≤ o ∧ o < 0x214 then some (.qshare ((o - 0x200) / 4), 4)
    else if 0x580 ≤ o ∧ o < 0x5A0 ∧ o % 8 = 0 then some (.late ((o - 0x580) / 8), 8)
    else if 0x800 ≤ o ∧ o < 0x800 + 8 * 94 ∧ o % 8 = 0 then some (.dlEst ((o - 0x800) / 8), 8)
    else if 0x1000 ≤ o ∧ o < 0x1200 ∧ o % 8 = 0 then some (.lwords ((o - 0x1000) / 8), 8)
    else if 0xC000 ≤ o ∧ o < 0xC000 + 0x20 * 94 then
      let i := (o - 0xC000) / 0x20
      match (o - 0xC000) % 0x20 with
      | 0x00 => some (.stopArb i 0, 4)
      | 0x04 => some (.stopArb i 1, 4)
      | 0x08 => some (.stopArb i 2, 4)
      | 0x10 => some (.stopStat i, 4)
      | _ => none
    else none

/-- The same for the `ERR_` block. -/
def errReg (o : Nat) : Option (Reg × Nat) :=
  match o with
  | 0x00 => some (.errCtl, 4)
  | 0x08 => some (.errStat, 4)
  | 0x10 => some (.errHead, 4)
  | 0x14 => some (.errTail, 4)
  | 0x18 => some (.errCtrlCorr, 4)
  | o =>
    if 0x40 ≤ o ∧ o < 0x60 ∧ o % 4 = 0 then some (.errLost ((o - 0x40) / 4), 4)
    else if o % 8 ≠ 0 then none
    else if 0x80 ≤ o ∧ o < 0xA0 then some (.errFirst ((o - 0x80) / 8), 8)
    else if 0x800 ≤ o ∧ o < 0x1000 then some (.errRing ((o - 0x800) / 32) ((o - 0x800) % 32 / 8), 8)
    else none

/-- A counter entry covers block offset `o`: the entry's own offset. -/
def entryOf (o : Nat) : Option Nat := if (cntSetOf (o / 16 * 16)).isSome then some (o / 16 * 16) else none

/-- The same for the `CNT_` block with the dailies page. -/
def cntReg (o : Nat) : Option (Reg × Nat) :=
  match o with
  | 0x00 => some (.dlyCtl, 4)
  | 0x08 => some (.dlyStat, 8)
  | 0x10 => some (.cntGlobal, 4)
  | 0x18 => some (.cntEpoch, 4)
  | 0x20000 => some (.dlyHead 0, 4)
  | 0x20008 => some (.dlyHead 1, 8)
  | 0x20010 => some (.dlyHead 2, 8)
  | 0x20018 => some (.dlyHead 3, 4)
  | o =>
    let page := 0x20000 ≤ o ∧ o < 0x28000
    match entryOf (if page then o - 0x20000 else o) with
    | none => none
    | some e =>
      if o % 16 = 0 then some (if page then .dlyCfg e else .cntCfg e, 4)
      else if o % 16 = 8 then some (if page then .dlyVal e else .cntVal e, 8)
      else none

/-- The same for the cue, window and reel tables. -/
def tableReg (o : Nat) : Option (Reg × Nat) :=
  if 0x80000 ≤ o ∧ o < 0xC0000 then
    let c := (o - 0x80000) / 64
    match o % 64 with
    | 0x00 => some (.cueCfg c, 8)
    | 0x08 => some (.cueCount c, 8)
    | 0x10 => some (.cueSignal c, 8)
    | 0x18 => some (.cueWait c, 8)
    | _ => none
  else if 0xC0000 ≤ o ∧ o < 0xC4000 then
    let w := (o - 0xC0000) / 64
    match o % 64 with
    | 0x00 => some (.winOwner w, 4)
    | 0x08 => some (.winRange w, 8)
    | 0x10 => some (.winSrc w, 4)
    | 0x18 => some (.winMode w, 4)
    | 0x20 => some (.winCtl w, 4)
    | 0x24 => some (.winStat w, 4)
    | 0x28 => some (.winCount w, 8)
    | 0x30 => some (.winLate w, 4)
    | _ => none
  else if 0xD0000 ≤ o ∧ o < 0xD1000 then
    let e := (o - 0xD0000) / 64
    match o % 64 with
    | 0x00 => some (.reelBase e, 8)
    | 0x08 => some (.reelCfg e, 4)
    | 0x10 => some (.reelTail e, 4)
    | 0x14 => some (.reelHead e, 4)
    | 0x18 => some (.reelStat e, 4)
    | _ => none
  else none

/-- The same for the page of lake `n`. -/
def pageReg (n o : Nat) : Option (Reg × Nat) :=
  match o with
  | 0x0000 => some (.lkOwner n, 4)
  | 0x0008 => some (.lkShare n, 4)
  | 0x0010 => some (.lkQuiet n, 4)
  | 0x0080 => some (.lkShoreCfg n, 4)
  | 0x0200 => some (.lkSlateOp n, 8)
  | 0x0208 => some (.lkSlateStat n, 8)
  | 0x0210 => some (.lkSlateQuery n, 4)
  | 0x0300 => some (.lkMsoCtl n, 4)
  | 0x0304 => some (.lkMsoStat n, 4)
  | 0x0308 => some (.lkSrSeed n, 8)
  | 0x0600 => some (.lkProt n, 4)
  | 0x0608 => some (.lkScrub n, 4)
  | 0x0610 => some (.lkScrubStat n, 8)
  | 0x0618 => some (.lkEccCnt n, 8)
  | 0x0620 => some (.lkEccInj n, 8)
  | 0x0700 => some (.lkBill n, 4)
  | 0x4000 => some (.sprReel n, 4)
  | 0x4008 => some (.sprCtl n, 4)
  | 0x4010 => some (.sprStat n, 8)
  | 0x4018 => some (.sprDoneSeq n, 4)
  | 0x4020 => some (.sprCut n, 4)
  | 0x4028 => some (.sprCutStat n, 8)
  | 0x4040 => some (.sprFault n, 8)
  | 0x4048 => some (.sprFaultAddr n, 8)
  | 0x4050 => some (.sprDiscard n, 8)
  | 0x4058 => some (.sprSkip n, 4)
  | 0x4060 => some (.sprFaultFollow n, 4)
  | 0x4100 => some (.sprTrkStat n, 4)
  | 0x4108 => some (.sprTrkDesc n, 8)
  | 0x8000 => some (.mteCtl n, 4)
  | 0x8008 => some (.mteStat n, 8)
  | 0x8010 => some (.mteSummary n, 8)
  | 0x8018 => some (.mtePondSel n, 4)
  | 0x8020 => some (.mtePondMap n, 8)
  | o =>
    if o % 4 ≠ 0 then none
    else if 0x100 ≤ o ∧ o < 0x1A0 then
      let i := (o - 0x100) / 0x20
      match (o - 0x100) % 0x20 with
      | 0x00 => some (.lkArb n i 0, 4)
      | 0x04 => some (.lkArb n i 1, 4)
      | 0x08 => some (.lkArb n i 2, 4)
      | 0x10 => some (.lkArbStat n i 0, 4)
      | 0x14 => some (.lkArbStat n i 1, 4)
      | 0x18 => some (.lkArbStat n i 2, 4)
      | 0x1C => some (.lkArbStat n i 3, 4)
      | _ => none
    else if 0x400 ≤ o ∧ o < 0x600 then
      let t := (o - 0x400) / 0x20
      match (o - 0x400) % 0x20 with
      | 0x00 => some (.lkTakeCtl n t, 8)
      | 0x08 => some (.lkTakeOps n t, 8)
      | 0x10 => some (.lkTakeRes n t, 8)
      | _ => none
    else if 0x8040 ≤ o ∧ o < 0x8060 then some (.mteRowMap n ((o - 0x8040) / 4), 4)
    else if 0x8060 ≤ o ∧ o < 0x8068 then some (.mteColMap n ((o - 0x8060) / 4), 4)
    else none

/-- The register that starts at an offset of the control space, and its width in bytes. -/
def regHere (o : Nat) : Option (Reg × Nat) :=
  if o < 0x10000 then tmReg o
  else if o < 0x20000 then pwrReg (o - 0x10000)
  else if o < 0x30000 then weirReg (o - 0x20000)
  else if o < 0x40000 then errReg (o - 0x30000)
  else if o < 0x80000 then cntReg (o - 0x40000)
  else if o < 0x100000 then tableReg o
  else if o < 0x280000 then pageReg (pageLake o) ((o - 0x100000) % 0x10000)
  else none

/-- Bits that write 1 to clear, of the registers that have any beside other fields of 64 bits (R444). -/
def w1cBits : Reg → BitVec 64
  | .lkSlateStat _ => 2
  | .sprCutStat _ => 2
  | .sprFault _ => 0x10
  | .mteStat _ => 2
  | .dlyStat => 2
  | _ => 0

/-! ### Writes -/

/-- A write of 1 to a bit that clears by it. -/
def State.clears (s : State) (c : Ctl) (v : BitVec 64) (i : Nat) (f : State → State) : State := (if bit v i then f s else s).done c

/-- Writes to the registers of a lake page. A register without a writable field discards what is written (R2, R11). -/
def pageWrite (c : Ctl) (r : Reg) (v : BitVec 64) (s : State) : State :=
  match r with
  | .lkOwner n => lkOwnerSet c n v s
  | .lkShare n => lkShareSet c n v s
  | .lkShoreCfg n => shoreCfgSet c n v s
  | .lkArb n i which => arbCfgSet c (.lake (Fin.ofNat 24 n) (Fin.ofNat 5 i)) which v s
  | .lkSlateOp n => slateOpSet c n v s
  | .lkSlateStat n => s.clears c v 1 fun s => s.modLake n fun l => { l with slDone := false }
  | .lkSlateQuery n => slateQuerySet c n v s
  | .lkMsoCtl n => msoCtlSet c n v s
  | .lkMsoStat n => msoStatSet c n v s
  | .lkSrSeed n => srSeedSet c n v s
  | .lkProt n => protSet c n v s
  | .lkScrub n => scrubSet c n v s
  | .lkEccInj n => eccInjSet c n v s
  | .lkBill n => billSet c n v s
  | .sprReel n => sprReelSet c n v s
  | .sprCtl n => sprCtlSet c n v s
  | .sprCut n => sprCutSet c n v s
  | .sprCutStat n => s.clears c v 1 fun s => s.modSpring n fun x => { x with cutDone := false }
  | .sprFault n => s.clears c v 4 fun s => s.modSpring n fun x => { x with faultV := false }
  | .mteCtl n => marchSet c n v s
  | .mteStat n => s.clears c v 1 fun s => s.modMte n fun m => { m with done := false }
  | .mtePondSel n => pondSelSet c n v s
  | _ => s.done c

/-- Writes to the cue, window and reel tables, and to lake pages. -/
def tableWrite (c : Ctl) (r : Reg) (v : BitVec 64) (s : State) : State :=
  match r with
  | .cueCfg k => cueCfgSet c k v s
  | .cueCount k => cueCountSet c k v s
  | .cueSignal k => cueSignalWrite c k v s
  | .cueWait k => cueWaitWrite c k v s
  | .winOwner w => winOwnerSet c w v s
  | .winRange w => winConfigSet c w 0 v s
  | .winSrc w => winConfigSet c w 1 v s
  | .winMode w => winConfigSet c w 2 v s
  | .winCtl w => winCtlSet c w v s
  | .reelBase e => reelBaseSet c e v s
  | .reelCfg e => reelCfgSet c e v s
  | .reelTail e => reelTailSet c e v s
  | .reelHead e => reelHeadSet c e v s
  | r => pageWrite c r v s

/-- A write to a register (R11, R443). -/
def regWrite (c : Ctl) (r : Reg) (v : BitVec 64) (s : State) : State :=
  match r with
  | .tmEpId => epIdSet c v s
  | .tmReset => resetSet c v s
  | .tmLakeReset => lakeResetSet c v s
  | .tmLakeResetStat => s.clears c v 1 fun s => { s with tm := { s.tm with lrDone := false } }
  | .tmCtxSel => ctxSelSet c v s
  | .tmCtxSave => ctxSaveSet c v s
  | .tmCtxRestore => ctxRestoreSet c v s
  | .tmTaskAbort => taskAbortSet c v s
  | .tmAbortStat => s.clears c v 1 fun s => { s with tm := { s.tm with abDone := false } }
  | .tmKernelEnd => kernelEndSet c v s
  | .tmKernelStat => s.clears c v 1 fun s => { s with tm := { s.tm with kDone := false } }
  | .tmPreempt => preemptSet c v s
  | .tmPreemptStat => s.clears c v 1 fun s => { s with tm := { s.tm with peDone := false } }
  | .liveView i => liveSet c i v s
  | .tmBasinInv => basinInvSet c v s
  | .tmBasinInvLen => basinLenSet c v s
  | .tmBasinStat =>
    let s := if bit v 2 then { s with basin := { s.basin with eccDrop := false } } else s
    s.clears c v 1 fun s => { s with basin := { s.basin with done := false } }
  | .pwrLevel => levelReqSet c v s
  | .pwrLevelStat =>
    let s := if bit v 8 then { s with pw := { s.pw with drainTo := false } } else s
    s.clears c v 7 fun s => { s with pw := { s.pw with done := false } }
  | .pwrLake n => lakePowerSet c n v s
  | .pwrWake => pwrWakeSet c v s
  | .pwrDeep => deepSet c v s
  | .pwrFtimeOfs => ftimeSet c v s
  | .labelMap n => labelMapSet c n v s
  | .labelMapCls => clsDlSet c v s
  | .qshare i => qshareSet c i v s
  | .basinWays i => waysSet c i v s
  | .srcLabel => srcLabelSet c v s
  | .pcap => pcapSet c v s
  | .stopArb i which => arbCfgSet c (.stop (Fin.ofNat 47 (i / 2)) (i % 2 = 1)) which v s
  | .errCtl => errCtlSet c v s
  | .errStat => errStatSet c v s
  | .errTail => errTailSet c v s
  | .dlyCtl => dlyCtlSet c v s
  | .dlyStat => s.cntWrite c fun s => if bit v 1 then { s with cnt := { s.cnt with done := false } } else s
  | .cntGlobal => cntGlobalSet c v s
  | .cntCfg o => cntCfgSet c o v s
  | .cntVal o => cntValSet c o v s
  | r => tableWrite c r v s

/-! ### Accesses -/

/-- The unit of a control-space offset is absent, or the offset lies past the control space, where nothing is (R4, R23, R443, R446). -/
def unitAbsent (s : State) (o : Nat) : Bool :=
  if 0x1000000 ≤ o then true
  else if 0x100000 ≤ o && o < 0x280000 then !Config.lakePresent s.variant (pageLake o)
  else if 0xC0000 ≤ o && o < 0xC4000 then decide (Config.windowCount s.variant ≤ (o - 0xC0000) / 64)
  else if 0x40000 ≤ o && o < 0x60000 then ctrAbsent s.variant ((o - 0x40000) / 16 * 16)
  else match regHere (o / 8 * 8) with
    | some (.pwrLake n, _) => !Config.lakePresent s.variant n
    | some (.pwrLakeStat n, _) => !Config.lakePresent s.variant n
    | some (.liveView _, _) => slotAbsent s.variant s.tm.ctxSel.toNat
    | _ => false

/-- One access of 4 bytes, to a register of 32 bits or half of one of 64: the value read. -/
def read4 (s : State) (o : Nat) : Nat :=
  match regHere o with
  | some (r, _) => (regRead s r).toNat % 2 ^ 32
  | none => match regHere (o - 4) with
    | some (r, 8) => (regRead s r).toNat / 2 ^ 32
    | _ => 0

/-- One write of 4 bytes (R444): half of a register of 64 bits is written as the whole register, whose other half carries what it reads
as, but for the bits that clear by 1. -/
def write4 (c : Ctl) (o : Nat) (v : Nat) (s : State) : State :=
  match regHere o with
  | some (r, 8) =>
    let keep := regRead s r &&& ~~~w1cBits r
    regWrite { c with off := o } r (BitVec.ofNat 64 (v % 2 ^ 32 + keep.toNat / 2 ^ 32 * 2 ^ 32)) s
  | some (r, _) => regWrite { c with off := o } r (BitVec.ofNat 64 (v % 2 ^ 32)) s
  | none => match regHere (o - 4) with
    | some (r, 8) =>
      let keep := regRead s r &&& ~~~w1cBits r
      regWrite { c with off := o - 4 } r (BitVec.ofNat 64 (keep.toNat % 2 ^ 32 + v % 2 ^ 32 * 2 ^ 32)) s
    | _ => s.done c

/-- An access of 4 or 8 bytes reads this (R27, R444). -/
def ctlRead (s : State) (o size : Nat) : BitVec 64 :=
  match regHere o with
  | some (r, 8) => if size = 8 then regRead s r else BitVec.ofNat 64 (read4 s o)
  | _ => if size = 8 then BitVec.ofNat 64 (read4 s o + read4 s (o + 4) * 2 ^ 32) else BitVec.ofNat 64 (read4 s o)

/-- The response among outputs that belongs to a sender. -/
def isReply (src : Src) : Out → Option Status
  | .reg p t st _ => if p = src.port ∧ t = src.tag then some st else none
  | _ => none

/-- Two registers of 32 bits written by one access, the lower first (R27): one response, given once both have answered. DEDUCED
(assumption log 12). -/
def State.both (s : State) (c : Ctl) (lo hi : State → State) : State :=
  let s' := hi (lo s)
  let new := s'.out.take (s'.out.length - s.out.length)
  let sts := new.filterMap (isReply c.src)
  let s' := { s' with out := new.filter (fun o => (isReply c.src o).isNone) ++ s.out }
  if sts.length = 2 then s'.reply c.src (firstStatus sts) else s'

/-- An access of 4 or 8 bytes writes (R27, R444). DEDUCED (assumption log 12). -/
def ctlWrite (c : Ctl) (size : Nat) (v : BitVec 64) (s : State) : State :=
  match regHere c.off with
  | some (r, 8) => if size = 8 then regWrite c r v s else write4 c c.off v.toNat s
  | _ => if size = 8 then s.both c (write4 c c.off (v.toNat % 2 ^ 32)) (write4 c (c.off + 4) (v.toNat / 2 ^ 32)) else write4 c c.off v.toNat s

/-- Where a control-space access is refused before its register (R15): at the issuing stop, for its slot (R139) and its segments (R35,
R133); at its unit, for absence (R4), alignment (R27) and the check of the counters (R380). The status, and the `DETAIL` of the record
where one is written. DEDUCED (assumption log 12). -/
def ctlGate (s : State) (src : Src) (w : Who) (off size : Nat) (write : Bool) : Option (Status × Option Nat) :=
  let open_ := off = 0 || (0x10 ≤ off && off < 0x20)
  let task := (portSlot src.port).isSome
  let seg := w.segs.any fun g => g.covers ((0x20000000 + off : Nat) : Int) size (!write) write
  if !s.pw.logOk || (!s.tm.ready && !(open_ && s.tm.aonUp)) then some (.absent, none)
  else if s.slotDead src.port then some (.nackState, some (s.deadDetail src.port))
  else if w.arrival.isSome || w.wired then some (.nackBound, some 0)
  else if task && !seg then some (.nackBound, some 0)
  else if unitAbsent s off then some (.absent, none)
  else if !((size = 4 || size = 8) && off % size = 0) then some (.nackBound, some 0)
  else if 0x40000 ≤ off && off < 0x80000 && !w.priv &&
      !(!write && 0x60000 ≤ off && off < 0x68000 && (match w.slot with | some x => ctxDly (s.ctx x) | none => false)) then some (.nackOwner, some 0)
  else none

/-- A write to `CUE_SIGNAL`, which waits for the accesses before it by R251. -/
def writesSignal (off : Nat) (write : Bool) : Bool :=
  write && match regHere (off / 8 * 8) with
    | some (.cueSignal _, _) => true
    | _ => false

/-- The last cue signal held of a source, behind which its later control-space accesses wait (R244). -/
def State.signalAhead (s : State) (w : Who) : Option HeldSignal := s.signals.reverse.find? (·.who.ident = w.ident)

/-- A control-space access of an issuer: held while the block is not in RUN (R349) or a level change drains the stops (R336), or behind a
signal of its source (R244); refused; or made. -/
def ctlAccessBy (w : Who) (src : Src) (off size : Nat) (v : Option (BitVec 64)) (s : State) : State :=
  let h : Held := .reg src off size v 0 w
  let ahead := if writesSignal off v.isSome then none else s.signalAhead w
  if s.pw.deep != 0 || s.draining then (s.claim w).holdDeep h
  else if let some x := ahead then
    { (s.claim w) with signals := s.signals.map fun y => if y.id = x.id then { y with after := y.after ++ [h] } else y }
  else
    let c : Ctl := ⟨src, w, off⟩
    match ctlGate s src w off size v.isSome with
    | some (st, rec) =>
      let s := match rec with | some d => s.reject st w.pos w.pr d (0x20000000 + off) | none => s
      (match v with | some _ => s.reply src st | none => s.answerRead src st size 0)
    | none => match v with
      | some x => ctlWrite c size x s
      | none => s.answerRead src .ok size (ctlRead s off size)

/-- A control-space access presented at a port. -/
def ctlAccess (src : Src) (off size : Nat) (v : Option (BitVec 64)) (s : State) : State := ctlAccessBy (whoOf s src.port) src off size v s

/-- The answer to a control-space access among outputs. -/
def answers (src : Src) : Out → Bool
  | .reg p t _ _ => p = src.port && t = src.tag
  | .cpl t .. => t = src.tag
  | _ => false

/-- A control-space access that was held is made, and is late where it is answered after its budget is spent (R99, R114). -/
def State.ctlAgain (s : State) (w : Who) (src : Src) (off size : Nat) (v : Option (BitVec 64)) : State :=
  let t := ctlAccessBy w src off size v s
  if (t.out.take (t.out.length - s.out.length)).any (answers src) then t.deadlines w .read false none s.pw.now else t

/-- What the source of a held signal has issued behind it follows (R244). -/
def State.heldAgain (s : State) (h : Held) : State :=
  match h with
  | .reg src off size v _ w => s.ctlAgain w src off size v
  | _ => s

/-- CUE_SIGNAL_SEND (R244, R251): a held signal whose engine's earlier accesses have been performed is sent on, and what its source issued
behind it follows. -/
def execCueSignalSend (id : Nat) (s : State) : Host.Outcome State Fault Refusal :=
  match s.signals.find? (·.id = id) with
  | none => .next s
  | some h =>
    if !settled s (bits h.v 16 2) h.waits then .next s
    else .next (h.after.foldl State.heldAgain (s.sendSignal h))

/-- A write of a register named by its offset: its own width, as its command gives it. -/
def ctlCommand (src : Src) (off size : Nat) (v : BitVec 64) (s : State) : Host.Outcome State Fault Refusal :=
  .next (ctlAccess src off size (some v) s)

/-- The offset of a register in the page of lake `n`. -/
def pageOff (n o : Nat) : Nat := 0x100000 + n * 0x10000 + o

/-! ### The commands that write registers -/

/-- REGISTER_WRITE (R27, R444). -/
def execRegisterWrite (src : Src) (off size : Nat) (v : BitVec 64) (s : State) : Host.Outcome State Fault Refusal :=
  ctlCommand src off size v s
/-- EP_ID_WRITE (R33). -/
def execEpIdWrite (src : Src) (v : BitVec 32) (s : State) : Host.Outcome State Fault Refusal := ctlCommand src 0x20 4 (v.setWidth 64) s
/-- SCRUB_CONFIG_WRITE (R314). -/
def execScrubConfigWrite (src : Src) (n : Fin 24) (v : BitVec 32) (s : State) : Host.Outcome State Fault Refusal :=
  ctlCommand src (pageOff n 0x608) 4 (v.setWidth 64) s
/-- SHORE_CFG_WRITE (R54). -/
def execShoreCfgWrite (src : Src) (n : Fin 24) (v : BitVec 32) (s : State) : Host.Outcome State Fault Refusal :=
  ctlCommand src (pageOff n 0x80) 4 (v.setWidth 64) s
/-- The offset of an arbiter set's register (R92 to R96). -/
def arbOff (a : ArbSet) (which : Nat) : Nat :=
  match a with
  | .lake n i => pageOff n (0x100 + i * 0x20 + which * 4)
  | .stop p ccw => 0x2C000 + stopSet p ccw * 0x20 + which * 4
/-- ARB_CONFIG_WRITE (R92 to R97). -/
def execArbConfigWrite (src : Src) (a : ArbSet) (which : Fin 3) (v : BitVec 32) (s : State) : Host.Outcome State Fault Refusal :=
  ctlCommand src (arbOff a which) 4 (v.setWidth 64) s
/-- QSHARE_WRITE (R107, R108). -/
def execQshareWrite (src : Src) (which : Fin 5) (v : BitVec 32) (s : State) : Host.Outcome State Fault Refusal :=
  ctlCommand src (0x20200 + which * 4) 4 (v.setWidth 64) s
/-- PCAP_WRITE (R115, R117). -/
def execPcapWrite (src : Src) (v : BitVec 32) (s : State) : Host.Outcome State Fault Refusal := ctlCommand src 0x20500 4 (v.setWidth 64) s
/-- HANDOVER (R129). -/
def execHandover (src : Src) (n : Fin 24) (v : BitVec 32) (s : State) : Host.Outcome State Fault Refusal :=
  ctlCommand src (pageOff n 0) 4 (v.setWidth 64) s
/-- CTX_SEL_WRITE (R141). -/
def execCtxSelWrite (src : Src) (v : BitVec 32) (s : State) : Host.Outcome State Fault Refusal := ctlCommand src 0x100 4 (v.setWidth 64) s
/-- LIVE_VIEW_VALID_WRITE (R141): a write of the live view's first 8 bytes. -/
def execLiveViewValidWrite (src : Src) (v : BitVec 64) (s : State) : Host.Outcome State Fault Refusal := ctlCommand src 0x200 8 v s
/-- CONTEXT_SAVE (R142). -/
def execContextSave (src : Src) (v : BitVec 64) (s : State) : Host.Outcome State Fault Refusal := ctlCommand src 0x108 8 v s
/-- CONTEXT_RESTORE (R143). -/
def execContextRestore (src : Src) (v : BitVec 64) (s : State) : Host.Outcome State Fault Refusal := ctlCommand src 0x110 8 v s
/-- REEL_CFG_WRITE (R136, R137). -/
def execReelCfgWrite (src : Src) (e : Fin 64) (v : BitVec 32) (s : State) : Host.Outcome State Fault Refusal :=
  ctlCommand src (0xD0000 + e * 64 + 8) 4 (v.setWidth 64) s
/-- REEL_BASE_WRITE (R136, R137). -/
def execReelBaseWrite (src : Src) (e : Fin 64) (v : BitVec 64) (s : State) : Host.Outcome State Fault Refusal :=
  ctlCommand src (0xD0000 + e * 64) 8 v s
/-- REEL_TAIL_WRITE (R138). -/
def execReelTailWrite (src : Src) (e : Fin 64) (v : BitVec 32) (s : State) : Host.Outcome State Fault Refusal :=
  ctlCommand src (0xD0000 + e * 64 + 0x10) 4 (v.setWidth 64) s
/-- REEL_HEAD_WRITE (R138). -/
def execReelHeadWrite (src : Src) (e : Fin 64) (v : BitVec 32) (s : State) : Host.Outcome State Fault Refusal :=
  ctlCommand src (0xD0000 + e * 64 + 0x14) 4 (v.setWidth 64) s
/-- SR_SEED_WRITE (R163). -/
def execSrSeedWrite (src : Src) (n : Fin 24) (v : BitVec 64) (s : State) : Host.Outcome State Fault Refusal := ctlCommand src (pageOff n 0x308) 8 v s
/-- SPR_REEL_BIND (R171): a write of `SPR_REEL` with `BOUND`. -/
def execSprReelBind (src : Src) (n : Fin 24) (reel : Fin 64) (s : State) : Host.Outcome State Fault Refusal :=
  ctlCommand src (pageOff n 0x4000) 4 (BitVec.ofNat 64 (reel + 0x100)) s
/-- SPR_REEL_UNBIND (R171): a write that clears `BOUND` and names the reel that is bound. -/
def execSprReelUnbind (src : Src) (n : Fin 24) (s : State) : Host.Outcome State Fault Refusal :=
  ctlCommand src (pageOff n 0x4000) 4 (BitVec.ofNat 64 (s.spring n).reel.toNat) s
/-- SPR_CUT (R187). -/
def execSprCut (src : Src) (n : Fin 24) (v : BitVec 32) (s : State) : Host.Outcome State Fault Refusal :=
  ctlCommand src (pageOff n 0x4020) 4 (v.setWidth 64) s
/-- TASK_ABORT (R190, R191). -/
def execTaskAbort (src : Src) (v : BitVec 32) (s : State) : Host.Outcome State Fault Refusal := ctlCommand src 0x120 4 (v.setWidth 64) s
/-- BASIN_INV_ALL (R206, R207): a write of `TM_BASIN_INV` with `ALL`. -/
def execBasinInvAll (src : Src) (v : BitVec 64) (s : State) : Host.Outcome State Fault Refusal := ctlCommand src 0x400 8 (v ||| 1) s
/-- BASIN_INV_RANGE (R206, R207): a write of `TM_BASIN_INV` without `ALL`. -/
def execBasinInvRange (src : Src) (v : BitVec 64) (s : State) : Host.Outcome State Fault Refusal :=
  ctlCommand src 0x400 8 (v &&& 0xFFFFFFFFFFFFFFFE) s
/-- SLATE_OP (R227, R228). -/
def execSlateOp (src : Src) (n : Fin 24) (v : BitVec 64) (s : State) : Host.Outcome State Fault Refusal := ctlCommand src (pageOff n 0x200) 8 v s
/-- CUE_SIGNAL (R230, R251). -/
def execCueSignal (src : Src) (c : Fin 4096) (v : BitVec 64) (s : State) : Host.Outcome State Fault Refusal :=
  ctlCommand src (0x80000 + c * 64 + 0x10) 8 v s
/-- CUE_WAIT (R231). -/
def execCueWait (src : Src) (c : Fin 4096) (v : BitVec 64) (s : State) : Host.Outcome State Fault Refusal :=
  ctlCommand src (0x80000 + c * 64 + 0x18) 8 v s
/-- CUE_COUNT_WRITE (R230, R231). -/
def execCueCountWrite (src : Src) (c : Fin 4096) (v : BitVec 64) (s : State) : Host.Outcome State Fault Refusal :=
  ctlCommand src (0x80000 + c * 64 + 0x08) 8 v s
/-- CUE_CFG_WRITE (R232). -/
def execCueCfgWrite (src : Src) (c : Fin 4096) (v : BitVec 64) (s : State) : Host.Outcome State Fault Refusal := ctlCommand src (0x80000 + c * 64) 8 v s
/-- KERNEL_END (R258). -/
def execKernelEnd (src : Src) (v : BitVec 32) (s : State) : Host.Outcome State Fault Refusal := ctlCommand src 0x140 4 (v.setWidth 64) s
/-- WIN_OWNER_WRITE (R274). -/
def execWinOwnerWrite (src : Src) (w : Fin 256) (v : BitVec 32) (s : State) : Host.Outcome State Fault Refusal :=
  ctlCommand src (0xC0000 + w * 64) 4 (v.setWidth 64) s
/-- WIN_CONFIG_WRITE (R275 to R278): 0 `WIN_RANGE`, 1 `WIN_SRC`, 2 `WIN_MODE`. -/
def execWinConfigWrite (src : Src) (w : Fin 256) (which : Fin 3) (v : BitVec 64) (s : State) : Host.Outcome State Fault Refusal :=
  ctlCommand src (0xC0000 + w * 64 + 8 + which * 8) (if which = 0 then 8 else 4) v s
/-- WIN_OPEN (R281, R282). -/
def execWinOpen (src : Src) (w : Fin 256) (s : State) : Host.Outcome State Fault Refusal := ctlCommand src (0xC0000 + w * 64 + 0x20) 4 1 s
/-- WIN_CLOSE (R281, R287). -/
def execWinClose (src : Src) (w : Fin 256) (s : State) : Host.Outcome State Fault Refusal := ctlCommand src (0xC0000 + w * 64 + 0x20) 4 2 s
/-- WIN_RELEASE (R281). -/
def execWinRelease (src : Src) (w : Fin 256) (s : State) : Host.Outcome State Fault Refusal := ctlCommand src (0xC0000 + w * 64 + 0x20) 4 3 s
/-- PREEMPT (R297). -/
def execPreempt (src : Src) (v : BitVec 64) (s : State) : Host.Outcome State Fault Refusal := ctlCommand src 0x180 8 v s
/-- PROT_MODE_CHANGE (R303, R307). -/
def execProtModeChange (src : Src) (n : Fin 24) (v : BitVec 32) (s : State) : Host.Outcome State Fault Refusal :=
  ctlCommand src (pageOff n 0x600) 4 (v.setWidth 64) s
/-- ERR_TAIL_WRITE (R321). -/
def execErrTailWrite (src : Src) (v : BitVec 32) (s : State) : Host.Outcome State Fault Refusal := ctlCommand src 0x30014 4 (v.setWidth 64) s
/-- ERR_STAT_CLEAR (R323). -/
def execErrStatClear (src : Src) (v : BitVec 32) (s : State) : Host.Outcome State Fault Refusal := ctlCommand src 0x30008 4 (v.setWidth 64) s
/-- ECC_INJECT_ARM (R324). -/
def execEccInjectArm (src : Src) (n : Fin 24) (v : BitVec 64) (s : State) : Host.Outcome State Fault Refusal := ctlCommand src (pageOff n 0x620) 8 v s
/-- LEVEL_REQ_WRITE (R334). -/
def execLevelReqWrite (src : Src) (v : BitVec 32) (s : State) : Host.Outcome State Fault Refusal := ctlCommand src 0x10000 4 (v.setWidth 64) s
/-- LAKE_STATE_REQ (R340). -/
def execLakeStateReq (src : Src) (n : Fin 24) (v : BitVec 32) (s : State) : Host.Outcome State Fault Refusal :=
  ctlCommand src (0x10100 + 8 * n) 4 (v.setWidth 64) s
/-- PWR_WAKE_WRITE (R346). -/
def execPwrWakeWrite (src : Src) (v : BitVec 32) (s : State) : Host.Outcome State Fault Refusal := ctlCommand src 0x10300 4 (v.setWidth 64) s
/-- DEEP_ENTER (R348). -/
def execDeepEnter (src : Src) (v : BitVec 32) (s : State) : Host.Outcome State Fault Refusal := ctlCommand src 0x10400 4 (v.setWidth 64) s
/-- WARM_RESET_WRITE (R356). -/
def execWarmResetWrite (src : Src) (v : BitVec 32) (s : State) : Host.Outcome State Fault Refusal := ctlCommand src 0x30 4 (v.setWidth 64) s
/-- LAKE_RESET (R356, R359). -/
def execLakeReset (src : Src) (v : BitVec 32) (s : State) : Host.Outcome State Fault Refusal := ctlCommand src 0x40 4 (v.setWidth 64) s
/-- MARCH_START (R374). -/
def execMarchStart (src : Src) (n : Fin 24) (v : BitVec 32) (s : State) : Host.Outcome State Fault Refusal :=
  ctlCommand src (pageOff n 0x8000) 4 (v.setWidth 64) s
/-- CNT_CFG_WRITE (R382, R385): the counter entry at a block offset. -/
def execCntCfgWrite (src : Src) (entry : Nat) (v : BitVec 32) (s : State) : Host.Outcome State Fault Refusal :=
  ctlCommand src (0x40000 + entry) 4 (v.setWidth 64) s
/-- CNT_VAL_WRITE (R386). -/
def execCntValWrite (src : Src) (entry : Nat) (v : BitVec 64) (s : State) : Host.Outcome State Fault Refusal :=
  ctlCommand src (0x40000 + entry + 8) 8 v s
/-- DAILIES_SNAPSHOT (R388, R389). -/
def execDailiesSnapshot (src : Src) (v : BitVec 32) (s : State) : Host.Outcome State Fault Refusal := ctlCommand src 0x40000 4 (v.setWidth 64) s

end Sys2Proof.Machine
end

