-- ==== Sys2Proof/Machine/Storage.lean ====
section
/-!
DEFINITION. A storage request as it is presented at its port (R24, R34, R53, R133, R139, R353, R362): judged by its stop, and passed
on to its lake, to the control space, or away from the die; and the commands that present requests.
-/
namespace Sys2Proof.Machine

/-- A request leaves the die with its label (R34, R99); its answer comes as RESPONSE_EJECT. -/
def State.sendAway (s : State) (w : Who) (op : Op) (q : Req) (data : List Word) (sibling : Bool) (pos : Nat) : State :=
  let a := BitVec.ofNat 64 (q.addr.toNat / 32 * 32)
  let s := { (s.claim w) with remotes := s.remotes ++ [(⟨w.id, w, pos, op, sibling, some ⟨q.port, q.tag⟩, none⟩ : Remote)] }
  s.emit (.remote w.id pos op a q.words data w.label)

/-- A request to the control space is a register access where it names 4 or 8 bytes to read or write (R27); any other is refused, and
a read of it returns zero. DESIGN CHOICE (assumption log 11). One that arrives, or names this die by its global address, may not reach the
control space (R34, R35). -/
def State.toControl (s : State) (w : Who) (op : Op) (q : Req) (data : List Word) (off : Nat) : State :=
  let src : Src := ⟨q.port, q.tag⟩
  match (w.ownGlobal s q).arrival, q.bytes, op with
  | none, some (o, len), .read => ctlAccessBy w src (off + o) len none s
  | none, some (o, len), .write => ctlAccessBy w src (off + o) len (some (BitVec.ofNat 64 (bits (data.headD 0) (8 * o) (8 * len)))) s
  | _, _, _ =>
    (s.log 4 .nackBound w.pos w.pr 0 (0x20000000 + off)).respond w none op q [] .nackBound (absentData op q.words) s.pw.now 0 0

/-- A wide port whose lake is absent, in reset or down refuses before it looks at the address (R5, R343, R362). DEDUCED (assumption log
6). -/
def widePort (s : State) (w : Who) (q : Req) : Option (Status × Nat) :=
  match q.port with
  | .me k j sub => match wideGate s w k j sub with
    | some (.absent, _) => some (.absent, portLake k j)
    | some (.nackLakeOff, _) => some (.nackLakeOff, portLake k j)
    | _ => none
  | _ => none

/-- The request needs a transpose unit that the variant lacks (R5, R155). -/
def noUnit (s : State) (op : Op) : Bool := match op with | .xread .. => !Config.hasTranspose s.variant | _ => false

/-- A request at its issuing stop or sub-shore, whose checks come in the order of R15; a slot without `VALID` issues nothing, and every
request presented under it completes with NACK_STATE (R139, R296). DEDUCED (assumption log 6). -/
def State.dispatch (s : State) (w : Who) (op : Op) (q : Req) (data : List Word) : State :=
  let place := aim s w op q
  let wide := widePort s w q
  match place, wide with
  | _, some (.absent, _) => s.refuse w op q .absent none 0
  | .word v x, some (st, n) => s.refuseAt w op q v n x st (some (6, 1))
  | _, some (st, n) => s.refuseAt w op q .data n 0 st (some (6, 1))
  | place, none =>
    if s.slotDead q.port then s.refuse w op q .nackState (some (4, w.pos, s.deadDetail q.port)) q.addr.toNat
    else match place with
      | .fail st rec => s.refuse w op q st (rec.map fun d => (4, w.pos, d)) q.addr.toNat
      | .away sibling pos => s.sendAway w op q data sibling pos
      | .control off => s.toControl w op q data off
      | .word v x =>
        if s.err.fatal then s.refuse w op q .absent none 0
        else s.atLake (w.ownGlobal s q) op q data v x false

/-- A request of an issuer at its port: held while the block is not in RUN (R349) or a level change drains the stops (R336); answered
with ABSENT by a block in reset or without supply (R353, R362) and by an absent unit (R5). It keeps the label and the budget it was issued
with (R99, R111), and is granted injection now (R113). DEDUCED (assumption log 6). -/
def presentBy (w : Who) (op : Op) (q : Req) (data : List Word) (s : State) : State :=
  if s.pw.deep != 0 || s.draining then (s.claim w).holdDeep (.access op q data 0 w none 4)
  else if s.absentNow || noUnit s op then s.refuse w op q .absent none 0
  else s.dispatch { w with granted := s.pw.now } op q data

/-- A request is presented at its port. -/
def present (op : Op) (q : Req) (data : List Word) (s : State) : State := presentBy ((whoOf s q.port).budget q) op q data s

/-- What was held is presented again, or goes on at its lake. DEDUCED (assumption log 6). -/
def State.replay (s : State) (h : Held) : State :=
  match h with
  | .access op q data _ w none _ => presentBy w op { q with joins := false } data s
  | .access op q data _ w (some (v, w0)) _ => s.atLake w op { q with joins := false } data (viewOf v) w0 true
  | .reg src off size v _ w => s.ctlAgain w src off size v
  | .take t op w => takePresentBy w t op s

/-- Everything held at the ports and stops goes on, in order. -/
def State.replayAll (s : State) : State :=
  let hs := s.pw.held
  hs.foldl State.replay { s with pw := { s.pw with held := [] } }

/-! ### The commands (R24, R145, R146) -/

/-- READ: in the data view a plain read. -/
def execRead (q : Req) (s : State) : Host.Outcome State Fault Refusal := .next (present .read q [] s)
/-- WRITE. -/
def execWrite (q : Req) (d : List Word) (s : State) : Host.Outcome State Fault Refusal := .next (present .write q d s)
/-- PEEK: a read whose address lies in the slated-peek view. -/
def execPeek (q : Req) (s : State) : Host.Outcome State Fault Refusal := .next (present .read q [] s)
/-- CONSUME: a read whose address lies in the slated-produce/consume view. -/
def execConsume (q : Req) (s : State) : Host.Outcome State Fault Refusal := .next (present .read q [] s)
/-- PRODUCE: a write whose address lies in the slated-produce/consume view. -/
def execProduce (q : Req) (d : List Word) (s : State) : Host.Outcome State Fault Refusal := .next (present .write q d s)
/-- XREAD (R149 to R155). -/
def execXread (q : Req) (ew : Fin 4) (stride : BitVec 16) (s : State) : Host.Outcome State Fault Refusal :=
  .next (present (.xread ew stride) q [] s)
/-- GATHER (R156, R157). -/
def execGather (q : Req) (stride : BitVec 16) (s : State) : Host.Outcome State Fault Refusal := .next (present (.gather stride) q [] s)
/-- ADD (R158 to R165). -/
def execAdd (q : Req) (a : Atom) (d : List Word) (s : State) : Host.Outcome State Fault Refusal := .next (present (.add a) q d s)
/-- ADD_WIDE (R160). -/
def execAddWide (q : Req) (a : Atom) (d : List Word) (s : State) : Host.Outcome State Fault Refusal := .next (present (.addWide a) q d s)
/-- MAX (R160, R161). -/
def execMax (q : Req) (a : Atom) (d : List Word) (s : State) : Host.Outcome State Fault Refusal := .next (present (.max a) q d s)
/-- MIN (R160, R161). -/
def execMin (q : Req) (a : Atom) (d : List Word) (s : State) : Host.Outcome State Fault Refusal := .next (present (.min a) q d s)
/-- SWAP (R160). -/
def execSwap (q : Req) (ty : Fin 4) (elem : Fin 8) (d : Word) (s : State) : Host.Outcome State Fault Refusal :=
  .next (present (.swap ty elem) q [d] s)
/-- CAS (R160). -/
def execCas (q : Req) (ty : Fin 4) (elem : Fin 8) (d : Word) (s : State) : Host.Outcome State Fault Refusal :=
  .next (present (.cas ty elem) q [d] s)
/-- TAKE_PEEK (R235): a peek whose wide port names an open take by its sub-shore and `pos`. -/
def execTakePeek (q : Req) (s : State) : Host.Outcome State Fault Refusal := .next (present .read q [] s)
/-- TAKE_WRITE (R235): a write in the slated-produce/consume view that names an open take. -/
def execTakeWrite (q : Req) (d : List Word) (s : State) : Host.Outcome State Fault Refusal := .next (present .write q d s)
/-- ARRIVAL_READ (R35, R126). -/
def execArrivalRead (q : Req) (op : Op) (s : State) : Host.Outcome State Fault Refusal := .next (present op q [] s)
/-- ARRIVAL_WRITE (R35, R283, R284). -/
def execArrivalWrite (q : Req) (op : Op) (d : List Word) (s : State) : Host.Outcome State Fault Refusal := .next (present op q d s)

end Sys2Proof.Machine
end

