-- ==== Sys2Proof/Machine/Host.lean ====
section
/-!
DEFINITION. The host window: TLPs turned into word requests (R28, R29), their completions and reissues (R30), PCIe ordering (R261,
R262) and AtomicOps (R265).
-/
namespace Sys2Proof.Machine

/-! ### Ordering at the host stop (R261, R262) -/

/-- The destination of a held request: its lake, 98 for what no lake serves, 99 for the control space. -/
def partDest (s : State) : Held → Nat
  | .access _ q .. => match decodeAddr s.variant q.addr.toNat with
    | .word _ w => lakeOf (wordRow w)
    | .control _ => 99
    | .absent => 98
  | .reg .. => 99
  | .take .. => 98

/-- A held request is a posted write of the host. -/
def partPosted : Held → Bool
  | .access _ q .. => q.posted
  | .reg ⟨.host _, _⟩ _ _ (some _) _ _ => true
  | _ => false

/-- A posted write that has no response yet: its destination, and whether that is a lake at which R244 keeps later writes behind it, which it
does not where a slated access waits or was turned away. -/
structure PostedOut where
  dest : Nat
  kept : Bool
deriving DecidableEq, Repr

def fromHost (c : Src) : Bool := match c.port with | .host _ => true | _ => false

/-- Control-space writes of the host whose responses wait: cue signals and waits, fences and window closes. -/
def hostControlOut (s : State) : List Src :=
  (s.signals.map (·.src) ++ s.fences.map (·.src) ++ (s.wins.map (fun e => e.2.closers)).flatten ++
    (s.lakes.map fun e => e.2.waiters.filterMap fun w => match w.what with | .cue _ _ src => some src | _ => none).flatten).filter fromHost

/-- The posted writes that have been injected and have no response. -/
def postedOut (s : State) : List PostedOut :=
  (s.pw.held.filter partPosted).map (fun h => ⟨partDest s h, decide (partDest s h < Config.lakes)⟩) ++
  ((s.signals.map (·.after)).flatten.filter partPosted).map (fun h => ⟨partDest s h, false⟩) ++
  (s.lpow.map fun e => (e.2.held.filter partPosted).map fun h => (⟨partDest s h, true⟩ : PostedOut)).flatten ++
  (s.hostRetry.filter partPosted).map (fun h => ⟨partDest s h, false⟩) ++
  (s.flights.filter (·.q.posted)).map (fun f => ⟨lakeOf (wordRow (f.q.addr.toNat / 32)), false⟩) ++
  (hostControlOut s).map (fun _ => ⟨99, false⟩)

/-- Two TLPs have a destination in common, at which they take effect in order (R244). -/
def HostTlp.meets (s : State) (a b : HostTlp) : Bool := a.parts.any fun x => b.parts.any fun y => partDest s x = partDest s y

/-- A TLP may be injected, with `earlier` the TLPs held before it. A write passes no earlier read or write of its destination (R244, R245).
DEDUCED (assumption log 27). -/
def tlpMay (s : State) (earlier : List HostTlp) (t : HostTlp) : Bool :=
  let before := earlier.filter (·.posted)
  if !t.posted then before.isEmpty && (postedOut s).isEmpty
  else if earlier.any (HostTlp.meets s · t) then false
  else t.ro || before.isEmpty && (postedOut s).all (fun o => o.kept && t.parts.all (fun h => partDest s h = o.dest))

/-- The requests of a TLP are presented. -/
def State.sendTlp (s : State) (t : HostTlp) : State := t.parts.foldl State.replay s

/-- A held request with a number of its own. -/
def Held.numbered (i : Nat) : Held → Held
  | .access op q d due w a c => .access op q d due { w with id := i } a c
  | .reg src off size v due w => .reg src off size v due { w with id := i }
  | .take t op w => .take t op { w with id := i }

/-- A TLP at the host stop: injected, or held behind earlier posted writes. A request at the boundary wakes the block from DEEP (R349).
DEDUCED (assumption log 27). -/
def State.takeTlp (s : State) (t : HostTlp) : State :=
  let t := { t with parts := (t.parts.zip (List.range t.parts.length)).map fun e => e.1.numbered (s.nextId + e.2) }
  let s := { s.wakeDeep with nextId := s.nextId + t.parts.length }
  if tlpMay s s.hostHeld t then s.sendTlp t else { s with hostHeld := s.hostHeld ++ [t] }

/-- The held TLPs in order, `kept` those that stay. DEDUCED (assumption log 27). -/
def releaseTlps (s : State) (kept : List HostTlp) : List HostTlp → State
  | [] => { s with hostHeld := kept }
  | t :: ts => if tlpMay s kept t then releaseTlps (s.sendTlp t) kept ts else releaseTlps s (kept ++ [t]) ts

/-- HOST_POSTED_RELEASE (R261): what waited for responses that have arrived is injected. -/
def execHostPostedRelease (s : State) : Host.Outcome State Fault Refusal := .next (releaseTlps s [] s.hostHeld)

/-- The tag of a request that waits out its backoff, and when that expires (R30). -/
def retryOf : Held → Nat × Nat
  | .access _ q _ due .. => (q.tag, due)
  | .reg src _ _ _ due _ => (src.tag, due)
  | .take t _ _ => (t.tag, 0)

/-- HOST_RETRY_REISSUE (R30, R265): the host stop waits out the backoff of a request it holds, and presents it again. -/
def execHostRetryReissue (tag : Nat) (s : State) : Host.Outcome State Fault Refusal :=
  match s.hostRetry.find? (fun h => (retryOf h).1 = tag) with
  | some h =>
    if s.pw.deep != 0 || !s.pw.refOk then .next s
    else .next (({ s with hostRetry := s.hostRetry.erase h }.reach (retryOf h).2).replay h)
  | none => .next s

/-! ### TLPs (R28, R29) -/

/-- A TLP lies in its BAR (R28). DEDUCED (assumption log 27). -/
def Tlp.inBar (t : Tlp) : Bool := t.np || t.addr < 0x20000000

/-- The address of a TLP lies in the control space (R23). -/
def inControl (a : Nat) : Bool := a / 0x20000000 = 1

/-- The words that `len` bytes at address `a` overlap, cut at rows: the first word of each piece, and its words. DESIGN CHOICE
(assumption log 11). -/
def rowPieces (a len : Nat) : List (Nat × Nat) :=
  let w0 := a / 32
  let w1 := (a + max len 1 - 1) / 32
  (List.range (w1 / 8 - w0 / 8 + 1)).map fun i =>
    let lo := max w0 (8 * (w0 / 8 + i))
    let hi := min w1 (8 * (w0 / 8 + i) + 7)
    (lo, hi - lo + 1)

/-- The request of a read TLP for one piece, which returns those of the TLP's bytes that lie in it. -/
def readPart (w : Who) (t : Tlp) (p : Nat × Nat) : Held :=
  let lo := max t.addr (32 * p.1)
  let hi := min (t.addr + t.len) (32 * (p.1 + p.2))
  .access .read { port := .host t.np, tag := t.tag, addr := BitVec.ofNat 64 (32 * p.1), words := p.2, bytes := some (lo - 32 * p.1, hi - lo) } [] 0 w none 4

/-- HOST_READ_TLP (R27 to R30). -/
def execHostReadTlp (t : Tlp) (s : State) : Host.Outcome State Fault Refusal :=
  if !Tlp.inBar t then .next s
  else if inControl t.addr then .next (s.takeTlp ⟨t.ro, false, [.reg ⟨.host t.np, t.tag⟩ (t.addr - 0x20000000) t.len none 0 (whoOf s (.host t.np))]⟩)
  else
    let ps := rowPieces t.addr t.len
    let s := if ps.length > 1 then
        { s with hostReads := s.hostReads ++ [⟨t.tag, ps.map fun p => (p.1 % 0x1000000, none)⟩] }
      else s
    .next (s.takeTlp ⟨t.ro, false, ps.map (readPart (whoOf s (.host t.np)) t)⟩)

/-- The enabled bytes of word `w` in a write TLP, lowest first. -/
def enabledIn (t : Tlp) (d : List (Option Byte)) (w : Nat) : List Byte :=
  (List.range 32).filterMap fun i => if 32 * w + i < t.addr then none else (d.getD (32 * w + i - t.addr) none)

/-- The number whose bytes are given, lowest first. -/
def ofBytes (bs : List Byte) : Nat := bs.foldr (fun b a => b.toNat + 256 * a) 0

/-- A posted write of whole words that stand together. -/
def writeWords (o : Who) (t : Tlp) (d : List (Option Byte)) (w k : Nat) : Held :=
  .access .write { port := .host t.np, tag := t.tag, addr := BitVec.ofNat 64 (32 * w), words := k, posted := true }
    ((List.range k).map fun i => BitVec.ofNat 256 (ofBytes (enabledIn t d (w + i)))) 0 o none 4

/-- The requests of a write TLP for one piece: one where the TLP covers the whole piece, else one for each word that it covers. -/
def writeParts (o : Who) (t : Tlp) (d : List (Option Byte)) (p : Nat × Nat) : List Held :=
  let ws := ((List.range p.2).map (p.1 + ·)).filter fun w => (enabledIn t d w).length = 32
  if ws.length = p.2 then [writeWords o t d p.1 p.2] else ws.map fun w => writeWords o t d w 1

/-- A record of what the host stop does not perform (R29, R265); the manual does not state its status. DEDUCED (assumption log 27). -/
def State.hostDiscard (s : State) (np : Bool) (kind addr : Nat) : State :=
  if s.absentNow then s
  else
    let p := (whoOf s (.host np)).pr
    s.report ⟨s.pw.ns, 0, 4, (Config.discardStatus kind).toNat, Config.hostPos, p.engine.toNat, p.tid.toNat, 0, 1, addr⟩

/-- HOST_WRITE_TLP (R27, R29): performed where it covers whole words; discarded whole, with a record, where it covers any word only
partly. -/
def execHostWriteTlp (t : Tlp) (d : List (Option Byte)) (s : State) : Host.Outcome State Fault Refusal :=
  if !Tlp.inBar t then .next s
  else if inControl t.addr then
    let bs := d.filterMap id
    .next (s.takeTlp ⟨t.ro, true, [.reg ⟨.host t.np, t.tag⟩ (t.addr - 0x20000000) (if bs.length = t.len then t.len else 0)
      (some (BitVec.ofNat 64 (ofBytes bs))) 0 (whoOf s (.host t.np))]⟩)
  else
    let ps := rowPieces t.addr t.len
    let partly := ps.any fun p => (List.range p.2).any fun i =>
      let k := (enabledIn t d (p.1 + i)).length
      k != 0 && k != 32
    if partly then .next (s.wakeDeep.hostDiscard t.np 0 t.addr)
    else .next (s.takeTlp ⟨t.ro, true, (ps.map (writeParts (whoOf s (.host t.np)) t d)).flatten⟩)

/-! ### AtomicOps (R265) -/

/-- The element that an AtomicOp names, by the width of its operand. -/
def atomIndex (wide : Bool) (a : Nat) : Nat := if wide then a / 8 % 4 else a / 4 % 8

/-- The lake atomic of an AtomicOp, whose completion carries the old value of its element. -/
def State.atomicOp (s : State) (t : Tlp) (wide : Bool) (op : Op) (operand : Nat) : State :=
  let e := if wide then 8 else 4
  let q : Req := { port := .host t.np, tag := t.tag, addr := BitVec.ofNat 64 (t.addr / 32 * 32), words := 1
                   bytes := some (e * atomIndex wide t.addr, e) }
  if !Tlp.inBar t then s else s.takeTlp ⟨t.ro, false, [.access op q [BitVec.ofNat 256 operand] 0 (whoOf s (.host t.np)) none 4]⟩

/-- ATOMICOP_FETCHADD: the addend in its element, zero in the others. -/
def execAtomicopFetchadd (t : Tlp) (wide : Bool) (v : BitVec 64) (s : State) : Host.Outcome State Fault Refusal :=
  let e := if wide then 64 else 32
  .next (s.atomicOp t wide (.add ⟨if wide then 1 else 0, 0, true⟩) (v.toNat % 2 ^ e * 2 ^ (e * atomIndex wide t.addr)))

/-- ATOMICOP_SWAP. -/
def execAtomicopSwap (t : Tlp) (wide : Bool) (v : BitVec 64) (s : State) : Host.Outcome State Fault Refusal :=
  .next (s.atomicOp t wide (.swap (if wide then 1 else 0) (Fin.ofNat 8 (atomIndex wide t.addr))) v.toNat)

/-- ATOMICOP_CAS: of 32 or 64 bits; one of 128 bits is an Unsupported Request with a record. -/
def execAtomicopCas (t : Tlp) (size : Fin 3) (cmp swap : BitVec 64) (s : State) : Host.Outcome State Fault Refusal :=
  if !Tlp.inBar t then .next s
  else if size.val = 2 then .next ((s.wakeDeep.hostDiscard t.np 1 t.addr).emit (.cpl t.tag false true false []))
  else
    let wide := size.val = 1
    let e := if wide then 64 else 32
    .next (s.atomicOp t wide (.cas (if wide then 1 else 0) (Fin.ofNat 8 (atomIndex wide t.addr))) (cmp.toNat % 2 ^ e + swap.toNat % 2 ^ e * 2 ^ e))

end Sys2Proof.Machine
end

