-- ==== Sys2Proof/Machine/Resume.lean ====
section
/-!
DEFINITION. Where a level change or DEEP ends and what they held goes on (R335 to R337, R348, R349).
-/
namespace Sys2Proof.Machine

/-- March runs were held for `k` T-cycles of a drain (R376). DEDUCED (assumption log 22). -/
def State.delayMarches (s : State) (k : Nat) : State :=
  { s with mtes := mapTab (fun _ => Mte.reset) (fun _ m => if m.busy && m.phase != 2 then { m with due := m.due + k } else m) s.mtes }

/-- A lake after a drain (R194, R224, R336): waiters whose condition holds re-enter, those of an IDLE lake after its wake (R341), and its
Spring issues. -/
def State.resumeLake (s : State) (n : Nat) : State :=
  match (s.lp n).state with
  | .on => s.wakeLake n
  | .idle => (if (s.lake n).waiters.any (fun e => e.rows.any fun r => mayReenter s n r e) then s.wakeIdle n else s).resumeSpring n
  | _ => s.resumeSpring n

/-- Service goes on after a drain (R336): held requests are presented, and every lake goes on. -/
def State.resumeService (s : State) : State :=
  ((List.range (Config.lakeCount s.variant)).foldl State.resumeLake s.replayAll).takeUp

/-- DIVIDER_SWITCH_END (R335): 4 ns later the new level is in force; a slower level lowers the voltages next. -/
def execDividerSwitchEnd (s : State) : Host.Outcome State Fault Refusal :=
  if !(s.pw.busy && s.pw.phase = 2 && s.pw.switching) then .next s
  else
    let slower := s.pw.cur < s.pw.goal
    let s := s.delayMarches (s.pw.now - s.pw.drainAt)
    let ns := s.pw.ns + 4
    let s := { s with pw := { s.pw with ns := ns, cur := s.pw.goal, switching := false, stepNs := ns, phase := if slower then 3 else 0
                                        busy := slower, done := s.pw.done || !slower } }
    .next (if slower then s else s.levelEvent).resumeService

/-- DRAIN_ABANDON (R337): 65,536 T-cycles after the drain point the old level resumes, with its voltages. DEDUCED (assumption log 19).
-/
def execDrainAbandon (s : State) : Host.Outcome State Fault Refusal :=
  if !(s.pw.busy && s.pw.phase = 2) || s.pw.switching || drained s then .next s
  else
    let s := s.reach (s.pw.drainAt + 65536)
    let s := s.delayMarches 65536
    let a := Config.vddArr s.pw.cur
    let l := Config.vddLog s.pw.cur
    let s := { s with pw := { s.pw with busy := false, phase := 0, drainTo := true, lastDrain := 0xFFFF, arrMv := a, logMv := l } }
    let s := (s.log 6 .ok Config.mgmtPos ⟨0x7C, 0⟩ 0 0).emit (.voltage a l)
    .next s.levelEvent.resumeService

/-- A lake that was ON or IDLE before DEEP is IDLE after it; its rows that were RESERVED are STALE (R219, R348). DEDUCED (assumption log
21). -/
def State.backFromDeep (s : State) (n : Nat) : State :=
  if !(s.lp n).deepBack then s
  else ((s.staleRows n).modLp n fun x => { x with state := .idle, deepBack := false, waking := false }).modLake n fun l =>
    { l with wakeSweep := false, idleFrom := s.pw.now }

/-- `LK_BILL` lies in the AON domain and outlasts DEEP (R434). DEDUCED (assumption log 21). -/
def State.keepBills (s old : State) : State :=
  (List.range Config.lakes).foldl (fun s n => s.modLake n fun l => { l with billLabel := (old.lake n).billLabel, billEn := (old.lake n).billEn }) s

/-- DEEP_EXIT_END (R348, R349, R393, R411). DEDUCED (assumption log 21). -/
def execDeepExitEnd (s : State) : Host.Outcome State Fault Refusal :=
  if s.pw.deep != 3 then .next s
  else
    let s := s.reachNs s.pw.deepDueNs
    let s1 := (s.warmControl fun n => (s.lp n).state = .ret).keepBills s
    let s1 := { s1 with pw := { s1.pw with deep := 0, deepTimed := false, arrMv := Config.vddArr s.pw.cur, logMv := Config.vddLog s.pw.cur } }
    let s1 := (List.range (Config.lakeCount s1.variant)).foldl State.backFromDeep s1
    .next (s1.event 0x15 (BitVec.ofNat 32 s1.pw.ns)).replayAll.takeUp

end Sys2Proof.Machine
end

