-- ==== Sys2Proof/Machine/Meter.lean ====
section
/-!
DEFINITION. The sealed meter (chapter 22): energy, data and occupancy counts, tally records, tamper, and the loss of the reference
clock.
-/
namespace Sys2Proof.Machine

/-! ### Counts (R431) -/

def natAt (t : Tab Nat) (i : Nat) : Nat := Tab.get (fun _ => 0) t i
def addAt (t : Tab Nat) (i k : Nat) : Tab Nat := Tab.set (fun _ => 0) t i (natAt t i + k)

/-- The energy count of a supply, in µJ (R431, R432). -/
def Meter.energyCount (m : Meter) (i : Nat) : Nat := natAt m.energy i / 100000000 % 2 ^ 64
/-- The data count of a label, in MiB of 32,768 words (R433). -/
def Meter.movedCount (m : Meter) (i : Nat) : Nat := natAt m.moved i / 32768 % 2 ^ 64
/-- The occupancy count of a label, in MiB·ms (R435). -/
def Meter.occCount (m : Meter) (i : Nat) : Nat := natAt m.occ i % 2 ^ 64

/-- A cause of tampering (R441): kept in a fuse. -/
def Meter.tampered (m : Meter) (i : Nat) : Meter := { m with tamper := true, cause := m.cause ||| BitVec.ofNat 5 (2 ^ i) }

def State.withMeter (s : State) (f : Meter → Meter) : State := { s with meter := f s.meter }

/-- Time passes until meter time `t`. DESIGN CHOICE (assumption log 2). -/
def State.reachMeter (s : State) (t : Nat) : State := s.reachNs (s.pw.ns + (t - s.meterNow))

/-- METER_ENERGY_SAMPLE (R432, R441): voltage times current over 10 ns on each supply, in mV and mA; VDD_MTR above 0.80 V is tampering.
DESIGN CHOICE (assumption log 16). DEDUCED (assumption log 31). -/
def execMeterEnergySample (mv ma : List Nat) (s : State) : Host.Outcome State Fault Refusal :=
  if !s.meter.running then .next s
  else
    let s := s.reachMeter s.meter.energyDue
    let s := s.withMeter fun m =>
      { m with energyDue := m.energyDue + 10
               energy := (List.range 4).foldl (fun t i => addAt t i (mv.getD i 0 * ma.getD i 0)) m.energy }
    .next (if 800 < mv.getD 3 0 then s.withMeter (·.tampered 0) else s)

/-- The increment of a label's word count (R433). -/
def Meter.wordsMore (m : Meter) (i new : Nat) : Nat :=
  if m.restart then new else (new + 2 ^ 48 - natAt m.lastW i) % 2 ^ 48

/-- The word counts are read, unless VDD_LOG is off (R433). DEDUCED (assumption log 31). -/
def Meter.readWords (m : Meter) (on : Bool) (lwords : Tab Nat) : Meter :=
  if !on then { m with restart := true }
  else
    { m with moved := (List.range 64).foldl (fun t i => addAt t i (m.wordsMore i (natAt lwords i))) m.moved
             lastW := lwords
             fRestart := m.fRestart || m.restart
             restart := false }

/-- A lake's occupancy is charged (R435). -/
def charged (s : State) (n : Nat) : Bool :=
  s.tm.aonUp && (s.lake n).billEn && !s.failedLake n && (s.lp n).state != .off

/-- METER_SAMPLE (R433, R435): at each 1,000,000 ns of meter time. -/
def execMeterSample (s : State) : Host.Outcome State Fault Refusal :=
  if !s.meter.running then .next s
  else
    let s := s.reachMeter s.meter.sampleDue
    let on := s.pw.logOk && s.pw.deep != 2
    let occ := (List.range (Config.lakeCount s.variant)).foldl
      (fun t n => if charged s n then addAt t (s.lake n).billLabel.toNat 12 else t) s.meter.occ
    .next (s.withMeter fun m =>
      { m.readWords on s.weir.lwords with
          sampleDue := m.sampleDue + 1000000, occ := occ, aonSeen := s.tm.aonUp, fAonOff := m.fAonOff || !s.tm.aonUp })

/-! ### Records (R437 to R439) -/

/-- `n` bytes of a number, lowest first. -/
def numBytes (n v : Nat) : List Byte := (List.range n).map fun i => BitVec.ofNat 8 (v / 256 ^ i)

/-- `FLAGS` of a record (R438). -/
def recFlags (s : State) (close : Bool) : Nat :=
  let m := s.meter
  b2n m.fStart + 2 * b2n close + 4 * b2n m.tamper + 8 * b2n m.fAonOff + 16 * b2n s.tm.epValid + 32 * b2n m.fRestart + 64 * b2n m.clkFree

/-- The first 1,152 bytes of a record (R438). -/
def recBody (s : State) (close : Bool) (seq time : Nat) : List Byte :=
  let m := s.meter
  numBytes 4 0x524D5457 ++ numBytes 2 1 ++ numBytes 2 (recFlags s close) ++ numBytes 8 seq ++ numBytes 8 time ++
  numBytes 8 (if s.tm.aonUp then s.pw.ns else 0) ++ numBytes 2 (if s.tm.epValid then (epIdWord s).toNat % 2 ^ 16 else 0) ++ numBytes 30 0 ++
  ((List.range 4).map fun i => numBytes 8 (m.energyCount i)).flatten ++ numBytes 32 0 ++
  ((List.range 64).map fun i => numBytes 8 (m.movedCount i)).flatten ++
  ((List.range 64).map fun i => numBytes 8 (m.occCount i)).flatten

/-- A record: 1,248 bytes, signed (R438). -/
def recBytes (s : State) (close : Bool) (seq time : Nat) : List Byte :=
  let b := recBody s close seq time
  b ++ (List.range 96).map fun i => (Config.meterSign b).getD i 0

/-- The slot of a record (R439). -/
def recSlot (seq : Nat) : Nat := seq % 255 + 1

/-- A record is written, and a new interval begins (R437, R439). DEDUCED (assumption log 31). -/
def State.writeRecord (s : State) (close : Bool) (time : Nat) : State :=
  let seq := s.meter.seq + 1
  let r := recBytes s close seq time
  let s := s.withMeter fun m =>
    { m with seq := seq, recs := Tab.set (fun _ => []) m.recs (recSlot seq) r, fStart := false, fRestart := false, fAonOff := false }
  s.event 0x14 (BitVec.ofNat 32 seq)

/-- TALLY_RECORD (R437): at each boundary of 60 × 10⁹ ns of meter time. -/
def execTallyRecord (s : State) : Host.Outcome State Fault Refusal :=
  if !s.meter.running then .next s
  else
    let due := s.meter.recDue
    let s := (s.reachMeter due).writeRecord false due
    .next (s.withMeter fun m => { m with recDue := due + 60000000000 })

/-- METER_CLOSE (R437): VDD_MTR falls below 0.70 V; the counts of the partial interval are kept, and the island goes down. DEDUCED
(assumption log 31). -/
def execMeterClose (s : State) : Host.Outcome State Fault Refusal :=
  if !s.meter.running then .next s
  else
    let s := s.writeRecord true s.meterNow
    .next (s.withMeter fun m => { m with time := s.meterNow, base := s.pw.ns, running := false })

/-- A field of 8 bytes of a record. -/
def recField (r : List Byte) (off : Nat) : Nat := (List.range 8).foldl (fun a i => a + (r.getD (off + i) 0).toNat * 256 ^ i) 0

/-- The counts of a record, restored without the remainders that no record holds (R437). -/
def Meter.restore (m : Meter) : Meter :=
  let r := Tab.get (fun _ => []) m.recs (recSlot m.seq)
  let tab (n off unit : Nat) : Tab Nat := (List.range n).foldl (fun t i => addAt t i (recField r (off + 8 * i) * unit)) []
  { m with energy := tab 4 0x40 100000000, moved := tab 64 0x80 32768, occ := tab 64 0x280 1 }

/-- METER_POWER_UP (R437, R441): VDD_MTR rises. Where no CLOSE record was completed before, that is tampering. DEDUCED (assumption log
31). -/
def execMeterPowerUp (s : State) : Host.Outcome State Fault Refusal :=
  .next (s.withMeter fun m =>
    let m := if m.running then m.tampered 0 else m
    { m.restore with running := true, time := 0, base := s.pw.ns, energyDue := 10, sampleDue := 1000000, recDue := 60000000000, restart := true,
                     fStart := true, fRestart := false, fAonOff := false, aonSeen := false, lastW := [], clkFree := !s.pw.refOk })

/-- MONITOR_SELF_TEST (R441): a monitor that fails it is tampering. -/
def execMonitorSelfTest (ok : Bool) (s : State) : Host.Outcome State Fault Refusal :=
  .next (if s.meter.running && !ok then s.withMeter (·.tampered 4) else s)

/-- TEST_PORT_ACCESS (R441). -/
def execTestPortAccess (s : State) : Host.Outcome State Fault Refusal := .next (s.withMeter (·.tampered 2))

/-- REFERENCE_CLOCK_LOSS (R331, R436): the timestamp counts on AON cycles, and meter time on the island's oscillator. -/
def execReferenceClockLoss (s : State) : Host.Outcome State Fault Refusal :=
  .next ({ s with pw := { s.pw with refOk := false } }.withMeter fun m => { m with clkFree := true })

/-- REFERENCE_CLOCK_RETURN (R331, R436). -/
def execReferenceClockReturn (s : State) : Host.Outcome State Fault Refusal :=
  .next ({ s with pw := { s.pw with refOk := true } }.withMeter fun m => { m with clkFree := false })

/-! ### What the dictionary reads (R442) -/

/-- `MTR_STAT`. -/
def Meter.stat (m : Meter) : Nat :=
  b2n m.running + 2 * b2n m.tamper + 4 * b2n m.clkFree + 8 * b2n m.aonSeen + m.cause.toNat * 2 ^ 8

/-- The bytes of a meter entry. -/
def meterBytes (s : State) (idx sub : Nat) : List Byte :=
  let m := s.meter
  let rec_ := Tab.get (fun _ => []) m.recs sub
  match idx with
  | 0x7000 => (List.range 20).map (fun i => Config.meterIdentity 0 i) ++ numBytes 2 1 ++ numBytes 10 0
  | 0x7001 => (4 : Byte) :: (List.range 96).map (fun i => Config.meterIdentity 1 (i + 1))
  | 0x7002 => (List.range 256).map (fun i => Config.meterIdentity 2 i)
  | 0x7003 => numBytes 4 m.stat
  | 0x7004 => numBytes 8 m.seq
  | 0x7005 => numBytes 8 s.meterNow
  | 0x7006 => numBytes 8 (m.energyCount (sub - 1))
  | 0x7007 => numBytes 8 (m.movedCount (sub - 1))
  | 0x7008 => numBytes 8 (m.occCount (sub - 1))
  | 0x7010 => (List.range 1024).map fun i => rec_.getD i 0
  | 0x7011 => (List.range 224).map fun i => rec_.getD (1024 + i) 0
  | _ => []

end Sys2Proof.Machine
end

