-- ==== Sys2Proof/Machine/Firmware.lean ====
section
/-!
DEFINITION. The sequencer's firmware update (chapter 21): staging, verification, activation, the loader's swap, trial and confirmation,
and the exchange with the sibling die.
-/
namespace Sys2Proof.Machine

/-! ### Images (R419) -/

/-- A slot holds a valid header (R419, R420). -/
def Image.headed (m : Image) : Bool := m.field 0 4 = 0x534B5257 && m.field 4 2 = 1 && 1 ≤ m.field 6 2 && m.field 6 2 ≤ 1024
def Image.length (m : Image) : Nat := m.field 6 2
/-- `VERSION` of a slot; 0 without a valid header (R420). -/
def Image.version (m : Image) : Nat := if m.headed then m.field 8 4 else 0
def Image.fmt (m : Image) : BitVec 16 := BitVec.ofNat 16 (m.field 0x12 2)
/-- `n` bytes of an image from an offset on. -/
def Image.bytes (m : Image) (off n : Nat) : List Byte := (List.range n).map fun i => Tab.get (fun _ => 0) m (off + i)
/-- `DIGEST` matches (R419, R423). -/
def Image.digestOk (m : Image) : Bool := m.bytes 0x20 48 = Config.sha384 (m.bytes 0x100 (1024 * m.length - 0x100))
/-- `SIGNATURE` verifies (R419, R423). -/
def Image.signed (m : Image) : Bool := Config.signatureOk (m.bytes 0 0x50) (m.bytes 0x50 96)
/-- The loader's check at start (R426). -/
def Image.startable (m : Image) : Bool := m.headed && m.digestOk && m.signed
/-- The reserved header fields are zero (R423). -/
def Image.reservedZero (m : Image) : Bool := m.field 0x11 1 = 0 && m.field 0x1A 6 = 0 && m.field 0xB0 80 = 0

/-! ### Fabric time, events, banks -/

/-- Fabric time (R332). -/
def State.fabricTime (s : State) : Nat := (s.pw.ns + s.pw.ftimeOfs.toNat) % 2 ^ 64

def State.withFw (s : State) (f : Fw → Fw) : State := { s with fw := f s.fw }

/-- An update event (R428). -/
def State.fwEvent (s : State) (ev version : Nat) : State :=
  s.event 0x13 (BitVec.ofNat 32 (ev + s.fw.reason * 2 ^ 8 + version % 2 ^ 16 * 2 ^ 16))

def Fw.bankOf (f : Fw) (i : Nat) : Bank := Tab.get (fun _ => Bank.reset) f.bank i
def Fw.setBank (f : Fw) (i : Nat) (b : Bank) : Fw := { f with bank := Tab.set (fun _ => Bank.reset) f.bank i b }

/-- A setting is stored in its bank and, on trial with another format, converted in the old bank too (R410, R428). -/
def Fw.store (f : Fw) (key v : Nat) : Fw :=
  let put (f : Fw) (i : Nat) (v : Nat) : Fw :=
    let b := f.bankOf i
    f.setBank i { b with vals := Tab.set (fun _ => none) b.vals key (some v) }
  let g := put f f.cur v
  if f.conv then
    match Config.convertSetting (f.bankOf (1 - f.cur)).fmt key v with
    | some x => put g (1 - f.cur) x
    | none => g
  else g

/-- The image on trial reads settings of another format: it converts the old bank into the other one and uses that (R428). -/
def Fw.convert (f : Fw) : Fw :=
  if f.state = .trial && !f.conv && f.slotA.fmt != f.slotB.fmt then
    let old := f.bankOf f.cur
    let vals := old.vals.filterMap fun e => match e.2 with
      | some v => (Config.convertSetting f.slotA.fmt e.1 v).map fun x => (e.1, some x)
      | none => none
    { (f.setBank f.cur { old with fmt := f.slotB.fmt }).setBank (1 - f.cur) ⟨f.slotA.fmt, vals⟩ with cur := 1 - f.cur, conv := true }
  else f

def Fw.swap (f : Fw) : Fw := { f with slotA := f.slotB, slotB := f.slotA }

/-- The old image back in slot A, and the new format's bank erased (R426, R427). DEDUCED (assumption log 30). -/
def Fw.fallBack (f : Fw) (reason : Nat) : Fw :=
  let f := if f.conv then { f.setBank f.cur Bank.reset with cur := 1 - f.cur, conv := false } else f
  { f.swap with state := .rejected, reason := reason, revert := false }

/-- The sequencer restarts itself; the loader is next (R425 to R427). -/
def Fw.restart (f : Fw) : Fw := { f with running := false, starting := false }

/-! ### Staging (R421, R422) -/

/-- A WRITE of `FW_BEGIN`: its status and detail code. -/
def fwBeginOp (v : BitVec 32) (s : State) : (Status × Nat) × State :=
  if s.fw.state = .verifying ∨ s.fw.state = .scheduled ∨ s.fw.state = .trial then ((.nackState, 8), s)
  else ((.ok, 0), s.withFw fun f => { f with slotB := [], bitmap := [], version := v, state := .receiving })

/-- The chunks of the staged image have all been received (R423). -/
def Fw.complete (f : Fw) : Bool := f.bitmap.contains 0 && (List.range f.slotB.length).all (f.bitmap.contains ·)

/-- Bytes programmed into an image from an offset on. -/
def Image.program (m : Image) (off : Nat) : List Byte → Image
  | [] => m
  | b :: bs => Image.program (Tab.set (fun _ => 0) m off b) (off + 1) bs

/-- Chunk 0 does not fit the version being staged, or names no length (R422). -/
def Fw.headerBad (f : Fw) : Bool := !f.slotB.headed || f.slotB.field 8 4 != f.version.toNat

/-- A chunk has been programmed (R418, R422, R423). DEDUCED (assumption log 30). -/
def State.chunkIn (s : State) (i : Nat) (data : List Byte) : State :=
  let s := s.withFw fun f => { f with slotB := f.slotB.program (1024 * i) data, bitmap := f.bitmap ++ [i] }
  if i = 0 && s.fw.headerBad then
    (s.withFw fun f => { f with state := .rejected, reason := 6 }).fwEvent 2 s.fw.version.toNat
  else if s.fw.complete then s.withFw fun f => { f with state := .verifying }
  else s

/-- The number that bytes `off` to `off + n - 1` of a write spell. -/
def le (bs : List Byte) (off n : Nat) : Nat := ofBytes ((bs.drop off).take n)

/-- A WRITE of `FW_CHUNK` that carries all of its bytes. DEDUCED (assumption log 30). -/
def fwChunkOp (bs : List Byte) (s : State) : (Status × Nat) × State :=
  let i := le bs 0 2
  if s.fw.state != .receiving then ((.nackState, 8), s)
  else if le bs 2 4 != s.fw.version.toNat || le bs 6 2 != 0 then ((.nackState, 5), s)
  else if 1024 ≤ i || (s.fw.bitmap.contains 0 && s.fw.slotB.length ≤ i) then ((.nackState, 5), s)
  else if s.fw.bitmap.contains i then ((.ok, 0), s)
  else ((.ok, 0), s.chunkIn i (bs.drop 8))

/-- The first check of a staged image that fails (R423). -/
def Fw.firstFault (f : Fw) : Option Nat :=
  let m := f.slotB
  if !m.digestOk then some 1
  else if !m.signed then some 2
  else if m.field 8 4 ≤ f.slotA.version then some 3
  else if m.field 0x10 1 < f.arb then some 4
  else if f.slotA.version < m.field 0x0C 4 then some 5
  else if !m.reservedZero then some 6
  else none

/-- FW_VERIFY (R423). -/
def execFwVerify (s : State) : Host.Outcome State Fault Refusal :=
  if !(s.fw.running && s.fw.state = .verifying) then .next s
  else
    .next (match s.fw.firstFault with
      | some r => (s.withFw fun f => { f with state := .rejected, reason := r }).fwEvent 2 s.fw.version.toNat
      | none => (s.withFw fun f => { f with state := .staged }).fwEvent 1 s.fw.version.toNat)

/-! ### Activation (R424, R425) -/

/-- The sibling refuses an activation: the reason (R424). -/
def Fw.sibRefuses (f : Fw) : Option Nat :=
  if f.sibTrial then some 7
  else if !f.sibValid || f.sibIface.toNat < f.slotB.field 0x16 2 || f.slotB.field 0x18 2 < f.sibIface.toNat then some 8
  else none

/-- `AT` lies 10 ms to 7 days ahead of fabric time. -/
def atFits (now at_ : Nat) : Bool := now + 10000000 ≤ at_ && at_ ≤ now + 604800000000000

/-- A WRITE of `FW_ACTIVATE`, with all 32 bytes of the entry after it. -/
def fwActivateOp (bs : List Byte) (s : State) : (Status × Nat) × State :=
  let flags := le bs 12 1
  let f := s.fw
  let keep (f : Fw) : Fw := { f with sched := bs }
  if flags % 4 != 0 then
    if flags % 2 = 1 && f.state = .scheduled then ((.ok, 0), s.withFw fun f => { keep f with state := .staged })
    else if flags / 2 % 2 = 1 && f.state = .trial then ((.ok, 0), s.withFw fun f => { (keep f).restart with revert := true })
    else ((.nackState, 8), s)
  else if f.state != .staged || le bs 0 4 != f.version.toNat then ((.nackState, 8), s)
  else if !atFits s.fabricTime (le bs 4 8) || flags != 0 || le bs 13 19 != 0 then ((.nackState, 5), s)
  else match f.sibRefuses with
    | some r => ((.nackState, 8), s.withFw fun f => { f with reason := r })
    | none => ((.ok, 0), s.withFw fun f => { keep f with state := .scheduled, at_ := le bs 4 8 })

/-- FW_ACTIVATION_FIRE (R425): at fabric time `AT` the sequencer writes the update record and restarts itself. -/
def execFwActivationFire (s : State) : Host.Outcome State Fault Refusal :=
  if !(s.fw.running && s.fw.state = .scheduled && !s.fw.fired) then .next s
  else .next ((s.reachNs (s.pw.ns + (s.fw.at_ - s.fabricTime))).withFw fun f => { f.restart with fired := true })

/-- An activation is not performed (R425). -/
def State.missActivation (s : State) (reason : Nat) : State :=
  (s.withFw fun f => { f with state := .staged, reason := reason }).fwEvent 6 s.fw.version.toNat

/-! ### The loader (R426) -/

/-- The image in slot A starts, where it passes its check; else the fall-back image does, where there is one; else the sequencer stays
stopped. DEDUCED (assumption log 30). -/
def State.startImage (s : State) : State :=
  let go (s : State) : State :=
    if s.fw.slotA.startable then s.withFw fun f => { f with starting := true, startNs := s.pw.ns }
    else s.withFw fun f => { f with stopped := true }
  if s.fw.slotA.startable || s.fw.state != .trial then go s
  else
    let v := s.fw.slotA.version
    go ((s.withFw (·.fallBack 12)).fwEvent 5 v)

/-- LOADER_START (R426): the swap that the update record asks for, and the start of an image. -/
def execLoaderStart (s : State) : Host.Outcome State Fault Refusal :=
  if !s.tm.ready || !s.pw.logOk || s.pw.deep != 0 || s.fw.running || s.fw.starting || s.fw.stopped then .next s
  else if s.fw.fired then
    let s := (s.withFw fun f => { f.swap with fired := false, state := .trial, trialNs := s.pw.ns }).startImage
    .next (if s.fw.state = .trial then s.fwEvent 3 s.fw.slotA.version else s)
  else if s.fw.state = .trial then
    let v := s.fw.slotA.version
    .next ((s.withFw fun f => f.fallBack (if f.revert then 11 else 10)).fwEvent 5 v).startImage
  else .next s.startImage

/-- IMAGE_START_TIMEOUT (R426): an image has not signalled its start within 1 s. -/
def execImageStartTimeout (s : State) : Host.Outcome State Fault Refusal :=
  if !s.fw.starting then .next s
  else
    let s := (s.reachNs (s.fw.startNs + 1000000000)).withFw (·.restart)
    if s.fw.state = .trial then
      let v := s.fw.slotA.version
      .next ((s.withFw (·.fallBack 12)).fwEvent 5 v).startImage
    else .next (s.withFw fun f => { f with stopped := true })

/-! ### Trial (R427) -/

/-- Nanoseconds left in the health window (R420, R427). -/
def State.trialLeft (s : State) : Nat := if s.fw.state = .trial then s.fw.trialNs + 1200000000000 - s.pw.ns else 0

/-- FW_CONFIRM (R427): an image confirms after 10 minutes without a fault since its start, all settings having been applied. DEDUCED
(assumption log 30). -/
def execFwConfirm (s : State) : Host.Outcome State Fault Refusal :=
  if !(s.fw.running && s.fw.state = .trial && s.fw.setOk) then .next s
  else
    let s := s.reachNs (s.fw.startNs + 600000000000)
    if s.trialLeft = 0 then .next s
    else
      let s := s.withFw fun f =>
        let f := if f.conv then f.setBank (1 - f.cur) Bank.reset else f
        { f with arb := min 96 (max f.arb (f.slotA.field 0x10 1)), conv := false, state := .idle }
      .next (s.fwEvent 4 s.fw.slotA.version)

/-- TRIAL_EXPIRE (R427). -/
def execTrialExpire (s : State) : Host.Outcome State Fault Refusal :=
  if !(s.fw.running && s.fw.state = .trial) then .next s
  else .next ((s.reachNs (s.fw.trialNs + 1200000000000)).withFw (·.restart))

/-! ### The sibling (R429) -/

/-- SIB_STATUS_MSG (R425, R429): a trial that starts on the sibling before `AT` cancels the activation. -/
def execSibStatusMsg (iface : BitVec 16) (trial : Bool) (s : State) : Host.Outcome State Fault Refusal :=
  if !s.fw.running then .next s
  else
    let rose : Bool := trial && !s.fw.sibTrial
    let s := s.withFw fun f => { f with sibValid := true, sibTrial := trial, sibIface := iface, sibNs := s.pw.ns }
    .next (if rose && s.fw.state = .scheduled && !s.fw.fired then s.missActivation 7 else s)

/-- SIB_TIMEOUT (R429). -/
def execSibTimeout (s : State) : Host.Outcome State Fault Refusal :=
  if !s.fw.sibValid then .next s
  else .next ((s.reachNs (s.fw.sibNs + 10000000)).withFw fun f => { f with sibValid := false })

end Sys2Proof.Machine
end

