-- ==== Sys2Proof/Machine/Dictionary.lean ====
section
/-!
DEFINITION. The object dictionary (chapter 20): its entries, the checks of a request, what each entry reads and what a write to it does,
and the persistent settings (R410).
-/
namespace Sys2Proof.Machine

/-! ### Entries (R404, R405, R413, R414, R420, R442) -/

/-- An entry: type and right by their codes, serving unit (0 AON, 1 HW, 2 SEQ, 3 MTR), size in bytes, whether it is persistent, the
greatest sub-index of an array, and its default where the manual gives one. -/
structure Entry where
  ty    : Nat
  right : Nat
  unit  : Nat
  size  : Nat
  dflt  : Option Nat := some 0
  pers  : Bool := false
  count : Option Nat := none

/-- The identity, bring-up and reset entries. -/
def idEntry : Nat → Option Entry
  | 0x1000 => some { ty := 3, right := 1, unit := 0, size := 4, count := some 4 }
  | 0x1001 => some { ty := 8, right := 1, unit := 0, size := 32 }
  | 0x1002 => some { ty := 2, right := 4, unit := 1, size := 2 }
  | 0x1003 => some { ty := 6, right := 1, unit := 1, size := 1 }
  | 0x1010 => some { ty := 3, right := 1, unit := 0, size := 4 }
  | 0x1011 => some { ty := 4, right := 1, unit := 1, size := 8 }
  | 0x1012 => some { ty := 6, right := 3, unit := 1, size := 1, dflt := none }
  | _ => none

/-- The power entries. -/
def powerEntry : Nat → Option Entry
  | 0x2000 => some { ty := 1, right := 4, unit := 2, size := 1, dflt := some 4, pers := true }
  | 0x2001 => some { ty := 3, right := 1, unit := 1, size := 4, dflt := some 4 }
  | 0x2002 => some { ty := 7, right := 4, unit := 1, size := 1, dflt := some 1, count := some 24 }
  | 0x2003 => some { ty := 7, right := 1, unit := 1, size := 1, dflt := some 1, count := some 24 }
  | 0x2004 => some { ty := 6, right := 4, unit := 2, size := 1, dflt := some 1, pers := true, count := some 24 }
  | 0x2005 => some { ty := 6, right := 3, unit := 1, size := 1, dflt := none }
  | 0x2006 => some { ty := 7, right := 1, unit := 0, size := 1 }
  | 0x2007 => some { ty := 4, right := 1, unit := 1, size := 8, count := some 4 }
  | 0x2008 => some { ty := 4, right := 1, unit := 0, size := 8 }
  | 0x2009 => some { ty := 4, right := 4, unit := 1, size := 8 }
  | 0x2100 => some { ty := 3, right := 4, unit := 2, size := 4, pers := true }
  | 0x2101 => some { ty := 3, right := 1, unit := 1, size := 4, dflt := some 0x60 }
  | _ => none

/-- The entries of the error log and of the march engines. -/
def logEntry : Nat → Option Entry
  | 0x3000 => some { ty := 3, right := 1, unit := 1, size := 4 }
  | 0x3001 => some { ty := 3, right := 3, unit := 1, size := 4, dflt := none }
  | 0x3002 => some { ty := 3, right := 4, unit := 2, size := 4, dflt := some 0xFFFF, pers := true }
  | 0x3003 => some { ty := 3, right := 1, unit := 1, size := 4 }
  | 0x3004 => some { ty := 3, right := 4, unit := 1, size := 4 }
  | 0x3005 => some { ty := 9, right := 1, unit := 1, size := 32 }
  | 0x3006 => some { ty := 9, right := 1, unit := 1, size := 32, count := some 64 }
  | 0x3007 => some { ty := 3, right := 1, unit := 1, size := 4, count := some 8 }
  | 0x3008 => some { ty := 1, right := 4, unit := 2, size := 1, dflt := some 0x3F, pers := true }
  | 0x4000 => some { ty := 3, right := 4, unit := 1, size := 4, dflt := some 0x3C, count := some 24 }
  | 0x4001 => some { ty := 4, right := 1, unit := 1, size := 8, count := some 24 }
  | 0x4002 => some { ty := 4, right := 1, unit := 1, size := 8, count := some 24 }
  | _ => none

/-- The entries of the firmware update and of the meter. -/
def updateEntry : Nat → Option Entry
  | 0x5000 => some { ty := 3, right := 1, unit := 2, size := 4, count := some 3 }
  | 0x5001 => some { ty := 7, right := 1, unit := 2, size := 1 }
  | 0x5002 => some { ty := 9, right := 4, unit := 2, size := 1032 }
  | 0x5003 => some { ty := 9, right := 1, unit := 2, size := 128 }
  | 0x5004 => some { ty := 9, right := 4, unit := 2, size := 32 }
  | 0x5005 => some { ty := 3, right := 4, unit := 2, size := 4 }
  | 0x5006 => some { ty := 1, right := 1, unit := 2, size := 1 }
  | 0x5007 => some { ty := 9, right := 1, unit := 2, size := 256 }
  | 0x5008 => some { ty := 4, right := 1, unit := 2, size := 8 }
  | 0x5009 => some { ty := 1, right := 1, unit := 2, size := 1 }
  | 0x7000 => some { ty := 9, right := 5, unit := 3, size := 32 }
  | 0x7001 => some { ty := 9, right := 5, unit := 3, size := 97 }
  | 0x7002 => some { ty := 9, right := 5, unit := 3, size := 256 }
  | 0x7003 => some { ty := 3, right := 5, unit := 3, size := 4, dflt := some 1 }
  | 0x7004 => some { ty := 4, right := 5, unit := 3, size := 8 }
  | 0x7005 => some { ty := 4, right := 5, unit := 3, size := 8 }
  | 0x7006 => some { ty := 4, right := 5, unit := 3, size := 8, count := some 4 }
  | 0x7007 => some { ty := 4, right := 5, unit := 3, size := 8, count := some 64 }
  | 0x7008 => some { ty := 4, right := 5, unit := 3, size := 8, count := some 64 }
  | 0x7010 => some { ty := 9, right := 5, unit := 3, size := 1024, count := some 255 }
  | 0x7011 => some { ty := 9, right := 5, unit := 3, size := 224, count := some 255 }
  | _ => none

/-- The entry of an index. -/
def dictEntry (i : Nat) : Option Entry :=
  if i < 0x2000 then idEntry i else if i < 0x3000 then powerEntry i else if i < 0x5000 then logEntry i else updateEntry i

/-- An array with one element for each lake (R406). -/
def perLake (i : Nat) : Bool := i = 0x2002 || i = 0x2003 || i = 0x2004 || i = 0x4000 || i = 0x4001 || i = 0x4002

/-- Sub-index 0 of an array: how many elements it has (R406). -/
def countEntry (e : Entry) (n : Nat) : Entry := { ty := 1, right := 1, unit := e.unit, size := 1, dflt := some n }

/-- The entry at an index and sub-index; none where the sub-index does not exist or names an absent lake (R406). DEDUCED (assumption log
28). -/
def subEntry (v : Variant) (e : Entry) (i sub : Nat) : Option Entry :=
  match e.count with
  | none => if sub = 0 then some e else none
  | some n =>
    if sub = 0 then some (countEntry e n)
    else if n < sub ∨ (perLake i ∧ !Config.lakePresent v (sub - 1)) then none
    else some e

/-- The default that INFO shows (R405): zero for STR and BLOB, the capability words for `CAP`. -/
def infoDefault (v : Variant) (e : Entry) (i sub : Nat) : Nat :=
  if 8 ≤ e.ty then 0
  else if i = 0x1000 ∧ sub ≠ 0 then (capWord v (sub - 1)).toNat
  else match e.dflt with | some d => d | none => (Config.infoDefault i).toNat

/-- The 16 bytes of an INFO (R405). DEDUCED (assumption log 28). -/
def infoBytes (v : Variant) (e : Entry) (i sub : Nat) : List Byte :=
  numBytes 1 e.ty ++ (if i = 0x2005 then [Config.deepEnterRight] else numBytes 1 e.right) ++ numBytes 1 (b2n e.pers + 2 * e.unit) ++ numBytes 1 0 ++
  numBytes 2 e.size ++ numBytes 2 0 ++ numBytes 8 (infoDefault v e i sub)

/-! ### Register accesses of the dictionary engine and the sequencer (R407) -/

/-- The register behind an entry: its offset and width, and the field it stands for. -/
structure HwReg where
  off  : Nat
  size : Nat
  lo   : Nat
  n    : Nat

/-- What an entry maps to (R414, R415). -/
def hwReg (i sub : Nat) : Option HwReg :=
  match i with
  | 0x1002 => some ⟨0x20, 4, 0, 16⟩
  | 0x1003 => some ⟨0x20, 4, 16, 1⟩
  | 0x1011 => some ⟨0x38, 8, 0, 64⟩
  | 0x1012 => some ⟨0x30, 4, 0, 1⟩
  | 0x2000 => some ⟨0x10000, 4, 0, 3⟩
  | 0x2001 => some ⟨0x10008, 4, 0, 32⟩
  | 0x2002 => some ⟨0x10100 + 8 * (sub - 1), 4, 0, 2⟩
  | 0x2003 => some ⟨0x10200 + 8 * (sub - 1), 8, 0, 3⟩
  | 0x2004 => some ⟨0x10100 + 8 * (sub - 1), 4, 2, 1⟩
  | 0x2005 => some ⟨0x10400, 4, 0, 1⟩
  | 0x2007 => some ⟨0x10500 + 8 * (sub - 1), 8, 0, 64⟩
  | 0x2009 => some ⟨0x10608, 8, 0, 64⟩
  | 0x2100 => some ⟨0x20500, 4, 0, 12⟩
  | 0x2101 => some ⟨0x20508, 4, 0, 32⟩
  | 0x3000 => some ⟨0x30008, 4, 0, 32⟩
  | 0x3001 => some ⟨0x30008, 4, 0, 32⟩
  | 0x3002 => some ⟨0x30000, 4, 0, 32⟩
  | 0x3003 => some ⟨0x30010, 4, 0, 32⟩
  | 0x3004 => some ⟨0x30014, 4, 0, 32⟩
  | 0x3005 => some ⟨0x30080, 8, 0, 64⟩
  | 0x3006 => some ⟨0x30800 + 32 * (sub - 1), 8, 0, 64⟩
  | 0x3007 => some ⟨0x30040 + 4 * (sub - 1), 4, 0, 32⟩
  | 0x4000 => some ⟨pageOff (sub - 1) 0x8000, 4, 0, 32⟩
  | 0x4001 => some ⟨pageOff (sub - 1) 0x8008, 8, 0, 64⟩
  | 0x4002 => some ⟨pageOff (sub - 1) 0x8010, 8, 0, 64⟩
  | _ => none

/-- The sender of the dictionary's accesses: the management stop, master 0, with the management controller's principal. -/
def dictSrc : Src := ⟨.mgmt, 0⟩

/-- The status and value that an output answers the dictionary's access with. -/
def dictAnswer : Out → Option (Status × BitVec 64)
  | .reg p t st v => if p = .mgmt ∧ t = 0 then some (st, v) else none
  | _ => none

/-- A register access for the dictionary, whose response goes to it and to no port. -/
def State.dictAccess (s : State) (off size : Nat) (v : Option (BitVec 64)) : (Status × BitVec 64) × State :=
  let s' := ctlAccess dictSrc off size v s
  let new := s'.out.take (s'.out.length - s.out.length)
  ((new.findSome? dictAnswer).getD (.absent, 0), { s' with out := new.filter (fun o => (dictAnswer o).isNone) ++ s.out })

/-- A read of the register behind an entry: its field. -/
def hwRead (s : State) (h : HwReg) : (Status × Nat) × State :=
  let (r, s) := s.dictAccess h.off h.size none
  ((r.1, bits r.2 h.lo h.n), s)

/-- A write of the register behind an entry. The fields beside the entry's keep their values. DEDUCED (assumption log 28). -/
def hwWrite (s : State) (h : HwReg) (v : Nat) : Status × State :=
  let cur := (ctlRead s h.off h.size).toNat
  let old := cur / 2 ^ h.lo % 2 ^ h.n
  let (r, s) := s.dictAccess h.off h.size (some (BitVec.ofNat 64 (cur - old * 2 ^ h.lo + v % 2 ^ h.n * 2 ^ h.lo)))
  (r.1, s)

/-! ### Reads -/

/-- The product name, padded (R404, R414). -/
def productName : List Byte :=
  [0x5A, 0x49, 0x4C, 0x45, 0x4C, 0x4F, 0x20, 0x5A, 0x54, 0x39, 0x20, 0x49, 0x54, 0x4D, 0x53] ++ numBytes 17 0

def FwState.code : FwState → Nat
  | .idle => 0 | .receiving => 1 | .verifying => 2 | .staged => 3 | .scheduled => 4 | .trial => 5 | .rejected => 6

/-- The bytes of the AON entries. -/
def aonBytes (s : State) (i sub : Nat) : List Byte :=
  match i with
  | 0x1000 => numBytes 4 (capWord s.variant (sub - 1)).toNat
  | 0x1001 => productName
  | 0x1010 => numBytes 4 s.tmStatus.toNat
  | 0x2006 => numBytes 1 s.pw.deep
  | 0x2008 => numBytes 8 s.pw.ns
  | _ => []

/-- The bytes of the SEQ entries that stand for no register (R414, R415, R420). -/
def seqBytes (s : State) (i sub : Nat) : List Byte :=
  let f := s.fw
  match i with
  | 0x2100 => numBytes 4 f.pcapMw
  | 0x3008 => numBytes 1 s.i3c.ibiMask.toNat
  | 0x5000 => numBytes 4 (if sub = 3 then f.slotB.version else f.slotA.version)
  | 0x5001 => numBytes 1 f.state.code
  | 0x5002 => (List.range 1032).map (Config.chunkRead s.fresh)
  | 0x5003 => (List.range 128).map fun k => BitVec.ofNat 8 ((List.range 8).foldl (fun a j => a + b2n (f.bitmap.contains (8 * k + j)) * 2 ^ j) 0)
  | 0x5004 => (List.range 32).map fun k => f.sched.getD k 0
  | 0x5005 => numBytes 4 f.version.toNat
  | 0x5006 => numBytes 1 f.reason
  | 0x5007 => if f.bitmap.contains 0 then f.slotB.bytes 0 256 else numBytes 256 0
  | 0x5008 => numBytes 8 s.trialLeft
  | 0x5009 => numBytes 1 f.arb
  | _ => []

/-- Four reads of 8 bytes, one after another (R407, R415). -/
def recordRead (s : State) (off : Nat) : Nat → (Status × List Byte) × State
  | 0 => ((.ok, []), s)
  | k + 1 =>
    let (r, s) := s.dictAccess off 8 none
    let (t, s) := recordRead s (off + 8) k
    ((firstStatus [r.1, t.1], numBytes 8 r.2.toNat ++ t.2), s)

/-- All the bytes of an entry, with the status of the register accesses that a HW entry takes. -/
def entryRead (s : State) (e : Entry) (i sub : Nat) : (Status × List Byte) × State :=
  if e.count.isNone && sub = 0 && (dictEntry i).any (·.count.isSome) then ((.ok, numBytes 1 (e.dflt.getD 0)), s)
  else
    match e.unit with
    | 0 => ((.ok, aonBytes s i sub), s)
    | 3 => ((.ok, meterBytes s i sub), s)
    | _ =>
      let reg := if i = 0x2100 then none else hwReg i sub
      match reg with
      | none => ((.ok, seqBytes s i sub), { s with fresh := if i = 0x5002 then s.fresh + 1 else s.fresh })
      | some h =>
        if e.ty = 9 then recordRead s h.off 4
        else
          let (r, s) := hwRead s h
          ((r.1, numBytes e.size r.2), s)

/-! ### Writes -/

/-- A persistent setting takes effect in the running device (R410). -/
def applySetting (s : State) (i sub v : Nat) : Status × State :=
  match i with
  | 0x3008 => (.ok, { s with i3c := { s.i3c with ibiMask := BitVec.ofNat 8 v } })
  | 0x2100 =>
    match hwReg 0x2100 0 with
    | some h =>
      let (st, s) := hwWrite s h (v / 250)
      (st, if st = .ok then s.withFw fun f => { f with pcapMw := v } else s)
    | none => (.absent, s)
  | _ => match hwReg i sub with
    | some h => hwWrite s h v
    | none => (.absent, s)

/-- Bytes replaced from an offset on. -/
def patchBytes (all : List Byte) (off : Nat) (d : List Byte) : List Byte :=
  (List.range all.length).map fun k => if off ≤ k && k < off + d.length then d.getD (k - off) 0 else all.getD k 0

/-- The status and detail code of a register's answer (R400, R407). -/
def asReturned (st : Status) : Status × Nat := (st, if st = .ok then 0 else 8)

/-- A WRITE that has passed the checks of the dictionary (R407, R410, R414, R421, R422, R424). -/
def entryWrite (s : State) (e : Entry) (i sub off : Nat) (d : List Byte) : (Status × Nat) × State :=
  let v := ofBytes d
  if i = 0x5005 then fwBeginOp (BitVec.ofNat 32 v) s
  else if i = 0x5002 then fwChunkOp d s
  else if i = 0x5004 then fwActivateOp (patchBytes (seqBytes s 0x5004 0) off d) s
  else if e.pers then
    let (st, s) := applySetting s i sub v
    (asReturned st, if st = .ok then s.withFw (·.store (i * 256 + sub) v) else s)
  else if (i = 0x1012 || i = 0x2005) && v = 0 then ((.ok, 0), s)
  else match hwReg i sub with
    | some h =>
      let (st, s) := hwWrite s h v
      (asReturned st, s)
    | none => ((.ok, 0), s)

/-! ### Requests (R400, R401, R404 to R406, R408) -/

/-- The right forbids a request (R405, R414). -/
def rightForbids (e : Entry) (i op : Nat) (mpriv : Bool) : Bool :=
  if op = 1 then e.right = 3
  else if op = 2 then
    match e.right with
    | 2 => false
    | 3 => i = 0x2005 && !mpriv
    | 4 => !mpriv
    | _ => true
  else false

/-- Offset and length do not fit the entry, or the response does not fit the maximum read length (R400, R404, R422). -/
def misfits (e : Entry) (r : DictReq) (mrl : Nat) : Bool :=
  if r.op = 3 then r.len != 0 || (e.ty < 8 && r.off != 0) || mrl < 21
  else
    (if 8 ≤ e.ty then r.len = 0 || e.size < r.off + r.len else r.off != 0 || r.len != e.size) ||
    (r.op = 1 && mrl < r.len + 5) || (r.op = 2 && r.index = 0x5002 && (r.off != 0 || r.len != 1032))

/-- A value lies outside the range that the entry permits (R404, R415). -/
def outOfRange (e : Entry) (r : DictReq) : Bool :=
  let v := ofBytes r.data
  r.op = 2 && (if e.ty = 6 then 1 < v
    else if e.ty = 7 then 3 < v
    else if r.index = 0x2000 then 7 < v
    else if r.index = 0x2100 then v != 0 && (v < 250 || 1023750 < v)
    else false)

/-- The sequencer serves requests: its image has started (R408). -/
def seqReady (s : State) : Bool := s.fw.running && s.pw.logOk

/-- What a request is refused with, in the order of the detail codes. DEDUCED (assumption log 28). -/
def dictRefusals (s : State) (r : DictReq) : List (Status × Nat) :=
  match dictEntry r.index with
  | none => [(.absent, 1)]
  | some e0 =>
    match subEntry s.variant e0 r.index r.sub with
    | none => [(.absent, 2)]
    | some e =>
      (if (e.unit = 1 && s.absentNow) || (e.unit = 3 && !s.meter.running) then [(.absent, 7)] else []) ++
      (if rightForbids e r.index r.op r.mpriv then [(.nackOwner, 4)] else []) ++
      (if misfits e r s.i3c.mrl.toNat then [(.nackState, 3)] else []) ++
      (if outOfRange e r then [(.nackState, 5)] else []) ++
      (if e.unit = 2 && !seqReady s then [(.retry, 7)] else [])

/-- The refusal whose status comes first under R15. DEDUCED (assumption log 28). -/
def firstRefusal : List (Status × Nat) → Option (Status × Nat)
  | [] => none
  | a :: l => match firstRefusal l with
    | none => some a
    | some b => if a.1.rank ≤ b.1.rank then some a else some b

/-- A request carried out, or refused: status, detail and data. -/
def dictPerform (s : State) (r : DictReq) : (Status × Nat × List Byte) × State :=
  match firstRefusal (dictRefusals s r) with
  | some (st, d) => ((st, d, []), s)
  | none =>
    match (dictEntry r.index).bind fun e => subEntry s.variant e r.index r.sub with
    | none => ((.absent, 1, []), s)
    | some e =>
      if r.op = 3 then ((.ok, 0, infoBytes s.variant e r.index r.sub), s)
      else if r.op = 1 then
        let (x, s) := entryRead s e r.index r.sub
        ((x.1, (asReturned x.1).2, if x.1 = .ok then (x.2.drop r.off).take r.len else []), s)
      else
        let (x, s) := entryWrite s e r.index r.sub r.off r.data
        ((x.1, x.2, []), s)

/-- The unit that serves a request can take it now: HW and SEQ wait while the block is not in RUN (R408, R409), and while a level change
holds the stops (R336). DEDUCED (assumption log 28). -/
def dictMayRun (s : State) (r : DictReq) : Bool :=
  match dictEntry r.index with
  | some e => !(e.unit = 1 || e.unit = 2) || !(s.pw.deep != 0 || s.draining)
  | none => true

/-- The held request is served, where it is one of the operation (R403). DESIGN CHOICE (assumption log 16). -/
def State.serve (s : State) (op : Nat) : State :=
  match s.i3c.held with
  | none => s
  | some r =>
    if r.op != op || !dictMayRun s r then s
    else
      let (x, s) := dictPerform s r
      { s with i3c := { s.i3c with held := none, resp := some ⟨r.tag, x.1, x.2.1, x.2.2⟩, ready := false, unread := false } }

/-- DICT_READ (R404 to R408, R414 to R416, R442). -/
def execDictRead (s : State) : Host.Outcome State Fault Refusal := .next (s.serve 1)
/-- DICT_WRITE (R404 to R410, R414 to R416, R442). -/
def execDictWrite (s : State) : Host.Outcome State Fault Refusal := .next (s.serve 2)
/-- DICT_INFO (R405, R406). -/
def execDictInfo (s : State) : Host.Outcome State Fault Refusal := .next (s.serve 3)

/-! ### Writes to the update entries (R421, R422, R424) -/

/-- A WRITE to an entry that answers with its status and detail code. DESIGN CHOICE (assumption log 16). -/
def State.entryCommand (s : State) (i : Nat) (d : List Byte) (mpriv : Bool) : State :=
  let r : DictReq := ⟨0, 2, i, 0, 0, d.length, d, mpriv⟩
  if !dictMayRun s r then s
  else
    let (x, s) := dictPerform s r
    s.emit (.dict x.1 x.2.1)

/-- FW_BEGIN (R421). -/
def execFwBegin (v : BitVec 32) (mpriv : Bool) (s : State) : Host.Outcome State Fault Refusal :=
  .next (s.entryCommand 0x5005 (numBytes 4 v.toNat) mpriv)
/-- FW_CHUNK (R418, R422). -/
def execFwChunk (bytes : List Byte) (mpriv : Bool) (s : State) : Host.Outcome State Fault Refusal :=
  .next (s.entryCommand 0x5002 bytes mpriv)
/-- FW_ACTIVATE_SCHEDULE (R424). -/
def execFwActivateSchedule (bytes : List Byte) (mpriv : Bool) (s : State) : Host.Outcome State Fault Refusal :=
  .next (s.entryCommand 0x5004 bytes mpriv)
/-- FW_ACTIVATE_CANCEL (R424): byte 12 is 1. -/
def execFwActivateCancel (mpriv : Bool) (s : State) : Host.Outcome State Fault Refusal :=
  .next (s.entryCommand 0x5004 (numBytes 32 (2 ^ 96)) mpriv)
/-- FW_ACTIVATE_REVERT (R424): byte 12 is 2. -/
def execFwActivateRevert (mpriv : Bool) (s : State) : Host.Outcome State Fault Refusal :=
  .next (s.entryCommand 0x5004 (numBytes 32 (2 ^ 97)) mpriv)

/-! ### Settings at start (R410, R425, R428) -/

/-- Stored settings are applied in order; whether every one was accepted. -/
def applyAll (s : State) : Tab (Option Nat) → Bool × State
  | [] => (true, s)
  | (key, some v) :: l =>
    let (st, s) := applySetting s (key / 256) (key % 256) v
    let (ok, s) := applyAll s l
    (st = .ok && ok, s)
  | (_, none) :: l => applyAll s l

/-- SETTINGS_APPLY (R410, R425, R428): the image started by the loader signals its start, converts the settings where it is on trial
with another format, and applies them. An activation that it has missed by more than 1 ms is not performed. PRESUMED (assumption log
29). DEDUCED (assumption log 30). -/
def execSettingsApply (s : State) : Host.Outcome State Fault Refusal :=
  if !s.fw.starting || !s.tm.ready || s.pw.deep != 0 || s.draining then .next s
  else
    let s := s.withFw fun f => { f.convert with running := true, starting := false }
    let (ok, s) := applyAll s (s.fw.bankOf s.fw.cur).vals
    let s := s.withFw fun f => { f with setOk := ok }
    .next (if s.fw.state = .scheduled && !s.fw.fired && s.fw.at_ + 1000000 < s.fabricTime then s.missActivation 9 else s)

end Sys2Proof.Machine
end

