-- ==== Sys2Proof/Machine/I3c.lean ====
section
/-!
DEFINITION. The I3C target (R394 to R403, R409, R411, R412): request and response frames, the common command codes, Hot-Join and in-band
interrupts.
-/
namespace Sys2Proof.Machine

def State.withI3c (s : State) (f : I3c → I3c) : State := { s with i3c := f s.i3c }

/-! ### Whether the target answers (R396, R397) -/

/-- What the target does when its dynamic address is called. -/
inductive Ack
  | deaf | nack | wake | ack
deriving DecidableEq, Repr

/-- The target takes part in what the bus carries: AON is released and no HDR mode runs (R394, R397). -/
def State.onBus (s : State) : Bool := s.tm.aonUp && !s.i3c.hdr

/-- Its answer to its dynamic address (R394, R396, R397, R402, R409). PRESUMED (assumption log 29). -/
def ackOf (s : State) : Ack :=
  if !s.onBus then .deaf
  else if s.i3c.addr.isNone then .nack
  else if s.pw.deep = 2 then .wake
  else if s.pw.deep = 3 || s.i3c.held.isSome || (s.i3c.resp.isSome && !s.i3c.ready) || (s.pw.deep = 1 && s.pw.deepPend) then .nack
  else .ack

/-- The address is called: nothing where the bus is ignored, no acknowledgement, with the exit from DEEP where it wakes the block, or `go`. -/
def State.called (s : State) (go : State → State) : State :=
  match ackOf s with
  | .deaf => s
  | .nack => s.emit .busNack
  | .wake => s.wakeDeep.emit .busNack
  | .ack => go s

/-! ### Frames (R398, R399) -/

/-- The sum of bytes modulo 256. -/
def sumBytes (bs : List Byte) : Nat := (bs.foldl (fun a b => a + b.toNat) 0) % 256

/-- A frame is in error (R400): parity, `CHK`, its length, `OP`, or the maximum write length. -/
def frameBad (bs : List Byte) (parityOk : Bool) (mwl : Nat) : Bool :=
  let op := (bs.getD 1 0).toNat
  !parityOk || sumBytes bs != 0 || mwl < bs.length || !(op = 1 || op = 2 || op = 3) ||
  bs.length != 10 + (if op = 2 then le bs 7 2 else 0)

/-- The request of a frame (R398). -/
def parseFrame (bs : List Byte) (mpriv : Bool) : DictReq :=
  { tag := le bs 0 1, op := le bs 1 1, index := le bs 2 2, sub := le bs 4 1, off := le bs 5 2, len := le bs 7 2
    data := (bs.drop 9).take (bs.length - 10), mpriv := mpriv }

/-- A request for an entry of HW or SEQ, which wakes the block from the entry to DEEP (R409). -/
def needsWake (r : DictReq) : Bool := match dictEntry r.index with | some e => e.unit = 1 || e.unit = 2 | none => false

/-- A request frame has been received (R398, R400 to R402, R409). -/
def takeFrame (bs : List Byte) (parityOk mpriv : Bool) (s : State) : State :=
  let s := if parityOk then s else s.withI3c fun x => { x with err := true }
  if frameBad bs parityOk s.i3c.mwl.toNat then
    s.withI3c fun x => { x with held := none, resp := some ⟨le bs 0 1, .retry, 6, []⟩, ready := false, unread := false }
  else
    let r := parseFrame bs mpriv
    let s := if s.pw.deep = 1 && needsWake r then s.wakeDeep else s
    s.withI3c fun x => { x with held := some r, resp := none, ready := false, unread := false }

/-- REQUEST_FRAME (R397, R398, R401, R402, R409). -/
def execRequestFrame (bytes : List Byte) (parityOk mpriv : Bool) (s : State) : Host.Outcome State Fault Refusal :=
  .next (s.called (takeFrame bytes parityOk mpriv))

/-- DICT_RESPONSE_READY (R403). -/
def execDictResponseReady (s : State) : Host.Outcome State Fault Refusal :=
  if s.i3c.resp.isSome && !s.i3c.ready then .next (s.withI3c fun x => { x with ready := true, unread := true }) else .next s

/-- A response frame (R399). PRESUMED (assumption log 29). -/
def respFrame (r : DictResp) : List Byte :=
  let body := numBytes 1 r.tag ++ numBytes 1 (r.status.code + 16 * r.detail) ++ numBytes 2 r.data.length ++ r.data
  body ++ numBytes 1 (256 - sumBytes body)

/-- RESPONSE_FRAME_READ (R397, R402). -/
def execResponseFrameRead (s : State) : Host.Outcome State Fault Refusal :=
  .next (s.called fun s =>
    let r := s.i3c.resp.getD ⟨0, .nackState, 0, []⟩
    (s.withI3c fun x => { x with unread := false }).emit (.frame (respFrame r)))

/-! ### Common command codes (R394 to R396) -/

/-- A CCC that the bus carries to every target: ignored where the bus is. PRESUMED (assumption log 29). -/
def State.heard (s : State) (f : I3c → I3c) : State := if s.onBus then s.withI3c f else s

/-- The 48-bit provisional ID, highest byte first (R395). -/
def provisionalId (s : State) : List Byte :=
  let v := 0x2D9 * 2 ^ 33 + 0x17C9 * 2 ^ 16 + s.i3c.inst.toNat * 2 ^ 13 + b2n s.tm.pkgDie * 2 ^ 12 + 1
  (numBytes 6 v).reverse

/-- A number of 16 bits, highest byte first. PRESUMED (assumption log 29). -/
def msb2 (v : Nat) : List Byte := (numBytes 2 v).reverse

/-- BCR and DCR (R395). -/
def bcr : Byte := 0x0E
def dcr : Byte := 0

/-- ENTDAA (R394, R396): a target without a dynamic address sends its ID, BCR and DCR and takes the address. -/
def execEntdaa (addr : BitVec 7) (s : State) : Host.Outcome State Fault Refusal :=
  if !s.onBus || s.i3c.addr.isSome then .next s
  else .next ((s.withI3c fun x => { x with addr := some addr }).emit (.ccc (provisionalId s ++ [bcr, dcr])))

/-- SETNEWDA (R394). -/
def execSetnewda (addr : BitVec 7) (s : State) : Host.Outcome State Fault Refusal :=
  .next (s.called fun s => s.withI3c fun x => { x with addr := some addr })

/-- RSTDAA (R396). -/
def execRstdaa (s : State) : Host.Outcome State Fault Refusal := .next (s.heard fun x => { x with addr := none })

/-- ENEC (R394, R412). -/
def execEnec (enint enhj : Bool) (s : State) : Host.Outcome State Fault Refusal :=
  .next (s.heard fun x => { x with enint := x.enint || enint, enhj := x.enhj || enhj })

/-- DISEC (R394). -/
def execDisec (disint dishj : Bool) (s : State) : Host.Outcome State Fault Refusal :=
  .next (s.heard fun x => { x with enint := x.enint && !disint, enhj := x.enhj && !dishj })

/-- GETPID (R395). -/
def execGetpid (s : State) : Host.Outcome State Fault Refusal := .next (s.called fun s => s.emit (.ccc (provisionalId s)))
/-- GETBCR (R395). -/
def execGetbcr (s : State) : Host.Outcome State Fault Refusal := .next (s.called fun s => s.emit (.ccc [bcr]))
/-- GETDCR (R395). -/
def execGetdcr (s : State) : Host.Outcome State Fault Refusal := .next (s.called fun s => s.emit (.ccc [dcr]))

/-- The status word (R395). PRESUMED (assumption log 29). -/
def targetStatus (s : State) : Nat :=
  min 15 s.i3c.pend.length + 32 * b2n s.i3c.err + 256 * b2n s.tm.ready + 512 * b2n s.i3c.unread

/-- GETSTATUS (R395): its read clears the protocol-error flag. PRESUMED (assumption log 29). -/
def execGetstatus (s : State) : Host.Outcome State Fault Refusal :=
  .next (s.called fun s => (s.withI3c fun x => { x with err := false }).emit (.ccc (msb2 (targetStatus s))))

/-- SETMWL (R394). -/
def execSetmwl (n : BitVec 16) (s : State) : Host.Outcome State Fault Refusal := .next (s.heard fun x => { x with mwl := n })
/-- GETMWL (R395). -/
def execGetmwl (s : State) : Host.Outcome State Fault Refusal := .next (s.called fun s => s.emit (.ccc (msb2 s.i3c.mwl.toNat)))
/-- SETMRL (R394). -/
def execSetmrl (n : BitVec 16) (s : State) : Host.Outcome State Fault Refusal := .next (s.heard fun x => { x with mrl := n })
/-- GETMRL (R395): with the maximum interrupt payload. -/
def execGetmrl (s : State) : Host.Outcome State Fault Refusal :=
  .next (s.called fun s => s.emit (.ccc (msb2 s.i3c.mrl.toNat ++ [5])))

/-- ENTAS0 to ENTAS3 (R394): accepted, without effect. -/
def execEntas (_ : Fin 4) (s : State) : Host.Outcome State Fault Refusal := .next s

/-- UNSUPPORTED_CCC (R394): a direct one is not acknowledged, a broadcast one ignored. -/
def execUnsupportedCcc (direct : Bool) (s : State) : Host.Outcome State Fault Refusal :=
  .next (if direct then s.called fun s => s.emit .busNack else s)

/-- HDR_ENTRY (R394). -/
def execHdrEntry (s : State) : Host.Outcome State Fault Refusal := .next (s.heard fun x => { x with hdr := true })
/-- HDR_EXIT_PATTERN (R394). -/
def execHdrExitPattern (s : State) : Host.Outcome State Fault Refusal := .next (s.withI3c fun x => { x with hdr := false })

/-- HOT_JOIN (R396): every 10 ms while the target has no address. -/
def execHotJoin (s : State) : Host.Outcome State Fault Refusal :=
  if !(s.onBus && s.i3c.addr.isNone && s.i3c.enhj) then .next s
  else
    let s := s.reachNs s.i3c.hjNs
    .next ((s.withI3c fun x => { x with hjNs := s.pw.ns + 10000000 }).emit .hotJoin)

/-! ### In-band interrupts (R412) -/

/-- A pending event may be raised now: its mask bit is set, and its code has not been raised within 1 ms. -/
def raisable (s : State) (code : Nat) : Bool :=
  if code < 0x10 then bit s.err.ibiEn code
  else bit s.i3c.ibiMask (code - 0x10) &&
    (match Tab.get (fun _ => none) s.i3c.last code with | some t => decide (t + 1000000 ≤ s.pw.ns) | none => true)

/-- The lowest pending event that may be raised, with its payload. -/
def lowestPending (s : State) : Option (Nat × BitVec 32) :=
  s.i3c.pend.findSome? fun e => match e.2 with | some p => if raisable s e.1 then some (e.1, p) else none | none => none

/-- IBI_RAISE (R411, R412): at a bus-free condition; one that the controller does not acknowledge stays pending. -/
def execIbiRaise (ack : Bool) (s : State) : Host.Outcome State Fault Refusal :=
  if !(s.onBus && s.i3c.addr.isSome && s.i3c.enint && ack) then .next s
  else
    .next (match lowestPending s with
      | none => s
      | some (code, p) =>
        (s.withI3c fun x =>
          { x with pend := Tab.set (fun _ => none) x.pend code none, last := Tab.set (fun _ => none) x.last code (some s.pw.ns) }).emit (.ibi code p))

end Sys2Proof.Machine
end

