-- ==== Sys2Proof/Machine/Dispatch.lean ====
section
/-!
DEFINITION. The dispatcher: one arm for each command, each a direct call of that command's meaning.
-/
namespace Sys2Proof.Machine

/-- The effect of a command on everything but the queue of waiting commands. -/
def exec (i : Instr) (s : State) : Host.Outcome State Fault Refusal :=
  match i with
  | .read q => Sys2Proof.Machine.execRead q s
  | .write q d => Sys2Proof.Machine.execWrite q d s
  | .peek q => Sys2Proof.Machine.execPeek q s
  | .consume q => Sys2Proof.Machine.execConsume q s
  | .produce q d => Sys2Proof.Machine.execProduce q d s
  | .xread q ew stride => Sys2Proof.Machine.execXread q ew stride s
  | .gather q stride => Sys2Proof.Machine.execGather q stride s
  | .add q a d => Sys2Proof.Machine.execAdd q a d s
  | .addWide q a d => Sys2Proof.Machine.execAddWide q a d s
  | .max q a d => Sys2Proof.Machine.execMax q a d s
  | .min q a d => Sys2Proof.Machine.execMin q a d s
  | .swap q ty elem d => Sys2Proof.Machine.execSwap q ty elem d s
  | .cas q ty elem d => Sys2Proof.Machine.execCas q ty elem d s
  | .takePeek q => Sys2Proof.Machine.execTakePeek q s
  | .takeWrite q d => Sys2Proof.Machine.execTakeWrite q d s
  | .writeBack row => Sys2Proof.Machine.execWriteBack row s
  | .markWrite row => Sys2Proof.Machine.execMarkWrite row s
  | .scrubDue n => Sys2Proof.Machine.execScrubDue n s
  | .scrubRead row => Sys2Proof.Machine.execScrubRead row s
  | .scrubForced row => Sys2Proof.Machine.execScrubForced row s
  | .scrubConfigWrite src n v => Sys2Proof.Machine.execScrubConfigWrite src n v s
  | .hostReadTlp t => Sys2Proof.Machine.execHostReadTlp t s
  | .hostWriteTlp t d => Sys2Proof.Machine.execHostWriteTlp t d s
  | .hostRetryReissue tag => Sys2Proof.Machine.execHostRetryReissue tag s
  | .hostPostedRelease => Sys2Proof.Machine.execHostPostedRelease s
  | .atomicopFetchadd t wide v => Sys2Proof.Machine.execAtomicopFetchadd t wide v s
  | .atomicopSwap t wide v => Sys2Proof.Machine.execAtomicopSwap t wide v s
  | .atomicopCas t size cmp swap => Sys2Proof.Machine.execAtomicopCas t size cmp swap s
  | .arrivalRead q op => Sys2Proof.Machine.execArrivalRead q op s
  | .arrivalWrite q op d => Sys2Proof.Machine.execArrivalWrite q op d s
  | .epIdWrite src v => Sys2Proof.Machine.execEpIdWrite src v s
  | .registerWrite src off size v => Sys2Proof.Machine.execRegisterWrite src off size v s
  | .shoreCfgWrite src n v => Sys2Proof.Machine.execShoreCfgWrite src n v s
  | .arbDecision a ms => Sys2Proof.Machine.execArbDecision a ms s
  | .burstLimit a => Sys2Proof.Machine.execBurstLimit a s
  | .quotaWindowClose a => Sys2Proof.Machine.execQuotaWindowClose a s
  | .arbConfigWrite src a which v => Sys2Proof.Machine.execArbConfigWrite src a which v s
  | .packetInject k => Sys2Proof.Machine.execPacketInject k s
  | .stopStarving p ccw => Sys2Proof.Machine.execStopStarving p ccw s
  | .packetEject id parityOk => Sys2Proof.Machine.execPacketEject id parityOk s
  | .responseEject id st d parityOk => Sys2Proof.Machine.execResponseEject id st d parityOk s
  | .stopReissue p dst idx => Sys2Proof.Machine.execStopReissue p dst idx s
  | .backoffReset rp who => Sys2Proof.Machine.execBackoffReset rp who s
  | .qshareWrite src which v => Sys2Proof.Machine.execQshareWrite src which v s
  | .lateRecordInterval c => Sys2Proof.Machine.execLateRecordInterval c s
  | .pcapPeriod skipped => Sys2Proof.Machine.execPcapPeriod skipped s
  | .pcapWrite src v => Sys2Proof.Machine.execPcapWrite src v s
  | .handover src n v => Sys2Proof.Machine.execHandover src n v s
  | .ctxSelWrite src v => Sys2Proof.Machine.execCtxSelWrite src v s
  | .liveViewValidWrite src v => Sys2Proof.Machine.execLiveViewValidWrite src v s
  | .contextSave src v => Sys2Proof.Machine.execContextSave src v s
  | .contextSaveComplete => Sys2Proof.Machine.execContextSaveComplete s
  | .contextRestore src v => Sys2Proof.Machine.execContextRestore src v s
  | .contextRestoreLoad => Sys2Proof.Machine.execContextRestoreLoad s
  | .reelCfgWrite src e v => Sys2Proof.Machine.execReelCfgWrite src e v s
  | .reelBaseWrite src e v => Sys2Proof.Machine.execReelBaseWrite src e v s
  | .reelTailWrite src e v => Sys2Proof.Machine.execReelTailWrite src e v s
  | .reelHeadWrite src e v => Sys2Proof.Machine.execReelHeadWrite src e v s
  | .srSeedWrite src n v => Sys2Proof.Machine.execSrSeedWrite src n v s
  | .sprReelBind src n reel => Sys2Proof.Machine.execSprReelBind src n reel s
  | .sprReelUnbind src n => Sys2Proof.Machine.execSprReelUnbind src n s
  | .slotRead n => Sys2Proof.Machine.execSlotRead n s
  | .nop n => Sys2Proof.Machine.execNop n s
  | .load n => Sys2Proof.Machine.execLoad n s
  | .store n => Sys2Proof.Machine.execStore n s
  | .pull n => Sys2Proof.Machine.execPull n s
  | .push n => Sys2Proof.Machine.execPush n s
  | .copy n => Sys2Proof.Machine.execCopy n s
  | .fill n => Sys2Proof.Machine.execFill n s
  | .signalCue n => Sys2Proof.Machine.execSignalCue n s
  | .waitCue n => Sys2Proof.Machine.execWaitCue n s
  | .mark n => Sys2Proof.Machine.execMark n s
  | .markRetest n => Sys2Proof.Machine.execMarkRetest n s
  | .stackReadReturn n seq piece st d => Sys2Proof.Machine.execStackReadReturn n seq piece st d s
  | .stackWriteAck n seq piece st => Sys2Proof.Machine.execStackWriteAck n seq piece st s
  | .descriptorComplete n seq => Sys2Proof.Machine.execDescriptorComplete n seq s
  | .slotRelease n => Sys2Proof.Machine.execSlotRelease n s
  | .sprCut src n v => Sys2Proof.Machine.execSprCut src n v s
  | .cutComplete n => Sys2Proof.Machine.execCutComplete n s
  | .taskAbort src v => Sys2Proof.Machine.execTaskAbort src v s
  | .taskAbortComplete => Sys2Proof.Machine.execTaskAbortComplete s
  | .basinLookup n seq piece struck => Sys2Proof.Machine.execBasinLookup n seq piece struck s
  | .basinFillReturn sib line st d => Sys2Proof.Machine.execBasinFillReturn sib line st d s
  | .basinInvAll src v => Sys2Proof.Machine.execBasinInvAll src v s
  | .basinInvRange src v => Sys2Proof.Machine.execBasinInvRange src v s
  | .basinInvDone => Sys2Proof.Machine.execBasinInvDone s
  | .waiterWake row => Sys2Proof.Machine.execWaiterWake row s
  | .waiterTimeout n id => Sys2Proof.Machine.execWaiterTimeout n id s
  | .rangeStepEnter n => Sys2Proof.Machine.execRangeStepEnter n s
  | .tagSweep row => Sys2Proof.Machine.execTagSweep row s
  | .slateOp src n v => Sys2Proof.Machine.execSlateOp src n v s
  | .slateOpRow n => Sys2Proof.Machine.execSlateOpRow n s
  | .slateOpDone n => Sys2Proof.Machine.execSlateOpDone n s
  | .cueSignal src c v => Sys2Proof.Machine.execCueSignal src c v s
  | .cueSignalSend id => Sys2Proof.Machine.execCueSignalSend id s
  | .cueWait src c v => Sys2Proof.Machine.execCueWait src c v s
  | .cueCountWrite src c v => Sys2Proof.Machine.execCueCountWrite src c v s
  | .cueCfgWrite src c v => Sys2Proof.Machine.execCueCfgWrite src c v s
  | .takeOpen t f => Sys2Proof.Machine.execTakeOpen t f s
  | .takeCommit t => Sys2Proof.Machine.execTakeCommit t s
  | .takeAbort t fault => Sys2Proof.Machine.execTakeAbort t fault s
  | .takeCommitStep n slot => Sys2Proof.Machine.execTakeCommitStep n slot s
  | .takeAbortStep n slot => Sys2Proof.Machine.execTakeAbortStep n slot s
  | .fence src scope => Sys2Proof.Machine.execFence src scope s
  | .fenceComplete id => Sys2Proof.Machine.execFenceComplete id s
  | .kernelEnd src v => Sys2Proof.Machine.execKernelEnd src v s
  | .kernelBoundaryDone => Sys2Proof.Machine.execKernelBoundaryDone s
  | .winOwnerWrite src w v => Sys2Proof.Machine.execWinOwnerWrite src w v s
  | .winConfigWrite src w which v => Sys2Proof.Machine.execWinConfigWrite src w which v s
  | .winOpen src w => Sys2Proof.Machine.execWinOpen src w s
  | .winClose src w => Sys2Proof.Machine.execWinClose src w s
  | .winRelease src w => Sys2Proof.Machine.execWinRelease src w s
  | .winClosed w => Sys2Proof.Machine.execWinClosed w s
  | .preempt src v => Sys2Proof.Machine.execPreempt src v s
  | .preemptDeadline => Sys2Proof.Machine.execPreemptDeadline s
  | .protModeChange src n v => Sys2Proof.Machine.execProtModeChange src n v s
  | .conversionDone n => Sys2Proof.Machine.execConversionDone n s
  | .recordEnter => Sys2Proof.Machine.execRecordEnter s
  | .corrInterval source => Sys2Proof.Machine.execCorrInterval source s
  | .ibiInterval c => Sys2Proof.Machine.execIbiInterval c s
  | .errTailWrite src v => Sys2Proof.Machine.execErrTailWrite src v s
  | .errStatClear src v => Sys2Proof.Machine.execErrStatClear src v s
  | .eccInjectArm src n v => Sys2Proof.Machine.execEccInjectArm src n v s
  | .monitorUpdate k mv cur pwr => Sys2Proof.Machine.execMonitorUpdate k mv cur pwr s
  | .levelReqWrite src v => Sys2Proof.Machine.execLevelReqWrite src v s
  | .levelChangeStart => Sys2Proof.Machine.execLevelChangeStart s
  | .voltageStep => Sys2Proof.Machine.execVoltageStep s
  | .drainComplete => Sys2Proof.Machine.execDrainComplete s
  | .dividerSwitchEnd => Sys2Proof.Machine.execDividerSwitchEnd s
  | .drainAbandon => Sys2Proof.Machine.execDrainAbandon s
  | .lakeStateReq src n v => Sys2Proof.Machine.execLakeStateReq src n v s
  | .lakeDrainComplete n => Sys2Proof.Machine.execLakeDrainComplete n s
  | .lakeEntryEnd n => Sys2Proof.Machine.execLakeEntryEnd n s
  | .autoIdle n => Sys2Proof.Machine.execAutoIdle n s
  | .idleWake n => Sys2Proof.Machine.execIdleWake n s
  | .idleWakeEnd n => Sys2Proof.Machine.execIdleWakeEnd n s
  | .lakeWake n => Sys2Proof.Machine.execLakeWake n s
  | .lakeWakeEnd n => Sys2Proof.Machine.execLakeWakeEnd n s
  | .pwrWakeWrite src v => Sys2Proof.Machine.execPwrWakeWrite src v s
  | .deepEnter src v => Sys2Proof.Machine.execDeepEnter src v s
  | .deepEntryEnd => Sys2Proof.Machine.execDeepEntryEnd s
  | .deepWake w => Sys2Proof.Machine.execDeepWake w s
  | .deepExitEnd => Sys2Proof.Machine.execDeepExitEnd s
  | .coldReset => Sys2Proof.Machine.execColdReset s
  | .aonRelease => Sys2Proof.Machine.execAonRelease s
  | .pllLock => Sys2Proof.Machine.execPllLock s
  | .fuseRepairDone ws => Sys2Proof.Machine.execFuseRepairDone ws s
  | .eccInitDone => Sys2Proof.Machine.execEccInitDone s
  | .warmResetPin => Sys2Proof.Machine.execWarmResetPin s
  | .warmResetWrite src v => Sys2Proof.Machine.execWarmResetWrite src v s
  | .warmReinitDone => Sys2Proof.Machine.execWarmReinitDone s
  | .lakeReset src v => Sys2Proof.Machine.execLakeReset src v s
  | .lakeResetDone => Sys2Proof.Machine.execLakeResetDone s
  | .marchStart src n v => Sys2Proof.Machine.execMarchStart src n v s
  | .marchTestDone n fails => Sys2Proof.Machine.execMarchTestDone n fails s
  | .marchAnalysisDone n => Sys2Proof.Machine.execMarchAnalysisDone n s
  | .marchRemapDone n => Sys2Proof.Machine.execMarchRemapDone n s
  | .marchInitDone n => Sys2Proof.Machine.execMarchInitDone n s
  | .cntCfgWrite src entry v => Sys2Proof.Machine.execCntCfgWrite src entry v s
  | .cntValWrite src entry v => Sys2Proof.Machine.execCntValWrite src entry v s
  | .dailiesSnapshot src v => Sys2Proof.Machine.execDailiesSnapshot src v s
  | .snapshotRelease => Sys2Proof.Machine.execSnapshotRelease s
  | .requestFrame bytes parityOk mpriv => Sys2Proof.Machine.execRequestFrame bytes parityOk mpriv s
  | .dictRead => Sys2Proof.Machine.execDictRead s
  | .dictWrite => Sys2Proof.Machine.execDictWrite s
  | .dictInfo => Sys2Proof.Machine.execDictInfo s
  | .dictResponseReady => Sys2Proof.Machine.execDictResponseReady s
  | .responseFrameRead => Sys2Proof.Machine.execResponseFrameRead s
  | .entdaa addr => Sys2Proof.Machine.execEntdaa addr s
  | .setnewda addr => Sys2Proof.Machine.execSetnewda addr s
  | .rstdaa => Sys2Proof.Machine.execRstdaa s
  | .enec enint enhj => Sys2Proof.Machine.execEnec enint enhj s
  | .disec disint dishj => Sys2Proof.Machine.execDisec disint dishj s
  | .getpid => Sys2Proof.Machine.execGetpid s
  | .getbcr => Sys2Proof.Machine.execGetbcr s
  | .getdcr => Sys2Proof.Machine.execGetdcr s
  | .getstatus => Sys2Proof.Machine.execGetstatus s
  | .setmwl n => Sys2Proof.Machine.execSetmwl n s
  | .getmwl => Sys2Proof.Machine.execGetmwl s
  | .setmrl n => Sys2Proof.Machine.execSetmrl n s
  | .getmrl => Sys2Proof.Machine.execGetmrl s
  | .entas k => Sys2Proof.Machine.execEntas k s
  | .unsupportedCcc direct => Sys2Proof.Machine.execUnsupportedCcc direct s
  | .hdrEntry => Sys2Proof.Machine.execHdrEntry s
  | .hotJoin => Sys2Proof.Machine.execHotJoin s
  | .ibiRaise ack => Sys2Proof.Machine.execIbiRaise ack s
  | .settingsApply => Sys2Proof.Machine.execSettingsApply s
  | .fwBegin v mpriv => Sys2Proof.Machine.execFwBegin v mpriv s
  | .fwChunk bytes mpriv => Sys2Proof.Machine.execFwChunk bytes mpriv s
  | .fwVerify => Sys2Proof.Machine.execFwVerify s
  | .fwActivateSchedule bytes mpriv => Sys2Proof.Machine.execFwActivateSchedule bytes mpriv s
  | .fwActivateCancel mpriv => Sys2Proof.Machine.execFwActivateCancel mpriv s
  | .fwActivateRevert mpriv => Sys2Proof.Machine.execFwActivateRevert mpriv s
  | .fwActivationFire => Sys2Proof.Machine.execFwActivationFire s
  | .loaderStart => Sys2Proof.Machine.execLoaderStart s
  | .imageStartTimeout => Sys2Proof.Machine.execImageStartTimeout s
  | .fwConfirm => Sys2Proof.Machine.execFwConfirm s
  | .trialExpire => Sys2Proof.Machine.execTrialExpire s
  | .sibStatusMsg iface trial => Sys2Proof.Machine.execSibStatusMsg iface trial s
  | .sibTimeout => Sys2Proof.Machine.execSibTimeout s
  | .meterEnergySample mv ma => Sys2Proof.Machine.execMeterEnergySample mv ma s
  | .meterSample => Sys2Proof.Machine.execMeterSample s
  | .tallyRecord => Sys2Proof.Machine.execTallyRecord s
  | .meterClose => Sys2Proof.Machine.execMeterClose s
  | .meterPowerUp => Sys2Proof.Machine.execMeterPowerUp s
  | .monitorSelfTest ok => Sys2Proof.Machine.execMonitorSelfTest ok s
  | .clientTakesRequest p id => Sys2Proof.Machine.execClientTakesRequest p id s
  | .referenceClockLoss => Sys2Proof.Machine.execReferenceClockLoss s
  | .referenceClockReturn => Sys2Proof.Machine.execReferenceClockReturn s
  | .hdrExitPattern => Sys2Proof.Machine.execHdrExitPattern s
  | .testPortAccess => Sys2Proof.Machine.execTestPortAccess s
  | .vddLogLoss => Sys2Proof.Machine.execVddLogLoss s

end Sys2Proof.Machine
end

