-- ==== Sys2Proof/Safety.lean ====
section
/-!
DEFINITION. What the statements speak of: the canonical form of a state's tables, the conditions under which a register write or a
storage request reaches its register or its rows, and the terms in which a command's effect and its frame are said.
-/
namespace Sys2Proof.Machine

/-- Every sparse table of the state is in canonical form, so that equal contents are equal data. -/
def State.canonical (s : State) : Bool :=
  Memory.wf s.mem && Tab.wf (fun _ => RowTag.reset) s.rows && Tab.wf (fun _ => Lake.reset) s.lakes &&
  Tab.wf (fun _ => LakePower.reset) s.lpow && Tab.wf (fun _ => Mte.reset) s.mtes && Tab.wf (fun _ => Spring.reset) s.springs &&
  Tab.wf (fun k => Arb.reset (arbHigh k)) s.arbs && Tab.wf (fun _ => Stop.reset) s.stops &&
  Tab.wf (Cue.reset s.variant) s.cues && Tab.wf (fun _ => Win.reset) s.wins && Tab.wf (fun _ => Reel.reset) s.reels &&
  Tab.wf (fun _ => []) s.ctxs

/-! ### Register writes -/

/-- The block runs and serves its ports: not in DEEP (R349), no level change drains the stops (R336), out of reset with its logic
supplied (R353, R362). -/
def State.running (s : State) : Bool := s.pw.deep = 0 && !s.draining && s.tm.ready && s.pw.logOk

/-- A write of `size` bytes at a control-space offset reaches its register: the block runs, none of the checks made before the
register refuses it (R4, R15, R27, R133, R139, R380), and no cue signal of its sender is held before it, but where it is a signal itself
(R244, R251). -/
def State.opens (s : State) (src : Src) (off size : Nat) : Bool :=
  s.pw.deep = 0 && !s.draining && (ctlGate s src (whoOf s src.port) off size true).isNone &&
  (writesSignal off true || (s.signalAhead (whoOf s src.port)).isNone)

/-- The sender acts with privilege (R11, R122). -/
def State.privileged (s : State) (src : Src) : Bool := (whoOf s src.port).priv

/-- The sender is the owner of a lake, or acts with privilege (R124). -/
def State.mastersLake (s : State) (src : Src) (n : Nat) : Bool := s.owns (whoOf s src.port) n

/-- The write as its register sees it. -/
def State.ctl (s : State) (src : Src) (off : Nat) : Ctl := ⟨src, whoOf s src.port, off⟩

/-- One REJECT record of a register write (R131): its status, the writer's principal, the address of the register, and which condition
failed. -/
def State.rejected (s : State) (src : Src) (off detail : Nat) : State :=
  (s.reject .nackState (s.ctl src off).source (whoOf s src.port).pr detail (0x20000000 + off)).reply src .nackState

/-- A write refused at its register with a status and one REJECT record (R131, R232). -/
def State.denied (s : State) (src : Src) (off : Nat) (st : Status) (detail : Nat) : State :=
  (s.reject st (s.ctl src off).source (whoOf s src.port).pr detail (0x20000000 + off)).reply src st

/-- Set `i` of a lake's arbiter configuration replaced (R92). -/
def State.setArbSet (s : State) (n i : Nat) (x : ArbCfg) : State :=
  s.modLake n fun l => { l with arbCfg := Tab.set (fun _ => ArbCfg.reset) l.arbCfg i x }

/-- The context record that 16 words of memory from a byte address hold (R140, R143). -/
def State.recordAt (s : State) (a : Nat) : Ctx :=
  let ws := (List.range 16).map fun i => readWord s.mem (a / 32 + i)
  (List.range 64).foldl (fun t i => Tab.set (fun _ => 0) t i (octOf ws i)) []

/-! ### Storage requests -/

/-- The issuer of a request whose stop grants it injection now, with the budget that the request carries (R111, R113). -/
def State.issuer (s : State) (q : Req) : Who := { (whoOf s q.port).budget q with granted := s.pw.now }

/-- The same, as its lake sees it (R35). -/
def State.caller (s : State) (q : Req) : Who := (s.issuer q).ownGlobal s q

/-- A request of an issuer passes its stop and every check of its lake, which is ON, and may take its pond cycles now at word `w0` of view
`v` (R15, R23, R24, R126, R133, R146, R147, R343), but for the window check of writes from other dies. -/
def State.reachesAs (s : State) (w : Who) (op : Op) (q : Req) (v : View) (w0 : Nat) : Bool :=
  let n := lakeOf (wordRow w0)
  s.running && !noUnit s op && (widePort s w q).isNone && !s.slotDead q.port && !s.err.fatal && aim s w op q = .word v w0 &&
  (s.lp n).state = .on && gateEarly s (w.ownGlobal s q) op q v n w0 = .go && gateLate s (w.ownGlobal s q) op q v n w0 = .go

/-- A request that is presented now does. -/
def State.reaches (s : State) (op : Op) (q : Req) (v : View) (w0 : Nat) : Bool := s.reachesAs (s.issuer q) op q v w0

/-- The same, and the request is no write from another die. -/
def State.serves (s : State) (op : Op) (q : Req) (v : View) (w0 : Nat) : Bool :=
  s.reaches op q v w0 && !((s.caller q).arrival.isSome && opWrites op)

/-- A slated request holds no unexpired backoff at its lake, which has a waiter entry free (R90, R223). -/
def State.room (s : State) (q : Req) (v : View) (n : Nat) : Bool :=
  v = .data || ((s.early (.waiters (Fin.ofNat 24 n)) (whoOf s q.port).ident).isNone && (s.lake n).waiters.length < 64)

/-- Word `w` of the die was supplied by the request, or is masked by its row valid bits (R166). -/
def masks (q : Req) (w0 w : Nat) : Bool :=
  let v := q.vbit.getD (true, true)
  if wordRow w = wordRow w0 then !v.1 else !v.2

/-- A row without a poison mark, a correctable or an uncorrectable error (R306, R312). -/
def State.clean (s : State) (row : Nat) : Bool := !s.marked row && (s.tag row).corr = [] && (s.tag row).bad = []

/-- A row that a read of a view finds ready: clean, and FULL and outside maintenance where the view is slated (R216, R228). -/
def State.readable (s : State) (v : View) (row : Nat) : Bool :=
  s.clean row && (v = .data || (s.slate row = .full && !(s.lake (lakeOf row)).inMaint (lRow row)))

/-- The latency of a request that waits for no slate (R41, R70, R154), with what its own rows add in lanes and ponds (R38, R42). -/
def State.latency (s : State) (op : Op) (q : Req) (d : List Word) (v : View) (w0 : Nat) : Nat :=
  let n := lakeOf (wordRow w0)
  latencyOf s (s.caller q) op q n w0 + (s.place (s.caller q) n op (modeOf s n op q v) q.joins (partsOf op q w0 d).flatten).1.late

/-- The request shares its PS cycle with none performed before it (R49). -/
def State.apart (s : State) (q : Req) : Bool := !q.joins || (s.group = [] && s.ps = ⟨[], []⟩)

/-- The response of a request that is performed now. -/
def State.answered (s u : State) (op : Op) (q : Req) (d : List Word) (v : View) (w0 : Nat) (data : List Word) : State :=
  u.respond (s.caller q) (some (lakeOf (wordRow w0))) op q d .ok data s.pw.now (s.latency op q d v w0) 0

/-! ### Springs -/

/-- The next descriptor of a Spring, the only one with its sequence number, is of a kind and may start; it has asked for nothing, and where it
needs a trickle-queue entry finds one and no older descriptor that waits for one (R181, R210, R212). -/
def State.begins (s : State) (n kind : Nat) (d : Desc) : Bool :=
  startable s n kind = some d && (s.spring n).descs.filter (·.seq = d.seq) = [d] && !d.issued && d.asked = [] && d.returned = [] &&
  d.ready = [] && d.written = [] && d.landed = [] && !d.removed && !d.cut && !d.met &&
  !trickleWaits (s.spring n) d

/-- The lake of a Spring is ON, and the rows of its own that a descriptor names lie in it without an error or a mark. -/
def State.ownClean (s : State) (n : Nat) (d : Desc) : Bool :=
  (s.lp n).state = .on && (piecesOf d.w).all fun p => s.clean (p.own / 8) && lakeOf (p.own / 8) = n

/-- A descriptor in flight that has asked for every piece. -/
def Desc.started (d : Desc) : Desc := { d with stage := .flight, issued := true, asked := (piecesOf d.w).map (·.i) }

/-- The words of a piece in the own lake. -/
def State.pieceWords (s : State) (p : Piece) : List Word := (List.range p.n).map fun j => readWord s.mem (p.own + j)

/-- The stop through which a request for another die leaves (R34). -/
def State.farStop (s : State) (a : BitVec 64) : Nat :=
  if bits a 44 16 = (s.tm.epId.toNat ^^^ 1) then Config.d2dPos else Config.fabricPos (Config.fabricFor (BitVec.ofNat 16 (bits a 44 16)))

/-- A request of a Spring for another die as it leaves. -/
def State.farRequest (s : State) (d : Desc) (op : Op) (words : Nat) (data : List Word) (p : Piece) : Out :=
  .remote (s.nextId + p.i) (s.farStop p.other) op p.other words data d.slot.label

/-- A request of a Spring that has left, waiting for its answer. -/
def State.farWaits (s : State) (n : Nat) (d : Desc) (op : Op) (p : Piece) : Remote :=
  ⟨s.nextId + p.i, { springWho s n d false with id := s.nextId + p.i }, s.farStop p.other, op, bits p.other 44 16 = (s.tm.epId.toNat ^^^ 1),
   none, some (n, d.seq, p.i)⟩

/-- No descriptor in flight of a Spring has still to issue its requests (R194, R210). -/
def State.allIssued (s : State) (n : Nat) : Bool := (s.spring n).descs.all fun e => !(e.live && kMoves (dKind e.w) && !e.issued)

/-- No MARK of a Spring waits for the descriptors before it (R185). -/
def State.noneOrdered (s : State) (n : Nat) : Bool :=
  (s.spring n).descs.all fun e => !(e.stage = .flight && dKind e.w = 9 && dCond e.w = 3 && !e.met)

/-- Nothing waits that a wake, an end or a removal could let go on: no cue wait, no transfer still to be issued, no data to land, no MARK to
test. -/
def State.still (s : State) : Prop :=
  s.canonical = true ∧ (∀ k, heldWaits s k = []) ∧ ∀ n, s.allIssued n = true ∧ s.noneOrdered n = true ∧
    ∀ d ∈ (s.spring n).descs, d.ready = [] ∧ (dKind d.w = 9 → dCond d.w = 1 ∨ dCond d.w = 2 → d.issued = true ∨ d.holding = false)

/-- A row that descriptor `d` of lake `n` has landed and that is still RESERVED by it (R184, R187, R190). -/
def State.landedBy (s : State) (n : Nat) (d : Desc) (r : Nat) : Bool :=
  dSlate d.w && lakeOf r = n && d.landed.contains r && (s.spanRows n d).contains r && s.slate r = .reserved && ((s.lake n).resTake (lRow r)).isNone

/-! ### Cues and takes -/

/-- A cue after a signal of `n` (R230): the count stops at 65,535, and what is lost is counted. -/
def Cue.signalled (x : Cue) (n : Nat) : Cue :=
  { x with count := min (x.count + n) 65535, ovf := x.ovf || decide (65535 < x.count + n), lost := min max32 (x.lost + (x.count + n - 65535)) }

/-- A take command passes its wide port at a lake that is ON (R5, R139, R291, R296, R343). -/
def State.takesAt (s : State) (c : TakeCmd) : Bool :=
  s.running && (wideGate s (whoOf s (cmdPort c)) c.k c.j c.sub).isNone && (s.lp (portLake c.k c.j)).state = .on

/-- The take position that a command names (R235). -/
def State.takeOf (s : State) (c : TakeCmd) : Take := (s.lake (portLake c.k c.j)).take (cmdSlot c)

/-- A lake's take position replaced. -/
def State.putTake (s : State) (n t : Nat) (x : Take) : State := s.modLake n fun l => l.setTake t x

/-- What the end of a take leaves of a row's slate: RESERVED result rows take the target, and with `release` the FULL operand rows go EMPTY
(R220, R238, R239). -/
def State.takeLeaves (s : State) (n : Nat) (f : TakeFields) (target : Slate) (release : Bool) (r : Nat) : Slate :=
  if lakeOf r = n && (rangeRows f.res n).contains r && s.slate r = .reserved then target
  else if release && lakeOf r = n && (rangeRows f.opa n ++ rangeRows f.opb n).contains r && s.slate r = .full then .empty
  else s.slate r

/-! ### The host window -/

/-- Nothing of the host is held or unanswered at its stop (R261, R262). -/
def State.hostClear (s : State) : Bool := s.hostHeld = [] && s.hostReads = [] && postedOut s = []

/-- The request for `k` words from word `w` that the host stop makes of a TLP (R29, R265). -/
def hostReq (t : Tlp) (w k : Nat) (bytes : Option (Nat × Nat)) (posted : Bool) : Req :=
  { port := .host t.np, tag := t.tag, addr := BitVec.ofNat 64 (32 * w), words := k, bytes := bytes, posted := posted }

/-- The bytes of memory from an address on. -/
def State.bytesAt (s : State) (a n : Nat) : List Byte := (List.range n).map fun i => readByte s.mem (a + i)

/-- The number in `n` bytes of memory, lowest first. -/
def State.numberAt (s : State) (a n : Nat) : Nat := wordFrom s.mem a n

end Sys2Proof.Machine
end

