-- ==== Sys2Proof/Certificates/Slice0/Obligations.lean ====
section
/-!
DEFINITION. The statements about the model, for the provers: one `def Obligations.<Name> : Prop` each. Where a statement rests on a
choice of the model's own, its docstring names the log entry.
-/
open Sys2Proof Sys2Proof.Machine

/-! ### The block as a whole -/

/-- A step takes the command at the front of the queue, and is that command's effect on the state with the rest of the queue. -/
def Obligations.StepRunsFrontCommand : Prop :=
  ∀ (c : Instr) (rest : List Instr) (s : State), step { s with pending := c :: rest } = exec c { s with pending := rest }

/-- On an empty queue a T-cycle passes: the timestamp follows the root clock at the divider in force, or the AON clock at 10 ns a cycle
while the root clock is absent; memory and the queue stay (that a step on an empty queue is a tick is the model's choice, log entry 3).
The passing of time until a timestamp reaches it, and changes nothing but the clocks, the tokens of the lakes, the depth flags of
descriptors and the counters' values (R330, R331, R118, R186, R383). -/
def Obligations.EmptyQueueLetsTimePass : Prop :=
  (∀ s : State, s.pending = [] →
    ∃ t, step s = .next t ∧ t.pending = [] ∧ t.mem = s.mem ∧ t.rows = s.rows ∧ t.out = s.out ∧
      (if s.pw.refOk = true ∧ s.pw.deep < 2 then
        t.pw.now = s.pw.now + 1 ∧ 8 * t.pw.ns + t.pw.frac = 8 * s.pw.ns + s.pw.frac + Config.divider s.pw.cur
      else t.pw.now = s.pw.now ∧ t.pw.ns = s.pw.ns + 10)) ∧
  (∀ (s : State) (d : Nat), s.canonical = true → Tab.wf cntDefault s.cnt.ctrs = true →
    let u := s.reachNs d
    d ≤ u.pw.ns ∧ s.pw.ns ≤ u.pw.ns ∧
      (∀ n, u.lake n = { s.lake n with tokens := (u.lake n).tokens }) ∧
      (∀ n, u.spring n = { s.spring n with descs := (u.spring n).descs }) ∧
      (∀ n, (u.spring n).descs.map (fun e => { e with depthLim := false, stalled := false }) =
        (s.spring n).descs.map (fun e => { e with depthLim := false, stalled := false })) ∧
      (∀ k, (u.ctr k).cfg = (s.ctr k).cfg) ∧
      u = { s with
        pw := { s.pw with now := u.pw.now, ns := u.pw.ns, frac := u.pw.frac }, lakes := u.lakes, springs := u.springs
        cnt := { s.cnt with ctrs := u.cnt.ctrs } })

/-- No command is refused and none faults: each has an effect in every state (log entry 1). No command touches the queue, the variant of
the part or the strap that numbers the die in its package (log entry 5). -/
def Obligations.EveryCommandCompletes : Prop :=
  ∀ (c : Instr) (s : State), ∃ t, exec c s = .next t ∧ t.pending = s.pending ∧ t.variant = s.variant ∧ t.tm.pkgDie = s.tm.pkgDie

/-- Reset: the timestamp at 0, level P4 asked for and in force, the block not READY and without an endpoint; every lake IDLE, of the
management controller, A-mode, shared with no class; every cue 0 and homed on its number modulo the lakes, windows FREE, reels not in
use, the allowance 96, the error log empty and recording, the counters not enabled; no address on the sideband and Hot-Join enabled
(R33, R54, R92, R120, R123, R136, R195, R229, R280, R303, R323, R331, R334, R340, R353, R377, R382, R396). The queue is empty, nothing
has been driven, memory lists nothing and every table is in canonical form; a register whose reset value the spec does not give is not
spoken of. That the model's reset is the end of cold reset is log entry 4, the straps log entry 5. -/
def Obligations.ResetIsCanonical : Prop :=
  State.reset.pending = [] ∧ State.reset.mem = [] ∧ State.reset.canonical = true ∧ State.reset.out = [] ∧
  State.reset.pw.ns = 0 ∧ State.reset.pw.req = 4 ∧ State.reset.pw.cur = 4 ∧ State.reset.pw.deep = 0 ∧ State.reset.tm.ready = false ∧
  State.reset.tm.epValid = false ∧ State.reset.tm.epId = 0 ∧ State.reset.tm.warmCount = 0 ∧ State.reset.weir.allow = 96 ∧
  State.reset.weir.cap = 0 ∧ State.reset.err.recEn = 0xFF ∧ State.reset.err.ibiEn = 0xFF ∧ State.reset.err.head = 0 ∧ State.reset.i3c.addr = none ∧
  State.reset.i3c.enhj = true ∧
  (∀ n, (State.reset.lake n).owner = ⟨0x7C, 0⟩ ∧ (State.reset.lake n).share = 0 ∧ (State.reset.lake n).wMode = false ∧
    (State.reset.lake n).aSplit = 0 ∧ (State.reset.lake n).bSplit = 0 ∧ (State.reset.lake n).scrubInt = 20 ∧
    (∀ i, ((State.reset.lake n).arbSet i).burstM1 = 15) ∧ (∀ k, ((State.reset.lake n).take k).state = .free)) ∧
  (∀ n, (State.reset.lp n).state = .idle ∧ (State.reset.lp n).req = 1 ∧ (State.reset.lp n).autoIdle = true ∧
    (State.reset.lp n).wakeReq = true ∧ (State.reset.lp n).idleDelay = 256) ∧
  (∀ n, (State.reset.spring n).bound = false ∧ (State.reset.spring n).depthMax = 16 ∧ (State.reset.mte n).bg = 0xF) ∧
  (∀ k, (State.reset.cue k).count = 0 ∧ (State.reset.cue k).owner = ⟨0x7C, 0⟩ ∧
    (State.reset.cue k).home.toNat = k % Config.lakeCount State.reset.variant) ∧
  (∀ w, (State.reset.win w).state = .free) ∧ (∀ e, (State.reset.reel e).enable = false) ∧
  (∀ k, (State.reset.ctr k).val = 0 ∧ bit (State.reset.ctr k).cfg 9 = false) ∧ (∀ r, State.reset.slate r = .empty)

/-- Every step keeps the canonical form of memory and of every sparse table, so that equal contents stay equal data. -/
def Obligations.StepKeepsCanonical : Prop :=
  ∀ s t : State, s.canonical = true → step s = .next t → t.canonical = true

/-- Only cold reset and the release that ends it clear `EP_VALID` or change a valid endpoint, and no other command turns the timestamp
back (R33, R331). -/
def Obligations.EndpointAndTimestampOutliveCommands : Prop :=
  ∀ (c : Instr) (s t : State), c ≠ .coldReset → c ≠ .aonRelease → exec c s = .next t →
    s.pw.ns ≤ t.pw.ns ∧ (s.tm.epValid = true → t.tm.epValid = true ∧ t.tm.epId = s.tm.epId)

/-! ### The control space -/

/-- An access of a size other than 4 or 8 bytes, or not aligned to its size, is not performed: NACK_BOUND, one record, nothing else
(R27). Said of every sender whose access the issuing stop passes on to a unit that is present and that has no cue signal held before it
(R244). What the checks before a register come to for the management controller, which has no segments (R4, R27, R122): ABSENT for a
unit that is absent, NACK_BOUND for a size or alignment that R27 excludes, else the access is made, where no cue signal of it is held
(R244). The counter block admits no write of an agent that is not privileged (R380): NACK_OWNER and one record, whatever the field. The
position a rejected access is recorded from is log entry 12. -/
def Obligations.RegisterAccessChecked : Prop :=
  (
    ∀ (s : State) (src : Src) (off size : Nat) (v : BitVec 64),
      ctlGate s src (whoOf s src.port) off size true = some (.nackBound, some 0) → s.pw.deep = 0 → s.draining = false →
      s.signalAhead (whoOf s src.port) = none →
      exec (.registerWrite src off size v) s =
        .next ((s.reject .nackBound (whoOf s src.port).pos (whoOf s src.port).pr 0 (0x20000000 + off)).reply src .nackBound)) ∧
  (
    ∀ (s : State) (tag off size : Nat), s.running = true →
      let src : Src := ⟨.mgmt, tag⟩
      s.privileged src = true ∧
      (unitAbsent s off = true → ctlGate s src (whoOf s src.port) off size true = some (.absent, none)) ∧
      (unitAbsent s off = false → ¬((size = 4 ∨ size = 8) ∧ off % size = 0) →
        ctlGate s src (whoOf s src.port) off size true = some (.nackBound, some 0)) ∧
      (unitAbsent s off = false → (size = 4 ∨ size = 8) → off % size = 0 → s.signalAhead (whoOf s src.port) = none →
        s.opens src off size = true)) ∧
  (
    ∀ (s : State) (src : Src) (off : Nat) (v : BitVec 64), s.running = true → 0x40000 ≤ off → off < 0x80000 → off % 8 = 0 →
      (match src.port with | .host _ => True | .seq => True | _ => False) → s.privileged src = false → unitAbsent s off = false →
      s.signalAhead (whoOf s src.port) = none →
      exec (.registerWrite src off 8 v) s =
        .next ((s.reject .nackOwner (whoOf s src.port).pos (whoOf s src.port).pr 0 (0x20000000 + off)).reply src .nackOwner))

/-- A write by an agent without privilege of a register that only privileged agents may write is discarded with NACK_OWNER, and nothing
changes (R11, RWP). -/
def Obligations.UnprivilegedWritesDiscarded : Prop :=
  ∀ (s : State) (src : Src), s.privileged src = false →
    (∀ v, s.opens src 0x20 4 = true → exec (.epIdWrite src v) s = .next (s.reply src .nackOwner)) ∧
    (∀ v, s.opens src 0x30 4 = true → exec (.warmResetWrite src v) s = .next (s.reply src .nackOwner)) ∧
    (∀ v, s.opens src 0x40 4 = true → exec (.lakeReset src v) s = .next (s.reply src .nackOwner)) ∧
    (∀ v, s.opens src 0x100 4 = true → exec (.ctxSelWrite src v) s = .next (s.reply src .nackOwner)) ∧
    (∀ v, s.opens src 0x120 4 = true → exec (.taskAbort src v) s = .next (s.reply src .nackOwner)) ∧
    (∀ v, s.opens src 0x140 4 = true → exec (.kernelEnd src v) s = .next (s.reply src .nackOwner)) ∧
    (∀ v, s.opens src 0x180 8 = true → exec (.preempt src v) s = .next (s.reply src .nackOwner)) ∧
    (∀ v, s.opens src 0x400 8 = true → exec (.basinInvAll src v) s = .next (s.reply src .nackOwner)) ∧
    (∀ v, s.opens src 0x400 8 = true → exec (.basinInvRange src v) s = .next (s.reply src .nackOwner)) ∧
    (∀ v, s.opens src 0x10000 4 = true → exec (.levelReqWrite src v) s = .next (s.reply src .nackOwner)) ∧
    (∀ v, s.opens src 0x10400 4 = true → exec (.deepEnter src v) s = .next (s.reply src .nackOwner)) ∧
    (∀ v, s.opens src 0x20500 4 = true → exec (.pcapWrite src v) s = .next (s.reply src .nackOwner)) ∧
    (∀ v, s.opens src 0x30014 4 = true → exec (.errTailWrite src v) s = .next (s.reply src .nackOwner)) ∧
    (∀ (n : Fin 24) v, s.opens src (0x10100 + 8 * n) 4 = true → exec (.lakeStateReq src n v) s = .next (s.reply src .nackOwner)) ∧
    (∀ (n : Fin 24) v, s.opens src (pageOff n 0) 4 = true → exec (.handover src n v) s = .next (s.reply src .nackOwner)) ∧
    (∀ (n : Fin 24) v, s.opens src (pageOff n 0x308) 8 = true → exec (.srSeedWrite src n v) s = .next (s.reply src .nackOwner)) ∧
    (∀ (n : Fin 24) v, s.opens src (pageOff n 0x608) 4 = true → exec (.scrubConfigWrite src n v) s = .next (s.reply src .nackOwner)) ∧
    (∀ (n : Fin 24) v, s.opens src (pageOff n 0x620) 8 = true → exec (.eccInjectArm src n v) s = .next (s.reply src .nackOwner)) ∧
    (∀ (n : Fin 24) v, s.opens src (pageOff n 0x8000) 4 = true → exec (.marchStart src n v) s = .next (s.reply src .nackOwner)) ∧
    (∀ (k : Fin 5) v, s.opens src (0x20200 + k * 4) 4 = true → exec (.qshareWrite src k v) s = .next (s.reply src .nackOwner)) ∧
    (∀ (e : Fin 64) v, s.opens src (0xD0000 + e * 64 + 8) 4 = true → exec (.reelCfgWrite src e v) s = .next (s.reply src .nackOwner)) ∧
    (∀ (e : Fin 64) v, s.opens src (0xD0000 + e * 64) 8 = true → exec (.reelBaseWrite src e v) s = .next (s.reply src .nackOwner)) ∧
    (∀ (c : Fin 4096) v, s.opens src (0x80000 + c * 64 + 8) 8 = true → exec (.cueCountWrite src c v) s = .next (s.reply src .nackOwner)) ∧
    (∀ (c : Fin 4096) v, s.opens src (0x80000 + c * 64) 8 = true → exec (.cueCfgWrite src c v) s = .next (s.reply src .nackOwner))

/-- The first privileged write of `EP_ID` after cold reset is stored with bit 0 replaced by the package die, and sets `EP_VALID`; a
later one returns NACK_STATE, changes nothing but the log, and is recorded; an unprivileged one is discarded with NACK_OWNER. Only cold
reset clears `EP_VALID` (R33). -/
def Obligations.EndpointWrittenOnce : Prop :=
  (∀ (c : Instr) (s t : State), exec c s = .next t →
    (c = .coldReset → t.tm.epValid = false) ∧ (c ≠ .coldReset → s.tm.epValid = true → t.tm.epValid = true)) ∧
  ∀ (s : State) (src : Src) (v : BitVec 32), s.opens src 0x20 4 = true →
    (s.privileged src = false → exec (.epIdWrite src v) s = .next (s.reply src .nackOwner)) ∧
    (s.privileged src = true → s.tm.epValid = false →
      exec (.epIdWrite src v) s =
        .next ({ s with tm := { s.tm with epId := BitVec.ofNat 16 (v.toNat / 2 % 2 ^ 15 * 2 + b2n s.tm.pkgDie), epValid := true } }.reply src .ok)) ∧
    (s.privileged src = true → s.tm.epValid = true → exec (.epIdWrite src v) s = .next (s.rejected src 0x20 0))

/-- Requests for a level: 0 to 4 are stored while no level change is in progress, and so is the level already asked for while one is; 5
to 7, and another level during a change, are rejected with NACK_STATE (R131, R334). The power cap is stored and clears `CAP_UNMET`
(R115, R117). Queue shares: four reservations of at most 64 that sum to at most 64 are stored; others are rejected (R107, R108). A write
of a register that takes it whole leaves everything else as it was: a lake's rounding seed, which is mixed into the generator of its
draws (R163; that the seed is held as written beside the values mixed in is the model's choice, log entry 17), the slot shown by the
live view (R141), the fabric time offset through the plain register command (R332). -/
def Obligations.GlobalRegistersWritten : Prop :=
  (
    ∀ (s : State) (src : Src) (v : BitVec 32), s.privileged src = true →
      (s.opens src 0x10000 4 = true →
        (bits v 0 3 ≤ 4 → (s.pw.busy = true → bits v 0 3 = s.pw.req.toNat) →
          exec (.levelReqWrite src v) s =
            .next ({ s with pw := { s.pw with req := BitVec.ofNat 3 (bits v 0 3), goal := if s.pw.busy then s.pw.goal else s.pw.cur } }.reply src .ok)) ∧
        (4 < bits v 0 3 → exec (.levelReqWrite src v) s = .next (s.rejected src 0x10000 1)) ∧
        (bits v 0 3 ≤ 4 → s.pw.busy = true → bits v 0 3 ≠ s.pw.req.toNat →
          exec (.levelReqWrite src v) s = .next (s.rejected src 0x10000 2))) ∧
      (s.opens src 0x20500 4 = true →
        exec (.pcapWrite src v) s =
          .next ({ s with weir := { s.weir with cap := BitVec.ofNat 12 (bits v 0 12), unmet := false } }.reply src .ok))) ∧
  (
    ∀ (s : State) (src : Src) (k : Fin 5) (v : BitVec 32), s.opens src (0x20200 + k * 4) 4 = true → s.privileged src = true →
      let sum := bits v 0 7 + bits v 8 7 + bits v 16 7 + bits v 24 7
      let fits : Prop := bits v 0 7 ≤ 64 ∧ bits v 8 7 ≤ 64 ∧ bits v 16 7 ≤ 64 ∧ bits v 24 7 ≤ 64
      (fits → sum ≤ 64 →
        exec (.qshareWrite src k v) s =
          .next ({ s with weir := { s.weir with qshare := Tab.set (fun _ => qshareReset) s.weir.qshare k (v &&& 0x7F7F7F7F) } }.reply src .ok)) ∧
      (¬fits → exec (.qshareWrite src k v) s = .next (s.rejected src (0x20200 + k * 4) 1)) ∧
      (fits → 64 < sum → exec (.qshareWrite src k v) s = .next (s.rejected src (0x20200 + k * 4) 2))) ∧
  (
    ∀ (s : State) (src : Src), s.privileged src = true →
      (∀ (n : Fin 24) (v : BitVec 64), s.opens src (pageOff n 0x308) 8 = true →
        exec (.srSeedWrite src n v) s = .next ((s.modLake n fun l => { l with srSeed := v, mixes := l.mixes ++ [(s.pw.now, v)] }).reply src .ok)) ∧
      (∀ v : BitVec 32, s.opens src 0x100 4 = true →
        (bits v 0 9 < 272 → exec (.ctxSelWrite src v) s = .next ({ s with tm := { s.tm with ctxSel := BitVec.ofNat 9 (bits v 0 9) } }.reply src .ok)) ∧
        (272 ≤ bits v 0 9 → exec (.ctxSelWrite src v) s = .next (s.rejected src 0x100 0))) ∧
      (∀ v : BitVec 64, s.opens src 0x10608 8 = true →
        exec (.registerWrite src 0x10608 8 v) s = .next ({ s with pw := { s.pw with ftimeOfs := v } }.reply src .ok)))

/-- Arbiter configuration: a privileged write sets the field of its set and no other (R92, R93, R97). Shore splits: a write by the
lake's owner or a privileged agent sets each split that it does not carry as 3, where it changes none of a shore that has a request
under way or an open take, or of a lake under a march test; else it is rejected (R54, R55, R58, R375). -/
def Obligations.ArbitersAndShoresConfigured : Prop :=
  (∀ (s : State) (src : Src) (n : Fin 24) (i : Fin 5) (v : BitVec 32), s.privileged src = true →
    (s.opens src (arbOff (.lake n i) 0) 4 = true →
      exec (.arbConfigWrite src (.lake n i) 0 v) s = .next ((s.setArbSet n i
        { (s.lake n).arbSet i with burstM1 := BitVec.ofNat 5 (bits v 0 5), fallback := bit v 8 }).reply src .ok)) ∧
    (s.opens src (arbOff (.lake n i) 1) 4 = true →
      exec (.arbConfigWrite src (.lake n i) 1 v) s = .next ((s.setArbSet n i
        { (s.lake n).arbSet i with
          q0 := BitVec.ofNat 6 (bits v 0 6), q1 := BitVec.ofNat 6 (bits v 8 6), q2 := BitVec.ofNat 6 (bits v 16 6) }).reply src .ok))) ∧
  (∀ (s : State) (src : Src) (n : Fin 24) (v : BitVec 32), s.opens src (pageOff n 0x80) 4 = true →
    let l := s.lake n
    let a := if bits v 0 2 = 3 then l.aSplit else BitVec.ofNat 2 (bits v 0 2)
    let b := if bits v 2 2 = 3 then l.bSplit else BitVec.ofNat 2 (bits v 2 2)
    let busy : Prop := (a ≠ l.aSplit ∧ shoreBusy s n false = true) ∨ (b ≠ l.bSplit ∧ shoreBusy s n true = true)
    let taken : Prop := (a ≠ l.aSplit ∧ takeOn s n false = true) ∨ (b ≠ l.bSplit ∧ takeOn s n true = true)
    let tested : Prop := (a ≠ l.aSplit ∨ b ≠ l.bSplit) ∧ (s.mte n).busy = true
    let refused (k : Nat) : Prop := exec (.shoreCfgWrite src n v) s = .next (s.rejected src (pageOff n 0x80) k)
    (s.mastersLake src n = false → exec (.shoreCfgWrite src n v) s = .next (s.reply src .nackOwner)) ∧
    (s.mastersLake src n = true →
      (busy → refused 1) ∧ (¬busy → taken → refused 2) ∧ (¬busy → ¬taken → tested → refused 3) ∧
      (¬busy → ¬taken → ¬tested →
        exec (.shoreCfgWrite src n v) s = .next ((s.modLake n fun l => { l with aSplit := a, bSplit := b }).reply src .ok))))

/-! ### Ownership, contexts and reels -/

/-- A handover: a privileged write of another owner passes a quiescent lake to it in one T-cycle, with its share mask cleared and its
Spring unbound; an owner that may not own a lake, and a lake that is not quiescent, are rejected; the present owner changes nothing
(R122, R129, R131). -/
def Obligations.HandoverNeedsQuiescence : Prop :=
  ∀ (s : State) (src : Src) (n : Fin 24) (v : BitVec 32), s.opens src (pageOff n 0) 4 = true →
    let p : Principal := ⟨BitVec.ofNat 8 (bits v 0 8), BitVec.ofNat 12 (bits v 8 12)⟩
    (s.privileged src = false → exec (.handover src n v) s = .next (s.reply src .nackOwner)) ∧
    (s.privileged src = true →
    (p = (s.lake n).owner → exec (.handover src n v) s = .next (s.reply src .ok)) ∧
    (p ≠ (s.lake n).owner → mayOwn p = true → quiescent s n = true →
      exec (.handover src n v) s =
        .next (((s.modLake n fun l => { l with owner := p, share := 0 }).modSpring n fun x =>
          { x with bound := false, slots := [], descs := [] }).reply src .ok)) ∧
    (p ≠ (s.lake n).owner → mayOwn p = false → exec (.handover src n v) s = .next (s.rejected src (pageOff n 0) 1)) ∧
    (p ≠ (s.lake n).owner → mayOwn p = true → quiescent s n = false → exec (.handover src n v) s = .next (s.rejected src (pageOff n 0) 2)))

/-- The live view: while the slot shown has `VALID` 0, a privileged write of its first word stores the word; with `VALID` set it loads
the context, if the record passes the checks of a restore, and gives the record's principal every cue of its cue ranges; a slot with
`VALID` 1 is not written (R141, R143, R232). -/
def Obligations.LiveViewWritten : Prop :=
  ∀ (s : State) (src : Src) (v : BitVec 64), s.opens src 0x200 8 = true → s.privileged src = true →
    slotAbsent s.variant s.tm.ctxSel.toNat = false →
    let x := s.tm.ctxSel.toNat
    let r : Ctx := Tab.set (fun _ => 0) (s.ctx x) 0 (v &&& 0x7FFFFFFFFF)
    (ctxValid (s.ctx x) = true → exec (.liveViewValidWrite src v) s = .next (s.rejected src 0x200 1)) ∧
    (ctxValid (s.ctx x) = false → bit v 37 = false → exec (.liveViewValidWrite src v) s = .next ((s.setCtx x r).reply src .ok)) ∧
    (ctxValid (s.ctx x) = false → bit v 37 = true → recordOk s r = false →
      exec (.liveViewValidWrite src v) s = .next (s.rejected src 0x200 (firstOf (restoreFails s false r)))) ∧
    (ctxValid (s.ctx x) = false → bit v 37 = true → recordOk s r = true →
      ∃ t, exec (.liveViewValidWrite src v) s = .next t ∧ ctxValid (t.ctx x) = true ∧ ctxPrincipal (t.ctx x) = ctxPrincipal r ∧
        (∀ g ∈ ctxCues r, ∀ k, g.1 ≤ k → k < g.1 + g.2 → (t.cue k).owner = ctxPrincipal r) ∧
        t.mem = s.mem ∧ t.lakes = s.lakes ∧ t.out = .reg src.port src.tag .ok 0 :: s.out)

/-- A context save: accepted from a privileged agent while no save or restore runs, for a slot that exists and a record in the data
view; then, once everything the slot issued has completed, the record's 16 words hold the slot's context with the pointers of the reels
it uses, no other byte of memory has changed, the slot is invalid and the save has ended with OK (R142). A context restore: accepted
like a save; then, the slot being invalid and the record's two rows free of errors and marks, a record that passes the checks becomes
the slot's context with `VALID` set, memory is unchanged and the restore has ended with OK (R143). What is complete before a save ends
is read from the rules in log entry 25, how a failed restore ends in log entry 26. -/
def Obligations.ContextsSavedAndRestored : Prop :=
  (
    (∀ (s : State) (src : Src) (v : BitVec 64), s.opens src 0x108 8 = true → s.privileged src = true →
      slotAbsent s.variant (bits v 0 9) = false →
      (s.tm.ctxBusy = false → bits v 0 9 < 272 → inDataView s.variant (recordAddr v) = true →
        ∃ t, exec (.contextSave src v) s = .next t ∧ t.tm.ctxBusy = true ∧ t.tm.ctxIsSave = true ∧ t.tm.ctxLast = bits v 0 9 ∧
          t.tm.ctxSave = v &&& 0xFFFFFFFFFFF ∧ t.ctxs = s.ctxs ∧ t.mem = s.mem ∧ t.out.head? = some (.reg src.port src.tag .ok 0)) ∧
      (s.tm.ctxBusy = true → exec (.contextSave src v) s = .next (s.rejected src 0x108 1))) ∧
    (∀ s : State, s.pw.deep = 0 → s.draining = false → s.tm.ctxBusy = true → s.tm.ctxIsSave = true →
      let x := bits s.tm.ctxSave 0 9
      let a := recordAddr s.tm.ctxSave
      ctxValid (s.ctx x) = true → slotQuiet s x = true → (s.recordGate .write a).1 = .go →
        ∃ t, exec .contextSaveComplete s = .next t ∧ t.tm.ctxBusy = false ∧ t.tm.ctxStatus = 0 ∧ ctxValid (t.ctx x) = false ∧
          (∀ i < 16, readWord t.mem (a / 32 + i) = packWord (recordOf s (s.ctx x)) i) ∧
          (∀ b, b < a ∨ a + 512 ≤ b → readByte t.mem b = readByte s.mem b))) ∧
  (
    (∀ (s : State) (src : Src) (v : BitVec 64), s.opens src 0x110 8 = true → s.privileged src = true →
      slotAbsent s.variant (bits v 0 9) = false →
      (s.tm.ctxBusy = false → bits v 0 9 < 272 → inDataView s.variant (recordAddr v) = true →
        exec (.contextRestore src v) s =
          .next ({ s with tm := { s.tm with
            ctxRestore := v &&& 0xFFFFFFFFFFF, ctxBusy := true, ctxIsSave := false, ctxLast := bits v 0 9 } }.reply src .ok)) ∧
      (s.tm.ctxBusy = true → exec (.contextRestore src v) s = .next (s.rejected src 0x110 1))) ∧
    (∀ s : State, s.pw.deep = 0 → s.draining = false → s.tm.ctxBusy = true → s.tm.ctxIsSave = false →
      let x := bits s.tm.ctxRestore 0 9
      let a := recordAddr s.tm.ctxRestore
      let r := s.recordAt a
      ctxValid (s.ctx x) = false → (s.recordGate .read a).1 = .go → s.clean (a / 256) = true → s.clean (a / 256 + 1) = true →
      recordOk s r = true →
        ∃ t, exec .contextRestoreLoad s = .next t ∧ t.tm.ctxBusy = false ∧ t.tm.ctxStatus = 0 ∧ t.mem = s.mem ∧
          t.ctx x = Tab.set (fun _ => 0) r 0 (r.word 0 ||| 0x2000000000)))

/-- A reel's registers: a privileged write of its configuration or base is stored while no Spring has the reel bound and its size is
below 16, unless the reel is then in use, its registers are among those that R137 judges in this write, and it does not fit: its rows in
one present lake, no more entries than its capacity. Otherwise it is rejected, under the first of these conditions that fails. While the
reel is not in use, a privileged write of a pointer stores any value (R136, R137, R172). -/
def Obligations.ReelConfigured : Prop :=
  ∀ (s : State) (src : Src) (e : Fin 64), s.privileged src = true →
    (∀ v : BitVec 32, s.opens src (0xD0000 + e * 64 + 8) 4 = true →
      let r : Reel := { s.reel e with
        size := BitVec.ofNat 5 (bits v 0 5), enable := bit v 5, slated := bit v 6, producer := BitVec.ofNat 8 (bits v 8 8)
        consumer := BitVec.ofNat 8 (bits v 16 8), refused := false }
      let judged : Prop := bit v 5 = true ∨ ((s.reel e).enable = true ∧ r.size ≠ (s.reel e).size)
      let stored : Prop := exec (.reelCfgWrite src e v) s = .next ((s.modReel e fun _ => r).reply src .ok)
      (reelBound s e = false → bits v 0 5 < 16 → (judged → r.fits s.variant = true) → stored) ∧
      (reelBound s e = false → bits v 0 5 < 16 → judged → r.fits s.variant = false →
        exec (.reelCfgWrite src e v) s = .next (s.rejected src (0xD0000 + e * 64 + 8) (firstOf (r.misfits s.variant)))) ∧
      (reelBound s e = true ∨ 16 ≤ bits v 0 5 →
        exec (.reelCfgWrite src e v) s = .next (s.rejected src (0xD0000 + e * 64 + 8) 0))) ∧
    (∀ v : BitVec 64, s.opens src (0xD0000 + e * 64) 8 = true →
      let r : Reel := { s.reel e with base := BitVec.ofNat 36 (bits v 8 36) }
      let judged : Prop := (s.reel e).enable = true ∧ r.base ≠ (s.reel e).base
      (reelBound s e = false → (judged → r.fits s.variant = true) →
        exec (.reelBaseWrite src e v) s = .next ((s.modReel e fun _ => r).reply src .ok)) ∧
      (reelBound s e = false → judged → r.fits s.variant = false →
        exec (.reelBaseWrite src e v) s = .next (s.rejected src (0xD0000 + e * 64) (firstOf (r.misfits s.variant)))) ∧
      (reelBound s e = true → exec (.reelBaseWrite src e v) s = .next (s.rejected src (0xD0000 + e * 64) 0))) ∧
    (∀ v : BitVec 32, (s.reel e).enable = false → reelBound s e = false →
      (s.opens src (0xD0000 + e * 64 + 0x10) 4 = true →
        exec (.reelTailWrite src e v) s = .next ((s.modReel e fun r => { r with tail := v }).reply src .ok)) ∧
      (s.opens src (0xD0000 + e * 64 + 0x14) 4 = true →
        exec (.reelHeadWrite src e v) s = .next ((s.modReel e fun r => { r with head := v }).reply src .ok)))

/-- A reel's pointers: the engine named for it, or a privileged agent, advances the tail within the reel's capacity and the head up to
the tail; a reel in use refuses any other advance, which changes nothing, marks it and completes with NACK_STATE; another engine gets
NACK_OWNER. A reel that a Spring has bound takes no such write (R138). -/
def Obligations.ReelPointersAdvance : Prop :=
  ∀ (s : State) (src : Src) (e : Fin 64) (v : BitVec 32), (s.reel e).enable = true →
    let r := s.reel e
    let tailAt := 0xD0000 + e * 64 + 0x10
    let headAt := 0xD0000 + e * 64 + 0x14
    (s.opens src tailAt 4 = true →
      let may := s.privileged src = true ∨ r.producer.toNat = (whoOf s src.port).engine
      let refused (k : Nat) : Prop :=
        exec (.reelTailWrite src e v) s = .next ((s.modReel e fun r => { r with refused := true }).rejected src tailAt k)
      (may → reelBound s e = false →
        ((v - r.tail).toNat < 2 ^ 31 → (v - r.head).toNat ≤ 2 ^ r.size.toNat →
          exec (.reelTailWrite src e v) s = .next ((s.modReel e fun r => { r with tail := v }).reply src .ok)) ∧
        (2 ^ 31 ≤ (v - r.tail).toNat → refused 1) ∧
        ((v - r.tail).toNat < 2 ^ 31 → 2 ^ r.size.toNat < (v - r.head).toNat → refused 2)) ∧
      (may → reelBound s e = true → exec (.reelTailWrite src e v) s = .next (s.rejected src tailAt 0)) ∧
      (¬may → exec (.reelTailWrite src e v) s = .next (s.reply src .nackOwner))) ∧
    (s.opens src headAt 4 = true →
      let may := s.privileged src = true ∨ r.consumer.toNat = (whoOf s src.port).engine
      (may → reelBound s e = false →
        ((v - r.head).toNat ≤ (r.tail - r.head).toNat →
          exec (.reelHeadWrite src e v) s = .next ((s.modReel e fun r => { r with head := v }).reply src .ok)) ∧
        ((r.tail - r.head).toNat < (v - r.head).toNat →
          exec (.reelHeadWrite src e v) s = .next ((s.modReel e fun r => { r with refused := true }).rejected src headAt 1))) ∧
      (may → reelBound s e = true → exec (.reelHeadWrite src e v) s = .next (s.rejected src headAt 0)) ∧
      (¬may → exec (.reelHeadWrite src e v) s = .next (s.reply src .nackOwner)))

/-! ### Springs -/

/-- A Spring's reel: the lake's owner or a privileged agent binds an enabled, slated reel inside the lake that names the Spring as its
consumer and that no Spring has bound, to an idle Spring, which stands at the reel's head; the same binding again changes nothing; a
bind of a Spring that is not idle is rejected; an idle Spring is unbound (R171). Where no row of the reel is FULL yet, no slot is taken
over. A command slot: the next FULL one is read into four descriptors from its row's 8 words, in sequence order, and memory is unchanged
(R173, R174), and what waits for others then goes on (`takeUp`); once its four descriptors have ended, the slot at the head is released:
its row goes EMPTY and the head advances (R176). Open points of a slot are log entry 13. -/
def Obligations.SpringsBoundAndSlotsRead : Prop :=
  (
    ∀ (s : State) (src : Src) (n : Fin 24), s.opens src (pageOff n 0x4000) 4 = true → s.mastersLake src n = true →
      (∀ e : Fin 64,
        let r := s.reel e
        let x := s.spring n
        (x.bound = true → x.reel.toNat = e → exec (.sprReelBind src n e) s = .next (s.reply src .ok)) ∧
        (x.bound = false → s.springIdle n = true → r.enable = true → r.slated = true → r.consumer.toNat = 0x50 + n → reelBound s e = false →
          gRow n 0 ≤ r.base.toNat → r.base.toNat + 2 ^ r.size.toNat ≤ gRow n 0 + 49152 → (∀ i, s.slate (slotRow r i) ≠ .full) →
          exec (.sprReelBind src n e) s = .next ((s.modSpring n fun x =>
            { x with reel := BitVec.ofNat 6 e, bound := true, depth := if x.depthFix then x.depthMax.toNat else 2, run256 := 0
                     nextRead := r.head.toNat, slots := [], descs := [] }).reply src .ok)) ∧
        (x.bound = false → s.springIdle n = false → exec (.sprReelBind src n e) s = .next (s.rejected src (pageOff n 0x4000) 1))) ∧
      ((s.spring n).bound = true →
        (s.springIdle n = true →
          exec (.sprReelUnbind src n) s = .next ((s.modSpring n fun x => { x with bound := false, slots := [], descs := [] }).reply src .ok)) ∧
        (s.springIdle n = false → exec (.sprReelUnbind src n) s = .next (s.rejected src (pageOff n 0x4000) 1)))) ∧
  (
    (∀ (s : State) (n : Fin 24) (y : Slot), s.running = true → (s.lp n).state = .on → s.tm.abQueue.length < 64 →
      let x := s.spring n
      let row := slotRow (s.reel x.reel.toNat) y.pos
      let ds := slotDescs { y with read := true } (s.rowWords row)
      x.bound = true → x.slots.find? (fun z => z.pos = nextPos x.slots 32769 x.nextRead && !z.read) = some y →
      s.slate row = .full → s.clean row = true → (y.priv = true ∨ y.pr = (s.lake n).owner) →
      (∀ d ∈ ds, d.cut = true ∨ descCheck s n d.slot d.w = none) →
        ∃ u : State, exec (.slotRead n) s = .next u.takeUp ∧ (u.spring n).descs = x.descs ++ ds ∧ (u.spring n).nextRead = (y.pos + 1) % 2 ^ 32 ∧
          u = { s with springs := u.springs, lakes := u.lakes, rows := u.rows, weir := u.weir, cnt := u.cnt, group := u.group, ps := u.ps
                       inPond := u.inPond }) ∧
    (∀ (s : State) (n : Fin 24), (s.spring n).bound = true → (s.lp n).state = .on → s.draining = false →
      let x := s.spring n
      let r := s.reel x.reel.toNat
      let h := r.head.toNat
      (x.slots.any fun y => y.pos = h && y.read) = true → slotEnded x h = true → s.slate (slotRow r h) = .full →
        ∃ t, exec (.slotRelease n) s = .next t ∧ t.slate (slotRow r h) = .empty ∧ (t.reel x.reel.toNat).head = r.head + 1 ∧
          (t.spring n).slots = x.slots.filter (·.pos != h) ∧ (t.spring n).descs = x.descs.filter (·.slot.pos != h) ∧
          (∀ a, a ≠ slotRow r h → t.slate a = s.slate a) ∧
          t = { s with springs := t.springs, reels := t.reels, lakes := t.lakes, rows := t.rows, cnt := t.cnt }))

/-- A transfer that starts is in flight and asks for each of its pieces, in order: a LOAD reads the stack, unless its data comes through
the basin; a STORE writes to the stack what its lake's words hold; a PULL reads from another die, and a PUSH to another die sends its
lake's words with its operation; memory and every other Spring are unchanged. What waits for others then goes on (`takeUp`) (R178, R181,
R182, R205). A COPY that starts asks its die for each of its pieces and changes no byte of memory yet; a FILL puts its pattern into
every word of its destination and into no other, at once where its lake is ON, its rows are clean and it lands no slates (R178, R182). A
NOP ends at once. What waits for others then goes on (`takeUp`). Descriptors' progress where the spec is silent is log entry 13. -/
def Obligations.TransfersAskCopyAndFill : Prop :=
  (
    ∀ (s : State) (n : Fin 24) (d : Desc),
      (s.begins n 1 d = true →
        ∃ u : State, exec (.load n) s = .next u.takeUp ∧ u.desc n d.seq = some d.started ∧
          u.out = (if dShared d.w then [] else ((piecesOf d.w).map fun p =>
            Out.stackRead n d.seq p.i (stackOf s p.other).1 (stackOf s p.other).2 p.n d.slot.label).reverse) ++ s.out ∧
          (∀ m, m ≠ n.val → u.spring m = s.spring m) ∧ u = { s with springs := u.springs, cnt := u.cnt, out := u.out }) ∧
      (s.begins n 2 d = true → s.ownClean n d = true →
        ∃ u : State, exec (.store n) s = .next u.takeUp ∧ u.desc n d.seq = some d.started ∧
          u.out = ((piecesOf d.w).map fun p =>
            Out.stackWrite n d.seq p.i (stackOf s p.other).1 (stackOf s p.other).2 (s.pieceWords p) d.slot.label).reverse ++ s.out ∧
          (∀ m, m ≠ n.val → u.spring m = s.spring m) ∧
          u = { s with springs := u.springs, lakes := u.lakes, rows := u.rows, weir := u.weir, basin := u.basin, cnt := u.cnt,
                       group := u.group, ps := u.ps, inPond := u.inPond, out := u.out }) ∧
      (s.begins n 3 d = true →
        ∃ u : State, exec (.pull n) s = .next u.takeUp ∧ u.desc n d.seq = some d.started ∧
          u.out = ((piecesOf d.w).map fun p => s.farRequest d .read p.n [] p).reverse ++ s.out ∧
          u.remotes = s.remotes ++ (piecesOf d.w).map (s.farWaits n d .read) ∧ (∀ m, m ≠ n.val → u.spring m = s.spring m) ∧
          u = { s with springs := u.springs, remotes := u.remotes, nextId := u.nextId, cnt := u.cnt, out := u.out }) ∧
      (s.begins n 4 d = true → s.ownClean n d = true → (∀ p ∈ piecesOf d.w, bits p.other 44 16 ≠ s.tm.epId.toNat) →
        ∃ u : State, exec (.push n) s = .next u.takeUp ∧ u.desc n d.seq = some d.started ∧
          u.out = ((piecesOf d.w).map fun p => s.farRequest d (pushOp d.w) p.nOther (s.pieceWords p) p).reverse ++ s.out ∧
          u.remotes = s.remotes ++ (piecesOf d.w).map (s.farWaits n d (pushOp d.w)) ∧ (∀ m, m ≠ n.val → u.spring m = s.spring m) ∧
          u = { s with springs := u.springs, remotes := u.remotes, nextId := u.nextId, lakes := u.lakes, rows := u.rows,
                       weir := u.weir, cnt := u.cnt, group := u.group, ps := u.ps, inPond := u.inPond, out := u.out })) ∧
  (
    ∀ (s : State) (n : Fin 24) (d : Desc),
      (s.begins n 5 d = true →
        ∃ u : State, exec (.copy n) s = .next u.takeUp ∧ u.desc n d.seq = some d.started ∧ u.mem = s.mem ∧ u.cues = s.cues ∧ u.ctxs = s.ctxs ∧
          (∀ m, m ≠ n.val → u.spring m = s.spring m)) ∧
      (s.begins n 6 d = true → s.ownClean n d = true → dSlate d.w = false → (s.lake n).injArm = false → s.landWaits n d.seq = false →
        ∃ u : State, exec (.fill n) s = .next u.takeUp ∧
          (∃ x, u.desc n d.seq = some x ∧ x.stage = .flight ∧ x.written = (piecesOf d.w).map (·.i) ∧ x.ready = []) ∧
          (∀ a, readWord u.mem a =
            if (piecesOf d.w).any (fun p => p.own ≤ a && a < p.own + p.n) then fillWord (dSrc d.w) else readWord s.mem a) ∧
          (∀ m, m ≠ n.val → u.spring m = s.spring m) ∧
          u = { s with springs := u.springs, lakes := u.lakes, rows := u.rows, mem := u.mem, weir := u.weir, cnt := u.cnt, group := u.group,
                       ps := u.ps, inPond := u.inPond, fresh := u.fresh }) ∧
      (s.begins n 0 d = true →
        ∃ u : State, exec (.nop n) s = .next u.takeUp ∧ u.desc n d.seq = some { d with stage := .ended } ∧
          (∀ m, m ≠ n.val → u.spring m = s.spring m) ∧ u = { s with springs := u.springs, cnt := u.cnt }))

/-- Descriptors on cues: SIGNAL_CUE adds its amount to a cue that no one waits on, up to 65,535, and is met; WAIT_CUE takes its amount
from a count that reaches it, and is met, or else watches the cue; what waits for others then goes on (`takeUp`) (R184, R185, R230,
R232). MARK: with `COND` 0 it is met where its cue's count reaches its amount, which it does not take; with `COND` 1 or 2 where its row
is FULL or EMPTY, tested again by MARK_RETEST; with `COND` 3 where every earlier descriptor has ended; no slate and no cue changes. What
waits for others then goes on (`takeUp`) (R185). -/
def Obligations.CueDescriptorsAndMarksMet : Prop :=
  (
    ∀ (s : State) (n : Fin 24) (d : Desc),
      let k := dCue d.w
      heldWaits s k = [] →
      (s.begins n 7 d = true → s.maySignal d.slot.priv d.slot.pr k = true →
        ∃ u : State, exec (.signalCue n) s = .next u.takeUp ∧ u.desc n d.seq = some { d with stage := .flight, met := true } ∧
          u.cue k = { s.cue k with count := min ((s.cue k).count + dN d.w) 65535
                                   ovf := (s.cue k).ovf || decide (65535 < (s.cue k).count + dN d.w)
                                   lost := min max32 ((s.cue k).lost + ((s.cue k).count + dN d.w - 65535)) } ∧
          (∀ j, j ≠ k → u.cue j = s.cue j) ∧ u = { s with springs := u.springs, cues := u.cues, cnt := u.cnt }) ∧
      (s.begins n 8 d = true → s.mayWait d.slot.priv d.slot.pr k = true →
        (dN d.w ≤ (s.cue k).count →
          ∃ u : State, exec (.waitCue n) s = .next u.takeUp ∧ u.desc n d.seq = some { d with stage := .flight, met := true } ∧
            u.cue k = { s.cue k with count := (s.cue k).count - dN d.w } ∧ (∀ j, j ≠ k → u.cue j = s.cue j) ∧
            u = { s with springs := u.springs, cues := u.cues, cnt := u.cnt }) ∧
        ((s.cue k).count < dN d.w →
          ∃ u : State, exec (.waitCue n) s = .next u.takeUp ∧ u.desc n d.seq = some { d with stage := .flight, watch := s.nextId } ∧
            u = { s with springs := u.springs, cnt := u.cnt, nextId := s.nextId + 1 }))) ∧
  (
    ∀ (s : State) (n : Fin 24) (d : Desc),
      let row := bits (dDst d.w) 0 44 / 256
      let found : Bool := decide (s.slate row = (if dCond d.w = 1 then .full else .empty))
      let same (t : State) : Prop :=
        (∀ r, t.slate r = s.slate r) ∧
        t = { s with springs := t.springs, lakes := t.lakes, rows := t.rows, cnt := t.cnt, group := t.group, ps := t.ps }
      (s.begins n 9 d = true →
        (dCond d.w = 0 → s.mayWait d.slot.priv d.slot.pr (dCue d.w) = true →
          ∃ u : State, exec (.mark n) s = .next u.takeUp ∧ same u ∧
            u.desc n d.seq = some { d with stage := .flight, met := decide (dN d.w ≤ (s.cue (dCue d.w)).count) }) ∧
        (dCond d.w = 3 →
          ∃ u : State, exec (.mark n) s = .next u.takeUp ∧ same u ∧
            u.desc n d.seq = some { d with stage := .flight, met := ((s.spring n).earlier d).all (·.stage = .ended) }) ∧
        (dCond d.w = 1 ∨ dCond d.w = 2 → s.clean row = true → (s.lp n).state = .on →
          ∃ u : State, exec (.mark n) s = .next u.takeUp ∧ same u ∧
            u.desc n d.seq = some { d with stage := .flight, issued := true, met := found })) ∧
      (((s.spring n).descs.filter fun e => e.seq = d.seq) = [d] → (dCond d.w = 1 ∨ dCond d.w = 2) → s.clean row = true →
        (s.lp n).state = .on → s.draining = false →
        ((s.spring n).descs.filter fun e => e.holding && !e.failed && dKind e.w = 9 && (dCond e.w = 1 || dCond e.w = 2)) = [d] →
          ∃ t, exec (.markRetest n) s = .next t ∧ same t ∧ t.desc n d.seq = some { d with issued := true, met := found }))

/-- What comes back: the next piece of a LOAD in block order is written to its words of the own lake and to no other, its row RESERVED
where the LOAD lands slates, which takes a waiter table with room (R182, R183); the acknowledgement of a STORE's piece is noted (R184).
What waits for others then goes on (`takeUp`). A finished descriptor completes: it has ended, the rows it landed become FULL in one
step, no other slate and no byte of memory changes, and what waits for others goes on (`takeUp`); with `SIG_DONE` its cue is then
signalled a T-cycle later (R184, R221). Nothing goes on where no cue wait is held, no transfer in flight has still to be issued, and no
MARK waits for the descriptors before it. What the stack answers, and the order of pieces, is read from the rules in log entry 13. What
a command does whose condition does not hold, and that a timed command lets the time until it is due pass first, are the model's choices
(log entry 2). -/
def Obligations.StackAnswersAndCompletion : Prop :=
  (
    ∀ (s : State) (n : Fin 24) (d : Desc) (p : Piece) (ws : List Word),
      (s.spring n).descs.filter (·.seq = d.seq) = [d] → d.asked.contains p.i = true → d.returned.contains p.i = false →
      pieceOf d p.i = some p →
      (dKind d.w = 1 → dShared d.w = false → d.stage = .flight → d.removed = false → d.cut = false → d.failed = false → d.ready = [] →
        d.written.length = p.i → ws.length = p.n → s.landWaits n d.seq = false → s.ownClean n d = true →
        (s.lake n).injArm = false → (s.lake n).inMaint (lRow (p.own / 8)) = false → s.draining = false →
        (dSlate d.w = true → slateMeets (s.lake n) (lRow (p.own / 8)) (.land d.seq) (s.slate (p.own / 8)) = true ∧
          s.early (.waiters n) (.wired (if d.trickle then 9 else 8)) = none ∧ (s.lake n).waiters.length < 64) →
          ∃ u : State, exec (.stackReadReturn n d.seq p.i .ok ws) s = .next u.takeUp ∧
            u.desc n d.seq = some { d with returned := d.returned ++ [p.i], written := d.written ++ [p.i]
                                           landed := if d.landed.contains (p.own / 8) then d.landed else d.landed ++ [p.own / 8] } ∧
            (∀ a, readWord u.mem a = if p.own ≤ a ∧ a < p.own + p.n then ws.getD (a - p.own) 0 else readWord s.mem a) ∧
            (∀ r, u.slate r = if dSlate d.w = true ∧ r = p.own / 8 then .reserved else s.slate r) ∧
            u = { s with springs := u.springs, lakes := u.lakes, rows := u.rows, mem := u.mem, weir := u.weir, cnt := u.cnt,
                         backoff := u.backoff, group := u.group, ps := u.ps, inPond := u.inPond, fresh := u.fresh }) ∧
      (dKind d.w = 2 →
        ∃ u : State, exec (.stackWriteAck n d.seq p.i .ok) s = .next u.takeUp ∧ u.desc n d.seq = some { d with returned := d.returned ++ [p.i] } ∧
          u = { s with springs := u.springs })) ∧
  (
    (∀ (s : State) (n : Fin 24) (d : Desc), s.canonical = true →
      (s.spring n).descs.filter (·.seq = d.seq) = [d] → d.finished = true → d.ready = [] → (dSlate d.w = true → s.tableFull n = false) →
        ∃ u : State, (∃ x, u.desc n d.seq = some x ∧ x.stage = .ended ∧ x.w = d.w ∧ x.landed = d.landed) ∧
          (∀ r, u.slate r = if s.landedBy n d r then .full else s.slate r) ∧ u.mem = s.mem ∧ u.out = s.out ∧ u.cues = s.cues ∧ u.pw = s.pw ∧
          (dSigDone d.w = false → exec (.descriptorComplete n d.seq) s = .next u.takeUp) ∧
          (dSigDone d.w = true → s.maySignal d.slot.priv d.slot.pr (dCue d.w) = true →
            let v := u.takeUp.reach (s.pw.now + 1)
            ∃ t, exec (.descriptorComplete n d.seq) s = .next t ∧ t = v.signal (dCue d.w) 1 ∧ t.pw.now = s.pw.now + 1 ∧
              (heldWaits v (dCue d.w) = [] →
                (t.cue (dCue d.w)).count = min ((v.cue (dCue d.w)).count + 1) 65535 ∧ ∀ j, j ≠ dCue d.w → t.cue j = v.cue j))) ∧
    (∀ s : State, s.canonical = true → (∀ k, heldWaits s k = []) → (∀ n < 24, s.allIssued n = true) → (∀ n < 24, s.noneOrdered n = true) →
      s.takeUp = s))

/-- A cut: a write of `SPR_CUT` cancels every descriptor at or after the number written, and says how many it cancelled; one write at a
time; once the cancelled descriptors in flight are quiet, the cut ends, they have ended and the rows they landed are EMPTY, but for
those that a task abort has removed since, which are the abort's. What waits for others then goes on (`takeUp`) (R187, R188, R190). A
task abort: a privileged write starts it, in the next T-cycle, while none runs or waits, and removes every descriptor of the principal
that has not ended; once what they issued has ended, so has the abort, with their rows STALE and its record taken to the log, and the
oldest abort that waits starts in the next T-cycle. What waits for others then goes on (`takeUp`) (R190, R191, R192, R319). What a cut
does with data that has returned and not landed is the model's choice (log entry 13). -/
def Obligations.CutsAndTaskAbortsRun : Prop :=
  (
    (∀ (s : State) (src : Src) (n : Fin 24) (v : BitVec 32), s.opens src (pageOff n 0x4020) 4 = true → s.mastersLake src n = true →
      ((s.spring n).cutBusy = true → exec (.sprCut src n v) s = .next (s.rejected src (pageOff n 0x4020) 0)) ∧
      ((s.spring n).cutBusy = false →
        let k := countTrue (fun d => d.stage != .ended && !d.removed && seqAtOrAfter d.seq v.toNat) (s.spring n).descs +
          (((s.spring n).slots.filter (!·.read)).map fun y => (y.cuts v.toNat).length).sum
        ∃ u : State, exec (.sprCut src n v) s = .next (u.takeUp.reply src .ok) ∧ (u.spring n).cutSeq = v ∧ (u.spring n).cancelled = k ∧
          (u.spring n).cutBusy = decide (k ≠ 0) ∧
          (∀ e ∈ (u.spring n).descs, seqAtOrAfter e.seq v.toNat = true → e.stage = .ended ∨ e.cut = true ∨ e.removed = true) ∧
          (∀ m, m ≠ n.val → u.spring m = s.spring m) ∧ u = { s with springs := u.springs, cnt := u.cnt })) ∧
    (∀ (s : State) (n : Fin 24), (s.spring n).cutBusy = true → (cutOf (s.spring n)).all (s.quiet n) = true → s.tableFull n = false →
      let ds := (cutOf (s.spring n)).filter (!·.removed)
      ∃ u : State, exec (.cutComplete n) s = .next u.takeUp ∧ (u.spring n).cutBusy = false ∧ (u.spring n).cutDone = true ∧
        (cutOf (u.spring n)).all (·.removed) = true ∧ (∀ r, (∃ d ∈ ds, s.landedBy n d r = true) → u.slate r = .empty) ∧
        (∀ r, (∀ d ∈ ds, d.landed.contains r = false) → u.slate r = s.slate r) ∧ (∀ m, m ≠ n.val → u.spring m = s.spring m) ∧
        u = { s with springs := u.springs, lakes := u.lakes, lpow := u.lpow, cnt := u.cnt })) ∧
  (
    (∀ (s : State) (src : Src) (v : BitVec 32), s.opens src 0x120 4 = true → s.privileged src = true →
      let p : Principal := ⟨BitVec.ofNat 8 (bits v 0 8), BitVec.ofNat 12 (bits v 8 12)⟩
      (s.tm.abBusy = false → s.tm.abQueue = [] →
        ∃ u : State, exec (.taskAbort src v) s = .next u.takeUp ∧ u.pw.now = s.pw.now + 1 ∧ u.tm.abBusy = true ∧ u.tm.abFault = false ∧
          u.tm.abCur = p ∧ (∀ n < 24, ∀ e ∈ (u.spring n).descs, e.slot.pr = p → e.stage = .ended ∨ e.removed = true) ∧ u.mem = s.mem ∧
          .reg src.port src.tag .ok 0 ∈ u.out) ∧
      (s.tm.abBusy = true → exec (.taskAbort src v) s = .next (s.rejected src 0x120 1)) ∧
      (s.tm.abBusy = false → s.tm.abQueue ≠ [] → exec (.taskAbort src v) s = .next (s.rejected src 0x120 2))) ∧
    (∀ s : State, s.tm.abBusy = true → abortReady s = true → (∀ n < 24, s.tableFull n = false) →
      (s.tm.abQueue = [] →
        ∃ u : State, exec .taskAbortComplete s = .next u.takeUp ∧ u.tm.abBusy = false ∧ u.tm.abDone = true ∧ u.err = s.abortRecord.err ∧
          (∀ n < 24, ∀ e ∈ (u.spring n).descs, e.removed = true → e.stage = .ended) ∧
          (∀ n < 24, ∀ d ∈ s.removedOf n, ∀ r, s.landedBy n d r = true → u.slate r = .stale) ∧ u.mem = s.mem ∧ u.out = s.out) ∧
      (∀ f rest, s.tm.abQueue = f :: rest →
        ∃ u : State, exec .taskAbortComplete s = .next u.takeUp ∧ u.pw.now = s.pw.now + 1 ∧ u.tm.abBusy = true ∧ u.tm.abDone = true ∧
          u.tm.abCur = f.pr ∧ u.mem = s.mem)))

/-! ### Cues, takes and slates -/

/-- A signal of a cue: from an agent that may signal it, for an amount of at least 1, it adds its amount once the engine's earlier
accesses have been performed with respect to its scope, and is held at its stop until then, when what its source has issued behind it
follows; waits held on the cue are served (`cueChanged`); refused, it is recorded (R230, R231, R232, R244, R251). A wait on a cue: where
no wait is held and the count reaches its amount, it takes the amount at once; otherwise it is held in an entry of the home lake's
waiter table, and turned away with RETRY where the table is full, or with NACK_LAKE_OFF where the home lake is neither ON nor IDLE
(R223, R231, R233). A privileged write of the count sets it, with which waits held on the cue are served (`cueChanged`), and its entry's
owner and home change only while no wait is held on it (R231, R232). A wait that is held is no awaited access (log entry 32). -/
def Obligations.CuesSignalledAndAwaited : Prop :=
  (
    (∀ (s : State) (src : Src) (k : Fin 4096) (v : BitVec 64), s.opens src (0x80000 + k * 64 + 0x10) 8 = true →
      let w := whoOf s src.port
      let ws := engineAwaits s w.engine (bits v 16 2)
      (bits v 16 2 < 3 → ws ≠ [] →
        exec (.cueSignal src k v) s =
          .next { s with signals := s.signals ++ [⟨s.nextId, src, w, k, v, ws, []⟩], nextId := s.nextId + 1 }) ∧
      (bits v 16 2 = 3 ∨ ws = [] →
        (s.maySignal w.priv w.pr k = true → bits v 0 16 ≠ 0 → bits v 16 2 < 3 →
          ∃ t, exec (.cueSignal src k v) s = .next t ∧
            t = (((s.modCue k fun x => { x.signalled (bits v 0 16) with sig := BitVec.ofNat 18 v.toNat }).cueChanged k).reply src .ok) ∧
            (heldWaits s k = [] →
              t.cue k = { (s.cue k).signalled (bits v 0 16) with sig := BitVec.ofNat 18 v.toNat } ∧ (∀ j, j ≠ k.val → t.cue j = s.cue j) ∧
              t.out = .reg src.port src.tag .ok 0 :: s.out ∧ t = { s with cues := t.cues, springs := t.springs, out := t.out })) ∧
        (s.maySignal w.priv w.pr k = false →
          exec (.cueSignal src k v) s = .next (s.denied src (0x80000 + k * 64 + 0x10) .nackOwner 0)) ∧
        (s.maySignal w.priv w.pr k = true → bits v 0 16 = 0 →
          exec (.cueSignal src k v) s = .next (s.rejected src (0x80000 + k * 64 + 0x10) 1)) ∧
        (s.maySignal w.priv w.pr k = true → bits v 0 16 ≠ 0 → bits v 16 2 = 3 →
          exec (.cueSignal src k v) s = .next (s.rejected src (0x80000 + k * 64 + 0x10) 2)))) ∧
    (∀ (s : State) (h : HeldSignal), s.signals.find? (·.id = h.id) = some h → settled s (bits h.v 16 2) h.waits = true →
      s.maySignal h.who.priv h.who.pr h.cue = true → bits h.v 0 16 ≠ 0 → bits h.v 16 2 < 3 → heldWaits s h.cue = [] →
        ∃ u : State, exec (.cueSignalSend h.id) s = .next (h.after.foldl State.heldAgain u) ∧
          u.signals = s.signals.filter (·.id != h.id) ∧
          u.cue h.cue = { (s.cue h.cue).signalled (bits h.v 0 16) with sig := BitVec.ofNat 18 h.v.toNat } ∧
          (∀ j, j ≠ h.cue → u.cue j = s.cue j) ∧ u.out = .reg h.src.port h.src.tag .ok 0 :: s.out ∧
          u = { s with cues := u.cues, springs := u.springs, signals := u.signals, weir := u.weir, out := u.out })) ∧
  (
    ∀ (s : State) (src : Src) (k : Fin 4096),
      (∀ v : BitVec 64, s.opens src (0x80000 + k * 64 + 0x18) 8 = true →
        let w := whoOf s src.port
        let home := s.homeOf k
        let held : Prop := heldWaits s k ≠ [] ∨ (s.cue k).count < bits v 0 16
        (held → (s.lp home).state.down = true → exec (.cueWait src k v) s = .next (s.reply src .nackLakeOff)) ∧
        (s.mayWait w.priv w.pr k = true → bits v 0 16 ≠ 0 → bits v 16 2 < 3 →
        (heldWaits s k = [] → bits v 0 16 ≤ (s.cue k).count →
          exec (.cueWait src k v) s =
            .next ((s.modCue k fun x => { x with wait := BitVec.ofNat 18 v.toNat, count := x.count - bits v 0 16 }).reply src .ok)) ∧
        (held → (s.lp home).state.down = false → s.early (.waiters (Fin.ofNat 24 home)) w.ident = none →
          ((s.lake home).waiters.length < 64 →
            ∃ t e, exec (.cueWait src k v) s = .next t ∧ (t.lake home).waiters = (s.lake home).waiters ++ [e] ∧
              e.what = .cue k (bits v 0 16) src ∧ e.since = s.pw.now ∧ (t.cue k).count = (s.cue k).count ∧
              t = { s with lakes := t.lakes, cues := t.cues, backoff := t.backoff, cnt := t.cnt, nextId := t.nextId }) ∧
          (64 ≤ (s.lake home).waiters.length → (match src.port with | .host _ => False | _ => True) →
            ∃ (u : State) (b : BitVec 64), exec (.cueWait src k v) s = .next (u.reply src .retry b) ∧
              u = { s with backoff := u.backoff, cnt := u.cnt })))) ∧
      (∀ v : BitVec 64, s.opens src (0x80000 + k * 64 + 0x08) 8 = true → s.privileged src = true →
        ∃ t, exec (.cueCountWrite src k v) s = .next t ∧
          t = (((s.modCue k fun x => { x with count := bits v 0 16, ovf := false, lost := 0 }).cueChanged k).reply src .ok) ∧
          (heldWaits s k = [] →
            t.cue k = { s.cue k with count := bits v 0 16, ovf := false, lost := 0 } ∧
            (∀ j, j ≠ k.val → t.cue j = s.cue j) ∧ t.out = .reg src.port src.tag .ok 0 :: s.out ∧
            t = { s with cues := t.cues, springs := t.springs, out := t.out })) ∧
      (∀ v : BitVec 64, s.opens src (0x80000 + k * 64) 8 = true → s.privileged src = true →
        let p : Principal := ⟨BitVec.ofNat 8 (bits v 0 8), BitVec.ofNat 12 (bits v 8 12)⟩
        let same : Prop := p = (s.cue k).owner ∧ bits v 24 5 = s.homeOf k
        (same ∨ heldWaits s k = [] → Config.lakePresent s.variant (bits v 24 5) = true →
          exec (.cueCfgWrite src k v) s =
            .next ((s.modCue k fun x => { x with owner := p, sigOpen := bit v 20, home := BitVec.ofNat 5 (bits v 24 5) }).reply src .ok)) ∧
        (¬same → heldWaits s k ≠ [] → exec (.cueCfgWrite src k v) s = .next (s.rejected src (0x80000 + k * 64) 1)) ∧
        (same ∨ heldWaits s k = [] → Config.lakePresent s.variant (bits v 24 5) = false →
          exec (.cueCfgWrite src k v) s = .next (s.rejected src (0x80000 + k * 64) 2))))

/-- OPEN: a FREE position of a lake that is ON takes the fields of an OPEN whose ranges lie in the lake, do not meet each other or the
results of another take, or a range that a descriptor lands or maintenance holds, from an agent with the rights it needs; a position
that is not FREE refuses it (R235, R236, R291). COMMIT and ABORT of an open take: the position waits for its step and answers then; an
ABORT's held accesses have been released. At a FREE position both are rejected; at one whose end has begun they get NACK_STATE without a
record (R238, R239, R292, R293). An open at a lake that is IDLE is held until it wakes, and a COMMIT or ABORT at a position whose end
has begun leaves no record (log entry 18). -/
def Obligations.TakesOpenedAndEndAsked : Prop :=
  (
    ∀ (s : State) (c : TakeCmd) (f : TakeFields), s.takesAt c = true →
      let w := whoOf s (cmdPort c)
      let n := portLake c.k c.j
      let l := s.lake n
      (∀ g ∈ [f.opa, f.opb, f.res], g.count.toNat = 0 ∨ g.first.toNat + g.count.toNat ≤ 49152) → openRights s w n f = true →
      ((s.takeOf c).state = .free → f.scope ≠ 3 → rangeMeets f.opa f.res = false → rangeMeets f.opb f.res = false →
        (∀ i < 16, (l.take i).state ≠ .free → rangeMeets (l.take i).f.res f.res = false) →
        s.meetsSpan n f.res.first.toNat f.res.count.toNat = false →
        (l.slBusy = true → ∀ g ∈ [f.opa, f.opb, f.res], rangeMeets g ⟨l.slFirst, l.slCount⟩ = false) → s.preempted c.k c.j c.sub = false →
        (s.mte n).busy = false → l.convBusy = false →
          exec (.takeOpen c f) s = .next (((s.countLake n 0x28 w.quals (some w.label)).putTake n (cmdSlot c)
            { Take.reset with state := .open, f := f, pr := w.pr, who := some w }).answer c .ok 2)) ∧
      ((s.takeOf c).state ≠ .free → exec (.takeOpen c f) s = .next (s.rejectTake w c n .nackState 1))) ∧
  (
    ∀ (s : State) (c : TakeCmd), s.takesAt c = true →
      let n := portLake c.k c.j
      let x := s.takeOf c
      let none_ : Prop := ∀ e ∈ (s.lake n).waiters, e.what.mode.bind Mode.takeSlot ≠ some (cmdSlot c)
      (x.state = .open →
        exec (.takeCommit c) s = .next (s.putTake n (cmdSlot c)
          { x with state := .committing, tag := c.tag, byCmd := true, at_ := s.pw.now, mark := s.nextId }) ∧
        (∀ fault : Bool, none_ →
          exec (.takeAbort c fault) s = .next (s.putTake n (cmdSlot c)
            { x with state := .aborting, tag := c.tag, byCmd := true, at_ := s.pw.now, cause := if fault then 1 else 0, fault := fault, st := .ok }))) ∧
      (x.state = .free →
        exec (.takeCommit c) s = .next (s.rejectTake (whoOf s (cmdPort c)) c n .nackState 0) ∧
        (∀ fault, exec (.takeAbort c fault) s = .next (s.rejectTake (whoOf s (cmdPort c)) c n .nackState 0))) ∧
      (x.state = .committing ∨ x.state = .aborting →
        exec (.takeCommit c) s = .next (s.answer c .nackState 2) ∧ (∀ fault, exec (.takeAbort c fault) s = .next (s.answer c .nackState 2))))

/-- The step of a take: at a commit its RESERVED result rows become FULL and, where it consumes, its FULL operand rows EMPTY, its cue is
signalled, and the position is FREE with an OK; at an abort or a fault its RESERVED result rows become EMPTY or STALE, and the abort
notice goes out, with a record for the causes 1 and 5 of R300 alone. No other row's slate changes, and no byte of memory (R220, R238,
R239, R292, R293, R300). -/
def Obligations.TakeStepEnds : Prop :=
  ∀ (s : State) (n : Fin 24) (i : Fin 16), s.canonical = true → s.tableFull n = false →
    let x := (s.lake n).take i
    (x.state = .committing → commitWaits s n i = false → (x.f.sig = true → heldWaits s x.f.cue.toNat = []) →
      ∃ t, exec (.takeCommitStep n i) s = .next t ∧ ((t.lake n).take i).state = .free ∧ t.mem = s.mem ∧
        (∀ r, t.slate r = s.takeLeaves n x.f .full x.f.consume r) ∧
        (x.f.sig = true → (t.cue x.f.cue.toNat).count = min ((s.cue x.f.cue.toNat).count + 1) 65535) ∧
        (x.f.sig = false → t.cues = s.cues) ∧
        t.out = .resp (takePort x) x.tag .ok [] (t.pw.now + 1 - x.at_) 0 :: s.out) ∧
    (x.state = .aborting →
      ∃ t, exec (.takeAbortStep n i) s = .next t ∧ ((t.lake n).take i).state = .free ∧ t.mem = s.mem ∧ t.cues = s.cues ∧
        (∀ r, t.slate r = s.takeLeaves n x.f (if x.fault then .stale else .empty) false r) ∧
        t.out = (if x.byCmd then
            [.resp (takePort x) x.tag (if x.cause = 0 ∨ x.cause = 1 then .ok else .nackState) [] (t.pw.now + 1 - x.at_) 0]
          else []) ++ .abortNotice n i x.cause :: s.out ∧
        (x.cause ≠ 1 → x.cause ≠ 5 → t.err = s.err))

/-- Pre-emption: a privileged write names sub-shores of a matrix engine and a deadline, and is in progress until every take of theirs is
FREE; at the deadline every one still open is aborted with cause 2 (R297, R298). -/
def Obligations.PreemptionRuns : Prop :=
  (∀ (s : State) (src : Src) (v : BitVec 64), s.opens src 0x180 8 = true → s.privileged src = true →
    (s.tm.peBusy = false → bits v 8 12 ≠ 0 →
      ∃ t, exec (.preempt src v) s = .next t ∧ t.tm.peMe = bits v 0 4 ∧ t.tm.peSub.toNat = bits v 8 12 ∧
        t.tm.peDeadline = s.pw.ns + bits v 32 16 ∧ t.tm.pePassed = false ∧
        t.tm.peBusy = !((preemptSlots t).all fun e => ((s.lake e.1).take e.2).state = .free) ∧
        t = { s with tm := t.tm, out := .reg src.port src.tag .ok 0 :: s.out }) ∧
    (s.tm.peBusy = true → exec (.preempt src v) s = .next (s.rejected src 0x180 1)) ∧
    (s.tm.peBusy = false → bits v 8 12 = 0 → exec (.preempt src v) s = .next (s.rejected src 0x180 2))) ∧
  (∀ s : State, s.canonical = true → s.tm.peBusy = true → s.tm.pePassed = false →
    ∃ t, exec .preemptDeadline s = .next t ∧ t.tm.pePassed = true ∧ s.tm.peDeadline ≤ t.pw.ns ∧ t.mem = s.mem ∧
      (∀ e ∈ preemptSlots s, ((s.lake e.1).take e.2).state = .open →
        ((t.lake e.1).take e.2).state = .aborting ∧ ((t.lake e.1).take e.2).cause = 2) ∧
      (∀ n i, (n, i) ∉ preemptSlots s → ((t.lake n).take i).state = ((s.lake n).take i).state))

/-- Waits end: a consume held on a row that has become FULL is performed, takes the row's words and leaves it EMPTY (R216, R219, R224);
an access or cue wait held for its whole timeout is released with NACK_STATE (R226). What waits for others then goes on (`takeUp`,
`serveCues`). Said of an access of one row by a vector core. -/
def Obligations.WaitersWokenAndTimedOut : Prop :=
  (∀ (s : State) (e : Waiter) (f : Flight) (q : Req) (k : Fin 64) (r : RowReq),
    let n := lakeOf r.row
    (s.lake n).waiters = [e] → e.what = .access .read q .consume f.rid 0 [r] → e.rows = [r.row] → r.masked = false → (∀ i ∈ r.places, i < 8) →
    s.flights.find? (·.rid = f.rid) = some f → f.parts = [none] → f.q.port = .vc k → s.draining = false → (s.lp n).state = .on →
    s.slate r.row = .full → (s.lake n).inMaint (lRow r.row) = false → s.clean r.row = true →
      ∃ u : State, exec (.waiterWake r.row) s = .next u.takeUp ∧ (u.lake n).waiters = [] ∧ u.flights = s.flights.filter (·.rid != f.rid) ∧
        u.slate r.row = .empty ∧ (∀ a, a ≠ r.row → u.slate a = s.slate a) ∧ u.mem = s.mem ∧
        u.out = .resp (.vc k) f.q.tag .ok (r.places.map fun i => readWord s.mem (8 * r.row + i)) (f.lat + (s.pw.now - f.start)) 0 :: s.out) ∧
  (∀ (s : State) (n : Fin 24) (e : Waiter), s.canonical = true → (s.lake n).waiters.find? (·.id = e.id) = some e → e.who.timeout ≠ 0 →
    (∀ c amount src, e.what = .cue c amount src →
      ∃ u : State, exec (.waiterTimeout n e.id) s = .next u.serveCues ∧ (u.lake n).waiters = (s.lake n).waiters.filter (·.id != e.id) ∧
        e.since + e.who.timeout ≤ u.pw.now ∧ u.mem = s.mem ∧ u.cues = s.cues ∧ u.out = .reg src.port src.tag .nackState 0 :: s.out) ∧
    (∀ op q rows k (f : Flight), e.what = .access op q .consume f.rid 0 rows → s.flights.find? (·.rid = f.rid) = some f → f.parts = [none] →
      f.q.port = .vc k →
      ∃ u : State, exec (.waiterTimeout n e.id) s = .next u.serveCues ∧ (u.lake n).waiters = (s.lake n).waiters.filter (·.id != e.id) ∧
        u.flights = s.flights.filter (·.rid != f.rid) ∧ u.mem = s.mem ∧ (∀ r, u.slate r = s.slate r) ∧ e.since + e.who.timeout ≤ u.pw.now ∧
        u.out = .resp (.vc k) f.q.tag .nackState [] (f.lat + (u.pw.now - f.start)) 0 :: s.out))

/-- The range table: the oldest step that waited for an entry is taken once one is free, with the step's whole effect, as said of a
take's; a sweep rewrites the tag bits of one row to the slate the table gives it, so that no slated access sees a difference (R184,
R187, R190, R220, R222, R238). -/
def Obligations.RangeTableWorks : Prop :=
  (∀ (s : State) (n : Fin 24) (i : Fin 16) (rest : List StepWait), s.canonical = true → s.tableFull n = false →
    (s.lake n).stepWait = .take i :: rest →
    let x := (s.lake n).take i
    x.state = .committing → commitWaits s n i = false → x.f.sig = false →
      ∃ t, exec (.rangeStepEnter n) s = .next t ∧ (t.lake n).stepWait = rest ∧ ((t.lake n).take i).state = .free ∧ t.mem = s.mem ∧
        t.cues = s.cues ∧ (∀ r, t.slate r = s.takeLeaves n x.f .full x.f.consume r)) ∧
  (∀ (s : State) (n : Fin 24) (w : StepWait) (rest : List StepWait), s.tableFull n = false → (s.lake n).stepWait = w :: rest →
    let u := s.modLake n fun l => { l with stepWait := rest }
    (∀ i, w = .take i → exec (.rangeStepEnter n) s = .next (u.takeStep n i)) ∧
    (∀ q, w = .complete q → exec (.rangeStepEnter n) s = .next (u.completeStep n q)) ∧
    (w = .cut → exec (.rangeStepEnter n) s = .next (u.cutEnd n)) ∧
    (w = .abort → s.tm.abBusy = true → abortReady s = true → exec (.rangeStepEnter n) s = .next u.abortEnd.takeUp)) ∧
  (∀ (s : State) (row : Nat) (sl : Slate), stepSlate (s.lake (lakeOf row)).steps row = some sl → s.draining = false →
    (s.lp (lakeOf row)).state = .on →
      ∃ t, exec (.tagSweep row) s = .next t ∧ (t.tag row).slate = sl ∧ stepSlate (t.lake (lakeOf row)).steps row = none ∧
        (∀ r, t.slate r = s.slate r) ∧ t = { s with rows := t.rows, lakes := t.lakes, cnt := t.cnt })

/-- Slate maintenance: the owner's write starts it on a range of the lake that no open take and no landing descriptor holds; each row
takes the new slate, and zero data where asked, and nothing else changes; the T-cycle after the last row `BUSY` falls and `DONE` rises;
a second write meanwhile is rejected. What waits for others then goes on (`takeUp`) (R227, R228). What a command does whose condition
does not hold, and that a timed command lets the time until it is due pass first, are the model's choices (log entry 2). -/
def Obligations.SlateMaintenanceRuns : Prop :=
  (∀ (s : State) (src : Src) (n : Fin 24) (v : BitVec 64), s.opens src (pageOff n 0x200) 8 = true → s.mastersLake src n = true →
    ((s.lake n).slBusy = false → bits v 16 16 ≠ 0 → bits v 0 16 + bits v 16 16 ≤ 49152 → bits v 32 2 ≠ 1 →
      maintBlocked s n (bits v 0 16) (bits v 16 16) = false → (s.mte n).busy = false →
        exec (.slateOp src n v) s = .next ((s.modLake n fun l =>
          { l with slFirst := BitVec.ofNat 16 (bits v 0 16), slCount := BitVec.ofNat 16 (bits v 16 16), slState := BitVec.ofNat 2 (bits v 32 2)
                   slZero := bit v 34, slBusy := true, slNext := bits v 0 16, slWho := some (whoOf s src.port) }).reply src .ok)) ∧
    ((s.lake n).slBusy = true → exec (.slateOp src n v) s = .next (s.rejected src (pageOff n 0x200) 1))) ∧
  (∀ (s : State) (n : Fin 24), (s.lake n).slBusy = true →
    let l := s.lake n
    let row := gRow n l.slNext
    (l.slNext < l.slFirst.toNat + l.slCount.toNat → l.slNext < 49152 → s.draining = false → (s.lp n).state = .on →
      ∃ t, exec (.slateOpRow n) s = .next t ∧ (t.lake n).slNext = l.slNext + 1 ∧ t.slate row = Slate.ofCode l.slState.toNat ∧
        (∀ a, a ≠ row → t.slate a = s.slate a) ∧
        (∀ a, readWord t.mem a = if l.slZero = true ∧ wordRow a = row then 0 else readWord s.mem a) ∧ t.out = s.out ∧ t.cues = s.cues ∧
        (l.slZero = false → (t.tag row).mark = (s.tag row).mark)) ∧
    (l.slFirst.toNat + l.slCount.toNat ≤ l.slNext → l.waiters = [] →
      let u := (s.reach (s.pw.now + 1)).modLake n fun l => { l with slBusy := false, slDone := true, slWho := none }
      exec (.slateOpDone n) s = .next (if u.draining || (s.lp n).state != .on then u else u.takeUp)))

/-! ### Fences, kernel boundaries and windows -/

/-- A fence is answered at once where its engine has nothing outstanding within its scope, else when all of it has been performed; scope
3 is refused (R249, R250). A kernel boundary: a privileged write notes the label and every access outstanding in the die; it is done
once all of those have been performed, not before the second T-cycle (R258, R259). One boundary at a time: a write in the boundary's own
T-cycle comes in the T-cycle after it (log entry 32), and is rejected as any other is. What a command does whose condition does not
hold, and that a timed command lets the time until it is due pass first, are the model's choices (log entry 2). -/
def Obligations.FencesAndKernelBoundariesRun : Prop :=
  (
    (∀ (s : State) (src : Src) (scope : Fin 4), s.running = true → s.slotDead src.port = false →
      let w := whoOf s src.port
      let ws := engineAwaits s w.engine scope
      (scope ≠ 3 → ws = [] → exec (.fence src scope) s = .next (s.emit (.fenceDone src.port src.tag .ok))) ∧
      (scope ≠ 3 → ws ≠ [] →
        exec (.fence src scope) s = .next { s with fences := s.fences ++ [⟨s.nextId, src, scope, ws⟩], nextId := s.nextId + 1 }) ∧
      (scope = 3 →
        exec (.fence src scope) s = .next ((s.reject .nackState w.pos w.pr 0 0).emit (.fenceDone src.port src.tag .nackState)))) ∧
    (∀ (s : State) (f : Fence), s.fences.find? (·.id = f.id) = some f → s.pw.deep = 0 →
      (settled s f.scope f.waits = true →
        exec (.fenceComplete f.id) s =
          .next ({ s with fences := s.fences.filter (·.id != f.id) }.emit (.fenceDone f.src.port f.src.tag .ok))) ∧
      (settled s f.scope f.waits = false → exec (.fenceComplete f.id) s = .next s))) ∧
  (
    (∀ (s : State) (src : Src) (v : BitVec 32), s.opens src 0x140 4 = true → s.privileged src = true →
      (s.tm.kBusy = false →
        exec (.kernelEnd src v) s = .next ({ s with tm := { s.tm with
          kEnd := BitVec.ofNat 16 v.toNat, kLast := BitVec.ofNat 16 v.toNat, kBusy := true, kPoint := s.pw.now
          kCover := ((awaits s 2).filter fun (a : Await) => ofDie a.engine).map fun (a : Await) => a.what } }.reply src .ok)) ∧
      (s.tm.kBusy = true → exec (.kernelEnd src v) s = .next ((s.reach (s.tm.kPoint + 1)).rejected src 0x140 0))) ∧
    (∀ s : State, s.tm.kBusy = true →
      (settled s 2 s.tm.kCover = true →
        ∃ t, exec .kernelBoundaryDone s = .next t ∧ t.tm = { s.tm with kBusy := false, kDone := true, kCover := [] } ∧
          s.tm.kPoint + 2 ≤ t.pw.now ∧ t.mem = s.mem ∧ t.out = s.out) ∧
      (settled s 2 s.tm.kCover = false → exec .kernelBoundaryDone s = .next s)))

/-- A window's registers: a privileged agent names its owner while it is FREE; its owner or a privileged agent sets its range, sources
and mode while it is neither OPEN nor CLOSING (R274 to R278). A window's life: its owner opens it on rows of its own lake that no open
window shares, which clears its counts; it closes once the writes it has accepted are performed, and only then are its CLOSEs
acknowledged; a closed window is released; a FREE one is not closed. An OPEN on an absent lake, on one that is neither ON nor IDLE, or
past a lake's last row is refused (R279 to R282, R287). Open points of a window are log entry 7. What a command does whose condition
does not hold, and that a timed command lets the time until it is due pass first, are the model's choices (log entry 2). -/
def Obligations.WindowsConfiguredOpenedAndClosed : Prop :=
  (
    ∀ (s : State) (src : Src) (w : Fin 256),
      (∀ v : BitVec 32, s.opens src (0xC0000 + w * 64) 4 = true → s.privileged src = true →
        ((s.win w).state = .free →
          exec (.winOwnerWrite src w v) s = .next ((s.modWin w fun x =>
            { x with owner := ⟨BitVec.ofNat 8 (bits v 0 8), BitVec.ofNat 12 (bits v 8 12)⟩ }).reply src .ok)) ∧
        ((s.win w).state ≠ .free → exec (.winOwnerWrite src w v) s = .next (s.rejected src (0xC0000 + w * 64) 0))) ∧
      (∀ (which : Fin 3) (v : BitVec 64), s.opens src (0xC0000 + w * 64 + 8 + which * 8) (if which = 0 then 8 else 4) = true →
        s.privileged src = true ∨ (whoOf s src.port).pr = (s.win w).owner →
        ((s.win w).state = .free ∨ (s.win w).state = .closed →
          exec (.winConfigWrite src w which v) s = .next ((s.modWin w fun x =>
            if which = 0 then
              { x with first := BitVec.ofNat 16 (bits v 0 16), rows := BitVec.ofNat 16 (bits v 16 16), lake := BitVec.ofNat 5 (bits v 32 5) }
            else if which = 1 then { x with epFirst := BitVec.ofNat 16 (bits v 0 16), epLast := BitVec.ofNat 16 (bits v 16 16) }
            else { x with mode := BitVec.ofNat 2 (bits v 0 2) }).reply src .ok)) ∧
        ((s.win w).state = .open ∨ (s.win w).state = .closing →
          exec (.winConfigWrite src w which v) s = .next (s.rejected src (0xC0000 + w * 64 + 8 + which * 8) 0)))) ∧
  (
    (∀ (s : State) (src : Src) (w : Fin 256), s.opens src (0xC0000 + w * 64 + 0x20) 4 = true →
      s.privileged src = true ∨ (whoOf s src.port).pr = (s.win w).owner →
      let x := s.win w
      let n := x.lake.toNat
      (x.state = .free ∨ x.state = .closed → Config.lakePresent s.variant n = true →
        (Config.hasAccWindows s.variant = true ∨ x.mode = 0 ∨ x.mode = 3) → (s.lp n).state.down = false →
        x.first.toNat + x.rows.toNat ≤ 49152 → x.owner = (s.lake n).owner → x.rows ≠ 0 → x.epFirst.toNat ≤ x.epLast.toNat →
        (∀ e ∈ s.wins, e.1 ≠ w.val → e.2.active = true → e.2.meets x = false) → (s.mte n).busy = false →
          exec (.winOpen src w) s = .next ((s.modWin w fun x =>
            { x with state := .open, cause := 0, late := false, accepted := 0, rejected := 0, cmd := 1 }).reply src .ok)) ∧
      (Config.lakePresent s.variant n = false → exec (.winOpen src w) s = .next (s.reply src .absent)) ∧
      (Config.lakePresent s.variant n = true → (Config.hasAccWindows s.variant = true ∨ x.mode = 0 ∨ x.mode = 3) →
        ((s.lp n).state.down = true → exec (.winOpen src w) s = .next (s.reply src .nackLakeOff)) ∧
        ((s.lp n).state.down = false → 49152 < x.first.toNat + x.rows.toNat → exec (.winOpen src w) s = .next (s.reply src .nackBound))) ∧
      (x.state = .open →
        exec (.winClose src w) s = .next (s.modWin w fun x =>
          { x with state := .closing, cause := 0, cmd := 2, closers := x.closers ++ [src], atClose := s.pw.now })) ∧
      (x.state = .closing →
        exec (.winClose src w) s = .next (s.modWin w fun x => { x with cmd := 2, closers := x.closers ++ [src] })) ∧
      (x.state = .closed → exec (.winClose src w) s = .next ((s.modWin w fun x => { x with cmd := 2 }).reply src .ok)) ∧
      (x.state = .free → exec (.winRelease src w) s = .next ((s.modWin w fun x => { x with cmd := 3 }).reply src .ok)) ∧
      (x.state = .free → exec (.winClose src w) s = .next (s.rejected src (0xC0000 + w * 64 + 0x20) 0)) ∧
      (x.state = .closed →
        exec (.winRelease src w) s = .next ((s.modWin w fun x => { x with state := .free, cmd := 3 }).reply src .ok)) ∧
      (x.state = .open ∨ x.state = .closing → exec (.winRelease src w) s = .next (s.rejected src (0xC0000 + w * 64 + 0x20) 0))) ∧
    (∀ (s : State) (w : Fin 256), (s.win w).state = .closing →
      (winBusy s (s.win w) = false →
        ∃ t, exec (.winClosed w) s = .next t ∧ t.win w = { s.win w with state := .closed, closers := [] } ∧
          (∀ v, v ≠ w.val → t.win v = s.win v) ∧ (s.win w).atClose < t.pw.now ∧ t.mem = s.mem ∧
          t.out = ((s.win w).closers.map fun c => Out.reg c.port c.tag .ok 0).reverse ++ s.out) ∧
      (winBusy s (s.win w) = true → exec (.winClosed w) s = .next s)))

/-! ### Basin -/

/-- A SHARED read takes its turn in its slice and finds the lines that no invalidation has reached: a line the basin holds answers it,
is marked as referenced and keeps no error that could be corrected; one with an error that cannot be corrected is dropped, and is no
longer held. Of a line that the basin does not hold, the read joins the fill of it that runs; or the line is asked of the stack, and a
way of its group reserved for it; or, where its slice or its group has no room, the read goes to the stack itself. Memory of the die is
not touched (R199 to R204). A fill's data is installed in its way unless it failed, or a store or an invalidation has covered its line
meanwhile, and is given to every read that waits for it; every one of them has then been answered (R204, R205, R208). An invalidation is
accepted while none runs, is busy for its T-cycles, and at its end has left no line and no fill to be installed of its range but those
read from the stack after the T-cycle that follows its write (R206 to R208). What the record of a dropped line says is the model's
choice (log entry 17). -/
def Obligations.BasinServesAndForgets : Prop :=
  (
    ∀ (s : State) (n : Fin 24) (d : Desc) (p : Piece) (struck : List (Fin 32 × Bool)), s.desc n d.seq = some d → dKind d.w = 1 →
      dShared d.w = true → d.asked.contains p.i = true → d.returned.contains p.i = false → d.looked.contains p.i = false →
      pieceOf d p.i = some p → (s.basin.fills.all fun f => !f.reqs.contains (n.val, d.seq, p.i)) = true →
      let sib := (stackOf s p.other).1
      let line := (stackOf s p.other).2 / 256
      let set := basinSet s.variant line
      let u := (s.sliceTurn d.slot.label sib line).walk
      let units (b : Bool) : List Nat := (struck.filter (·.2 = b)).map (·.1.val)
      let runs (f : Fill) : Bool := f.sib = sib && f.line = line && !u.barred f
      let ways := (List.range 16).filter fun w =>
        (waysOf u (u.groupOf d.slot.label)).testBit w && !u.basin.fills.any fun f => f.set = set && f.way = w
      (∀ w, u.basin.match set sib line = some w →
        let l := u.basin.way set w
        (l.bad ++ units true = [] →
          ∃ v x : State, exec (.basinLookup n d.seq p.i struck) s = .next x.takeUp ∧ x = v.springReturn n d.seq p.i .ok (pieceWords p l.data) ∧
            (∃ y, x.desc n d.seq = some y ∧ y.returned.contains p.i = true) ∧
            v.basin = u.basin.setWay set w { l with ref := true, corr := [], bad := [] } ∧
            (l.corr ++ units false = [] → v.err = u.err) ∧ v = { u with basin := v.basin, cnt := v.cnt, err := v.err, fresh := v.fresh }) ∧
        (l.bad ++ units true ≠ [] →
          ∃ v : State, exec (.basinLookup n d.seq p.i struck) s = .next (v.basinMiss n d p sib line set) ∧
            v.basin = { u.basin.setWay set w Line.reset with eccDrop := true } ∧
            v = { u with basin := v.basin, cnt := v.cnt, err := v.err, fresh := v.fresh })) ∧
      (u.basin.match set sib line = none →
        (u.basin.fills.any runs = true →
          ∃ t, exec (.basinLookup n d.seq p.i struck) s = .next t ∧ t.basin.lines = u.basin.lines ∧
            t.basin.fills = (u.basin.fills.map fun f => if runs f then { f with reqs := f.reqs ++ [(n.val, d.seq, p.i)] } else f) ∧
            t = { u with basin := t.basin, cnt := t.cnt }) ∧
        (u.basin.fills.any runs = false → sliceFills u set < 16 → ∀ w b, victim u.basin set ways = some (w, b) →
          ∃ t, exec (.basinLookup n d.seq p.i struck) s = .next t ∧
            t.basin = { b.setWay set w Line.reset with fills := b.fills ++ [⟨sib, line, set, w, false, [(n.val, d.seq, p.i)], u.pw.now⟩] } ∧
            t.out = .basinRead sib line d.slot.label d.slot.pr :: s.out ∧ t = { u with basin := t.basin, cnt := t.cnt, out := t.out }) ∧
        (u.basin.fills.any runs = false → 16 ≤ sliceFills u set ∨ victim u.basin set ways = none →
          ∃ t, exec (.basinLookup n d.seq p.i struck) s = .next t ∧ (∃ y, t.desc n d.seq = some y ∧ y.looked.contains p.i = true) ∧
            t.out = .stackRead n d.seq p.i sib (stackOf s p.other).2 p.n d.slot.label :: s.out ∧
            t = { u with springs := t.springs, cnt := t.cnt, out := t.out }))) ∧
  (
    (∀ (s : State) (f : Fill) (st : Status) (ws : List Word), s.basin.fills.find? (fun g => g.sib = f.sib && g.line = f.line) = some f →
      let data := (ws ++ zeros 8).take 8
      ∃ u : State,
        exec (.basinFillReturn f.sib f.line st ws) s = .next (f.reqs.foldl (State.fillGive st data) u).deepTimer ∧
        u.basin.fills = s.basin.fills.erase f ∧
        u.basin.way f.set f.way =
          (if st = .ok ∧ s.barred f = false then ⟨true, f.sib, f.line, true, data, [], [], f.at_⟩ else s.walk.basin.way f.set f.way) ∧
        (∀ k, k ≠ 16 * f.set + f.way → Tab.get basinDefault u.basin.lines k = Tab.get basinDefault s.walk.basin.lines k) ∧
        u = { s with basin := u.basin, cnt := u.cnt } ∧
        ∀ r ∈ f.reqs, ∀ d p, s.desc r.1 r.2.1 = some d → pieceOf d r.2.2 = some p → d.asked.contains r.2.2 = true →
          ∃ x, ((f.reqs.foldl (State.fillGive st data) u).deepTimer).desc r.1 r.2.1 = some x ∧ x.returned.contains r.2.2 = true) ∧
    (∀ (s : State) (src : Src) (v : BitVec 64), s.opens src 0x400 8 = true → s.privileged src = true →
      let lines := s.basin.invLen.toNat
      let runs (all : Bool) : State := { s with basin := { s.basin with
        invAll := all, invSib := bit v 1, invAddr := BitVec.ofNat 36 (bits v 8 36), busy := true, start := s.pw.now, walkLen := lines
        due := s.pw.now + invCycles s.variant all lines } }
      (s.basin.busy = false →
        exec (.basinInvAll src v) s = .next ((runs true).reply src .ok) ∧
        (lines ≠ 0 → bits v 8 36 + lines ≤ 2 ^ 36 → exec (.basinInvRange src v) s = .next ((runs false).reply src .ok)) ∧
        (lines = 0 ∨ 2 ^ 36 < bits v 8 36 + lines → exec (.basinInvRange src v) s = .next (s.rejected src 0x400 2))) ∧
      (s.basin.busy = true →
        exec (.basinInvAll src v) s = .next (s.rejected src 0x400 1) ∧ exec (.basinInvRange src v) s = .next (s.rejected src 0x400 1))) ∧
    (∀ s : State, s.basin.busy = true →
      ∃ t, exec .basinInvDone s = .next t ∧ t.basin.busy = false ∧ t.basin.done = true ∧ s.basin.due ≤ t.pw.now ∧
        (∀ e, e ∈ t.basin.lines ↔ e ∈ s.basin.lines ∧ s.basin.swept e.2.sib e.2.line e.2.at_ = false) ∧
        (∀ f ∈ t.basin.fills, s.basin.swept f.sib f.line f.at_ = true → s.basin.start < t.pw.now → f.noInstall = true) ∧
        t = { s with basin := t.basin, pw := t.pw, lakes := t.lakes, springs := t.springs, cnt := t.cnt }))

/-! ### Storage -/

/-- Reads: in the data view, the peek view and the consume view a read that passes every check is answered with OK and the words it
names, zeros for masked ones (R24, R41, R166); a slated read wants its rows FULL (R216), a consume leaves them EMPTY (R219); no byte of
memory and no other slate changes. The view of the address, not the command, says which read it is. How the requests of one group share
a pond cycle is log entry 8. -/
def Obligations.ReadsAnswered : Prop :=
  ∀ (s : State) (q : Req) (v : View) (w0 : Nat), s.serves .read q v w0 = true → s.apart q = true → s.room q v (lakeOf (wordRow w0)) = true →
    (∀ i < q.words, masks q w0 (w0 + i) = false → s.readable v (wordRow (w0 + i)) = true) →
    ∃ u : State,
      (∀ c ∈ [Instr.read q, .peek q, .takePeek q, .consume q, .arrivalRead q .read], exec c s = .next (s.answered u .read q [] v w0
        ((List.range q.words).map fun i => if masks q w0 (w0 + i) then 0 else readWord s.mem (w0 + i)))) ∧
      (∀ r, u.slate r =
        if v = .pc ∧ (∃ i < q.words, wordRow (w0 + i) = r ∧ masks q w0 (w0 + i) = false) then .empty else s.slate r) ∧
      u = { s with lakes := u.lakes, rows := u.rows, arbs := u.arbs, weir := u.weir, cnt := u.cnt, group := u.group, ps := u.ps
                   inPond := u.inPond, nextId := u.nextId, backoff := u.backoff }

/-- Writes: a write that passes every check stores its words at its address and nowhere else, and is answered with OK (R24, R45, R47);
in the slated view it wants its rows EMPTY, or RESERVED by its own take or for a produce, and leaves them FULL, or RESERVED within a
take (R216, R219, R235, R237). That a read-modify-write is applied as its write is read back is log entry 9. -/
def Obligations.WritesStored : Prop :=
  ∀ (s : State) (q : Req) (v : View) (w0 : Nat) (d : List Word), s.serves .write q v w0 = true → s.apart q = true →
    let n := lakeOf (wordRow w0)
    let m := modeOf s n .write q v
    s.room q v n = true →
    (∀ i < q.words, s.clean (wordRow (w0 + i)) = true ∧ (m ≠ .plain → (s.lake n).inMaint (lRow (wordRow (w0 + i))) = false ∧
      slateMeets (s.lake n) (lRow (wordRow (w0 + i))) m (s.slate (wordRow (w0 + i))) = true)) →
    ∃ u : State,
      (∀ c ∈ [Instr.write q d, .produce q d, .takeWrite q d, .arrivalWrite q .write d],
        exec c s = .next (s.answered u .write q d v w0 [])) ∧
      (∀ a, readWord u.mem a = if w0 ≤ a ∧ a < w0 + q.words then d.getD (a - w0) 0 else readWord s.mem a) ∧
      (∀ r, u.slate r = if ∃ i < q.words, wordRow (w0 + i) = r then slateAfter m (s.slate r) else s.slate r) ∧
      u = { s with lakes := u.lakes, rows := u.rows, mem := u.mem, arbs := u.arbs, weir := u.weir, cnt := u.cnt, group := u.group
                   ps := u.ps, inPond := u.inPond, nextId := u.nextId, backoff := u.backoff, springs := u.springs, reels := u.reels
                   fresh := u.fresh }

/-- A write or atomic from another die to the data view is performed where an open window holds its rows, admits its endpoint and
accepts its operation, and is counted there; one that its windows turn away changes no byte, and is answered with the status of the
first check it fails (R276 to R278, R283, R284). Which of several late windows takes the count is log entry 7. -/
def Obligations.ArrivingWritesGoThroughWindows : Prop :=
  ∀ (s : State) (q : Req) (op : Op) (w0 ep : Nat) (d : List Word), s.reaches op q .data w0 = true → opWrites op = true →
    (s.caller q).arrival = some ep →
    let n := lakeOf (wordRow w0)
    (∀ (k : Nat) (x : Win), s.apart q = true →
      s.wins.find? (fun e => e.2.state = .open && e.2.lake.toNat = n && e.2.has (lRow (wordRow w0))) = some (k, x) →
      x.has (lRow (wordRow (w0 + q.words - 1))) = true → x.admitsSrc ep = true → modeAccepts x.mode.toNat op = true →
      (∀ i < q.words, s.clean (wordRow (w0 + i)) = true) →
      ∃ u : State,
        exec (.arrivalWrite q op d) s =
          .next (s.answered u op q d .data w0 (if opFetches op then (List.range q.words).map fun i => readWord s.mem (w0 + i) else [])) ∧
        (u.win k).accepted = (s.win k).accepted + 1 ∧
        (op = .write → ∀ a, readWord u.mem a = if w0 ≤ a ∧ a < w0 + q.words then d.getD (a - w0) 0 else readWord s.mem a) ∧
        (opIsAtomic op = true → ∀ i < q.words, ∃ draws, readWord u.mem (w0 + i) =
          (atomWord ⟨n, (s.lake n).forceRne, (s.lake n).mixes, s.pw.now⟩ op (operandAt op d i).2 draws (readWord s.mem (w0 + i))
            (operandAt op d i).1).1) ∧
        (∀ a, a < w0 ∨ w0 + q.words ≤ a → readWord u.mem a = readWord s.mem a) ∧ (∀ r, u.slate r = s.slate r) ∧
        u = { s with lakes := u.lakes, rows := u.rows, mem := u.mem, arbs := u.arbs, wins := u.wins, weir := u.weir, cnt := u.cnt
                     group := u.group, ps := u.ps, inPond := u.inPond, nextId := u.nextId, fresh := u.fresh }) ∧
    (∀ (st : Status) (u : State), windowCheck s (s.caller q) op q n w0 (wordAddr .data w0) = (some st, u) →
      exec (.arrivalWrite q op d) s = .next (u.refuseAt (s.caller q) op q .data n w0 st none) ∧
      u = { s with wins := u.wins, err := u.err, cnt := u.cnt } ∧
      (s.wins.find? (fun e => e.2.state = .open && e.2.lake.toNat = n && e.2.has (lRow (wordRow w0))) = none →
        st = .nackWindowClosed ∨ st = .nackOwner))

/-- An XREAD that passes every check is answered with the transpose of the block of words its stride names, a GATHER with its words
packed in order; no byte of memory and no slate changes (R148 to R152, R156, R157). -/
def Obligations.StridedReadsAnswered : Prop :=
  ∀ (s : State) (q : Req) (v : View) (w0 : Nat) (ew : Fin 4) (st : BitVec 16), s.apart q = true → s.room q v (lakeOf (wordRow w0)) = true →
    let served (op : Op) (c : Instr) (data : List Word) : Prop :=
      s.serves op q v w0 = true → (∀ w ∈ wordsOf op q w0, s.readable v (wordRow w) = true) →
      ∃ u : State, exec c s = .next (s.answered u op q [] v w0 data) ∧ (∀ r, u.slate r = s.slate r) ∧
        u = { s with lakes := u.lakes, rows := u.rows, arbs := u.arbs, weir := u.weir, cnt := u.cnt, group := u.group, ps := u.ps
                     inPond := u.inPond, nextId := u.nextId, backoff := u.backoff }
    served (.xread ew st) (.xread q ew st) (transposeBlock ew ((wordsOf (.xread ew st) q w0).map (readWord s.mem))) ∧
    served (.gather st) (.gather q st) ((wordsOf (.gather st) q w0).map (readWord s.mem))

/-- A lake atomic that passes every check in a view that permits it replaces each destination word by what its operation makes of that
word and its operand (for a stochastic rounding, at some draw of the lake's generator), returns the old words where it fetches, and
changes no other word and no slate; MAX, MIN, SWAP and CAS raise no flag (R158 to R165). That an atomic operation is applied at its
array read is log entry 9. -/
def Obligations.AtomicsApplied : Prop :=
  ∀ (s : State) (q : Req) (v : View) (w0 : Nat), s.apart q = true → (∀ i < q.words, s.clean (wordRow (w0 + i)) = true) →
    s.room q v (lakeOf (wordRow w0)) = true →
    let n := lakeOf (wordRow w0)
    let applied (op : Op) (c : Instr) (d : List Word) (quiet : Bool) : Prop :=
      s.serves op q v w0 = true → modeOf s n op q v = .plain →
      ∃ u : State,
        exec c s =
          .next (s.answered u op q d v w0 (if opFetches op then (List.range q.words).map fun i => readWord s.mem (w0 + i) else [])) ∧
        (∀ i < q.words, ∃ draws, readWord u.mem (w0 + i) =
          (atomWord ⟨n, (s.lake n).forceRne, (s.lake n).mixes, s.pw.now⟩ op (operandAt op d i).2 draws (readWord s.mem (w0 + i))
            (operandAt op d i).1).1) ∧
        (∀ a, a < w0 ∨ w0 + q.words ≤ a → readWord u.mem a = readWord s.mem a) ∧ (∀ r, u.slate r = s.slate r) ∧
        (quiet = true → (u.lake n).fInvalid = (s.lake n).fInvalid ∧ (u.lake n).fOverflow = (s.lake n).fOverflow ∧
          (u.lake n).iOverflow = (s.lake n).iOverflow ∧ (u.lake n).draws = (s.lake n).draws) ∧
        u = { s with lakes := u.lakes, rows := u.rows, mem := u.mem, arbs := u.arbs, weir := u.weir, cnt := u.cnt, group := u.group
                     ps := u.ps, inPond := u.inPond, nextId := u.nextId, fresh := u.fresh }
    (∀ a d, applied (.add a) (.add q a d) d false) ∧ (∀ a d, applied (.addWide a) (.addWide q a d) d false) ∧
    (∀ a d, applied (.max a) (.max q a d) d true) ∧ (∀ a d, applied (.min a) (.min q a d) d true) ∧
    (∀ ty k d, applied (.swap ty k) (.swap q ty k d) [d] true) ∧ (∀ ty k d, applied (.cas ty k) (.cas q ty k d) [d] true)

/-! ### Error protection -/

/-- Maintenance of the rows: a write-back leaves its queue at its time, with memory and slates as they are (R43); a queued mark is
written, with STALE where the tags were lost (R311); a patrol read finds a clean row clean, repairs a correctable one and counts it, and
queues the mark of an uncorrectable one, once no write-back or mark of its pond comes before it (R48, R306, R308, R309, R314); none of
them changes a byte of memory. Protection registers: the patrol's interval and enable, and when its next row comes due (R314); a
conversion between the modes of a quiescent lake, which ends after its time (R303, R307); arming an error (R324). What a command does
whose condition does not hold, and that a timed command lets the time until it is due pass first, are the model's choices (log entry 2).
-/
def Obligations.RowsMaintainedAndProtected : Prop :=
  (
    ∀ (s : State) (row : Nat), s.canonical = true →
      let n := lakeOf row
      let kept (t : State) : Prop := t.mem = s.mem ∧ t.cues = s.cues ∧ t.out = s.out ∧ ∀ r, r ≠ row → t.tag r = s.tag r
      (∀ b, (s.lake n).wbs.find? (·.row = row) = some b →
        ∃ t, exec (.writeBack row) s = .next t ∧ (t.lake n).wbs = (s.lake n).wbs.erase b ∧ b.due ≤ t.pw.now ∧ kept t ∧
          (∀ r, t.slate r = s.slate r) ∧ ((s.lake n).injArm = false → t.tag row = s.tag row)) ∧
      (∀ m, (s.lake n).marks.find? (·.row = row) = some m →
        ∃ t, exec (.markWrite row) s = .next t ∧ (t.lake n).marks = (s.lake n).marks.erase m ∧ (t.tag row).mark = true ∧
          (t.tag row).corr = [] ∧ (t.tag row).bad = [] ∧ kept t ∧ (m.stale = true → t.slate row = .stale) ∧
          (∀ r, r ≠ row ∨ m.stale = false → t.slate r = s.slate r)) ∧
      (∀ at_, (s.lake n).scrubDue.find? (·.1 = row) = some (row, at_) → s.draining = false → scrubRuns s n = true → s.marked row = false →
        pondPledged s row = false →
        ∀ c ∈ [Instr.scrubRead row, .scrubForced row],
          ∃ t, exec c s = .next t ∧ (t.lake n).scrubDue = (s.lake n).scrubDue.filter (·.1 != row) ∧ kept t ∧
            (s.clean row = true → (t.lake n).corrected = (s.lake n).corrected ∧ (t.lake n).uncorr = (s.lake n).uncorr ∧
              ∀ r, t.slate r = s.slate r) ∧
            ((s.tag row).corr ≠ [] → (s.tag row).bad = [] →
              (t.tag row).corr = [] ∧ (t.lake n).corrected = satAdd 0xFFFFFF (s.lake n).corrected 1 ∧ ∀ r, t.slate r = s.slate r) ∧
            ((s.tag row).corr = [] → (s.tag row).bad ≠ [] →
              (t.lake n).uncorr = satAdd 0xFFFF (s.lake n).uncorr 1 ∧ ∃ st, (t.lake n).marks = (s.lake n).marks ++ [⟨row, st⟩]))) ∧
  (
    (∀ (s : State) (n : Fin 24), (s.lake n).scrubEn = true → scrubRuns s n = true →
      let u := s.reach ((s.lake n).scrubFrom + 2 ^ (s.lake n).scrubInt.toNat)
      exec (.scrubDue n) s = .next (u.modLake n fun l =>
        { l with scrubDue := l.scrubDue ++ [(gRow n l.nextRow, u.pw.now)], scrubFrom := u.pw.now
                 nextRow := if (s.lake n).nextRow + 1 = 49152 then 0 else l.nextRow + 1
                 passes := if (s.lake n).nextRow + 1 = 49152 then satAdd max32 l.passes 1 else l.passes })) ∧
    (∀ (s : State) (src : Src) (n : Fin 24) (v : BitVec 32), s.opens src (pageOff n 0x608) 4 = true → s.privileged src = true →
      let i := if 12 ≤ bits v 0 5 ∧ bits v 0 5 ≤ 30 then BitVec.ofNat 5 (bits v 0 5) else (s.lake n).scrubInt
      exec (.scrubConfigWrite src n v) s = .next ((s.modLake n fun l =>
        { l with scrubInt := i, scrubEn := bit v 5
                 scrubFrom := if i ≠ l.scrubInt ∨ bit v 5 = true ∧ l.scrubEn = false then s.pw.now else l.scrubFrom }).reply src .ok)) ∧
    (∀ (s : State) (src : Src) (n : Fin 24) (v : BitVec 32), s.opens src (pageOff n 0x600) 4 = true → s.mastersLake src n = true →
      (bit v 0 = (s.lake n).wMode → exec (.protModeChange src n v) s = .next (s.reply src .ok)) ∧
      (bit v 0 ≠ (s.lake n).wMode → quiescent s n = false → exec (.protModeChange src n v) s = .next (s.rejected src (pageOff n 0x600) 1)) ∧
      (bit v 0 ≠ (s.lake n).wMode → quiescent s n = true → (s.lp n).state ≠ .on →
        exec (.protModeChange src n v) s = .next (s.rejected src (pageOff n 0x600) 2)) ∧
      (bit v 0 ≠ (s.lake n).wMode → quiescent s n = true → (s.lp n).state = .on → (s.lake n).convBusy = false →
        ∃ t, exec (.protModeChange src n v) s = .next t ∧ (t.lake n).wMode = bit v 0 ∧ (t.lake n).convBusy = true ∧
          (t.lake n).convDue = s.pw.now + 1040 ∧ t.mem = s.mem ∧ t.out = .reg src.port src.tag .ok 0 :: s.out)) ∧
    (∀ (s : State) (n : Fin 24), (s.lake n).convBusy = true →
      let u := s.reach (s.lake n).convDue
      exec (.conversionDone n) s = .next (u.modLake n fun l => { l with convBusy := false, idleFrom := u.pw.now })) ∧
    (∀ (s : State) (src : Src) (n : Fin 24) (v : BitVec 64), s.opens src (pageOff n 0x620) 8 = true → s.privileged src = true →
      (bit v 16 = false ∨ (bits v 17 2 ≠ 3 ∧ bits v 0 16 < 49152 ∧ (bits v 19 5 ≤ 3 ∨ (s.lake n).wMode = false)) →
        exec (.eccInjectArm src n v) s = .next ((s.modLake n fun l =>
          { l with injRow := BitVec.ofNat 16 (bits v 0 16), injArm := bit v 16, injKind := BitVec.ofNat 2 (bits v 17 2)
                   injUnit := BitVec.ofNat 5 (bits v 19 5) }).reply src .ok)) ∧
      (bit v 16 = true → bits v 17 2 = 3 → exec (.eccInjectArm src n v) s = .next (s.rejected src (pageOff n 0x620) 1)) ∧
      (bit v 16 = true → bits v 17 2 ≠ 3 → 49152 ≤ bits v 0 16 →
        exec (.eccInjectArm src n v) s = .next (s.rejected src (pageOff n 0x620) 2)) ∧
      (bit v 16 = true → bits v 17 2 ≠ 3 → bits v 0 16 < 49152 → 3 < bits v 19 5 → (s.lake n).wMode = true →
        exec (.eccInjectArm src n v) s = .next (s.rejected src (pageOff n 0x620) 3))))

/-! ### The host window -/

/-- A host read inside one row is answered with the bytes it names; a posted write of whole words inside one row is stored and has no
completion, and one that covers a word only partly is discarded whole with its record (R28 to R30). Said where nothing is held at the
host stop. What the host stop holds goes on: a read waited out there is presented again, as the issuer it came from, and answered with
its bytes (R30, R99), and a posted write held behind others is stored once it may be injected (R261). The order of host requests among
one another is read from the rules in log entry 27. What a command does whose condition does not hold, and that a timed command lets the
time until it is due pass first, are the model's choices (log entry 2). -/
def Obligations.HostWindowServed : Prop :=
  (
    ∀ (s : State) (t : Tlp), s.hostClear = true → s.running = true → t.addr < 0x20000000 → 0 < t.len →
      t.addr / 256 = (t.addr + t.len - 1) / 256 → s.clean (t.addr / 256) = true →
      let w := t.addr / 32
      let k := (t.addr + t.len - 1) / 32 - w + 1
      (s.serves .read (hostReq t w k (some (t.addr - 32 * w, t.len)) false) .data w = true →
        ∃ u : State, exec (.hostReadTlp t) s = .next (u.emit (.cpl t.tag false false false (s.bytesAt t.addr t.len))) ∧ (∀ r, u.slate r = s.slate r) ∧
          u = { s with lakes := u.lakes, rows := u.rows, arbs := u.arbs, weir := u.weir, cnt := u.cnt, group := u.group, ps := u.ps
                       inPond := u.inPond, nextId := u.nextId }) ∧
      (∀ d : List Byte, d.length = t.len → t.addr % 32 = 0 → t.len % 32 = 0 →
        s.serves .write (hostReq t w k none true) .data w = true →
        ∃ u : State, exec (.hostWriteTlp t (d.map some)) s = .next u ∧ u.bytesAt t.addr t.len = d ∧
          (∀ a, a < t.addr ∨ t.addr + t.len ≤ a → readByte u.mem a = readByte s.mem a) ∧ (∀ r, u.slate r = s.slate r) ∧
          u = { s with lakes := u.lakes, rows := u.rows, mem := u.mem, arbs := u.arbs, weir := u.weir, cnt := u.cnt, group := u.group
                       ps := u.ps, inPond := u.inPond, nextId := u.nextId, fresh := u.fresh }) ∧
      (∀ d : List Byte, d.length = t.len → w = (t.addr + t.len - 1) / 32 → t.len < 32 →
        exec (.hostWriteTlp t (d.map some)) s = .next (s.hostDiscard t.np 0 t.addr))) ∧
  (
    (∀ (s : State) (q : Req) (due c a n w0 : Nat) (np : Bool) (w : Who),
      s.hostRetry.find? (fun h => (retryOf h).1 = q.tag) = some (.access .read q [] due w none c) → s.pw.refOk = true → s.hostReads = [] →
      q.port = .host np → q.bytes = some (a, n) → q.posted = false → s.pw.deep = 0 →
      let u := { s with hostRetry := s.hostRetry.erase (.access .read q [] due w none c) }.reach due
      u.reachesAs { w with granted := u.pw.now } .read { q with joins := false } .data w0 = true →
      (∀ i < q.words, masks q w0 (w0 + i) = false ∧ u.clean (wordRow (w0 + i)) = true) →
        ∃ t, exec (.hostRetryReissue q.tag) s = .next t ∧ t.mem = s.mem ∧ t.hostRetry = u.hostRetry ∧ due ≤ t.pw.now ∧
          t.out = .cpl q.tag false false false
            (((((List.range q.words).map fun i => readWord s.mem (w0 + i)).map wordBytes).flatten.drop a).take n) :: s.out) ∧
    (∀ (s : State) (q : Req) (ro : Bool) (d : List Word) (due c w0 : Nat) (w : Who), let h : HostTlp := ⟨ro, true, [.access .write q d due w none c]⟩
      s.hostHeld = [h] → tlpMay s [] h = true → q.posted = true → (∃ np, q.port = .host np) → w.arrival = none → q.glob = false →
      s.reachesAs { w with granted := s.pw.now } .write { q with joins := false } .data w0 = true →
      (∀ i < q.words, s.clean (wordRow (w0 + i)) = true) →
        ∃ t, exec .hostPostedRelease s = .next t ∧ t.hostHeld = [] ∧ t.out = s.out ∧ (∀ r, t.slate r = s.slate r) ∧
          (∀ a, readWord t.mem a = if w0 ≤ a ∧ a < w0 + q.words then d.getD (a - w0) 0 else readWord s.mem a)))

/-- AtomicOps of the host of 32 and 64 bits at their natural alignment: FetchAdd, Swap and CAS change their element as they say and no
other byte, and complete with its old value; a CAS of 128 bits is an Unsupported Request with its record (R265). -/
def Obligations.AtomicOpsServed : Prop :=
  ∀ (s : State) (t : Tlp), s.hostClear = true → s.running = true → t.addr < 0x20000000 →
    (∀ wide : Bool,
      let e := if wide then 8 else 4
      let ty : Fin 4 := if wide then 1 else 0
      let k : Fin 8 := Fin.ofNat 8 (atomIndex wide t.addr)
      let q := hostReq t (t.addr / 32) 1 (some (e * atomIndex wide t.addr, e)) false
      let old := s.numberAt t.addr e
      let done (op : Op) (c : Instr) (new : Nat) : Prop :=
        t.addr % e = 0 → s.clean (t.addr / 256) = true → s.serves op q .data (t.addr / 32) = true →
        ∃ u : State, exec c s = .next (u.emit (.cpl t.tag false false false (s.bytesAt t.addr e))) ∧ u.numberAt t.addr e = new % 2 ^ (8 * e) ∧
          (∀ a, a < t.addr ∨ t.addr + e ≤ a → readByte u.mem a = readByte s.mem a) ∧ (∀ r, u.slate r = s.slate r) ∧ u.out = s.out
      ∀ v cmp : BitVec 64,
        done (.add ⟨ty, 0, true⟩) (.atomicopFetchadd t wide v) (old + v.toNat) ∧
        done (.swap ty k) (.atomicopSwap t wide v) v.toNat ∧
        done (.cas ty k) (.atomicopCas t (if wide then 1 else 0) cmp v)
          (if old = cmp.toNat % 2 ^ (8 * e) then v.toNat else old)) ∧
    (∀ cmp v, exec (.atomicopCas t 2 cmp v) s = .next ((s.hostDiscard t.np 1 t.addr).emit (.cpl t.tag false true false [])))

/-! ### Arbiters and the canal -/

/-- An arbiter without a grant decides for a master of the lowest class among those its quota windows do not mask (all of them in a new
window, where every one is masked), of the masters that request at it; where none does it parks. A grant under way issues its next beat.
A shore that is held counts as busy, as does a drain with work. A grant that has run its beats ends, a full window opens afresh, and a
backoff count that nobody used for 4,096 T-cycles is 1 again (R60, R62, R79 to R86, R89). Said without a power cap. What the decision
takes from its operands and what from the state is log entry 11. What a command does whose condition does not hold, and that a timed
command lets the time until it is due pass first, are the model's choices (log entry 2). -/
def Obligations.ArbitersGrant : Prop :=
  (∀ (s : State) (a : ArbId) (ms : List Master), (s.arb (arbKey a)).active = false →
    let x := s.arb (arbKey a)
    let cfg := arbCfgOf s a
    let cs := contenders s a ms
    let held : Prop := x.holdFrom ≤ s.pw.now ∧ s.pw.now < x.holdTo
    let g := if x.closed then (0, 0, 0, 0) else x.g
    let open_ := if cs.all (fun m => masked cfg g (masterClass s a cfg m)) then cs
      else cs.filter fun m => !masked cfg g (masterClass s a cfg m)
    (held → exec (.arbDecision a ms) s = .next (s.countArb a 0x56)) ∧
    (¬held → cs = [] →
      exec (.arbDecision a ms) s =
        .next (s.modArb (arbKey a) fun x => { x with active := false, parked := true, withheld := 0, want := 0 })) ∧
    (¬held → cs ≠ [] → s.draining = true → exec (.arbDecision a ms) s = .next (s.countArb a 0x56)) ∧
    (¬held → cs ≠ [] → s.draining = false → s.weir.cap = 0 →
      ∃ t, ∃ m ∈ open_, exec (.arbDecision a ms) s = .next t ∧ (t.arb (arbKey a)).active = true ∧ (t.arb (arbKey a)).last = m.idx ∧
        (t.arb (arbKey a)).limit = cfg.burstM1.toNat + 1 ∧ (∀ m' ∈ open_, masterClass s a cfg m ≤ masterClass s a cfg m') ∧
        (∀ j, j ≠ arbKey a → t.arb j = s.arb j) ∧ t = { s with arbs := t.arbs, stops := t.stops, ring := t.ring, cnt := t.cnt })) ∧
  (∀ (s : State) (a : ArbId) (ms : List Master) (m : Contender), s.weir.cap = 0 → (s.arb (arbKey a)).active = true →
    ¬((s.arb (arbKey a)).holdFrom ≤ s.pw.now ∧ s.pw.now < (s.arb (arbKey a)).holdTo) →
    (contenders s a ms).find? (fun m => m.idx = (s.arb (arbKey a)).last) = some m →
    ((s.arb (arbKey a)).fb = true ∨ (s.arb (arbKey a)).beats < (s.arb (arbKey a)).limit ∨ (s.arb (arbKey a)).xr ≠ 0) →
    unitTaken s a m = false →
      ∃ t, exec (.arbDecision a ms) s = .next t ∧
        t.arb (arbKey a) = { s.arb (arbKey a) with
          beats := (s.arb (arbKey a)).beats + 1, withheld := 0, want := 0, xr := m.more, xrLabel := m.label
          xrAt := if m.xread then s.pw.now + 1 else (s.arb (arbKey a)).xrAt } ∧
        (∀ j, j ≠ arbKey a → t.arb j = s.arb j) ∧ t = { s with arbs := t.arbs, stops := t.stops, ring := t.ring, cnt := t.cnt }) ∧
  (∀ (s : State) (a : ArbId),
    let x := s.arb (arbKey a)
    (x.active = true → x.fb = false → x.limit ≤ x.beats → x.xr = 0 →
      exec (.burstLimit a) s = .next ((s.modArb (arbKey a) fun x => { x with active := false, xr := 0 }).countArb a 0x54)) ∧
    (x.active = false ∨ x.fb = true ∨ x.beats < x.limit ∨ x.xr ≠ 0 → exec (.burstLimit a) s = .next s) ∧
    (x.closed = true →
      exec (.quotaWindowClose a) s = .next (s.modArb (arbKey a) fun x => { x with g := (0, 0, 0, 0), closed := false, mask := 0 })) ∧
    (x.closed = false → exec (.quotaWindowClose a) s = .next s)) ∧
  (∀ (s : State) (rp : RetryPt) (i : Ident) (c x : Nat), s.backoff.find? (fun e => e.1 = (rp, i)) = some ((rp, i), (c, x)) →
    ∃ t, exec (.backoffReset rp i) s = .next t ∧ t.backoffOf rp i = (1, 0) ∧ x + 4096 ≤ t.pw.now ∧
      (∀ rp' i', (rp', i') ≠ (rp, i) → t.backoffOf rp' i' = s.backoffOf rp' i') ∧ t.mem = s.mem ∧ t.out = s.out)

/-- Packets: one that may enter its ring does, in its direction; one that may not is held by its stop, which after 32 T-cycles starves;
a request that reaches a stop with an entry free for its class joins the stop's queue, and one for which its class has none is recorded
and answered with RETRY; a request to its own stop takes no ring; one that fails parity is answered with UNCORRECTABLE, and any at a
stop whose client is absent with ABSENT (R65 to R74, R105, R316). A request that was refused goes again once its backoff has expired
(R71). Responses: one from another die is driven at the port that asked, once, with UNCORRECTABLE where it fails parity (R34, R250,
R316); one on a ring leaves it, and closes its request with what it carries, but for a RETRY, which stays at the stop as a copy to issue
again (R66, R71, R73); a client takes a request from the queue of its own stop, which frees the entry (R105). What a packet takes from
its command and what from the state is log entry 11. What a command does whose condition does not hold, and that a timed command lets
the time until it is due pass first, are the model's choices (log entry 2). -/
def Obligations.PacketsAndResponsesTravel : Prop :=
  (
    (∀ (s : State) (k : Packet), k.src ≠ k.dst →
      let ccw := packetCcw k
      let h := s.asHeld k ccw s.pw.now
      (mayInject s h.1 ccw s.pw.now = true →
        ∃ t, exec (.packetInject k) s = .next t ∧ t.ring = s.ring ++ [⟨h.1, ccw, s.pw.now, h.2⟩] ∧
          t = { s with ring := t.ring, stops := t.stops, cnt := t.cnt }) ∧
      (mayInject s h.1 ccw s.pw.now = false → (s.stop h.1.src).held.any (samePacket ·.k h.1) = false →
        exec (.packetInject k) s = .next (s.modStop h.1.src fun x => { x with held := x.held ++ [⟨h.1, ccw, s.pw.now, h.2⟩] })) ∧
      (mayInject s h.1 ccw s.pw.now = false → (s.stop h.1.src).held.any (samePacket ·.k h.1) = true →
        exec (.packetInject k) s = .next s)) ∧
    (∀ (s : State) (k : Packet), k.src = k.dst → k.resp = false → (s.stop k.src).held.any (samePacket ·.k k) = false →
      (∀ ccw, ((s.stop k.src).out ccw).any (·.k.id = k.id) = false) → s.draining = false → stopAbsent s k.dst = false →
      (s.stop k.dst).refused.find? (fun e => e.1 = k.src.val && e.2.1 = k.idx.val) = none →
      s.backoffOf (.arrival k.dst) (canalIdent k.src k.idx) = (1, 0) →
      freeEntry ((s.stop k.dst).queue.map (·.cls)) (s.shares (queueKindAt k.dst)) (s.classOf k.label) = true →
        ∃ t, exec (.packetInject k) s = .next t ∧ t.ring = s.ring ∧ t.out = s.out ∧
          (t.stop k.dst).queue = (s.stop k.dst).queue ++
            [⟨k.id, k.src, k.idx, s.classOf k.label, k.label, k.row, k.ask, (s.pw.now : Int) - k.age + k.dl.toNat⟩]) ∧
    (∀ (s : State) (p : Fin 47) (ccw : Bool) (h : Transit), (s.stop p).held.find? (fun t => t.ccw = ccw && t.k.src != t.k.dst) = some h →
      (s.stop p).starving ccw = false →
      ∃ t, exec (.stopStarving p ccw) s = .next t ∧ (t.stop p).starving ccw = true ∧ h.at_ + 32 ≤ t.pw.now ∧ t.ring = s.ring ∧ t.mem = s.mem) ∧
    (∀ (s : State) (h : Transit), s.ring.find? (fun t => t.k.id = h.k.id && !t.k.resp) = some h →
      (s.ring.takeWhile (· != h)).any (fun u => !u.k.resp && u.k.src = h.k.src && u.k.idx = h.k.idx && u.k.dst = h.k.dst) = false →
      let k := h.k
      let pt : RetryPt := .arrival k.dst
      let free : Bool := freeEntry ((s.stop k.dst).queue.map (·.cls)) (s.shares (queueKindAt k.dst)) (s.classOf k.label)
      let answered (t : State) (st : Status) : Prop :=
        ∃ u ∈ t.ring ++ (t.stop k.dst).held, u.k.id = k.id ∧ u.k.resp = true ∧ u.k.st = st ∧ u.k.src = k.dst ∧ u.k.dst = k.src
      (stopAbsent s k.dst = false → (s.stop k.dst).refused.find? (fun e => e.1 = k.src.val && e.2.1 = k.idx.val) = none →
        s.backoffOf pt (canalIdent k.src k.idx) = (1, 0) → free = true →
        ∃ t, exec (.packetEject k.id true) s = .next t ∧ t.ring = s.ring.erase h ∧ t.out = s.out ∧ t.mem = s.mem ∧
          h.at_ + 5 + Config.hops k.src k.dst ≤ t.pw.now ∧
          (t.stop k.dst).queue = (s.stop k.dst).queue ++
            [⟨k.id, k.src, k.idx, s.classOf k.label, k.label, k.row, k.ask, h.iss + k.dl.toNat⟩]) ∧
      (k.src ≠ k.dst → (s.stop k.dst).held.any (fun u => u.k.id = k.id && u.k.resp) = false →
        (stopAbsent s k.dst = false → (s.stop k.dst).refused.find? (fun e => e.1 = k.src.val && e.2.1 = k.idx.val) = none →
          s.backoffOf pt (canalIdent k.src k.idx) = (1, 0) → free = false →
          ∃ t, exec (.packetEject k.id true) s = .next t ∧ answered t .retry ∧ t.out = s.out ∧ t.mem = s.mem ∧
            (t.backoffOf pt (canalIdent k.src k.idx)).1 = 2 ∧ (t.stop k.dst).queue = (s.stop k.dst).queue ∧
            (t.stop k.dst).refused.any (fun e => e.1 = k.src.val && e.2.1 = k.idx.val && e.2.2.1 = k.id) = true) ∧
        (stopAbsent s k.dst = false →
          ∃ t, exec (.packetEject k.id false) s = .next t ∧ answered t .uncorrectable ∧ t.out = s.out ∧ t.mem = s.mem) ∧
        (stopAbsent s k.dst = true → ∀ ok,
          ∃ t, exec (.packetEject k.id ok) s = .next t ∧ answered t .absent ∧ t.out = s.out ∧ t.mem = s.mem))) ∧
    (∀ (s : State) (p dst idx : Fin 47) (k : Packet) (e : Nat), (s.stop p).copies.filter (fun c => c.1.dst = dst && c.1.idx = idx) = [(k, e)] →
      p ≠ dst → k.src = p → k.dst = dst →
      let u := (s.reach e).modStop p fun x => { x with copies := x.copies.filter fun c => !(c.1.dst = dst && c.1.idx = idx) }
      let h := u.asHeld k (packetCcw k) u.pw.now
      mayInject u h.1 (packetCcw k) u.pw.now = true →
        ∃ t, exec (.stopReissue p dst idx) s = .next t ∧ t.ring = s.ring ++ [⟨h.1, packetCcw k, u.pw.now, h.2⟩] ∧ e ≤ t.pw.now ∧
          t.out = s.out ∧ t.mem = s.mem)) ∧
  (
    (∀ (s : State) (r : Remote) (c : Src) (st : Status) (d : List Word), s.inbox.find? (·.id = r.id) = none →
      s.remotes.find? (·.id = r.id) = some r → r.src = some c →
        (∃ u : State, exec (.responseEject r.id st d true) s = .next (u.emit (.resp c.port c.tag st d 0 0)) ∧
          u = { s with remotes := s.remotes.filter (·.id != r.id), weir := u.weir }) ∧
        (∃ u : State, exec (.responseEject r.id st d false) s = .next (u.emit (.resp c.port c.tag .uncorrectable d 0 0)) ∧
          u = { s with remotes := s.remotes.filter (·.id != r.id), weir := u.weir, cnt := u.cnt, err := u.err })) ∧
    (∀ (s : State) (h : Transit) (st : Status) (d : List Word), s.inbox.find? (·.id = h.k.id) = none → s.remotes.find? (·.id = h.k.id) = none →
      s.ring.find? (fun t => t.k.id = h.k.id && t.k.resp) = some h →
      let k := h.k
      (k.st ≠ .retry →
        ∃ t, exec (.responseEject k.id st d true) s = .next t ∧ t.ring = s.ring.erase h ∧
          t.out = .packet k.dst k.id k.st k.data k.backoff :: s.out ∧
          (∀ ccw, (t.stop k.dst).out ccw = closeOut k.id k.parts ((s.stop k.dst).out ccw)) ∧ t.mem = s.mem) ∧
      (∃ t, exec (.responseEject k.id st d false) s = .next t ∧ t.ring = s.ring.erase h ∧
        t.out = .packet k.dst k.id .uncorrectable k.data k.backoff :: s.out ∧ t.mem = s.mem) ∧
      (∀ o, k.st = .retry → ((s.stop k.dst).outCw ++ (s.stop k.dst).outCcw).find? (·.k.id = k.id) = some o → o.k.src = k.dst →
        ∃ t, exec (.responseEject k.id st d true) s = .next t ∧ t.ring = s.ring.erase h ∧ t.out = s.out ∧ t.mem = s.mem ∧
          (o.k, t.pw.now + k.backoff) ∈ (t.stop k.dst).copies ∧ (∀ ccw, (t.stop k.dst).out ccw = (s.stop k.dst).out ccw))) ∧
    (∀ (s : State) (p : Fin 47) (id : Nat), Config.posLake p = none → (s.stop p).queue.any (·.id = id) = true →
      ∃ t, exec (.clientTakesRequest p id) s = .next t ∧ t.out = .delivered p id :: s.out ∧ t.ring = s.ring ∧ t.mem = s.mem ∧
        (t.stop p).queue = (s.stop p).queue.filter (·.id != id) ∧
        t.pw.now = s.pw.now + (if (s.stop p).took.1 = s.pw.now ∧ Config.stopRate p ≤ (s.stop p).took.2 then 1 else 0)))

/-! ### The weir, the error log and the counters -/

/-- The period of the power loop, at its end or after more ends that nothing commands, for the sum over the array, logic and AON
supplies of the mean of each one's power readings in the period, or of its last reading where there was none (log entry 15): with no cap
the allowance is 96 and no level is forced; above the cap the allowance falls by the share of power in excess, to no less than 8, and
after eight periods at 8 one level is forced, or `CAP_UNMET` is set with one record; below the cap it rises by 4, and a hundred calm
periods at 96 give a level back (R116). What a command does whose condition does not hold, and that a timed command lets the time until
it is due pass first, are the model's choices (log entry 2). -/
def Obligations.PowerLoopRuns : Prop :=
  ∀ (s : State) (skipped : Nat),
    let u := s.reachNs ((s.pw.ns / 10000 + 1 + skipped) * 10000)
    let w := s.weir
    let cap := w.cap.toNat
    let read (m : Nat) : Nat × Nat := Tab.get (fun _ => (0, 0)) w.pSum m
    let mean (m : Nat) : Nat :=
      if (read m).2 = 0 then bits (Tab.get (fun _ => 0) s.pw.mon m) 32 16 else (read m).1 / (read m).2
    let P := mean 0 + mean 1 + mean 2
    ∃ t, exec (.pcapPeriod skipped) s = .next t ∧ t.weir.pMeas = BitVec.ofNat 16 P ∧
      (cap = 0 → t.weir.allow = 96 ∧ t.weir.limit = 0 ∧ t.weir.low = 0 ∧ t.weir.calm = 0 ∧ t.err = s.err) ∧
      (0 < cap → cap < P →
        t.weir.allow = max 8 (w.allow - (w.allow * (P - cap) + P - 1) / P) ∧ t.weir.calm = 0 ∧
        (t.weir.allow ≠ 8 → t.weir.low = 0 ∧ t.weir.limit = w.limit ∧ t.err = s.err) ∧
        (t.weir.allow = 8 → w.low + 1 ≠ 8 → t.weir.low = w.low + 1 ∧ t.weir.limit = w.limit ∧ t.err = s.err) ∧
        (t.weir.allow = 8 → w.low + 1 = 8 → t.weir.low = 0 ∧
          (w.limit < 4 → t.weir.limit = w.limit + 1 ∧ t.weir.unmet = w.unmet ∧ t.err = s.err) ∧
          (4 ≤ w.limit → t.weir.limit = w.limit ∧ t.weir.unmet = true ∧
            (bit s.err.recEn 6 = true → s.err.intake.length < 16 → t.err.intake = s.err.intake ++ [⟨u.pw.ns, 0, 6, 0, 0x32, 0x7C, 0, 0, 1, 0⟩])))) ∧
      (0 < cap → P ≤ cap →
        t.weir.allow = (if 100 * P < 98 * cap then min 96 (w.allow + 4) else w.allow) ∧ t.weir.low = 0 ∧ t.err = s.err ∧
        (100 * P < 90 * cap → t.weir.allow = 96 → 0 < w.limit → w.calm + 1 = 100 → t.weir.limit = w.limit - 1 ∧ t.weir.calm = 0) ∧
        (100 * P < 90 * cap → t.weir.allow = 96 → 0 < w.limit → w.calm + 1 ≠ 100 → t.weir.limit = w.limit ∧ t.weir.calm = w.calm + 1) ∧
        (90 * cap ≤ 100 * P ∨ t.weir.allow ≠ 96 ∨ w.limit = 0 → t.weir.limit = w.limit ∧ t.weir.calm = 0)) ∧
      (¬(0 < cap ∧ cap < P ∧ t.weir.allow = 8 ∧ w.low + 1 = 8 ∧ 4 ≤ w.limit) → t.weir.unmet = w.unmet) ∧
      t = { u with
        weir := { s.weir with
          pSum := [], pMeas := t.weir.pMeas, allow := t.weir.allow, limit := t.weir.limit, unmet := t.weir.unmet, low := t.weir.low, calm := t.weir.calm }
        pw := { u.pw with goal := t.pw.goal }, err := t.err }

/-- The error log. A record enters the ring at `HEAD` with `SEQ` = `HEAD`, in the place of the oldest unread one, counted as lost in its
class, where the ring holds 64; the first one is kept apart. Its class's interrupt is raised where it is enabled and 1 ms has passed
since the last one, else it waits. Held corrections are reported when 1 ms has passed since their source's last record, a class's
waiting interrupt is raised when 1 ms has passed since its last one, late requests are reported no more than once in 1 ms; a report is
discarded where its class is not recorded, and lost where the intake is full. A read pointer moves no further than `HEAD`; a write of 1
clears what was lost and frees the first record (R114, R320 to R323). That a late record names the stop, the class and the label is the
model's choice (log entry 15). What a command does whose condition does not hold, and that a timed command lets the time until it is due
pass first, are the model's choices (log entry 2). -/
def Obligations.ErrorLogRecords : Prop :=
  (∀ (s : State) (r : Rec),
    (bit s.err.recEn r.cls = false → s.report r = s) ∧
    (bit s.err.recEn r.cls = true → s.err.intake.length < 16 → s.report r = { s with err := { s.err with intake := s.err.intake ++ [r] } }) ∧
    (bit s.err.recEn r.cls = true → 16 ≤ s.err.intake.length → ∃ l, s.report r = { s with err := { s.err with lost := true, lostC := l } } ∧
      Tab.get (fun _ => 0) l r.cls = satAdd max32 (Tab.get (fun _ => 0) s.err.lostC r.cls) 1)) ∧
  (∀ s : State, s.err.intake = [] → exec .recordEnter s = .next s) ∧
  (∀ (s : State) (r : Rec) (rest : List Rec), s.err.intake = r :: rest →
    let unread := (s.err.head + 2 ^ 32 - s.err.tail) % 2 ^ 32
    let r' : Rec := { r with seq := s.err.head }
    let last := Tab.get (fun _ => none) s.err.lastIbi r.cls
    let waits : Prop := ∃ t0, last = some t0 ∧ s.pw.ns < t0 + 1000000
    ∃ t, exec .recordEnter s = .next t ∧ t.err.intake = rest ∧ t.err.head = (s.err.head + 1) % 2 ^ 32 ∧
      Tab.get (fun _ => none) t.err.ring (s.err.head % 64) = some r' ∧
      (∀ k, k ≠ s.err.head % 64 → Tab.get (fun _ => none) t.err.ring k = Tab.get (fun _ => none) s.err.ring k) ∧
      t.err.first = (if s.err.firstV then s.err.first else some r') ∧ t.err.firstV = true ∧
      (unread < 64 → t.err.tail = s.err.tail ∧ t.err.lost = s.err.lost ∧ t.err.lostC = s.err.lostC) ∧
      (64 ≤ unread → t.err.tail = (s.err.tail + 1) % 2 ^ 32 ∧ t.err.lost = true ∧
        ∀ o, Tab.get (fun _ => none) s.err.ring (s.err.tail % 64) = some o →
          Tab.get (fun _ => 0) t.err.lostC o.cls = satAdd max32 (Tab.get (fun _ => 0) s.err.lostC o.cls) 1) ∧
      (bit s.err.ibiEn r.cls = false → t.i3c = s.i3c ∧ t.err.ibiPend = s.err.ibiPend) ∧
      (bit s.err.ibiEn r.cls = true → waits → r.cls < 8 → t.i3c = s.i3c ∧ bit t.err.ibiPend r.cls = true) ∧
      (bit s.err.ibiEn r.cls = true → ¬waits → r.cls < 8 → bit t.err.ibiPend r.cls = false ∧
        Tab.get (fun _ => none) t.err.lastIbi r.cls = some s.pw.ns ∧
        Tab.get (fun _ => none) t.i3c.pend r.cls = some (BitVec.ofNat 32 t.err.head)) ∧
      t = { s with
        err := { s.err with
          intake := t.err.intake, head := t.err.head, tail := t.err.tail, lost := t.err.lost, lostC := t.err.lostC, first := t.err.first,
          firstV := t.err.firstV, ring := t.err.ring, lastIbi := t.err.lastIbi, ibiPend := t.err.ibiPend }
        i3c := { s.i3c with pend := t.i3c.pend } }) ∧
  (∀ (s : State) (k : Nat), let c := Tab.get (fun _ => Corr.reset) s.err.corr k
    (∀ t0 r, c.last = some t0 → c.first = some r → c.held ≠ 0 →
      let u := s.reachNs (t0 + 1000000)
      exec (.corrInterval k) s = .next ({ u with err := { s.err with
        corr := Tab.set (fun _ => Corr.reset) s.err.corr k ⟨some (t0 + 1000000), 0, none⟩ } }.report
          { r with time := t0 + 1000000, count := min max32 c.held })) ∧
    (c.last = none ∨ c.first = none ∨ c.held = 0 → exec (.corrInterval k) s = .next s)) ∧
  (∀ (s : State) (c : Fin 8),
    let u := match Tab.get (fun _ => none) s.err.lastIbi c.val with | some t0 => s.reachNs (t0 + 1000000) | none => s
    (bit s.err.ibiPend c = false → exec (.ibiInterval c) s = .next s) ∧
    (bit s.err.ibiPend c = true →
      ∃ t, exec (.ibiInterval c) s = .next t ∧ bit t.err.ibiPend c = false ∧
        (∀ t0, Tab.get (fun _ => none) s.err.lastIbi c.val = some t0 → t0 + 1000000 ≤ u.pw.ns) ∧
        (bit s.err.ibiEn c = true → Tab.get (fun _ => none) t.err.lastIbi c.val = some u.pw.ns ∧
          Tab.get (fun _ => none) t.i3c.pend c.val = some (BitVec.ofNat 32 s.err.head)) ∧
        (bit s.err.ibiEn c = false → t.err.lastIbi = s.err.lastIbi ∧ t.i3c = s.i3c) ∧
        t = { u with err := { s.err with lastIbi := t.err.lastIbi, ibiPend := t.err.ibiPend }, i3c := { s.i3c with pend := t.i3c.pend } })) ∧
  (∀ (s : State) (c : Fin 4), let l := Tab.get (fun _ => Late.reset) s.weir.late c.val
    let u := match l.since with | some t0 => s.reachNs (t0 + 1000000) | none => s
    (l.pending = 0 → exec (.lateRecordInterval c) s = .next s) ∧
    (l.pending ≠ 0 → exec (.lateRecordInterval c) s = .next ({ u with
      weir := { s.weir with late := Tab.set (fun _ => Late.reset) s.weir.late c.val { l with since := some u.pw.ns, pending := 0 } } }.report
        ⟨u.pw.ns, 0, 7, 0, l.pos, 0x7C, 0, c.val, l.pending, l.label⟩)) ∧
    (∀ t0, l.since = some t0 → t0 + 1000000 ≤ u.pw.ns)) ∧
  (∀ (s : State) (src : Src) (v : BitVec 32), s.opens src 0x30014 4 = true →
    let far := (v.toNat + 2 ^ 32 - s.err.tail) % 2 ^ 32
    let unread := (s.err.head + 2 ^ 32 - s.err.tail) % 2 ^ 32
    (s.privileged src = false → exec (.errTailWrite src v) s = .next (s.reply src .nackOwner)) ∧
    (s.privileged src = true → far ≤ unread →
      exec (.errTailWrite src v) s = .next ({ s with err := { s.err with tail := v.toNat } }.reply src .ok)) ∧
    (s.privileged src = true → unread < far → exec (.errTailWrite src v) s = .next (s.rejected src 0x30014 0))) ∧
  (∀ (s : State) (src : Src) (v : BitVec 32), s.opens src 0x30008 4 = true →
    exec (.errStatClear src v) s = .next ({ s with err := { s.err with
      lost := s.err.lost && !bit v 0, lostC := if bit v 0 then [] else s.err.lostC, firstV := s.err.firstV && !bit v 1 } }.reply src .ok))

/-- Counters: a privileged write sets a counter's configuration, with an event, a qualifier and a direction that its set has, or its
value, while no snapshot runs; what is written counts from the next T-cycle. A snapshot copies every counter as it stands at the end of
its T-cycle; at its release the counts that it held back are added, and an entry to DEEP that waited for it begins (R348, R381 to R390).
That event code 0 may be configured is read from the rules in log entry 24. What a command does whose condition does not hold, and that
a timed command lets the time until it is due pass first, are the model's choices (log entry 2). -/
def Obligations.CountersConfigured : Prop :=
  (∀ (s : State) (src : Src) (e i : Nat) (k : CSet), cntSetOf e = some (k, i) →
    let u := (s.reply src .ok).elapse 1
    (∀ v : BitVec 32, s.opens src (0x40000 + e) 4 = true → s.privileged src = true →
      let refused (d : Nat) : Prop := exec (.cntCfgWrite src e v) s = .next (s.rejected src (0x40000 + e) d)
      (s.cnt.busy = true → refused 0) ∧
      (s.cnt.busy = false → eventListed k (bits v 0 8) = true → qualListed k (bits v 24 6) = true → ¬(k = .canal ∧ bits v 30 2 = 3) →
        exec (.cntCfgWrite src e v) s = .next (u.setCtr e { u.ctr e with cfg := v &&& 0xFF03F7FF, nz := 0 })) ∧
      (s.cnt.busy = false → eventListed k (bits v 0 8) = false → refused 1) ∧
      (s.cnt.busy = false → eventListed k (bits v 0 8) = true → qualListed k (bits v 24 6) = false → refused 2) ∧
      (s.cnt.busy = false → eventListed k (bits v 0 8) = true → qualListed k (bits v 24 6) = true → k = .canal → bits v 30 2 = 3 →
        refused 3)) ∧
    (∀ v : BitVec 64, s.opens src (0x40000 + e + 8) 8 = true → s.privileged src = true →
      (s.cnt.busy = true → exec (.cntValWrite src e v) s = .next (s.rejected src (0x40000 + e + 8) 0)) ∧
      (s.cnt.busy = false →
        exec (.cntValWrite src e v) s = .next (u.setCtr e { u.ctr e with val := bits v 0 48, wrap := false })))) ∧
  (∀ (s : State) (src : Src) (v : BitVec 32), s.opens src 0x40000 4 = true → s.privileged src = true →
    let u := (s.reply src .ok).elapse 1
    (bit v 0 = true → s.cnt.busy = false →
      ∃ t, exec (.dailiesSnapshot src v) s = .next t ∧ t.cnt.busy = true ∧ t.cnt.due = s.pw.now + 139 ∧ t.cnt.page = u.cnt.ctrs ∧
        t.cnt.seqA = (s.cnt.seq + 1) % 2 ^ 32 ∧ t.cnt.time = s.pw.ns ∧ t.cnt.level = s.pw.cur ∧ t.cnt.clrWrap = bit v 1 ∧
        (bit v 1 = false → t.cnt.ctrs = u.cnt.ctrs) ∧ t.cnt.seq = s.cnt.seq ∧ t.cnt.halt = s.cnt.halt ∧ t.cnt.epoch = s.cnt.epoch ∧
        t.out = .reg src.port src.tag .ok 0 :: s.out ∧ t = { u with cnt := t.cnt }) ∧
    (bit v 0 = true → s.cnt.busy = true → exec (.dailiesSnapshot src v) s = .next (s.rejected src 0x40000 0)) ∧
    (bit v 0 = false →
      exec (.dailiesSnapshot src v) s = .next { u with cnt := { u.cnt with clrWrap := bit v 1 } })) ∧
  (∀ s : State, s.cnt.busy = false → exec .snapshotRelease s = .next s) ∧
  (∀ s : State, s.cnt.busy = true → Tab.wf cntDefault s.cnt.ctrs = true →
    let u := s.reach s.cnt.due
    ∃ t : State, t.cnt.busy = false ∧ t.cnt.done = true ∧ t.cnt.seq = s.cnt.seqA ∧ t.cnt.seqB = s.cnt.seqA ∧
      (∀ k, (t.ctr k).pend = 0 ∧ (t.ctr k).cfg = (u.ctr k).cfg ∧ (t.ctr k).val = ((u.ctr k).val + (u.ctr k).pend) % 2 ^ 48) ∧
      t.cnt.page = s.cnt.page ∧ t = { u with cnt := t.cnt } ∧
      (s.pw.deep ≠ 1 → exec .snapshotRelease s = .next t) ∧
      (s.pw.deep = 1 → exec .snapshotRelease s = .next (t.reach (t.pw.now + 1)).deepDrain))

/-! ### Levels -/

/-- A level change. It starts where the target differs from the level in force: voltages first for a faster level, the drain point in
the next T-cycle for a slower one. Each step moves one supply by at most 10 mV after its 1,000 ticks, the array first up and last down.
Once nothing is left to drain and every row request has had its DV the divider switches, and 4 ns later the new level is in force. A
drain that has run for 65,536 T-cycles is given up at the old level, with one record. What the drain held then goes on
(`resumeService`), and where it held nothing, nothing does (R327, R329, R335 to R337). What an abandoned drain leaves behind is the
model's choice (log entry 19). What a command does whose condition does not hold, and that a timed command lets the time until it is due
pass first, are the model's choices (log entry 2). -/
def Obligations.LevelChangeRuns : Prop :=
  (∀ (s : State) (m : Fin 4) (mv cur pwr : BitVec 16),
    let read := Tab.get (fun _ => ((0 : Nat), (0 : Nat))) s.weir.pSum m.val
    exec (.monitorUpdate m mv cur pwr) s =
      .next { s with
        pw := { s.pw with mon := Tab.set (fun _ => 0) s.pw.mon m.val (pwr ++ cur ++ mv : BitVec (16 + 16 + 16)) }
        weir := { s.weir with
          pSum := if m.val = 3 then s.weir.pSum else Tab.set (fun _ => (0, 0)) s.weir.pSum m.val (read.1 + pwr.toNat, read.2 + 1) } }) ∧
  (∀ s : State, (s.targetLevel = s.pw.cur → exec .levelChangeStart s = .next s) ∧
    (s.targetLevel ≠ s.pw.cur → s.targetLevel ≠ s.pw.goal → s.pw.busy = false → s.tm.ready = true → s.pw.deep = 0 → s.pw.logOk = true →
      s.pw.refOk = true →
      exec .levelChangeStart s = .next { s with pw := { s.pw with
        busy := true, goal := s.targetLevel, switching := false, stepNs := s.pw.ns
        phase := if s.targetLevel < s.pw.cur then 1 else 2
        drainAt := if s.targetLevel < s.pw.cur then s.pw.drainAt else s.pw.now + 1 } })) ∧
  (∀ s : State, s.pw.busy = true → s.pw.phase = 1 ∨ s.pw.phase = 3 →
    let arr := Config.vddArr s.pw.goal
    let log := Config.vddLog s.pw.goal
    let u := s.reachNs (s.pw.stepNs + 1000)
    ∃ t, exec .voltageStep s = .next t ∧ s.pw.stepNs + 1000 ≤ t.pw.ns ∧ t.pw.stepNs = s.pw.stepNs + 1000 ∧
      ((s.pw.phase = 1 ∧ s.pw.arrMv ≠ arr) ∨ (s.pw.phase = 3 ∧ s.pw.logMv = log) →
        t.pw.arrMv = stepMv s.pw.arrMv arr ∧ t.pw.logMv = s.pw.logMv) ∧
      ((s.pw.phase = 1 ∧ s.pw.arrMv = arr) ∨ (s.pw.phase = 3 ∧ s.pw.logMv ≠ log) →
        t.pw.arrMv = s.pw.arrMv ∧ t.pw.logMv = stepMv s.pw.logMv log) ∧
      (¬(t.pw.arrMv = arr ∧ t.pw.logMv = log) → t.pw.phase = s.pw.phase ∧ t.pw.busy = true ∧ t.i3c = s.i3c) ∧
      (t.pw.arrMv = arr → t.pw.logMv = log →
        (s.pw.phase = 1 → t.pw.phase = 2 ∧ t.pw.busy = true ∧ t.pw.drainAt = t.pw.now + 1 ∧ t.pw.switching = false) ∧
        (s.pw.phase = 3 → t.pw.phase = 0 ∧ t.pw.busy = false ∧ t.pw.done = true)) ∧
      t.out = .voltage t.pw.arrMv t.pw.logMv :: s.out ∧
      t = { u with
        pw := { u.pw with
          arrMv := t.pw.arrMv, logMv := t.pw.logMv, stepNs := t.pw.stepNs, phase := t.pw.phase, busy := t.pw.busy, done := t.pw.done,
          drainAt := t.pw.drainAt, switching := t.pw.switching }
        i3c := { s.i3c with pend := t.i3c.pend }, out := t.out }) ∧
  (∀ s : State, s.pw.busy = true → s.pw.phase = 2 → s.pw.switching = false → drained s = true →
    let u := s.reach (max s.pw.drainAt (s.lastDv fun _ => true))
    exec .drainComplete s = .next { u with pw := { u.pw with switching := true, lastDrain := min 0xFFFF (u.pw.now - s.pw.drainAt) } }) ∧
  (∀ s : State, s.pw.busy = true → s.pw.phase = 2 → s.canonical = true →
    (s.pw.switching = true →
      let slower : Bool := s.pw.cur < s.pw.goal
      ∃ t : State, exec .dividerSwitchEnd s = .next t.resumeService ∧ t.pw.cur = s.pw.goal ∧ t.pw.ns = s.pw.ns + 4 ∧
        t.pw.switching = false ∧
        (slower = true → t.pw.phase = 3 ∧ t.pw.busy = true ∧ t.pw.done = s.pw.done) ∧
        (slower = false → t.pw.phase = 0 ∧ t.pw.busy = false ∧ t.pw.done = true) ∧
        (∀ n, t.mte n = { s.mte n with due := (t.mte n).due }) ∧
        t = { s with
          pw := { s.pw with cur := t.pw.cur, ns := t.pw.ns, switching := false, stepNs := t.pw.stepNs, phase := t.pw.phase, busy := t.pw.busy
                            done := t.pw.done }
          mtes := t.mtes, i3c := { s.i3c with pend := t.i3c.pend } }) ∧
    (s.pw.switching = false → drained s = false →
      let u := s.reach (s.pw.drainAt + 65536)
      ∃ t : State, exec .drainAbandon s = .next t.resumeService ∧ t.pw.cur = s.pw.cur ∧ t.pw.busy = false ∧ t.pw.phase = 0 ∧
        t.pw.drainTo = true ∧ t.pw.lastDrain = 0xFFFF ∧ t.pw.arrMv = Config.vddArr s.pw.cur ∧ t.pw.logMv = Config.vddLog s.pw.cur ∧
        t.pw.req = s.pw.req ∧
        (bit s.err.recEn 6 = true → s.err.intake.length < 16 →
          t.err.intake = s.err.intake ++ [⟨u.pw.ns, 0, 6, 0, Config.mgmtPos, 0x7C, 0, 0, 1, 0⟩]) ∧
        (∀ n, t.mte n = { s.mte n with due := (t.mte n).due }) ∧
        t.out = .voltage t.pw.arrMv t.pw.logMv :: s.out ∧
        t = { u with
          pw := { u.pw with busy := false, phase := 0, drainTo := true, lastDrain := t.pw.lastDrain, arrMv := t.pw.arrMv, logMv := t.pw.logMv }
          mtes := t.mtes, err := t.err, i3c := { s.i3c with pend := t.i3c.pend }, out := t.out })) ∧
  (∀ s : State, s.still → s.pw.held = [] → (∀ n, (s.lake n).waiters = []) → s.resumeService = s)

/-! ### Lake power -/

/-- A privileged write of a lake's power register stores its fields; one that changes the state asked for starts the transition that
leads there: IDLE at once where no work keeps the lake awake, a wake of 20 T-cycles from IDLE, DRAINING towards RET or OFF with the
lake's windows closing, a wake from RET or OFF. A lake in transition or under a march test, a request for RET of a lake that is OFF, for
OFF of a lake that a reel or its Spring pins, or for anything but OFF of a failed lake, is rejected (R131, R340 to R345, R354). What
DRAINING releases is what waited there; where nothing did, the windows alone change. -/
def Obligations.LakeStatesRequested : Prop :=
  (∀ (s : State) (src : Src) (n : Fin 24) (v : BitVec 32), s.opens src (0x10100 + 8 * n) 4 = true → s.privileged src = true →
    let r := bits v 0 2
    let x := s.lp n
    let y : LakePower := { x with
      req := BitVec.ofNat 2 r, autoIdle := bit v 2, wakeReq := bit v 3
      idleDelay := if bits v 16 16 = 0 then x.idleDelay else BitVec.ofNat 16 (bits v 16 16) }
    let becomes (z : LakePower) : Prop := exec (.lakeStateReq src n v) s = .next ((s.modLp n fun _ => z).reply src .ok)
    let refused (k : Nat) : Prop := exec (.lakeStateReq src n v) s = .next (s.rejected src (0x10100 + 8 * n) k)
    (r = x.req.toNat → (r ≠ 3 → s.failedLake n = false) → becomes y) ∧
    (r ≠ x.req.toNat → x.state.transit = true → refused 1) ∧
    (r ≠ x.req.toNat → x.state.transit = false → (s.mte n).busy = true → refused 2) ∧
    (r ≠ x.req.toNat → x.state.transit = false → (s.mte n).busy = false →
      (r = 2 → x.state = .off → refused 4) ∧
      (r = 3 → s.pinned n = true → refused 5) ∧
      (r ≠ 3 → ¬(r = 2 ∧ x.state = .off) → s.failedLake n = true → refused 6) ∧
      (r ≠ 3 → s.failedLake n = false →
        (r = 0 → x.state = .on → becomes y) ∧ (r = 1 → x.state = .idle → becomes y) ∧ (r = 2 → x.state = .ret → becomes y) ∧
        (r = 0 → x.state = .idle → x.waking = true → becomes y) ∧
        (r = 1 → x.state = .on → becomes (if lakeQuietForIdle s n then { y with state := .idle, waking := false } else y)) ∧
        (r = 0 → x.state = .idle → x.waking = false →
          ∃ t, exec (.lakeStateReq src n v) s = .next t ∧ t.lp n = { y with waking := true, due := s.pw.now + 20 } ∧
            (∀ k, k ≠ n.val → t.lp k = s.lp k) ∧ t.out = .reg src.port src.tag .ok 0 :: s.out ∧
            t = { s with lpow := t.lpow, cnt := t.cnt, out := t.out }) ∧
        (r ≤ 1 → x.state = .ret → becomes { y with state := .waking, fromOff := false, due := 0, dueNs := s.pw.ns + 6000 }) ∧
        (r ≤ 1 → x.state = .off → becomes { y with state := .waking, fromOff := true, due := 0, dueNs := s.pw.ns + 40000 })) ∧
      (r = 3 → s.pinned n = false → x.state = .off → becomes y) ∧
      (r = 3 → s.pinned n = false → x.state = .ret →
        becomes { y with state := .entering, toOff := true, wakePend := false, dueNs := s.pw.ns + 1000 }) ∧
      (r = 2 ∧ s.failedLake n = false ∨ r = 3 ∧ s.pinned n = false → x.state = .on ∨ x.state = .idle →
        exec (.lakeStateReq src n v) s = .next (((s.modLp n fun _ => y).drainLake n (decide (r = 3)) false).reply src .ok)))) ∧
  (∀ (s : State) (n : Fin 24) (off back : Bool), s.still → (s.lp n).held = [] → (s.lake n).waiters = [] →
    (∀ k < 16, ((s.lake n).take k).state = .free) →
    let t := s.drainLake n off back
    t.lp n = { s.lp n with
      state := .draining, toOff := off, deepBack := back, waking := false, wakePend := false, due := s.pw.now + 1 } ∧
    (∀ k, k ≠ n.val → t.lp k = s.lp k) ∧
    (∀ w, t.win w = if (s.win w).lake.toNat = n ∧ (s.win w).state = .open then
      { s.win w with state := .closing, cause := 1, atClose := s.pw.now } else s.win w) ∧
    t = { s with lpow := t.lpow, wins := t.wins })

/-- A lake goes down: once everything accepted before is done, with its DV, it is ENTERING, for 2 µs towards RET and 1 µs towards OFF,
then there; a wake that came meanwhile begins in the next T-cycle. An ON lake goes to IDLE after its delay without work (R341, R342,
R347). A lake wakes: 20 T-cycles from IDLE; 6 µs from RET with its data, marks and slates; 40 µs and 528 T-cycles from OFF, with every
row zero, unmarked and EMPTY. Its owner, share mask, protection mode and shore splits are what they were. What waited for the wake then
goes on, and where nothing did, nothing does; during a level change's drain it waits on, before what came after it; a per-lake reset
that waited for the wake begins in the next T-cycle (R336, R341, R344, R345, R347, R359). How the events of one lake follow one another
is read from the rules in log entry 20. What a command does whose condition does not hold, and that a timed command lets the time until
it is due pass first, are the model's choices (log entry 2). -/
def Obligations.LakesGoDownAndWake : Prop :=
  (
    ∀ (s : State) (n : Fin 24),
      let x := s.lp n
      (x.state = .draining → lakeDrained s n = true →
        let u := s.reach (max x.due (s.lastDv fun k => k / 4 = n.val))
        ∃ t, exec (.lakeDrainComplete n) s = .next t ∧
          t.lp n = { x with state := .entering, dueNs := u.pw.ns + if x.toOff then 1000 else 2000 } ∧ (∀ k, k ≠ n.val → t.lp k = s.lp k) ∧
          (s.pw.deep ≠ 1 → t.pw = u.pw) ∧
          t = { u with lpow := t.lpow, pw := { u.pw with deepTimed := t.pw.deepTimed, deepDueNs := t.pw.deepDueNs } }) ∧
      (x.state = .draining → lakeDrained s n = false → exec (.lakeDrainComplete n) s = .next s) ∧
      (x.state = .entering →
        let u := s.reachNs x.dueNs
        (x.wakePend = false →
          exec (.lakeEntryEnd n) s =
            .next (u.modLp n fun x => { x with state := if x.toOff then .off else .ret, wakePend := false })) ∧
        (x.wakePend = true →
          ∃ t, exec (.lakeEntryEnd n) s = .next t ∧ t.pw.now = u.pw.now + 1 ∧
            t.lp n = { x with
              req := 0, state := LkState.waking, wakePend := false, fromOff := x.toOff, due := 0
              dueNs := t.pw.ns + if x.toOff then 40000 else 6000 } ∧
            (∀ k, k ≠ n.val → t.lp k = s.lp k) ∧
            t = { s with pw := t.pw, lakes := t.lakes, springs := t.springs, cnt := t.cnt, lpow := t.lpow })) ∧
      (s.canonical = true → x.state = .on → x.autoIdle = true ∨ x.req = 1 → lakeQuietForIdle s n = true →
        exec (.autoIdle n) s =
          .next ((s.reach ((s.lake n).idleFrom + x.idleDelay.toNat)).modLp n fun x => { x with state := .idle, waking := false })) ∧
      (x.state ≠ .on → exec (.autoIdle n) s = .next s)) ∧
  (
    (∀ (s : State) (n : Fin 24),
      ((s.lp n).state = .idle → (s.lp n).waking = false →
        exec (.idleWake n) s = .next ((s.countLake n 0x0E).modLp n fun x => { x with waking := true, due := s.pw.now + 20 })) ∧
      ((s.lp n).state ≠ .idle → exec (.idleWake n) s = .next s) ∧
      ((s.lp n).state = .ret → (s.lp n).wakeReq = true →
        exec (.lakeWake n) s = .next (s.modLp n fun x =>
          { x with req := 0, state := LkState.waking, fromOff := false, due := 0, dueNs := s.pw.ns + 6000 })) ∧
      ((s.lp n).state = .ret → (s.lp n).wakeReq = false → exec (.lakeWake n) s = .next s) ∧
      ((s.lp n).state = .draining ∨ (s.lp n).state = .entering →
        exec (.lakeWake n) s = .next (s.modLp n fun x => { x with wakePend := true })) ∧
      ((s.lp n).state = .on ∨ (s.lp n).state = .idle ∨ (s.lp n).state = LkState.waking ∨ (s.lp n).state = .off →
        exec (.lakeWake n) s = .next s)) ∧
    (∀ (s : State) (n : Fin 24), (s.lp n).state = .idle →
      let u0 := s.reach (s.lp n).due
      let u := (u0.modLp n fun x => { x with state := .on, waking := false, held := [] }).modLake n fun l => { l with idleFrom := u0.pw.now }
      ((s.lp n).waking = false → exec (.idleWakeEnd n) s = .next s) ∧
      ((s.lp n).waking = true → u0.draining = true →
        exec (.idleWakeEnd n) s = .next { u with pw := { u.pw with held := (s.lp n).held ++ u.pw.held } }) ∧
      ((s.lp n).waking = true → u0.draining = false →
        exec (.idleWakeEnd n) s = .next ((u.proceedAll (s.lp n).held).wakeLake n).takeUp)) ∧
    (∀ (s : State) (n : Fin 24), s.canonical = true → (s.lp n).state = LkState.waking →
      let on : Prop := (s.lp n).req = 0 ∧ (s.lp n).deepBack = false
      let mine : Prop := s.tm.lrWait = true ∧ s.tm.lrTarget = n.val
      ∃ u : State, (s.lp n).dueNs ≤ u.pw.ns ∧
        u.lp n = { s.lp n with state := if on then .on else .idle, waking := false, deepBack := false } ∧ (∀ k, k ≠ n.val → u.lp k = s.lp k) ∧
        ((s.lp n).fromOff = true →
          (∀ a, readByte u.mem a = if rowAddr (gRow n 0) ≤ a ∧ a < rowAddr (gRow (n + 1) 0) then 0 else readByte s.mem a) ∧
          (∀ r, u.tag r = if gRow n 0 ≤ r ∧ r < gRow (n + 1) 0 then RowTag.reset else s.tag r)) ∧
        ((s.lp n).fromOff = false →
          u.mem = s.mem ∧
          (∀ r, lakeOf r = n → u.slate r = if (s.lake n).wakeSweep ∧ s.slate r = .reserved then .stale else s.slate r) ∧
          (∀ r, lakeOf r = n → (u.tag r).mark = (s.tag r).mark)) ∧
        (∀ k, (u.lake k).owner = (s.lake k).owner ∧ (u.lake k).share = (s.lake k).share ∧ (u.lake k).wMode = (s.lake k).wMode ∧
          (u.lake k).aSplit = (s.lake k).aSplit ∧ (u.lake k).bSplit = (s.lake k).bSplit) ∧
        u = { s with pw := u.pw, lakes := u.lakes, springs := u.springs, cnt := u.cnt, lpow := u.lpow, mem := u.mem, rows := u.rows } ∧
        (mine → exec (.lakeWakeEnd n) s = .next ((u.reach (u.pw.now + 1)).resetLake n)) ∧
        (¬mine → ¬on → exec (.lakeWakeEnd n) s = .next (if (s.lp n).held = [] then u else u.wakeIdle n)) ∧
        (¬mine → on →
          let x := u.modLp n fun x => { x with held := [] }
          (u.draining = true → exec (.lakeWakeEnd n) s = .next { x with pw := { x.pw with held := (s.lp n).held ++ x.pw.held } }) ∧
          (u.draining = false → exec (.lakeWakeEnd n) s = .next ((x.proceedAll (s.lp n).held).wakeLake n).takeUp))) ∧
    (∀ (s : State) (n : Fin 24), s.still → (s.lake n).waiters = [] → ((s.proceedAll []).wakeLake n).takeUp = s))

/-- `PWR_WAKE`. A write by a privileged agent, or by a principal that owns every lake named, wakes those that are IDLE or in RET, leaves
those that are ON or waking, and makes those on their way down wake as soon as they are there; any other write completes with
NACK_OWNER; one that names a lake that is OFF or absent is rejected with NACK_STATE and wakes none. Reads return zero (R346). -/
def Obligations.WakeRegisterWritten : Prop :=
  (∀ (s : State) (src : Src) (v : BitVec 32), s.opens src 0x10300 4 = true →
    let may : Prop := s.privileged src = true ∨ ∀ n < 24, bit v n = true → (s.lake n).owner = (whoOf s src.port).pr
    let bad : Prop := ∃ n < 24, bit v n = true ∧ (Config.lakePresent s.variant n = false ∨ (s.lp n).state = .off)
    (¬may → exec (.pwrWakeWrite src v) s = .next (s.reply src .nackOwner)) ∧
    (may → bad → exec (.pwrWakeWrite src v) s = .next (s.rejected src 0x10300 0)) ∧
    (may → ¬bad → ∃ t, exec (.pwrWakeWrite src v) s = .next t ∧
      (∀ n < 24, bit v n = true →
        ((s.lp n).state = .idle → (s.lp n).waking = false → t.lp n = { s.lp n with waking := true, due := s.pw.now + 20 }) ∧
        ((s.lp n).state = .ret →
          t.lp n = { s.lp n with req := 0, state := LkState.waking, fromOff := false, due := 0, dueNs := s.pw.ns + 6000 }) ∧
        ((s.lp n).state = .draining ∨ (s.lp n).state = .entering → t.lp n = { s.lp n with wakePend := true }) ∧
        ((s.lp n).state = .on ∨ (s.lp n).state = LkState.waking ∨ (s.lp n).waking = true ∧ (s.lp n).state = .idle → t.lp n = s.lp n)) ∧
      (∀ n, 24 ≤ n ∨ bit v n = false → t.lp n = s.lp n) ∧
      t.out = .reg src.port src.tag .ok 0 :: s.out ∧ t = { s with lpow := t.lpow, cnt := t.cnt, out := t.out })) ∧
  (∀ (s : State) (n : Fin 24), ctlRead s 0x10300 4 = 0 ∧
    ((s.lp n).state = .draining → (s.lp n).wakePend = true → lakeDrained s n = true →
      ∃ t, exec (.lakeDrainComplete n) s = .next t ∧ (t.lp n).state = .entering ∧ (t.lp n).wakePend = true) ∧
    ((s.lp n).state = .entering → (s.lp n).wakePend = true →
      ∃ t, exec (.lakeEntryEnd n) s = .next t ∧ (t.lp n).state = LkState.waking))

/-- DEEP. Entry drains every lake that is ON or IDLE towards RET; 12 µs after the last of them is down the basin is invalid, the
supplies are at 0.55 V and off, and the sequencer stands. Exit takes 8 µs and restores the supplies of the level in force; the lakes
return to IDLE with their data, control state is as a warm reset leaves it, and what was held at the ports then goes on. A wake during
entry is remembered (R209, R347 to R349). What the exit leaves of control state is read from the rules in log entry 21. What a command
does whose condition does not hold, and that a timed command lets the time until it is due pass first, are the model's choices (log
entry 2). -/
def Obligations.DeepEnteredAndLeft : Prop :=
  (∀ (s : State) (src : Src) (v : BitVec 32), s.opens src 0x10400 4 = true → s.privileged src = true →
    let busy : Prop := ∃ n < Config.lakes, (s.lp n).state.transit = true ∨ (s.mte n).busy = true
    (bit v 0 = false → exec (.deepEnter src v) s = .next (s.reply src .ok)) ∧
    (bit v 0 = true → busy → exec (.deepEnter src v) s = .next (s.rejected src 0x10400 2)) ∧
    (bit v 0 = true → ¬busy → s.cnt.busy = true →
      exec (.deepEnter src v) s =
        .next ({ s with pw := { s.pw with deep := 1, deepPend := false, deepTimed := false } }.reply src .ok)) ∧
    (bit v 0 = true → ¬busy → s.cnt.busy = false →
      exec (.deepEnter src v) s =
        .next ({ s with pw := { s.pw with deep := 1, deepPend := false, deepTimed := false } }.reply src .ok).deepDrain) ∧
    (bit v 0 = true → ¬busy → s.cnt.busy = false → s.still →
      (∀ n, n < Config.lakeCount s.variant → (s.lp n).held = [] ∧ (s.lake n).waiters = [] ∧ ∀ k < 16, ((s.lake n).take k).state = .free) →
      ∃ t, exec (.deepEnter src v) s = .next t ∧ t.pw.deep = 1 ∧ t.pw.deepPend = false ∧
        (∀ n, n < Config.lakeCount s.variant → t.lp n =
          if (s.lp n).state = .on ∨ (s.lp n).state = .idle then
            { s.lp n with state := .draining, toOff := false, deepBack := true, waking := false, wakePend := false, due := s.pw.now + 1 }
          else s.lp n) ∧
        t.out = .reg src.port src.tag .ok 0 :: s.out ∧
        t = { s with
          lpow := t.lpow, wins := t.wins, out := t.out
          pw := { s.pw with deep := 1, deepPend := false, deepTimed := t.pw.deepTimed, deepDueNs := t.pw.deepDueNs } })) ∧
  (∀ s : State, s.pw.deep = 1 → s.pw.deepTimed = true → s.basin.fills = [] → s.basin.busy = false →
    (∀ n, n < Config.lakeCount s.variant → (s.lp n).state = .ret ∨ (s.lp n).state = .off) →
    let u := s.reachNs s.pw.deepDueNs
    ∃ t, exec .deepEntryEnd s = .next t ∧ t.basin.lines = [] ∧ t.fw.running = false ∧ t.pw.arrMv = 550 ∧ t.pw.logMv = 0 ∧
      (s.pw.deepPend = false → t.pw.deep = 2) ∧
      (s.pw.deepPend = true → t.pw.deep = 3 ∧ t.pw.deepDueNs = u.pw.ns + 8000 ∧ t.pw.deepPend = false) ∧
      t = { u with
        basin := t.basin, fw := t.fw
        pw := { u.pw with deep := t.pw.deep, deepPend := t.pw.deepPend, deepTimed := t.pw.deepTimed, deepDueNs := t.pw.deepDueNs
                          arrMv := 550, logMv := 0 } }) ∧
  (∀ (s : State) (w : WakeSource),
    (s.pw.deep = 1 → exec (.deepWake w) s = .next { s with pw := { s.pw with deepPend := true } }) ∧
    (s.pw.deep = 2 → exec (.deepWake w) s =
      .next { s with pw := { s.pw with deep := 3, deepDueNs := s.pw.ns + 8000, deepTimed := true } }) ∧
    (s.pw.deep ≠ 1 → s.pw.deep ≠ 2 → exec (.deepWake w) s = .next s)) ∧
  (∀ s : State, s.canonical = true → s.pw.deep = 3 →
    ∃ t : State, exec .deepExitEnd s = .next t.replayAll.takeUp ∧ t.pw.held = s.pw.held ∧ s.pw.deepDueNs ≤ t.pw.ns ∧ t.pw.deep = 0 ∧ t.pw.cur = s.pw.cur ∧ t.pw.req = s.pw.req ∧
      t.pw.arrMv = Config.vddArr s.pw.cur ∧ t.pw.logMv = Config.vddLog s.pw.cur ∧
      (∀ n, t.lp n = if n < Config.lakeCount s.variant ∧ (s.lp n).deepBack = true then
        { s.lp n with state := .idle, deepBack := false, waking := false } else s.lp n) ∧
      (∀ r, (t.tag r).slate = if lakeOf r < Config.lakeCount s.variant ∧ (s.lp (lakeOf r)).deepBack = true ∧ (s.tag r).slate = .reserved
        then .stale else (s.tag r).slate) ∧
      (∀ n, n < Config.lakes → (t.lake n).billLabel = (s.lake n).billLabel ∧ (t.lake n).billEn = (s.lake n).billEn ∧
        (t.lake n).owner = mgmtPrincipal) ∧
      (bit s.i3c.ibiMask 5 = true → Tab.get (fun _ => none) t.i3c.pend 0x15 = some (BitVec.ofNat 32 t.pw.ns)) ∧
      t.mem = s.mem ∧ t.cues = [] ∧ t.wins = [] ∧ t.reels = [] ∧ t.ctxs = [] ∧ t.basin = Basin.reset ∧ t.err.ring = s.err.ring ∧
      t.tm.epId = s.tm.epId ∧ t.tm.epValid = s.tm.epValid ∧ t.fw = s.fw ∧ t.meter = s.meter ∧ t.out = s.out)

/-! ### Bring-up, resets and the march test -/

/-- Bring-up. Cold reset leaves the reset state, with the supplies off, but for the boot store, the meter, the strap and what is
attached; on the release the timestamp starts from 0; the clocks locked, fuse repair takes 8,192 M-cycles, and binds the spares that the
fuses name; then every present lake is marched; then rows are initialised, the lakes are IDLE, and in the next T-cycle the block is
READY (R352, R353, R369). That bring-up starts at the end of cold reset is log entry 4. What a command does whose condition does not
hold, and that a timed command lets the time until it is due pass first, are the model's choices (log entry 2). -/
def Obligations.BringUpRuns : Prop :=
  (∀ s : State, ∃ t, exec .coldReset s = .next t ∧ t.mem = [] ∧ t.fw.slotA = s.fw.slotA ∧ t.fw.slotB = s.fw.slotB ∧
    t.fw.running = false ∧ t.meter.energy = s.meter.energy ∧ t.meter.recs = s.meter.recs ∧
    (∀ n, t.lake n = { Lake.reset with draws := (t.lake n).draws }) ∧
    t = { State.reset with
      pending := s.pending, variant := s.variant, lakes := t.lakes, pw := { Power.reset with logOk := false }
      tm := { Global.reset with aonUp := false, step := 1, pkgDie := s.tm.pkgDie }
      fences := s.fences, clientsOff := s.clientsOff, fw := t.fw, i3c := { I3c.reset with inst := s.i3c.inst }, meter := t.meter, nextId := t.nextId
      fresh := t.fresh, out := t.out }) ∧
  (∀ s : State,
    (s.tm.aonUp = false → ∃ t, exec .aonRelease s = .next t ∧ t.pw = Power.reset ∧ t.tm = { s.tm with aonUp := true, step := 3 } ∧
      t.meterNow = s.meterNow ∧ t = { s with pw := t.pw, tm := t.tm, meter := t.meter }) ∧
    (s.tm.aonUp = true → exec .aonRelease s = .next s) ∧ (s.tm.step ≠ 4 → ∀ ws, exec (.fuseRepairDone ws) s = .next s) ∧
    (s.tm.step ≠ 6 → exec .eccInitDone s = .next s) ∧ (s.tm.step ≠ 9 → exec .warmReinitDone s = .next s) ∧
    (s.tm.step = 3 → exec .pllLock s = .next { s with tm := { s.tm with step := 4, stepDueNs := s.pw.ns + 32768 } }) ∧
    (s.tm.step ≠ 3 → exec .pllLock s = .next s)) ∧
  (∀ (s : State) (ws : List FuseWord), s.tm.step = 4 →
    let u := s.reachNs s.tm.stepDueNs
    ∃ t, exec (.fuseRepairDone ws) s = .next t ∧ t.tm.step = 5 ∧
      t.tm.fuseErr = (s.tm.fuseErr || ws.any fun w => w.bad && Config.lakePresent s.variant w.lake) ∧
      (∀ n, n < Config.lakeCount s.variant → (t.mte n).busy = true ∧ (t.mte n).phase = 1 ∧ (t.mte n).modeRun = false ∧
        (t.mte n).cold = true ∧ (t.mte n).bg = 0xF ∧ (t.mte n).due = u.pw.now + 20816) ∧
      (∀ (n : Fin 24) (p : Fin 96) (i : Fin 8) (r : Fin 512) (j : Fin 2) (g : Fin 36),
        Config.lakePresent s.variant n = true → ws = [⟨n, p, [(i, r)], [(j, g)], false⟩] →
        ((t.mte n).pond p).row i = ⟨true, false, false, r⟩ ∧ ((t.mte n).pond p).col j = ⟨true, false, false, g⟩) ∧
      t = { u with mtes := t.mtes, tm := { u.tm with step := 5, fuseErr := t.tm.fuseErr } }) ∧
  (∀ s : State, s.tm.step = 6 ∨ s.tm.step = 9 → s.canonical = true →
    let u := s.reach s.tm.stepDue
    let starts (n : Nat) : Prop :=
      n < Config.lakeCount s.variant ∧ ((s.lp n).state = .on ∨ (s.lp n).state = .idle) ∧ s.failedLake n = false
    ∃ t, exec (if s.tm.step = 6 then .eccInitDone else .warmReinitDone) s = .next t ∧
      t.tm = { s.tm with ready := true, step := 0 } ∧ t.pw.now = u.pw.now + (if s.tm.step = 6 then 1 else 0) ∧
      (∀ n, starts n →
        t.lp n = { s.lp n with state := .idle, waking := false } ∧
        t.lake n = { s.lake n with
          tokens := (t.lake n).tokens, scrubFrom := u.pw.now, idleFrom := u.pw.now, steps := [], stepWait := [], wbs := [], marks := [] } ∧
        (∀ a, rowAddr (gRow n 0) ≤ a → a < rowAddr (gRow (n + 1) 0) → readByte t.mem a = 0) ∧
        (∀ r, gRow n 0 ≤ r → r < gRow (n + 1) 0 → t.tag r = RowTag.reset)) ∧
      (∀ n, ¬starts n →
        t.lp n = s.lp n ∧ t.lake n = { s.lake n with tokens := (t.lake n).tokens } ∧
        (∀ a, rowAddr (gRow n 0) ≤ a → a < rowAddr (gRow (n + 1) 0) → readByte t.mem a = readByte s.mem a) ∧
        (∀ r, gRow n 0 ≤ r → r < gRow (n + 1) 0 → t.tag r = s.tag r)) ∧
      (bit s.i3c.ibiMask 0 = true → Tab.get (fun _ => none) t.i3c.pend 0x10 = some t.tmStatus) ∧
      t = { s with
        pw := t.pw, lakes := t.lakes, springs := t.springs, cnt := t.cnt, lpow := t.lpow, mem := t.mem, rows := t.rows, tm := t.tm
        i3c := { s.i3c with pend := t.i3c.pend } })

/-- What a warm reset leaves. By its pin or a write of 1 to `TM_RESET`, outside cold bring-up and while no other runs, READY falls for
528 T-cycles; takes, cues, windows, reels, contexts, arbiters and packets are gone, every lake belongs to the management controller, a
level change is given up at the level in force, the sequencer stands; the endpoint, the error ring and, where no write-back is dropped,
memory stay. Loss of VDD_LOG outside DEEP ends what is in progress (R33, R325, R356 to R358, R362). Which registers a warm reset leaves,
where the spec does not say, is log entry 23. What a command does whose condition does not hold, and that a timed command lets the time
until it is due pass first, are the model's choices (log entry 2). -/
def Obligations.WarmResetRuns : Prop :=
  let warm (s t : State) (cause : Nat) : Prop :=
    t.tm.ready = false ∧ t.tm.step = 9 ∧ t.tm.stepDue = s.pw.now + 528 ∧ t.tm.rstCause = cause ∧
    t.tm.warmCount = satAdd max32 s.tm.warmCount 1 ∧ t.tm.epId = s.tm.epId ∧ t.tm.epValid = s.tm.epValid ∧
    t.cues = [] ∧ t.wins = [] ∧ t.reels = [] ∧ t.ctxs = [] ∧ t.arbs = [] ∧ t.ring = [] ∧ t.flights = [] ∧ t.signals = [] ∧ t.remotes = [] ∧
    t.basin = Basin.reset ∧ (∀ n, n < Config.lakes → (t.lake n).owner = mgmtPrincipal ∧ (t.lake n).takes = [] ∧ (t.lake n).waiters = []) ∧
    (∀ n, (t.spring n).descs = [] ∧ (t.spring n).slots = [] ∧ (t.spring n).bound = false) ∧
    t.pw.busy = false ∧ t.pw.phase = 0 ∧ t.pw.cur = s.pw.cur ∧ t.pw.req = s.pw.req ∧ t.pw.now = s.pw.now ∧ t.pw.ns = s.pw.ns ∧
    t.fw.running = false ∧ t.fw.slotA = s.fw.slotA ∧ t.fw.slotB = s.fw.slotB ∧ t.meter = s.meter ∧ t.err.ring = s.err.ring ∧
    t.err.head = s.err.head ∧ t.cnt.epoch = satAdd max32 s.cnt.epoch 1 ∧
    ((∀ n < Config.lakes, (s.lake n).wbs = []) → t.mem = s.mem)
  (∀ s : State, s.canonical = true →
    (s.tm.step = 0 → s.tm.aonUp = true → ∃ t, exec .warmResetPin s = .next t ∧ warm s t 1) ∧
    (s.tm.step ≠ 0 ∨ s.tm.aonUp = false → exec .warmResetPin s = .next s)) ∧
  (∀ (s : State) (src : Src) (v : BitVec 32), s.canonical = true → s.opens src 0x30 4 = true → s.privileged src = true →
    (s.tm.step = 0 → s.tm.aonUp = true → bit v 0 = true → ∃ t, exec (.warmResetWrite src v) s = .next t ∧ warm s t 2) ∧
    (s.tm.step ≠ 0 ∨ s.tm.aonUp = false → exec (.warmResetWrite src v) s = .next (s.reply src .ok)) ∧
    (bit v 0 = false → exec (.warmResetWrite src v) s = .next (s.reply src .ok))) ∧
  (∀ s : State,
    (s.pw.deep = 2 → exec .vddLogLoss s = .next s) ∧
    (s.pw.deep ≠ 2 → ∃ t, exec .vddLogLoss s = .next t ∧ t.pw.logOk = false ∧ t.pw.held = [] ∧ t.hostHeld = [] ∧ t.signals = [] ∧
      t.flights = [] ∧ t.ring = [] ∧ t.remotes = [] ∧ t.cues = s.cues ∧ t.reels = s.reels ∧ t.ctxs = s.ctxs ∧ t.tm = s.tm ∧
      t.meter = s.meter ∧ t.err.ring = s.err.ring ∧ ((∀ n < Config.lakes, (s.lake n).wbs = []) → t.mem = s.mem)))

/-- A per-lake reset. A write that names an absent lake is answered with ABSENT, whoever sends it. A privileged write that names a lake
ON, IDLE or waking, without a march test or a conversion, while no other per-lake reset runs, starts one; else it is rejected. At the
reset point the lake's page, Spring, arbiters and arrival queue are reset, its RESERVED rows are STALE, every other row keeps its slate
and all of memory its bytes; 529 T-cycles later it is done. The reset of a waking lake starts as its wake ends (R15, R91, R120, R289,
R356, R359, R360). What the reset releases is what waited there; where nothing did, the second part says all that it changes. What a
command does whose condition does not hold, and that a timed command lets the time until it is due pass first, are the model's choices
(log entry 2). -/
def Obligations.LakeResetRuns : Prop :=
  (∀ (s : State) (src : Src) (v : BitVec 32), s.opens src 0x40 4 = true →
    let n := bits v 0 5
    let refused (k : Nat) : Prop := exec (.lakeReset src v) s = .next (s.rejected src 0x40 k)
    (Config.lakePresent s.variant n = false → exec (.lakeReset src v) s = .next (s.reply src .absent)) ∧
    (Config.lakePresent s.variant n = true → s.privileged src = false → exec (.lakeReset src v) s = .next (s.reply src .nackOwner)) ∧
    (Config.lakePresent s.variant n = true → s.privileged src = true →
      (s.tm.lrBusy = true → refused 1) ∧
      (s.tm.lrBusy = false →
        (s.failedLake n = true → refused 2) ∧
        (s.failedLake n = false →
          ((s.lp n).state.down = true → (s.lp n).state ≠ .waking → refused 3) ∧
          (((s.lp n).state = .on ∨ (s.lp n).state = .idle ∨ (s.lp n).state = .waking) →
            ((s.mte n).busy = true → refused 4) ∧
            ((s.mte n).busy = false → (s.lake n).convBusy = true → refused 5) ∧
            ((s.mte n).busy = false → (s.lake n).convBusy = false →
              let begun (wait : Bool) : State := { s with tm := { s.tm with
                lrLake := BitVec.ofNat 5 n, lrTarget := n, lrBusy := true, lrWait := wait } }
              ((s.lp n).state = LkState.waking → exec (.lakeReset src v) s = .next ((begun true).reply src .ok)) ∧
              ((s.lp n).state ≠ LkState.waking →
                exec (.lakeReset src v) s = .next (((begun false).resetLake n).reply src .ok)))))))) ∧
  (∀ (s : State) (n : Fin 24), s.still → (s.lp n).held = [] → (s.lake n).waiters = [] → (s.lake n).wbs = [] → (s.lake n).marks = [] →
    let t := s.resetLake n
    t.tm.lrWait = false ∧ t.tm.lrDue = s.pw.now + 529 ∧ t.tm.lrBusy = s.tm.lrBusy ∧ t.tm.lrTarget = s.tm.lrTarget ∧
    t.lake n = { (s.lake n).afterReset with inReset := true } ∧ t.spring n = (s.spring n).afterReset ∧
    (∀ k, k ≠ n.val → t.lake k = { s.lake k with steps := (t.lake k).steps } ∧ t.spring k = s.spring k) ∧
    (∀ r, t.slate r = if lakeOf r = n ∧ s.slate r = .reserved then .stale else s.slate r) ∧
    (∀ w, (s.win w).lake.toNat = n → (s.win w).active = true → (t.win w).state = .closed ∧ (t.win w).cause = 2) ∧
    (∀ w, ¬((s.win w).lake.toNat = n ∧ (s.win w).active = true) → t.win w = s.win w) ∧
    (∀ e, t.reel e = if (s.reel e).base.toNat / Config.rowsPerLake = n then { s.reel e with enable := false } else s.reel e) ∧
    (∀ k, 16 * n ≤ k → k < 16 * n + 16 → t.arb k = Arb.reset (arbHigh k)) ∧ t.basin = s.basin.forget n ∧
    (t.stop (Config.lakePos n)).queue = [] ∧ (t.stop (Config.lakePos n)).refused = [] ∧
    ((s.stop (Config.lakePos n)).queue = [] → t.cnt = s.cnt) ∧
    t.mem = s.mem ∧ t.lpow = s.lpow ∧ t.cues = s.cues ∧ t.pw = s.pw ∧ t.err = s.err) ∧
  (∀ s : State,
    (s.tm.lrBusy = true → s.tm.lrWait = false →
      let n := s.tm.lrTarget
      let u := s.reach s.tm.lrDue
      exec .lakeResetDone s = .next { (u.modLake n fun l => { l with inReset := false, idleFrom := u.pw.now }).modLp n fun x =>
        { x with state := .on, waking := false } with tm := { u.tm with lrBusy := false, lrDone := true } }) ∧
    (s.tm.lrBusy = false ∨ s.tm.lrWait = true → exec .lakeResetDone s = .next s))

/-- The march test. A privileged write starts a run on a quiescent lake that is ON or IDLE, with its length by mode and backgrounds; the
test phase, the analysis of 64 T-cycles, the remap of the rows bound and, after a destroying run, the initialisation of 528 T-cycles
follow. What waited for the lake's wake is judged against the run. A failing cell is bound to the first free spare row; a lake with a
pond that cannot be repaired is failed and OFF (R354, R366 to R374). That the rows found bad are handled as the test ends, and by whom,
is the model's choice (log entry 22). What a command does whose condition does not hold, and that a timed command lets the time until it
is due pass first, are the model's choices (log entry 2). -/
def Obligations.MarchRuns : Prop :=
  (∀ (s : State) (src : Src) (n : Fin 24) (v : BitVec 32), s.opens src (pageOff n 0x8000) 4 = true → s.privileged src = true →
    let bg := BitVec.ofNat 4 (bits v 2 4)
    let refused (k : Nat) : Prop := exec (.marchStart src n v) s = .next (s.rejected src (pageOff n 0x8000) k)
    (bit v 0 = false →
      exec (.marchStart src n v) s = .next ((s.modMte n fun m => { m with mode := bit v 1, bg := bg }).reply src .ok)) ∧
    (bit v 0 = true →
      ((s.mte n).busy = true → refused 1) ∧
      ((s.mte n).busy = false → bg = 0 → refused 2) ∧
      ((s.mte n).busy = false → bg ≠ 0 → s.failedLake n = true → refused 3) ∧
      ((s.mte n).busy = false → bg ≠ 0 → s.failedLake n = false → quiescent s n = false → refused 4) ∧
      ((s.mte n).busy = false → bg ≠ 0 → s.failedLake n = false → quiescent s n = true → (s.lp n).state ≠ .on → (s.lp n).state ≠ .idle →
        refused 5) ∧
      ((s.mte n).busy = false → bg ≠ 0 → s.failedLake n = false → quiescent s n = true → (s.lp n).state = .on ∨ (s.lp n).state = .idle →
        ((s.lake n).convBusy = true → refused 6) ∧
        ((s.lake n).convBusy = false → s.tm.lrBusy = true → s.tm.lrTarget = n.val → refused 7)) ∧
      ((s.mte n).busy = false → bg ≠ 0 → s.failedLake n = false → quiescent s n = true → (s.lp n).state = .on ∨ (s.lp n).state = .idle →
        (s.lake n).convBusy = false → ¬(s.tm.lrBusy = true ∧ s.tm.lrTarget = n.val) →
        exec (.marchStart src n v) s = .next ((((s.modMte n fun m => { m with
          mode := bit v 1, bg := bg, busy := true, phase := 1, modeRun := bit v 1, cold := false, start := s.pw.now, fails := []
          due := s.pw.now + if bit v 1 then 3 * 520 * (3 + 11 * backgrounds bg) + 16 else 5200 * backgrounds bg + 16 }).modLp n fun x =>
            { x with state := .on, waking := false, held := [] }).proceedAll (s.lp n).held).reply src .ok)))) ∧
  (∀ (s : State) (n : Fin 24) (k : Nat), ¬((s.mte n).busy = true ∧ (s.mte n).phase = k) →
    (k = 1 → ∀ fails, exec (.marchTestDone n fails) s = .next s) ∧ (k = 2 → exec (.marchAnalysisDone n) s = .next s) ∧
    (k = 3 → exec (.marchRemapDone n) s = .next s) ∧ (k = 4 → exec (.marchInitDone n) s = .next s)) ∧
  (∀ (old : PondRepair) (fails : List (Nat × Nat)),
    (old.unrep = true → (analyse old fails).unrep = true) ∧
    (old.unrep = false → (analyse old []).unrep = false) ∧ (analyse old []).hit = false ∧ (analyse old []).copies = 0 ∧
    (∀ i, (analyse old []).repair.row i = old.row i ∧ (analyse old []).repair.col i = old.col i)) ∧
  (∀ (s : State) (n : Fin 24), (s.mte n).busy = true →
    let m := s.mte n
    let u := s.reach m.due
    ((m.phase = 1 → ∀ fails : List FailCell,
      (m.modeRun = false →
        exec (.marchTestDone n fails) s = .next (u.modMte n fun m => { m with phase := 2, due := u.pw.now + 64, fails := fails })) ∧
      (m.modeRun = true →
        ∃ t, exec (.marchTestDone n fails) s = .next t ∧ t.mte n = { m with phase := 2, due := u.pw.now + 64, fails := fails } ∧
          (∀ k, k ≠ n.val → t.mte k = s.mte k) ∧ t.mem = s.mem ∧ t.lpow = s.lpow ∧ t.pw = u.pw)) ∧
    (m.phase = 2 →
      let verdict (p : Nat) : Verdict := analyse (m.pond p) (pondFails m.fails p)
      let copies := (List.range 96).foldl (fun k p => max k (verdict p).copies) 0
      ((∀ p < 96, (verdict p).unrep = false) →
        ∃ t, exec (.marchAnalysisDone n) s = .next t ∧ (∀ p < 96, (t.mte n).pond p = (verdict p).repair) ∧
          ((t.mte n).result = 1 ↔ ∃ p < 96, (verdict p).hit = true) ∧ (t.mte n).result ≤ 1 ∧
          (m.modeRun = true → copies ≠ 0 → (t.mte n).busy = true ∧ (t.mte n).phase = 3 ∧ (t.mte n).due = u.pw.now + 2 * copies ∧
            t = { u with mtes := t.mtes }) ∧
          (m.modeRun = false → m.cold = false → (t.mte n).busy = true ∧ (t.mte n).phase = 4 ∧ (t.mte n).due = u.pw.now + 528 ∧
            t = { u with mtes := t.mtes }) ∧
          ((m.modeRun = true ∧ copies = 0) ∨ (m.modeRun = false ∧ m.cold = true) →
            t.mte n = { m with
              busy := false, done := true, phase := 0, repair := (t.mte n).repair, result := (t.mte n).result
              cycles := min max32 (u.pw.now - m.start) } ∧
            (s.tm.step = 5 → (∀ k < 24, k ≠ n.val → (s.mte k).busy = false) →
              t.tm = { s.tm with step := 6, stepDue := u.pw.now + 528 }) ∧
            (s.tm.step ≠ 5 ∨ (∃ k < 24, k ≠ n.val ∧ (s.mte k).busy = true) → t.tm = s.tm) ∧
            t = { u with mtes := t.mtes, lakes := t.lakes, tm := t.tm, i3c := { s.i3c with pend := t.i3c.pend } }) ∧
          (∀ k, k ≠ n.val → t.mte k = s.mte k)) ∧
      (∀ (p : Fin 96) (r : Fin 520) (g : Fin 38), r.val < 512 → g.val < 36 → m.fails = [⟨p, r, g⟩] → m.repair = [] → m.modeRun = true →
        ∃ t, exec (.marchAnalysisDone n) s = .next t ∧ ((t.mte n).pond p).row 0 = ⟨true, true, false, r⟩ ∧ (t.mte n).result = 1 ∧
          (t.mte n).phase = 3 ∧ (t.mte n).due = u.pw.now + 2 ∧ t = { u with mtes := t.mtes }) ∧
      (∀ p < 96, (verdict p).unrep = true →
        ∃ t, exec (.marchAnalysisDone n) s = .next t ∧ (t.mte n).busy = false ∧ (t.mte n).result = 2 ∧ t.failedLake n = true ∧
          (t.lp n).state = .off ∧ (t.lp n).req = 3 ∧ (∀ k, k ≠ n.val → t.lp k = s.lp k) ∧ t.wins = s.wins ∧ t.cues = s.cues)) ∧
    (m.phase = 3 →
      ∃ t, exec (.marchRemapDone n) s = .next t ∧
        t.mte n = { m with busy := false, done := true, phase := 0, cycles := min max32 (u.pw.now - m.start) } ∧ t.mem = s.mem ∧ t.rows = s.rows ∧
        t = { u with mtes := t.mtes, lakes := t.lakes, i3c := { s.i3c with pend := t.i3c.pend } }) ∧
    (m.phase = 4 → s.canonical = true →
      ∃ t, exec (.marchInitDone n) s = .next t ∧
        t.mte n = { m with busy := false, done := true, phase := 0, cycles := min max32 (u.pw.now - m.start) } ∧
        (∀ a, readByte t.mem a = if rowAddr (gRow n 0) ≤ a ∧ a < rowAddr (gRow (n + 1) 0) then 0 else readByte s.mem a) ∧
        (∀ r, t.tag r = if gRow n 0 ≤ r ∧ r < gRow (n + 1) 0 then RowTag.reset else s.tag r) ∧
        t = { u with mtes := t.mtes, lakes := t.lakes, mem := t.mem, rows := t.rows, i3c := { s.i3c with pend := t.i3c.pend } })))

/-! ### The sideband -/

/-- Frames. A request frame without an error is held as its request, and discards the response before it; one with a parity error is
answered with RETRY, detail 6. From then until the response is ready the target acknowledges neither reads nor writes. The response once
ready is read as often as asked for, in a frame whose sum is zero; where none was ever made, the frame has `TAG` 0, NACK_STATE and `LEN`
0. A frame whose sum, length or operation does not fit is answered like one with a parity error. An address that is not assigned is not
acknowledged, one called in DEEP begins the exit, and a request for a unit that DEEP takes down, received during the entry, asks for the
exit (R402, R409; frames by R398 to R400). What a command does whose condition does not hold, and that a timed command lets the time
until it is due pass first, are the model's choices (log entry 2). -/
def Obligations.OneRequestHeld : Prop :=
  (∀ (s : State) (mpriv : Bool) (tag op i0 i1 sub o0 o1 l0 l1 chk : Byte) (data : List Byte), ackOf s = .ack →
    let bytes : List Byte := [tag, op, i0, i1, sub, o0, o1, l0, l1] ++ data ++ [chk]
    let r : DictReq := ⟨tag.toNat, op.toNat, i0.toNat + 256 * i1.toNat, sub.toNat, o0.toNat + 256 * o1.toNat, l0.toNat + 256 * l1.toNat,
      data, mpriv⟩
    (sumBytes bytes = 0 → bytes.length ≤ s.i3c.mwl.toNat → (op = 1 ∧ data = [] ∨ op = 2 ∧ data.length = r.len ∨ op = 3 ∧ data = []) →
      let u := if s.pw.deep = 1 ∧ needsWake r = true then s.wakeDeep else s
      exec (.requestFrame bytes true mpriv) s =
        .next { u with i3c := { u.i3c with held := some r, resp := none, ready := false, unread := false } }) ∧
    (sumBytes bytes ≠ 0 ∨ s.i3c.mwl.toNat < bytes.length ∨ (op ≠ 1 ∧ op ≠ 2 ∧ op ≠ 3) ∨ (op ≠ 2 ∧ data ≠ []) ∨ (op = 2 ∧ data.length ≠ r.len) →
      exec (.requestFrame bytes true mpriv) s = .next { s with i3c := { s.i3c with
        held := none, resp := some ⟨tag.toNat, .retry, 6, []⟩, ready := false, unread := false } }) ∧
    (exec (.requestFrame bytes false mpriv) s = .next { s with i3c := { s.i3c with
      err := true, held := none, resp := some ⟨tag.toNat, .retry, 6, []⟩, ready := false, unread := false } })) ∧
  (∀ s : State,
    (∀ r, s.i3c.resp = some r → s.i3c.ready = false →
      exec .dictResponseReady s = .next { s with i3c := { s.i3c with ready := true, unread := true } }) ∧
    (s.i3c.resp = none ∨ s.i3c.ready = true → exec .dictResponseReady s = .next s) ∧
    (s.tm.aonUp = false ∨ s.i3c.hdr = true →
      exec .responseFrameRead s = .next s ∧ ∀ bytes p m, exec (.requestFrame bytes p m) s = .next s) ∧
    (s.tm.aonUp = true → s.i3c.hdr = false → s.i3c.addr ≠ none → s.pw.deep = 1 → s.pw.deepPend = true →
      exec .responseFrameRead s = .next (s.emit .busNack) ∧ ∀ bytes p m, exec (.requestFrame bytes p m) s = .next (s.emit .busNack)) ∧
    (ackOf s = .ack → ∀ r, s.i3c.resp = some r ∨ (s.i3c.resp = none ∧ r = ⟨0, .nackState, 0, []⟩) →
      ∃ c : Byte,
        let bs := numBytes 1 r.tag ++ numBytes 1 (r.status.code + 16 * r.detail) ++ numBytes 2 r.data.length ++ r.data ++ [c]
        sumBytes bs = 0 ∧
          exec .responseFrameRead s = .next { s with i3c := { s.i3c with unread := false }, out := .frame bs :: s.out }) ∧
    (s.tm.aonUp = true → s.i3c.hdr = false →
      s.i3c.addr = none ∨ (s.pw.deep ≠ 2 ∧ (s.i3c.held ≠ none ∨ (s.i3c.resp ≠ none ∧ s.i3c.ready = false) ∨ s.pw.deep = 3)) →
      exec .responseFrameRead s = .next (s.emit .busNack) ∧
      ∀ bytes p m, exec (.requestFrame bytes p m) s = .next (s.emit .busNack)) ∧
    (s.tm.aonUp = true → s.i3c.hdr = false → s.i3c.addr ≠ none → s.pw.deep = 2 →
      exec .responseFrameRead s = .next { s with
        pw := { s.pw with deep := 3, deepDueNs := s.pw.ns + 8000, deepTimed := true }, out := .busNack :: s.out }))

/-- The dictionary serves the request held, by its kind, while the unit behind its entry can take it; the response carries the status of
the entry's read or write. Refused, it changes nothing but the response; a WRITE of the interrupt mask takes effect and is stored, a
READ of the timestamp gives its eight bytes, INFO the sixteen of its entry (R401, R404, R405, R408, R410, R414). Which refusal comes
first is read from the rules in log entry 28. What a command does whose condition does not hold, and that a timed command lets the time
until it is due pass first, are the model's choices (log entry 2). -/
def Obligations.DictionaryServes : Prop :=
  (∀ s : State, (s.i3c.held = none → exec .dictRead s = .next s ∧ exec .dictWrite s = .next s ∧ exec .dictInfo s = .next s) ∧
    (∀ r, s.i3c.held = some r →
      (r.op ≠ 1 ∨ dictMayRun s r = false → exec .dictRead s = .next s) ∧ (r.op ≠ 2 ∨ dictMayRun s r = false → exec .dictWrite s = .next s) ∧
      (r.op ≠ 3 ∨ dictMayRun s r = false → exec .dictInfo s = .next s))) ∧
  ∀ (s : State) (r : DictReq), s.i3c.held = some r → dictMayRun s r = true →
    let serve : Instr := if r.op = 1 then .dictRead else if r.op = 2 then .dictWrite else .dictInfo
    let answered (s' : State) (st : Status) (d : Nat) (data : List Byte) : Prop :=
      exec serve s = .next { s' with i3c := { s'.i3c with
        held := none, resp := some ⟨r.tag, st, d, data⟩, ready := false, unread := false } }
    (r.op = 1 ∨ r.op = 2 ∨ r.op = 3) →
    (∀ st d, firstRefusal (dictRefusals s r) = some (st, d) → answered s st d []) ∧
    (∀ e e', r.op = 3 → firstRefusal (dictRefusals s r) = none → dictEntry r.index = some e → subEntry s.variant e r.index r.sub = some e' →
      answered s .ok 0 (infoBytes s.variant e' r.index r.sub) ∧ (infoBytes s.variant e' r.index r.sub).length = 16) ∧
    (∀ e e', firstRefusal (dictRefusals s r) = none → dictEntry r.index = some e → subEntry s.variant e r.index r.sub = some e' →
      (r.op = 1 → let x := entryRead s e' r.index r.sub
        (x.1.1 = .ok → answered x.2 .ok 0 ((x.1.2.drop r.off).take r.len)) ∧ (x.1.1 ≠ .ok → answered x.2 x.1.1 8 [])) ∧
      (r.op = 2 → let x := entryWrite s e' r.index r.sub r.off r.data
        answered x.2 x.1.1 x.1.2 [])) ∧
    (r.op = 1 → r.index = 0x2008 → r.sub = 0 → r.off = 0 → r.len = 8 → 13 ≤ s.i3c.mrl.toNat →
      answered s .ok 0 (numBytes 8 s.pw.ns)) ∧
    (∀ b : Byte, r.op = 2 → r.index = 0x3008 → r.sub = 0 → r.off = 0 → r.len = 1 → r.data = [b] → r.mpriv = true → s.fw.running = true →
      s.pw.logOk = true →
      answered { s with i3c := { s.i3c with ibiMask := b }, fw := s.fw.store (0x3008 * 256) b.toNat } .ok 0 [])

/-- The common command codes: address assignment with the provisional ID, the enables, the identification and status words, the maximum
lengths, those accepted without effect and those not supported; and HDR, during which the target ignores the bus (R394 to R396).
Hot-Join is asked for every 10 ms while the target has no address and may ask. Of the pending interrupts whose mask allows them and
whose code was not raised within 1 ms, the lowest is raised with its payload and its slot is free; one that is not acknowledged stays
(R396, R411, R412). Common command codes the spec does not describe byte by byte follow the I3C basic specification (log entry 29). What
a command does whose condition does not hold, and that a timed command lets the time until it is due pass first, are the model's choices
(log entry 2). -/
def Obligations.TargetAnswersAndInterrupts : Prop :=
  (
    ∀ (s : State) (a : BitVec 7) (n : BitVec 16) (e h : Bool) (k : Fin 4),
      let i := s.i3c
      let sent (bs : List Byte) (j : I3c) : Host.Outcome State Fault Refusal := .next { s with i3c := j, out := .ccc bs :: s.out }
      let set (j : I3c) : Host.Outcome State Fault Refusal := .next { s with i3c := j }
      let id (bs : List Byte) : Prop := bs.length = 6 ∧
        bs.foldl (fun x b => 256 * x + b.toNat) 0 =
          0x2D9 * 2 ^ 33 + 0x17C9 * 2 ^ 16 + i.inst.toNat * 2 ^ 13 + b2n s.tm.pkgDie * 2 ^ 12 + 1
      let two (x : Nat) : List Byte := [BitVec.ofNat 8 (x / 256), BitVec.ofNat 8 x]
      (s.tm.aonUp = true → i.hdr = false →
        (i.addr = none → ∃ bs, id bs ∧ exec (.entdaa a) s = sent (bs ++ [0x0E, 0x00]) { i with addr := some a }) ∧
        (i.addr ≠ none → exec (.entdaa a) s = .next s) ∧
        exec .rstdaa s = set { i with addr := none } ∧
        exec (.enec e h) s = set { i with enint := i.enint || e, enhj := i.enhj || h } ∧
        exec (.disec e h) s = set { i with enint := i.enint && !e, enhj := i.enhj && !h } ∧
        exec (.setmwl n) s = set { i with mwl := n } ∧ exec (.setmrl n) s = set { i with mrl := n } ∧
        exec .hdrEntry s = set { i with hdr := true } ∧
        (ackOf s = .ack →
          exec (.setnewda a) s = set { i with addr := some a } ∧
          (∃ bs, id bs ∧ exec .getpid s = sent bs i) ∧
          exec .getbcr s = sent [0x0E] i ∧ exec .getdcr s = sent [0x00] i ∧
          exec .getstatus s = sent
            (two (min 15 i.pend.length + 32 * b2n i.err + 256 * b2n s.tm.ready + 512 * b2n i.unread)) { i with err := false } ∧
          exec .getmwl s = sent (two i.mwl.toNat) i ∧ exec .getmrl s = sent (two i.mrl.toNat ++ [5]) i ∧
          exec (.unsupportedCcc true) s = .next (s.emit .busNack))) ∧
      exec .hdrExitPattern s = set { i with hdr := false } ∧
      exec (.entas k) s = .next s ∧ exec (.unsupportedCcc false) s = .next s ∧
      (s.tm.aonUp = false ∨ i.hdr = true →
        exec (.entdaa a) s = .next s ∧ exec (.setnewda a) s = .next s ∧ exec .rstdaa s = .next s ∧ exec (.enec e h) s = .next s ∧
        exec (.setmwl n) s = .next s ∧ exec .getstatus s = .next s ∧ exec .getpid s = .next s)) ∧
  (
    ∀ s : State, s.tm.aonUp = true → s.i3c.hdr = false →
      (s.i3c.addr = none → s.i3c.enhj = true →
        let u := s.reachNs s.i3c.hjNs
        exec .hotJoin s = .next { u with i3c := { s.i3c with hjNs := u.pw.ns + 10000000 }, out := .hotJoin :: s.out }) ∧
      (s.i3c.addr ≠ none ∨ s.i3c.enhj = false → exec .hotJoin s = .next s) ∧
      (∀ (c : Nat) (p : BitVec 32), s.i3c.addr ≠ none → s.i3c.enint = true → Tab.wf (fun _ => none) s.i3c.pend = true →
        Tab.get (fun _ => none) s.i3c.pend c = some p → raisable s c = true →
        (∀ c' < c, Tab.get (fun _ => none) s.i3c.pend c' ≠ none → raisable s c' = false) →
        exec (.ibiRaise true) s = .next { s with
          i3c := { s.i3c with
            pend := Tab.set (fun _ => none) s.i3c.pend c none, last := Tab.set (fun _ => none) s.i3c.last c (some s.pw.ns) }
          out := .ibi c p :: s.out }) ∧
      (s.i3c.addr = none ∨ s.i3c.enint = false → exec (.ibiRaise true) s = .next s) ∧
      exec (.ibiRaise false) s = .next s)

/-! ### The firmware update -/

/-- Staging. A privileged FW_BEGIN outside verification, schedule and trial empties slot B for its version. A chunk of the version
staged is programmed once, at its place, and no other byte of slot B changes; after the last chunk the image is verified. Verification
makes its six checks in order: all passed, the image is STAGED with event 1; else it is REJECTED with the reason and event 2 (R421 to
R423, R428). Open points of staging are log entry 30. What a command does whose condition does not hold, and that a timed command lets
the time until it is due pass first, are the model's choices (log entry 2). -/
def Obligations.ImageStagedAndVerified : Prop :=
  (∀ s : State, s.pw.deep ≠ 0 ∨ s.draining = true →
    (∀ v p, exec (.fwBegin v p) s = .next s) ∧ (∀ bytes p, exec (.fwChunk bytes p) s = .next s)) ∧
  (∀ s : State, s.pw.deep = 0 → s.draining = false →
    (∀ v : BitVec 32,
      exec (.fwBegin v false) s = .next (s.emit (.dict .nackOwner 4)) ∧
      (s.fw.running = false → exec (.fwBegin v true) s = .next (s.emit (.dict .retry 7))) ∧
      (s.fw.running = true → s.pw.logOk = true →
        (s.fw.state = .verifying ∨ s.fw.state = .scheduled ∨ s.fw.state = .trial →
          exec (.fwBegin v true) s = .next (s.emit (.dict .nackState 8))) ∧
        (s.fw.state = .idle ∨ s.fw.state = .receiving ∨ s.fw.state = .staged ∨ s.fw.state = .rejected →
          exec (.fwBegin v true) s = .next { s with
            fw := { s.fw with slotB := [], bitmap := [], version := v, state := .receiving }, out := .dict .ok 0 :: s.out }))) ∧
    (∀ bytes : List Byte, exec (.fwChunk bytes false) s = .next (s.emit (.dict .nackOwner 4))) ∧
    (∀ bytes : List Byte, bytes.length = 1032 → s.fw.running = false → exec (.fwChunk bytes true) s = .next (s.emit (.dict .retry 7))) ∧
    (∀ bytes : List Byte, bytes.length = 1032 → s.fw.running = true → s.pw.logOk = true → s.fw.state = .receiving →
      le bytes 2 4 ≠ s.fw.version.toNat ∨ le bytes 6 2 ≠ 0 ∨ 1024 ≤ le bytes 0 2 →
      exec (.fwChunk bytes true) s = .next (s.emit (.dict .nackState 5))) ∧
    (∀ bytes : List Byte, bytes.length ≠ 1032 → exec (.fwChunk bytes true) s = .next (s.emit (.dict .nackState 3))) ∧
    (∀ (i : Nat) (data : List Byte), i < 1024 → data.length = 1024 → s.fw.running = true → s.pw.logOk = true →
      let bytes := numBytes 2 i ++ numBytes 4 s.fw.version.toNat ++ [0, 0] ++ data
      (s.fw.state ≠ .receiving → exec (.fwChunk bytes true) s = .next (s.emit (.dict .nackState 8))) ∧
      (s.fw.state = .receiving →
        (0 ∈ s.fw.bitmap → s.fw.slotB.length ≤ i → exec (.fwChunk bytes true) s = .next (s.emit (.dict .nackState 5))) ∧
        ((0 ∈ s.fw.bitmap → i < s.fw.slotB.length) →
          (i ∈ s.fw.bitmap → exec (.fwChunk bytes true) s = .next (s.emit (.dict .ok 0))) ∧
          (i ∉ s.fw.bitmap →
            ∃ t, exec (.fwChunk bytes true) s = .next t ∧ t.fw.slotB.bytes (1024 * i) 1024 = data ∧
              (∀ a, a < 1024 * i ∨ 1024 * i + 1024 ≤ a →
                Tab.get (fun _ => (0 : Byte)) t.fw.slotB a = Tab.get (fun _ => (0 : Byte)) s.fw.slotB a) ∧
              t.fw.bitmap = s.fw.bitmap ++ [i] ∧
              (i = 0 → t.fw.headerBad = true → t.fw.state = .rejected ∧ t.fw.reason = 6) ∧
              ((i = 0 → t.fw.headerBad = false) → t.fw.state = (if t.fw.complete then .verifying else .receiving) ∧ t.i3c = s.i3c) ∧
              t.out = .dict .ok 0 :: s.out ∧
              t = { s with
                fw := { s.fw with slotB := t.fw.slotB, bitmap := t.fw.bitmap, state := t.fw.state, reason := t.fw.reason }
                i3c := { s.i3c with pend := t.i3c.pend }, out := t.out }))))) ∧
  (∀ s : State, s.fw.running = false ∨ s.fw.state ≠ .verifying → exec .fwVerify s = .next s) ∧
  (∀ s : State, s.fw.running = true → s.fw.state = .verifying →
    let f := s.fw
    let m := f.slotB
    let checks : List Bool := [m.digestOk, m.signed, decide (f.slotA.version < m.field 8 4), decide (f.arb ≤ m.field 0x10 1),
      decide (m.field 0x0C 4 ≤ f.slotA.version), m.reservedZero]
    ∃ t, exec .fwVerify s = .next t ∧
      (checks.all (fun b => b) = true → t.fw = { f with state := .staged } ∧
        (bit s.i3c.ibiMask 3 = true →
          Tab.get (fun _ => none) t.i3c.pend 0x13 = some (BitVec.ofNat 32 (1 + f.reason * 2 ^ 8 + f.version.toNat % 2 ^ 16 * 2 ^ 16)))) ∧
      (∀ r < 6, (∀ j < r, checks.getD j true = true) → checks.getD r true = false →
        t.fw = { f with state := .rejected, reason := r + 1 } ∧
        (bit s.i3c.ibiMask 3 = true →
          Tab.get (fun _ => none) t.i3c.pend 0x13 = some (BitVec.ofNat 32 (2 + (r + 1) * 2 ^ 8 + f.version.toNat % 2 ^ 16 * 2 ^ 16)))) ∧
      t = { s with fw := t.fw, i3c := { s.i3c with pend := t.i3c.pend } })

/-- Activation. A privileged schedule of the staged version for a time 10 ms to 7 days ahead is accepted while the sibling is current,
out of trial and in range; at that time the sequencer restarts with the update record saying so. A cancel returns a schedule to STAGED,
a revert gives up a trial. An image that starts applies its settings, and does not perform an activation missed by more than 1 ms (R410,
R424, R425, R428, R429). Open points of an activation are log entry 30. What a command does whose condition does not hold, and that a
timed command lets the time until it is due pass first, are the model's choices (log entry 2). -/
def Obligations.ActivationScheduledAndFired : Prop :=
  (∀ s : State,
    (s.pw.deep ≠ 0 ∨ s.draining = true → (∀ bytes p, exec (.fwActivateSchedule bytes p) s = .next s) ∧
      (∀ p, exec (.fwActivateCancel p) s = .next s ∧ exec (.fwActivateRevert p) s = .next s)) ∧
    (s.pw.deep = 0 → s.draining = false → (∀ bytes, exec (.fwActivateSchedule bytes false) s = .next (s.emit (.dict .nackOwner 4))) ∧
      exec (.fwActivateCancel false) s = .next (s.emit (.dict .nackOwner 4)) ∧
      exec (.fwActivateRevert false) s = .next (s.emit (.dict .nackOwner 4))) ∧
    (s.fw.running = false ∨ s.fw.state ≠ .scheduled ∨ s.fw.fired = true → exec .fwActivationFire s = .next s) ∧
    (s.fw.starting = false ∨ s.tm.ready = false ∨ s.pw.deep ≠ 0 ∨ s.draining = true → exec .settingsApply s = .next s) ∧
    (s.fw.starting = true → s.tm.ready = true → s.pw.deep = 0 → s.draining = false →
      let f : Fw := { s.fw.convert with running := true, starting := false }
      let x := applyAll { s with fw := f } (f.bankOf f.cur).vals
      let u : State := { x.2 with fw := { x.2.fw with setOk := x.1 } }
      (u.fw.state ≠ .scheduled ∨ u.fw.fired = true ∨ u.fabricTime ≤ u.fw.at_ + 1000000 → exec .settingsApply s = .next u))) ∧
  (∀ s : State, s.pw.deep = 0 → s.draining = false → s.fw.running = true → s.pw.logOk = true →
    (∀ at_ : Nat, at_ < 2 ^ 64 →
      let bytes := numBytes 4 s.fw.version.toNat ++ numBytes 8 at_ ++ numBytes 20 0
      let go := exec (.fwActivateSchedule bytes true) s
      let inRange : Prop := s.fabricTime + 10000000 ≤ at_ ∧ at_ ≤ s.fabricTime + 604800000000000
      let sibOk : Prop := s.fw.sibValid = true ∧ s.fw.slotB.field 0x16 2 ≤ s.fw.sibIface.toNat ∧ s.fw.sibIface.toNat ≤ s.fw.slotB.field 0x18 2
      (s.fw.state ≠ .staged → go = .next (s.emit (.dict .nackState 8))) ∧
      (s.fw.state = .staged → ¬inRange → go = .next (s.emit (.dict .nackState 5))) ∧
      (s.fw.state = .staged → inRange → s.fw.sibTrial = true →
        go = .next { s with fw := { s.fw with reason := 7 }, out := .dict .nackState 8 :: s.out }) ∧
      (s.fw.state = .staged → inRange → s.fw.sibTrial = false → ¬sibOk →
        go = .next { s with fw := { s.fw with reason := 8 }, out := .dict .nackState 8 :: s.out }) ∧
      (s.fw.state = .staged → inRange → s.fw.sibTrial = false → sibOk →
        go = .next { s with fw := { s.fw with state := .scheduled, at_ := at_, sched := bytes }, out := .dict .ok 0 :: s.out })) ∧
    (s.fw.state = .scheduled → ∃ t, exec (.fwActivateCancel true) s = .next t ∧ t.fw = { s.fw with state := .staged, sched := t.fw.sched } ∧
      t = { s with fw := t.fw, out := .dict .ok 0 :: s.out }) ∧
    (s.fw.state ≠ .scheduled → exec (.fwActivateCancel true) s = .next (s.emit (.dict .nackState 8))) ∧
    (s.fw.state = .trial → ∃ t, exec (.fwActivateRevert true) s = .next t ∧
      t.fw = { s.fw with running := false, starting := false, revert := true, sched := t.fw.sched } ∧
      t = { s with fw := t.fw, out := .dict .ok 0 :: s.out }) ∧
    (s.fw.state ≠ .trial → exec (.fwActivateRevert true) s = .next (s.emit (.dict .nackState 8)))) ∧
  (∀ s : State, s.fw.running = true → s.fw.state = .scheduled → s.fw.fired = false →
    let u := s.reachNs (s.pw.ns + (s.fw.at_ - s.fabricTime))
    exec .fwActivationFire s = .next { u with fw := { s.fw with running := false, starting := false, fired := true } }) ∧
  (∀ s : State, s.fw.starting = true → s.tm.ready = true → s.pw.deep = 0 → s.draining = false → s.fw.state ≠ .trial →
    (s.fw.bankOf s.fw.cur).vals = [] →
      (¬(s.fw.state = .scheduled ∧ s.fw.fired = false ∧ s.fw.at_ + 1000000 < s.fabricTime) →
        exec .settingsApply s = .next { s with fw := { s.fw with running := true, starting := false, setOk := true } }) ∧
      (s.fw.state = .scheduled → s.fw.fired = false → s.fw.at_ + 1000000 < s.fabricTime →
        ∃ t, exec .settingsApply s = .next t ∧
          t.fw = { s.fw with running := true, starting := false, setOk := true, state := .staged, reason := 9 } ∧
          (bit s.i3c.ibiMask 3 = true → Tab.get (fun _ => none) t.i3c.pend 0x13 =
            some (BitVec.ofNat 32 (6 + 9 * 2 ^ 8 + s.fw.version.toNat % 2 ^ 16 * 2 ^ 16))) ∧
          t = { s with fw := t.fw, i3c := { s.i3c with pend := t.i3c.pend } }))

/-- Start and trial. The loader swaps the slots after an activation that fired, and back after a trial that was not confirmed, and
starts the image in slot A where it passes its check; an image that does not start within 1 s is given up. An image in trial is
confirmed once, after 10 minutes, within 20 minutes, and raises the anti-rollback level to its own, 96 at most. The sibling's state is
current for 10 ms after each message (R425 to R429). Open points of the start and the trial are log entry 30. What a command does whose
condition does not hold, and that a timed command lets the time until it is due pass first, are the model's choices (log entry 2). -/
def Obligations.LoaderStartsAndTrialEnds : Prop :=
  (∀ s : State, s.tm.ready = true → s.pw.logOk = true → s.pw.deep = 0 → s.fw.running = false → s.fw.starting = false →
    s.fw.stopped = false →
    let f := s.fw
    let payload (ev reason version : Nat) (t : State) : Prop := bit s.i3c.ibiMask 3 = true →
      Tab.get (fun _ => none) t.i3c.pend 0x13 = some (BitVec.ofNat 32 (ev + reason * 2 ^ 8 + version % 2 ^ 16 * 2 ^ 16))
    (f.fired = true → f.slotB.startable = true →
      ∃ t, exec .loaderStart s = .next t ∧ t.fw = { f with
          slotA := f.slotB, slotB := f.slotA, fired := false, state := .trial, trialNs := s.pw.ns, starting := true, startNs := s.pw.ns } ∧
        payload 3 f.reason f.slotB.version t ∧ t = { s with fw := t.fw, i3c := { s.i3c with pend := t.i3c.pend } }) ∧
    (f.fired = true → f.slotB.startable = false → f.slotA.startable = true → f.conv = false →
      ∃ t, exec .loaderStart s = .next t ∧ t.fw = { f with
          fired := false, state := .rejected, reason := 12, revert := false, trialNs := s.pw.ns, starting := true, startNs := s.pw.ns } ∧
        payload 5 12 f.slotB.version t ∧ t = { s with fw := t.fw, i3c := { s.i3c with pend := t.i3c.pend } }) ∧
    (f.fired = false → f.state = .trial → f.conv = false → f.slotB.startable = true →
      let why := if f.revert then 11 else 10
      ∃ t, exec .loaderStart s = .next t ∧ t.fw = { f with
          slotA := f.slotB, slotB := f.slotA, state := .rejected, reason := why, revert := false, starting := true, startNs := s.pw.ns } ∧
        payload 5 why f.slotA.version t ∧ t = { s with fw := t.fw, i3c := { s.i3c with pend := t.i3c.pend } }) ∧
    (f.fired = false → f.state ≠ .trial →
      exec .loaderStart s = .next { s with fw :=
        if f.slotA.startable then { f with starting := true, startNs := s.pw.ns } else { f with stopped := true } })) ∧
  (∀ s : State,
    (s.tm.ready = false ∨ s.pw.logOk = false ∨ s.pw.deep ≠ 0 ∨ s.fw.running = true ∨ s.fw.starting = true ∨ s.fw.stopped = true →
      exec .loaderStart s = .next s) ∧
    (s.fw.starting = false → exec .imageStartTimeout s = .next s) ∧
    (s.fw.running = false ∨ s.fw.state ≠ .trial → exec .fwConfirm s = .next s ∧ exec .trialExpire s = .next s) ∧
    (s.fw.running = false → ∀ iface trial, exec (.sibStatusMsg iface trial) s = .next s)) ∧
  (∀ s : State, s.fw.starting = true →
    let f := s.fw
    let u := s.reachNs (f.startNs + 1000000000)
    (f.state ≠ .trial →
      exec .imageStartTimeout s = .next { u with fw := { f with running := false, starting := false, stopped := true } }) ∧
    (f.state = .trial → f.conv = false → f.slotB.startable = true →
      ∃ t, exec .imageStartTimeout s = .next t ∧ t.fw = { f with
          slotA := f.slotB, slotB := f.slotA, state := .rejected, reason := 12, revert := false, running := false, starting := true
          startNs := u.pw.ns } ∧
        t = { u with fw := t.fw, i3c := { s.i3c with pend := t.i3c.pend } })) ∧
  (∀ s : State, s.fw.running = true → s.fw.state = .trial →
    let f := s.fw
    (f.setOk = true → f.conv = false →
      let u := s.reachNs (f.startNs + 600000000000)
      (u.pw.ns < f.trialNs + 1200000000000 →
        ∃ t, exec .fwConfirm s = .next t ∧ t.fw = { f with arb := min 96 (max f.arb (f.slotA.field 0x10 1)), state := .idle } ∧
          t = { u with fw := t.fw, i3c := { s.i3c with pend := t.i3c.pend } }) ∧
      (f.trialNs + 1200000000000 ≤ u.pw.ns → exec .fwConfirm s = .next u)) ∧
    (f.setOk = false → exec .fwConfirm s = .next s) ∧
    exec .trialExpire s =
      .next { s.reachNs (f.trialNs + 1200000000000) with fw := { f with running := false, starting := false } }) ∧
  (∀ (s : State) (iface : BitVec 16) (trial : Bool),
    let g : Fw := { s.fw with sibValid := true, sibTrial := trial, sibIface := iface, sibNs := s.pw.ns }
    (s.fw.running = true → ¬(trial = true ∧ s.fw.sibTrial = false ∧ s.fw.state = .scheduled ∧ s.fw.fired = false) →
      exec (.sibStatusMsg iface trial) s = .next { s with fw := g }) ∧
    (s.fw.running = true → trial = true → s.fw.sibTrial = false → s.fw.state = .scheduled → s.fw.fired = false →
      ∃ t, exec (.sibStatusMsg iface trial) s = .next t ∧ t.fw = { g with state := .staged, reason := 7 } ∧
        t = { s with fw := t.fw, i3c := { s.i3c with pend := t.i3c.pend } }) ∧
    (s.fw.sibValid = true →
      exec .sibTimeout s = .next { s.reachNs (s.fw.sibNs + 10000000) with fw := { s.fw with sibValid := false } }) ∧
    (s.fw.sibValid = false → exec .sibTimeout s = .next s))

/-! ### The sealed meter -/

/-- The meter. Each 10 ns the energy of every supply grows by voltage times current; each millisecond the words moved by every label are
added, as the difference modulo 2^48 or whole after a restart, and every charged lake adds 12 MiB·ms to its label; each minute, and at
the fall of VDD_MTR, a record of 1,248 bytes takes the next sequence number. After the rise the counts are those of the newest record.
Each cause of tampering is kept (R431 to R441). Open points of the meter are log entry 31. What a command does whose condition does not
hold, and that a timed command lets the time until it is due pass first, are the model's choices (log entry 2). -/
def Obligations.MeterCountsAndRecords : Prop :=
  (∀ s : State, s.meter.running = true →
    (∀ mv ma : List Nat,
      let u := s.reachMeter s.meter.energyDue
      ∃ t, exec (.meterEnergySample mv ma) s = .next t ∧
        (∀ i < 4, natAt t.meter.energy i = natAt s.meter.energy i + mv.getD i 0 * ma.getD i 0) ∧
        t.meter.energyDue = s.meter.energyDue + 10 ∧ t.meter.tamper = (s.meter.tamper || decide (800 < mv.getD 3 0)) ∧
        t = { u with meter := { s.meter with
          energyDue := t.meter.energyDue, energy := t.meter.energy, tamper := t.meter.tamper, cause := t.meter.cause } }) ∧
    (let u := s.reachMeter s.meter.sampleDue
      ∃ t, exec .meterSample s = .next t ∧ t.meter.sampleDue = s.meter.sampleDue + 1000000 ∧
        (∀ l < 64, natAt t.meter.occ l = natAt s.meter.occ l +
          12 * countTrue (fun n => charged u n && (u.lake n).billLabel.toNat = l) (List.range (Config.lakeCount s.variant))) ∧
        (s.pw.logOk = true → s.pw.deep ≠ 2 → t.meter.restart = false ∧ t.meter.lastW = s.weir.lwords ∧
          ∀ l < 64, natAt t.meter.moved l = natAt s.meter.moved l +
            if s.meter.restart then natAt s.weir.lwords l else (natAt s.weir.lwords l + 2 ^ 48 - natAt s.meter.lastW l) % 2 ^ 48) ∧
        (s.pw.logOk = false ∨ s.pw.deep = 2 → t.meter.restart = true ∧ t.meter.moved = s.meter.moved ∧ t.meter.lastW = s.meter.lastW) ∧
        t = { u with meter := t.meter } ∧ t.meter.energy = s.meter.energy ∧ t.meter.recs = s.meter.recs ∧ t.meter.seq = s.meter.seq) ∧
    (let u := s.reachMeter s.meter.recDue
      ∃ t r, exec .tallyRecord s = .next t ∧ t.meter.seq = s.meter.seq + 1 ∧ t.meter.recDue = s.meter.recDue + 60000000000 ∧
        Tab.get (fun _ => []) t.meter.recs ((s.meter.seq + 1) % 255 + 1) = r ∧ r.length = 1248 ∧
        recField r 8 = (s.meter.seq + 1) % 2 ^ 64 ∧ recField r 0x10 = s.meter.recDue % 2 ^ 64 ∧
        (∀ i < 4, recField r (0x40 + 8 * i) = s.meter.energyCount i) ∧
        (∀ l < 64, recField r (0x80 + 8 * l) = s.meter.movedCount l ∧ recField r (0x280 + 8 * l) = s.meter.occCount l) ∧
        (∀ k, k ≠ (s.meter.seq + 1) % 255 + 1 → Tab.get (fun _ => []) t.meter.recs k = Tab.get (fun _ => []) s.meter.recs k) ∧
        (bit s.i3c.ibiMask 4 = true → Tab.get (fun _ => none) t.i3c.pend 0x14 = some (BitVec.ofNat 32 (s.meter.seq + 1))) ∧
        t = { u with
          meter := { s.meter with
            seq := t.meter.seq, recs := t.meter.recs, recDue := t.meter.recDue, fStart := false, fRestart := false, fAonOff := false }
          i3c := { s.i3c with pend := t.i3c.pend } }) ∧
    (∃ t, exec .meterClose s = .next t ∧ t.meter.running = false ∧ t.meter.seq = s.meter.seq + 1 ∧ t.meter.time = s.meterNow ∧
      (Tab.get (fun _ => []) t.meter.recs ((s.meter.seq + 1) % 255 + 1)).length = 1248 ∧
      t = { s with meter := t.meter, i3c := { s.i3c with pend := t.i3c.pend } }) ∧
    exec (.monitorSelfTest true) s = .next s ∧
    exec (.monitorSelfTest false) s = .next { s with meter := { s.meter with tamper := true, cause := s.meter.cause ||| 0x10 } }) ∧
  (∀ s : State,
    (s.meter.running = false →
      (∀ mv ma, exec (.meterEnergySample mv ma) s = .next s) ∧ exec .meterSample s = .next s ∧ exec .tallyRecord s = .next s ∧
      exec .meterClose s = .next s) ∧
    (let r := Tab.get (fun _ => []) s.meter.recs (s.meter.seq % 255 + 1)
      ∃ t, exec .meterPowerUp s = .next t ∧ t.meter.running = true ∧ t.meterNow = 0 ∧ t.meter.fStart = true ∧ t.meter.seq = s.meter.seq ∧
        t.meter.recs = s.meter.recs ∧ t.meter.tamper = (s.meter.tamper || s.meter.running) ∧
        (∀ i < 4, natAt t.meter.energy i = recField r (0x40 + 8 * i) * 100000000) ∧
        (∀ l < 64, natAt t.meter.moved l = recField r (0x80 + 8 * l) * 32768 ∧ natAt t.meter.occ l = recField r (0x280 + 8 * l)) ∧
        t = { s with meter := t.meter }) ∧
    exec .testPortAccess s = .next { s with meter := { s.meter with tamper := true, cause := s.meter.cause ||| 0x04 } } ∧
    exec .referenceClockLoss s = .next { s with pw := { s.pw with refOk := false }, meter := { s.meter with clkFree := true } } ∧
    exec .referenceClockReturn s = .next { s with pw := { s.pw with refOk := true }, meter := { s.meter with clkFree := false } })
end

