-- ==== Sys2Proof/Laws/Table.lean ====
section
/-!
SUPPORT. The laws of sparse tables: a read after a write, and the canonical form, which every table operation keeps.
-/
namespace Sys2Proof

section
variable {α : Type}

@[simp] theorem Tab.get_nil (d : Nat → α) (k : Nat) : Tab.get d [] k = d k := rfl

/-- Keys that come after `a`, strictly rising. -/
def Tab.After (a : Nat) : Tab α → Prop
  | [] => True
  | e :: t => a < e.1 ∧ Tab.After e.1 t

theorem Tab.sorted_cons (e : Nat × α) (t : Tab α) : Tab.sorted (e :: t) = true ↔ Tab.After e.1 t := by
  induction t generalizing e with
  | nil => simp [Tab.sorted, Tab.After]
  | cons b t ih => simp [Tab.sorted, Tab.After, ih]

theorem Tab.After.mono {a b : Nat} (h : a ≤ b) {t : Tab α} (ht : Tab.After b t) : Tab.After a t := by
  cases t with
  | nil => trivial
  | cons e t => exact ⟨by have := ht.1; omega, ht.2⟩

theorem Tab.After.get {d : Nat → α} {a k : Nat} (h : k ≤ a) {t : Tab α} (ht : Tab.After a t) : Tab.get d t k = d k := by
  induction t generalizing a with
  | nil => rfl
  | cons e t ih =>
    have h1 := ht.1
    rw [Tab.get, if_neg (by omega)]
    exact ih (Nat.le_trans h (Nat.le_of_lt h1)) ht.2

theorem Tab.After.filter {a : Nat} {t : Tab α} (ht : Tab.After a t) (p : Nat × α → Bool) : Tab.After a (t.filter p) := by
  induction t generalizing a with
  | nil => trivial
  | cons e t ih =>
    rw [List.filter_cons]
    split
    · exact ⟨ht.1, ih ht.2⟩
    · exact ih (Tab.After.mono (Nat.le_of_lt ht.1) ht.2)

theorem Tab.After.map {a : Nat} {t : Tab α} (ht : Tab.After a t) (f : Nat × α → α) :
    Tab.After a (t.map fun e => (e.1, f e)) := by
  induction t generalizing a with
  | nil => trivial
  | cons e t ih => exact ⟨ht.1, ih ht.2⟩

theorem Tab.After.insert {a k : Nat} {t : Tab α} (ht : Tab.After a t) (hk : a < k) (hn : ∀ e ∈ t, e.1 ≠ k) (v : α) :
    Tab.After a (Tab.insert t k v) := by
  induction t generalizing a with
  | nil => exact ⟨hk, trivial⟩
  | cons e t ih =>
    have hne : e.1 ≠ k := hn e (by simp)
    rw [Tab.insert]
    split
    · rename_i h; exact ⟨hk, h, ht.2⟩
    · exact ⟨ht.1, ih ht.2 (by omega) (fun x hx => hn x (by simp [hx]))⟩

theorem Tab.sorted_of_after {t : Tab α} {a : Nat} (ht : Tab.After a t) : Tab.sorted t = true := by
  cases t with
  | nil => rfl
  | cons e t => exact (Tab.sorted_cons e t).2 ht.2

theorem Tab.sorted_filter {t : Tab α} (ht : Tab.sorted t = true) (p : Nat × α → Bool) : Tab.sorted (t.filter p) = true := by
  cases t with
  | nil => rfl
  | cons e t =>
    have h := (Tab.sorted_cons e t).1 ht
    rw [List.filter_cons]
    split
    · exact (Tab.sorted_cons _ _).2 (h.filter p)
    · exact Tab.sorted_of_after (h.filter p)

theorem Tab.sorted_map {t : Tab α} (ht : Tab.sorted t = true) (f : Nat × α → α) :
    Tab.sorted (t.map fun e => (e.1, f e)) = true := by
  cases t with
  | nil => rfl
  | cons e t => exact (Tab.sorted_cons _ _).2 (((Tab.sorted_cons e t).1 ht).map f)

theorem Tab.sorted_insert {t : Tab α} (ht : Tab.sorted t = true) {k : Nat} (hn : ∀ e ∈ t, e.1 ≠ k) (v : α) :
    Tab.sorted (Tab.insert t k v) = true := by
  cases t with
  | nil => rfl
  | cons e t =>
    have h := (Tab.sorted_cons e t).1 ht
    have hne : e.1 ≠ k := hn e (by simp)
    rw [Tab.insert]
    split
    · rename_i hk; exact (Tab.sorted_cons _ _).2 ⟨hk, h⟩
    · exact (Tab.sorted_cons _ _).2 (h.insert (by omega) (fun x hx => hn x (by simp [hx])) v)

theorem Tab.mem_insert {t : Tab α} {k : Nat} {v : α} {e : Nat × α} (h : e ∈ Tab.insert t k v) : e = (k, v) ∨ e ∈ t := by
  induction t with
  | nil => simpa [Tab.insert] using h
  | cons b t ih =>
    rw [Tab.insert] at h
    split at h
    · simpa using h
    · rcases List.mem_cons.1 h with h | h
      · exact .inr (by simp [h])
      · exact (ih h).imp id (fun h => by simp [h])

theorem Tab.erase_ne {t : Tab α} {k : Nat} : ∀ e ∈ Tab.erase t k, e.1 ≠ k := by
  intro e he
  simpa using (List.mem_filter.1 he).2

variable {d : Nat → α}

theorem Tab.get_insert_same {t : Tab α} {k : Nat} (hn : ∀ e ∈ t, e.1 ≠ k) (v : α) :
    Tab.get d (Tab.insert t k v) k = v := by
  induction t with
  | nil => simp [Tab.insert, Tab.get]
  | cons e t ih =>
    have hne : e.1 ≠ k := hn e (by simp)
    rw [Tab.insert]
    split
    · simp [Tab.get]
    · rw [Tab.get, if_neg hne]; exact ih (fun x hx => hn x (by simp [hx]))

theorem Tab.get_insert_other {t : Tab α} {k j : Nat} (hj : j ≠ k) (v : α) : Tab.get d (Tab.insert t k v) j = Tab.get d t j := by
  induction t with
  | nil => simp [Tab.insert, Tab.get, Ne.symm hj]
  | cons e t ih =>
    rw [Tab.insert]
    split
    · rw [Tab.get, if_neg (Ne.symm hj)]
    · rw [Tab.get, Tab.get, ih]

theorem Tab.get_erase_same (t : Tab α) (k : Nat) : Tab.get d (Tab.erase t k) k = d k := by
  induction t with
  | nil => rfl
  | cons e t ih =>
    by_cases h : e.1 = k
    · simpa [Tab.erase, h] using ih
    · simpa [Tab.erase, h, Tab.get] using ih

theorem Tab.get_erase_other {t : Tab α} {k j : Nat} (hj : j ≠ k) : Tab.get d (Tab.erase t k) j = Tab.get d t j := by
  induction t with
  | nil => rfl
  | cons e t ih =>
    by_cases h : e.1 = k
    · subst h; simpa [Tab.erase, Tab.get, Ne.symm hj] using ih
    · simp only [Tab.erase, List.filter_cons, bne_iff_ne, ne_eq, h, not_false_eq_true, if_true, Tab.get]
      split
      · rfl
      · exact ih

variable [DecidableEq α]


theorem Tab.wf_iff {t : Tab α} : Tab.wf d t = true ↔ Tab.sorted t = true ∧ ∀ e ∈ t, e.2 ≠ d e.1 := by
  simp [Tab.wf]

@[simp] theorem Tab.wf_nil : Tab.wf d [] = true := rfl

theorem Tab.wf_filter {t : Tab α} (h : Tab.wf d t = true) (p : Nat × α → Bool) : Tab.wf d (t.filter p) = true := by
  obtain ⟨h1, h2⟩ := Tab.wf_iff.1 h
  exact Tab.wf_iff.2 ⟨Tab.sorted_filter h1 p, fun e he => h2 e (List.mem_filter.1 he).1⟩

theorem Tab.wf_erase {t : Tab α} (h : Tab.wf d t = true) (k : Nat) : Tab.wf d (Tab.erase t k) = true := Tab.wf_filter h _

theorem Tab.wf_eraseRange {t : Tab α} (h : Tab.wf d t = true) (lo hi : Nat) : Tab.wf d (Tab.eraseRange t lo hi) = true :=
  Tab.wf_filter h _

/-- Every write keeps the canonical form. -/
theorem Tab.wf_set {t : Tab α} (h : Tab.wf d t = true) (k : Nat) (v : α) : Tab.wf d (Tab.set d t k v) = true := by
  rw [Tab.set]
  split
  · exact Tab.wf_erase h k
  · rename_i hv
    obtain ⟨h1, h2⟩ := Tab.wf_iff.1 (Tab.wf_erase h k)
    refine Tab.wf_iff.2 ⟨Tab.sorted_insert h1 Tab.erase_ne v, fun e he => ?_⟩
    rcases Tab.mem_insert he with rfl | he
    · exact hv
    · exact h2 e he

/-- Changing the values of a table keeps the canonical form. -/
theorem Tab.wf_mapTab {t : Tab α} (h : Tab.wf d t = true) (f : Nat → α → α) : Tab.wf d (Machine.mapTab d f t) = true := by
  obtain ⟨h1, _⟩ := Tab.wf_iff.1 h
  refine Tab.wf_iff.2 ⟨Tab.sorted_filter (Tab.sorted_map h1 fun e => f e.1 e.2) _, fun e he => ?_⟩
  simpa using (List.mem_filter.1 he).2

/-- Setting the values of some keys keeps the canonical form. -/
theorem Tab.wf_foldl_set {t : Tab α} (h : Tab.wf d t = true) (l : List Nat) (f : Nat → α) :
    Tab.wf d (l.foldl (fun t n => Tab.set d t n (f n)) t) = true := by
  induction l generalizing t with
  | nil => exact h
  | cons n l ih => exact ih (Tab.wf_set h n (f n))

/-- A key reads as the value last stored there. -/
@[simp] theorem Tab.get_set_same (t : Tab α) (k : Nat) (v : α) : Tab.get d (Tab.set d t k v) k = v := by
  rw [Tab.set]
  split
  · rename_i h; rw [Tab.get_erase_same, h]
  · exact Tab.get_insert_same Tab.erase_ne v

/-- A store leaves every other key alone. -/
@[simp] theorem Tab.get_set_other {t : Tab α} {k j : Nat} (hj : j ≠ k) (v : α) : Tab.get d (Tab.set d t k v) j = Tab.get d t j := by
  rw [Tab.set]
  split
  · exact Tab.get_erase_other hj
  · rw [Tab.get_insert_other hj, Tab.get_erase_other hj]

end

end Sys2Proof
end

