-- ==== Sys2Proof/Laws/Memory.lean ====
section
/-!
SUPPORT. The laws of memory: a read after a write, of a byte and of a word, and the canonical form, which every operation keeps.
-/
namespace Sys2Proof.Machine

@[simp] theorem readByte_writeByte_same (m : List Host.Cell) (a : Nat) (b : Byte) : readByte (writeByte m a b) a = b :=
  Tab.get_set_same _ _ _

@[simp] theorem readByte_writeByte_other {m : List Host.Cell} {a c : Nat} (h : c ≠ a) (b : Byte) :
    readByte (writeByte m a b) c = readByte m c := Tab.get_set_other h _

theorem Memory.wf_writeByte {m : List Host.Cell} (h : Memory.wf m = true) (a : Nat) (b : Byte) : Memory.wf (writeByte m a b) = true :=
  Tab.wf_set h _ _

theorem Memory.wf_bytesTo {m : List Host.Cell} (h : Memory.wf m = true) (a v k : Nat) : Memory.wf (bytesTo m a v k) = true := by
  induction k generalizing m a v with
  | zero => exact h
  | succ k ih => exact ih (Memory.wf_writeByte h _ _) _ _

/-- Writing a word keeps memory canonical. -/
theorem Memory.wf_writeWord {m : List Host.Cell} (h : Memory.wf m = true) (w : Nat) (v : Word) : Memory.wf (writeWord m w v) = true :=
  Memory.wf_bytesTo h _ _ _

theorem Memory.wf_words {m : List Host.Cell} (h : Memory.wf m = true) (row : Nat) (ws : List (Nat × Word)) :
    Memory.wf (ws.foldl (fun m e => writeWord m (8 * row + e.1) e.2) m) = true := by
  induction ws generalizing m with
  | nil => exact h
  | cons e ws ih => exact ih (Memory.wf_writeWord h _ _)

theorem Memory.wf_eraseRange {m : List Host.Cell} (h : Memory.wf m = true) (lo hi : Nat) : Memory.wf (Tab.eraseRange m lo hi) = true :=
  Tab.wf_eraseRange h _ _

theorem readByte_bytesTo_other {m : List Host.Cell} {a v k c : Nat} (h : c < a ∨ a + k ≤ c) :
    readByte (bytesTo m a v k) c = readByte m c := by
  induction k generalizing m a v with
  | zero => rfl
  | succ k ih =>
    rw [bytesTo, ih (by omega), readByte_writeByte_other (by omega)]

theorem readByte_bytesTo_same {m : List Host.Cell} {a v k i : Nat} (h : i < k) :
    readByte (bytesTo m a v k) (a + i) = BitVec.ofNat 8 (v / 256 ^ i) := by
  induction k generalizing m a v i with
  | zero => omega
  | succ k ih =>
    rw [bytesTo]
    cases i with
    | zero => rw [readByte_bytesTo_other (by omega)]; simp
    | succ i =>
      have := @ih (writeByte m a (BitVec.ofNat 8 v)) (a + 1) (v / 256) i (by omega)
      rw [show a + (i + 1) = a + 1 + i by omega, this, Nat.div_div_eq_div_mul, Nat.pow_succ, Nat.mul_comm]

theorem wordFrom_bytesTo (m : List Host.Cell) (a v : Nat) (k : Nat) : wordFrom (bytesTo m a v k) a k = v % 256 ^ k := by
  suffices h : ∀ j i : Nat, i + j = k → wordFrom (bytesTo m a v k) (a + i) j = v / 256 ^ i % 256 ^ j by simpa using h k 0 (by omega)
  intro j
  induction j with
  | zero => intro i _; simp [wordFrom, Nat.mod_one]
  | succ j ih =>
    intro i hi
    have h := ih (i + 1) (by omega)
    rw [wordFrom, readByte_bytesTo_same (by omega), show a + i + 1 = a + (i + 1) by omega, h, BitVec.toNat_ofNat]
    rw [show 256 ^ (j + 1) = 256 * 256 ^ j by rw [Nat.pow_succ, Nat.mul_comm], Nat.mod_mul, Nat.div_div_eq_div_mul, ← Nat.pow_succ]

theorem wordFrom_congr {m m' : List Host.Cell} {a k : Nat} (h : ∀ c, a ≤ c → c < a + k → readByte m' c = readByte m c) :
    wordFrom m' a k = wordFrom m a k := by
  induction k generalizing a with
  | zero => rfl
  | succ k ih => rw [wordFrom, wordFrom, h a (by omega) (by omega), ih (fun c h1 h2 => h c (by omega) (by omega))]

/-- A word reads as what was last written to it. -/
@[simp] theorem readWord_writeWord_same (m : List Host.Cell) (w : Nat) (v : Word) : readWord (writeWord m w v) w = v := by
  rw [readWord, writeWord, wordFrom_bytesTo, show 256 ^ 32 = 2 ^ 256 by rfl, Nat.mod_eq_of_lt v.isLt, BitVec.ofNat_toNat, BitVec.setWidth_eq]

/-- A write leaves every other word alone. -/
theorem readWord_writeWord_other {m : List Host.Cell} {w x : Nat} (h : x ≠ w) (v : Word) : readWord (writeWord m w v) x = readWord m x := by
  rw [readWord, readWord, wordFrom_congr]
  intro c h1 h2
  exact readByte_bytesTo_other (by omega)

end Sys2Proof.Machine
end

