-- ==== Sys2Proof/Laws/Registers.lean ====
section
/-!
SUPPORT. Register writes: which register stands at each offset that a command names (R443), and what a write that passes the checks
before its register comes to. The statements about registers cite these lemmas instead of unfolding the access.
-/
namespace Sys2Proof.Machine

/-! ### Registers by offset -/

theorem regHere_page {n : Nat} (hn : n < 24) {o : Nat} (ho : o < 0x10000) : regHere (pageOff n o) = pageReg n o := by
  have h1 : pageLake (pageOff n o) = n := by unfold pageLake pageOff; omega
  have h2 : (pageOff n o - 0x100000) % 0x10000 = o := by unfold pageOff; omega
  unfold regHere
  rw [h1, h2]
  have h3 : 0x100000 ≤ pageOff n o := by unfold pageOff; omega
  have h4 : pageOff n o < 0x280000 := by unfold pageOff; omega
  rw [if_neg (by omega), if_neg (by omega), if_neg (by omega), if_neg (by omega), if_neg (by omega), if_neg (by omega), if_pos h4]

theorem regHere_cueCfg {c : Nat} (h : c < 4096) : regHere (0x80000 + c * 64) = some (.cueCfg c, 8) := by
  have h1 : (0x80000 + c * 64 - 0x80000) / 64 = c := by omega
  have h2 : (0x80000 + c * 64) % 64 = 0 := by omega
  unfold regHere tableReg
  rw [if_neg (by omega), if_neg (by omega), if_neg (by omega), if_neg (by omega), if_neg (by omega), if_pos (by omega), if_pos (by omega), h1, h2]
  rfl

theorem regHere_cueCount {c : Nat} (h : c < 4096) : regHere (0x80000 + c * 64 + 0x8) = some (.cueCount c, 8) := by
  have h1 : (0x80000 + c * 64 + 0x8 - 0x80000) / 64 = c := by omega
  have h2 : (0x80000 + c * 64 + 0x8) % 64 = 8 := by omega
  unfold regHere tableReg
  rw [if_neg (by omega), if_neg (by omega), if_neg (by omega), if_neg (by omega), if_neg (by omega), if_pos (by omega), if_pos (by omega), h1, h2]
  rfl

theorem regHere_cueSignal {c : Nat} (h : c < 4096) : regHere (0x80000 + c * 64 + 0x10) = some (.cueSignal c, 8) := by
  have h1 : (0x80000 + c * 64 + 0x10 - 0x80000) / 64 = c := by omega
  have h2 : (0x80000 + c * 64 + 0x10) % 64 = 16 := by omega
  unfold regHere tableReg
  rw [if_neg (by omega), if_neg (by omega), if_neg (by omega), if_neg (by omega), if_neg (by omega), if_pos (by omega), if_pos (by omega), h1, h2]
  rfl

theorem regHere_cueWait {c : Nat} (h : c < 4096) : regHere (0x80000 + c * 64 + 0x18) = some (.cueWait c, 8) := by
  have h1 : (0x80000 + c * 64 + 0x18 - 0x80000) / 64 = c := by omega
  have h2 : (0x80000 + c * 64 + 0x18) % 64 = 24 := by omega
  unfold regHere tableReg
  rw [if_neg (by omega), if_neg (by omega), if_neg (by omega), if_neg (by omega), if_neg (by omega), if_pos (by omega), if_pos (by omega), h1, h2]
  rfl

theorem regHere_winOwner {w : Nat} (h : w < 256) : regHere (0xC0000 + w * 64) = some (.winOwner w, 4) := by
  have h1 : (0xC0000 + w * 64 - 0xC0000) / 64 = w := by omega
  have h2 : (0xC0000 + w * 64) % 64 = 0 := by omega
  unfold regHere tableReg
  rw [if_neg (by omega), if_neg (by omega), if_neg (by omega), if_neg (by omega), if_neg (by omega), if_pos (by omega), if_neg (by omega),
    if_pos (by omega), h1, h2]
  rfl

theorem regHere_winRange {w : Nat} (h : w < 256) : regHere (0xC0000 + w * 64 + 0x8) = some (.winRange w, 8) := by
  have h1 : (0xC0000 + w * 64 + 0x8 - 0xC0000) / 64 = w := by omega
  have h2 : (0xC0000 + w * 64 + 0x8) % 64 = 8 := by omega
  unfold regHere tableReg
  rw [if_neg (by omega), if_neg (by omega), if_neg (by omega), if_neg (by omega), if_neg (by omega), if_pos (by omega), if_neg (by omega),
    if_pos (by omega), h1, h2]
  rfl

theorem regHere_winSrc {w : Nat} (h : w < 256) : regHere (0xC0000 + w * 64 + 0x10) = some (.winSrc w, 4) := by
  have h1 : (0xC0000 + w * 64 + 0x10 - 0xC0000) / 64 = w := by omega
  have h2 : (0xC0000 + w * 64 + 0x10) % 64 = 16 := by omega
  unfold regHere tableReg
  rw [if_neg (by omega), if_neg (by omega), if_neg (by omega), if_neg (by omega), if_neg (by omega), if_pos (by omega), if_neg (by omega),
    if_pos (by omega), h1, h2]
  rfl

theorem regHere_winMode {w : Nat} (h : w < 256) : regHere (0xC0000 + w * 64 + 0x18) = some (.winMode w, 4) := by
  have h1 : (0xC0000 + w * 64 + 0x18 - 0xC0000) / 64 = w := by omega
  have h2 : (0xC0000 + w * 64 + 0x18) % 64 = 24 := by omega
  unfold regHere tableReg
  rw [if_neg (by omega), if_neg (by omega), if_neg (by omega), if_neg (by omega), if_neg (by omega), if_pos (by omega), if_neg (by omega),
    if_pos (by omega), h1, h2]
  rfl

theorem regHere_winCtl {w : Nat} (h : w < 256) : regHere (0xC0000 + w * 64 + 0x20) = some (.winCtl w, 4) := by
  have h1 : (0xC0000 + w * 64 + 0x20 - 0xC0000) / 64 = w := by omega
  have h2 : (0xC0000 + w * 64 + 0x20) % 64 = 32 := by omega
  unfold regHere tableReg
  rw [if_neg (by omega), if_neg (by omega), if_neg (by omega), if_neg (by omega), if_neg (by omega), if_pos (by omega), if_neg (by omega),
    if_pos (by omega), h1, h2]
  rfl

theorem regHere_reelBase {e : Nat} (h : e < 64) : regHere (0xD0000 + e * 64) = some (.reelBase e, 8) := by
  have h1 : (0xD0000 + e * 64 - 0xD0000) / 64 = e := by omega
  have h2 : (0xD0000 + e * 64) % 64 = 0 := by omega
  unfold regHere tableReg
  rw [if_neg (by omega), if_neg (by omega), if_neg (by omega), if_neg (by omega), if_neg (by omega), if_pos (by omega), if_neg (by omega),
    if_neg (by omega), if_pos (by omega), h1, h2]
  rfl

theorem regHere_reelCfg {e : Nat} (h : e < 64) : regHere (0xD0000 + e * 64 + 0x8) = some (.reelCfg e, 4) := by
  have h1 : (0xD0000 + e * 64 + 0x8 - 0xD0000) / 64 = e := by omega
  have h2 : (0xD0000 + e * 64 + 0x8) % 64 = 8 := by omega
  unfold regHere tableReg
  rw [if_neg (by omega), if_neg (by omega), if_neg (by omega), if_neg (by omega), if_neg (by omega), if_pos (by omega), if_neg (by omega),
    if_neg (by omega), if_pos (by omega), h1, h2]
  rfl

theorem regHere_reelTail {e : Nat} (h : e < 64) : regHere (0xD0000 + e * 64 + 0x10) = some (.reelTail e, 4) := by
  have h1 : (0xD0000 + e * 64 + 0x10 - 0xD0000) / 64 = e := by omega
  have h2 : (0xD0000 + e * 64 + 0x10) % 64 = 16 := by omega
  unfold regHere tableReg
  rw [if_neg (by omega), if_neg (by omega), if_neg (by omega), if_neg (by omega), if_neg (by omega), if_pos (by omega), if_neg (by omega),
    if_neg (by omega), if_pos (by omega), h1, h2]
  rfl

theorem regHere_reelHead {e : Nat} (h : e < 64) : regHere (0xD0000 + e * 64 + 0x14) = some (.reelHead e, 4) := by
  have h1 : (0xD0000 + e * 64 + 0x14 - 0xD0000) / 64 = e := by omega
  have h2 : (0xD0000 + e * 64 + 0x14) % 64 = 20 := by omega
  unfold regHere tableReg
  rw [if_neg (by omega), if_neg (by omega), if_neg (by omega), if_neg (by omega), if_neg (by omega), if_pos (by omega), if_neg (by omega),
    if_neg (by omega), if_pos (by omega), h1, h2]
  rfl

theorem regHere_pwrLake : ∀ n : Fin 24, regHere (0x10100 + 8 * n) = some (.pwrLake n, 4) := by decide
theorem regHere_qshare : ∀ k : Fin 5, regHere (0x20200 + k * 4) = some (.qshare k, 4) := by decide
theorem regHere_lkArb : ∀ (n : Fin 24) (i : Fin 5) (w : Fin 3), regHere (arbOff (.lake n i) w) = some (.lkArb n i w, 4) := by
  intro n i w
  rw [arbOff, regHere_page n.2 (by omega)]
  revert i w
  intro i w
  have : ∀ (i : Fin 5) (w : Fin 3), pageReg n (0x100 + i * 0x20 + w * 4) = some (.lkArb n i w, 4) := by
    intro i w
    match i, w with
    | 0, 0 | 0, 1 | 0, 2 | 1, 0 | 1, 1 | 1, 2 | 2, 0 | 2, 1 | 2, 2 | 3, 0 | 3, 1 | 3, 2 | 4, 0 | 4, 1 | 4, 2 => rfl
  exact this i w

/-! ### Fields of a 32-bit value carried by a 64-bit write -/

theorem toNat_setWidth_64 (v : BitVec 32) : (v.setWidth 64).toNat = v.toNat := by
  rw [BitVec.toNat_setWidth, Nat.mod_eq_of_lt (Nat.lt_of_lt_of_le v.isLt (by decide))]

theorem bits_setWidth_64 (v : BitVec 32) (lo n : Nat) : bits (v.setWidth 64) lo n = bits v lo n := by
  rw [bits, bits, toNat_setWidth_64]

theorem bit_setWidth_64 (v : BitVec 32) (i : Nat) : bit (v.setWidth 64) i = bit v i := by
  rw [bit, bit, BitVec.getLsbD, BitVec.getLsbD, toNat_setWidth_64]

/-! ### Writes that reach their register -/

variable {s : State} {src : Src} {off size : Nat}

/-- A write that nothing refuses before its register is the register's write. -/
theorem ctlAccess_open (h : s.opens src off size = true) (v : BitVec 64) :
    ctlAccess src off size (some v) s = ctlWrite (s.ctl src off) size v s := by
  simp only [State.opens, Bool.and_eq_true, decide_eq_true_eq, Bool.not_eq_true', Option.isNone_iff_eq_none, Bool.or_eq_true] at h
  obtain ⟨⟨⟨h1, h2⟩, h3⟩, h4⟩ := h
  have e : (if writesSignal off true then none else s.signalAhead (whoOf s src.port)) = none := by
    split
    · rfl
    · rename_i k
      exact h4.resolve_left fun x => k x
  simp only [ctlAccess, ctlAccessBy, e, h1, h2, Option.isSome_some, h3, bne_self_eq_false, Bool.or_self, Bool.false_eq_true, if_false, State.ctl]

/-- A whole write of a register of 32 bits. -/
theorem ctlCommand_4 {r : Reg} (h : s.opens src off 4 = true) (hr : regHere off = some (r, 4)) (v : BitVec 32) :
    ctlCommand src off 4 (v.setWidth 64) s = .next (regWrite (s.ctl src off) r (v.setWidth 64) s) := by
  rw [ctlCommand, ctlAccess_open h, ctlWrite]
  have e : (s.ctl src off).off = off := rfl
  have hv : BitVec.ofNat 64 ((v.setWidth 64).toNat % 2 ^ 32) = v.setWidth 64 := by
    apply BitVec.eq_of_toNat_eq
    simp only [BitVec.toNat_ofNat, BitVec.toNat_setWidth]
    omega
  rw [e, hr]
  simp only [write4, hr, hv]
  rfl

/-- A whole write of a register of 64 bits. -/
theorem ctlCommand_8 {r : Reg} (h : s.opens src off 8 = true) (hr : regHere off = some (r, 8)) (v : BitVec 64) :
    ctlCommand src off 8 v s = .next (regWrite (s.ctl src off) r v s) := by
  rw [ctlCommand, ctlAccess_open h, ctlWrite]
  have e : (s.ctl src off).off = off := rfl
  rw [e, hr]
  rfl

end Sys2Proof.Machine
end

