-- ==== Sys2Proof/Laws/State.lean ====
section
/-!
SUPPORT. What each named update of the state leaves alone, field by field, and what a table of the state reads after an update
of one of its entries.
-/
namespace Sys2Proof.Machine

variable (s : State)

/-! ### `modLake` -/

@[simp] theorem State.modLake_pending (n : Nat) (f : Lake → Lake) : (s.modLake n f).pending = s.pending := rfl
@[simp] theorem State.modLake_variant (n : Nat) (f : Lake → Lake) : (s.modLake n f).variant = s.variant := rfl
@[simp] theorem State.modLake_mem (n : Nat) (f : Lake → Lake) : (s.modLake n f).mem = s.mem := rfl
@[simp] theorem State.modLake_rows (n : Nat) (f : Lake → Lake) : (s.modLake n f).rows = s.rows := rfl
@[simp] theorem State.modLake_lpow (n : Nat) (f : Lake → Lake) : (s.modLake n f).lpow = s.lpow := rfl
@[simp] theorem State.modLake_mtes (n : Nat) (f : Lake → Lake) : (s.modLake n f).mtes = s.mtes := rfl
@[simp] theorem State.modLake_springs (n : Nat) (f : Lake → Lake) : (s.modLake n f).springs = s.springs := rfl
@[simp] theorem State.modLake_arbs (n : Nat) (f : Lake → Lake) : (s.modLake n f).arbs = s.arbs := rfl
@[simp] theorem State.modLake_backoff (n : Nat) (f : Lake → Lake) : (s.modLake n f).backoff = s.backoff := rfl
@[simp] theorem State.modLake_stops (n : Nat) (f : Lake → Lake) : (s.modLake n f).stops = s.stops := rfl
@[simp] theorem State.modLake_stopCfg (n : Nat) (f : Lake → Lake) : (s.modLake n f).stopCfg = s.stopCfg := rfl
@[simp] theorem State.modLake_ring (n : Nat) (f : Lake → Lake) : (s.modLake n f).ring = s.ring := rfl
@[simp] theorem State.modLake_cues (n : Nat) (f : Lake → Lake) : (s.modLake n f).cues = s.cues := rfl
@[simp] theorem State.modLake_wins (n : Nat) (f : Lake → Lake) : (s.modLake n f).wins = s.wins := rfl
@[simp] theorem State.modLake_reels (n : Nat) (f : Lake → Lake) : (s.modLake n f).reels = s.reels := rfl
@[simp] theorem State.modLake_ctxs (n : Nat) (f : Lake → Lake) : (s.modLake n f).ctxs = s.ctxs := rfl
@[simp] theorem State.modLake_basin (n : Nat) (f : Lake → Lake) : (s.modLake n f).basin = s.basin := rfl
@[simp] theorem State.modLake_weir (n : Nat) (f : Lake → Lake) : (s.modLake n f).weir = s.weir := rfl
@[simp] theorem State.modLake_err (n : Nat) (f : Lake → Lake) : (s.modLake n f).err = s.err := rfl
@[simp] theorem State.modLake_cnt (n : Nat) (f : Lake → Lake) : (s.modLake n f).cnt = s.cnt := rfl
@[simp] theorem State.modLake_pw (n : Nat) (f : Lake → Lake) : (s.modLake n f).pw = s.pw := rfl
@[simp] theorem State.modLake_tm (n : Nat) (f : Lake → Lake) : (s.modLake n f).tm = s.tm := rfl
@[simp] theorem State.modLake_remotes (n : Nat) (f : Lake → Lake) : (s.modLake n f).remotes = s.remotes := rfl
@[simp] theorem State.modLake_fences (n : Nat) (f : Lake → Lake) : (s.modLake n f).fences = s.fences := rfl
@[simp] theorem State.modLake_signals (n : Nat) (f : Lake → Lake) : (s.modLake n f).signals = s.signals := rfl
@[simp] theorem State.modLake_inbox (n : Nat) (f : Lake → Lake) : (s.modLake n f).inbox = s.inbox := rfl
@[simp] theorem State.modLake_flights (n : Nat) (f : Lake → Lake) : (s.modLake n f).flights = s.flights := rfl
@[simp] theorem State.modLake_hostHeld (n : Nat) (f : Lake → Lake) : (s.modLake n f).hostHeld = s.hostHeld := rfl
@[simp] theorem State.modLake_hostReads (n : Nat) (f : Lake → Lake) : (s.modLake n f).hostReads = s.hostReads := rfl
@[simp] theorem State.modLake_hostRetry (n : Nat) (f : Lake → Lake) : (s.modLake n f).hostRetry = s.hostRetry := rfl
@[simp] theorem State.modLake_group (n : Nat) (f : Lake → Lake) : (s.modLake n f).group = s.group := rfl
@[simp] theorem State.modLake_ps (n : Nat) (f : Lake → Lake) : (s.modLake n f).ps = s.ps := rfl
@[simp] theorem State.modLake_inPond (n : Nat) (f : Lake → Lake) : (s.modLake n f).inPond = s.inPond := rfl
@[simp] theorem State.modLake_clientsOff (n : Nat) (f : Lake → Lake) : (s.modLake n f).clientsOff = s.clientsOff := rfl
@[simp] theorem State.modLake_i3c (n : Nat) (f : Lake → Lake) : (s.modLake n f).i3c = s.i3c := rfl
@[simp] theorem State.modLake_fw (n : Nat) (f : Lake → Lake) : (s.modLake n f).fw = s.fw := rfl
@[simp] theorem State.modLake_meter (n : Nat) (f : Lake → Lake) : (s.modLake n f).meter = s.meter := rfl
@[simp] theorem State.modLake_nextId (n : Nat) (f : Lake → Lake) : (s.modLake n f).nextId = s.nextId := rfl
@[simp] theorem State.modLake_fresh (n : Nat) (f : Lake → Lake) : (s.modLake n f).fresh = s.fresh := rfl
@[simp] theorem State.modLake_out (n : Nat) (f : Lake → Lake) : (s.modLake n f).out = s.out := rfl
@[simp] theorem State.modLake_lake_same (n : Nat) (f : Lake → Lake) : (s.modLake n f).lake n = f (s.lake n) := Tab.get_set_same _ _ _
theorem State.modLake_lake_other (n : Nat) (f : Lake → Lake) (m : Nat) (h : m ≠ n) : (s.modLake n f).lake m = s.lake m := Tab.get_set_other h _
@[simp] theorem State.modLake_lp (n : Nat) (f : Lake → Lake) (m : Nat) : (s.modLake n f).lp m = s.lp m := rfl
@[simp] theorem State.modLake_mte (n : Nat) (f : Lake → Lake) (m : Nat) : (s.modLake n f).mte m = s.mte m := rfl
@[simp] theorem State.modLake_spring (n : Nat) (f : Lake → Lake) (m : Nat) : (s.modLake n f).spring m = s.spring m := rfl
@[simp] theorem State.modLake_stop (n : Nat) (f : Lake → Lake) (m : Nat) : (s.modLake n f).stop m = s.stop m := rfl
@[simp] theorem State.modLake_cue (n : Nat) (f : Lake → Lake) (m : Nat) : (s.modLake n f).cue m = s.cue m := rfl
@[simp] theorem State.modLake_win (n : Nat) (f : Lake → Lake) (m : Nat) : (s.modLake n f).win m = s.win m := rfl
@[simp] theorem State.modLake_reel (n : Nat) (f : Lake → Lake) (m : Nat) : (s.modLake n f).reel m = s.reel m := rfl
@[simp] theorem State.modLake_arb (n : Nat) (f : Lake → Lake) (m : Nat) : (s.modLake n f).arb m = s.arb m := rfl
@[simp] theorem State.modLake_ctx (n : Nat) (f : Lake → Lake) (m : Nat) : (s.modLake n f).ctx m = s.ctx m := rfl
@[simp] theorem State.modLake_tag (n : Nat) (f : Lake → Lake) (m : Nat) : (s.modLake n f).tag m = s.tag m := rfl

/-! ### `modLp` -/

@[simp] theorem State.modLp_pending (n : Nat) (f : LakePower → LakePower) : (s.modLp n f).pending = s.pending := rfl
@[simp] theorem State.modLp_variant (n : Nat) (f : LakePower → LakePower) : (s.modLp n f).variant = s.variant := rfl
@[simp] theorem State.modLp_mem (n : Nat) (f : LakePower → LakePower) : (s.modLp n f).mem = s.mem := rfl
@[simp] theorem State.modLp_rows (n : Nat) (f : LakePower → LakePower) : (s.modLp n f).rows = s.rows := rfl
@[simp] theorem State.modLp_lakes (n : Nat) (f : LakePower → LakePower) : (s.modLp n f).lakes = s.lakes := rfl
@[simp] theorem State.modLp_mtes (n : Nat) (f : LakePower → LakePower) : (s.modLp n f).mtes = s.mtes := rfl
@[simp] theorem State.modLp_springs (n : Nat) (f : LakePower → LakePower) : (s.modLp n f).springs = s.springs := rfl
@[simp] theorem State.modLp_arbs (n : Nat) (f : LakePower → LakePower) : (s.modLp n f).arbs = s.arbs := rfl
@[simp] theorem State.modLp_backoff (n : Nat) (f : LakePower → LakePower) : (s.modLp n f).backoff = s.backoff := rfl
@[simp] theorem State.modLp_stops (n : Nat) (f : LakePower → LakePower) : (s.modLp n f).stops = s.stops := rfl
@[simp] theorem State.modLp_stopCfg (n : Nat) (f : LakePower → LakePower) : (s.modLp n f).stopCfg = s.stopCfg := rfl
@[simp] theorem State.modLp_ring (n : Nat) (f : LakePower → LakePower) : (s.modLp n f).ring = s.ring := rfl
@[simp] theorem State.modLp_cues (n : Nat) (f : LakePower → LakePower) : (s.modLp n f).cues = s.cues := rfl
@[simp] theorem State.modLp_wins (n : Nat) (f : LakePower → LakePower) : (s.modLp n f).wins = s.wins := rfl
@[simp] theorem State.modLp_reels (n : Nat) (f : LakePower → LakePower) : (s.modLp n f).reels = s.reels := rfl
@[simp] theorem State.modLp_ctxs (n : Nat) (f : LakePower → LakePower) : (s.modLp n f).ctxs = s.ctxs := rfl
@[simp] theorem State.modLp_basin (n : Nat) (f : LakePower → LakePower) : (s.modLp n f).basin = s.basin := rfl
@[simp] theorem State.modLp_weir (n : Nat) (f : LakePower → LakePower) : (s.modLp n f).weir = s.weir := rfl
@[simp] theorem State.modLp_err (n : Nat) (f : LakePower → LakePower) : (s.modLp n f).err = s.err := rfl
@[simp] theorem State.modLp_cnt (n : Nat) (f : LakePower → LakePower) : (s.modLp n f).cnt = s.cnt := rfl
@[simp] theorem State.modLp_pw (n : Nat) (f : LakePower → LakePower) : (s.modLp n f).pw = s.pw := rfl
@[simp] theorem State.modLp_tm (n : Nat) (f : LakePower → LakePower) : (s.modLp n f).tm = s.tm := rfl
@[simp] theorem State.modLp_remotes (n : Nat) (f : LakePower → LakePower) : (s.modLp n f).remotes = s.remotes := rfl
@[simp] theorem State.modLp_fences (n : Nat) (f : LakePower → LakePower) : (s.modLp n f).fences = s.fences := rfl
@[simp] theorem State.modLp_signals (n : Nat) (f : LakePower → LakePower) : (s.modLp n f).signals = s.signals := rfl
@[simp] theorem State.modLp_inbox (n : Nat) (f : LakePower → LakePower) : (s.modLp n f).inbox = s.inbox := rfl
@[simp] theorem State.modLp_flights (n : Nat) (f : LakePower → LakePower) : (s.modLp n f).flights = s.flights := rfl
@[simp] theorem State.modLp_hostHeld (n : Nat) (f : LakePower → LakePower) : (s.modLp n f).hostHeld = s.hostHeld := rfl
@[simp] theorem State.modLp_hostReads (n : Nat) (f : LakePower → LakePower) : (s.modLp n f).hostReads = s.hostReads := rfl
@[simp] theorem State.modLp_hostRetry (n : Nat) (f : LakePower → LakePower) : (s.modLp n f).hostRetry = s.hostRetry := rfl
@[simp] theorem State.modLp_group (n : Nat) (f : LakePower → LakePower) : (s.modLp n f).group = s.group := rfl
@[simp] theorem State.modLp_ps (n : Nat) (f : LakePower → LakePower) : (s.modLp n f).ps = s.ps := rfl
@[simp] theorem State.modLp_inPond (n : Nat) (f : LakePower → LakePower) : (s.modLp n f).inPond = s.inPond := rfl
@[simp] theorem State.modLp_clientsOff (n : Nat) (f : LakePower → LakePower) : (s.modLp n f).clientsOff = s.clientsOff := rfl
@[simp] theorem State.modLp_i3c (n : Nat) (f : LakePower → LakePower) : (s.modLp n f).i3c = s.i3c := rfl
@[simp] theorem State.modLp_fw (n : Nat) (f : LakePower → LakePower) : (s.modLp n f).fw = s.fw := rfl
@[simp] theorem State.modLp_meter (n : Nat) (f : LakePower → LakePower) : (s.modLp n f).meter = s.meter := rfl
@[simp] theorem State.modLp_nextId (n : Nat) (f : LakePower → LakePower) : (s.modLp n f).nextId = s.nextId := rfl
@[simp] theorem State.modLp_fresh (n : Nat) (f : LakePower → LakePower) : (s.modLp n f).fresh = s.fresh := rfl
@[simp] theorem State.modLp_out (n : Nat) (f : LakePower → LakePower) : (s.modLp n f).out = s.out := rfl
@[simp] theorem State.modLp_lp_same (n : Nat) (f : LakePower → LakePower) : (s.modLp n f).lp n = f (s.lp n) := Tab.get_set_same _ _ _
theorem State.modLp_lp_other (n : Nat) (f : LakePower → LakePower) (m : Nat) (h : m ≠ n) : (s.modLp n f).lp m = s.lp m := Tab.get_set_other h _
@[simp] theorem State.modLp_lake (n : Nat) (f : LakePower → LakePower) (m : Nat) : (s.modLp n f).lake m = s.lake m := rfl
@[simp] theorem State.modLp_mte (n : Nat) (f : LakePower → LakePower) (m : Nat) : (s.modLp n f).mte m = s.mte m := rfl
@[simp] theorem State.modLp_spring (n : Nat) (f : LakePower → LakePower) (m : Nat) : (s.modLp n f).spring m = s.spring m := rfl
@[simp] theorem State.modLp_stop (n : Nat) (f : LakePower → LakePower) (m : Nat) : (s.modLp n f).stop m = s.stop m := rfl
@[simp] theorem State.modLp_cue (n : Nat) (f : LakePower → LakePower) (m : Nat) : (s.modLp n f).cue m = s.cue m := rfl
@[simp] theorem State.modLp_win (n : Nat) (f : LakePower → LakePower) (m : Nat) : (s.modLp n f).win m = s.win m := rfl
@[simp] theorem State.modLp_reel (n : Nat) (f : LakePower → LakePower) (m : Nat) : (s.modLp n f).reel m = s.reel m := rfl
@[simp] theorem State.modLp_arb (n : Nat) (f : LakePower → LakePower) (m : Nat) : (s.modLp n f).arb m = s.arb m := rfl
@[simp] theorem State.modLp_ctx (n : Nat) (f : LakePower → LakePower) (m : Nat) : (s.modLp n f).ctx m = s.ctx m := rfl
@[simp] theorem State.modLp_tag (n : Nat) (f : LakePower → LakePower) (m : Nat) : (s.modLp n f).tag m = s.tag m := rfl

/-! ### `modMte` -/

@[simp] theorem State.modMte_pending (n : Nat) (f : Mte → Mte) : (s.modMte n f).pending = s.pending := rfl
@[simp] theorem State.modMte_variant (n : Nat) (f : Mte → Mte) : (s.modMte n f).variant = s.variant := rfl
@[simp] theorem State.modMte_mem (n : Nat) (f : Mte → Mte) : (s.modMte n f).mem = s.mem := rfl
@[simp] theorem State.modMte_rows (n : Nat) (f : Mte → Mte) : (s.modMte n f).rows = s.rows := rfl
@[simp] theorem State.modMte_lakes (n : Nat) (f : Mte → Mte) : (s.modMte n f).lakes = s.lakes := rfl
@[simp] theorem State.modMte_lpow (n : Nat) (f : Mte → Mte) : (s.modMte n f).lpow = s.lpow := rfl
@[simp] theorem State.modMte_springs (n : Nat) (f : Mte → Mte) : (s.modMte n f).springs = s.springs := rfl
@[simp] theorem State.modMte_arbs (n : Nat) (f : Mte → Mte) : (s.modMte n f).arbs = s.arbs := rfl
@[simp] theorem State.modMte_backoff (n : Nat) (f : Mte → Mte) : (s.modMte n f).backoff = s.backoff := rfl
@[simp] theorem State.modMte_stops (n : Nat) (f : Mte → Mte) : (s.modMte n f).stops = s.stops := rfl
@[simp] theorem State.modMte_stopCfg (n : Nat) (f : Mte → Mte) : (s.modMte n f).stopCfg = s.stopCfg := rfl
@[simp] theorem State.modMte_ring (n : Nat) (f : Mte → Mte) : (s.modMte n f).ring = s.ring := rfl
@[simp] theorem State.modMte_cues (n : Nat) (f : Mte → Mte) : (s.modMte n f).cues = s.cues := rfl
@[simp] theorem State.modMte_wins (n : Nat) (f : Mte → Mte) : (s.modMte n f).wins = s.wins := rfl
@[simp] theorem State.modMte_reels (n : Nat) (f : Mte → Mte) : (s.modMte n f).reels = s.reels := rfl
@[simp] theorem State.modMte_ctxs (n : Nat) (f : Mte → Mte) : (s.modMte n f).ctxs = s.ctxs := rfl
@[simp] theorem State.modMte_basin (n : Nat) (f : Mte → Mte) : (s.modMte n f).basin = s.basin := rfl
@[simp] theorem State.modMte_weir (n : Nat) (f : Mte → Mte) : (s.modMte n f).weir = s.weir := rfl
@[simp] theorem State.modMte_err (n : Nat) (f : Mte → Mte) : (s.modMte n f).err = s.err := rfl
@[simp] theorem State.modMte_cnt (n : Nat) (f : Mte → Mte) : (s.modMte n f).cnt = s.cnt := rfl
@[simp] theorem State.modMte_pw (n : Nat) (f : Mte → Mte) : (s.modMte n f).pw = s.pw := rfl
@[simp] theorem State.modMte_tm (n : Nat) (f : Mte → Mte) : (s.modMte n f).tm = s.tm := rfl
@[simp] theorem State.modMte_remotes (n : Nat) (f : Mte → Mte) : (s.modMte n f).remotes = s.remotes := rfl
@[simp] theorem State.modMte_fences (n : Nat) (f : Mte → Mte) : (s.modMte n f).fences = s.fences := rfl
@[simp] theorem State.modMte_signals (n : Nat) (f : Mte → Mte) : (s.modMte n f).signals = s.signals := rfl
@[simp] theorem State.modMte_inbox (n : Nat) (f : Mte → Mte) : (s.modMte n f).inbox = s.inbox := rfl
@[simp] theorem State.modMte_flights (n : Nat) (f : Mte → Mte) : (s.modMte n f).flights = s.flights := rfl
@[simp] theorem State.modMte_hostHeld (n : Nat) (f : Mte → Mte) : (s.modMte n f).hostHeld = s.hostHeld := rfl
@[simp] theorem State.modMte_hostReads (n : Nat) (f : Mte → Mte) : (s.modMte n f).hostReads = s.hostReads := rfl
@[simp] theorem State.modMte_hostRetry (n : Nat) (f : Mte → Mte) : (s.modMte n f).hostRetry = s.hostRetry := rfl
@[simp] theorem State.modMte_group (n : Nat) (f : Mte → Mte) : (s.modMte n f).group = s.group := rfl
@[simp] theorem State.modMte_ps (n : Nat) (f : Mte → Mte) : (s.modMte n f).ps = s.ps := rfl
@[simp] theorem State.modMte_inPond (n : Nat) (f : Mte → Mte) : (s.modMte n f).inPond = s.inPond := rfl
@[simp] theorem State.modMte_clientsOff (n : Nat) (f : Mte → Mte) : (s.modMte n f).clientsOff = s.clientsOff := rfl
@[simp] theorem State.modMte_i3c (n : Nat) (f : Mte → Mte) : (s.modMte n f).i3c = s.i3c := rfl
@[simp] theorem State.modMte_fw (n : Nat) (f : Mte → Mte) : (s.modMte n f).fw = s.fw := rfl
@[simp] theorem State.modMte_meter (n : Nat) (f : Mte → Mte) : (s.modMte n f).meter = s.meter := rfl
@[simp] theorem State.modMte_nextId (n : Nat) (f : Mte → Mte) : (s.modMte n f).nextId = s.nextId := rfl
@[simp] theorem State.modMte_fresh (n : Nat) (f : Mte → Mte) : (s.modMte n f).fresh = s.fresh := rfl
@[simp] theorem State.modMte_out (n : Nat) (f : Mte → Mte) : (s.modMte n f).out = s.out := rfl
@[simp] theorem State.modMte_mte_same (n : Nat) (f : Mte → Mte) : (s.modMte n f).mte n = f (s.mte n) := Tab.get_set_same _ _ _
theorem State.modMte_mte_other (n : Nat) (f : Mte → Mte) (m : Nat) (h : m ≠ n) : (s.modMte n f).mte m = s.mte m := Tab.get_set_other h _
@[simp] theorem State.modMte_lake (n : Nat) (f : Mte → Mte) (m : Nat) : (s.modMte n f).lake m = s.lake m := rfl
@[simp] theorem State.modMte_lp (n : Nat) (f : Mte → Mte) (m : Nat) : (s.modMte n f).lp m = s.lp m := rfl
@[simp] theorem State.modMte_spring (n : Nat) (f : Mte → Mte) (m : Nat) : (s.modMte n f).spring m = s.spring m := rfl
@[simp] theorem State.modMte_stop (n : Nat) (f : Mte → Mte) (m : Nat) : (s.modMte n f).stop m = s.stop m := rfl
@[simp] theorem State.modMte_cue (n : Nat) (f : Mte → Mte) (m : Nat) : (s.modMte n f).cue m = s.cue m := rfl
@[simp] theorem State.modMte_win (n : Nat) (f : Mte → Mte) (m : Nat) : (s.modMte n f).win m = s.win m := rfl
@[simp] theorem State.modMte_reel (n : Nat) (f : Mte → Mte) (m : Nat) : (s.modMte n f).reel m = s.reel m := rfl
@[simp] theorem State.modMte_arb (n : Nat) (f : Mte → Mte) (m : Nat) : (s.modMte n f).arb m = s.arb m := rfl
@[simp] theorem State.modMte_ctx (n : Nat) (f : Mte → Mte) (m : Nat) : (s.modMte n f).ctx m = s.ctx m := rfl
@[simp] theorem State.modMte_tag (n : Nat) (f : Mte → Mte) (m : Nat) : (s.modMte n f).tag m = s.tag m := rfl

/-! ### `modSpring` -/

@[simp] theorem State.modSpring_pending (n : Nat) (f : Spring → Spring) : (s.modSpring n f).pending = s.pending := rfl
@[simp] theorem State.modSpring_variant (n : Nat) (f : Spring → Spring) : (s.modSpring n f).variant = s.variant := rfl
@[simp] theorem State.modSpring_mem (n : Nat) (f : Spring → Spring) : (s.modSpring n f).mem = s.mem := rfl
@[simp] theorem State.modSpring_rows (n : Nat) (f : Spring → Spring) : (s.modSpring n f).rows = s.rows := rfl
@[simp] theorem State.modSpring_lakes (n : Nat) (f : Spring → Spring) : (s.modSpring n f).lakes = s.lakes := rfl
@[simp] theorem State.modSpring_lpow (n : Nat) (f : Spring → Spring) : (s.modSpring n f).lpow = s.lpow := rfl
@[simp] theorem State.modSpring_mtes (n : Nat) (f : Spring → Spring) : (s.modSpring n f).mtes = s.mtes := rfl
@[simp] theorem State.modSpring_arbs (n : Nat) (f : Spring → Spring) : (s.modSpring n f).arbs = s.arbs := rfl
@[simp] theorem State.modSpring_backoff (n : Nat) (f : Spring → Spring) : (s.modSpring n f).backoff = s.backoff := rfl
@[simp] theorem State.modSpring_stops (n : Nat) (f : Spring → Spring) : (s.modSpring n f).stops = s.stops := rfl
@[simp] theorem State.modSpring_stopCfg (n : Nat) (f : Spring → Spring) : (s.modSpring n f).stopCfg = s.stopCfg := rfl
@[simp] theorem State.modSpring_ring (n : Nat) (f : Spring → Spring) : (s.modSpring n f).ring = s.ring := rfl
@[simp] theorem State.modSpring_cues (n : Nat) (f : Spring → Spring) : (s.modSpring n f).cues = s.cues := rfl
@[simp] theorem State.modSpring_wins (n : Nat) (f : Spring → Spring) : (s.modSpring n f).wins = s.wins := rfl
@[simp] theorem State.modSpring_reels (n : Nat) (f : Spring → Spring) : (s.modSpring n f).reels = s.reels := rfl
@[simp] theorem State.modSpring_ctxs (n : Nat) (f : Spring → Spring) : (s.modSpring n f).ctxs = s.ctxs := rfl
@[simp] theorem State.modSpring_basin (n : Nat) (f : Spring → Spring) : (s.modSpring n f).basin = s.basin := rfl
@[simp] theorem State.modSpring_weir (n : Nat) (f : Spring → Spring) : (s.modSpring n f).weir = s.weir := rfl
@[simp] theorem State.modSpring_err (n : Nat) (f : Spring → Spring) : (s.modSpring n f).err = s.err := rfl
@[simp] theorem State.modSpring_cnt (n : Nat) (f : Spring → Spring) : (s.modSpring n f).cnt = s.cnt := rfl
@[simp] theorem State.modSpring_pw (n : Nat) (f : Spring → Spring) : (s.modSpring n f).pw = s.pw := rfl
@[simp] theorem State.modSpring_tm (n : Nat) (f : Spring → Spring) : (s.modSpring n f).tm = s.tm := rfl
@[simp] theorem State.modSpring_remotes (n : Nat) (f : Spring → Spring) : (s.modSpring n f).remotes = s.remotes := rfl
@[simp] theorem State.modSpring_fences (n : Nat) (f : Spring → Spring) : (s.modSpring n f).fences = s.fences := rfl
@[simp] theorem State.modSpring_signals (n : Nat) (f : Spring → Spring) : (s.modSpring n f).signals = s.signals := rfl
@[simp] theorem State.modSpring_inbox (n : Nat) (f : Spring → Spring) : (s.modSpring n f).inbox = s.inbox := rfl
@[simp] theorem State.modSpring_flights (n : Nat) (f : Spring → Spring) : (s.modSpring n f).flights = s.flights := rfl
@[simp] theorem State.modSpring_hostHeld (n : Nat) (f : Spring → Spring) : (s.modSpring n f).hostHeld = s.hostHeld := rfl
@[simp] theorem State.modSpring_hostReads (n : Nat) (f : Spring → Spring) : (s.modSpring n f).hostReads = s.hostReads := rfl
@[simp] theorem State.modSpring_hostRetry (n : Nat) (f : Spring → Spring) : (s.modSpring n f).hostRetry = s.hostRetry := rfl
@[simp] theorem State.modSpring_group (n : Nat) (f : Spring → Spring) : (s.modSpring n f).group = s.group := rfl
@[simp] theorem State.modSpring_ps (n : Nat) (f : Spring → Spring) : (s.modSpring n f).ps = s.ps := rfl
@[simp] theorem State.modSpring_inPond (n : Nat) (f : Spring → Spring) : (s.modSpring n f).inPond = s.inPond := rfl
@[simp] theorem State.modSpring_clientsOff (n : Nat) (f : Spring → Spring) : (s.modSpring n f).clientsOff = s.clientsOff := rfl
@[simp] theorem State.modSpring_i3c (n : Nat) (f : Spring → Spring) : (s.modSpring n f).i3c = s.i3c := rfl
@[simp] theorem State.modSpring_fw (n : Nat) (f : Spring → Spring) : (s.modSpring n f).fw = s.fw := rfl
@[simp] theorem State.modSpring_meter (n : Nat) (f : Spring → Spring) : (s.modSpring n f).meter = s.meter := rfl
@[simp] theorem State.modSpring_nextId (n : Nat) (f : Spring → Spring) : (s.modSpring n f).nextId = s.nextId := rfl
@[simp] theorem State.modSpring_fresh (n : Nat) (f : Spring → Spring) : (s.modSpring n f).fresh = s.fresh := rfl
@[simp] theorem State.modSpring_out (n : Nat) (f : Spring → Spring) : (s.modSpring n f).out = s.out := rfl
@[simp] theorem State.modSpring_spring_same (n : Nat) (f : Spring → Spring) : (s.modSpring n f).spring n = f (s.spring n) := Tab.get_set_same _ _ _
theorem State.modSpring_spring_other (n : Nat) (f : Spring → Spring) (m : Nat) (h : m ≠ n) : (s.modSpring n f).spring m = s.spring m := Tab.get_set_other h _
@[simp] theorem State.modSpring_lake (n : Nat) (f : Spring → Spring) (m : Nat) : (s.modSpring n f).lake m = s.lake m := rfl
@[simp] theorem State.modSpring_lp (n : Nat) (f : Spring → Spring) (m : Nat) : (s.modSpring n f).lp m = s.lp m := rfl
@[simp] theorem State.modSpring_mte (n : Nat) (f : Spring → Spring) (m : Nat) : (s.modSpring n f).mte m = s.mte m := rfl
@[simp] theorem State.modSpring_stop (n : Nat) (f : Spring → Spring) (m : Nat) : (s.modSpring n f).stop m = s.stop m := rfl
@[simp] theorem State.modSpring_cue (n : Nat) (f : Spring → Spring) (m : Nat) : (s.modSpring n f).cue m = s.cue m := rfl
@[simp] theorem State.modSpring_win (n : Nat) (f : Spring → Spring) (m : Nat) : (s.modSpring n f).win m = s.win m := rfl
@[simp] theorem State.modSpring_reel (n : Nat) (f : Spring → Spring) (m : Nat) : (s.modSpring n f).reel m = s.reel m := rfl
@[simp] theorem State.modSpring_arb (n : Nat) (f : Spring → Spring) (m : Nat) : (s.modSpring n f).arb m = s.arb m := rfl
@[simp] theorem State.modSpring_ctx (n : Nat) (f : Spring → Spring) (m : Nat) : (s.modSpring n f).ctx m = s.ctx m := rfl
@[simp] theorem State.modSpring_tag (n : Nat) (f : Spring → Spring) (m : Nat) : (s.modSpring n f).tag m = s.tag m := rfl

/-! ### `modStop` -/

@[simp] theorem State.modStop_pending (n : Nat) (f : Stop → Stop) : (s.modStop n f).pending = s.pending := rfl
@[simp] theorem State.modStop_variant (n : Nat) (f : Stop → Stop) : (s.modStop n f).variant = s.variant := rfl
@[simp] theorem State.modStop_mem (n : Nat) (f : Stop → Stop) : (s.modStop n f).mem = s.mem := rfl
@[simp] theorem State.modStop_rows (n : Nat) (f : Stop → Stop) : (s.modStop n f).rows = s.rows := rfl
@[simp] theorem State.modStop_lakes (n : Nat) (f : Stop → Stop) : (s.modStop n f).lakes = s.lakes := rfl
@[simp] theorem State.modStop_lpow (n : Nat) (f : Stop → Stop) : (s.modStop n f).lpow = s.lpow := rfl
@[simp] theorem State.modStop_mtes (n : Nat) (f : Stop → Stop) : (s.modStop n f).mtes = s.mtes := rfl
@[simp] theorem State.modStop_springs (n : Nat) (f : Stop → Stop) : (s.modStop n f).springs = s.springs := rfl
@[simp] theorem State.modStop_arbs (n : Nat) (f : Stop → Stop) : (s.modStop n f).arbs = s.arbs := rfl
@[simp] theorem State.modStop_backoff (n : Nat) (f : Stop → Stop) : (s.modStop n f).backoff = s.backoff := rfl
@[simp] theorem State.modStop_stopCfg (n : Nat) (f : Stop → Stop) : (s.modStop n f).stopCfg = s.stopCfg := rfl
@[simp] theorem State.modStop_ring (n : Nat) (f : Stop → Stop) : (s.modStop n f).ring = s.ring := rfl
@[simp] theorem State.modStop_cues (n : Nat) (f : Stop → Stop) : (s.modStop n f).cues = s.cues := rfl
@[simp] theorem State.modStop_wins (n : Nat) (f : Stop → Stop) : (s.modStop n f).wins = s.wins := rfl
@[simp] theorem State.modStop_reels (n : Nat) (f : Stop → Stop) : (s.modStop n f).reels = s.reels := rfl
@[simp] theorem State.modStop_ctxs (n : Nat) (f : Stop → Stop) : (s.modStop n f).ctxs = s.ctxs := rfl
@[simp] theorem State.modStop_basin (n : Nat) (f : Stop → Stop) : (s.modStop n f).basin = s.basin := rfl
@[simp] theorem State.modStop_weir (n : Nat) (f : Stop → Stop) : (s.modStop n f).weir = s.weir := rfl
@[simp] theorem State.modStop_err (n : Nat) (f : Stop → Stop) : (s.modStop n f).err = s.err := rfl
@[simp] theorem State.modStop_cnt (n : Nat) (f : Stop → Stop) : (s.modStop n f).cnt = s.cnt := rfl
@[simp] theorem State.modStop_pw (n : Nat) (f : Stop → Stop) : (s.modStop n f).pw = s.pw := rfl
@[simp] theorem State.modStop_tm (n : Nat) (f : Stop → Stop) : (s.modStop n f).tm = s.tm := rfl
@[simp] theorem State.modStop_remotes (n : Nat) (f : Stop → Stop) : (s.modStop n f).remotes = s.remotes := rfl
@[simp] theorem State.modStop_fences (n : Nat) (f : Stop → Stop) : (s.modStop n f).fences = s.fences := rfl
@[simp] theorem State.modStop_signals (n : Nat) (f : Stop → Stop) : (s.modStop n f).signals = s.signals := rfl
@[simp] theorem State.modStop_inbox (n : Nat) (f : Stop → Stop) : (s.modStop n f).inbox = s.inbox := rfl
@[simp] theorem State.modStop_flights (n : Nat) (f : Stop → Stop) : (s.modStop n f).flights = s.flights := rfl
@[simp] theorem State.modStop_hostHeld (n : Nat) (f : Stop → Stop) : (s.modStop n f).hostHeld = s.hostHeld := rfl
@[simp] theorem State.modStop_hostReads (n : Nat) (f : Stop → Stop) : (s.modStop n f).hostReads = s.hostReads := rfl
@[simp] theorem State.modStop_hostRetry (n : Nat) (f : Stop → Stop) : (s.modStop n f).hostRetry = s.hostRetry := rfl
@[simp] theorem State.modStop_group (n : Nat) (f : Stop → Stop) : (s.modStop n f).group = s.group := rfl
@[simp] theorem State.modStop_ps (n : Nat) (f : Stop → Stop) : (s.modStop n f).ps = s.ps := rfl
@[simp] theorem State.modStop_inPond (n : Nat) (f : Stop → Stop) : (s.modStop n f).inPond = s.inPond := rfl
@[simp] theorem State.modStop_clientsOff (n : Nat) (f : Stop → Stop) : (s.modStop n f).clientsOff = s.clientsOff := rfl
@[simp] theorem State.modStop_i3c (n : Nat) (f : Stop → Stop) : (s.modStop n f).i3c = s.i3c := rfl
@[simp] theorem State.modStop_fw (n : Nat) (f : Stop → Stop) : (s.modStop n f).fw = s.fw := rfl
@[simp] theorem State.modStop_meter (n : Nat) (f : Stop → Stop) : (s.modStop n f).meter = s.meter := rfl
@[simp] theorem State.modStop_nextId (n : Nat) (f : Stop → Stop) : (s.modStop n f).nextId = s.nextId := rfl
@[simp] theorem State.modStop_fresh (n : Nat) (f : Stop → Stop) : (s.modStop n f).fresh = s.fresh := rfl
@[simp] theorem State.modStop_out (n : Nat) (f : Stop → Stop) : (s.modStop n f).out = s.out := rfl
@[simp] theorem State.modStop_stop_same (n : Nat) (f : Stop → Stop) : (s.modStop n f).stop n = f (s.stop n) := Tab.get_set_same _ _ _
theorem State.modStop_stop_other (n : Nat) (f : Stop → Stop) (m : Nat) (h : m ≠ n) : (s.modStop n f).stop m = s.stop m := Tab.get_set_other h _
@[simp] theorem State.modStop_lake (n : Nat) (f : Stop → Stop) (m : Nat) : (s.modStop n f).lake m = s.lake m := rfl
@[simp] theorem State.modStop_lp (n : Nat) (f : Stop → Stop) (m : Nat) : (s.modStop n f).lp m = s.lp m := rfl
@[simp] theorem State.modStop_mte (n : Nat) (f : Stop → Stop) (m : Nat) : (s.modStop n f).mte m = s.mte m := rfl
@[simp] theorem State.modStop_spring (n : Nat) (f : Stop → Stop) (m : Nat) : (s.modStop n f).spring m = s.spring m := rfl
@[simp] theorem State.modStop_cue (n : Nat) (f : Stop → Stop) (m : Nat) : (s.modStop n f).cue m = s.cue m := rfl
@[simp] theorem State.modStop_win (n : Nat) (f : Stop → Stop) (m : Nat) : (s.modStop n f).win m = s.win m := rfl
@[simp] theorem State.modStop_reel (n : Nat) (f : Stop → Stop) (m : Nat) : (s.modStop n f).reel m = s.reel m := rfl
@[simp] theorem State.modStop_arb (n : Nat) (f : Stop → Stop) (m : Nat) : (s.modStop n f).arb m = s.arb m := rfl
@[simp] theorem State.modStop_ctx (n : Nat) (f : Stop → Stop) (m : Nat) : (s.modStop n f).ctx m = s.ctx m := rfl
@[simp] theorem State.modStop_tag (n : Nat) (f : Stop → Stop) (m : Nat) : (s.modStop n f).tag m = s.tag m := rfl

/-! ### `modCue` -/

@[simp] theorem State.modCue_pending (n : Nat) (f : Cue → Cue) : (s.modCue n f).pending = s.pending := rfl
@[simp] theorem State.modCue_variant (n : Nat) (f : Cue → Cue) : (s.modCue n f).variant = s.variant := rfl
@[simp] theorem State.modCue_mem (n : Nat) (f : Cue → Cue) : (s.modCue n f).mem = s.mem := rfl
@[simp] theorem State.modCue_rows (n : Nat) (f : Cue → Cue) : (s.modCue n f).rows = s.rows := rfl
@[simp] theorem State.modCue_lakes (n : Nat) (f : Cue → Cue) : (s.modCue n f).lakes = s.lakes := rfl
@[simp] theorem State.modCue_lpow (n : Nat) (f : Cue → Cue) : (s.modCue n f).lpow = s.lpow := rfl
@[simp] theorem State.modCue_mtes (n : Nat) (f : Cue → Cue) : (s.modCue n f).mtes = s.mtes := rfl
@[simp] theorem State.modCue_springs (n : Nat) (f : Cue → Cue) : (s.modCue n f).springs = s.springs := rfl
@[simp] theorem State.modCue_arbs (n : Nat) (f : Cue → Cue) : (s.modCue n f).arbs = s.arbs := rfl
@[simp] theorem State.modCue_backoff (n : Nat) (f : Cue → Cue) : (s.modCue n f).backoff = s.backoff := rfl
@[simp] theorem State.modCue_stops (n : Nat) (f : Cue → Cue) : (s.modCue n f).stops = s.stops := rfl
@[simp] theorem State.modCue_stopCfg (n : Nat) (f : Cue → Cue) : (s.modCue n f).stopCfg = s.stopCfg := rfl
@[simp] theorem State.modCue_ring (n : Nat) (f : Cue → Cue) : (s.modCue n f).ring = s.ring := rfl
@[simp] theorem State.modCue_wins (n : Nat) (f : Cue → Cue) : (s.modCue n f).wins = s.wins := rfl
@[simp] theorem State.modCue_reels (n : Nat) (f : Cue → Cue) : (s.modCue n f).reels = s.reels := rfl
@[simp] theorem State.modCue_ctxs (n : Nat) (f : Cue → Cue) : (s.modCue n f).ctxs = s.ctxs := rfl
@[simp] theorem State.modCue_basin (n : Nat) (f : Cue → Cue) : (s.modCue n f).basin = s.basin := rfl
@[simp] theorem State.modCue_weir (n : Nat) (f : Cue → Cue) : (s.modCue n f).weir = s.weir := rfl
@[simp] theorem State.modCue_err (n : Nat) (f : Cue → Cue) : (s.modCue n f).err = s.err := rfl
@[simp] theorem State.modCue_cnt (n : Nat) (f : Cue → Cue) : (s.modCue n f).cnt = s.cnt := rfl
@[simp] theorem State.modCue_pw (n : Nat) (f : Cue → Cue) : (s.modCue n f).pw = s.pw := rfl
@[simp] theorem State.modCue_tm (n : Nat) (f : Cue → Cue) : (s.modCue n f).tm = s.tm := rfl
@[simp] theorem State.modCue_remotes (n : Nat) (f : Cue → Cue) : (s.modCue n f).remotes = s.remotes := rfl
@[simp] theorem State.modCue_fences (n : Nat) (f : Cue → Cue) : (s.modCue n f).fences = s.fences := rfl
@[simp] theorem State.modCue_signals (n : Nat) (f : Cue → Cue) : (s.modCue n f).signals = s.signals := rfl
@[simp] theorem State.modCue_inbox (n : Nat) (f : Cue → Cue) : (s.modCue n f).inbox = s.inbox := rfl
@[simp] theorem State.modCue_flights (n : Nat) (f : Cue → Cue) : (s.modCue n f).flights = s.flights := rfl
@[simp] theorem State.modCue_hostHeld (n : Nat) (f : Cue → Cue) : (s.modCue n f).hostHeld = s.hostHeld := rfl
@[simp] theorem State.modCue_hostReads (n : Nat) (f : Cue → Cue) : (s.modCue n f).hostReads = s.hostReads := rfl
@[simp] theorem State.modCue_hostRetry (n : Nat) (f : Cue → Cue) : (s.modCue n f).hostRetry = s.hostRetry := rfl
@[simp] theorem State.modCue_group (n : Nat) (f : Cue → Cue) : (s.modCue n f).group = s.group := rfl
@[simp] theorem State.modCue_ps (n : Nat) (f : Cue → Cue) : (s.modCue n f).ps = s.ps := rfl
@[simp] theorem State.modCue_inPond (n : Nat) (f : Cue → Cue) : (s.modCue n f).inPond = s.inPond := rfl
@[simp] theorem State.modCue_clientsOff (n : Nat) (f : Cue → Cue) : (s.modCue n f).clientsOff = s.clientsOff := rfl
@[simp] theorem State.modCue_i3c (n : Nat) (f : Cue → Cue) : (s.modCue n f).i3c = s.i3c := rfl
@[simp] theorem State.modCue_fw (n : Nat) (f : Cue → Cue) : (s.modCue n f).fw = s.fw := rfl
@[simp] theorem State.modCue_meter (n : Nat) (f : Cue → Cue) : (s.modCue n f).meter = s.meter := rfl
@[simp] theorem State.modCue_nextId (n : Nat) (f : Cue → Cue) : (s.modCue n f).nextId = s.nextId := rfl
@[simp] theorem State.modCue_fresh (n : Nat) (f : Cue → Cue) : (s.modCue n f).fresh = s.fresh := rfl
@[simp] theorem State.modCue_out (n : Nat) (f : Cue → Cue) : (s.modCue n f).out = s.out := rfl
@[simp] theorem State.modCue_cue_same (n : Nat) (f : Cue → Cue) : (s.modCue n f).cue n = f (s.cue n) := Tab.get_set_same _ _ _
theorem State.modCue_cue_other (n : Nat) (f : Cue → Cue) (m : Nat) (h : m ≠ n) : (s.modCue n f).cue m = s.cue m := Tab.get_set_other h _
@[simp] theorem State.modCue_lake (n : Nat) (f : Cue → Cue) (m : Nat) : (s.modCue n f).lake m = s.lake m := rfl
@[simp] theorem State.modCue_lp (n : Nat) (f : Cue → Cue) (m : Nat) : (s.modCue n f).lp m = s.lp m := rfl
@[simp] theorem State.modCue_mte (n : Nat) (f : Cue → Cue) (m : Nat) : (s.modCue n f).mte m = s.mte m := rfl
@[simp] theorem State.modCue_spring (n : Nat) (f : Cue → Cue) (m : Nat) : (s.modCue n f).spring m = s.spring m := rfl
@[simp] theorem State.modCue_stop (n : Nat) (f : Cue → Cue) (m : Nat) : (s.modCue n f).stop m = s.stop m := rfl
@[simp] theorem State.modCue_win (n : Nat) (f : Cue → Cue) (m : Nat) : (s.modCue n f).win m = s.win m := rfl
@[simp] theorem State.modCue_reel (n : Nat) (f : Cue → Cue) (m : Nat) : (s.modCue n f).reel m = s.reel m := rfl
@[simp] theorem State.modCue_arb (n : Nat) (f : Cue → Cue) (m : Nat) : (s.modCue n f).arb m = s.arb m := rfl
@[simp] theorem State.modCue_ctx (n : Nat) (f : Cue → Cue) (m : Nat) : (s.modCue n f).ctx m = s.ctx m := rfl
@[simp] theorem State.modCue_tag (n : Nat) (f : Cue → Cue) (m : Nat) : (s.modCue n f).tag m = s.tag m := rfl

/-! ### `modWin` -/

@[simp] theorem State.modWin_pending (n : Nat) (f : Win → Win) : (s.modWin n f).pending = s.pending := rfl
@[simp] theorem State.modWin_variant (n : Nat) (f : Win → Win) : (s.modWin n f).variant = s.variant := rfl
@[simp] theorem State.modWin_mem (n : Nat) (f : Win → Win) : (s.modWin n f).mem = s.mem := rfl
@[simp] theorem State.modWin_rows (n : Nat) (f : Win → Win) : (s.modWin n f).rows = s.rows := rfl
@[simp] theorem State.modWin_lakes (n : Nat) (f : Win → Win) : (s.modWin n f).lakes = s.lakes := rfl
@[simp] theorem State.modWin_lpow (n : Nat) (f : Win → Win) : (s.modWin n f).lpow = s.lpow := rfl
@[simp] theorem State.modWin_mtes (n : Nat) (f : Win → Win) : (s.modWin n f).mtes = s.mtes := rfl
@[simp] theorem State.modWin_springs (n : Nat) (f : Win → Win) : (s.modWin n f).springs = s.springs := rfl
@[simp] theorem State.modWin_arbs (n : Nat) (f : Win → Win) : (s.modWin n f).arbs = s.arbs := rfl
@[simp] theorem State.modWin_backoff (n : Nat) (f : Win → Win) : (s.modWin n f).backoff = s.backoff := rfl
@[simp] theorem State.modWin_stops (n : Nat) (f : Win → Win) : (s.modWin n f).stops = s.stops := rfl
@[simp] theorem State.modWin_stopCfg (n : Nat) (f : Win → Win) : (s.modWin n f).stopCfg = s.stopCfg := rfl
@[simp] theorem State.modWin_ring (n : Nat) (f : Win → Win) : (s.modWin n f).ring = s.ring := rfl
@[simp] theorem State.modWin_cues (n : Nat) (f : Win → Win) : (s.modWin n f).cues = s.cues := rfl
@[simp] theorem State.modWin_reels (n : Nat) (f : Win → Win) : (s.modWin n f).reels = s.reels := rfl
@[simp] theorem State.modWin_ctxs (n : Nat) (f : Win → Win) : (s.modWin n f).ctxs = s.ctxs := rfl
@[simp] theorem State.modWin_basin (n : Nat) (f : Win → Win) : (s.modWin n f).basin = s.basin := rfl
@[simp] theorem State.modWin_weir (n : Nat) (f : Win → Win) : (s.modWin n f).weir = s.weir := rfl
@[simp] theorem State.modWin_err (n : Nat) (f : Win → Win) : (s.modWin n f).err = s.err := rfl
@[simp] theorem State.modWin_cnt (n : Nat) (f : Win → Win) : (s.modWin n f).cnt = s.cnt := rfl
@[simp] theorem State.modWin_pw (n : Nat) (f : Win → Win) : (s.modWin n f).pw = s.pw := rfl
@[simp] theorem State.modWin_tm (n : Nat) (f : Win → Win) : (s.modWin n f).tm = s.tm := rfl
@[simp] theorem State.modWin_remotes (n : Nat) (f : Win → Win) : (s.modWin n f).remotes = s.remotes := rfl
@[simp] theorem State.modWin_fences (n : Nat) (f : Win → Win) : (s.modWin n f).fences = s.fences := rfl
@[simp] theorem State.modWin_signals (n : Nat) (f : Win → Win) : (s.modWin n f).signals = s.signals := rfl
@[simp] theorem State.modWin_inbox (n : Nat) (f : Win → Win) : (s.modWin n f).inbox = s.inbox := rfl
@[simp] theorem State.modWin_flights (n : Nat) (f : Win → Win) : (s.modWin n f).flights = s.flights := rfl
@[simp] theorem State.modWin_hostHeld (n : Nat) (f : Win → Win) : (s.modWin n f).hostHeld = s.hostHeld := rfl
@[simp] theorem State.modWin_hostReads (n : Nat) (f : Win → Win) : (s.modWin n f).hostReads = s.hostReads := rfl
@[simp] theorem State.modWin_hostRetry (n : Nat) (f : Win → Win) : (s.modWin n f).hostRetry = s.hostRetry := rfl
@[simp] theorem State.modWin_group (n : Nat) (f : Win → Win) : (s.modWin n f).group = s.group := rfl
@[simp] theorem State.modWin_ps (n : Nat) (f : Win → Win) : (s.modWin n f).ps = s.ps := rfl
@[simp] theorem State.modWin_inPond (n : Nat) (f : Win → Win) : (s.modWin n f).inPond = s.inPond := rfl
@[simp] theorem State.modWin_clientsOff (n : Nat) (f : Win → Win) : (s.modWin n f).clientsOff = s.clientsOff := rfl
@[simp] theorem State.modWin_i3c (n : Nat) (f : Win → Win) : (s.modWin n f).i3c = s.i3c := rfl
@[simp] theorem State.modWin_fw (n : Nat) (f : Win → Win) : (s.modWin n f).fw = s.fw := rfl
@[simp] theorem State.modWin_meter (n : Nat) (f : Win → Win) : (s.modWin n f).meter = s.meter := rfl
@[simp] theorem State.modWin_nextId (n : Nat) (f : Win → Win) : (s.modWin n f).nextId = s.nextId := rfl
@[simp] theorem State.modWin_fresh (n : Nat) (f : Win → Win) : (s.modWin n f).fresh = s.fresh := rfl
@[simp] theorem State.modWin_out (n : Nat) (f : Win → Win) : (s.modWin n f).out = s.out := rfl
@[simp] theorem State.modWin_win_same (n : Nat) (f : Win → Win) : (s.modWin n f).win n = f (s.win n) := Tab.get_set_same _ _ _
theorem State.modWin_win_other (n : Nat) (f : Win → Win) (m : Nat) (h : m ≠ n) : (s.modWin n f).win m = s.win m := Tab.get_set_other h _
@[simp] theorem State.modWin_lake (n : Nat) (f : Win → Win) (m : Nat) : (s.modWin n f).lake m = s.lake m := rfl
@[simp] theorem State.modWin_lp (n : Nat) (f : Win → Win) (m : Nat) : (s.modWin n f).lp m = s.lp m := rfl
@[simp] theorem State.modWin_mte (n : Nat) (f : Win → Win) (m : Nat) : (s.modWin n f).mte m = s.mte m := rfl
@[simp] theorem State.modWin_spring (n : Nat) (f : Win → Win) (m : Nat) : (s.modWin n f).spring m = s.spring m := rfl
@[simp] theorem State.modWin_stop (n : Nat) (f : Win → Win) (m : Nat) : (s.modWin n f).stop m = s.stop m := rfl
@[simp] theorem State.modWin_cue (n : Nat) (f : Win → Win) (m : Nat) : (s.modWin n f).cue m = s.cue m := rfl
@[simp] theorem State.modWin_reel (n : Nat) (f : Win → Win) (m : Nat) : (s.modWin n f).reel m = s.reel m := rfl
@[simp] theorem State.modWin_arb (n : Nat) (f : Win → Win) (m : Nat) : (s.modWin n f).arb m = s.arb m := rfl
@[simp] theorem State.modWin_ctx (n : Nat) (f : Win → Win) (m : Nat) : (s.modWin n f).ctx m = s.ctx m := rfl
@[simp] theorem State.modWin_tag (n : Nat) (f : Win → Win) (m : Nat) : (s.modWin n f).tag m = s.tag m := rfl

/-! ### `modReel` -/

@[simp] theorem State.modReel_pending (n : Nat) (f : Reel → Reel) : (s.modReel n f).pending = s.pending := rfl
@[simp] theorem State.modReel_variant (n : Nat) (f : Reel → Reel) : (s.modReel n f).variant = s.variant := rfl
@[simp] theorem State.modReel_mem (n : Nat) (f : Reel → Reel) : (s.modReel n f).mem = s.mem := rfl
@[simp] theorem State.modReel_rows (n : Nat) (f : Reel → Reel) : (s.modReel n f).rows = s.rows := rfl
@[simp] theorem State.modReel_lakes (n : Nat) (f : Reel → Reel) : (s.modReel n f).lakes = s.lakes := rfl
@[simp] theorem State.modReel_lpow (n : Nat) (f : Reel → Reel) : (s.modReel n f).lpow = s.lpow := rfl
@[simp] theorem State.modReel_mtes (n : Nat) (f : Reel → Reel) : (s.modReel n f).mtes = s.mtes := rfl
@[simp] theorem State.modReel_springs (n : Nat) (f : Reel → Reel) : (s.modReel n f).springs = s.springs := rfl
@[simp] theorem State.modReel_arbs (n : Nat) (f : Reel → Reel) : (s.modReel n f).arbs = s.arbs := rfl
@[simp] theorem State.modReel_backoff (n : Nat) (f : Reel → Reel) : (s.modReel n f).backoff = s.backoff := rfl
@[simp] theorem State.modReel_stops (n : Nat) (f : Reel → Reel) : (s.modReel n f).stops = s.stops := rfl
@[simp] theorem State.modReel_stopCfg (n : Nat) (f : Reel → Reel) : (s.modReel n f).stopCfg = s.stopCfg := rfl
@[simp] theorem State.modReel_ring (n : Nat) (f : Reel → Reel) : (s.modReel n f).ring = s.ring := rfl
@[simp] theorem State.modReel_cues (n : Nat) (f : Reel → Reel) : (s.modReel n f).cues = s.cues := rfl
@[simp] theorem State.modReel_wins (n : Nat) (f : Reel → Reel) : (s.modReel n f).wins = s.wins := rfl
@[simp] theorem State.modReel_ctxs (n : Nat) (f : Reel → Reel) : (s.modReel n f).ctxs = s.ctxs := rfl
@[simp] theorem State.modReel_basin (n : Nat) (f : Reel → Reel) : (s.modReel n f).basin = s.basin := rfl
@[simp] theorem State.modReel_weir (n : Nat) (f : Reel → Reel) : (s.modReel n f).weir = s.weir := rfl
@[simp] theorem State.modReel_err (n : Nat) (f : Reel → Reel) : (s.modReel n f).err = s.err := rfl
@[simp] theorem State.modReel_cnt (n : Nat) (f : Reel → Reel) : (s.modReel n f).cnt = s.cnt := rfl
@[simp] theorem State.modReel_pw (n : Nat) (f : Reel → Reel) : (s.modReel n f).pw = s.pw := rfl
@[simp] theorem State.modReel_tm (n : Nat) (f : Reel → Reel) : (s.modReel n f).tm = s.tm := rfl
@[simp] theorem State.modReel_remotes (n : Nat) (f : Reel → Reel) : (s.modReel n f).remotes = s.remotes := rfl
@[simp] theorem State.modReel_fences (n : Nat) (f : Reel → Reel) : (s.modReel n f).fences = s.fences := rfl
@[simp] theorem State.modReel_signals (n : Nat) (f : Reel → Reel) : (s.modReel n f).signals = s.signals := rfl
@[simp] theorem State.modReel_inbox (n : Nat) (f : Reel → Reel) : (s.modReel n f).inbox = s.inbox := rfl
@[simp] theorem State.modReel_flights (n : Nat) (f : Reel → Reel) : (s.modReel n f).flights = s.flights := rfl
@[simp] theorem State.modReel_hostHeld (n : Nat) (f : Reel → Reel) : (s.modReel n f).hostHeld = s.hostHeld := rfl
@[simp] theorem State.modReel_hostReads (n : Nat) (f : Reel → Reel) : (s.modReel n f).hostReads = s.hostReads := rfl
@[simp] theorem State.modReel_hostRetry (n : Nat) (f : Reel → Reel) : (s.modReel n f).hostRetry = s.hostRetry := rfl
@[simp] theorem State.modReel_group (n : Nat) (f : Reel → Reel) : (s.modReel n f).group = s.group := rfl
@[simp] theorem State.modReel_ps (n : Nat) (f : Reel → Reel) : (s.modReel n f).ps = s.ps := rfl
@[simp] theorem State.modReel_inPond (n : Nat) (f : Reel → Reel) : (s.modReel n f).inPond = s.inPond := rfl
@[simp] theorem State.modReel_clientsOff (n : Nat) (f : Reel → Reel) : (s.modReel n f).clientsOff = s.clientsOff := rfl
@[simp] theorem State.modReel_i3c (n : Nat) (f : Reel → Reel) : (s.modReel n f).i3c = s.i3c := rfl
@[simp] theorem State.modReel_fw (n : Nat) (f : Reel → Reel) : (s.modReel n f).fw = s.fw := rfl
@[simp] theorem State.modReel_meter (n : Nat) (f : Reel → Reel) : (s.modReel n f).meter = s.meter := rfl
@[simp] theorem State.modReel_nextId (n : Nat) (f : Reel → Reel) : (s.modReel n f).nextId = s.nextId := rfl
@[simp] theorem State.modReel_fresh (n : Nat) (f : Reel → Reel) : (s.modReel n f).fresh = s.fresh := rfl
@[simp] theorem State.modReel_out (n : Nat) (f : Reel → Reel) : (s.modReel n f).out = s.out := rfl
@[simp] theorem State.modReel_reel_same (n : Nat) (f : Reel → Reel) : (s.modReel n f).reel n = f (s.reel n) := Tab.get_set_same _ _ _
theorem State.modReel_reel_other (n : Nat) (f : Reel → Reel) (m : Nat) (h : m ≠ n) : (s.modReel n f).reel m = s.reel m := Tab.get_set_other h _
@[simp] theorem State.modReel_lake (n : Nat) (f : Reel → Reel) (m : Nat) : (s.modReel n f).lake m = s.lake m := rfl
@[simp] theorem State.modReel_lp (n : Nat) (f : Reel → Reel) (m : Nat) : (s.modReel n f).lp m = s.lp m := rfl
@[simp] theorem State.modReel_mte (n : Nat) (f : Reel → Reel) (m : Nat) : (s.modReel n f).mte m = s.mte m := rfl
@[simp] theorem State.modReel_spring (n : Nat) (f : Reel → Reel) (m : Nat) : (s.modReel n f).spring m = s.spring m := rfl
@[simp] theorem State.modReel_stop (n : Nat) (f : Reel → Reel) (m : Nat) : (s.modReel n f).stop m = s.stop m := rfl
@[simp] theorem State.modReel_cue (n : Nat) (f : Reel → Reel) (m : Nat) : (s.modReel n f).cue m = s.cue m := rfl
@[simp] theorem State.modReel_win (n : Nat) (f : Reel → Reel) (m : Nat) : (s.modReel n f).win m = s.win m := rfl
@[simp] theorem State.modReel_arb (n : Nat) (f : Reel → Reel) (m : Nat) : (s.modReel n f).arb m = s.arb m := rfl
@[simp] theorem State.modReel_ctx (n : Nat) (f : Reel → Reel) (m : Nat) : (s.modReel n f).ctx m = s.ctx m := rfl
@[simp] theorem State.modReel_tag (n : Nat) (f : Reel → Reel) (m : Nat) : (s.modReel n f).tag m = s.tag m := rfl

/-! ### `modArb` -/

@[simp] theorem State.modArb_pending (n : Nat) (f : Arb → Arb) : (s.modArb n f).pending = s.pending := rfl
@[simp] theorem State.modArb_variant (n : Nat) (f : Arb → Arb) : (s.modArb n f).variant = s.variant := rfl
@[simp] theorem State.modArb_mem (n : Nat) (f : Arb → Arb) : (s.modArb n f).mem = s.mem := rfl
@[simp] theorem State.modArb_rows (n : Nat) (f : Arb → Arb) : (s.modArb n f).rows = s.rows := rfl
@[simp] theorem State.modArb_lakes (n : Nat) (f : Arb → Arb) : (s.modArb n f).lakes = s.lakes := rfl
@[simp] theorem State.modArb_lpow (n : Nat) (f : Arb → Arb) : (s.modArb n f).lpow = s.lpow := rfl
@[simp] theorem State.modArb_mtes (n : Nat) (f : Arb → Arb) : (s.modArb n f).mtes = s.mtes := rfl
@[simp] theorem State.modArb_springs (n : Nat) (f : Arb → Arb) : (s.modArb n f).springs = s.springs := rfl
@[simp] theorem State.modArb_backoff (n : Nat) (f : Arb → Arb) : (s.modArb n f).backoff = s.backoff := rfl
@[simp] theorem State.modArb_stops (n : Nat) (f : Arb → Arb) : (s.modArb n f).stops = s.stops := rfl
@[simp] theorem State.modArb_stopCfg (n : Nat) (f : Arb → Arb) : (s.modArb n f).stopCfg = s.stopCfg := rfl
@[simp] theorem State.modArb_ring (n : Nat) (f : Arb → Arb) : (s.modArb n f).ring = s.ring := rfl
@[simp] theorem State.modArb_cues (n : Nat) (f : Arb → Arb) : (s.modArb n f).cues = s.cues := rfl
@[simp] theorem State.modArb_wins (n : Nat) (f : Arb → Arb) : (s.modArb n f).wins = s.wins := rfl
@[simp] theorem State.modArb_reels (n : Nat) (f : Arb → Arb) : (s.modArb n f).reels = s.reels := rfl
@[simp] theorem State.modArb_ctxs (n : Nat) (f : Arb → Arb) : (s.modArb n f).ctxs = s.ctxs := rfl
@[simp] theorem State.modArb_basin (n : Nat) (f : Arb → Arb) : (s.modArb n f).basin = s.basin := rfl
@[simp] theorem State.modArb_weir (n : Nat) (f : Arb → Arb) : (s.modArb n f).weir = s.weir := rfl
@[simp] theorem State.modArb_err (n : Nat) (f : Arb → Arb) : (s.modArb n f).err = s.err := rfl
@[simp] theorem State.modArb_cnt (n : Nat) (f : Arb → Arb) : (s.modArb n f).cnt = s.cnt := rfl
@[simp] theorem State.modArb_pw (n : Nat) (f : Arb → Arb) : (s.modArb n f).pw = s.pw := rfl
@[simp] theorem State.modArb_tm (n : Nat) (f : Arb → Arb) : (s.modArb n f).tm = s.tm := rfl
@[simp] theorem State.modArb_remotes (n : Nat) (f : Arb → Arb) : (s.modArb n f).remotes = s.remotes := rfl
@[simp] theorem State.modArb_fences (n : Nat) (f : Arb → Arb) : (s.modArb n f).fences = s.fences := rfl
@[simp] theorem State.modArb_signals (n : Nat) (f : Arb → Arb) : (s.modArb n f).signals = s.signals := rfl
@[simp] theorem State.modArb_inbox (n : Nat) (f : Arb → Arb) : (s.modArb n f).inbox = s.inbox := rfl
@[simp] theorem State.modArb_flights (n : Nat) (f : Arb → Arb) : (s.modArb n f).flights = s.flights := rfl
@[simp] theorem State.modArb_hostHeld (n : Nat) (f : Arb → Arb) : (s.modArb n f).hostHeld = s.hostHeld := rfl
@[simp] theorem State.modArb_hostReads (n : Nat) (f : Arb → Arb) : (s.modArb n f).hostReads = s.hostReads := rfl
@[simp] theorem State.modArb_hostRetry (n : Nat) (f : Arb → Arb) : (s.modArb n f).hostRetry = s.hostRetry := rfl
@[simp] theorem State.modArb_group (n : Nat) (f : Arb → Arb) : (s.modArb n f).group = s.group := rfl
@[simp] theorem State.modArb_ps (n : Nat) (f : Arb → Arb) : (s.modArb n f).ps = s.ps := rfl
@[simp] theorem State.modArb_inPond (n : Nat) (f : Arb → Arb) : (s.modArb n f).inPond = s.inPond := rfl
@[simp] theorem State.modArb_clientsOff (n : Nat) (f : Arb → Arb) : (s.modArb n f).clientsOff = s.clientsOff := rfl
@[simp] theorem State.modArb_i3c (n : Nat) (f : Arb → Arb) : (s.modArb n f).i3c = s.i3c := rfl
@[simp] theorem State.modArb_fw (n : Nat) (f : Arb → Arb) : (s.modArb n f).fw = s.fw := rfl
@[simp] theorem State.modArb_meter (n : Nat) (f : Arb → Arb) : (s.modArb n f).meter = s.meter := rfl
@[simp] theorem State.modArb_nextId (n : Nat) (f : Arb → Arb) : (s.modArb n f).nextId = s.nextId := rfl
@[simp] theorem State.modArb_fresh (n : Nat) (f : Arb → Arb) : (s.modArb n f).fresh = s.fresh := rfl
@[simp] theorem State.modArb_out (n : Nat) (f : Arb → Arb) : (s.modArb n f).out = s.out := rfl
@[simp] theorem State.modArb_arb_same (n : Nat) (f : Arb → Arb) : (s.modArb n f).arb n = f (s.arb n) := Tab.get_set_same _ _ _
theorem State.modArb_arb_other (n : Nat) (f : Arb → Arb) (m : Nat) (h : m ≠ n) : (s.modArb n f).arb m = s.arb m := Tab.get_set_other h _
@[simp] theorem State.modArb_lake (n : Nat) (f : Arb → Arb) (m : Nat) : (s.modArb n f).lake m = s.lake m := rfl
@[simp] theorem State.modArb_lp (n : Nat) (f : Arb → Arb) (m : Nat) : (s.modArb n f).lp m = s.lp m := rfl
@[simp] theorem State.modArb_mte (n : Nat) (f : Arb → Arb) (m : Nat) : (s.modArb n f).mte m = s.mte m := rfl
@[simp] theorem State.modArb_spring (n : Nat) (f : Arb → Arb) (m : Nat) : (s.modArb n f).spring m = s.spring m := rfl
@[simp] theorem State.modArb_stop (n : Nat) (f : Arb → Arb) (m : Nat) : (s.modArb n f).stop m = s.stop m := rfl
@[simp] theorem State.modArb_cue (n : Nat) (f : Arb → Arb) (m : Nat) : (s.modArb n f).cue m = s.cue m := rfl
@[simp] theorem State.modArb_win (n : Nat) (f : Arb → Arb) (m : Nat) : (s.modArb n f).win m = s.win m := rfl
@[simp] theorem State.modArb_reel (n : Nat) (f : Arb → Arb) (m : Nat) : (s.modArb n f).reel m = s.reel m := rfl
@[simp] theorem State.modArb_ctx (n : Nat) (f : Arb → Arb) (m : Nat) : (s.modArb n f).ctx m = s.ctx m := rfl
@[simp] theorem State.modArb_tag (n : Nat) (f : Arb → Arb) (m : Nat) : (s.modArb n f).tag m = s.tag m := rfl

/-! ### `setCtx` -/

@[simp] theorem State.setCtx_pending (n : Nat) (c : Ctx) : (s.setCtx n c).pending = s.pending := rfl
@[simp] theorem State.setCtx_variant (n : Nat) (c : Ctx) : (s.setCtx n c).variant = s.variant := rfl
@[simp] theorem State.setCtx_mem (n : Nat) (c : Ctx) : (s.setCtx n c).mem = s.mem := rfl
@[simp] theorem State.setCtx_rows (n : Nat) (c : Ctx) : (s.setCtx n c).rows = s.rows := rfl
@[simp] theorem State.setCtx_lakes (n : Nat) (c : Ctx) : (s.setCtx n c).lakes = s.lakes := rfl
@[simp] theorem State.setCtx_lpow (n : Nat) (c : Ctx) : (s.setCtx n c).lpow = s.lpow := rfl
@[simp] theorem State.setCtx_mtes (n : Nat) (c : Ctx) : (s.setCtx n c).mtes = s.mtes := rfl
@[simp] theorem State.setCtx_springs (n : Nat) (c : Ctx) : (s.setCtx n c).springs = s.springs := rfl
@[simp] theorem State.setCtx_arbs (n : Nat) (c : Ctx) : (s.setCtx n c).arbs = s.arbs := rfl
@[simp] theorem State.setCtx_backoff (n : Nat) (c : Ctx) : (s.setCtx n c).backoff = s.backoff := rfl
@[simp] theorem State.setCtx_stops (n : Nat) (c : Ctx) : (s.setCtx n c).stops = s.stops := rfl
@[simp] theorem State.setCtx_stopCfg (n : Nat) (c : Ctx) : (s.setCtx n c).stopCfg = s.stopCfg := rfl
@[simp] theorem State.setCtx_ring (n : Nat) (c : Ctx) : (s.setCtx n c).ring = s.ring := rfl
@[simp] theorem State.setCtx_cues (n : Nat) (c : Ctx) : (s.setCtx n c).cues = s.cues := rfl
@[simp] theorem State.setCtx_wins (n : Nat) (c : Ctx) : (s.setCtx n c).wins = s.wins := rfl
@[simp] theorem State.setCtx_reels (n : Nat) (c : Ctx) : (s.setCtx n c).reels = s.reels := rfl
@[simp] theorem State.setCtx_basin (n : Nat) (c : Ctx) : (s.setCtx n c).basin = s.basin := rfl
@[simp] theorem State.setCtx_weir (n : Nat) (c : Ctx) : (s.setCtx n c).weir = s.weir := rfl
@[simp] theorem State.setCtx_err (n : Nat) (c : Ctx) : (s.setCtx n c).err = s.err := rfl
@[simp] theorem State.setCtx_cnt (n : Nat) (c : Ctx) : (s.setCtx n c).cnt = s.cnt := rfl
@[simp] theorem State.setCtx_pw (n : Nat) (c : Ctx) : (s.setCtx n c).pw = s.pw := rfl
@[simp] theorem State.setCtx_tm (n : Nat) (c : Ctx) : (s.setCtx n c).tm = s.tm := rfl
@[simp] theorem State.setCtx_remotes (n : Nat) (c : Ctx) : (s.setCtx n c).remotes = s.remotes := rfl
@[simp] theorem State.setCtx_fences (n : Nat) (c : Ctx) : (s.setCtx n c).fences = s.fences := rfl
@[simp] theorem State.setCtx_signals (n : Nat) (c : Ctx) : (s.setCtx n c).signals = s.signals := rfl
@[simp] theorem State.setCtx_inbox (n : Nat) (c : Ctx) : (s.setCtx n c).inbox = s.inbox := rfl
@[simp] theorem State.setCtx_flights (n : Nat) (c : Ctx) : (s.setCtx n c).flights = s.flights := rfl
@[simp] theorem State.setCtx_hostHeld (n : Nat) (c : Ctx) : (s.setCtx n c).hostHeld = s.hostHeld := rfl
@[simp] theorem State.setCtx_hostReads (n : Nat) (c : Ctx) : (s.setCtx n c).hostReads = s.hostReads := rfl
@[simp] theorem State.setCtx_hostRetry (n : Nat) (c : Ctx) : (s.setCtx n c).hostRetry = s.hostRetry := rfl
@[simp] theorem State.setCtx_group (n : Nat) (c : Ctx) : (s.setCtx n c).group = s.group := rfl
@[simp] theorem State.setCtx_ps (n : Nat) (c : Ctx) : (s.setCtx n c).ps = s.ps := rfl
@[simp] theorem State.setCtx_inPond (n : Nat) (c : Ctx) : (s.setCtx n c).inPond = s.inPond := rfl
@[simp] theorem State.setCtx_clientsOff (n : Nat) (c : Ctx) : (s.setCtx n c).clientsOff = s.clientsOff := rfl
@[simp] theorem State.setCtx_i3c (n : Nat) (c : Ctx) : (s.setCtx n c).i3c = s.i3c := rfl
@[simp] theorem State.setCtx_fw (n : Nat) (c : Ctx) : (s.setCtx n c).fw = s.fw := rfl
@[simp] theorem State.setCtx_meter (n : Nat) (c : Ctx) : (s.setCtx n c).meter = s.meter := rfl
@[simp] theorem State.setCtx_nextId (n : Nat) (c : Ctx) : (s.setCtx n c).nextId = s.nextId := rfl
@[simp] theorem State.setCtx_fresh (n : Nat) (c : Ctx) : (s.setCtx n c).fresh = s.fresh := rfl
@[simp] theorem State.setCtx_out (n : Nat) (c : Ctx) : (s.setCtx n c).out = s.out := rfl
@[simp] theorem State.setCtx_lake (n : Nat) (c : Ctx) (m : Nat) : (s.setCtx n c).lake m = s.lake m := rfl
@[simp] theorem State.setCtx_lp (n : Nat) (c : Ctx) (m : Nat) : (s.setCtx n c).lp m = s.lp m := rfl
@[simp] theorem State.setCtx_mte (n : Nat) (c : Ctx) (m : Nat) : (s.setCtx n c).mte m = s.mte m := rfl
@[simp] theorem State.setCtx_spring (n : Nat) (c : Ctx) (m : Nat) : (s.setCtx n c).spring m = s.spring m := rfl
@[simp] theorem State.setCtx_stop (n : Nat) (c : Ctx) (m : Nat) : (s.setCtx n c).stop m = s.stop m := rfl
@[simp] theorem State.setCtx_cue (n : Nat) (c : Ctx) (m : Nat) : (s.setCtx n c).cue m = s.cue m := rfl
@[simp] theorem State.setCtx_win (n : Nat) (c : Ctx) (m : Nat) : (s.setCtx n c).win m = s.win m := rfl
@[simp] theorem State.setCtx_reel (n : Nat) (c : Ctx) (m : Nat) : (s.setCtx n c).reel m = s.reel m := rfl
@[simp] theorem State.setCtx_arb (n : Nat) (c : Ctx) (m : Nat) : (s.setCtx n c).arb m = s.arb m := rfl
@[simp] theorem State.setCtx_tag (n : Nat) (c : Ctx) (m : Nat) : (s.setCtx n c).tag m = s.tag m := rfl

/-! ### `setTag` -/

@[simp] theorem State.setTag_pending (n : Nat) (t : RowTag) : (s.setTag n t).pending = s.pending := rfl
@[simp] theorem State.setTag_variant (n : Nat) (t : RowTag) : (s.setTag n t).variant = s.variant := rfl
@[simp] theorem State.setTag_mem (n : Nat) (t : RowTag) : (s.setTag n t).mem = s.mem := rfl
@[simp] theorem State.setTag_lakes (n : Nat) (t : RowTag) : (s.setTag n t).lakes = s.lakes := rfl
@[simp] theorem State.setTag_lpow (n : Nat) (t : RowTag) : (s.setTag n t).lpow = s.lpow := rfl
@[simp] theorem State.setTag_mtes (n : Nat) (t : RowTag) : (s.setTag n t).mtes = s.mtes := rfl
@[simp] theorem State.setTag_springs (n : Nat) (t : RowTag) : (s.setTag n t).springs = s.springs := rfl
@[simp] theorem State.setTag_arbs (n : Nat) (t : RowTag) : (s.setTag n t).arbs = s.arbs := rfl
@[simp] theorem State.setTag_backoff (n : Nat) (t : RowTag) : (s.setTag n t).backoff = s.backoff := rfl
@[simp] theorem State.setTag_stops (n : Nat) (t : RowTag) : (s.setTag n t).stops = s.stops := rfl
@[simp] theorem State.setTag_stopCfg (n : Nat) (t : RowTag) : (s.setTag n t).stopCfg = s.stopCfg := rfl
@[simp] theorem State.setTag_ring (n : Nat) (t : RowTag) : (s.setTag n t).ring = s.ring := rfl
@[simp] theorem State.setTag_cues (n : Nat) (t : RowTag) : (s.setTag n t).cues = s.cues := rfl
@[simp] theorem State.setTag_wins (n : Nat) (t : RowTag) : (s.setTag n t).wins = s.wins := rfl
@[simp] theorem State.setTag_reels (n : Nat) (t : RowTag) : (s.setTag n t).reels = s.reels := rfl
@[simp] theorem State.setTag_ctxs (n : Nat) (t : RowTag) : (s.setTag n t).ctxs = s.ctxs := rfl
@[simp] theorem State.setTag_basin (n : Nat) (t : RowTag) : (s.setTag n t).basin = s.basin := rfl
@[simp] theorem State.setTag_weir (n : Nat) (t : RowTag) : (s.setTag n t).weir = s.weir := rfl
@[simp] theorem State.setTag_err (n : Nat) (t : RowTag) : (s.setTag n t).err = s.err := rfl
@[simp] theorem State.setTag_cnt (n : Nat) (t : RowTag) : (s.setTag n t).cnt = s.cnt := rfl
@[simp] theorem State.setTag_pw (n : Nat) (t : RowTag) : (s.setTag n t).pw = s.pw := rfl
@[simp] theorem State.setTag_tm (n : Nat) (t : RowTag) : (s.setTag n t).tm = s.tm := rfl
@[simp] theorem State.setTag_remotes (n : Nat) (t : RowTag) : (s.setTag n t).remotes = s.remotes := rfl
@[simp] theorem State.setTag_fences (n : Nat) (t : RowTag) : (s.setTag n t).fences = s.fences := rfl
@[simp] theorem State.setTag_signals (n : Nat) (t : RowTag) : (s.setTag n t).signals = s.signals := rfl
@[simp] theorem State.setTag_inbox (n : Nat) (t : RowTag) : (s.setTag n t).inbox = s.inbox := rfl
@[simp] theorem State.setTag_flights (n : Nat) (t : RowTag) : (s.setTag n t).flights = s.flights := rfl
@[simp] theorem State.setTag_hostHeld (n : Nat) (t : RowTag) : (s.setTag n t).hostHeld = s.hostHeld := rfl
@[simp] theorem State.setTag_hostReads (n : Nat) (t : RowTag) : (s.setTag n t).hostReads = s.hostReads := rfl
@[simp] theorem State.setTag_hostRetry (n : Nat) (t : RowTag) : (s.setTag n t).hostRetry = s.hostRetry := rfl
@[simp] theorem State.setTag_group (n : Nat) (t : RowTag) : (s.setTag n t).group = s.group := rfl
@[simp] theorem State.setTag_ps (n : Nat) (t : RowTag) : (s.setTag n t).ps = s.ps := rfl
@[simp] theorem State.setTag_inPond (n : Nat) (t : RowTag) : (s.setTag n t).inPond = s.inPond := rfl
@[simp] theorem State.setTag_clientsOff (n : Nat) (t : RowTag) : (s.setTag n t).clientsOff = s.clientsOff := rfl
@[simp] theorem State.setTag_i3c (n : Nat) (t : RowTag) : (s.setTag n t).i3c = s.i3c := rfl
@[simp] theorem State.setTag_fw (n : Nat) (t : RowTag) : (s.setTag n t).fw = s.fw := rfl
@[simp] theorem State.setTag_meter (n : Nat) (t : RowTag) : (s.setTag n t).meter = s.meter := rfl
@[simp] theorem State.setTag_nextId (n : Nat) (t : RowTag) : (s.setTag n t).nextId = s.nextId := rfl
@[simp] theorem State.setTag_fresh (n : Nat) (t : RowTag) : (s.setTag n t).fresh = s.fresh := rfl
@[simp] theorem State.setTag_out (n : Nat) (t : RowTag) : (s.setTag n t).out = s.out := rfl
@[simp] theorem State.setTag_lake (n : Nat) (t : RowTag) (m : Nat) : (s.setTag n t).lake m = s.lake m := rfl
@[simp] theorem State.setTag_lp (n : Nat) (t : RowTag) (m : Nat) : (s.setTag n t).lp m = s.lp m := rfl
@[simp] theorem State.setTag_mte (n : Nat) (t : RowTag) (m : Nat) : (s.setTag n t).mte m = s.mte m := rfl
@[simp] theorem State.setTag_spring (n : Nat) (t : RowTag) (m : Nat) : (s.setTag n t).spring m = s.spring m := rfl
@[simp] theorem State.setTag_stop (n : Nat) (t : RowTag) (m : Nat) : (s.setTag n t).stop m = s.stop m := rfl
@[simp] theorem State.setTag_cue (n : Nat) (t : RowTag) (m : Nat) : (s.setTag n t).cue m = s.cue m := rfl
@[simp] theorem State.setTag_win (n : Nat) (t : RowTag) (m : Nat) : (s.setTag n t).win m = s.win m := rfl
@[simp] theorem State.setTag_reel (n : Nat) (t : RowTag) (m : Nat) : (s.setTag n t).reel m = s.reel m := rfl
@[simp] theorem State.setTag_arb (n : Nat) (t : RowTag) (m : Nat) : (s.setTag n t).arb m = s.arb m := rfl
@[simp] theorem State.setTag_ctx (n : Nat) (t : RowTag) (m : Nat) : (s.setTag n t).ctx m = s.ctx m := rfl

/-! ### `putWords` -/

@[simp] theorem State.putWords_pending (row : Nat) (ws : List (Nat × Word)) : (s.putWords row ws).pending = s.pending := rfl
@[simp] theorem State.putWords_variant (row : Nat) (ws : List (Nat × Word)) : (s.putWords row ws).variant = s.variant := rfl
@[simp] theorem State.putWords_rows (row : Nat) (ws : List (Nat × Word)) : (s.putWords row ws).rows = s.rows := rfl
@[simp] theorem State.putWords_lakes (row : Nat) (ws : List (Nat × Word)) : (s.putWords row ws).lakes = s.lakes := rfl
@[simp] theorem State.putWords_lpow (row : Nat) (ws : List (Nat × Word)) : (s.putWords row ws).lpow = s.lpow := rfl
@[simp] theorem State.putWords_mtes (row : Nat) (ws : List (Nat × Word)) : (s.putWords row ws).mtes = s.mtes := rfl
@[simp] theorem State.putWords_springs (row : Nat) (ws : List (Nat × Word)) : (s.putWords row ws).springs = s.springs := rfl
@[simp] theorem State.putWords_arbs (row : Nat) (ws : List (Nat × Word)) : (s.putWords row ws).arbs = s.arbs := rfl
@[simp] theorem State.putWords_backoff (row : Nat) (ws : List (Nat × Word)) : (s.putWords row ws).backoff = s.backoff := rfl
@[simp] theorem State.putWords_stops (row : Nat) (ws : List (Nat × Word)) : (s.putWords row ws).stops = s.stops := rfl
@[simp] theorem State.putWords_stopCfg (row : Nat) (ws : List (Nat × Word)) : (s.putWords row ws).stopCfg = s.stopCfg := rfl
@[simp] theorem State.putWords_ring (row : Nat) (ws : List (Nat × Word)) : (s.putWords row ws).ring = s.ring := rfl
@[simp] theorem State.putWords_cues (row : Nat) (ws : List (Nat × Word)) : (s.putWords row ws).cues = s.cues := rfl
@[simp] theorem State.putWords_wins (row : Nat) (ws : List (Nat × Word)) : (s.putWords row ws).wins = s.wins := rfl
@[simp] theorem State.putWords_reels (row : Nat) (ws : List (Nat × Word)) : (s.putWords row ws).reels = s.reels := rfl
@[simp] theorem State.putWords_ctxs (row : Nat) (ws : List (Nat × Word)) : (s.putWords row ws).ctxs = s.ctxs := rfl
@[simp] theorem State.putWords_basin (row : Nat) (ws : List (Nat × Word)) : (s.putWords row ws).basin = s.basin := rfl
@[simp] theorem State.putWords_weir (row : Nat) (ws : List (Nat × Word)) : (s.putWords row ws).weir = s.weir := rfl
@[simp] theorem State.putWords_err (row : Nat) (ws : List (Nat × Word)) : (s.putWords row ws).err = s.err := rfl
@[simp] theorem State.putWords_cnt (row : Nat) (ws : List (Nat × Word)) : (s.putWords row ws).cnt = s.cnt := rfl
@[simp] theorem State.putWords_pw (row : Nat) (ws : List (Nat × Word)) : (s.putWords row ws).pw = s.pw := rfl
@[simp] theorem State.putWords_tm (row : Nat) (ws : List (Nat × Word)) : (s.putWords row ws).tm = s.tm := rfl
@[simp] theorem State.putWords_remotes (row : Nat) (ws : List (Nat × Word)) : (s.putWords row ws).remotes = s.remotes := rfl
@[simp] theorem State.putWords_fences (row : Nat) (ws : List (Nat × Word)) : (s.putWords row ws).fences = s.fences := rfl
@[simp] theorem State.putWords_signals (row : Nat) (ws : List (Nat × Word)) : (s.putWords row ws).signals = s.signals := rfl
@[simp] theorem State.putWords_inbox (row : Nat) (ws : List (Nat × Word)) : (s.putWords row ws).inbox = s.inbox := rfl
@[simp] theorem State.putWords_flights (row : Nat) (ws : List (Nat × Word)) : (s.putWords row ws).flights = s.flights := rfl
@[simp] theorem State.putWords_hostHeld (row : Nat) (ws : List (Nat × Word)) : (s.putWords row ws).hostHeld = s.hostHeld := rfl
@[simp] theorem State.putWords_hostReads (row : Nat) (ws : List (Nat × Word)) : (s.putWords row ws).hostReads = s.hostReads := rfl
@[simp] theorem State.putWords_hostRetry (row : Nat) (ws : List (Nat × Word)) : (s.putWords row ws).hostRetry = s.hostRetry := rfl
@[simp] theorem State.putWords_group (row : Nat) (ws : List (Nat × Word)) : (s.putWords row ws).group = s.group := rfl
@[simp] theorem State.putWords_ps (row : Nat) (ws : List (Nat × Word)) : (s.putWords row ws).ps = s.ps := rfl
@[simp] theorem State.putWords_inPond (row : Nat) (ws : List (Nat × Word)) : (s.putWords row ws).inPond = s.inPond := rfl
@[simp] theorem State.putWords_clientsOff (row : Nat) (ws : List (Nat × Word)) : (s.putWords row ws).clientsOff = s.clientsOff := rfl
@[simp] theorem State.putWords_i3c (row : Nat) (ws : List (Nat × Word)) : (s.putWords row ws).i3c = s.i3c := rfl
@[simp] theorem State.putWords_fw (row : Nat) (ws : List (Nat × Word)) : (s.putWords row ws).fw = s.fw := rfl
@[simp] theorem State.putWords_meter (row : Nat) (ws : List (Nat × Word)) : (s.putWords row ws).meter = s.meter := rfl
@[simp] theorem State.putWords_nextId (row : Nat) (ws : List (Nat × Word)) : (s.putWords row ws).nextId = s.nextId := rfl
@[simp] theorem State.putWords_fresh (row : Nat) (ws : List (Nat × Word)) : (s.putWords row ws).fresh = s.fresh := rfl
@[simp] theorem State.putWords_out (row : Nat) (ws : List (Nat × Word)) : (s.putWords row ws).out = s.out := rfl
@[simp] theorem State.putWords_lake (row : Nat) (ws : List (Nat × Word)) (m : Nat) : (s.putWords row ws).lake m = s.lake m := rfl
@[simp] theorem State.putWords_lp (row : Nat) (ws : List (Nat × Word)) (m : Nat) : (s.putWords row ws).lp m = s.lp m := rfl
@[simp] theorem State.putWords_mte (row : Nat) (ws : List (Nat × Word)) (m : Nat) : (s.putWords row ws).mte m = s.mte m := rfl
@[simp] theorem State.putWords_spring (row : Nat) (ws : List (Nat × Word)) (m : Nat) : (s.putWords row ws).spring m = s.spring m := rfl
@[simp] theorem State.putWords_stop (row : Nat) (ws : List (Nat × Word)) (m : Nat) : (s.putWords row ws).stop m = s.stop m := rfl
@[simp] theorem State.putWords_cue (row : Nat) (ws : List (Nat × Word)) (m : Nat) : (s.putWords row ws).cue m = s.cue m := rfl
@[simp] theorem State.putWords_win (row : Nat) (ws : List (Nat × Word)) (m : Nat) : (s.putWords row ws).win m = s.win m := rfl
@[simp] theorem State.putWords_reel (row : Nat) (ws : List (Nat × Word)) (m : Nat) : (s.putWords row ws).reel m = s.reel m := rfl
@[simp] theorem State.putWords_arb (row : Nat) (ws : List (Nat × Word)) (m : Nat) : (s.putWords row ws).arb m = s.arb m := rfl
@[simp] theorem State.putWords_ctx (row : Nat) (ws : List (Nat × Word)) (m : Nat) : (s.putWords row ws).ctx m = s.ctx m := rfl
@[simp] theorem State.putWords_tag (row : Nat) (ws : List (Nat × Word)) (m : Nat) : (s.putWords row ws).tag m = s.tag m := rfl

/-! ### `zeroRows` -/

@[simp] theorem State.zeroRows_pending (lo hi : Nat) : (s.zeroRows lo hi).pending = s.pending := rfl
@[simp] theorem State.zeroRows_variant (lo hi : Nat) : (s.zeroRows lo hi).variant = s.variant := rfl
@[simp] theorem State.zeroRows_rows (lo hi : Nat) : (s.zeroRows lo hi).rows = s.rows := rfl
@[simp] theorem State.zeroRows_lakes (lo hi : Nat) : (s.zeroRows lo hi).lakes = s.lakes := rfl
@[simp] theorem State.zeroRows_lpow (lo hi : Nat) : (s.zeroRows lo hi).lpow = s.lpow := rfl
@[simp] theorem State.zeroRows_mtes (lo hi : Nat) : (s.zeroRows lo hi).mtes = s.mtes := rfl
@[simp] theorem State.zeroRows_springs (lo hi : Nat) : (s.zeroRows lo hi).springs = s.springs := rfl
@[simp] theorem State.zeroRows_arbs (lo hi : Nat) : (s.zeroRows lo hi).arbs = s.arbs := rfl
@[simp] theorem State.zeroRows_backoff (lo hi : Nat) : (s.zeroRows lo hi).backoff = s.backoff := rfl
@[simp] theorem State.zeroRows_stops (lo hi : Nat) : (s.zeroRows lo hi).stops = s.stops := rfl
@[simp] theorem State.zeroRows_stopCfg (lo hi : Nat) : (s.zeroRows lo hi).stopCfg = s.stopCfg := rfl
@[simp] theorem State.zeroRows_ring (lo hi : Nat) : (s.zeroRows lo hi).ring = s.ring := rfl
@[simp] theorem State.zeroRows_cues (lo hi : Nat) : (s.zeroRows lo hi).cues = s.cues := rfl
@[simp] theorem State.zeroRows_wins (lo hi : Nat) : (s.zeroRows lo hi).wins = s.wins := rfl
@[simp] theorem State.zeroRows_reels (lo hi : Nat) : (s.zeroRows lo hi).reels = s.reels := rfl
@[simp] theorem State.zeroRows_ctxs (lo hi : Nat) : (s.zeroRows lo hi).ctxs = s.ctxs := rfl
@[simp] theorem State.zeroRows_basin (lo hi : Nat) : (s.zeroRows lo hi).basin = s.basin := rfl
@[simp] theorem State.zeroRows_weir (lo hi : Nat) : (s.zeroRows lo hi).weir = s.weir := rfl
@[simp] theorem State.zeroRows_err (lo hi : Nat) : (s.zeroRows lo hi).err = s.err := rfl
@[simp] theorem State.zeroRows_cnt (lo hi : Nat) : (s.zeroRows lo hi).cnt = s.cnt := rfl
@[simp] theorem State.zeroRows_pw (lo hi : Nat) : (s.zeroRows lo hi).pw = s.pw := rfl
@[simp] theorem State.zeroRows_tm (lo hi : Nat) : (s.zeroRows lo hi).tm = s.tm := rfl
@[simp] theorem State.zeroRows_remotes (lo hi : Nat) : (s.zeroRows lo hi).remotes = s.remotes := rfl
@[simp] theorem State.zeroRows_fences (lo hi : Nat) : (s.zeroRows lo hi).fences = s.fences := rfl
@[simp] theorem State.zeroRows_signals (lo hi : Nat) : (s.zeroRows lo hi).signals = s.signals := rfl
@[simp] theorem State.zeroRows_inbox (lo hi : Nat) : (s.zeroRows lo hi).inbox = s.inbox := rfl
@[simp] theorem State.zeroRows_flights (lo hi : Nat) : (s.zeroRows lo hi).flights = s.flights := rfl
@[simp] theorem State.zeroRows_hostHeld (lo hi : Nat) : (s.zeroRows lo hi).hostHeld = s.hostHeld := rfl
@[simp] theorem State.zeroRows_hostReads (lo hi : Nat) : (s.zeroRows lo hi).hostReads = s.hostReads := rfl
@[simp] theorem State.zeroRows_hostRetry (lo hi : Nat) : (s.zeroRows lo hi).hostRetry = s.hostRetry := rfl
@[simp] theorem State.zeroRows_group (lo hi : Nat) : (s.zeroRows lo hi).group = s.group := rfl
@[simp] theorem State.zeroRows_ps (lo hi : Nat) : (s.zeroRows lo hi).ps = s.ps := rfl
@[simp] theorem State.zeroRows_inPond (lo hi : Nat) : (s.zeroRows lo hi).inPond = s.inPond := rfl
@[simp] theorem State.zeroRows_clientsOff (lo hi : Nat) : (s.zeroRows lo hi).clientsOff = s.clientsOff := rfl
@[simp] theorem State.zeroRows_i3c (lo hi : Nat) : (s.zeroRows lo hi).i3c = s.i3c := rfl
@[simp] theorem State.zeroRows_fw (lo hi : Nat) : (s.zeroRows lo hi).fw = s.fw := rfl
@[simp] theorem State.zeroRows_meter (lo hi : Nat) : (s.zeroRows lo hi).meter = s.meter := rfl
@[simp] theorem State.zeroRows_nextId (lo hi : Nat) : (s.zeroRows lo hi).nextId = s.nextId := rfl
@[simp] theorem State.zeroRows_fresh (lo hi : Nat) : (s.zeroRows lo hi).fresh = s.fresh := rfl
@[simp] theorem State.zeroRows_out (lo hi : Nat) : (s.zeroRows lo hi).out = s.out := rfl
@[simp] theorem State.zeroRows_lake (lo hi : Nat) (m : Nat) : (s.zeroRows lo hi).lake m = s.lake m := rfl
@[simp] theorem State.zeroRows_lp (lo hi : Nat) (m : Nat) : (s.zeroRows lo hi).lp m = s.lp m := rfl
@[simp] theorem State.zeroRows_mte (lo hi : Nat) (m : Nat) : (s.zeroRows lo hi).mte m = s.mte m := rfl
@[simp] theorem State.zeroRows_spring (lo hi : Nat) (m : Nat) : (s.zeroRows lo hi).spring m = s.spring m := rfl
@[simp] theorem State.zeroRows_stop (lo hi : Nat) (m : Nat) : (s.zeroRows lo hi).stop m = s.stop m := rfl
@[simp] theorem State.zeroRows_cue (lo hi : Nat) (m : Nat) : (s.zeroRows lo hi).cue m = s.cue m := rfl
@[simp] theorem State.zeroRows_win (lo hi : Nat) (m : Nat) : (s.zeroRows lo hi).win m = s.win m := rfl
@[simp] theorem State.zeroRows_reel (lo hi : Nat) (m : Nat) : (s.zeroRows lo hi).reel m = s.reel m := rfl
@[simp] theorem State.zeroRows_arb (lo hi : Nat) (m : Nat) : (s.zeroRows lo hi).arb m = s.arb m := rfl
@[simp] theorem State.zeroRows_ctx (lo hi : Nat) (m : Nat) : (s.zeroRows lo hi).ctx m = s.ctx m := rfl
@[simp] theorem State.zeroRows_tag (lo hi : Nat) (m : Nat) : (s.zeroRows lo hi).tag m = s.tag m := rfl

/-! ### `clearTags` -/

@[simp] theorem State.clearTags_pending (lo hi : Nat) : (s.clearTags lo hi).pending = s.pending := rfl
@[simp] theorem State.clearTags_variant (lo hi : Nat) : (s.clearTags lo hi).variant = s.variant := rfl
@[simp] theorem State.clearTags_mem (lo hi : Nat) : (s.clearTags lo hi).mem = s.mem := rfl
@[simp] theorem State.clearTags_lakes (lo hi : Nat) : (s.clearTags lo hi).lakes = s.lakes := rfl
@[simp] theorem State.clearTags_lpow (lo hi : Nat) : (s.clearTags lo hi).lpow = s.lpow := rfl
@[simp] theorem State.clearTags_mtes (lo hi : Nat) : (s.clearTags lo hi).mtes = s.mtes := rfl
@[simp] theorem State.clearTags_springs (lo hi : Nat) : (s.clearTags lo hi).springs = s.springs := rfl
@[simp] theorem State.clearTags_arbs (lo hi : Nat) : (s.clearTags lo hi).arbs = s.arbs := rfl
@[simp] theorem State.clearTags_backoff (lo hi : Nat) : (s.clearTags lo hi).backoff = s.backoff := rfl
@[simp] theorem State.clearTags_stops (lo hi : Nat) : (s.clearTags lo hi).stops = s.stops := rfl
@[simp] theorem State.clearTags_stopCfg (lo hi : Nat) : (s.clearTags lo hi).stopCfg = s.stopCfg := rfl
@[simp] theorem State.clearTags_ring (lo hi : Nat) : (s.clearTags lo hi).ring = s.ring := rfl
@[simp] theorem State.clearTags_cues (lo hi : Nat) : (s.clearTags lo hi).cues = s.cues := rfl
@[simp] theorem State.clearTags_wins (lo hi : Nat) : (s.clearTags lo hi).wins = s.wins := rfl
@[simp] theorem State.clearTags_reels (lo hi : Nat) : (s.clearTags lo hi).reels = s.reels := rfl
@[simp] theorem State.clearTags_ctxs (lo hi : Nat) : (s.clearTags lo hi).ctxs = s.ctxs := rfl
@[simp] theorem State.clearTags_basin (lo hi : Nat) : (s.clearTags lo hi).basin = s.basin := rfl
@[simp] theorem State.clearTags_weir (lo hi : Nat) : (s.clearTags lo hi).weir = s.weir := rfl
@[simp] theorem State.clearTags_err (lo hi : Nat) : (s.clearTags lo hi).err = s.err := rfl
@[simp] theorem State.clearTags_cnt (lo hi : Nat) : (s.clearTags lo hi).cnt = s.cnt := rfl
@[simp] theorem State.clearTags_pw (lo hi : Nat) : (s.clearTags lo hi).pw = s.pw := rfl
@[simp] theorem State.clearTags_tm (lo hi : Nat) : (s.clearTags lo hi).tm = s.tm := rfl
@[simp] theorem State.clearTags_remotes (lo hi : Nat) : (s.clearTags lo hi).remotes = s.remotes := rfl
@[simp] theorem State.clearTags_fences (lo hi : Nat) : (s.clearTags lo hi).fences = s.fences := rfl
@[simp] theorem State.clearTags_signals (lo hi : Nat) : (s.clearTags lo hi).signals = s.signals := rfl
@[simp] theorem State.clearTags_inbox (lo hi : Nat) : (s.clearTags lo hi).inbox = s.inbox := rfl
@[simp] theorem State.clearTags_flights (lo hi : Nat) : (s.clearTags lo hi).flights = s.flights := rfl
@[simp] theorem State.clearTags_hostHeld (lo hi : Nat) : (s.clearTags lo hi).hostHeld = s.hostHeld := rfl
@[simp] theorem State.clearTags_hostReads (lo hi : Nat) : (s.clearTags lo hi).hostReads = s.hostReads := rfl
@[simp] theorem State.clearTags_hostRetry (lo hi : Nat) : (s.clearTags lo hi).hostRetry = s.hostRetry := rfl
@[simp] theorem State.clearTags_group (lo hi : Nat) : (s.clearTags lo hi).group = s.group := rfl
@[simp] theorem State.clearTags_ps (lo hi : Nat) : (s.clearTags lo hi).ps = s.ps := rfl
@[simp] theorem State.clearTags_inPond (lo hi : Nat) : (s.clearTags lo hi).inPond = s.inPond := rfl
@[simp] theorem State.clearTags_clientsOff (lo hi : Nat) : (s.clearTags lo hi).clientsOff = s.clientsOff := rfl
@[simp] theorem State.clearTags_i3c (lo hi : Nat) : (s.clearTags lo hi).i3c = s.i3c := rfl
@[simp] theorem State.clearTags_fw (lo hi : Nat) : (s.clearTags lo hi).fw = s.fw := rfl
@[simp] theorem State.clearTags_meter (lo hi : Nat) : (s.clearTags lo hi).meter = s.meter := rfl
@[simp] theorem State.clearTags_nextId (lo hi : Nat) : (s.clearTags lo hi).nextId = s.nextId := rfl
@[simp] theorem State.clearTags_fresh (lo hi : Nat) : (s.clearTags lo hi).fresh = s.fresh := rfl
@[simp] theorem State.clearTags_out (lo hi : Nat) : (s.clearTags lo hi).out = s.out := rfl
@[simp] theorem State.clearTags_lake (lo hi : Nat) (m : Nat) : (s.clearTags lo hi).lake m = s.lake m := rfl
@[simp] theorem State.clearTags_lp (lo hi : Nat) (m : Nat) : (s.clearTags lo hi).lp m = s.lp m := rfl
@[simp] theorem State.clearTags_mte (lo hi : Nat) (m : Nat) : (s.clearTags lo hi).mte m = s.mte m := rfl
@[simp] theorem State.clearTags_spring (lo hi : Nat) (m : Nat) : (s.clearTags lo hi).spring m = s.spring m := rfl
@[simp] theorem State.clearTags_stop (lo hi : Nat) (m : Nat) : (s.clearTags lo hi).stop m = s.stop m := rfl
@[simp] theorem State.clearTags_cue (lo hi : Nat) (m : Nat) : (s.clearTags lo hi).cue m = s.cue m := rfl
@[simp] theorem State.clearTags_win (lo hi : Nat) (m : Nat) : (s.clearTags lo hi).win m = s.win m := rfl
@[simp] theorem State.clearTags_reel (lo hi : Nat) (m : Nat) : (s.clearTags lo hi).reel m = s.reel m := rfl
@[simp] theorem State.clearTags_arb (lo hi : Nat) (m : Nat) : (s.clearTags lo hi).arb m = s.arb m := rfl
@[simp] theorem State.clearTags_ctx (lo hi : Nat) (m : Nat) : (s.clearTags lo hi).ctx m = s.ctx m := rfl

/-! ### `emit` -/

@[simp] theorem State.emit_pending (o : Out) : (s.emit o).pending = s.pending := rfl
@[simp] theorem State.emit_variant (o : Out) : (s.emit o).variant = s.variant := rfl
@[simp] theorem State.emit_mem (o : Out) : (s.emit o).mem = s.mem := rfl
@[simp] theorem State.emit_rows (o : Out) : (s.emit o).rows = s.rows := rfl
@[simp] theorem State.emit_lakes (o : Out) : (s.emit o).lakes = s.lakes := rfl
@[simp] theorem State.emit_lpow (o : Out) : (s.emit o).lpow = s.lpow := rfl
@[simp] theorem State.emit_mtes (o : Out) : (s.emit o).mtes = s.mtes := rfl
@[simp] theorem State.emit_springs (o : Out) : (s.emit o).springs = s.springs := rfl
@[simp] theorem State.emit_arbs (o : Out) : (s.emit o).arbs = s.arbs := rfl
@[simp] theorem State.emit_backoff (o : Out) : (s.emit o).backoff = s.backoff := rfl
@[simp] theorem State.emit_stops (o : Out) : (s.emit o).stops = s.stops := rfl
@[simp] theorem State.emit_stopCfg (o : Out) : (s.emit o).stopCfg = s.stopCfg := rfl
@[simp] theorem State.emit_ring (o : Out) : (s.emit o).ring = s.ring := rfl
@[simp] theorem State.emit_cues (o : Out) : (s.emit o).cues = s.cues := rfl
@[simp] theorem State.emit_wins (o : Out) : (s.emit o).wins = s.wins := rfl
@[simp] theorem State.emit_reels (o : Out) : (s.emit o).reels = s.reels := rfl
@[simp] theorem State.emit_ctxs (o : Out) : (s.emit o).ctxs = s.ctxs := rfl
@[simp] theorem State.emit_basin (o : Out) : (s.emit o).basin = s.basin := rfl
@[simp] theorem State.emit_weir (o : Out) : (s.emit o).weir = s.weir := rfl
@[simp] theorem State.emit_err (o : Out) : (s.emit o).err = s.err := rfl
@[simp] theorem State.emit_cnt (o : Out) : (s.emit o).cnt = s.cnt := rfl
@[simp] theorem State.emit_pw (o : Out) : (s.emit o).pw = s.pw := rfl
@[simp] theorem State.emit_tm (o : Out) : (s.emit o).tm = s.tm := rfl
@[simp] theorem State.emit_remotes (o : Out) : (s.emit o).remotes = s.remotes := rfl
@[simp] theorem State.emit_fences (o : Out) : (s.emit o).fences = s.fences := rfl
@[simp] theorem State.emit_signals (o : Out) : (s.emit o).signals = s.signals := rfl
@[simp] theorem State.emit_inbox (o : Out) : (s.emit o).inbox = s.inbox := rfl
@[simp] theorem State.emit_flights (o : Out) : (s.emit o).flights = s.flights := rfl
@[simp] theorem State.emit_hostHeld (o : Out) : (s.emit o).hostHeld = s.hostHeld := rfl
@[simp] theorem State.emit_hostReads (o : Out) : (s.emit o).hostReads = s.hostReads := rfl
@[simp] theorem State.emit_hostRetry (o : Out) : (s.emit o).hostRetry = s.hostRetry := rfl
@[simp] theorem State.emit_group (o : Out) : (s.emit o).group = s.group := rfl
@[simp] theorem State.emit_ps (o : Out) : (s.emit o).ps = s.ps := rfl
@[simp] theorem State.emit_inPond (o : Out) : (s.emit o).inPond = s.inPond := rfl
@[simp] theorem State.emit_clientsOff (o : Out) : (s.emit o).clientsOff = s.clientsOff := rfl
@[simp] theorem State.emit_i3c (o : Out) : (s.emit o).i3c = s.i3c := rfl
@[simp] theorem State.emit_fw (o : Out) : (s.emit o).fw = s.fw := rfl
@[simp] theorem State.emit_meter (o : Out) : (s.emit o).meter = s.meter := rfl
@[simp] theorem State.emit_nextId (o : Out) : (s.emit o).nextId = s.nextId := rfl
@[simp] theorem State.emit_fresh (o : Out) : (s.emit o).fresh = s.fresh := rfl
@[simp] theorem State.emit_lake (o : Out) (m : Nat) : (s.emit o).lake m = s.lake m := rfl
@[simp] theorem State.emit_lp (o : Out) (m : Nat) : (s.emit o).lp m = s.lp m := rfl
@[simp] theorem State.emit_mte (o : Out) (m : Nat) : (s.emit o).mte m = s.mte m := rfl
@[simp] theorem State.emit_spring (o : Out) (m : Nat) : (s.emit o).spring m = s.spring m := rfl
@[simp] theorem State.emit_stop (o : Out) (m : Nat) : (s.emit o).stop m = s.stop m := rfl
@[simp] theorem State.emit_cue (o : Out) (m : Nat) : (s.emit o).cue m = s.cue m := rfl
@[simp] theorem State.emit_win (o : Out) (m : Nat) : (s.emit o).win m = s.win m := rfl
@[simp] theorem State.emit_reel (o : Out) (m : Nat) : (s.emit o).reel m = s.reel m := rfl
@[simp] theorem State.emit_arb (o : Out) (m : Nat) : (s.emit o).arb m = s.arb m := rfl
@[simp] theorem State.emit_ctx (o : Out) (m : Nat) : (s.emit o).ctx m = s.ctx m := rfl
@[simp] theorem State.emit_tag (o : Out) (m : Nat) : (s.emit o).tag m = s.tag m := rfl

/-! ### `reply` -/

@[simp] theorem State.reply_pending (src : Src) (st : Status) (v : BitVec 64) : (s.reply src st v).pending = s.pending := rfl
@[simp] theorem State.reply_variant (src : Src) (st : Status) (v : BitVec 64) : (s.reply src st v).variant = s.variant := rfl
@[simp] theorem State.reply_mem (src : Src) (st : Status) (v : BitVec 64) : (s.reply src st v).mem = s.mem := rfl
@[simp] theorem State.reply_rows (src : Src) (st : Status) (v : BitVec 64) : (s.reply src st v).rows = s.rows := rfl
@[simp] theorem State.reply_lakes (src : Src) (st : Status) (v : BitVec 64) : (s.reply src st v).lakes = s.lakes := rfl
@[simp] theorem State.reply_lpow (src : Src) (st : Status) (v : BitVec 64) : (s.reply src st v).lpow = s.lpow := rfl
@[simp] theorem State.reply_mtes (src : Src) (st : Status) (v : BitVec 64) : (s.reply src st v).mtes = s.mtes := rfl
@[simp] theorem State.reply_springs (src : Src) (st : Status) (v : BitVec 64) : (s.reply src st v).springs = s.springs := rfl
@[simp] theorem State.reply_arbs (src : Src) (st : Status) (v : BitVec 64) : (s.reply src st v).arbs = s.arbs := rfl
@[simp] theorem State.reply_backoff (src : Src) (st : Status) (v : BitVec 64) : (s.reply src st v).backoff = s.backoff := rfl
@[simp] theorem State.reply_stops (src : Src) (st : Status) (v : BitVec 64) : (s.reply src st v).stops = s.stops := rfl
@[simp] theorem State.reply_stopCfg (src : Src) (st : Status) (v : BitVec 64) : (s.reply src st v).stopCfg = s.stopCfg := rfl
@[simp] theorem State.reply_ring (src : Src) (st : Status) (v : BitVec 64) : (s.reply src st v).ring = s.ring := rfl
@[simp] theorem State.reply_cues (src : Src) (st : Status) (v : BitVec 64) : (s.reply src st v).cues = s.cues := rfl
@[simp] theorem State.reply_wins (src : Src) (st : Status) (v : BitVec 64) : (s.reply src st v).wins = s.wins := rfl
@[simp] theorem State.reply_reels (src : Src) (st : Status) (v : BitVec 64) : (s.reply src st v).reels = s.reels := rfl
@[simp] theorem State.reply_ctxs (src : Src) (st : Status) (v : BitVec 64) : (s.reply src st v).ctxs = s.ctxs := rfl
@[simp] theorem State.reply_basin (src : Src) (st : Status) (v : BitVec 64) : (s.reply src st v).basin = s.basin := rfl
@[simp] theorem State.reply_weir (src : Src) (st : Status) (v : BitVec 64) : (s.reply src st v).weir = s.weir := rfl
@[simp] theorem State.reply_err (src : Src) (st : Status) (v : BitVec 64) : (s.reply src st v).err = s.err := rfl
@[simp] theorem State.reply_cnt (src : Src) (st : Status) (v : BitVec 64) : (s.reply src st v).cnt = s.cnt := rfl
@[simp] theorem State.reply_pw (src : Src) (st : Status) (v : BitVec 64) : (s.reply src st v).pw = s.pw := rfl
@[simp] theorem State.reply_tm (src : Src) (st : Status) (v : BitVec 64) : (s.reply src st v).tm = s.tm := rfl
@[simp] theorem State.reply_remotes (src : Src) (st : Status) (v : BitVec 64) : (s.reply src st v).remotes = s.remotes := rfl
@[simp] theorem State.reply_fences (src : Src) (st : Status) (v : BitVec 64) : (s.reply src st v).fences = s.fences := rfl
@[simp] theorem State.reply_signals (src : Src) (st : Status) (v : BitVec 64) : (s.reply src st v).signals = s.signals := rfl
@[simp] theorem State.reply_inbox (src : Src) (st : Status) (v : BitVec 64) : (s.reply src st v).inbox = s.inbox := rfl
@[simp] theorem State.reply_flights (src : Src) (st : Status) (v : BitVec 64) : (s.reply src st v).flights = s.flights := rfl
@[simp] theorem State.reply_hostHeld (src : Src) (st : Status) (v : BitVec 64) : (s.reply src st v).hostHeld = s.hostHeld := rfl
@[simp] theorem State.reply_hostReads (src : Src) (st : Status) (v : BitVec 64) : (s.reply src st v).hostReads = s.hostReads := rfl
@[simp] theorem State.reply_hostRetry (src : Src) (st : Status) (v : BitVec 64) : (s.reply src st v).hostRetry = s.hostRetry := rfl
@[simp] theorem State.reply_group (src : Src) (st : Status) (v : BitVec 64) : (s.reply src st v).group = s.group := rfl
@[simp] theorem State.reply_ps (src : Src) (st : Status) (v : BitVec 64) : (s.reply src st v).ps = s.ps := rfl
@[simp] theorem State.reply_inPond (src : Src) (st : Status) (v : BitVec 64) : (s.reply src st v).inPond = s.inPond := rfl
@[simp] theorem State.reply_clientsOff (src : Src) (st : Status) (v : BitVec 64) : (s.reply src st v).clientsOff = s.clientsOff := rfl
@[simp] theorem State.reply_i3c (src : Src) (st : Status) (v : BitVec 64) : (s.reply src st v).i3c = s.i3c := rfl
@[simp] theorem State.reply_fw (src : Src) (st : Status) (v : BitVec 64) : (s.reply src st v).fw = s.fw := rfl
@[simp] theorem State.reply_meter (src : Src) (st : Status) (v : BitVec 64) : (s.reply src st v).meter = s.meter := rfl
@[simp] theorem State.reply_nextId (src : Src) (st : Status) (v : BitVec 64) : (s.reply src st v).nextId = s.nextId := rfl
@[simp] theorem State.reply_fresh (src : Src) (st : Status) (v : BitVec 64) : (s.reply src st v).fresh = s.fresh := rfl
@[simp] theorem State.reply_lake (src : Src) (st : Status) (v : BitVec 64) (m : Nat) : (s.reply src st v).lake m = s.lake m := rfl
@[simp] theorem State.reply_lp (src : Src) (st : Status) (v : BitVec 64) (m : Nat) : (s.reply src st v).lp m = s.lp m := rfl
@[simp] theorem State.reply_mte (src : Src) (st : Status) (v : BitVec 64) (m : Nat) : (s.reply src st v).mte m = s.mte m := rfl
@[simp] theorem State.reply_spring (src : Src) (st : Status) (v : BitVec 64) (m : Nat) : (s.reply src st v).spring m = s.spring m := rfl
@[simp] theorem State.reply_stop (src : Src) (st : Status) (v : BitVec 64) (m : Nat) : (s.reply src st v).stop m = s.stop m := rfl
@[simp] theorem State.reply_cue (src : Src) (st : Status) (v : BitVec 64) (m : Nat) : (s.reply src st v).cue m = s.cue m := rfl
@[simp] theorem State.reply_win (src : Src) (st : Status) (v : BitVec 64) (m : Nat) : (s.reply src st v).win m = s.win m := rfl
@[simp] theorem State.reply_reel (src : Src) (st : Status) (v : BitVec 64) (m : Nat) : (s.reply src st v).reel m = s.reel m := rfl
@[simp] theorem State.reply_arb (src : Src) (st : Status) (v : BitVec 64) (m : Nat) : (s.reply src st v).arb m = s.arb m := rfl
@[simp] theorem State.reply_ctx (src : Src) (st : Status) (v : BitVec 64) (m : Nat) : (s.reply src st v).ctx m = s.ctx m := rfl
@[simp] theorem State.reply_tag (src : Src) (st : Status) (v : BitVec 64) (m : Nat) : (s.reply src st v).tag m = s.tag m := rfl

@[simp] theorem State.setCtx_same (n : Nat) (c : Ctx) : (s.setCtx n c).ctx n = c := Tab.get_set_same _ _ _
theorem State.setCtx_other (n : Nat) (c : Ctx) (m : Nat) (h : m ≠ n) : (s.setCtx n c).ctx m = s.ctx m := Tab.get_set_other h _
@[simp] theorem State.setTag_same (n : Nat) (t : RowTag) : (s.setTag n t).tag n = t := Tab.get_set_same _ _ _
theorem State.setTag_other (n : Nat) (t : RowTag) (m : Nat) (h : m ≠ n) : (s.setTag n t).tag m = s.tag m := Tab.get_set_other h _
@[simp] theorem State.emit_out (o : Out) : (s.emit o).out = o :: s.out := rfl
@[simp] theorem State.reply_out (src : Src) (st : Status) (v : BitVec 64) : (s.reply src st v).out = .reg src.port src.tag st v :: s.out := rfl

end Sys2Proof.Machine
end

