-- ==== Sys2Proof/Laws/Steady.lean ====
section
/-!
SUPPORT. What every operation of the model keeps: the queue of commands, the variant and the die, the canonical form of the tables,
the endpoint once it is set; and the timestamp does not go back. `Steady s t` says so of a state and a later one; each
operation has one lemma, which carries `Steady r` from its argument to its result.
-/
namespace Sys2Proof.Machine

/-- From `s` to `t` the queue, the variant and the die are kept, canonical tables stay canonical, an endpoint once set is kept (R33),
and the timestamp does not go back (R331). -/
structure Steady (s t : State) : Prop where
  pending : t.pending = s.pending
  variant : t.variant = s.variant
  die : t.tm.pkgDie = s.tm.pkgDie
  tables : s.canonical = true → t.canonical = true
  time : s.pw.ns ≤ t.pw.ns
  ep : s.tm.epValid = true → t.tm.epValid = true ∧ t.tm.epId = s.tm.epId

theorem Steady.refl (s : State) : Steady s s := ⟨rfl, rfl, rfl, id, Nat.le_refl _, fun h => ⟨h, rfl⟩⟩

theorem Steady.trans {a b c : State} (h : Steady a b) (k : Steady b c) : Steady a c :=
  ⟨k.pending.trans h.pending, k.variant.trans h.variant, k.die.trans h.die, fun x => k.tables (h.tables x), Nat.le_trans h.time k.time,
    fun x => ⟨(k.ep (h.ep x).1).1, (k.ep (h.ep x).1).2.trans (h.ep x).2⟩⟩

/-- An outcome that is a next state is steady. -/
def Keeps (r : State) (o : Host.Outcome State Fault Refusal) : Prop := ∀ t, o = .next t → Steady r t

theorem Keeps.next {r t : State} (h : Steady r t) : Keeps r (.next t) := fun _ e => by cases e; exact h

theorem Steady.snd {α : Type} {r t : State} {p : α × State} {a : α} (e : p = (a, t)) (h : Steady r p.2) : Steady r t := by
  rw [e] at h; exact h

theorem Steady.third {α β : Type} {r t : State} {p : α × β × State} {a : α} {b : β} (e : p = (a, b, t)) (h : Steady r p.2.2) :
    Steady r t := by rw [e] at h; exact h

theorem Steady.foldl {α : Type} {r : State} (f : State → α → State) (hf : ∀ s x, Steady r s → Steady r (f s x)) (l : List α) (s : State)
    (h : Steady r s) : Steady r (l.foldl f s) := by
  induction l generalizing s with
  | nil => exact h
  | cons x l ih => exact ih _ (hf s x h)

/-- `Steady r` of a state written out, in terms of the fields that it speaks of. -/
def SteadyF (r : State) (pending' : List Instr) (variant' : Variant) (mem' : List Host.Cell) (rows' : Tab RowTag) (lakes' : Tab Lake) (lpow' : Tab LakePower) (mtes' : Tab Mte) (springs' : Tab Spring) (arbs' : Tab Arb) (stops' : Tab Stop) (cues' : Tab Cue) (wins' : Tab Win) (reels' : Tab Reel) (ctxs' : Tab Ctx) (tm' : Global) (pw' : Power) : Prop :=
  Steady r { r with pending := pending', variant := variant', mem := mem', rows := rows', lakes := lakes', lpow := lpow', mtes := mtes', springs := springs', arbs := arbs', stops := stops', cues := cues', wins := wins', reels := reels', ctxs := ctxs', tm := tm', pw := pw' }

theorem Steady.mk_iff (r : State) (pending' : List Instr) (variant' : Variant) (mem' : List Host.Cell) (rows' : Tab RowTag) (lakes' : Tab Lake) (lpow' : Tab LakePower) (mtes' : Tab Mte) (springs' : Tab Spring) (arbs' : Tab Arb) (backoff' : List ((RetryPt × Ident) × (Nat × Nat))) (stops' : Tab Stop) (stopCfg' : Tab ArbCfg) (ring' : List Transit) (cues' : Tab Cue) (wins' : Tab Win) (reels' : Tab Reel) (ctxs' : Tab Ctx) (basin' : Basin) (weir' : Weir) (err' : ErrLog) (cnt' : Counters) (pw' : Power) (tm' : Global) (remotes' : List Remote) (fences' : List Fence) (signals' : List HeldSignal) (inbox' : List SpringMail) (flights' : List Flight) (hostHeld' : List HostTlp) (hostReads' : List HostRead) (hostRetry' : List Held) (group' : List Grp) (ps' : PsCycle) (inPond' : Tab Nat) (clientsOff' : List Nat) (i3c' : I3c) (fw' : Fw) (meter' : Meter) (nextId' : Nat) (fresh' : Nat) (out' : List Out) :
    Steady r ⟨pending', variant', mem', rows', lakes', lpow', mtes', springs', arbs', backoff', stops', stopCfg', ring', cues', wins', reels', ctxs', basin', weir', err', cnt', pw', tm', remotes', fences', signals', inbox', flights', hostHeld', hostReads', hostRetry', group', ps', inPond', clientsOff', i3c', fw', meter', nextId', fresh', out'⟩ ↔ SteadyF r pending' variant' mem' rows' lakes' lpow' mtes' springs' arbs' stops' cues' wins' reels' ctxs' tm' pw' :=
  ⟨fun h => ⟨h.1, h.2, h.3, h.4, h.5, h.6⟩, fun h => ⟨h.1, h.2, h.3, h.4, h.5, h.6⟩⟩

/-- A change of fields that no table in canonical form and no kept register stands in. -/
theorem SteadyF.of {r s : State} (h : Steady r s) (tm' : Global) (pw' : Power)
    (ht : tm'.pkgDie = s.tm.pkgDie ∧ (s.tm.epValid = true → tm'.epValid = true ∧ tm'.epId = s.tm.epId) := by exact ⟨rfl, fun e => ⟨e, rfl⟩⟩)
    (hp : s.pw.ns ≤ pw'.ns := by first | exact Nat.le_refl _ | exact Nat.le_add_right _ _) : SteadyF r s.pending s.variant s.mem s.rows s.lakes s.lpow s.mtes s.springs s.arbs s.stops s.cues s.wins s.reels s.ctxs tm' pw' :=
  have k : Steady s { s with tm := tm', pw := pw' } := ⟨rfl, rfl, ht.1, id, hp, ht.2⟩
  have x := h.trans k
  ⟨x.1, x.2, x.3, x.4, x.5, x.6⟩

/-- A change of tables that keeps each in canonical form. -/
theorem Steady.tabs {r s : State} (h : Steady r s) {t : State}
    (h1 : t.pending = s.pending) (h2 : t.variant = s.variant) (h3 : t.tm = s.tm) (h4 : t.pw = s.pw)
    (hc : s.canonical = true → t.canonical = true) : Steady r t :=
  h.trans ⟨h1, h2, by rw [h3], hc, Nat.le_of_eq (by rw [h4]), fun x => by rw [h3]; exact ⟨x, rfl⟩⟩

section
variable {r s : State} (h : Steady r s)
include h

theorem State.modLake_steady (n : Nat) (f : Lake → Lake) : Steady r (s.modLake n f) :=
  h.tabs rfl rfl rfl rfl fun c => by
    simp only [State.canonical, State.modLake, Bool.and_eq_true] at c ⊢
    simp only [c, Tab.wf_set, and_self]
theorem State.modLp_steady (n : Nat) (f : LakePower → LakePower) : Steady r (s.modLp n f) :=
  h.tabs rfl rfl rfl rfl fun c => by
    simp only [State.canonical, State.modLp, Bool.and_eq_true] at c ⊢
    simp only [c, Tab.wf_set, and_self]
theorem State.modMte_steady (n : Nat) (f : Mte → Mte) : Steady r (s.modMte n f) :=
  h.tabs rfl rfl rfl rfl fun c => by
    simp only [State.canonical, State.modMte, Bool.and_eq_true] at c ⊢
    simp only [c, Tab.wf_set, and_self]
theorem State.modSpring_steady (n : Nat) (f : Spring → Spring) : Steady r (s.modSpring n f) :=
  h.tabs rfl rfl rfl rfl fun c => by
    simp only [State.canonical, State.modSpring, Bool.and_eq_true] at c ⊢
    simp only [c, Tab.wf_set, and_self]
theorem State.modStop_steady (n : Nat) (f : Stop → Stop) : Steady r (s.modStop n f) :=
  h.tabs rfl rfl rfl rfl fun c => by
    simp only [State.canonical, State.modStop, Bool.and_eq_true] at c ⊢
    simp only [c, Tab.wf_set, and_self]
theorem State.modCue_steady (n : Nat) (f : Cue → Cue) : Steady r (s.modCue n f) :=
  h.tabs rfl rfl rfl rfl fun c => by
    simp only [State.canonical, State.modCue, Bool.and_eq_true] at c ⊢
    simp only [c, Tab.wf_set, and_self]
theorem State.modWin_steady (n : Nat) (f : Win → Win) : Steady r (s.modWin n f) :=
  h.tabs rfl rfl rfl rfl fun c => by
    simp only [State.canonical, State.modWin, Bool.and_eq_true] at c ⊢
    simp only [c, Tab.wf_set, and_self]
theorem State.modReel_steady (n : Nat) (f : Reel → Reel) : Steady r (s.modReel n f) :=
  h.tabs rfl rfl rfl rfl fun c => by
    simp only [State.canonical, State.modReel, Bool.and_eq_true] at c ⊢
    simp only [c, Tab.wf_set, and_self]
theorem State.modArb_steady (n : Nat) (f : Arb → Arb) : Steady r (s.modArb n f) :=
  h.tabs rfl rfl rfl rfl fun c => by
    simp only [State.canonical, State.modArb, Bool.and_eq_true] at c ⊢
    simp only [c, Tab.wf_set, and_self]
theorem State.setCtx_steady (n : Nat) (c : Ctx) : Steady r (s.setCtx n c) :=
  h.tabs rfl rfl rfl rfl fun c => by
    simp only [State.canonical, State.setCtx, Bool.and_eq_true] at c ⊢
    simp only [c, Tab.wf_set, and_self]
theorem State.setTag_steady (n : Nat) (t : RowTag) : Steady r (s.setTag n t) :=
  h.tabs rfl rfl rfl rfl fun c => by
    simp only [State.canonical, State.setTag, Bool.and_eq_true] at c ⊢
    simp only [c, Tab.wf_set, and_self]

theorem State.putWords_steady (row : Nat) (ws : List (Nat × Word)) : Steady r (s.putWords row ws) :=
  h.tabs rfl rfl rfl rfl fun c => by
    simp only [State.canonical, State.putWords, Bool.and_eq_true] at c ⊢
    simp only [c, Memory.wf_words, and_self]
theorem State.zeroRows_steady (lo hi : Nat) : Steady r (s.zeroRows lo hi) :=
  h.tabs rfl rfl rfl rfl fun c => by
    simp only [State.canonical, State.zeroRows, Bool.and_eq_true] at c ⊢
    simp only [c, Memory.wf_eraseRange, and_self]
theorem State.clearTags_steady (lo hi : Nat) : Steady r (s.clearTags lo hi) :=
  h.tabs rfl rfl rfl rfl fun c => by
    simp only [State.canonical, State.clearTags, Bool.and_eq_true] at c ⊢
    simp only [c, Tab.wf_eraseRange, and_self]

end

end Sys2Proof.Machine
end

