-- ==== Sys2Proof/Laws/SteadyOps.lean ====
section
/-!
SUPPORT. What the operations of `Ops` keep (`Steady`), one lemma per operation.
-/
namespace Sys2Proof.Machine

-- One theorem after another: elaborated side by side, these theorems would each hold a thread and its stack.
set_option Elab.async false
set_option linter.all false

theorem State.invalidSlot_steady {r s : State} (h : Steady r s) (x1 : Nat) : Steady r (s.invalidSlot x1) := by
  unfold State.invalidSlot
  repeat' first
    | with_reducible assumption | with_reducible apply State.setCtx_steady

theorem State.emit_steady {r s : State} (h : Steady r s) (o : Out) : Steady r (s.emit o) := by
  unfold State.emit
  repeat' first
    | with_reducible assumption | (simp only [Steady.mk_iff]; with_reducible refine SteadyF.of ?_ _ _)

theorem State.fresh1_steady {r s : State} (h : Steady r s) : Steady r (s.fresh1).2 := by
  unfold State.fresh1
  repeat' first
    | with_reducible assumption | (simp only [Steady.mk_iff]; with_reducible refine SteadyF.of ?_ _ _)

theorem State.settle_steady {r s : State} (h : Steady r s) (row : Nat) : Steady r (s.settle row) := by
  unfold State.settle
  repeat' first
    | with_reducible assumption | with_reducible apply State.modLake_steady | with_reducible apply State.setTag_steady | split

theorem State.setSlate_steady {r s : State} (h : Steady r s) (row : Nat) (sl : Slate) : Steady r (s.setSlate row sl) := by
  unfold State.setSlate
  repeat' first
    | with_reducible assumption | with_reducible apply State.settle_steady | with_reducible apply State.setTag_steady

theorem State.count_steady {r s : State} (h : Steady r s) (o : Occ) : Steady r (s.count o) := by
  unfold State.count
  repeat' first
    | with_reducible assumption | (simp only [Steady.mk_iff]; with_reducible refine SteadyF.of ?_ _ _) | split

theorem State.countLake_steady {r s : State} (h : Steady r s) (n ev : Nat) (quals : List Nat) (label : Option Nat) (k : Nat) :
    Steady r (s.countLake n ev quals label k) := by
  unfold State.countLake
  repeat' first
    | with_reducible assumption | with_reducible apply State.count_steady

theorem State.report_steady {r s : State} (h : Steady r s) (x1 : Rec) : Steady r (s.report x1) := by
  unfold State.report
  repeat' first
    | with_reducible assumption | (simp only [Steady.mk_iff]; with_reducible refine SteadyF.of ?_ _ _) | split

theorem State.log_steady {r s : State} (h : Steady r s) (cls : Nat) (st : Status) (source : Nat) (pr : Principal) (detail addr : Nat) :
    Steady r (s.log cls st source pr detail addr) := by
  unfold State.log
  repeat' first
    | with_reducible assumption | with_reducible apply State.report_steady

theorem State.reject_steady {r s : State} (h : Steady r s) (st : Status) (source : Nat) (pr : Principal) (detail addr : Nat) :
    Steady r (s.reject st source pr detail addr) := by
  unfold State.reject
  repeat' first
    | with_reducible assumption | with_reducible apply State.log_steady

theorem State.correction_steady {r s : State} (h : Steady r s) (k detail addr : Nat) : Steady r (s.correction k detail addr) := by
  unfold State.correction
  repeat' first
    | with_reducible assumption | with_reducible apply State.report_steady
    | (simp only [Steady.mk_iff]; with_reducible refine SteadyF.of ?_ _ _) | split | dsimp only

theorem State.event_steady {r s : State} (h : Steady r s) (code : Nat) (payload : BitVec 32) : Steady r (s.event code payload) := by
  unfold State.event
  repeat' first
    | with_reducible assumption | (simp only [Steady.mk_iff]; with_reducible refine SteadyF.of ?_ _ _) | split

theorem State.reply_steady {r s : State} (h : Steady r s) (src : Src) (st : Status) (v : BitVec 64) : Steady r (s.reply src st v) := by
  unfold State.reply
  repeat' first
    | with_reducible assumption | with_reducible apply State.emit_steady

end Sys2Proof.Machine
end

