-- ==== Sys2Proof/Laws/SteadyRequests.lean ====
section
/-!
SUPPORT. What the operations of `Requests` keep (`Steady`), one lemma per operation.
-/
namespace Sys2Proof.Machine

-- One theorem after another: elaborated side by side, these theorems would each hold a thread and its stack.
set_option Elab.async false
set_option linter.all false

theorem State.claim_steady {r s : State} (h : Steady r s) (w : Who) : Steady r (s.claim w) := by
  unfold State.claim
  repeat' first
    | with_reducible assumption | (simp only [Steady.mk_iff]; with_reducible refine SteadyF.of ?_ _ _)

theorem State.inPonds_steady {r s : State} (h : Steady r s) (w : Who) (n t : Nat) : Steady r (s.inPonds w n t) := by
  unfold State.inPonds
  repeat' first
    | with_reducible assumption | (simp only [Steady.mk_iff]; with_reducible refine SteadyF.of ?_ _ _)

theorem State.backoffClear_steady {r s : State} (h : Steady r s) (pt : RetryPt) (i : Ident) : Steady r (s.backoffClear pt i) := by
  unfold State.backoffClear
  repeat' first
    | with_reducible assumption | (simp only [Steady.mk_iff]; with_reducible refine SteadyF.of ?_ _ _)

theorem State.turnAway_steady {r s : State} (h : Steady r s) (pt : RetryPt) (i : Ident) : Steady r (s.turnAway pt i).2 := by
  unfold State.turnAway
  repeat' first
    | with_reducible assumption | with_reducible apply State.backoffClear_steady
    | (simp only [Steady.mk_iff]; with_reducible refine SteadyF.of ?_ _ _)

end Sys2Proof.Machine
end

