-- ==== Sys2Proof/Laws/SteadyPond.lean ====
section
/-!
SUPPORT. What the operations of `Pond` keep (`Steady`), one lemma per operation.
-/
namespace Sys2Proof.Machine

-- One theorem after another: elaborated side by side, these theorems would each hold a thread and its stack.
set_option Elab.async false
set_option linter.all false

theorem State.pondCycle_steady {r s : State} (h : Steady r s) (row : Nat) (quals : List Nat) (label : Option Nat) :
    Steady r (s.pondCycle row quals label) := by
  unfold State.pondCycle
  repeat' first
    | with_reducible assumption | with_reducible apply State.modLake_steady | with_reducible apply State.countLake_steady

theorem State.moved_steady {r s : State} (h : Steady r s) (w : Who) (n k : Nat) : Steady r (s.moved w n k) := by
  unfold State.moved
  repeat' first
    | with_reducible assumption | with_reducible apply State.countLake_steady
    | (simp only [Steady.mk_iff]; with_reducible refine SteadyF.of ?_ _ _) | split

theorem State.poisonHit_steady {r s : State} (h : Steady r s) (w : Who) (row : Nat) : Steady r (s.poisonHit w row) := by
  unfold State.poisonHit
  repeat' first
    | with_reducible assumption | with_reducible apply State.modLake_steady | with_reducible apply State.countLake_steady

theorem State.foundBad_steady {r s : State} (h : Steady r s) (w : Option Who) (row : Nat) (us : List Nat) (finder : Nat) :
    Steady r (s.foundBad w row us finder) := by
  unfold State.foundBad
  repeat' first
    | with_reducible assumption | with_reducible apply State.log_steady | with_reducible apply State.modLake_steady
    | (simp only [Steady.mk_iff]; with_reducible refine SteadyF.of ?_ _ _)

theorem State.foundCorr_steady {r s : State} (h : Steady r s) (row : Nat) (us : List Nat) (finder : Nat) :
    Steady r (s.foundCorr row us finder) := by
  unfold State.foundCorr
  repeat' first
    | with_reducible assumption | with_reducible apply State.countLake_steady | with_reducible apply State.correction_steady
    | with_reducible apply State.modLake_steady | (simp only [Steady.mk_iff]; with_reducible refine SteadyF.of ?_ _ _)

theorem State.queueMark_steady {r s : State} (h : Steady r s) (row : Nat) : Steady r (s.queueMark row) := by
  unfold State.queueMark
  repeat' first
    | with_reducible assumption | with_reducible apply State.modLake_steady

theorem State.mark_steady {r s : State} (h : Steady r s) (row : Nat) (stale : Bool) : Steady r (s.mark row stale) := by
  unfold State.mark
  repeat' first
    | with_reducible assumption | with_reducible apply State.setSlate_steady | with_reducible apply State.setTag_steady | split

theorem State.scheduleWb_steady {r s : State} (h : Steady r s) (row : Nat) (old : RowTag) (undo : List (Nat × Word)) (fresh : Bool) :
    Steady r (s.scheduleWb row old undo fresh) := by
  unfold State.scheduleWb
  repeat' first
    | with_reducible assumption | with_reducible apply State.modLake_steady

theorem State.inject_steady {r s : State} (h : Steady r s) (row : Nat) : Steady r (s.inject row) := by
  unfold State.inject
  repeat' first
    | with_reducible assumption | with_reducible apply State.modLake_steady | with_reducible apply State.setTag_steady | split
    | dsimp only

theorem State.refresh_steady {r s : State} (h : Steady r s) (row : Nat) (ws : List Nat) : Steady r (s.refresh row ws) := by
  unfold State.refresh
  repeat' first
    | with_reducible assumption | with_reducible apply State.modLake_steady | with_reducible apply State.setTag_steady

theorem State.mergeWbs_steady {r s : State} (h : Steady r s) (row : Nat) (ws : List Nat) : Steady r (s.mergeWbs row ws) := by
  unfold State.mergeWbs
  repeat' first
    | with_reducible assumption | with_reducible apply State.modLake_steady

theorem State.joinGroup_steady {r s : State} (h : Steady r s) (grp : Option Grp) (row k : Nat) (old : List Word) (tag : RowTag) (ws atoms : List Nat) (checked : Bool) :
    Steady r (s.joinGroup grp row k old tag ws atoms checked) := by
  unfold State.joinGroup
  repeat' first
    | with_reducible assumption | (simp only [Steady.mk_iff]; with_reducible refine SteadyF.of ?_ _ _)

theorem State.alone_steady {r s : State} (h : Steady r s) (row : Nat) : Steady r (s.alone row) := by
  unfold State.alone
  repeat' first
    | with_reducible assumption | (simp only [Steady.mk_iff]; with_reducible refine SteadyF.of ?_ _ _)

theorem State.checkRow_steady {r s : State} (h : Steady r s) (w : Option Who) (row finder : Nat) (t : RowTag) (grp : Option Grp) :
    Steady r (s.checkRow w row finder t grp) := by
  unfold State.checkRow
  repeat' first
    | with_reducible assumption | with_reducible apply State.foundCorr_steady | with_reducible apply State.foundBad_steady
    | with_reducible apply State.setTag_steady | with_reducible apply State.mark_steady
    | with_reducible apply State.scheduleWb_steady | with_reducible apply State.queueMark_steady | split | dsimp only

theorem State.spend_steady {r s : State} (h : Steady r s) (w : Who) (row : Nat) (grp : Option Grp) : Steady r (s.spend w row grp) := by
  unfold State.spend
  repeat' first
    | with_reducible assumption | with_reducible apply State.pondCycle_steady | with_reducible apply State.settle_steady | split

theorem readRow_steady {r s : State} (h : Steady r s) (w : Who) (grp : Option Grp) (x3 : RowReq) :
    Steady r (readRow s w grp x3).2 := by
  unfold readRow
  repeat' first
    | with_reducible assumption | with_reducible apply State.spend_steady | with_reducible apply State.checkRow_steady
    | with_reducible apply State.poisonHit_steady | with_reducible apply State.countLake_steady
    | with_reducible apply State.joinGroup_steady | with_reducible apply State.moved_steady | split

theorem storeWords_steady {r s : State} (h : Steady r s) (w : Who) (x2 : RowReq) (ws : List (Nat × Word)) :
    Steady r (storeWords s w x2 ws) := by
  unfold storeWords
  repeat' first
    | with_reducible assumption | with_reducible apply State.moved_steady | with_reducible apply State.putWords_steady

theorem writeRow_steady {r s : State} (h : Steady r s) (w : Who) (grp : Option Grp) (whole : Bool) (x4 : RowReq) :
    Steady r (writeRow s w grp whole x4).2 := by
  unfold writeRow
  repeat' first
    | with_reducible assumption | with_reducible apply State.countLake_steady | with_reducible apply State.spend_steady
    | with_reducible apply State.joinGroup_steady | with_reducible apply State.poisonHit_steady
    | with_reducible apply State.checkRow_steady | with_reducible apply State.foundCorr_steady
    | with_reducible apply State.foundBad_steady | with_reducible apply storeWords_steady
    | with_reducible apply State.refresh_steady | with_reducible apply State.setTag_steady
    | with_reducible apply State.mark_steady | with_reducible apply State.scheduleWb_steady
    | with_reducible apply State.inject_steady | with_reducible apply State.mergeWbs_steady | split | dsimp only

theorem State.takeFlags_steady {r s : State} (h : Steady r s) (n : Nat) (f : MsoFlags) (draws : Nat) (w : Who) :
    Steady r (s.takeFlags n f draws w) := by
  unfold State.takeFlags
  repeat' first
    | with_reducible assumption | with_reducible apply State.modLake_steady | with_reducible apply State.countLake_steady

theorem atomRow_steady {r s : State} (h : Steady r s) (w : Who) (grp : Option Grp) (op : Op) (x4 : RowReq) :
    Steady r (atomRow s w grp op x4).2 := by
  unfold atomRow
  repeat' first
    | with_reducible assumption | with_reducible apply State.countLake_steady | with_reducible apply State.spend_steady
    | with_reducible apply State.joinGroup_steady | with_reducible apply State.poisonHit_steady
    | with_reducible apply State.checkRow_steady | with_reducible apply State.foundCorr_steady
    | with_reducible apply State.foundBad_steady | with_reducible apply storeWords_steady
    | with_reducible apply State.takeFlags_steady | with_reducible apply State.refresh_steady
    | with_reducible apply State.setTag_steady | with_reducible apply State.mark_steady
    | with_reducible apply State.scheduleWb_steady | split | dsimp only

theorem State.slotFull_steady {r s : State} (h : Steady r s) (row : Nat) (pr : Principal) (priv : Bool) (label : Nat) (segs : List Seg) :
    Steady r (s.slotFull row pr priv label segs) := by
  unfold State.slotFull
  repeat' first
    | with_reducible assumption | with_reducible apply State.modReel_steady | with_reducible apply State.modSpring_steady | split
    | dsimp only

theorem State.slotFullBy_steady {r s : State} (h : Steady r s) (row : Nat) (w : Who) : Steady r (s.slotFullBy row w) := by
  unfold State.slotFullBy
  repeat' first
    | with_reducible assumption | with_reducible apply State.slotFull_steady | split | dsimp only

theorem slatedRow_steady {r s : State} (h : Steady r s) (w : Who) (grp : Option Grp) (m : Mode) (x4 : RowReq) :
    Steady r (slatedRow s w grp m x4).2 := by
  unfold slatedRow
  repeat' first
    | with_reducible assumption | with_reducible apply State.spend_steady | with_reducible apply State.checkRow_steady
    | with_reducible apply State.alone_steady | with_reducible apply State.joinGroup_steady
    | with_reducible apply State.poisonHit_steady | with_reducible apply readRow_steady | with_reducible apply writeRow_steady
    | with_reducible apply State.setSlate_steady | with_reducible apply State.slotFullBy_steady | split | dsimp only

theorem rowAccess_steady {r s : State} (h : Steady r s) (w : Who) (op : Op) (joined : Bool) (m : Mode) (x5 : RowReq) :
    Steady r (rowAccess s w op joined m x5).2 := by
  unfold rowAccess
  repeat' first
    | with_reducible assumption | with_reducible apply State.countLake_steady | with_reducible apply atomRow_steady
    | with_reducible apply writeRow_steady | with_reducible apply readRow_steady | with_reducible apply slatedRow_steady
    | with_reducible apply State.alone_steady | split

end Sys2Proof.Machine
end

