-- ==== Sys2Proof/Laws/SteadyAccess.lean ====
section
/-!
SUPPORT. What the operations of `Access` keep (`Steady`), one lemma per operation.
-/
namespace Sys2Proof.Machine

-- One theorem after another: elaborated side by side, these theorems would each hold a thread and its stack.
set_option Elab.async false
set_option linter.all false

theorem State.lateOne_steady {r s : State} (h : Steady r s) (c label pos : Nat) : Steady r (s.lateOne c label pos) := by
  unfold State.lateOne
  repeat' first
    | with_reducible assumption | (simp only [Steady.mk_iff]; with_reducible refine SteadyF.of ?_ _ _)

theorem State.deadlines_steady {r s : State} (h : Steady r s) (w : Who) (op : Op) (lake : Bool) (dst : Option Nat) (valid : Nat) :
    Steady r (s.deadlines w op lake dst valid) := by
  unfold State.deadlines
  repeat' first
    | with_reducible assumption | with_reducible apply State.lateOne_steady
    | (simp only [Steady.mk_iff]; with_reducible refine SteadyF.of ?_ _ _) | split | dsimp only

theorem State.hostCpl_steady {r s : State} (h : Steady r s) (tag w : Nat) (c : Cpl) : Steady r (s.hostCpl tag w c) := by
  unfold State.hostCpl
  repeat' first
    | with_reducible assumption | with_reducible apply State.emit_steady
    | with_reducible refine Steady.foldl _ (fun s x hs => ?_) _ _ ?_
    | (simp only [Steady.mk_iff]; with_reducible refine SteadyF.of ?_ _ _) | split

theorem State.answerRead_steady {r s : State} (h : Steady r s) (src : Src) (st : Status) (size : Nat) (v : BitVec 64) :
    Steady r (s.answerRead src st size v) := by
  unfold State.answerRead
  repeat' first
    | with_reducible assumption | with_reducible apply State.emit_steady | with_reducible apply State.reply_steady | split

theorem State.respond_steady {r s : State} (h : Steady r s) (w : Who) (dst : Option Nat) (op : Op) (q : Req) (opnd : List Word) (st : Status) (data : List Word) (from_ lat backoff : Nat) :
    Steady r (s.respond w dst op q opnd st data from_ lat backoff) := by
  unfold State.respond
  repeat' first
    | with_reducible assumption | with_reducible apply State.claim_steady | with_reducible apply State.deadlines_steady
    | with_reducible apply State.hostCpl_steady | with_reducible apply State.fresh1_steady
    | with_reducible apply State.emit_steady | (simp only [Steady.mk_iff]; with_reducible refine SteadyF.of ?_ _ _) | split
    | dsimp only

theorem State.refuse_steady {r s : State} (h : Steady r s) (w : Who) (op : Op) (q : Req) (st : Status) (rec : Option (Nat × Nat × Nat)) (addr : Nat) (dst : Option Nat) (lat : Nat) :
    Steady r (s.refuse w op q st rec addr dst lat) := by
  unfold State.refuse
  repeat' first
    | with_reducible assumption | with_reducible apply State.log_steady | with_reducible apply State.respond_steady | split

theorem State.finishPart_steady {r s : State} (h : Steady r s) (rid part : Nat) (st : Status) (data : List Word) (backoff : Nat) :
    Steady r (s.finishPart rid part st data backoff) := by
  unfold State.finishPart
  repeat' first
    | with_reducible assumption | with_reducible apply State.respond_steady
    | (simp only [Steady.mk_iff]; with_reducible refine SteadyF.of ?_ _ _) | split | dsimp only

theorem State.dropWaiter_steady {r s : State} (h : Steady r s) (n : Nat) (e : Waiter) (st : Status) (backoff : Nat) :
    Steady r (s.dropWaiter n e st backoff) := by
  unfold State.dropWaiter
  repeat' first
    | with_reducible assumption | with_reducible apply State.modLake_steady | with_reducible apply State.finishPart_steady
    | with_reducible apply State.reply_steady | with_reducible apply State.deadlines_steady | split

theorem State.releaseWaiters_steady {r s : State} (h : Steady r s) (n : Nat) (p : Waiter → Bool) (st : Status) (backoff : Nat) :
    Steady r (s.releaseWaiters n p st backoff) := by
  unfold State.releaseWaiters
  repeat' first
    | with_reducible assumption | with_reducible apply State.dropWaiter_steady
    | with_reducible refine Steady.foldl _ (fun s x hs => ?_) _ _ ?_

theorem State.endTake_steady {r s : State} (h : Steady r s) (n t cause : Nat) (st : Status) : Steady r (s.endTake n t cause st) := by
  unfold State.endTake
  repeat' first
    | with_reducible assumption | with_reducible apply State.modLake_steady | with_reducible apply State.releaseWaiters_steady
    | split | dsimp only

theorem State.takeOutcome_steady {r s : State} (h : Steady r s) (n : Nat) (m : Mode) (st : Status) :
    Steady r (s.takeOutcome n m st) := by
  unfold State.takeOutcome
  repeat' first
    | with_reducible assumption | with_reducible apply State.endTake_steady | split

theorem rowsAccess_steady {r s : State} (h : Steady r s) (x0 : Who) (x1 : Op) (x2 : Mode) (x4 : Nat) (x5 : List RowReq) :
    Steady r (rowsAccess x0 x1 x2 s x4 x5).2 := by
  induction x5 generalizing s x4 with
  | nil => exact h
  | cons a l ih =>
  unfold rowsAccess
  repeat' first
    | with_reducible assumption
    | refine fun (s : State) (hs : Steady r s) => ?_
    | with_reducible apply ih
    | with_reducible apply rowAccess_steady
    | with_reducible apply Keeps.next
    | with_reducible refine Steady.foldl _ (fun s x hs => ?_) _ _ ?_
    | (simp only [Steady.mk_iff]; with_reducible refine SteadyF.of ?_ _ _)
    | split
    | dsimp only
    | with_reducible refine Steady.snd (by assumption) ?_
    | with_reducible refine Steady.third (by assumption) ?_

theorem partAccess_steady {r s : State} (h : Steady r s) (w : Who) (op : Op) (q : Req) (w0 : Nat) (m : Mode) (fit : Nat) (rows : List RowReq) :
    Steady r (partAccess s w op q w0 m fit rows).2 := by
  unfold partAccess
  repeat' first
    | with_reducible assumption | with_reducible apply State.countLake_steady | with_reducible apply rowsAccess_steady | split
    | dsimp only

theorem State.wait_steady {r s : State} (h : Steady r s) (n : Nat) (w : Who) (what : Waiting) (rows : List Nat) :
    Steady r (s.wait n w what rows).2 := by
  unfold State.wait
  repeat' first
    | with_reducible assumption | with_reducible apply State.turnAway_steady | with_reducible apply State.countLake_steady
    | with_reducible apply State.fresh1_steady | with_reducible apply State.backoffClear_steady
    | with_reducible apply State.modLake_steady | split

theorem partsAccess_steady {r s : State} (h : Steady r s) (x0 : Who) (x1 : Op) (x2 : Req) (x3 : Nat) (x4 : Mode) (x5 x7 x8 : Nat) (x9 : List (List RowReq)) :
    Steady r (partsAccess x0 x1 x2 x3 x4 x5 s x7 x8 x9).2 := by
  induction x9 generalizing s x7 x8 with
  | nil => exact h
  | cons a l ih =>
  unfold partsAccess
  repeat' first
    | with_reducible assumption
    | refine fun (s : State) (hs : Steady r s) => ?_
    | with_reducible apply ih
    | with_reducible apply partAccess_steady
    | with_reducible apply State.wait_steady
    | with_reducible apply State.backoffClear_steady
    | with_reducible apply Keeps.next
    | with_reducible refine Steady.foldl _ (fun s x hs => ?_) _ _ ?_
    | (simp only [Steady.mk_iff]; with_reducible refine SteadyF.of ?_ _ _)
    | split
    | dsimp only
    | with_reducible refine Steady.snd (by assumption) ?_
    | with_reducible refine Steady.third (by assumption) ?_

theorem State.place_steady {r s : State} (h : Steady r s) (w : Who) (n : Nat) (op : Op) (m : Mode) (joins : Bool) (rows : List RowReq) :
    Steady r (s.place w n op m joins rows).2 := by
  unfold State.place
  repeat' first
    | with_reducible assumption | with_reducible apply State.countLake_steady | with_reducible apply State.modArb_steady
    | with_reducible refine Steady.foldl _ (fun s x hs => ?_) _ _ ?_
    | (simp only [Steady.mk_iff]; with_reducible refine SteadyF.of ?_ _ _) | split | dsimp only

theorem State.perform_steady {r s : State} (h : Steady r s) (w : Who) (op : Op) (q : Req) (data : List Word) (w0 : Nat) (m : Mode) :
    Steady r (s.perform w op q data w0 m) := by
  unfold State.perform
  repeat' first
    | with_reducible assumption | with_reducible apply State.place_steady | with_reducible apply State.inPonds_steady
    | with_reducible apply State.claim_steady | with_reducible apply partsAccess_steady
    | with_reducible apply State.respond_steady | with_reducible apply State.takeOutcome_steady
    | with_reducible refine Steady.foldl _ (fun s x hs => ?_) _ _ ?_
    | (simp only [Steady.mk_iff]; with_reducible refine SteadyF.of ?_ _ _) | split

theorem State.reenter_steady {r s : State} (h : Steady r s) (n : Nat) (e : Waiter) : Steady r (s.reenter n e) := by
  unfold State.reenter
  repeat' first
    | with_reducible assumption | with_reducible apply partAccess_steady | with_reducible apply State.modLake_steady
    | with_reducible apply State.takeOutcome_steady | with_reducible apply State.finishPart_steady
    | (simp only [Steady.mk_iff]; with_reducible refine SteadyF.of ?_ _ _) | split | dsimp only
    | with_reducible refine Steady.snd (by assumption) ?_

theorem State.wakeThose_steady {r s : State} (h : Steady r s) (n : Nat) (p : Waiter → Bool) : Steady r (s.wakeThose n p) := by
  unfold State.wakeThose
  repeat' first
    | with_reducible assumption | with_reducible apply State.reenter_steady
    | with_reducible refine Steady.foldl _ (fun s x hs => ?_) _ _ ?_

theorem State.wakeRow_steady {r s : State} (h : Steady r s) (row : Nat) : Steady r (s.wakeRow row) := by
  unfold State.wakeRow
  repeat' first
    | with_reducible assumption | with_reducible apply State.wakeThose_steady

theorem windowCheck_steady {r s : State} (h : Steady r s) (w : Who) (op : Op) (q : Req) (n w0 addr : Nat) :
    Steady r (windowCheck s w op q n w0 addr).2 := by
  unfold windowCheck
  repeat' first
    | with_reducible assumption | with_reducible apply State.log_steady | with_reducible apply State.countLake_steady
    | with_reducible apply State.modWin_steady | split | dsimp only

theorem State.wakeIdle_steady {r s : State} (h : Steady r s) (n : Nat) : Steady r (s.wakeIdle n) := by
  unfold State.wakeIdle
  repeat' first
    | with_reducible assumption | with_reducible apply State.modLp_steady | with_reducible apply State.countLake_steady | split

theorem State.wakeDown_steady {r s : State} (h : Steady r s) (n : Nat) (setOn : Bool) : Steady r (s.wakeDown n setOn) := by
  unfold State.wakeDown
  repeat' first
    | with_reducible assumption | with_reducible apply State.modLp_steady | split | dsimp only

theorem State.holdAt_steady {r s : State} (h : Steady r s) (w : Who) (op : Op) (q : Req) (data : List Word) (v : View) (n w0 : Nat) :
    Steady r (s.holdAt w op q data v n w0) := by
  unfold State.holdAt
  repeat' first
    | with_reducible assumption | with_reducible apply State.wakeDown_steady | with_reducible apply State.wakeIdle_steady
    | with_reducible apply State.claim_steady | with_reducible apply State.countLake_steady
    | with_reducible apply State.modLp_steady | split

theorem State.refuseAt_steady {r s : State} (h : Steady r s) (w : Who) (op : Op) (q : Req) (v : View) (n w0 : Nat) (st : Status) (rec : Option (Nat × Nat)) :
    Steady r (s.refuseAt w op q v n w0 st rec) := by
  unfold State.refuseAt
  repeat' first
    | with_reducible assumption | with_reducible apply State.modLp_steady | with_reducible apply State.countLake_steady
    | with_reducible apply State.refuse_steady | split

theorem State.startAccess_steady {r s : State} (h : Steady r s) (w : Who) (op : Op) (q : Req) (data : List Word) (n w0 : Nat) (m : Mode) :
    Steady r (s.startAccess w op q data n w0 m) := by
  unfold State.startAccess
  repeat' first
    | with_reducible assumption | with_reducible apply State.perform_steady | with_reducible apply State.respond_steady
    | with_reducible apply State.countLake_steady | with_reducible apply State.turnAway_steady | split | dsimp only

theorem State.atLake_steady {r s : State} (h : Steady r s) (w : Who) (op : Op) (q : Req) (data : List Word) (v : View) (w0 : Nat) (woken : Bool) :
    Steady r (s.atLake w op q data v w0 woken) := by
  unfold State.atLake
  repeat' first
    | with_reducible assumption | with_reducible apply State.refuseAt_steady | with_reducible apply State.holdAt_steady
    | with_reducible apply windowCheck_steady | with_reducible apply State.startAccess_steady | split | dsimp only
    | with_reducible refine Steady.snd (by assumption) ?_

theorem State.proceed_steady {r s : State} (h : Steady r s) (x1 : Held) : Steady r (s.proceed x1) := by
  unfold State.proceed
  repeat' first
    | with_reducible assumption | with_reducible apply State.atLake_steady | split

end Sys2Proof.Machine
end

