-- ==== Sys2Proof/Laws/SteadyTime.lean ====
section
/-!
SUPPORT. What the operations of `Time` keep (`Steady`), one lemma per operation.
-/
namespace Sys2Proof.Machine

-- One theorem after another: elaborated side by side, these theorems would each hold a thread and its stack.
set_option Elab.async false
set_option linter.all false

theorem State.countLevels_steady {r s : State} (h : Steady r s) (dt : Nat) : Steady r (s.countLevels dt) := by
  unfold State.countLevels
  repeat' first
    | with_reducible assumption | (simp only [Steady.mk_iff]; with_reducible refine SteadyF.of ?_ _ _) | split

theorem State.refill_steady {r s : State} (h : Steady r s) (x1 : Nat) : Steady r (s.refill x1) := by
  unfold State.refill
  split
  · exact h
  ·
    refine h.tabs rfl rfl rfl rfl fun c => ?_
    simp only [State.canonical, Bool.and_eq_true] at c ⊢
    simp only [c, Tab.wf_mapTab, and_self]

theorem State.flagDepth_steady {r s : State} (h : Steady r s) : Steady r s.flagDepth := by
  unfold State.flagDepth
  ·
    refine h.tabs rfl rfl rfl rfl fun c => ?_
    simp only [State.canonical, Bool.and_eq_true] at c ⊢
    simp only [c, Tab.wf_mapTab, and_self]

theorem State.elapse_steady {r s : State} (h : Steady r s) (dt : Nat) : Steady r (s.elapse dt) := by
  unfold State.elapse
  repeat' first
    | with_reducible assumption | with_reducible apply State.flagDepth_steady | with_reducible apply State.refill_steady
    | with_reducible apply State.countLevels_steady | (simp only [Steady.mk_iff]; with_reducible refine SteadyF.of ?_ _ _)

theorem State.reach_steady {r s : State} (h : Steady r s) (t : Nat) : Steady r (s.reach t) := by
  unfold State.reach
  repeat' first
    | with_reducible assumption | with_reducible apply State.elapse_steady | split

theorem State.reachNs_steady {r s : State} (h : Steady r s) (t : Nat) : Steady r (s.reachNs t) := by
  unfold State.reachNs
  repeat' first
    | with_reducible assumption | with_reducible apply State.elapse_steady
    | (simp only [Steady.mk_iff]; with_reducible refine SteadyF.of ?_ _ _) | split

theorem idle_steady {r s : State} (h : Steady r s) : Steady r (idle s) := by
  unfold idle
  repeat' first
    | with_reducible assumption | with_reducible apply State.elapse_steady
    | (simp only [Steady.mk_iff]; with_reducible refine SteadyF.of ?_ _ _) | split

end Sys2Proof.Machine
end

