-- ==== Sys2Proof/Laws/SteadyAborts.lean ====
section
/-!
SUPPORT. What the operations of `Aborts` keep (`Steady`), one lemma per operation.
-/
namespace Sys2Proof.Machine

-- One theorem after another: elaborated side by side, these theorems would each hold a thread and its stack.
set_option Elab.async false
set_option linter.all false

theorem State.rangeStep_steady {r s : State} (h : Steady r s) (n : Nat) (range : List Nat) (mine : Nat → Bool) (target : Slate) (release : List Nat) :
    Steady r (s.rangeStep n range mine target release) := by
  unfold State.rangeStep
  repeat' first
    | with_reducible assumption | with_reducible apply State.modLake_steady | with_reducible apply State.countLake_steady
    | with_reducible apply State.wakeIdle_steady

theorem State.slotsFull_steady {r s : State} (h : Steady r s) (rows : List Nat) (pr : Principal) (priv : Bool) (label : Nat) (segs : List Seg) :
    Steady r (s.slotsFull rows pr priv label segs) := by
  unfold State.slotsFull
  repeat' first
    | with_reducible assumption | with_reducible apply State.slotFull_steady
    | with_reducible refine Steady.foldl _ (fun s x hs => ?_) _ _ ?_ | split

theorem State.countSpring_steady {r s : State} (h : Steady r s) (n ev k : Nat) (label : Option Nat) (quals : List Nat) :
    Steady r (s.countSpring n ev k label quals) := by
  unfold State.countSpring
  repeat' first
    | with_reducible assumption | with_reducible apply State.count_steady

theorem State.modDesc_steady {r s : State} (h : Steady r s) (n seq : Nat) (f : Desc → Desc) : Steady r (s.modDesc n seq f) := by
  unfold State.modDesc
  repeat' first
    | with_reducible assumption | with_reducible apply State.modSpring_steady

theorem State.descStep_steady {r s : State} (h : Steady r s) (n : Nat) (ds : List Desc) (target : Slate) :
    Steady r (s.descStep n ds target) := by
  unfold State.descStep
  repeat' first
    | with_reducible assumption | with_reducible apply State.rangeStep_steady | split | dsimp only

theorem State.followOn_steady {r s : State} (h : Steady r s) (n : Nat) (label : Option Nat) : Steady r (s.followOn n label) := by
  unfold State.followOn
  repeat' first
    | with_reducible assumption | with_reducible apply State.modSpring_steady | with_reducible apply State.countSpring_steady

theorem State.discard_steady {r s : State} (h : Steady r s) (n bytes : Nat) (label : Option Nat) :
    Steady r (s.discard n bytes label) := by
  unfold State.discard
  repeat' first
    | with_reducible assumption | with_reducible apply State.modSpring_steady | with_reducible apply State.countSpring_steady

theorem State.abortLake_steady {r s : State} (h : Steady r s) (p : Principal) (n : Nat) : Steady r (State.abortLake p s n) := by
  unfold State.abortLake
  repeat' first
    | with_reducible assumption | with_reducible apply State.discard_steady | with_reducible apply State.modSpring_steady
    | with_reducible apply State.countSpring_steady | with_reducible apply State.followOn_steady
    | with_reducible apply State.endTake_steady | with_reducible apply State.releaseWaiters_steady
    | with_reducible refine Steady.foldl _ (fun s x hs => ?_) _ _ ?_ | split

theorem State.startAbort_steady {r s : State} (h : Steady r s) (f : Faulted) (byFault : Bool) : Steady r (s.startAbort f byFault) := by
  unfold State.startAbort
  repeat' first
    | with_reducible assumption | with_reducible apply State.abortLake_steady
    | with_reducible refine Steady.foldl _ (fun s x hs => ?_) _ _ ?_
    | (simp only [Steady.mk_iff]; with_reducible refine SteadyF.of ?_ _ _)

theorem State.recordFault_steady {r s : State} (h : Steady r s) (n : Nat) (f : Faulted) (addr : BitVec 64) :
    Steady r (s.recordFault n f addr) := by
  unfold State.recordFault
  repeat' first
    | with_reducible assumption | with_reducible apply State.modSpring_steady | with_reducible apply State.countSpring_steady

theorem State.fault_steady {r s : State} (h : Steady r s) (f : Faulted) (addr : BitVec 64) : Steady r (s.fault f addr) := by
  unfold State.fault
  repeat' first
    | with_reducible assumption | with_reducible apply State.modDesc_steady | with_reducible apply State.followOn_steady
    | with_reducible apply State.recordFault_steady | with_reducible apply State.startAbort_steady
    | with_reducible apply State.modSpring_steady | (simp only [Steady.mk_iff]; with_reducible refine SteadyF.of ?_ _ _) | split
    | dsimp only

theorem State.descFault_steady {r s : State} (h : Steady r s) (n : Nat) (d : Desc) (st : Status) (addr : BitVec 64) :
    Steady r (s.descFault n d st addr) := by
  unfold State.descFault
  repeat' first
    | with_reducible assumption | with_reducible apply State.modDesc_steady | with_reducible apply State.fault_steady

theorem State.badStatus_steady {r s : State} (h : Steady r s) (n : Nat) (d : Desc) (st : Status) (addr : BitVec 64) :
    Steady r (s.badStatus n d st addr) := by
  unfold State.badStatus
  repeat' first
    | with_reducible assumption | with_reducible apply State.followOn_steady | with_reducible apply State.descFault_steady | split

theorem State.enterDeferred_steady {r s : State} (h : Steady r s) (x0 : Nat) : Steady r (State.enterDeferred x0 s) := by
  induction x0 generalizing s with
  | zero => exact h
  | succ k ih =>
  unfold State.enterDeferred
  repeat' first
    | with_reducible assumption
    | refine fun (s : State) (hs : Steady r s) => ?_
    | with_reducible apply ih
    | with_reducible apply State.modSpring_steady
    | with_reducible apply State.followOn_steady
    | with_reducible apply Keeps.next
    | with_reducible refine Steady.foldl _ (fun s x hs => ?_) _ _ ?_
    | (simp only [Steady.mk_iff]; with_reducible refine SteadyF.of ?_ _ _)
    | split
    | dsimp only
    | with_reducible refine Steady.snd (by assumption) ?_
    | with_reducible refine Steady.third (by assumption) ?_

theorem State.abortStep_steady {r s : State} (h : Steady r s) (n : Nat) : Steady r (s.abortStep n) := by
  unfold State.abortStep
  repeat' first
    | with_reducible assumption | with_reducible apply State.modSpring_steady | with_reducible apply State.descStep_steady

theorem State.abortRecord_steady {r s : State} (h : Steady r s) : Steady r s.abortRecord := by
  unfold State.abortRecord
  repeat' first
    | with_reducible assumption | with_reducible apply State.log_steady | split

theorem State.abortEnd_steady {r s : State} (h : Steady r s) : Steady r s.abortEnd := by
  unfold State.abortEnd
  repeat' first
    | with_reducible assumption | with_reducible apply State.modLake_steady | with_reducible apply State.abortStep_steady
    | with_reducible apply State.abortRecord_steady | with_reducible apply State.enterDeferred_steady
    | with_reducible apply State.startAbort_steady | with_reducible apply State.elapse_steady
    | with_reducible refine Steady.foldl _ (fun s x hs => ?_) _ _ ?_
    | (simp only [Steady.mk_iff]; with_reducible refine SteadyF.of ?_ _ _) | split | dsimp only

end Sys2Proof.Machine
end

