-- ==== Sys2Proof/Laws/SteadyControl.lean ====
section
/-!
SUPPORT. What the operations of `Control` keep (`Steady`), one lemma per operation.
-/
namespace Sys2Proof.Machine

-- One theorem after another: elaborated side by side, these theorems would each hold a thread and its stack.
set_option Elab.async false
set_option linter.all false

theorem State.done_steady {r s : State} (h : Steady r s) (c : Ctl) : Steady r (s.done c) := by
  unfold State.done
  repeat' first
    | with_reducible assumption | with_reducible apply State.reply_steady

theorem State.nack_steady {r s : State} (h : Steady r s) (c : Ctl) (st : Status) : Steady r (s.nack c st) := by
  unfold State.nack
  repeat' first
    | with_reducible assumption | with_reducible apply State.reply_steady

theorem State.deny_steady {r s : State} (h : Steady r s) (c : Ctl) (st : Status) (detail : Nat) : Steady r (s.deny c st detail) := by
  unfold State.deny
  repeat' first
    | with_reducible assumption | with_reducible apply State.reply_steady | with_reducible apply State.reject_steady

theorem State.unless_steady {r s : State} (h : Steady r s) (c : Ctl) (fails : List Bool) (go : State → State) (hgo : ∀ s, Steady r s → Steady r (go s)) :
    Steady r (s.unless c fails go) := by
  unfold State.unless
  repeat' first
    | with_reducible assumption | with_reducible apply State.deny_steady | with_reducible apply hgo | split

theorem State.unless0_steady {r s : State} (h : Steady r s) (c : Ctl) (fail : Bool) (go : State → State) (hgo : ∀ s, Steady r s → Steady r (go s)) :
    Steady r (s.unless0 c fail go) := by
  unfold State.unless0
  repeat' first
    | with_reducible assumption | with_reducible apply State.deny_steady | with_reducible apply hgo | split

theorem State.privOnly_steady {r s : State} (h : Steady r s) (c : Ctl) (go : State → State) (hgo : ∀ s, Steady r s → Steady r (go s)) :
    Steady r (s.privOnly c go) := by
  unfold State.privOnly
  repeat' first
    | with_reducible assumption | with_reducible apply State.nack_steady | with_reducible apply hgo | split

theorem State.ownerOnly_steady {r s : State} (h : Steady r s) (c : Ctl) (n : Nat) (go : State → State) (hgo : ∀ s, Steady r s → Steady r (go s)) :
    Steady r (s.ownerOnly c n go) := by
  unfold State.ownerOnly
  repeat' first
    | with_reducible assumption | with_reducible apply State.nack_steady | with_reducible apply hgo | split

end Sys2Proof.Machine
end

