-- ==== Sys2Proof/Laws/SteadyCues.lean ====
section
/-!
SUPPORT. What the operations of `Cues` keep (`Steady`), one lemma per operation.
-/
namespace Sys2Proof.Machine

-- One theorem after another: elaborated side by side, these theorems would each hold a thread and its stack.
set_option Elab.async false
set_option linter.all false

theorem State.meet_steady {r s : State} (h : Steady r s) (k : Nat) (x2 : HeldWait) : Steady r (s.meet k x2) := by
  unfold State.meet
  repeat' first
    | with_reducible assumption | with_reducible apply State.modCue_steady | with_reducible apply State.reply_steady
    | with_reducible apply State.deadlines_steady | with_reducible apply State.modLake_steady
    | with_reducible apply State.modDesc_steady | split

theorem State.serveCue_steady {r s : State} (h : Steady r s) (x0 x1 : Nat) : Steady r (State.serveCue x0 x1 s) := by
  induction x1 generalizing s with
  | zero => exact h
  | succ k ih =>
  unfold State.serveCue
  repeat' first
    | with_reducible assumption
    | refine fun (s : State) (hs : Steady r s) => ?_
    | with_reducible apply ih
    | with_reducible apply State.meet_steady
    | with_reducible apply Keeps.next
    | with_reducible refine Steady.foldl _ (fun s x hs => ?_) _ _ ?_
    | (simp only [Steady.mk_iff]; with_reducible refine SteadyF.of ?_ _ _)
    | split
    | dsimp only
    | with_reducible refine Steady.snd (by assumption) ?_
    | with_reducible refine Steady.third (by assumption) ?_

theorem State.meetMarks_steady {r s : State} (h : Steady r s) (k : Nat) : Steady r (s.meetMarks k) := by
  unfold State.meetMarks
  repeat' first
    | with_reducible assumption | with_reducible apply State.modSpring_steady
    | with_reducible refine Steady.foldl _ (fun s x hs => ?_) _ _ ?_ | split

theorem State.cueChanged_steady {r s : State} (h : Steady r s) (k : Nat) : Steady r (s.cueChanged k) := by
  unfold State.cueChanged
  repeat' first
    | with_reducible assumption | with_reducible apply State.meetMarks_steady | with_reducible apply State.serveCue_steady

theorem State.serveCues_steady {r s : State} (h : Steady r s) : Steady r s.serveCues := by
  unfold State.serveCues
  repeat' first
    | with_reducible assumption | with_reducible apply State.serveCue_steady
    | with_reducible refine Steady.foldl _ (fun s x hs => ?_) _ _ ?_

theorem State.signal_steady {r s : State} (h : Steady r s) (k n : Nat) : Steady r (s.signal k n) := by
  unfold State.signal
  repeat' first
    | with_reducible assumption | with_reducible apply State.modCue_steady | with_reducible apply State.cueChanged_steady

theorem State.signalAt_steady {r s : State} (h : Steady r s) (c : Ctl) (k : Nat) (v : BitVec 64) : Steady r (s.signalAt c k v) := by
  unfold State.signalAt
  repeat' first
    | with_reducible assumption | with_reducible apply State.done_steady | with_reducible apply State.signal_steady
    | with_reducible apply State.modCue_steady | with_reducible apply State.deny_steady | split

theorem cueSignalWrite_steady {r s : State} (h : Steady r s) (c : Ctl) (k : Nat) (v : BitVec 64) :
    Steady r (cueSignalWrite c k v s) := by
  unfold cueSignalWrite
  repeat' first
    | with_reducible assumption | with_reducible apply State.signalAt_steady | with_reducible apply State.fresh1_steady
    | (simp only [Steady.mk_iff]; with_reducible refine SteadyF.of ?_ _ _) | split | dsimp only
    | with_reducible refine Steady.snd (by assumption) ?_

theorem State.retryWait_steady {r s : State} (h : Steady r s) (c : Ctl) (v : BitVec 64) (b : Nat) : Steady r (s.retryWait c v b) := by
  unfold State.retryWait
  repeat' first
    | with_reducible assumption | with_reducible apply State.claim_steady | with_reducible apply State.reply_steady
    | (simp only [Steady.mk_iff]; with_reducible refine SteadyF.of ?_ _ _) | split

theorem State.takeWait_steady {r s : State} (h : Steady r s) (c : Ctl) (k : Nat) (v : BitVec 64) (now : Bool) :
    Steady r (s.takeWait c k v now) := by
  unfold State.takeWait
  repeat' first
    | with_reducible assumption | with_reducible apply State.modCue_steady | with_reducible apply State.done_steady
    | with_reducible apply State.retryWait_steady | with_reducible apply State.countLake_steady
    | with_reducible apply State.wait_steady | split | dsimp only | with_reducible refine Steady.snd (by assumption) ?_

theorem cueWaitWrite_steady {r s : State} (h : Steady r s) (c : Ctl) (k : Nat) (v : BitVec 64) : Steady r (cueWaitWrite c k v s) := by
  unfold cueWaitWrite
  repeat' first
    | with_reducible assumption | with_reducible apply State.nack_steady | with_reducible apply State.takeWait_steady
    | with_reducible apply State.deny_steady | split | dsimp only

theorem cueCountSet_steady {r s : State} (h : Steady r s) (c : Ctl) (k : Nat) (v : BitVec 64) : Steady r (cueCountSet c k v s) := by
  unfold cueCountSet
  repeat' first
    | with_reducible assumption | refine fun (s : State) (hs : Steady r s) => ?_ | with_reducible apply State.privOnly_steady
    | with_reducible apply State.done_steady | with_reducible apply State.cueChanged_steady
    | with_reducible apply State.modCue_steady

theorem cueCfgSet_steady {r s : State} (h : Steady r s) (c : Ctl) (k : Nat) (v : BitVec 64) : Steady r (cueCfgSet c k v s) := by
  unfold cueCfgSet
  repeat' first
    | with_reducible assumption | refine fun (s : State) (hs : Steady r s) => ?_ | with_reducible apply State.privOnly_steady
    | with_reducible apply State.unless_steady | with_reducible apply State.done_steady | with_reducible apply State.modCue_steady

theorem State.sendSignal_steady {r s : State} (h : Steady r s) (x1 : HeldSignal) : Steady r (s.sendSignal x1) := by
  unfold State.sendSignal
  repeat' first
    | with_reducible assumption | with_reducible apply State.signalAt_steady | with_reducible apply State.deadlines_steady
    | (simp only [Steady.mk_iff]; with_reducible refine SteadyF.of ?_ _ _)

end Sys2Proof.Machine
end

