-- ==== Sys2Proof/Laws/SteadyTakes.lean ====
section
/-!
SUPPORT. What the operations of `Takes` keep (`Steady`), one lemma per operation.
-/
namespace Sys2Proof.Machine

-- One theorem after another: elaborated side by side, these theorems would each hold a thread and its stack.
set_option Elab.async false
set_option linter.all false

theorem State.answer_steady {r s : State} (h : Steady r s) (t : TakeCmd) (st : Status) (lat : Nat) : Steady r (s.answer t st lat) := by
  unfold State.answer
  repeat' first
    | with_reducible assumption | with_reducible apply State.emit_steady

theorem State.rejectTake_steady {r s : State} (h : Steady r s) (w : Who) (t : TakeCmd) (n : Nat) (st : Status) (detail : Nat) :
    Steady r (s.rejectTake w t n st detail) := by
  unfold State.rejectTake
  repeat' first
    | with_reducible assumption | with_reducible apply State.answer_steady | with_reducible apply State.reject_steady

theorem State.preemptCheck_steady {r s : State} (h : Steady r s) : Steady r s.preemptCheck := by
  unfold State.preemptCheck
  repeat' first
    | with_reducible assumption | (simp only [Steady.mk_iff]; with_reducible refine SteadyF.of ?_ _ _) | split

theorem takeOpenAt_steady {r s : State} (h : Steady r s) (w : Who) (t : TakeCmd) (f : TakeFields) : Steady r (takeOpenAt s w t f) := by
  unfold takeOpenAt
  repeat' first
    | with_reducible assumption | with_reducible apply State.answer_steady | with_reducible apply State.rejectTake_steady
    | with_reducible apply State.modLake_steady | with_reducible apply State.countLake_steady | split | dsimp only

theorem takeCommitAt_steady {r s : State} (h : Steady r s) (w : Who) (t : TakeCmd) : Steady r (takeCommitAt s w t) := by
  unfold takeCommitAt
  repeat' first
    | with_reducible assumption | with_reducible apply State.modLake_steady | with_reducible apply State.rejectTake_steady
    | with_reducible apply State.answer_steady | split | dsimp only

theorem takeAbortAt_steady {r s : State} (h : Steady r s) (w : Who) (t : TakeCmd) (fault : Bool) :
    Steady r (takeAbortAt s w t fault) := by
  unfold takeAbortAt
  repeat' first
    | with_reducible assumption | with_reducible apply State.modLake_steady | with_reducible apply State.endTake_steady
    | with_reducible apply State.rejectTake_steady | with_reducible apply State.answer_steady | split | dsimp only

theorem takeAt_steady {r s : State} (h : Steady r s) (w : Who) (t : TakeCmd) (op : TakeOp) : Steady r (takeAt s w t op) := by
  unfold takeAt
  repeat' first
    | with_reducible assumption | with_reducible apply takeOpenAt_steady | with_reducible apply takeCommitAt_steady
    | with_reducible apply takeAbortAt_steady | split

theorem State.wakeDeep_steady {r s : State} (h : Steady r s) : Steady r s.wakeDeep := by
  unfold State.wakeDeep
  repeat' first
    | with_reducible assumption | (simp only [Steady.mk_iff]; with_reducible refine SteadyF.of ?_ _ _) | split

theorem State.holdDeep_steady {r s : State} (h : Steady r s) (x1 : Held) : Steady r (s.holdDeep x1) := by
  unfold State.holdDeep
  repeat' first
    | with_reducible assumption | with_reducible apply State.wakeDeep_steady
    | (simp only [Steady.mk_iff]; with_reducible refine SteadyF.of ?_ _ _)

theorem takePresentBy_steady {r s : State} (h : Steady r s) (w : Who) (t : TakeCmd) (op : TakeOp) :
    Steady r (takePresentBy w t op s) := by
  unfold takePresentBy
  repeat' first
    | with_reducible assumption | with_reducible apply State.holdDeep_steady | with_reducible apply State.claim_steady
    | with_reducible apply State.modLp_steady | with_reducible apply State.countLake_steady
    | with_reducible apply State.answer_steady | with_reducible apply State.log_steady
    | with_reducible apply State.rejectTake_steady | with_reducible apply State.wakeIdle_steady
    | with_reducible apply takeAt_steady | split | dsimp only

theorem takePresent_steady {r s : State} (h : Steady r s) (t : TakeCmd) (op : TakeOp) : Steady r (takePresent t op s) := by
  unfold takePresent
  repeat' first
    | with_reducible assumption | with_reducible apply takePresentBy_steady

theorem State.takeSlots_steady {r s : State} (h : Steady r s) (x1 : Take) (rows : List Nat) : Steady r (s.takeSlots x1 rows) := by
  unfold State.takeSlots
  repeat' first
    | with_reducible assumption | with_reducible apply State.slotFullBy_steady
    | with_reducible refine Steady.foldl _ (fun s x hs => ?_) _ _ ?_ | split

theorem State.commitStep_steady {r s : State} (h : Steady r s) (n t : Nat) : Steady r (s.commitStep n t) := by
  unfold State.commitStep
  repeat' first
    | with_reducible assumption | with_reducible apply State.reach_steady | with_reducible apply State.rangeStep_steady
    | with_reducible apply State.takeSlots_steady | with_reducible apply State.countLake_steady
    | with_reducible apply State.signal_steady | with_reducible apply State.modLake_steady
    | with_reducible apply State.preemptCheck_steady | with_reducible apply State.emit_steady
    | (simp only [Steady.mk_iff]; with_reducible refine SteadyF.of ?_ _ _) | split

theorem State.takeEndStep_steady {r s : State} (h : Steady r s) (n t : Nat) : Steady r (s.takeEndStep n t) := by
  unfold State.takeEndStep
  repeat' first
    | with_reducible assumption | with_reducible apply State.reach_steady | with_reducible apply State.rangeStep_steady
    | with_reducible apply State.countLake_steady | with_reducible apply State.emit_steady | with_reducible apply State.log_steady
    | with_reducible apply State.modLake_steady | with_reducible apply State.preemptCheck_steady | split

theorem State.takeStep_steady {r s : State} (h : Steady r s) (n t : Nat) : Steady r (s.takeStep n t) := by
  unfold State.takeStep
  repeat' first
    | with_reducible assumption | with_reducible apply State.modLake_steady | with_reducible apply State.commitStep_steady
    | with_reducible apply State.takeEndStep_steady | split | dsimp only

theorem execTakeOpen_steady {r s : State} (h : Steady r s) (t : TakeCmd) (f : TakeFields) : Keeps r (execTakeOpen t f s) := by
  unfold execTakeOpen
  repeat' first
    | with_reducible assumption | with_reducible apply takePresent_steady | with_reducible apply Keeps.next

theorem execTakeCommit_steady {r s : State} (h : Steady r s) (t : TakeCmd) : Keeps r (execTakeCommit t s) := by
  unfold execTakeCommit
  repeat' first
    | with_reducible assumption | with_reducible apply takePresent_steady | with_reducible apply Keeps.next

theorem execTakeAbort_steady {r s : State} (h : Steady r s) (t : TakeCmd) (fault : Bool) : Keeps r (execTakeAbort t fault s) := by
  unfold execTakeAbort
  repeat' first
    | with_reducible assumption | with_reducible apply takePresent_steady | with_reducible apply Keeps.next

theorem execTakeCommitStep_steady {r s : State} (h : Steady r s) (n : Fin 24) (slot : Fin 16) :
    Keeps r (execTakeCommitStep n slot s) := by
  unfold execTakeCommitStep
  repeat' first
    | with_reducible assumption | with_reducible apply State.takeStep_steady | with_reducible apply Keeps.next | split

theorem execTakeAbortStep_steady {r s : State} (h : Steady r s) (n : Fin 24) (slot : Fin 16) :
    Keeps r (execTakeAbortStep n slot s) := by
  unfold execTakeAbortStep
  repeat' first
    | with_reducible assumption | with_reducible apply State.takeStep_steady | with_reducible apply Keeps.next | split

theorem preemptSet_steady {r s : State} (h : Steady r s) (c : Ctl) (v : BitVec 64) : Steady r (preemptSet c v s) := by
  unfold preemptSet
  repeat' first
    | with_reducible assumption | refine fun (s : State) (hs : Steady r s) => ?_ | with_reducible apply State.privOnly_steady
    | with_reducible apply State.unless_steady | with_reducible apply State.done_steady
    | with_reducible apply State.preemptCheck_steady | (simp only [Steady.mk_iff]; with_reducible refine SteadyF.of ?_ _ _)

theorem State.preemptOne_steady {r s : State} (h : Steady r s) (e : Nat × Nat) : Steady r (s.preemptOne e) := by
  unfold State.preemptOne
  repeat' first
    | with_reducible assumption | with_reducible apply State.endTake_steady
    | (simp only [Steady.mk_iff]; with_reducible refine SteadyF.of ?_ _ _) | split | dsimp only

theorem execPreemptDeadline_steady {r s : State} (h : Steady r s) : Keeps r (execPreemptDeadline s) := by
  unfold execPreemptDeadline
  repeat' first
    | with_reducible assumption | with_reducible apply State.reachNs_steady | with_reducible apply State.preemptCheck_steady
    | with_reducible apply State.preemptOne_steady | with_reducible apply Keeps.next
    | with_reducible refine Steady.foldl _ (fun s x hs => ?_) _ _ ?_
    | (simp only [Steady.mk_iff]; with_reducible refine SteadyF.of ?_ _ _) | split

end Sys2Proof.Machine
end

