-- ==== Sys2Proof/Laws/SteadySprings.lean ====
section
/-!
SUPPORT. What the operations of `Springs` keep (`Steady`), one lemma per operation.
-/
namespace Sys2Proof.Machine

-- One theorem after another: elaborated side by side, these theorems would each hold a thread and its stack.
set_option Elab.async false
set_option linter.all false

theorem State.refuseSpring_steady {r s : State} (h : Steady r s) (n : Nat) (w : Who) (addr : Nat) :
    Steady r (s.refuseSpring n w addr) := by
  unfold State.refuseSpring
  repeat' first
    | with_reducible assumption | with_reducible apply State.modLp_steady | with_reducible apply State.countLake_steady
    | with_reducible apply State.log_steady

theorem State.shoreS_steady {r s : State} (h : Steady r s) (n : Nat) (d : Desc) (w : Who) (op : Op) (m : Mode) (p : Piece) (data : List Word) :
    Steady r (s.shoreS n d w op m p data).2 := by
  unfold State.shoreS
  repeat' first
    | with_reducible assumption | with_reducible apply State.countSpring_steady | with_reducible apply State.place_steady
    | with_reducible apply rowAccess_steady | with_reducible apply State.inPonds_steady
    | with_reducible apply State.deadlines_steady | split | dsimp only

theorem State.springRead_steady {r s : State} (h : Steady r s) (n : Nat) (d : Desc) (p : Piece) : Steady r (s.springRead n d p).2 := by
  unfold State.springRead
  repeat' first
    | with_reducible assumption | with_reducible apply State.refuseSpring_steady | with_reducible apply State.shoreS_steady
    | split

theorem State.landed_steady {r s : State} (h : Steady r s) (n seq i row : Nat) : Steady r (s.landed n seq i row) := by
  unfold State.landed
  repeat' first
    | with_reducible assumption | with_reducible apply State.modDesc_steady

theorem State.landOne_steady {r s : State} (h : Steady r s) (n : Nat) (d : Desc) (i : Nat) (data : List Word) (since : Option Nat) :
    Steady r (s.landOne n d i data since).2 := by
  unfold State.landOne
  repeat' first
    | with_reducible assumption | with_reducible apply State.badStatus_steady | with_reducible apply State.refuseSpring_steady
    | with_reducible apply State.wakeIdle_steady | with_reducible apply State.countLake_steady
    | with_reducible apply State.turnAway_steady | with_reducible apply State.countSpring_steady
    | with_reducible apply State.shoreS_steady | with_reducible apply State.wait_steady
    | with_reducible apply State.backoffClear_steady | with_reducible apply State.landed_steady | split | dsimp only
    | with_reducible refine Steady.snd (by assumption) ?_

theorem State.land_steady {r s : State} (h : Steady r s) (x0 x1 x2 : Nat) : Steady r (State.land x0 x1 x2 s) := by
  induction x2 generalizing s with
  | zero => exact h
  | succ k ih =>
  unfold State.land
  repeat' first
    | with_reducible assumption
    | refine fun (s : State) (hs : Steady r s) => ?_
    | with_reducible apply ih
    | with_reducible apply State.landOne_steady
    | with_reducible apply Keeps.next
    | with_reducible refine Steady.foldl _ (fun s x hs => ?_) _ _ ?_
    | (simp only [Steady.mk_iff]; with_reducible refine SteadyF.of ?_ _ _)
    | split
    | dsimp only
    | with_reducible refine Steady.snd (by assumption) ?_
    | with_reducible refine Steady.third (by assumption) ?_

theorem State.landAll_steady {r s : State} (h : Steady r s) (n seq : Nat) : Steady r (s.landAll n seq) := by
  unfold State.landAll
  repeat' first
    | with_reducible assumption | with_reducible apply State.land_steady | split

theorem State.wakeLandings_steady {r s : State} (h : Steady r s) (row : Nat) : Steady r (s.wakeLandings row) := by
  unfold State.wakeLandings
  repeat' first
    | with_reducible assumption | with_reducible apply State.modLake_steady | with_reducible apply State.landAll_steady
    | with_reducible apply State.landOne_steady | with_reducible refine Steady.foldl _ (fun s x hs => ?_) _ _ ?_ | split
    | dsimp only

theorem State.springReturn_steady {r s : State} (h : Steady r s) (n seq i : Nat) (st : Status) (data : List Word) :
    Steady r (s.springReturn n seq i st data) := by
  unfold State.springReturn
  repeat' first
    | with_reducible assumption | with_reducible apply State.modDesc_steady | with_reducible apply State.badStatus_steady
    | with_reducible apply State.discard_steady | with_reducible apply State.landAll_steady | split

theorem State.ask_steady {r s : State} (h : Steady r s) (n seq i : Nat) : Steady r (s.ask n seq i) := by
  unfold State.ask
  repeat' first
    | with_reducible assumption | with_reducible apply State.modDesc_steady

theorem State.basinStore_steady {r s : State} (h : Steady r s) (sib : Bool) (off len : Nat) : Steady r (s.basinStore sib off len) := by
  unfold State.basinStore
  repeat' first
    | with_reducible assumption | with_reducible apply State.count_steady
    | (simp only [Steady.mk_iff]; with_reducible refine SteadyF.of ?_ _ _)

theorem State.springRemote_steady {r s : State} (h : Steady r s) (n : Nat) (d : Desc) (i : Nat) (op : Op) (a : BitVec 64) (words : Nat) (data : List Word) :
    Steady r (s.springRemote n d i op a words data) := by
  unfold State.springRemote
  repeat' first
    | with_reducible assumption | with_reducible apply State.fresh1_steady | with_reducible apply State.countSpring_steady
    | with_reducible apply State.emit_steady | (simp only [Steady.mk_iff]; with_reducible refine SteadyF.of ?_ _ _)

theorem State.springCanal_steady {r s : State} (h : Steady r s) (n : Nat) (d : Desc) (i : Nat) (op : Op) (a : BitVec 64) (words : Nat) (data : List Word) (global : Bool) :
    Steady r (s.springCanal n d i op a words data global) := by
  unfold State.springCanal
  repeat' first
    | with_reducible assumption | with_reducible apply State.countSpring_steady | with_reducible apply State.atLake_steady
    | with_reducible apply State.refuse_steady | split | dsimp only

theorem State.issuePiece_steady {r s : State} (h : Steady r s) (n seq : Nat) (p : Piece) : Steady r (State.issuePiece n seq s p) := by
  unfold State.issuePiece
  repeat' first
    | with_reducible assumption | with_reducible apply State.ask_steady | with_reducible apply State.emit_steady
    | with_reducible apply State.springRead_steady | with_reducible apply State.basinStore_steady
    | with_reducible apply State.countSpring_steady | with_reducible apply State.badStatus_steady
    | with_reducible apply State.springRemote_steady | with_reducible apply State.springCanal_steady | split | dsimp only
    | with_reducible refine Steady.snd (by assumption) ?_

theorem State.issue_steady {r s : State} (h : Steady r s) (n seq : Nat) : Steady r (s.issue n seq) := by
  unfold State.issue
  repeat' first
    | with_reducible assumption | with_reducible apply State.wakeIdle_steady | with_reducible apply State.modDesc_steady
    | with_reducible apply State.landAll_steady | with_reducible apply State.issuePiece_steady
    | with_reducible refine Steady.foldl _ (fun s x hs => ?_) _ _ ?_ | split

theorem State.issueWaiting_steady {r s : State} (h : Steady r s) (n : Nat) : Steady r (s.issueWaiting n) := by
  unfold State.issueWaiting
  repeat' first
    | with_reducible assumption | with_reducible apply State.issue_steady
    | with_reducible refine Steady.foldl _ (fun s x hs => ?_) _ _ ?_

theorem State.met_steady {r s : State} (h : Steady r s) (n seq : Nat) : Steady r (s.met n seq) := by
  unfold State.met
  repeat' first
    | with_reducible assumption | with_reducible apply State.modDesc_steady

theorem State.startSignal_steady {r s : State} (h : Steady r s) (n : Nat) (d : Desc) : Steady r (s.startSignal n d) := by
  unfold State.startSignal
  repeat' first
    | with_reducible assumption | with_reducible apply State.signal_steady | with_reducible apply State.met_steady
    | with_reducible apply State.descFault_steady | split

theorem State.startWait_steady {r s : State} (h : Steady r s) (n : Nat) (d : Desc) : Steady r (s.startWait n d) := by
  unfold State.startWait
  repeat' first
    | with_reducible assumption | with_reducible apply State.descFault_steady | with_reducible apply State.met_steady
    | with_reducible apply State.modCue_steady | with_reducible apply State.fresh1_steady
    | with_reducible apply State.modDesc_steady | split | dsimp only | with_reducible refine Steady.snd (by assumption) ?_

theorem State.testMark_steady {r s : State} (h : Steady r s) (n : Nat) (d : Desc) : Steady r (s.testMark n d) := by
  unfold State.testMark
  repeat' first
    | with_reducible assumption | with_reducible apply State.wakeIdle_steady | with_reducible apply State.modDesc_steady
    | with_reducible apply State.countSpring_steady | with_reducible apply State.place_steady
    | with_reducible apply State.checkRow_steady | with_reducible apply State.spend_steady
    | with_reducible apply State.badStatus_steady | with_reducible apply State.met_steady | split | dsimp only

theorem State.meetOrder_steady {r s : State} (h : Steady r s) (n : Nat) : Steady r (s.meetOrder n) := by
  unfold State.meetOrder
  repeat' first
    | with_reducible assumption | with_reducible apply State.modSpring_steady

theorem State.startMark_steady {r s : State} (h : Steady r s) (n : Nat) (d : Desc) : Steady r (s.startMark n d) := by
  unfold State.startMark
  repeat' first
    | with_reducible assumption | with_reducible apply State.descFault_steady | with_reducible apply State.met_steady
    | with_reducible apply State.meetOrder_steady | with_reducible apply State.testMark_steady | split

theorem State.takeUp_steady {r s : State} (h : Steady r s) : Steady r s.takeUp := by
  unfold State.takeUp
  repeat' first
    | with_reducible assumption | with_reducible apply State.meetOrder_steady | with_reducible apply State.issueWaiting_steady
    | with_reducible apply State.serveCues_steady | with_reducible refine Steady.foldl _ (fun s x hs => ?_) _ _ ?_

theorem State.resumeSpring_steady {r s : State} (h : Steady r s) (n : Nat) : Steady r (s.resumeSpring n) := by
  unfold State.resumeSpring
  repeat' first
    | with_reducible assumption | with_reducible apply State.landAll_steady | with_reducible apply State.issueWaiting_steady
    | with_reducible apply State.testMark_steady | with_reducible refine Steady.foldl _ (fun s x hs => ?_) _ _ ?_

theorem State.springBack_steady {r s : State} (h : Steady r s) (n seq i : Nat) (st : Status) (data : List Word) :
    Steady r (s.springBack n seq i st data) := by
  unfold State.springBack
  repeat' first
    | with_reducible assumption | with_reducible apply State.takeUp_steady | with_reducible apply State.springReturn_steady

theorem startDesc_steady {r s : State} (h : Steady r s) (kind n : Nat) : Steady r (startDesc kind n s) := by
  unfold startDesc
  repeat' first
    | with_reducible assumption | with_reducible apply State.countSpring_steady | with_reducible apply State.modDesc_steady
    | with_reducible apply State.meetOrder_steady | with_reducible apply State.modSpring_steady
    | with_reducible apply State.startSignal_steady | with_reducible apply State.startWait_steady
    | with_reducible apply State.startMark_steady | with_reducible apply State.issue_steady | split

theorem State.complete_steady {r s : State} (h : Steady r s) (n : Nat) (d : Desc) : Steady r (s.complete n d) := by
  unfold State.complete
  repeat' first
    | with_reducible assumption | with_reducible apply State.slotsFull_steady | with_reducible apply State.descStep_steady
    | with_reducible apply State.countSpring_steady | with_reducible apply State.modDesc_steady
    | with_reducible apply State.modSpring_steady | with_reducible apply State.takeUp_steady
    | with_reducible apply State.reach_steady | with_reducible apply State.signal_steady
    | with_reducible apply State.descFault_steady | split | dsimp only

theorem State.completeStep_steady {r s : State} (h : Steady r s) (n seq : Nat) : Steady r (s.completeStep n seq) := by
  unfold State.completeStep
  repeat' first
    | with_reducible assumption | with_reducible apply State.landAll_steady | with_reducible apply State.modLake_steady
    | with_reducible apply State.complete_steady | split | dsimp only

theorem State.checkDesc_steady {r s : State} (h : Steady r s) (n : Nat) (d : Desc) : Steady r (State.checkDesc n s d) := by
  unfold State.checkDesc
  repeat' first
    | with_reducible assumption | with_reducible apply State.descFault_steady | split

theorem State.readSlot_steady {r s : State} (h : Steady r s) (n : Nat) (y : Slot) : Steady r (s.readSlot n y) := by
  unfold State.readSlot
  repeat' first
    | with_reducible assumption | with_reducible apply State.modSpring_steady | with_reducible apply State.countSpring_steady
    | with_reducible apply State.log_steady | with_reducible apply State.springRead_steady
    | with_reducible apply State.fault_steady | with_reducible apply State.checkDesc_steady
    | with_reducible refine Steady.foldl _ (fun s x hs => ?_) _ _ ?_ | split | dsimp only

theorem State.releaseSlot_steady {r s : State} (h : Steady r s) (n : Nat) : Steady r (s.releaseSlot n) := by
  unfold State.releaseSlot
  repeat' first
    | with_reducible assumption | with_reducible apply State.wakeIdle_steady | with_reducible apply State.pondCycle_steady
    | with_reducible apply State.countSpring_steady | with_reducible apply State.setSlate_steady
    | with_reducible apply State.settle_steady | with_reducible apply State.modReel_steady
    | with_reducible apply State.modSpring_steady | split | dsimp only

theorem sprCutSet_steady {r s : State} (h : Steady r s) (c : Ctl) (n : Nat) (v : BitVec 64) : Steady r (sprCutSet c n v s) := by
  unfold sprCutSet
  repeat' first
    | with_reducible assumption | refine fun (s : State) (hs : Steady r s) => ?_ | with_reducible apply State.ownerOnly_steady
    | with_reducible apply State.unless0_steady | with_reducible apply State.discard_steady
    | with_reducible apply State.countSpring_steady | with_reducible apply State.modSpring_steady
    | with_reducible apply State.done_steady | with_reducible apply State.takeUp_steady

theorem State.cutEnd_steady {r s : State} (h : Steady r s) (n : Nat) : Steady r (s.cutEnd n) := by
  unfold State.cutEnd
  repeat' first
    | with_reducible assumption | with_reducible apply State.modLake_steady | with_reducible apply State.descStep_steady
    | with_reducible apply State.modSpring_steady | with_reducible apply State.takeUp_steady | split | dsimp only

theorem State.takeWaiting_steady {r s : State} (h : Steady r s) (n : Nat) : Steady r (s.takeWaiting n) := by
  unfold State.takeWaiting
  repeat' first
    | with_reducible assumption | with_reducible apply State.modLake_steady | with_reducible apply State.takeStep_steady
    | with_reducible apply State.completeStep_steady | with_reducible apply State.cutEnd_steady
    | with_reducible apply State.takeUp_steady | with_reducible apply State.abortEnd_steady | split | dsimp only

theorem State.bindSlots_steady {r s : State} (h : Steady r s) (n : Nat) (w : Who) : Steady r (s.bindSlots n w) := by
  unfold State.bindSlots
  repeat' first
    | with_reducible assumption | with_reducible apply State.slotFullBy_steady
    | with_reducible refine Steady.foldl _ (fun s x hs => ?_) _ _ ?_ | split | dsimp only

theorem sprReelSet_steady {r s : State} (h : Steady r s) (c : Ctl) (n : Nat) (v : BitVec 64) : Steady r (sprReelSet c n v s) := by
  unfold sprReelSet
  repeat' first
    | with_reducible assumption | refine fun (s : State) (hs : Steady r s) => ?_ | with_reducible apply State.ownerOnly_steady
    | with_reducible apply State.done_steady | with_reducible apply State.unless_steady
    | with_reducible apply State.modSpring_steady | with_reducible apply State.bindSlots_steady
    | with_reducible apply State.deny_steady | split | dsimp only

theorem sprCtlSet_steady {r s : State} (h : Steady r s) (c : Ctl) (n : Nat) (v : BitVec 64) : Steady r (sprCtlSet c n v s) := by
  unfold sprCtlSet
  repeat' first
    | with_reducible assumption | refine fun (s : State) (hs : Steady r s) => ?_ | with_reducible apply State.ownerOnly_steady
    | with_reducible apply State.modSpring_steady | with_reducible apply State.done_steady

theorem taskAbortSet_steady {r s : State} (h : Steady r s) (c : Ctl) (v : BitVec 64) : Steady r (taskAbortSet c v s) := by
  unfold taskAbortSet
  repeat' first
    | with_reducible assumption | refine fun (s : State) (hs : Steady r s) => ?_ | with_reducible apply State.privOnly_steady
    | with_reducible apply State.unless_steady | with_reducible apply State.elapse_steady | with_reducible apply State.done_steady
    | with_reducible apply State.takeUp_steady | with_reducible apply State.startAbort_steady
    | (simp only [Steady.mk_iff]; with_reducible refine SteadyF.of ?_ _ _)

theorem execNop_steady {r s : State} (h : Steady r s) (n : Fin 24) : Keeps r (execNop n s) := by
  unfold execNop
  repeat' first
    | with_reducible assumption | with_reducible apply State.takeUp_steady | with_reducible apply startDesc_steady
    | with_reducible apply Keeps.next

theorem execLoad_steady {r s : State} (h : Steady r s) (n : Fin 24) : Keeps r (execLoad n s) := by
  unfold execLoad
  repeat' first
    | with_reducible assumption | with_reducible apply State.takeUp_steady | with_reducible apply startDesc_steady
    | with_reducible apply Keeps.next

theorem execStore_steady {r s : State} (h : Steady r s) (n : Fin 24) : Keeps r (execStore n s) := by
  unfold execStore
  repeat' first
    | with_reducible assumption | with_reducible apply State.takeUp_steady | with_reducible apply startDesc_steady
    | with_reducible apply Keeps.next

theorem execPull_steady {r s : State} (h : Steady r s) (n : Fin 24) : Keeps r (execPull n s) := by
  unfold execPull
  repeat' first
    | with_reducible assumption | with_reducible apply State.takeUp_steady | with_reducible apply startDesc_steady
    | with_reducible apply Keeps.next

theorem execPush_steady {r s : State} (h : Steady r s) (n : Fin 24) : Keeps r (execPush n s) := by
  unfold execPush
  repeat' first
    | with_reducible assumption | with_reducible apply State.takeUp_steady | with_reducible apply startDesc_steady
    | with_reducible apply Keeps.next

theorem execCopy_steady {r s : State} (h : Steady r s) (n : Fin 24) : Keeps r (execCopy n s) := by
  unfold execCopy
  repeat' first
    | with_reducible assumption | with_reducible apply State.takeUp_steady | with_reducible apply startDesc_steady
    | with_reducible apply Keeps.next

theorem execFill_steady {r s : State} (h : Steady r s) (n : Fin 24) : Keeps r (execFill n s) := by
  unfold execFill
  repeat' first
    | with_reducible assumption | with_reducible apply State.takeUp_steady | with_reducible apply startDesc_steady
    | with_reducible apply Keeps.next

theorem execSignalCue_steady {r s : State} (h : Steady r s) (n : Fin 24) : Keeps r (execSignalCue n s) := by
  unfold execSignalCue
  repeat' first
    | with_reducible assumption | with_reducible apply State.takeUp_steady | with_reducible apply startDesc_steady
    | with_reducible apply Keeps.next

theorem execWaitCue_steady {r s : State} (h : Steady r s) (n : Fin 24) : Keeps r (execWaitCue n s) := by
  unfold execWaitCue
  repeat' first
    | with_reducible assumption | with_reducible apply State.takeUp_steady | with_reducible apply startDesc_steady
    | with_reducible apply Keeps.next

theorem execMark_steady {r s : State} (h : Steady r s) (n : Fin 24) : Keeps r (execMark n s) := by
  unfold execMark
  repeat' first
    | with_reducible assumption | with_reducible apply State.takeUp_steady | with_reducible apply startDesc_steady
    | with_reducible apply Keeps.next

theorem execMarkRetest_steady {r s : State} (h : Steady r s) (n : Fin 24) : Keeps r (execMarkRetest n s) := by
  unfold execMarkRetest
  repeat' first
    | with_reducible assumption | with_reducible apply State.testMark_steady | with_reducible apply Keeps.next
    | with_reducible refine Steady.foldl _ (fun s x hs => ?_) _ _ ?_

theorem execSlotRead_steady {r s : State} (h : Steady r s) (n : Fin 24) : Keeps r (execSlotRead n s) := by
  unfold execSlotRead
  repeat' first
    | with_reducible assumption | with_reducible apply State.wakeIdle_steady | with_reducible apply State.takeUp_steady
    | with_reducible apply State.readSlot_steady | with_reducible apply Keeps.next | split | dsimp only

theorem execStackReadReturn_steady {r s : State} (h : Steady r s) (n : Fin 24) (seq piece : Nat) (st : Status) (d : List Word) :
    Keeps r (execStackReadReturn n seq piece st d s) := by
  unfold execStackReadReturn
  repeat' first
    | with_reducible assumption | with_reducible apply State.springBack_steady | with_reducible apply State.countSpring_steady
    | with_reducible apply Keeps.next | split

theorem execStackWriteAck_steady {r s : State} (h : Steady r s) (n : Fin 24) (seq piece : Nat) (st : Status) :
    Keeps r (execStackWriteAck n seq piece st s) := by
  unfold execStackWriteAck
  repeat' first
    | with_reducible assumption | with_reducible apply State.springBack_steady | with_reducible apply Keeps.next | split

theorem execTaskAbortComplete_steady {r s : State} (h : Steady r s) : Keeps r (execTaskAbortComplete s) := by
  unfold execTaskAbortComplete
  repeat' first
    | with_reducible assumption | with_reducible apply State.takeUp_steady | with_reducible apply State.abortEnd_steady
    | with_reducible apply Keeps.next | split

theorem execDescriptorComplete_steady {r s : State} (h : Steady r s) (n : Fin 24) (seq : Nat) :
    Keeps r (execDescriptorComplete n seq s) := by
  unfold execDescriptorComplete
  repeat' first
    | with_reducible assumption | with_reducible apply State.completeStep_steady | with_reducible apply Keeps.next

theorem execSlotRelease_steady {r s : State} (h : Steady r s) (n : Fin 24) : Keeps r (execSlotRelease n s) := by
  unfold execSlotRelease
  repeat' first
    | with_reducible assumption | with_reducible apply State.releaseSlot_steady | with_reducible apply Keeps.next | split

theorem execCutComplete_steady {r s : State} (h : Steady r s) (n : Fin 24) : Keeps r (execCutComplete n s) := by
  unfold execCutComplete
  repeat' first
    | with_reducible assumption | with_reducible apply State.cutEnd_steady | with_reducible apply Keeps.next

theorem execRangeStepEnter_steady {r s : State} (h : Steady r s) (n : Fin 24) : Keeps r (execRangeStepEnter n s) := by
  unfold execRangeStepEnter
  repeat' first
    | with_reducible assumption | with_reducible apply State.takeWaiting_steady | with_reducible apply Keeps.next

theorem State.wakeLake_steady {r s : State} (h : Steady r s) (n : Nat) : Steady r (s.wakeLake n) := by
  unfold State.wakeLake
  repeat' first
    | with_reducible assumption | with_reducible apply State.wakeLandings_steady | with_reducible apply State.resumeSpring_steady
    | with_reducible apply State.wakeThose_steady | with_reducible refine Steady.foldl _ (fun s x hs => ?_) _ _ ?_

theorem execWaiterWake_steady {r s : State} (h : Steady r s) (row : Nat) : Keeps r (execWaiterWake row s) := by
  unfold execWaiterWake
  repeat' first
    | with_reducible assumption | with_reducible apply State.wakeIdle_steady | with_reducible apply State.takeUp_steady
    | with_reducible apply State.wakeRow_steady | with_reducible apply State.wakeLandings_steady | with_reducible apply Keeps.next
    | split | dsimp only

theorem execTagSweep_steady {r s : State} (h : Steady r s) (row : Nat) : Keeps r (execTagSweep row s) := by
  unfold execTagSweep
  repeat' first
    | with_reducible assumption | with_reducible apply State.wakeIdle_steady | with_reducible apply State.settle_steady
    | with_reducible apply State.pondCycle_steady | with_reducible apply State.countLake_steady | with_reducible apply Keeps.next
    | split | dsimp only

end Sys2Proof.Machine
end

