-- ==== Sys2Proof/Laws/SteadyBasin.lean ====
section
/-!
SUPPORT. What the operations of `Basin` keep (`Steady`), one lemma per operation.
-/
namespace Sys2Proof.Machine

-- One theorem after another: elaborated side by side, these theorems would each hold a thread and its stack.
set_option Elab.async false
set_option linter.all false

theorem State.countBasin_steady {r s : State} (h : Steady r s) (ev label : Nat) : Steady r (s.countBasin ev label) := by
  unfold State.countBasin
  repeat' first
    | with_reducible assumption | with_reducible apply State.count_steady

theorem State.walk_steady {r s : State} (h : Steady r s) : Steady r s.walk := by
  unfold State.walk
  repeat' first
    | with_reducible assumption | (simp only [Steady.mk_iff]; with_reducible refine SteadyF.of ?_ _ _) | split | dsimp only

theorem State.basinMiss_steady {r s : State} (h : Steady r s) (n : Nat) (d : Desc) (p : Piece) (sib : Bool) (line set : Nat) :
    Steady r (s.basinMiss n d p sib line set) := by
  unfold State.basinMiss
  repeat' first
    | with_reducible assumption | with_reducible apply State.countBasin_steady | with_reducible apply State.emit_steady
    | with_reducible apply State.modDesc_steady | (simp only [Steady.mk_iff]; with_reducible refine SteadyF.of ?_ _ _) | split
    | dsimp only

theorem State.sliceTurn_steady {r s : State} (h : Steady r s) (label : Nat) (sib : Bool) (line : Nat) :
    Steady r (s.sliceTurn label sib line) := by
  unfold State.sliceTurn
  repeat' first
    | with_reducible assumption | with_reducible apply State.elapse_steady | with_reducible apply State.countBasin_steady
    | (simp only [Steady.mk_iff]; with_reducible refine SteadyF.of ?_ _ _) | split | dsimp only

theorem State.lineFound_steady {r s : State} (h : Steady r s) (n : Nat) (d : Desc) (p : Piece) (set w : Nat) (l : Line) :
    Steady r (s.lineFound n d p set w l) := by
  unfold State.lineFound
  repeat' first
    | with_reducible assumption | with_reducible apply State.log_steady | with_reducible apply State.countBasin_steady
    | with_reducible apply State.basinMiss_steady | with_reducible apply State.correction_steady
    | with_reducible apply State.springBack_steady | (simp only [Steady.mk_iff]; with_reducible refine SteadyF.of ?_ _ _) | split

theorem State.lookup_steady {r s : State} (h : Steady r s) (n : Nat) (d : Desc) (p : Piece) (struck : List (Fin 32 × Bool)) :
    Steady r (s.lookup n d p struck) := by
  unfold State.lookup
  repeat' first
    | with_reducible assumption | with_reducible apply State.walk_steady | with_reducible apply State.sliceTurn_steady
    | with_reducible apply State.lineFound_steady | with_reducible apply State.basinMiss_steady | split | dsimp only

theorem State.fillGive_steady {r s : State} (h : Steady r s) (st : Status) (data : List Word) (x3 : Nat × Nat × Nat) :
    Steady r (State.fillGive st data s x3) := by
  unfold State.fillGive
  repeat' first
    | with_reducible assumption | with_reducible apply State.springBack_steady | with_reducible apply State.countSpring_steady
    | split

theorem State.fillReturn_steady {r s : State} (h : Steady r s) (f : Fill) (st : Status) (data : List Word) :
    Steady r (s.fillReturn f st data) := by
  unfold State.fillReturn
  repeat' first
    | with_reducible assumption | with_reducible apply State.walk_steady | with_reducible apply State.count_steady
    | with_reducible apply State.fillGive_steady | with_reducible refine Steady.foldl _ (fun s x hs => ?_) _ _ ?_
    | (simp only [Steady.mk_iff]; with_reducible refine SteadyF.of ?_ _ _) | split

theorem basinInvSet_steady {r s : State} (h : Steady r s) (c : Ctl) (v : BitVec 64) : Steady r (basinInvSet c v s) := by
  unfold basinInvSet
  repeat' first
    | with_reducible assumption | refine fun (s : State) (hs : Steady r s) => ?_ | with_reducible apply State.privOnly_steady
    | with_reducible apply State.unless_steady | with_reducible apply State.done_steady
    | (simp only [Steady.mk_iff]; with_reducible refine SteadyF.of ?_ _ _)

theorem basinLenSet_steady {r s : State} (h : Steady r s) (c : Ctl) (v : BitVec 64) : Steady r (basinLenSet c v s) := by
  unfold basinLenSet
  repeat' first
    | with_reducible assumption | refine fun (s : State) (hs : Steady r s) => ?_ | with_reducible apply State.privOnly_steady
    | with_reducible apply State.done_steady | (simp only [Steady.mk_iff]; with_reducible refine SteadyF.of ?_ _ _)

theorem State.deepTimer_steady {r s : State} (h : Steady r s) : Steady r s.deepTimer := by
  unfold State.deepTimer
  repeat' first
    | with_reducible assumption | (simp only [Steady.mk_iff]; with_reducible refine SteadyF.of ?_ _ _) | split | dsimp only

theorem execBasinLookup_steady {r s : State} (h : Steady r s) (n : Fin 24) (seq piece : Nat) (struck : List (Fin 32 × Bool)) :
    Keeps r (execBasinLookup n seq piece struck s) := by
  unfold execBasinLookup
  repeat' first
    | with_reducible assumption | with_reducible apply State.lookup_steady | with_reducible apply Keeps.next | split | dsimp only

theorem execBasinFillReturn_steady {r s : State} (h : Steady r s) (sib : Bool) (line : Nat) (st : Status) (d : List Word) :
    Keeps r (execBasinFillReturn sib line st d s) := by
  unfold execBasinFillReturn
  repeat' first
    | with_reducible assumption | with_reducible apply State.deepTimer_steady | with_reducible apply State.fillReturn_steady
    | with_reducible apply Keeps.next | split

theorem execBasinInvDone_steady {r s : State} (h : Steady r s) : Keeps r (execBasinInvDone s) := by
  unfold execBasinInvDone
  repeat' first
    | with_reducible assumption | with_reducible apply State.reach_steady | with_reducible apply State.deepTimer_steady
    | with_reducible apply Keeps.next | (simp only [Steady.mk_iff]; with_reducible refine SteadyF.of ?_ _ _) | split

end Sys2Proof.Machine
end

