-- ==== Sys2Proof/Laws/SteadyWindows.lean ====
section
/-!
SUPPORT. What the operations of `Windows` keep (`Steady`), one lemma per operation.
-/
namespace Sys2Proof.Machine

-- One theorem after another: elaborated side by side, these theorems would each hold a thread and its stack.
set_option Elab.async false
set_option linter.all false

theorem State.winOnly_steady {r s : State} (h : Steady r s) (c : Ctl) (w : Nat) (go : State → State) (hgo : ∀ s, Steady r s → Steady r (go s)) :
    Steady r (s.winOnly c w go) := by
  unfold State.winOnly
  repeat' first
    | with_reducible assumption | with_reducible apply State.nack_steady | with_reducible apply hgo | split

theorem winOwnerSet_steady {r s : State} (h : Steady r s) (c : Ctl) (w : Nat) (v : BitVec 64) : Steady r (winOwnerSet c w v s) := by
  unfold winOwnerSet
  repeat' first
    | with_reducible assumption | refine fun (s : State) (hs : Steady r s) => ?_ | with_reducible apply State.nack_steady
    | with_reducible apply State.privOnly_steady | with_reducible apply State.unless0_steady
    | with_reducible apply State.done_steady | with_reducible apply State.modWin_steady | split

theorem winConfigSet_steady {r s : State} (h : Steady r s) (c : Ctl) (w which : Nat) (v : BitVec 64) :
    Steady r (winConfigSet c w which v s) := by
  unfold winConfigSet
  repeat' first
    | with_reducible assumption | refine fun (s : State) (hs : Steady r s) => ?_ | with_reducible apply State.winOnly_steady
    | with_reducible apply State.unless0_steady | with_reducible apply State.modWin_steady
    | with_reducible apply State.done_steady

theorem winOpenAt_steady {r s : State} (h : Steady r s) (c : Ctl) (w : Nat) : Steady r (winOpenAt c w s) := by
  unfold winOpenAt
  repeat' first
    | with_reducible assumption | refine fun (s : State) (hs : Steady r s) => ?_ | with_reducible apply State.nack_steady
    | with_reducible apply State.unless_steady | with_reducible apply State.done_steady | with_reducible apply State.modWin_steady
    | split | dsimp only

theorem winCloseAt_steady {r s : State} (h : Steady r s) (c : Ctl) (w : Nat) : Steady r (winCloseAt c w s) := by
  unfold winCloseAt
  repeat' first
    | with_reducible assumption | with_reducible apply State.deny_steady | with_reducible apply State.modWin_steady
    | with_reducible apply State.done_steady | split

theorem winReleaseAt_steady {r s : State} (h : Steady r s) (c : Ctl) (w : Nat) : Steady r (winReleaseAt c w s) := by
  unfold winReleaseAt
  repeat' first
    | with_reducible assumption | with_reducible apply State.done_steady | with_reducible apply State.modWin_steady
    | with_reducible apply State.deny_steady | split

theorem winCtlSet_steady {r s : State} (h : Steady r s) (c : Ctl) (w : Nat) (v : BitVec 64) : Steady r (winCtlSet c w v s) := by
  unfold winCtlSet
  repeat' first
    | with_reducible assumption | refine fun (s : State) (hs : Steady r s) => ?_ | with_reducible apply State.winOnly_steady
    | with_reducible apply State.done_steady | with_reducible apply State.modWin_steady | with_reducible apply winOpenAt_steady
    | with_reducible apply winCloseAt_steady | with_reducible apply winReleaseAt_steady | split

theorem State.forceClose_steady {r s : State} (h : Steady r s) (x1 : Nat) : Steady r (s.forceClose x1) := by
  unfold State.forceClose
  ·
    refine h.tabs rfl rfl rfl rfl fun c => ?_
    simp only [State.canonical, Bool.and_eq_true] at c ⊢
    simp only [c, Tab.wf_mapTab, and_self]

theorem State.winDone_steady {r s : State} (h : Steady r s) (w : Nat) (st : Status) : Steady r (s.winDone w st) := by
  unfold State.winDone
  repeat' first
    | with_reducible assumption | with_reducible apply State.reply_steady | with_reducible apply State.modWin_steady
    | with_reducible refine Steady.foldl _ (fun s x hs => ?_) _ _ ?_

theorem execWinClosed_steady {r s : State} (h : Steady r s) (w : Fin 256) : Keeps r (execWinClosed w s) := by
  unfold execWinClosed
  repeat' first
    | with_reducible assumption | with_reducible apply State.winDone_steady | with_reducible apply State.reach_steady
    | with_reducible apply Keeps.next | split | dsimp only

end Sys2Proof.Machine
end

