-- ==== Sys2Proof/Laws/SteadyFences.lean ====
section
/-!
SUPPORT. What the operations of `Fences` keep (`Steady`), one lemma per operation.
-/
namespace Sys2Proof.Machine

-- One theorem after another: elaborated side by side, these theorems would each hold a thread and its stack.
set_option Elab.async false
set_option linter.all false

theorem execFence_steady {r s : State} (h : Steady r s) (src : Src) (scope : Fin 4) : Keeps r (execFence src scope s) := by
  unfold execFence
  repeat' first
    | with_reducible assumption | with_reducible apply State.emit_steady | with_reducible apply State.reject_steady
    | with_reducible apply State.fresh1_steady | with_reducible apply Keeps.next
    | (simp only [Steady.mk_iff]; with_reducible refine SteadyF.of ?_ _ _) | split | dsimp only
    | with_reducible refine Steady.snd (by assumption) ?_

theorem execFenceComplete_steady {r s : State} (h : Steady r s) (id : Nat) : Keeps r (execFenceComplete id s) := by
  unfold execFenceComplete
  repeat' first
    | with_reducible assumption | with_reducible apply State.emit_steady | with_reducible apply Keeps.next
    | (simp only [Steady.mk_iff]; with_reducible refine SteadyF.of ?_ _ _) | split

theorem kernelEndSet_steady {r s : State} (h : Steady r s) (c : Ctl) (v : BitVec 64) : Steady r (kernelEndSet c v s) := by
  unfold kernelEndSet
  repeat' first
    | with_reducible assumption | refine fun (s : State) (hs : Steady r s) => ?_ | with_reducible apply State.reach_steady
    | with_reducible apply State.privOnly_steady | with_reducible apply State.unless0_steady
    | with_reducible apply State.done_steady | (simp only [Steady.mk_iff]; with_reducible refine SteadyF.of ?_ _ _) | split

theorem execKernelBoundaryDone_steady {r s : State} (h : Steady r s) : Keeps r (execKernelBoundaryDone s) := by
  unfold execKernelBoundaryDone
  repeat' first
    | with_reducible assumption | with_reducible apply State.reach_steady | with_reducible apply Keeps.next
    | (simp only [Steady.mk_iff]; with_reducible refine SteadyF.of ?_ _ _) | split

end Sys2Proof.Machine
end

