-- ==== Sys2Proof/Laws/SteadyPower.lean ====
section
/-!
SUPPORT. What the operations of `Power` keep (`Steady`), one lemma per operation.
-/
namespace Sys2Proof.Machine

-- One theorem after another: elaborated side by side, these theorems would each hold a thread and its stack.
set_option Elab.async false
set_option linter.all false

theorem State.levelEvent_steady {r s : State} (h : Steady r s) : Steady r s.levelEvent := by
  unfold State.levelEvent
  repeat' first
    | with_reducible assumption | with_reducible apply State.event_steady

theorem levelReqSet_steady {r s : State} (h : Steady r s) (c : Ctl) (v : BitVec 64) : Steady r (levelReqSet c v s) := by
  unfold levelReqSet
  repeat' first
    | with_reducible assumption | refine fun (s : State) (hs : Steady r s) => ?_ | with_reducible apply State.privOnly_steady
    | with_reducible apply State.unless_steady | with_reducible apply State.done_steady
    | (simp only [Steady.mk_iff]; with_reducible refine SteadyF.of ?_ _ _)

theorem execLevelChangeStart_steady {r s : State} (h : Steady r s) : Keeps r (execLevelChangeStart s) := by
  unfold execLevelChangeStart
  repeat' first
    | with_reducible assumption | with_reducible apply Keeps.next
    | (simp only [Steady.mk_iff]; with_reducible refine SteadyF.of ?_ _ _) | split | dsimp only

theorem execVoltageStep_steady {r s : State} (h : Steady r s) : Keeps r (execVoltageStep s) := by
  unfold execVoltageStep
  repeat' first
    | with_reducible assumption | with_reducible apply State.reachNs_steady | with_reducible apply State.emit_steady
    | with_reducible apply State.levelEvent_steady | with_reducible apply Keeps.next
    | (simp only [Steady.mk_iff]; with_reducible refine SteadyF.of ?_ _ _) | split

theorem execDrainComplete_steady {r s : State} (h : Steady r s) : Keeps r (execDrainComplete s) := by
  unfold execDrainComplete
  repeat' first
    | with_reducible assumption | with_reducible apply State.reach_steady | with_reducible apply Keeps.next
    | (simp only [Steady.mk_iff]; with_reducible refine SteadyF.of ?_ _ _) | split

theorem State.proceedAll_steady {r s : State} (h : Steady r s) (x1 : List Held) : Steady r (s.proceedAll x1) := by
  unfold State.proceedAll
  repeat' first
    | with_reducible assumption | with_reducible apply takeAt_steady | with_reducible apply State.proceed_steady
    | with_reducible refine Steady.foldl _ (fun s x hs => ?_) _ _ ?_ | split

theorem State.dropLandings_steady {r s : State} (h : Steady r s) (n : Nat) (es : List Waiter) : Steady r (s.dropLandings n es) := by
  unfold State.dropLandings
  repeat' first
    | with_reducible assumption | with_reducible apply State.badStatus_steady
    | with_reducible refine Steady.foldl _ (fun s x hs => ?_) _ _ ?_ | split

theorem State.drainLake_steady {r s : State} (h : Steady r s) (n : Nat) (toOff back : Bool) : Steady r (s.drainLake n toOff back) := by
  unfold State.drainLake
  repeat' first
    | with_reducible assumption | with_reducible apply State.proceedAll_steady | with_reducible apply State.modLp_steady
    | with_reducible apply State.releaseWaiters_steady | with_reducible apply State.forceClose_steady
    | with_reducible apply State.endTake_steady | with_reducible apply State.takeUp_steady
    | with_reducible apply State.dropLandings_steady | with_reducible refine Steady.foldl _ (fun s x hs => ?_) _ _ ?_ | split

theorem State.goIdle_steady {r s : State} (h : Steady r s) (n : Nat) : Steady r (s.goIdle n) := by
  unfold State.goIdle
  repeat' first
    | with_reducible assumption | with_reducible apply State.modLp_steady | split

theorem State.moveLake_steady {r s : State} (h : Steady r s) (n x2 : Nat) : Steady r (s.moveLake n x2) := by
  unfold State.moveLake
  repeat' first
    | with_reducible assumption | with_reducible apply State.goIdle_steady | with_reducible apply State.wakeIdle_steady
    | with_reducible apply State.drainLake_steady | with_reducible apply State.modLp_steady
    | with_reducible apply State.wakeDown_steady | split

theorem lakePowerSet_steady {r s : State} (h : Steady r s) (c : Ctl) (n : Nat) (v : BitVec 64) : Steady r (lakePowerSet c n v s) := by
  unfold lakePowerSet
  repeat' first
    | with_reducible assumption | refine fun (s : State) (hs : Steady r s) => ?_ | with_reducible apply State.privOnly_steady
    | with_reducible apply State.unless_steady | with_reducible apply State.modLp_steady | with_reducible apply State.done_steady
    | with_reducible apply State.moveLake_steady | split

theorem execLakeDrainComplete_steady {r s : State} (h : Steady r s) (n : Fin 24) : Keeps r (execLakeDrainComplete n s) := by
  unfold execLakeDrainComplete
  repeat' first
    | with_reducible assumption | with_reducible apply State.reach_steady | with_reducible apply State.deepTimer_steady
    | with_reducible apply State.modLp_steady | with_reducible apply Keeps.next | split

theorem execLakeEntryEnd_steady {r s : State} (h : Steady r s) (n : Fin 24) : Keeps r (execLakeEntryEnd n s) := by
  unfold execLakeEntryEnd
  repeat' first
    | with_reducible assumption | with_reducible apply State.reachNs_steady | with_reducible apply State.modLp_steady
    | with_reducible apply State.wakeDown_steady | with_reducible apply State.reach_steady | with_reducible apply Keeps.next
    | split

theorem execAutoIdle_steady {r s : State} (h : Steady r s) (n : Fin 24) : Keeps r (execAutoIdle n s) := by
  unfold execAutoIdle
  repeat' first
    | with_reducible assumption | with_reducible apply State.goIdle_steady | with_reducible apply State.reach_steady
    | with_reducible apply Keeps.next | split | dsimp only

theorem execIdleWake_steady {r s : State} (h : Steady r s) (n : Fin 24) : Keeps r (execIdleWake n s) := by
  unfold execIdleWake
  repeat' first
    | with_reducible assumption | with_reducible apply State.wakeIdle_steady | with_reducible apply Keeps.next

theorem execIdleWakeEnd_steady {r s : State} (h : Steady r s) (n : Fin 24) : Keeps r (execIdleWakeEnd n s) := by
  unfold execIdleWakeEnd
  repeat' first
    | with_reducible assumption | with_reducible apply State.reach_steady | with_reducible apply State.modLp_steady
    | with_reducible apply State.modLake_steady | with_reducible apply State.takeUp_steady
    | with_reducible apply State.wakeLake_steady | with_reducible apply State.proceedAll_steady | with_reducible apply Keeps.next
    | (simp only [Steady.mk_iff]; with_reducible refine SteadyF.of ?_ _ _) | split | dsimp only

theorem execLakeWake_steady {r s : State} (h : Steady r s) (n : Fin 24) : Keeps r (execLakeWake n s) := by
  unfold execLakeWake
  repeat' first
    | with_reducible assumption | with_reducible apply State.wakeDown_steady | with_reducible apply State.modLp_steady
    | with_reducible apply Keeps.next | split

theorem pwrWakeSet_steady {r s : State} (h : Steady r s) (c : Ctl) (v : BitVec 64) : Steady r (pwrWakeSet c v s) := by
  unfold pwrWakeSet
  repeat' first
    | with_reducible assumption | refine fun (s : State) (hs : Steady r s) => ?_ | with_reducible apply State.nack_steady
    | with_reducible apply State.unless0_steady | with_reducible apply State.done_steady
    | with_reducible apply State.wakeIdle_steady | with_reducible apply State.wakeDown_steady
    | with_reducible apply State.modLp_steady | with_reducible refine Steady.foldl _ (fun s x hs => ?_) _ _ ?_ | split
    | dsimp only

theorem execMonitorUpdate_steady {r s : State} (h : Steady r s) (m : Fin 4) (mv cur pwr : BitVec 16) :
    Keeps r (execMonitorUpdate m mv cur pwr s) := by
  unfold execMonitorUpdate
  repeat' first
    | with_reducible assumption | with_reducible apply Keeps.next
    | (simp only [Steady.mk_iff]; with_reducible refine SteadyF.of ?_ _ _) | split

theorem ftimeSet_steady {r s : State} (h : Steady r s) (c : Ctl) (v : BitVec 64) : Steady r (ftimeSet c v s) := by
  unfold ftimeSet
  repeat' first
    | with_reducible assumption | refine fun (s : State) (hs : Steady r s) => ?_ | with_reducible apply State.privOnly_steady
    | with_reducible apply State.done_steady | (simp only [Steady.mk_iff]; with_reducible refine SteadyF.of ?_ _ _)

end Sys2Proof.Machine
end

