-- ==== Sys2Proof/Laws/SteadyMarch.lean ====
section
/-!
SUPPORT. What the operations of `March` keep (`Steady`), one lemma per operation.
-/
namespace Sys2Proof.Machine

-- One theorem after another: elaborated side by side, these theorems would each hold a thread and its stack.
set_option Elab.async false
set_option linter.all false

theorem State.initRows_steady {r s : State} (h : Steady r s) (n : Nat) : Steady r (s.initRows n) := by
  unfold State.initRows
  repeat' first
    | with_reducible assumption | with_reducible apply State.modLake_steady | with_reducible apply State.clearTags_steady
    | with_reducible apply State.zeroRows_steady

theorem State.startMarch_steady {r s : State} (h : Steady r s) (n : Nat) (preserving cold : Bool) (bg : BitVec 4) :
    Steady r (s.startMarch n preserving cold bg) := by
  unfold State.startMarch
  repeat' first
    | with_reducible assumption | with_reducible apply State.modMte_steady | with_reducible apply State.proceedAll_steady
    | with_reducible apply State.modLp_steady | split

theorem marchSet_steady {r s : State} (h : Steady r s) (c : Ctl) (n : Nat) (v : BitVec 64) : Steady r (marchSet c n v s) := by
  unfold marchSet
  repeat' first
    | with_reducible assumption | refine fun (s : State) (hs : Steady r s) => ?_ | with_reducible apply State.privOnly_steady
    | with_reducible apply State.unless_steady | with_reducible apply State.done_steady
    | with_reducible apply State.startMarch_steady | with_reducible apply State.modMte_steady | split

theorem pondSelSet_steady {r s : State} (h : Steady r s) (c : Ctl) (n : Nat) (v : BitVec 64) : Steady r (pondSelSet c n v s) := by
  unfold pondSelSet
  repeat' first
    | with_reducible assumption | refine fun (s : State) (hs : Steady r s) => ?_ | with_reducible apply State.privOnly_steady
    | with_reducible apply State.done_steady | with_reducible apply State.modMte_steady

theorem State.endMarch_steady {r s : State} (h : Steady r s) (n result : Nat) : Steady r (s.endMarch n result) := by
  unfold State.endMarch
  repeat' first
    | with_reducible assumption | with_reducible apply State.modMte_steady | with_reducible apply State.event_steady
    | with_reducible apply State.modLake_steady

theorem State.restoreRow_steady {r s : State} (h : Steady r s) (n row : Nat) : Steady r (State.restoreRow n s row) := by
  unfold State.restoreRow
  repeat' first
    | with_reducible assumption | with_reducible apply State.foundCorr_steady | with_reducible apply State.foundBad_steady
    | with_reducible apply State.mark_steady | with_reducible apply State.setTag_steady | split | dsimp only

theorem execMarchTestDone_steady {r s : State} (h : Steady r s) (n : Fin 24) (fails : List FailCell) :
    Keeps r (execMarchTestDone n fails s) := by
  unfold execMarchTestDone
  repeat' first
    | with_reducible assumption | with_reducible apply State.reach_steady | with_reducible apply State.restoreRow_steady
    | with_reducible apply State.modMte_steady | with_reducible apply Keeps.next
    | with_reducible refine Steady.foldl _ (fun s x hs => ?_) _ _ ?_ | split

theorem State.failLake_steady {r s : State} (h : Steady r s) (n : Nat) : Steady r (s.failLake n) := by
  unfold State.failLake
  repeat' first
    | with_reducible assumption | with_reducible apply State.modLp_steady | with_reducible apply State.initRows_steady
    | with_reducible apply State.log_steady | (simp only [Steady.mk_iff]; with_reducible refine SteadyF.of ?_ _ _)

theorem State.coldStep_steady {r s : State} (h : Steady r s) : Steady r s.coldStep := by
  unfold State.coldStep
  repeat' first
    | with_reducible assumption | (simp only [Steady.mk_iff]; with_reducible refine SteadyF.of ?_ _ _) | split

theorem execMarchAnalysisDone_steady {r s : State} (h : Steady r s) (n : Fin 24) : Keeps r (execMarchAnalysisDone n s) := by
  unfold execMarchAnalysisDone
  repeat' first
    | with_reducible assumption | with_reducible apply State.reach_steady | with_reducible apply State.modMte_steady
    | with_reducible apply State.coldStep_steady | with_reducible apply State.failLake_steady
    | with_reducible apply State.endMarch_steady | with_reducible apply Keeps.next | split | dsimp only

theorem execMarchRemapDone_steady {r s : State} (h : Steady r s) (n : Fin 24) : Keeps r (execMarchRemapDone n s) := by
  unfold execMarchRemapDone
  repeat' first
    | with_reducible assumption | with_reducible apply State.endMarch_steady | with_reducible apply State.reach_steady
    | with_reducible apply Keeps.next | split | dsimp only

theorem execMarchInitDone_steady {r s : State} (h : Steady r s) (n : Fin 24) : Keeps r (execMarchInitDone n s) := by
  unfold execMarchInitDone
  repeat' first
    | with_reducible assumption | with_reducible apply State.endMarch_steady | with_reducible apply State.initRows_steady
    | with_reducible apply State.reach_steady | with_reducible apply Keeps.next | split | dsimp only

theorem State.fuse_steady {r s : State} (h : Steady r s) (w : FuseWord) : Steady r (s.fuse w) := by
  unfold State.fuse
  repeat' first
    | with_reducible assumption | with_reducible apply State.modMte_steady
    | (simp only [Steady.mk_iff]; with_reducible refine SteadyF.of ?_ _ _) | split

end Sys2Proof.Machine
end

