-- ==== Sys2Proof/Laws/SteadyPackets.lean ====
section
/-!
SUPPORT. What the operations of `Packets` keep (`Steady`), one lemma per operation.
-/
namespace Sys2Proof.Machine

-- One theorem after another: elaborated side by side, these theorems would each hold a thread and its stack.
set_option Elab.async false
set_option linter.all false

theorem State.countCanal_steady {r s : State} (h : Steady r s) (ev p : Nat) (label : Option Nat) (ccw : Option Bool) :
    Steady r (s.countCanal ev p label ccw) := by
  unfold State.countCanal
  repeat' first
    | with_reducible assumption | with_reducible apply State.count_steady

theorem State.enterRing_steady {r s : State} (h : Steady r s) (k : Packet) (iss : Int) (ccw : Bool) (t : Nat) :
    Steady r (s.enterRing k iss ccw t) := by
  unfold State.enterRing
  repeat' first
    | with_reducible assumption | with_reducible apply State.modStop_steady | with_reducible apply State.countCanal_steady
    | (simp only [Steady.mk_iff]; with_reducible refine SteadyF.of ?_ _ _)

theorem State.launch_steady {r s : State} (h : Steady r s) (k0 : Packet) (t : Nat) : Steady r (s.launch k0 t) := by
  unfold State.launch
  repeat' first
    | with_reducible assumption | with_reducible apply State.enterRing_steady | with_reducible apply State.modStop_steady | split
    | dsimp only

theorem State.closePacket_steady {r s : State} (h : Steady r s) (p id n : Nat) : Steady r (s.closePacket p id n) := by
  unfold State.closePacket
  repeat' first
    | with_reducible assumption | with_reducible apply State.modStop_steady

theorem State.keepCopy_steady {r s : State} (h : Steady r s) (k : Packet) (b : Nat) : Steady r (s.keepCopy k b) := by
  unfold State.keepCopy
  repeat' first
    | with_reducible assumption | with_reducible apply State.modStop_steady

theorem State.deliver_steady {r s : State} (h : Steady r s) (k : Packet) : Steady r (s.deliver k) := by
  unfold State.deliver
  repeat' first
    | with_reducible assumption | with_reducible apply State.keepCopy_steady | with_reducible apply State.emit_steady
    | with_reducible apply State.closePacket_steady | split

theorem State.sendResponse_steady {r s : State} (h : Steady r s) (k : Packet) (st : Status) (b : Nat) :
    Steady r (s.sendResponse k st b) := by
  unfold State.sendResponse
  repeat' first
    | with_reducible assumption | with_reducible apply State.launch_steady | with_reducible apply State.keepCopy_steady
    | with_reducible apply State.emit_steady | split

end Sys2Proof.Machine
end

