-- ==== Sys2Proof/Laws/SteadyReset.lean ====
section
/-!
SUPPORT. What the operations of `Reset` keep (`Steady`), one lemma per operation.
-/
namespace Sys2Proof.Machine

-- One theorem after another: elaborated side by side, these theorems would each hold a thread and its stack.
set_option Elab.async false
set_option linter.all false

theorem State.undoWb_steady {r s : State} (h : Steady r s) (b : WriteBack) : Steady r (s.undoWb b) := by
  unfold State.undoWb
  repeat' first
    | with_reducible assumption | with_reducible apply State.putWords_steady | with_reducible apply State.setTag_steady

theorem State.answerAbsent_steady {r s : State} (h : Steady r s) (x1 : Held) : Steady r (s.answerAbsent x1) := by
  unfold State.answerAbsent
  repeat' first
    | with_reducible assumption | with_reducible apply State.respond_steady | with_reducible apply State.reply_steady
    | with_reducible apply State.answerRead_steady | with_reducible apply State.answer_steady | split

theorem State.answerAll_steady {r s : State} (h : Steady r s) (x1 : List Held) : Steady r (s.answerAll x1) := by
  unfold State.answerAll
  repeat' first
    | with_reducible assumption | with_reducible apply State.answerAbsent_steady
    | with_reducible refine Steady.foldl _ (fun s x hs => ?_) _ _ ?_

theorem State.dropLake_steady {r s : State} (h : Steady r s) (n : Nat) : Steady r (s.dropLake n) := by
  unfold State.dropLake
  repeat' first
    | with_reducible assumption | with_reducible apply State.undoWb_steady | with_reducible apply State.mark_steady
    | with_reducible apply State.modLake_steady | with_reducible apply State.answerAll_steady
    | with_reducible apply State.modLp_steady | with_reducible apply State.releaseWaiters_steady
    | with_reducible refine Steady.foldl _ (fun s x hs => ?_) _ _ ?_

theorem State.staleRows_steady {r s : State} (h : Steady r s) (x1 : Nat) : Steady r (s.staleRows x1) := by
  unfold State.staleRows
  dsimp only
  refine (Steady.foldl State.settle (fun s x hs => State.settle_steady hs x) _ _ h).tabs rfl rfl rfl rfl fun c => ?_
  simp only [State.canonical, Bool.and_eq_true] at c ⊢
  simp only [c, Tab.wf_mapTab, and_self]

theorem State.closeForReset_steady {r s : State} (h : Steady r s) (n : Nat) : Steady r (s.closeForReset n) := by
  unfold State.closeForReset
  repeat' first
    | with_reducible assumption | with_reducible apply State.modWin_steady | with_reducible apply State.winDone_steady
    | with_reducible refine Steady.foldl _ (fun s x hs => ?_) _ _ ?_

theorem State.voidContext_steady {r s : State} (h : Steady r s) (n : Nat) : Steady r (s.voidContext n) := by
  unfold State.voidContext
  repeat' first
    | with_reducible assumption | with_reducible apply State.invalidSlot_steady
    | (simp only [Steady.mk_iff]; with_reducible refine SteadyF.of ?_ _ _) | split | dsimp only

theorem State.emptyQueue_steady {r s : State} (h : Steady r s) (p : Nat) : Steady r (s.emptyQueue p) := by
  unfold State.emptyQueue
  repeat' first
    | with_reducible assumption | with_reducible apply State.modStop_steady | with_reducible apply State.sendResponse_steady
    | with_reducible refine Steady.foldl _ (fun s x hs => ?_) _ _ ?_

theorem State.resetLake_steady {r s : State} (h : Steady r s) (x1 : Nat) : Steady r (s.resetLake x1) := by
  unfold State.resetLake
  extract_lets s1 s2 src s3
  have k1 : Steady r s1 :=
    State.emptyQueue_steady (State.voidContext_steady (State.closeForReset_steady (State.staleRows_steady (State.dropLake_steady h _) _) _) _) _
  have k2 : Steady r s2 := State.modSpring_steady (State.modLake_steady k1 _ _) _ _
  clear_value s2
  have k3 : Steady r s3 := by
    refine k2.trans ⟨rfl, rfl, rfl, fun c => ?_, Nat.le_refl _, fun e => ⟨e, rfl⟩⟩
    simp only [s3, State.canonical, Bool.and_eq_true] at c ⊢
    simp only [c, Tab.wf_mapTab, Tab.wf_eraseRange, and_self]
  exact State.takeUp_steady k3

theorem lakeResetSet_steady {r s : State} (h : Steady r s) (c : Ctl) (v : BitVec 64) : Steady r (lakeResetSet c v s) := by
  unfold lakeResetSet
  repeat' first
    | with_reducible assumption | refine fun (s : State) (hs : Steady r s) => ?_ | with_reducible apply State.nack_steady
    | with_reducible apply State.privOnly_steady | with_reducible apply State.unless_steady
    | with_reducible apply State.done_steady | with_reducible apply State.resetLake_steady
    | (simp only [Steady.mk_iff]; with_reducible refine SteadyF.of ?_ _ _) | split | dsimp only

theorem execLakeResetDone_steady {r s : State} (h : Steady r s) : Keeps r (execLakeResetDone s) := by
  unfold execLakeResetDone
  repeat' first
    | with_reducible assumption | with_reducible apply State.reach_steady | with_reducible apply State.modLp_steady
    | with_reducible apply State.modLake_steady | with_reducible apply Keeps.next
    | (simp only [Steady.mk_iff]; with_reducible refine SteadyF.of ?_ _ _) | split

theorem State.dropAll_steady {r s : State} (h : Steady r s) : Steady r s.dropAll := by
  unfold State.dropAll
  extract_lets s1 hs src s2 s3 cs s4
  have k1 : Steady r s1 := Steady.foldl State.dropLake (fun _ x k => State.dropLake_steady k x) _ _ h
  clear_value s1
  have k2 : Steady r s2 := by
    simp only [s2, Steady.mk_iff]
    exact SteadyF.of k1 _ _ ⟨rfl, fun h => ⟨h, rfl⟩⟩ (Nat.le_refl _)
  have k3 : Steady r s3 := State.answerAll_steady k2 _
  have k4 : Steady r s4 := Steady.foldl _ (fun _ _ k => State.reply_steady k _ _ _) _ _ k3
  clear_value s4
  refine k4.trans ⟨rfl, rfl, rfl, fun c => ?_, Nat.le_refl _, fun e => ⟨e, rfl⟩⟩
  simp only [State.canonical, Bool.and_eq_true] at c ⊢
  simp only [c, Tab.wf_nil, and_self]

theorem State.warmControl_steady {r s : State} (h : Steady r s) (x1 : Nat → Bool) : Steady r (s.warmControl x1) := by
  unfold State.warmControl
  refine h.trans ⟨rfl, rfl, rfl, fun c => ?_, Nat.le_refl _, fun e => ⟨e, rfl⟩⟩
  simp only [State.canonical, Bool.and_eq_true] at c ⊢
  simp only [c, Tab.wf_mapTab, Tab.wf_nil, Tab.wf_foldl_set, and_self]

theorem State.staleSteps_steady {r s : State} (h : Steady r s) (n : Nat) : Steady r (s.staleSteps n) := by
  unfold State.staleSteps
  repeat' first
    | with_reducible assumption | with_reducible apply State.settle_steady
    | with_reducible refine Steady.foldl _ (fun s x hs => ?_) _ _ ?_

theorem State.warmReset_steady {r s : State} (h : Steady r s) (x1 : Nat) : Steady r (s.warmReset x1) := by
  unfold State.warmReset
  extract_lets s1 keep s2 s3
  have k1 : Steady r s1 := State.dropAll_steady h
  have k2 : Steady r s2 := Steady.foldl _ (fun s n hs => by
    split
    · exact State.staleSteps_steady hs _
    · exact hs) _ _ k1
  have k3 : Steady r s3 := State.warmControl_steady k2 _
  clear_value s3
  refine k3.trans ⟨rfl, rfl, rfl, fun c => ?_, Nat.le_refl _, fun e => ⟨e, rfl⟩⟩
  simp only [State.canonical, Bool.and_eq_true] at c ⊢
  simp only [c, Tab.wf_mapTab, and_self]

theorem State.askWarm_steady {r s : State} (h : Steady r s) (cause : Nat) : Steady r (s.askWarm cause) := by
  unfold State.askWarm
  repeat' first
    | with_reducible assumption | with_reducible apply State.warmReset_steady | split

theorem execWarmResetPin_steady {r s : State} (h : Steady r s) : Keeps r (execWarmResetPin s) := by
  unfold execWarmResetPin
  repeat' first
    | with_reducible assumption | with_reducible apply State.askWarm_steady | with_reducible apply Keeps.next

theorem resetSet_steady {r s : State} (h : Steady r s) (c : Ctl) (v : BitVec 64) : Steady r (resetSet c v s) := by
  unfold resetSet
  repeat' first
    | with_reducible assumption | refine fun (s : State) (hs : Steady r s) => ?_ | with_reducible apply State.privOnly_steady
    | with_reducible apply State.askWarm_steady | with_reducible apply State.done_steady | split

theorem State.setReady_steady {r s : State} (h : Steady r s) : Steady r s.setReady := by
  unfold State.setReady
  repeat' first
    | with_reducible assumption | with_reducible apply State.event_steady
    | (simp only [Steady.mk_iff]; with_reducible refine SteadyF.of ?_ _ _)

theorem State.initLakes_steady {r s : State} (h : Steady r s) : Steady r s.initLakes := by
  unfold State.initLakes
  repeat' first
    | with_reducible assumption | with_reducible apply State.initRows_steady | with_reducible apply State.modLp_steady
    | with_reducible apply State.modLake_steady | with_reducible refine Steady.foldl _ (fun s x hs => ?_) _ _ ?_ | split

theorem execWarmReinitDone_steady {r s : State} (h : Steady r s) : Keeps r (execWarmReinitDone s) := by
  unfold execWarmReinitDone
  repeat' first
    | with_reducible assumption | with_reducible apply State.setReady_steady | with_reducible apply State.initLakes_steady
    | with_reducible apply State.reach_steady | with_reducible apply Keeps.next | split

theorem execPllLock_steady {r s : State} (h : Steady r s) : Keeps r (execPllLock s) := by
  unfold execPllLock
  repeat' first
    | with_reducible assumption | with_reducible apply Keeps.next
    | (simp only [Steady.mk_iff]; with_reducible refine SteadyF.of ?_ _ _) | split

theorem execFuseRepairDone_steady {r s : State} (h : Steady r s) (ws : List FuseWord) : Keeps r (execFuseRepairDone ws s) := by
  unfold execFuseRepairDone
  repeat' first
    | with_reducible assumption | with_reducible apply State.reachNs_steady | with_reducible apply State.fuse_steady
    | with_reducible apply State.startMarch_steady | with_reducible apply Keeps.next
    | with_reducible refine Steady.foldl _ (fun s x hs => ?_) _ _ ?_
    | (simp only [Steady.mk_iff]; with_reducible refine SteadyF.of ?_ _ _) | split

theorem execEccInitDone_steady {r s : State} (h : Steady r s) : Keeps r (execEccInitDone s) := by
  unfold execEccInitDone
  repeat' first
    | with_reducible assumption | with_reducible apply State.initLakes_steady | with_reducible apply State.reach_steady
    | with_reducible apply State.setReady_steady | with_reducible apply Keeps.next | split

theorem execVddLogLoss_steady {r s : State} (h : Steady r s) : Keeps r (execVddLogLoss s) := by
  unfold execVddLogLoss
  repeat' first
    | with_reducible assumption | with_reducible apply State.dropAll_steady | with_reducible apply Keeps.next
    | (simp only [Steady.mk_iff]; with_reducible refine SteadyF.of ?_ _ _) | split

theorem execLakeWakeEnd_steady {r s : State} (h : Steady r s) (n : Fin 24) : Keeps r (execLakeWakeEnd n s) := by
  unfold execLakeWakeEnd
  repeat' first
    | with_reducible assumption | with_reducible apply State.reachNs_steady | with_reducible apply State.initRows_steady
    | with_reducible apply State.reach_steady | with_reducible apply State.staleRows_steady
    | with_reducible apply State.modLake_steady | with_reducible apply State.modLp_steady
    | with_reducible apply State.resetLake_steady | with_reducible apply State.takeUp_steady
    | with_reducible apply State.wakeLake_steady | with_reducible apply State.proceedAll_steady
    | with_reducible apply State.wakeIdle_steady | with_reducible apply Keeps.next
    | (simp only [Steady.mk_iff]; with_reducible refine SteadyF.of ?_ _ _) | split | dsimp only

end Sys2Proof.Machine
end

