-- ==== Sys2Proof/Laws/SteadyErrorLog.lean ====
section
/-!
SUPPORT. What the operations of `ErrorLog` keep (`Steady`), one lemma per operation.
-/
namespace Sys2Proof.Machine

-- One theorem after another: elaborated side by side, these theorems would each hold a thread and its stack.
set_option Elab.async false
set_option linter.all false

theorem execWriteBack_steady {r s : State} (h : Steady r s) (row : Nat) : Keeps r (execWriteBack row s) := by
  unfold execWriteBack
  repeat' first
    | with_reducible assumption | with_reducible apply State.pondCycle_steady | with_reducible apply State.countLake_steady
    | with_reducible apply State.reach_steady | with_reducible apply State.modLake_steady
    | with_reducible apply State.inject_steady | with_reducible apply Keeps.next | split | dsimp only

theorem execMarkWrite_steady {r s : State} (h : Steady r s) (row : Nat) : Keeps r (execMarkWrite row s) := by
  unfold execMarkWrite
  repeat' first
    | with_reducible assumption | with_reducible apply State.mark_steady | with_reducible apply State.modLake_steady
    | with_reducible apply State.pondCycle_steady | with_reducible apply Keeps.next | split | dsimp only

theorem execScrubDue_steady {r s : State} (h : Steady r s) (n : Fin 24) : Keeps r (execScrubDue n s) := by
  unfold execScrubDue
  repeat' first
    | with_reducible assumption | with_reducible apply State.reach_steady | with_reducible apply State.modLake_steady
    | with_reducible apply Keeps.next | split | dsimp only

theorem State.scrub_steady {r s : State} (h : Steady r s) (row : Nat) : Steady r (s.scrub row) := by
  unfold State.scrub
  repeat' first
    | with_reducible assumption | with_reducible apply State.modLake_steady | with_reducible apply State.countLake_steady
    | with_reducible apply State.settle_steady | with_reducible apply State.alone_steady
    | with_reducible apply State.checkRow_steady

theorem scrubAfter_steady {r s : State} (h : Steady r s) (row wait : Nat) : Steady r (scrubAfter row wait s) := by
  unfold scrubAfter
  repeat' first
    | with_reducible assumption | with_reducible apply State.reach_steady | with_reducible apply State.scrub_steady
    | with_reducible apply State.elapse_steady | (simp only [Steady.mk_iff]; with_reducible refine SteadyF.of ?_ _ _) | split
    | dsimp only

theorem execScrubRead_steady {r s : State} (h : Steady r s) (row : Nat) : Keeps r (execScrubRead row s) := by
  unfold execScrubRead
  repeat' first
    | with_reducible assumption | with_reducible apply scrubAfter_steady | with_reducible apply Keeps.next

theorem execScrubForced_steady {r s : State} (h : Steady r s) (row : Nat) : Keeps r (execScrubForced row s) := by
  unfold execScrubForced
  repeat' first
    | with_reducible assumption | with_reducible apply scrubAfter_steady | with_reducible apply Keeps.next

theorem scrubSet_steady {r s : State} (h : Steady r s) (c : Ctl) (n : Nat) (v : BitVec 64) : Steady r (scrubSet c n v s) := by
  unfold scrubSet
  repeat' first
    | with_reducible assumption | refine fun (s : State) (hs : Steady r s) => ?_ | with_reducible apply State.privOnly_steady
    | with_reducible apply State.done_steady | with_reducible apply State.modLake_steady

theorem State.convertRow_steady {r s : State} (h : Steady r s) (n row : Nat) : Steady r (State.convertRow n s row) := by
  unfold State.convertRow
  repeat' first
    | with_reducible assumption | with_reducible apply State.settle_steady | with_reducible apply State.setTag_steady
    | with_reducible apply State.foundCorr_steady | with_reducible apply State.foundBad_steady
    | with_reducible apply State.mark_steady | split | dsimp only

theorem protSet_steady {r s : State} (h : Steady r s) (c : Ctl) (n : Nat) (v : BitVec 64) : Steady r (protSet c n v s) := by
  unfold protSet
  repeat' first
    | with_reducible assumption | refine fun (s : State) (hs : Steady r s) => ?_ | with_reducible apply State.ownerOnly_steady
    | with_reducible apply State.done_steady | with_reducible apply State.unless_steady | with_reducible apply State.mark_steady
    | with_reducible apply State.modLake_steady | with_reducible apply State.convertRow_steady
    | with_reducible refine Steady.foldl _ (fun s x hs => ?_) _ _ ?_ | split | dsimp only

theorem execConversionDone_steady {r s : State} (h : Steady r s) (n : Fin 24) : Keeps r (execConversionDone n s) := by
  unfold execConversionDone
  repeat' first
    | with_reducible assumption | with_reducible apply State.reach_steady | with_reducible apply State.modLake_steady
    | with_reducible apply Keeps.next | split

theorem eccInjSet_steady {r s : State} (h : Steady r s) (c : Ctl) (n : Nat) (v : BitVec 64) : Steady r (eccInjSet c n v s) := by
  unfold eccInjSet
  repeat' first
    | with_reducible assumption | refine fun (s : State) (hs : Steady r s) => ?_ | with_reducible apply State.privOnly_steady
    | with_reducible apply State.unless_steady | with_reducible apply State.done_steady
    | with_reducible apply State.modLake_steady

theorem State.raiseClass_steady {r s : State} (h : Steady r s) (k : Nat) : Steady r (s.raiseClass k) := by
  unfold State.raiseClass
  repeat' first
    | with_reducible assumption | with_reducible apply State.event_steady
    | (simp only [Steady.mk_iff]; with_reducible refine SteadyF.of ?_ _ _)

theorem State.classEvent_steady {r s : State} (h : Steady r s) (k : Nat) : Steady r (s.classEvent k) := by
  unfold State.classEvent
  repeat' first
    | with_reducible assumption | with_reducible apply State.raiseClass_steady
    | (simp only [Steady.mk_iff]; with_reducible refine SteadyF.of ?_ _ _) | split | dsimp only

theorem execRecordEnter_steady {r s : State} (h : Steady r s) : Keeps r (execRecordEnter s) := by
  unfold execRecordEnter
  repeat' first
    | with_reducible assumption | with_reducible apply State.classEvent_steady | with_reducible apply Keeps.next
    | (simp only [Steady.mk_iff]; with_reducible refine SteadyF.of ?_ _ _) | split

theorem execCorrInterval_steady {r s : State} (h : Steady r s) (k : Nat) : Keeps r (execCorrInterval k s) := by
  unfold execCorrInterval
  repeat' first
    | with_reducible assumption | with_reducible apply State.reachNs_steady | with_reducible apply State.report_steady
    | with_reducible apply Keeps.next | (simp only [Steady.mk_iff]; with_reducible refine SteadyF.of ?_ _ _) | split | dsimp only

theorem execIbiInterval_steady {r s : State} (h : Steady r s) (c : Fin 8) : Keeps r (execIbiInterval c s) := by
  unfold execIbiInterval
  repeat' first
    | with_reducible assumption | with_reducible apply State.reachNs_steady | with_reducible apply State.raiseClass_steady
    | with_reducible apply Keeps.next | (simp only [Steady.mk_iff]; with_reducible refine SteadyF.of ?_ _ _) | split | dsimp only

theorem errTailSet_steady {r s : State} (h : Steady r s) (c : Ctl) (v : BitVec 64) : Steady r (errTailSet c v s) := by
  unfold errTailSet
  repeat' first
    | with_reducible assumption | refine fun (s : State) (hs : Steady r s) => ?_ | with_reducible apply State.privOnly_steady
    | with_reducible apply State.unless0_steady | with_reducible apply State.done_steady
    | (simp only [Steady.mk_iff]; with_reducible refine SteadyF.of ?_ _ _)

theorem errStatSet_steady {r s : State} (h : Steady r s) (c : Ctl) (v : BitVec 64) : Steady r (errStatSet c v s) := by
  unfold errStatSet
  repeat' first
    | with_reducible assumption | with_reducible apply State.done_steady
    | (simp only [Steady.mk_iff]; with_reducible refine SteadyF.of ?_ _ _) | split

theorem errCtlSet_steady {r s : State} (h : Steady r s) (c : Ctl) (v : BitVec 64) : Steady r (errCtlSet c v s) := by
  unfold errCtlSet
  repeat' first
    | with_reducible assumption | refine fun (s : State) (hs : Steady r s) => ?_ | with_reducible apply State.privOnly_steady
    | with_reducible apply State.done_steady | (simp only [Steady.mk_iff]; with_reducible refine SteadyF.of ?_ _ _)

end Sys2Proof.Machine
end

