-- ==== Sys2Proof/Laws/SteadySlates.lean ====
section
/-!
SUPPORT. What the operations of `Slates` keep (`Steady`), one lemma per operation.
-/
namespace Sys2Proof.Machine

-- One theorem after another: elaborated side by side, these theorems would each hold a thread and its stack.
set_option Elab.async false
set_option linter.all false

theorem slateOpSet_steady {r s : State} (h : Steady r s) (c : Ctl) (n : Nat) (v : BitVec 64) : Steady r (slateOpSet c n v s) := by
  unfold slateOpSet
  repeat' first
    | with_reducible assumption | refine fun (s : State) (hs : Steady r s) => ?_ | with_reducible apply State.ownerOnly_steady
    | with_reducible apply State.unless_steady | with_reducible apply State.done_steady
    | with_reducible apply State.modLake_steady

theorem slateQuerySet_steady {r s : State} (h : Steady r s) (c : Ctl) (n : Nat) (v : BitVec 64) :
    Steady r (slateQuerySet c n v s) := by
  unfold slateQuerySet
  repeat' first
    | with_reducible assumption | refine fun (s : State) (hs : Steady r s) => ?_ | with_reducible apply State.ownerOnly_steady
    | with_reducible apply State.done_steady | with_reducible apply State.modLake_steady

theorem State.maintRow_steady {r s : State} (h : Steady r s) (n : Nat) : Steady r (s.maintRow n) := by
  unfold State.maintRow
  repeat' first
    | with_reducible assumption | with_reducible apply State.pondCycle_steady | with_reducible apply State.alone_steady
    | with_reducible apply State.inject_steady | with_reducible apply State.mergeWbs_steady
    | with_reducible apply State.refresh_steady | with_reducible apply State.putWords_steady
    | with_reducible apply State.setSlate_steady | with_reducible apply State.slotFullBy_steady
    | with_reducible apply State.modLake_steady | split

theorem execSlateOpRow_steady {r s : State} (h : Steady r s) (n : Fin 24) : Keeps r (execSlateOpRow n s) := by
  unfold execSlateOpRow
  repeat' first
    | with_reducible assumption | with_reducible apply State.wakeIdle_steady | with_reducible apply State.maintRow_steady
    | with_reducible apply Keeps.next | split | dsimp only

theorem execSlateOpDone_steady {r s : State} (h : Steady r s) (n : Fin 24) : Keeps r (execSlateOpDone n s) := by
  unfold execSlateOpDone
  repeat' first
    | with_reducible assumption | with_reducible apply State.reach_steady | with_reducible apply State.modLake_steady
    | with_reducible apply State.wakeIdle_steady | with_reducible apply State.wakeLandings_steady
    | with_reducible apply State.takeUp_steady | with_reducible apply State.wakeThose_steady | with_reducible apply Keeps.next
    | with_reducible refine Steady.foldl _ (fun s x hs => ?_) _ _ ?_ | split | dsimp only

theorem execWaiterTimeout_steady {r s : State} (h : Steady r s) (n : Fin 24) (id : Nat) : Keeps r (execWaiterTimeout n id s) := by
  unfold execWaiterTimeout
  repeat' first
    | with_reducible assumption | with_reducible apply State.countLake_steady | with_reducible apply State.reach_steady
    | with_reducible apply State.dropWaiter_steady | with_reducible apply State.log_steady
    | with_reducible apply State.serveCues_steady | with_reducible apply State.endTake_steady | with_reducible apply Keeps.next
    | split

end Sys2Proof.Machine
end

