-- ==== Sys2Proof/Laws/SteadyCounters.lean ====
section
/-!
SUPPORT. What the operations of `Counters` keep (`Steady`), one lemma per operation.
-/
namespace Sys2Proof.Machine

-- One theorem after another: elaborated side by side, these theorems would each hold a thread and its stack.
set_option Elab.async false
set_option linter.all false

theorem State.setCtr_steady {r s : State} (h : Steady r s) (o : Nat) (c : Counter) : Steady r (s.setCtr o c) := by
  unfold State.setCtr
  repeat' first
    | with_reducible assumption | (simp only [Steady.mk_iff]; with_reducible refine SteadyF.of ?_ _ _)

theorem State.cntWrite_steady {r s : State} (h : Steady r s) (c : Ctl) (go : State → State) (hgo : ∀ s, Steady r s → Steady r (go s)) :
    Steady r (s.cntWrite c go) := by
  unfold State.cntWrite
  repeat' first
    | with_reducible assumption | with_reducible apply State.elapse_steady | with_reducible apply State.done_steady
    | with_reducible apply hgo

theorem cntCfgSet_steady {r s : State} (h : Steady r s) (x0 : Ctl) (x1 : Nat) (x2 : BitVec 64) : Steady r (cntCfgSet x0 x1 x2 s) := by
  unfold cntCfgSet
  repeat' first
    | with_reducible assumption
    | refine fun (s : State) (hs : Steady r s) => ?_
    | exact hs
    | with_reducible apply State.privOnly_steady
    | with_reducible apply State.unless0_steady
    | with_reducible apply State.unless_steady
    | with_reducible apply State.cntWrite_steady
    | with_reducible apply State.setCtr_steady
    | with_reducible apply Keeps.next
    | with_reducible refine Steady.foldl _ (fun s x hs => ?_) _ _ ?_
    | (simp only [Steady.mk_iff]; with_reducible refine SteadyF.of ?_ _ _)
    | split
    | dsimp only
    | with_reducible refine Steady.snd (by assumption) ?_
    | with_reducible refine Steady.third (by assumption) ?_

theorem cntValSet_steady {r s : State} (h : Steady r s) (c : Ctl) (o : Nat) (v : BitVec 64) : Steady r (cntValSet c o v s) := by
  unfold cntValSet
  repeat' first
    | with_reducible assumption | refine fun (s : State) (hs : Steady r s) => ?_ | with_reducible apply State.privOnly_steady
    | with_reducible apply State.unless0_steady | with_reducible apply State.cntWrite_steady
    | with_reducible apply State.setCtr_steady

theorem cntGlobalSet_steady {r s : State} (h : Steady r s) (c : Ctl) (v : BitVec 64) : Steady r (cntGlobalSet c v s) := by
  unfold cntGlobalSet
  repeat' first
    | with_reducible assumption | refine fun (s : State) (hs : Steady r s) => ?_ | with_reducible apply State.privOnly_steady
    | with_reducible apply State.unless0_steady | with_reducible apply State.cntWrite_steady
    | (simp only [Steady.mk_iff]; with_reducible refine SteadyF.of ?_ _ _)

theorem State.snapshot_steady {r s : State} (h : Steady r s) (clr : Bool) (ns : Nat) : Steady r (s.snapshot clr ns) := by
  unfold State.snapshot
  repeat' first
    | with_reducible assumption | (simp only [Steady.mk_iff]; with_reducible refine SteadyF.of ?_ _ _)

theorem dlyCtlSet_steady {r s : State} (h : Steady r s) (c : Ctl) (v : BitVec 64) : Steady r (dlyCtlSet c v s) := by
  unfold dlyCtlSet
  repeat' first
    | with_reducible assumption | refine fun (s : State) (hs : Steady r s) => ?_ | with_reducible apply State.privOnly_steady
    | with_reducible apply State.unless0_steady | with_reducible apply State.cntWrite_steady
    | with_reducible apply State.snapshot_steady | (simp only [Steady.mk_iff]; with_reducible refine SteadyF.of ?_ _ _) | split

theorem State.deepDrain_steady {r s : State} (h : Steady r s) : Steady r s.deepDrain := by
  unfold State.deepDrain
  repeat' first
    | with_reducible assumption | with_reducible apply State.drainLake_steady | with_reducible apply State.deepTimer_steady
    | with_reducible refine Steady.foldl _ (fun s x hs => ?_) _ _ ?_ | split

theorem deepSet_steady {r s : State} (h : Steady r s) (c : Ctl) (v : BitVec 64) : Steady r (deepSet c v s) := by
  unfold deepSet
  repeat' first
    | with_reducible assumption | refine fun (s : State) (hs : Steady r s) => ?_ | with_reducible apply State.privOnly_steady
    | with_reducible apply State.done_steady | with_reducible apply State.unless_steady
    | with_reducible apply State.deepDrain_steady | (simp only [Steady.mk_iff]; with_reducible refine SteadyF.of ?_ _ _) | split
    | dsimp only

theorem execSnapshotRelease_steady {r s : State} (h : Steady r s) : Keeps r (execSnapshotRelease s) := by
  unfold execSnapshotRelease
  repeat' first
    | with_reducible assumption | with_reducible apply State.reach_steady | with_reducible apply State.deepDrain_steady
    | with_reducible apply Keeps.next | (simp only [Steady.mk_iff]; with_reducible refine SteadyF.of ?_ _ _) | split

theorem execDeepEntryEnd_steady {r s : State} (h : Steady r s) : Keeps r (execDeepEntryEnd s) := by
  unfold execDeepEntryEnd
  repeat' first
    | with_reducible assumption | with_reducible apply State.reachNs_steady | with_reducible apply State.wakeDeep_steady
    | with_reducible apply Keeps.next | (simp only [Steady.mk_iff]; with_reducible refine SteadyF.of ?_ _ _) | split | dsimp only

theorem execDeepWake_steady {r s : State} (h : Steady r s) (x0 : WakeSource) : Keeps r (execDeepWake x0 s) := by
  unfold execDeepWake
  repeat' first
    | with_reducible assumption | with_reducible apply State.wakeDeep_steady | with_reducible apply Keeps.next

end Sys2Proof.Machine
end

