-- ==== Sys2Proof/Laws/SteadyWeir.lean ====
section
/-!
SUPPORT. What the operations of `Weir` keep (`Steady`), one lemma per operation.
-/
namespace Sys2Proof.Machine

-- One theorem after another: elaborated side by side, these theorems would each hold a thread and its stack.
set_option Elab.async false
set_option linter.all false

theorem labelMapSet_steady {r s : State} (h : Steady r s) (c : Ctl) (n : Nat) (v : BitVec 64) : Steady r (labelMapSet c n v s) := by
  unfold labelMapSet
  repeat' first
    | with_reducible assumption | refine fun (s : State) (hs : Steady r s) => ?_ | with_reducible apply State.privOnly_steady
    | with_reducible apply State.done_steady | (simp only [Steady.mk_iff]; with_reducible refine SteadyF.of ?_ _ _)

theorem clsDlSet_steady {r s : State} (h : Steady r s) (c : Ctl) (v : BitVec 64) : Steady r (clsDlSet c v s) := by
  unfold clsDlSet
  repeat' first
    | with_reducible assumption | refine fun (s : State) (hs : Steady r s) => ?_ | with_reducible apply State.privOnly_steady
    | with_reducible apply State.done_steady | (simp only [Steady.mk_iff]; with_reducible refine SteadyF.of ?_ _ _)

theorem qshareSet_steady {r s : State} (h : Steady r s) (c : Ctl) (which : Nat) (v : BitVec 64) :
    Steady r (qshareSet c which v s) := by
  unfold qshareSet
  repeat' first
    | with_reducible assumption | refine fun (s : State) (hs : Steady r s) => ?_ | with_reducible apply State.privOnly_steady
    | with_reducible apply State.unless_steady | with_reducible apply State.done_steady
    | (simp only [Steady.mk_iff]; with_reducible refine SteadyF.of ?_ _ _)

theorem waysSet_steady {r s : State} (h : Steady r s) (c : Ctl) (i : Nat) (v : BitVec 64) : Steady r (waysSet c i v s) := by
  unfold waysSet
  repeat' first
    | with_reducible assumption | refine fun (s : State) (hs : Steady r s) => ?_ | with_reducible apply State.privOnly_steady
    | with_reducible apply State.done_steady | (simp only [Steady.mk_iff]; with_reducible refine SteadyF.of ?_ _ _) | split

theorem srcLabelSet_steady {r s : State} (h : Steady r s) (c : Ctl) (v : BitVec 64) : Steady r (srcLabelSet c v s) := by
  unfold srcLabelSet
  repeat' first
    | with_reducible assumption | refine fun (s : State) (hs : Steady r s) => ?_ | with_reducible apply State.privOnly_steady
    | with_reducible apply State.done_steady | (simp only [Steady.mk_iff]; with_reducible refine SteadyF.of ?_ _ _)

theorem State.setCap_steady {r s : State} (h : Steady r s) (cap : Nat) : Steady r (s.setCap cap) := by
  unfold State.setCap
  repeat' first
    | with_reducible assumption | (simp only [Steady.mk_iff]; with_reducible refine SteadyF.of ?_ _ _)

theorem pcapSet_steady {r s : State} (h : Steady r s) (c : Ctl) (v : BitVec 64) : Steady r (pcapSet c v s) := by
  unfold pcapSet
  repeat' first
    | with_reducible assumption | refine fun (s : State) (hs : Steady r s) => ?_ | with_reducible apply State.privOnly_steady
    | with_reducible apply State.done_steady | with_reducible apply State.setCap_steady

theorem execPcapPeriod_steady {r s : State} (h : Steady r s) (skipped : Nat) : Keeps r (execPcapPeriod skipped s) := by
  unfold execPcapPeriod
  repeat' first
    | with_reducible assumption | with_reducible apply State.reachNs_steady | with_reducible apply State.log_steady
    | with_reducible apply Keeps.next | (simp only [Steady.mk_iff]; with_reducible refine SteadyF.of ?_ _ _) | split

theorem execLateRecordInterval_steady {r s : State} (h : Steady r s) (c : Fin 4) : Keeps r (execLateRecordInterval c s) := by
  unfold execLateRecordInterval
  repeat' first
    | with_reducible assumption | with_reducible apply State.reachNs_steady | with_reducible apply State.report_steady
    | with_reducible apply Keeps.next | (simp only [Steady.mk_iff]; with_reducible refine SteadyF.of ?_ _ _) | split | dsimp only

end Sys2Proof.Machine
end

