-- ==== Sys2Proof/Laws/SteadyArbiters.lean ====
section
/-!
SUPPORT. What the operations of `Arbiters` keep (`Steady`), one lemma per operation.
-/
namespace Sys2Proof.Machine

-- One theorem after another: elaborated side by side, these theorems would each hold a thread and its stack.
set_option Elab.async false
set_option linter.all false

theorem shoreCfgSet_steady {r s : State} (h : Steady r s) (c : Ctl) (n : Nat) (v : BitVec 64) : Steady r (shoreCfgSet c n v s) := by
  unfold shoreCfgSet
  repeat' first
    | with_reducible assumption | refine fun (s : State) (hs : Steady r s) => ?_ | with_reducible apply State.ownerOnly_steady
    | with_reducible apply State.unless_steady | with_reducible apply State.done_steady
    | with_reducible apply State.modLake_steady

theorem arbCfgSet_steady {r s : State} (h : Steady r s) (c : Ctl) (a : ArbSet) (which : Nat) (v : BitVec 64) :
    Steady r (arbCfgSet c a which v s) := by
  unfold arbCfgSet
  repeat' first
    | with_reducible assumption | refine fun (s : State) (hs : Steady r s) => ?_ | with_reducible apply State.privOnly_steady
    | with_reducible apply State.modLake_steady | with_reducible apply State.done_steady
    | (simp only [Steady.mk_iff]; with_reducible refine SteadyF.of ?_ _ _) | split

theorem State.countArb_steady {r s : State} (h : Steady r s) (a : ArbId) (ev : Nat) (cls : Option Nat) :
    Steady r (s.countArb a ev cls) := by
  unfold State.countArb
  repeat' first
    | with_reducible assumption | with_reducible apply State.count_steady | split

theorem State.withhold_steady {r s : State} (h : Steady r s) (a : ArbId) (cls : Nat) (m : Contender) :
    Steady r (s.withhold a cls m) := by
  unfold State.withhold
  repeat' first
    | with_reducible assumption | with_reducible apply State.countArb_steady | with_reducible apply State.modArb_steady
    | with_reducible apply State.countLake_steady | split

theorem State.beat_steady {r s : State} (h : Steady r s) (a : ArbId) (m : Contender) : Steady r (s.beat a m) := by
  unfold State.beat
  repeat' first
    | with_reducible assumption | with_reducible apply State.countArb_steady | with_reducible apply State.modArb_steady
    | with_reducible apply State.modLake_steady | with_reducible apply State.modStop_steady
    | with_reducible apply State.launch_steady | with_reducible refine Steady.foldl _ (fun s x hs => ?_) _ _ ?_ | split
    | dsimp only

theorem State.offerBeat_steady {r s : State} (h : Steady r s) (a : ArbId) (cls : Nat) (m : Contender) :
    Steady r (s.offerBeat a cls m) := by
  unfold State.offerBeat
  repeat' first
    | with_reducible assumption | with_reducible apply State.withhold_steady | with_reducible apply State.countLake_steady
    | with_reducible apply State.beat_steady | split

theorem State.grantTo_steady {r s : State} (h : Steady r s) (x1 : ArbId) (x2 : Arb) (x3 : Nat) (x4 : Contender) (x5 x6 x7 : Bool) :
    Steady r (s.grantTo x1 x2 x3 x4 x5 x6 x7) := by
  unfold State.grantTo
  extract_lets cfg g full x' s1 s2 s3 s4 s5
  have k1 : Steady r s1 := State.countArb_steady (State.countArb_steady (State.modArb_steady h _ _) _ _ _) _ _ _
  have k2 : Steady r s2 := by
    unfold s2
    split
    · exact State.countArb_steady k1 _ _ _
    · exact k1
  have k3 : Steady r s3 := by
    unfold s3
    split
    · exact State.countArb_steady k2 _ _ _
    · exact k2
  have k4 : Steady r s4 := by
    unfold s4
    split
    · exact State.countArb_steady (State.countArb_steady k3 _ _ _) _ _ _
    · exact k3
  have k5 : Steady r s5 := by
    unfold s5
    split
    · exact State.countArb_steady k4 _ _ _
    · exact k4
  clear_value s5
  split
  · refine State.offerBeat_steady ?_ _ _ _
    split
    · exact State.countArb_steady k5 _ _ _
    · exact k5
  · exact State.countArb_steady k5 _ _ _

theorem State.decide_steady {r s : State} (h : Steady r s) (a : ArbId) (ms : List Contender) (brk : Bool) :
    Steady r (s.decide a ms brk) := by
  unfold State.decide
  repeat' first
    | with_reducible assumption | with_reducible apply State.withhold_steady | with_reducible apply State.grantTo_steady | split
    | dsimp only

theorem State.endGrant_steady {r s : State} (h : Steady r s) (a : ArbId) : Steady r (s.endGrant a) := by
  unfold State.endGrant
  repeat' first
    | with_reducible assumption | with_reducible apply State.modArb_steady

theorem State.arbStep_steady {r s : State} (h : Steady r s) (a : ArbId) (ms : List Master) : Steady r (s.arbStep a ms) := by
  unfold State.arbStep
  repeat' first
    | with_reducible assumption | with_reducible apply State.endGrant_steady | with_reducible apply State.countArb_steady
    | with_reducible apply State.offerBeat_steady | with_reducible apply State.modArb_steady
    | with_reducible apply State.decide_steady | split | dsimp only

theorem execArbDecision_steady {r s : State} (h : Steady r s) (a : ArbId) (ms : List Master) : Keeps r (execArbDecision a ms s) := by
  unfold execArbDecision
  repeat' first
    | with_reducible assumption | with_reducible apply State.arbStep_steady | with_reducible apply Keeps.next

theorem execBurstLimit_steady {r s : State} (h : Steady r s) (a : ArbId) : Keeps r (execBurstLimit a s) := by
  unfold execBurstLimit
  repeat' first
    | with_reducible assumption | with_reducible apply State.countArb_steady | with_reducible apply State.endGrant_steady
    | with_reducible apply Keeps.next | split | dsimp only

theorem execQuotaWindowClose_steady {r s : State} (h : Steady r s) (a : ArbId) : Keeps r (execQuotaWindowClose a s) := by
  unfold execQuotaWindowClose
  repeat' first
    | with_reducible assumption | with_reducible apply State.modArb_steady | with_reducible apply Keeps.next | split

theorem execBackoffReset_steady {r s : State} (h : Steady r s) (rp : RetryPt) (i : Ident) : Keeps r (execBackoffReset rp i s) := by
  unfold execBackoffReset
  repeat' first
    | with_reducible assumption | with_reducible apply State.backoffClear_steady | with_reducible apply State.reach_steady
    | with_reducible apply Keeps.next | split

end Sys2Proof.Machine
end

