-- ==== Sys2Proof/Laws/SteadyCanal.lean ====
section
/-!
SUPPORT. What the operations of `Canal` keep (`Steady`), one lemma per operation.
-/
namespace Sys2Proof.Machine

-- One theorem after another: elaborated side by side, these theorems would each hold a thread and its stack.
set_option Elab.async false
set_option linter.all false

theorem State.countArrival_steady {r s : State} (h : Steady r s) (ev p : Nat) (k : Packet) (ccw : Bool) :
    Steady r (s.countArrival ev p k ccw) := by
  unfold State.countArrival
  repeat' first
    | with_reducible assumption | with_reducible apply State.count_steady | with_reducible apply State.countCanal_steady | split

theorem State.refusePacket_steady {r s : State} (h : Steady r s) (p : Nat) (k : Packet) (ccw : Bool) (b : Nat) :
    Steady r (s.refusePacket p k ccw b) := by
  unfold State.refusePacket
  repeat' first
    | with_reducible assumption | with_reducible apply State.sendResponse_steady | with_reducible apply State.countCanal_steady

theorem State.recordRefusal_steady {r s : State} (h : Steady r s) (p : Nat) (k : Packet) (ccw : Bool) :
    Steady r (s.recordRefusal p k ccw) := by
  unfold State.recordRefusal
  repeat' first
    | with_reducible assumption | with_reducible apply State.turnAway_steady | with_reducible apply State.modStop_steady
    | with_reducible apply State.refusePacket_steady | with_reducible apply State.countArrival_steady

theorem State.enqueue_steady {r s : State} (h : Steady r s) (p : Nat) (k : Packet) (iss : Int) : Steady r (s.enqueue p k iss) := by
  unfold State.enqueue
  repeat' first
    | with_reducible assumption | with_reducible apply State.modStop_steady | with_reducible apply State.backoffClear_steady

theorem State.arrive_steady {r s : State} (h : Steady r s) (p : Nat) (k : Packet) (iss : Int) (ccw : Bool) :
    Steady r (s.arrive p k iss ccw) := by
  unfold State.arrive
  repeat' first
    | with_reducible assumption | with_reducible apply State.refusePacket_steady | with_reducible apply State.sendResponse_steady
    | with_reducible apply State.countArrival_steady | with_reducible apply State.enqueue_steady
    | with_reducible apply State.recordRefusal_steady | split

theorem State.linkFail_steady {r s : State} (h : Steady r s) (p : Nat) (label : Option Nat) (ccw : Option Bool) :
    Steady r (s.linkFail p label ccw) := by
  unfold State.linkFail
  repeat' first
    | with_reducible assumption | with_reducible apply State.log_steady | with_reducible apply State.countCanal_steady

theorem State.ejectRequest_steady {r s : State} (h : Steady r s) (k : Packet) (iss : Int) (ccw parityOk : Bool) :
    Steady r (s.ejectRequest k iss ccw parityOk) := by
  unfold State.ejectRequest
  repeat' first
    | with_reducible assumption | with_reducible apply State.sendResponse_steady | with_reducible apply State.countCanal_steady
    | with_reducible apply State.linkFail_steady | with_reducible apply State.arrive_steady | split | dsimp only

theorem State.passStraight_steady {r s : State} (h : Steady r s) (k : Packet) (iss : Int) : Steady r (s.passStraight k iss) := by
  unfold State.passStraight
  repeat' first
    | with_reducible assumption | with_reducible apply State.modStop_steady | with_reducible apply State.ejectRequest_steady
    | split | dsimp only

theorem execPacketInject_steady {r s : State} (h : Steady r s) (k : Packet) : Keeps r (execPacketInject k s) := by
  unfold execPacketInject
  repeat' first
    | with_reducible assumption | with_reducible apply State.launch_steady | with_reducible apply State.deliver_steady
    | with_reducible apply State.passStraight_steady | with_reducible apply Keeps.next | split

theorem execStopStarving_steady {r s : State} (h : Steady r s) (p : Fin 47) (ccw : Bool) : Keeps r (execStopStarving p ccw s) := by
  unfold execStopStarving
  repeat' first
    | with_reducible assumption | with_reducible apply State.reach_steady | with_reducible apply State.countCanal_steady
    | with_reducible apply State.modStop_steady | with_reducible apply Keeps.next | split

theorem State.leaveRing_steady {r s : State} (h : Steady r s) (t : Transit) : Steady r (s.leaveRing t) := by
  unfold State.leaveRing
  repeat' first
    | with_reducible assumption | with_reducible apply State.reach_steady | with_reducible apply State.elapse_steady
    | with_reducible apply State.modStop_steady | with_reducible apply State.countCanal_steady
    | (simp only [Steady.mk_iff]; with_reducible refine SteadyF.of ?_ _ _) | split

theorem execPacketEject_steady {r s : State} (h : Steady r s) (id : Nat) (parityOk : Bool) :
    Keeps r (execPacketEject id parityOk s) := by
  unfold execPacketEject
  repeat' first
    | with_reducible assumption | with_reducible apply State.ejectRequest_steady | with_reducible apply State.leaveRing_steady
    | with_reducible apply Keeps.next | split

theorem State.springMail_steady {r s : State} (h : Steady r s) (m : SpringMail) (parityOk : Bool) :
    Steady r (s.springMail m parityOk) := by
  unfold State.springMail
  repeat' first
    | with_reducible assumption | with_reducible apply State.springBack_steady | with_reducible apply State.linkFail_steady
    | with_reducible apply State.modDesc_steady | with_reducible apply State.reach_steady
    | with_reducible apply State.issuePiece_steady | (simp only [Steady.mk_iff]; with_reducible refine SteadyF.of ?_ _ _) | split
    | dsimp only

theorem State.remoteAnswer_steady {r s : State} (h : Steady r s) (x1 : Remote) (st : Status) (d : List Word) (parityOk : Bool) :
    Steady r (s.remoteAnswer x1 st d parityOk) := by
  unfold State.remoteAnswer
  repeat' first
    | with_reducible assumption | with_reducible apply State.linkFail_steady | with_reducible apply State.deadlines_steady
    | with_reducible apply State.emit_steady | with_reducible apply State.springBack_steady
    | (simp only [Steady.mk_iff]; with_reducible refine SteadyF.of ?_ _ _) | split

theorem State.ejectResponse_steady {r s : State} (h : Steady r s) (t : Transit) (parityOk : Bool) :
    Steady r (s.ejectResponse t parityOk) := by
  unfold State.ejectResponse
  repeat' first
    | with_reducible assumption | with_reducible apply State.leaveRing_steady | with_reducible apply State.deliver_steady
    | with_reducible apply State.linkFail_steady | split

theorem execResponseEject_steady {r s : State} (h : Steady r s) (id : Nat) (st : Status) (d : List Word) (parityOk : Bool) :
    Keeps r (execResponseEject id st d parityOk s) := by
  unfold execResponseEject
  repeat' first
    | with_reducible assumption | with_reducible apply State.springMail_steady | with_reducible apply State.remoteAnswer_steady
    | with_reducible apply State.ejectResponse_steady | with_reducible apply Keeps.next | split

theorem execStopReissue_steady {r s : State} (h : Steady r s) (p dst idx : Fin 47) : Keeps r (execStopReissue p dst idx s) := by
  unfold execStopReissue
  repeat' first
    | with_reducible assumption | with_reducible apply State.reach_steady | with_reducible apply State.modStop_steady
    | with_reducible apply State.passStraight_steady | with_reducible apply State.launch_steady | with_reducible apply Keeps.next
    | with_reducible refine Steady.foldl _ (fun s x hs => ?_) _ _ ?_ | split | dsimp only

theorem execClientTakesRequest_steady {r s : State} (h : Steady r s) (p : Fin 47) (id : Nat) :
    Keeps r (execClientTakesRequest p id s) := by
  unfold execClientTakesRequest
  repeat' first
    | with_reducible assumption | with_reducible apply State.elapse_steady | with_reducible apply State.emit_steady
    | with_reducible apply State.modStop_steady | with_reducible apply Keeps.next | split

end Sys2Proof.Machine
end

