-- ==== Sys2Proof/Laws/SteadyOwnership.lean ====
section
/-!
SUPPORT. What the operations of `Ownership` keep (`Steady`), one lemma per operation.
-/
namespace Sys2Proof.Machine

-- One theorem after another: elaborated side by side, these theorems would each hold a thread and its stack.
set_option Elab.async false
set_option linter.all false

theorem State.handover_steady {r s : State} (h : Steady r s) (n : Nat) (p : Principal) : Steady r (s.handover n p) := by
  unfold State.handover
  repeat' first
    | with_reducible assumption | with_reducible apply State.modSpring_steady | with_reducible apply State.modLake_steady

theorem lkOwnerSet_steady {r s : State} (h : Steady r s) (c : Ctl) (n : Nat) (v : BitVec 64) : Steady r (lkOwnerSet c n v s) := by
  unfold lkOwnerSet
  repeat' first
    | with_reducible assumption | refine fun (s : State) (hs : Steady r s) => ?_ | with_reducible apply State.privOnly_steady
    | with_reducible apply State.done_steady | with_reducible apply State.unless_steady
    | with_reducible apply State.handover_steady | split

theorem lkShareSet_steady {r s : State} (h : Steady r s) (c : Ctl) (n : Nat) (v : BitVec 64) : Steady r (lkShareSet c n v s) := by
  unfold lkShareSet
  repeat' first
    | with_reducible assumption | refine fun (s : State) (hs : Steady r s) => ?_ | with_reducible apply State.ownerOnly_steady
    | with_reducible apply State.done_steady | with_reducible apply State.modLake_steady

theorem msoCtlSet_steady {r s : State} (h : Steady r s) (c : Ctl) (n : Nat) (v : BitVec 64) : Steady r (msoCtlSet c n v s) := by
  unfold msoCtlSet
  repeat' first
    | with_reducible assumption | refine fun (s : State) (hs : Steady r s) => ?_ | with_reducible apply State.ownerOnly_steady
    | with_reducible apply State.done_steady | with_reducible apply State.modLake_steady

theorem msoStatSet_steady {r s : State} (h : Steady r s) (c : Ctl) (n : Nat) (v : BitVec 64) : Steady r (msoStatSet c n v s) := by
  unfold msoStatSet
  repeat' first
    | with_reducible assumption | with_reducible apply State.done_steady | with_reducible apply State.modLake_steady

theorem srSeedSet_steady {r s : State} (h : Steady r s) (c : Ctl) (n : Nat) (v : BitVec 64) : Steady r (srSeedSet c n v s) := by
  unfold srSeedSet
  repeat' first
    | with_reducible assumption | refine fun (s : State) (hs : Steady r s) => ?_ | with_reducible apply State.privOnly_steady
    | with_reducible apply State.done_steady | with_reducible apply State.modLake_steady

theorem billSet_steady {r s : State} (h : Steady r s) (c : Ctl) (n : Nat) (v : BitVec 64) : Steady r (billSet c n v s) := by
  unfold billSet
  repeat' first
    | with_reducible assumption | refine fun (s : State) (hs : Steady r s) => ?_ | with_reducible apply State.privOnly_steady
    | with_reducible apply State.done_steady | with_reducible apply State.modLake_steady

theorem epIdSet_steady {r s : State} (h : Steady r s) (x0 : Ctl) (x1 : BitVec 64) : Steady r (epIdSet x0 x1 s) := by
  unfold epIdSet
  refine State.privOnly_steady h _ _ fun s hs => ?_
  unfold State.unless0
  split
  · exact State.deny_steady hs _ _ _
  rename_i hv
  refine State.done_steady ?_ _
  simp only [Steady.mk_iff]
  exact SteadyF.of hs _ _ ⟨rfl, fun e => absurd e hv⟩ (Nat.le_refl _)

theorem State.loadCtx_steady {r s : State} (h : Steady r s) (x1 : Nat) (x2 : Ctx) : Steady r (s.loadCtx x1 x2) := by
  unfold State.loadCtx
  repeat' first
    | with_reducible assumption | with_reducible apply State.setCtx_steady | with_reducible apply State.modCue_steady
    | with_reducible apply State.modReel_steady | with_reducible refine Steady.foldl _ (fun s x hs => ?_) _ _ ?_ | split

theorem ctxSelSet_steady {r s : State} (h : Steady r s) (c : Ctl) (v : BitVec 64) : Steady r (ctxSelSet c v s) := by
  unfold ctxSelSet
  repeat' first
    | with_reducible assumption | refine fun (s : State) (hs : Steady r s) => ?_ | with_reducible apply State.privOnly_steady
    | with_reducible apply State.unless0_steady | with_reducible apply State.done_steady
    | (simp only [Steady.mk_iff]; with_reducible refine SteadyF.of ?_ _ _)

theorem liveSet_steady {r s : State} (h : Steady r s) (c : Ctl) (i : Nat) (v : BitVec 64) : Steady r (liveSet c i v s) := by
  unfold liveSet
  repeat' first
    | with_reducible assumption | refine fun (s : State) (hs : Steady r s) => ?_ | with_reducible apply State.nack_steady
    | with_reducible apply State.privOnly_steady | with_reducible apply State.unless_steady
    | with_reducible apply State.done_steady | with_reducible apply State.loadCtx_steady
    | with_reducible apply State.setCtx_steady | split | dsimp only

theorem State.beginSave_steady {r s : State} (h : Steady r s) (x1 : Nat) : Steady r (s.beginSave x1) := by
  unfold State.beginSave
  repeat' first
    | with_reducible assumption | with_reducible apply State.endTake_steady | with_reducible apply State.serveCues_steady
    | with_reducible apply State.releaseWaiters_steady | with_reducible refine Steady.foldl _ (fun s x hs => ?_) _ _ ?_ | split

theorem ctxSaveSet_steady {r s : State} (h : Steady r s) (c : Ctl) (v : BitVec 64) : Steady r (ctxSaveSet c v s) := by
  unfold ctxSaveSet
  repeat' first
    | with_reducible assumption | refine fun (s : State) (hs : Steady r s) => ?_ | with_reducible apply State.nack_steady
    | with_reducible apply State.privOnly_steady | with_reducible apply State.unless_steady
    | with_reducible apply State.done_steady | with_reducible apply State.beginSave_steady
    | (simp only [Steady.mk_iff]; with_reducible refine SteadyF.of ?_ _ _) | split | dsimp only

theorem ctxRestoreSet_steady {r s : State} (h : Steady r s) (c : Ctl) (v : BitVec 64) : Steady r (ctxRestoreSet c v s) := by
  unfold ctxRestoreSet
  repeat' first
    | with_reducible assumption | refine fun (s : State) (hs : Steady r s) => ?_ | with_reducible apply State.nack_steady
    | with_reducible apply State.privOnly_steady | with_reducible apply State.unless_steady
    | with_reducible apply State.done_steady | (simp only [Steady.mk_iff]; with_reducible refine SteadyF.of ?_ _ _) | split
    | dsimp only

theorem State.endCtx_steady {r s : State} (h : Steady r s) (st : Status) : Steady r (s.endCtx st) := by
  unfold State.endCtx
  repeat' first
    | with_reducible assumption | (simp only [Steady.mk_iff]; with_reducible refine SteadyF.of ?_ _ _)

theorem State.refuseRecord_steady {r s : State} (h : Steady r s) (w : Who) (n a : Nat) (st : Status) (rec : Option (Nat × Nat)) :
    Steady r (s.refuseRecord w n a st rec) := by
  unfold State.refuseRecord
  repeat' first
    | with_reducible assumption | with_reducible apply State.modLp_steady | with_reducible apply State.countLake_steady
    | with_reducible apply State.log_steady | split

theorem State.recordGate_steady {r s : State} (h : Steady r s) (op : Op) (a : Nat) : Steady r (s.recordGate op a).2 := by
  unfold State.recordGate
  repeat' first
    | with_reducible assumption | with_reducible apply State.refuseRecord_steady | with_reducible apply State.wakeDown_steady
    | with_reducible apply State.wakeIdle_steady | split | dsimp only

theorem State.recordRow_steady {r s : State} (h : Steady r s) (op : Op) (x2 : RowReq) : Steady r (s.recordRow op x2).2 := by
  unfold State.recordRow
  repeat' first
    | with_reducible assumption | with_reducible apply State.place_steady | with_reducible apply rowAccess_steady

theorem State.writeRecordRow_steady {r s : State} (h : Steady r s) (x1 : Ctx) (a k : Nat) : Steady r (s.writeRecordRow x1 a k).2 := by
  unfold State.writeRecordRow
  repeat' first
    | with_reducible assumption | with_reducible apply State.recordRow_steady

theorem State.readRecordRow_steady {r s : State} (h : Steady r s) (a k : Nat) : Steady r (s.readRecordRow a k).2.2 := by
  unfold State.readRecordRow
  repeat' first
    | with_reducible assumption | with_reducible apply State.recordRow_steady

theorem execContextSaveComplete_steady {r s : State} (h : Steady r s) : Keeps r (execContextSaveComplete s) := by
  unfold execContextSaveComplete
  repeat' first
    | with_reducible assumption | with_reducible apply State.endCtx_steady | with_reducible apply State.recordGate_steady
    | with_reducible apply State.invalidSlot_steady | with_reducible apply State.writeRecordRow_steady
    | with_reducible apply Keeps.next | split | dsimp only | with_reducible refine Steady.snd (by assumption) ?_

theorem execContextRestoreLoad_steady {r s : State} (h : Steady r s) : Keeps r (execContextRestoreLoad s) := by
  unfold execContextRestoreLoad
  repeat' first
    | with_reducible assumption | with_reducible apply State.endCtx_steady | with_reducible apply State.recordGate_steady
    | with_reducible apply State.readRecordRow_steady | with_reducible apply State.loadCtx_steady
    | with_reducible apply Keeps.next | split | dsimp only | with_reducible refine Steady.snd (by assumption) ?_

theorem reelCfgSet_steady {r s : State} (h : Steady r s) (c : Ctl) (e : Nat) (v : BitVec 64) : Steady r (reelCfgSet c e v s) := by
  unfold reelCfgSet
  repeat' first
    | with_reducible assumption | refine fun (s : State) (hs : Steady r s) => ?_ | with_reducible apply State.privOnly_steady
    | with_reducible apply State.unless0_steady | with_reducible apply State.unless_steady
    | with_reducible apply State.done_steady | with_reducible apply State.modReel_steady

theorem reelBaseSet_steady {r s : State} (h : Steady r s) (c : Ctl) (e : Nat) (v : BitVec 64) : Steady r (reelBaseSet c e v s) := by
  unfold reelBaseSet
  repeat' first
    | with_reducible assumption | refine fun (s : State) (hs : Steady r s) => ?_ | with_reducible apply State.privOnly_steady
    | with_reducible apply State.unless0_steady | with_reducible apply State.unless_steady
    | with_reducible apply State.done_steady | with_reducible apply State.modReel_steady

theorem State.refuseReel_steady {r s : State} (h : Steady r s) (c : Ctl) (e detail : Nat) : Steady r (s.refuseReel c e detail) := by
  unfold State.refuseReel
  repeat' first
    | with_reducible assumption | with_reducible apply State.deny_steady | with_reducible apply State.modReel_steady

theorem State.movePointer_steady {r s : State} (h : Steady r s) (c : Ctl) (e : Nat) (named : BitVec 8) (fails : Reel → List Bool) (store : Reel → Reel) :
    Steady r (s.movePointer c e named fails store) := by
  unfold State.movePointer
  repeat' first
    | with_reducible assumption | refine fun (s : State) (hs : Steady r s) => ?_ | with_reducible apply State.nack_steady
    | with_reducible apply State.unless0_steady | with_reducible apply State.done_steady
    | with_reducible apply State.modReel_steady | with_reducible apply State.refuseReel_steady | split

theorem reelTailSet_steady {r s : State} (h : Steady r s) (c : Ctl) (e : Nat) (v : BitVec 64) : Steady r (reelTailSet c e v s) := by
  unfold reelTailSet
  repeat' first
    | with_reducible assumption | with_reducible apply State.movePointer_steady

theorem reelHeadSet_steady {r s : State} (h : Steady r s) (c : Ctl) (e : Nat) (v : BitVec 64) : Steady r (reelHeadSet c e v s) := by
  unfold reelHeadSet
  repeat' first
    | with_reducible assumption | with_reducible apply State.movePointer_steady

end Sys2Proof.Machine
end

