-- ==== Sys2Proof/Laws/SteadyRegs.lean ====
section
/-!
SUPPORT. What the operations of `Regs` keep (`Steady`), one lemma per operation.
-/
namespace Sys2Proof.Machine

-- One theorem after another: elaborated side by side, these theorems would each hold a thread and its stack.
set_option Elab.async false
set_option linter.all false

theorem State.clears_steady {r s : State} (h : Steady r s) (c : Ctl) (v : BitVec 64) (i : Nat) (f : State → State) (hf : ∀ s, Steady r s → Steady r (f s)) :
    Steady r (s.clears c v i f) := by
  unfold State.clears
  repeat' first
    | with_reducible assumption | with_reducible apply State.done_steady | with_reducible apply hf | split

theorem pageWrite_steady {r s : State} (h : Steady r s) (c : Ctl) (x1 : Reg) (v : BitVec 64) : Steady r (pageWrite c x1 v s) := by
  unfold pageWrite
  repeat' first
    | with_reducible assumption | refine fun (s : State) (hs : Steady r s) => ?_ | with_reducible apply lkOwnerSet_steady
    | with_reducible apply lkShareSet_steady | with_reducible apply shoreCfgSet_steady | with_reducible apply arbCfgSet_steady
    | with_reducible apply slateOpSet_steady | with_reducible apply State.clears_steady
    | with_reducible apply State.modLake_steady | with_reducible apply slateQuerySet_steady
    | with_reducible apply msoCtlSet_steady | with_reducible apply msoStatSet_steady | with_reducible apply srSeedSet_steady
    | with_reducible apply protSet_steady | with_reducible apply scrubSet_steady | with_reducible apply eccInjSet_steady
    | with_reducible apply billSet_steady | with_reducible apply sprReelSet_steady | with_reducible apply sprCtlSet_steady
    | with_reducible apply sprCutSet_steady | with_reducible apply State.modSpring_steady | with_reducible apply marchSet_steady
    | with_reducible apply State.modMte_steady | with_reducible apply pondSelSet_steady | with_reducible apply State.done_steady
    | split

theorem tableWrite_steady {r s : State} (h : Steady r s) (c : Ctl) (x1 : Reg) (v : BitVec 64) : Steady r (tableWrite c x1 v s) := by
  unfold tableWrite
  repeat' first
    | with_reducible assumption | with_reducible apply cueCfgSet_steady | with_reducible apply cueCountSet_steady
    | with_reducible apply cueSignalWrite_steady | with_reducible apply cueWaitWrite_steady
    | with_reducible apply winOwnerSet_steady | with_reducible apply winConfigSet_steady | with_reducible apply winCtlSet_steady
    | with_reducible apply reelBaseSet_steady | with_reducible apply reelCfgSet_steady | with_reducible apply reelTailSet_steady
    | with_reducible apply reelHeadSet_steady | with_reducible apply pageWrite_steady | split

theorem regWrite_steady {r s : State} (h : Steady r s) (c : Ctl) (x1 : Reg) (v : BitVec 64) : Steady r (regWrite c x1 v s) := by
  unfold regWrite
  repeat' first
    | with_reducible assumption | refine fun (s : State) (hs : Steady r s) => ?_ | with_reducible apply epIdSet_steady
    | with_reducible apply resetSet_steady | with_reducible apply lakeResetSet_steady | with_reducible apply State.clears_steady
    | with_reducible apply ctxSelSet_steady | with_reducible apply ctxSaveSet_steady | with_reducible apply ctxRestoreSet_steady
    | with_reducible apply taskAbortSet_steady | with_reducible apply kernelEndSet_steady | with_reducible apply preemptSet_steady
    | with_reducible apply liveSet_steady | with_reducible apply basinInvSet_steady | with_reducible apply basinLenSet_steady
    | with_reducible apply levelReqSet_steady | with_reducible apply lakePowerSet_steady | with_reducible apply pwrWakeSet_steady
    | with_reducible apply deepSet_steady | with_reducible apply ftimeSet_steady | with_reducible apply labelMapSet_steady
    | with_reducible apply clsDlSet_steady | with_reducible apply qshareSet_steady | with_reducible apply waysSet_steady
    | with_reducible apply srcLabelSet_steady | with_reducible apply pcapSet_steady | with_reducible apply arbCfgSet_steady
    | with_reducible apply errCtlSet_steady | with_reducible apply errStatSet_steady | with_reducible apply errTailSet_steady
    | with_reducible apply dlyCtlSet_steady | with_reducible apply State.cntWrite_steady
    | with_reducible apply cntGlobalSet_steady | with_reducible apply cntCfgSet_steady | with_reducible apply cntValSet_steady
    | with_reducible apply tableWrite_steady | (simp only [Steady.mk_iff]; with_reducible refine SteadyF.of ?_ _ _) | split

theorem write4_steady {r s : State} (h : Steady r s) (c : Ctl) (o v : Nat) : Steady r (write4 c o v s) := by
  unfold write4
  repeat' first
    | with_reducible assumption | with_reducible apply regWrite_steady | with_reducible apply State.done_steady | split

theorem State.both_steady {r s : State} (h : Steady r s) (c : Ctl) (lo hi : State → State) (hlo : ∀ s, Steady r s → Steady r (lo s)) (hhi : ∀ s, Steady r s → Steady r (hi s)) :
    Steady r (s.both c lo hi) := by
  unfold State.both
  repeat' first
    | with_reducible assumption | with_reducible apply State.reply_steady | with_reducible apply hlo | with_reducible apply hhi
    | (simp only [Steady.mk_iff]; with_reducible refine SteadyF.of ?_ _ _) | split | dsimp only

theorem ctlWrite_steady {r s : State} (h : Steady r s) (c : Ctl) (size : Nat) (v : BitVec 64) : Steady r (ctlWrite c size v s) := by
  unfold ctlWrite
  repeat' first
    | with_reducible assumption | refine fun (s : State) (hs : Steady r s) => ?_ | with_reducible apply regWrite_steady
    | with_reducible apply write4_steady | with_reducible apply State.both_steady | split

theorem ctlAccessBy_steady {r s : State} (h : Steady r s) (w : Who) (src : Src) (off size : Nat) (v : Option (BitVec 64)) :
    Steady r (ctlAccessBy w src off size v s) := by
  unfold ctlAccessBy
  repeat' first
    | with_reducible assumption | with_reducible apply State.holdDeep_steady | with_reducible apply State.claim_steady
    | with_reducible apply State.reject_steady | with_reducible apply State.reply_steady
    | with_reducible apply State.answerRead_steady | with_reducible apply ctlWrite_steady
    | (simp only [Steady.mk_iff]; with_reducible refine SteadyF.of ?_ _ _) | split | dsimp only

theorem ctlAccess_steady {r s : State} (h : Steady r s) (src : Src) (off size : Nat) (v : Option (BitVec 64)) :
    Steady r (ctlAccess src off size v s) := by
  unfold ctlAccess
  repeat' first
    | with_reducible assumption | with_reducible apply ctlAccessBy_steady

theorem State.ctlAgain_steady {r s : State} (h : Steady r s) (w : Who) (src : Src) (off size : Nat) (v : Option (BitVec 64)) :
    Steady r (s.ctlAgain w src off size v) := by
  unfold State.ctlAgain
  repeat' first
    | with_reducible assumption | with_reducible apply ctlAccessBy_steady | with_reducible apply State.deadlines_steady | split
    | dsimp only

theorem State.heldAgain_steady {r s : State} (h : Steady r s) (x1 : Held) : Steady r (s.heldAgain x1) := by
  unfold State.heldAgain
  repeat' first
    | with_reducible assumption | with_reducible apply State.ctlAgain_steady | split

theorem execCueSignalSend_steady {r s : State} (h : Steady r s) (id : Nat) : Keeps r (execCueSignalSend id s) := by
  unfold execCueSignalSend
  repeat' first
    | with_reducible assumption | with_reducible apply State.heldAgain_steady | with_reducible apply State.sendSignal_steady
    | with_reducible apply Keeps.next | with_reducible refine Steady.foldl _ (fun s x hs => ?_) _ _ ?_ | split

theorem ctlCommand_steady {r s : State} (h : Steady r s) (src : Src) (off size : Nat) (v : BitVec 64) :
    Keeps r (ctlCommand src off size v s) := by
  unfold ctlCommand
  repeat' first
    | with_reducible assumption | with_reducible apply ctlAccess_steady | with_reducible apply Keeps.next

theorem execRegisterWrite_steady {r s : State} (h : Steady r s) (src : Src) (off size : Nat) (v : BitVec 64) :
    Keeps r (execRegisterWrite src off size v s) := by
  unfold execRegisterWrite
  repeat' first
    | with_reducible assumption | with_reducible apply ctlCommand_steady

theorem execEpIdWrite_steady {r s : State} (h : Steady r s) (src : Src) (v : BitVec 32) : Keeps r (execEpIdWrite src v s) := by
  unfold execEpIdWrite
  repeat' first
    | with_reducible assumption | with_reducible apply ctlCommand_steady

theorem execScrubConfigWrite_steady {r s : State} (h : Steady r s) (src : Src) (n : Fin 24) (v : BitVec 32) :
    Keeps r (execScrubConfigWrite src n v s) := by
  unfold execScrubConfigWrite
  repeat' first
    | with_reducible assumption | with_reducible apply ctlCommand_steady

theorem execShoreCfgWrite_steady {r s : State} (h : Steady r s) (src : Src) (n : Fin 24) (v : BitVec 32) :
    Keeps r (execShoreCfgWrite src n v s) := by
  unfold execShoreCfgWrite
  repeat' first
    | with_reducible assumption | with_reducible apply ctlCommand_steady

theorem execArbConfigWrite_steady {r s : State} (h : Steady r s) (src : Src) (a : ArbSet) (which : Fin 3) (v : BitVec 32) :
    Keeps r (execArbConfigWrite src a which v s) := by
  unfold execArbConfigWrite
  repeat' first
    | with_reducible assumption | with_reducible apply ctlCommand_steady

theorem execQshareWrite_steady {r s : State} (h : Steady r s) (src : Src) (which : Fin 5) (v : BitVec 32) :
    Keeps r (execQshareWrite src which v s) := by
  unfold execQshareWrite
  repeat' first
    | with_reducible assumption | with_reducible apply ctlCommand_steady

theorem execPcapWrite_steady {r s : State} (h : Steady r s) (src : Src) (v : BitVec 32) : Keeps r (execPcapWrite src v s) := by
  unfold execPcapWrite
  repeat' first
    | with_reducible assumption | with_reducible apply ctlCommand_steady

theorem execHandover_steady {r s : State} (h : Steady r s) (src : Src) (n : Fin 24) (v : BitVec 32) :
    Keeps r (execHandover src n v s) := by
  unfold execHandover
  repeat' first
    | with_reducible assumption | with_reducible apply ctlCommand_steady

theorem execCtxSelWrite_steady {r s : State} (h : Steady r s) (src : Src) (v : BitVec 32) : Keeps r (execCtxSelWrite src v s) := by
  unfold execCtxSelWrite
  repeat' first
    | with_reducible assumption | with_reducible apply ctlCommand_steady

theorem execLiveViewValidWrite_steady {r s : State} (h : Steady r s) (src : Src) (v : BitVec 64) :
    Keeps r (execLiveViewValidWrite src v s) := by
  unfold execLiveViewValidWrite
  repeat' first
    | with_reducible assumption | with_reducible apply ctlCommand_steady

theorem execContextSave_steady {r s : State} (h : Steady r s) (src : Src) (v : BitVec 64) : Keeps r (execContextSave src v s) := by
  unfold execContextSave
  repeat' first
    | with_reducible assumption | with_reducible apply ctlCommand_steady

theorem execContextRestore_steady {r s : State} (h : Steady r s) (src : Src) (v : BitVec 64) :
    Keeps r (execContextRestore src v s) := by
  unfold execContextRestore
  repeat' first
    | with_reducible assumption | with_reducible apply ctlCommand_steady

theorem execReelCfgWrite_steady {r s : State} (h : Steady r s) (src : Src) (e : Fin 64) (v : BitVec 32) :
    Keeps r (execReelCfgWrite src e v s) := by
  unfold execReelCfgWrite
  repeat' first
    | with_reducible assumption | with_reducible apply ctlCommand_steady

theorem execReelBaseWrite_steady {r s : State} (h : Steady r s) (src : Src) (e : Fin 64) (v : BitVec 64) :
    Keeps r (execReelBaseWrite src e v s) := by
  unfold execReelBaseWrite
  repeat' first
    | with_reducible assumption | with_reducible apply ctlCommand_steady

theorem execReelTailWrite_steady {r s : State} (h : Steady r s) (src : Src) (e : Fin 64) (v : BitVec 32) :
    Keeps r (execReelTailWrite src e v s) := by
  unfold execReelTailWrite
  repeat' first
    | with_reducible assumption | with_reducible apply ctlCommand_steady

theorem execReelHeadWrite_steady {r s : State} (h : Steady r s) (src : Src) (e : Fin 64) (v : BitVec 32) :
    Keeps r (execReelHeadWrite src e v s) := by
  unfold execReelHeadWrite
  repeat' first
    | with_reducible assumption | with_reducible apply ctlCommand_steady

theorem execSrSeedWrite_steady {r s : State} (h : Steady r s) (src : Src) (n : Fin 24) (v : BitVec 64) :
    Keeps r (execSrSeedWrite src n v s) := by
  unfold execSrSeedWrite
  repeat' first
    | with_reducible assumption | with_reducible apply ctlCommand_steady

theorem execSprReelBind_steady {r s : State} (h : Steady r s) (src : Src) (n : Fin 24) (reel : Fin 64) :
    Keeps r (execSprReelBind src n reel s) := by
  unfold execSprReelBind
  repeat' first
    | with_reducible assumption | with_reducible apply ctlCommand_steady

theorem execSprReelUnbind_steady {r s : State} (h : Steady r s) (src : Src) (n : Fin 24) : Keeps r (execSprReelUnbind src n s) := by
  unfold execSprReelUnbind
  repeat' first
    | with_reducible assumption | with_reducible apply ctlCommand_steady

theorem execSprCut_steady {r s : State} (h : Steady r s) (src : Src) (n : Fin 24) (v : BitVec 32) :
    Keeps r (execSprCut src n v s) := by
  unfold execSprCut
  repeat' first
    | with_reducible assumption | with_reducible apply ctlCommand_steady

theorem execTaskAbort_steady {r s : State} (h : Steady r s) (src : Src) (v : BitVec 32) : Keeps r (execTaskAbort src v s) := by
  unfold execTaskAbort
  repeat' first
    | with_reducible assumption | with_reducible apply ctlCommand_steady

theorem execBasinInvAll_steady {r s : State} (h : Steady r s) (src : Src) (v : BitVec 64) : Keeps r (execBasinInvAll src v s) := by
  unfold execBasinInvAll
  repeat' first
    | with_reducible assumption | with_reducible apply ctlCommand_steady

theorem execBasinInvRange_steady {r s : State} (h : Steady r s) (src : Src) (v : BitVec 64) : Keeps r (execBasinInvRange src v s) := by
  unfold execBasinInvRange
  repeat' first
    | with_reducible assumption | with_reducible apply ctlCommand_steady

theorem execSlateOp_steady {r s : State} (h : Steady r s) (src : Src) (n : Fin 24) (v : BitVec 64) :
    Keeps r (execSlateOp src n v s) := by
  unfold execSlateOp
  repeat' first
    | with_reducible assumption | with_reducible apply ctlCommand_steady

theorem execCueSignal_steady {r s : State} (h : Steady r s) (src : Src) (c : Fin 4096) (v : BitVec 64) :
    Keeps r (execCueSignal src c v s) := by
  unfold execCueSignal
  repeat' first
    | with_reducible assumption | with_reducible apply ctlCommand_steady

theorem execCueWait_steady {r s : State} (h : Steady r s) (src : Src) (c : Fin 4096) (v : BitVec 64) :
    Keeps r (execCueWait src c v s) := by
  unfold execCueWait
  repeat' first
    | with_reducible assumption | with_reducible apply ctlCommand_steady

theorem execCueCountWrite_steady {r s : State} (h : Steady r s) (src : Src) (c : Fin 4096) (v : BitVec 64) :
    Keeps r (execCueCountWrite src c v s) := by
  unfold execCueCountWrite
  repeat' first
    | with_reducible assumption | with_reducible apply ctlCommand_steady

theorem execCueCfgWrite_steady {r s : State} (h : Steady r s) (src : Src) (c : Fin 4096) (v : BitVec 64) :
    Keeps r (execCueCfgWrite src c v s) := by
  unfold execCueCfgWrite
  repeat' first
    | with_reducible assumption | with_reducible apply ctlCommand_steady

theorem execKernelEnd_steady {r s : State} (h : Steady r s) (src : Src) (v : BitVec 32) : Keeps r (execKernelEnd src v s) := by
  unfold execKernelEnd
  repeat' first
    | with_reducible assumption | with_reducible apply ctlCommand_steady

theorem execWinOwnerWrite_steady {r s : State} (h : Steady r s) (src : Src) (w : Fin 256) (v : BitVec 32) :
    Keeps r (execWinOwnerWrite src w v s) := by
  unfold execWinOwnerWrite
  repeat' first
    | with_reducible assumption | with_reducible apply ctlCommand_steady

theorem execWinConfigWrite_steady {r s : State} (h : Steady r s) (src : Src) (w : Fin 256) (which : Fin 3) (v : BitVec 64) :
    Keeps r (execWinConfigWrite src w which v s) := by
  unfold execWinConfigWrite
  repeat' first
    | with_reducible assumption | with_reducible apply ctlCommand_steady

theorem execWinOpen_steady {r s : State} (h : Steady r s) (src : Src) (w : Fin 256) : Keeps r (execWinOpen src w s) := by
  unfold execWinOpen
  repeat' first
    | with_reducible assumption | with_reducible apply ctlCommand_steady

theorem execWinClose_steady {r s : State} (h : Steady r s) (src : Src) (w : Fin 256) : Keeps r (execWinClose src w s) := by
  unfold execWinClose
  repeat' first
    | with_reducible assumption | with_reducible apply ctlCommand_steady

theorem execWinRelease_steady {r s : State} (h : Steady r s) (src : Src) (w : Fin 256) : Keeps r (execWinRelease src w s) := by
  unfold execWinRelease
  repeat' first
    | with_reducible assumption | with_reducible apply ctlCommand_steady

theorem execPreempt_steady {r s : State} (h : Steady r s) (src : Src) (v : BitVec 64) : Keeps r (execPreempt src v s) := by
  unfold execPreempt
  repeat' first
    | with_reducible assumption | with_reducible apply ctlCommand_steady

theorem execProtModeChange_steady {r s : State} (h : Steady r s) (src : Src) (n : Fin 24) (v : BitVec 32) :
    Keeps r (execProtModeChange src n v s) := by
  unfold execProtModeChange
  repeat' first
    | with_reducible assumption | with_reducible apply ctlCommand_steady

theorem execErrTailWrite_steady {r s : State} (h : Steady r s) (src : Src) (v : BitVec 32) : Keeps r (execErrTailWrite src v s) := by
  unfold execErrTailWrite
  repeat' first
    | with_reducible assumption | with_reducible apply ctlCommand_steady

theorem execErrStatClear_steady {r s : State} (h : Steady r s) (src : Src) (v : BitVec 32) : Keeps r (execErrStatClear src v s) := by
  unfold execErrStatClear
  repeat' first
    | with_reducible assumption | with_reducible apply ctlCommand_steady

theorem execEccInjectArm_steady {r s : State} (h : Steady r s) (src : Src) (n : Fin 24) (v : BitVec 64) :
    Keeps r (execEccInjectArm src n v s) := by
  unfold execEccInjectArm
  repeat' first
    | with_reducible assumption | with_reducible apply ctlCommand_steady

theorem execLevelReqWrite_steady {r s : State} (h : Steady r s) (src : Src) (v : BitVec 32) : Keeps r (execLevelReqWrite src v s) := by
  unfold execLevelReqWrite
  repeat' first
    | with_reducible assumption | with_reducible apply ctlCommand_steady

theorem execLakeStateReq_steady {r s : State} (h : Steady r s) (src : Src) (n : Fin 24) (v : BitVec 32) :
    Keeps r (execLakeStateReq src n v s) := by
  unfold execLakeStateReq
  repeat' first
    | with_reducible assumption | with_reducible apply ctlCommand_steady

theorem execPwrWakeWrite_steady {r s : State} (h : Steady r s) (src : Src) (v : BitVec 32) : Keeps r (execPwrWakeWrite src v s) := by
  unfold execPwrWakeWrite
  repeat' first
    | with_reducible assumption | with_reducible apply ctlCommand_steady

theorem execDeepEnter_steady {r s : State} (h : Steady r s) (src : Src) (v : BitVec 32) : Keeps r (execDeepEnter src v s) := by
  unfold execDeepEnter
  repeat' first
    | with_reducible assumption | with_reducible apply ctlCommand_steady

theorem execWarmResetWrite_steady {r s : State} (h : Steady r s) (src : Src) (v : BitVec 32) :
    Keeps r (execWarmResetWrite src v s) := by
  unfold execWarmResetWrite
  repeat' first
    | with_reducible assumption | with_reducible apply ctlCommand_steady

theorem execLakeReset_steady {r s : State} (h : Steady r s) (src : Src) (v : BitVec 32) : Keeps r (execLakeReset src v s) := by
  unfold execLakeReset
  repeat' first
    | with_reducible assumption | with_reducible apply ctlCommand_steady

theorem execMarchStart_steady {r s : State} (h : Steady r s) (src : Src) (n : Fin 24) (v : BitVec 32) :
    Keeps r (execMarchStart src n v s) := by
  unfold execMarchStart
  repeat' first
    | with_reducible assumption | with_reducible apply ctlCommand_steady

theorem execCntCfgWrite_steady {r s : State} (h : Steady r s) (src : Src) (entry : Nat) (v : BitVec 32) :
    Keeps r (execCntCfgWrite src entry v s) := by
  unfold execCntCfgWrite
  repeat' first
    | with_reducible assumption | with_reducible apply ctlCommand_steady

theorem execCntValWrite_steady {r s : State} (h : Steady r s) (src : Src) (entry : Nat) (v : BitVec 64) :
    Keeps r (execCntValWrite src entry v s) := by
  unfold execCntValWrite
  repeat' first
    | with_reducible assumption | with_reducible apply ctlCommand_steady

theorem execDailiesSnapshot_steady {r s : State} (h : Steady r s) (src : Src) (v : BitVec 32) :
    Keeps r (execDailiesSnapshot src v s) := by
  unfold execDailiesSnapshot
  repeat' first
    | with_reducible assumption | with_reducible apply ctlCommand_steady

end Sys2Proof.Machine
end

