-- ==== Sys2Proof/Laws/SteadyStorage.lean ====
section
/-!
SUPPORT. What the operations of `Storage` keep (`Steady`), one lemma per operation.
-/
namespace Sys2Proof.Machine

-- One theorem after another: elaborated side by side, these theorems would each hold a thread and its stack.
set_option Elab.async false
set_option linter.all false

theorem State.sendAway_steady {r s : State} (h : Steady r s) (w : Who) (op : Op) (q : Req) (data : List Word) (sibling : Bool) (pos : Nat) :
    Steady r (s.sendAway w op q data sibling pos) := by
  unfold State.sendAway
  repeat' first
    | with_reducible assumption | with_reducible apply State.claim_steady | with_reducible apply State.emit_steady
    | (simp only [Steady.mk_iff]; with_reducible refine SteadyF.of ?_ _ _)

theorem State.toControl_steady {r s : State} (h : Steady r s) (w : Who) (op : Op) (q : Req) (data : List Word) (off : Nat) :
    Steady r (s.toControl w op q data off) := by
  unfold State.toControl
  repeat' first
    | with_reducible assumption | with_reducible apply ctlAccessBy_steady | with_reducible apply State.respond_steady
    | with_reducible apply State.log_steady | split

theorem State.dispatch_steady {r s : State} (h : Steady r s) (w : Who) (op : Op) (q : Req) (data : List Word) :
    Steady r (s.dispatch w op q data) := by
  unfold State.dispatch
  repeat' first
    | with_reducible assumption | with_reducible apply State.refuse_steady | with_reducible apply State.refuseAt_steady
    | with_reducible apply State.sendAway_steady | with_reducible apply State.toControl_steady
    | with_reducible apply State.atLake_steady | split | dsimp only

theorem presentBy_steady {r s : State} (h : Steady r s) (w : Who) (op : Op) (q : Req) (data : List Word) :
    Steady r (presentBy w op q data s) := by
  unfold presentBy
  repeat' first
    | with_reducible assumption | with_reducible apply State.holdDeep_steady | with_reducible apply State.claim_steady
    | with_reducible apply State.refuse_steady | with_reducible apply State.dispatch_steady | split

theorem present_steady {r s : State} (h : Steady r s) (op : Op) (q : Req) (data : List Word) : Steady r (present op q data s) := by
  unfold present
  repeat' first
    | with_reducible assumption | with_reducible apply presentBy_steady

theorem State.replay_steady {r s : State} (h : Steady r s) (x1 : Held) : Steady r (s.replay x1) := by
  unfold State.replay
  repeat' first
    | with_reducible assumption | with_reducible apply presentBy_steady | with_reducible apply State.atLake_steady
    | with_reducible apply State.ctlAgain_steady | with_reducible apply takePresentBy_steady | split

theorem State.replayAll_steady {r s : State} (h : Steady r s) : Steady r s.replayAll := by
  unfold State.replayAll
  repeat' first
    | with_reducible assumption | with_reducible apply State.replay_steady
    | with_reducible refine Steady.foldl _ (fun s x hs => ?_) _ _ ?_
    | (simp only [Steady.mk_iff]; with_reducible refine SteadyF.of ?_ _ _)

theorem execRead_steady {r s : State} (h : Steady r s) (q : Req) : Keeps r (execRead q s) := by
  unfold execRead
  repeat' first
    | with_reducible assumption | with_reducible apply present_steady | with_reducible apply Keeps.next

theorem execWrite_steady {r s : State} (h : Steady r s) (q : Req) (d : List Word) : Keeps r (execWrite q d s) := by
  unfold execWrite
  repeat' first
    | with_reducible assumption | with_reducible apply present_steady | with_reducible apply Keeps.next

theorem execPeek_steady {r s : State} (h : Steady r s) (q : Req) : Keeps r (execPeek q s) := by
  unfold execPeek
  repeat' first
    | with_reducible assumption | with_reducible apply present_steady | with_reducible apply Keeps.next

theorem execConsume_steady {r s : State} (h : Steady r s) (q : Req) : Keeps r (execConsume q s) := by
  unfold execConsume
  repeat' first
    | with_reducible assumption | with_reducible apply present_steady | with_reducible apply Keeps.next

theorem execProduce_steady {r s : State} (h : Steady r s) (q : Req) (d : List Word) : Keeps r (execProduce q d s) := by
  unfold execProduce
  repeat' first
    | with_reducible assumption | with_reducible apply present_steady | with_reducible apply Keeps.next

theorem execXread_steady {r s : State} (h : Steady r s) (q : Req) (ew : Fin 4) (stride : BitVec 16) :
    Keeps r (execXread q ew stride s) := by
  unfold execXread
  repeat' first
    | with_reducible assumption | with_reducible apply present_steady | with_reducible apply Keeps.next

theorem execGather_steady {r s : State} (h : Steady r s) (q : Req) (stride : BitVec 16) : Keeps r (execGather q stride s) := by
  unfold execGather
  repeat' first
    | with_reducible assumption | with_reducible apply present_steady | with_reducible apply Keeps.next

theorem execAdd_steady {r s : State} (h : Steady r s) (q : Req) (a : Atom) (d : List Word) : Keeps r (execAdd q a d s) := by
  unfold execAdd
  repeat' first
    | with_reducible assumption | with_reducible apply present_steady | with_reducible apply Keeps.next

theorem execAddWide_steady {r s : State} (h : Steady r s) (q : Req) (a : Atom) (d : List Word) : Keeps r (execAddWide q a d s) := by
  unfold execAddWide
  repeat' first
    | with_reducible assumption | with_reducible apply present_steady | with_reducible apply Keeps.next

theorem execMax_steady {r s : State} (h : Steady r s) (q : Req) (a : Atom) (d : List Word) : Keeps r (execMax q a d s) := by
  unfold execMax
  repeat' first
    | with_reducible assumption | with_reducible apply present_steady | with_reducible apply Keeps.next

theorem execMin_steady {r s : State} (h : Steady r s) (q : Req) (a : Atom) (d : List Word) : Keeps r (execMin q a d s) := by
  unfold execMin
  repeat' first
    | with_reducible assumption | with_reducible apply present_steady | with_reducible apply Keeps.next

theorem execSwap_steady {r s : State} (h : Steady r s) (q : Req) (ty : Fin 4) (elem : Fin 8) (d : Word) :
    Keeps r (execSwap q ty elem d s) := by
  unfold execSwap
  repeat' first
    | with_reducible assumption | with_reducible apply present_steady | with_reducible apply Keeps.next

theorem execCas_steady {r s : State} (h : Steady r s) (q : Req) (ty : Fin 4) (elem : Fin 8) (d : Word) :
    Keeps r (execCas q ty elem d s) := by
  unfold execCas
  repeat' first
    | with_reducible assumption | with_reducible apply present_steady | with_reducible apply Keeps.next

theorem execTakePeek_steady {r s : State} (h : Steady r s) (q : Req) : Keeps r (execTakePeek q s) := by
  unfold execTakePeek
  repeat' first
    | with_reducible assumption | with_reducible apply present_steady | with_reducible apply Keeps.next

theorem execTakeWrite_steady {r s : State} (h : Steady r s) (q : Req) (d : List Word) : Keeps r (execTakeWrite q d s) := by
  unfold execTakeWrite
  repeat' first
    | with_reducible assumption | with_reducible apply present_steady | with_reducible apply Keeps.next

theorem execArrivalRead_steady {r s : State} (h : Steady r s) (q : Req) (op : Op) : Keeps r (execArrivalRead q op s) := by
  unfold execArrivalRead
  repeat' first
    | with_reducible assumption | with_reducible apply present_steady | with_reducible apply Keeps.next

theorem execArrivalWrite_steady {r s : State} (h : Steady r s) (q : Req) (op : Op) (d : List Word) :
    Keeps r (execArrivalWrite q op d s) := by
  unfold execArrivalWrite
  repeat' first
    | with_reducible assumption | with_reducible apply present_steady | with_reducible apply Keeps.next

end Sys2Proof.Machine
end

