-- ==== Sys2Proof/Laws/SteadyHost.lean ====
section
/-!
SUPPORT. What the operations of `Host` keep (`Steady`), one lemma per operation.
-/
namespace Sys2Proof.Machine

-- One theorem after another: elaborated side by side, these theorems would each hold a thread and its stack.
set_option Elab.async false
set_option linter.all false

theorem State.sendTlp_steady {r s : State} (h : Steady r s) (t : HostTlp) : Steady r (s.sendTlp t) := by
  unfold State.sendTlp
  repeat' first
    | with_reducible assumption | with_reducible apply State.replay_steady
    | with_reducible refine Steady.foldl _ (fun s x hs => ?_) _ _ ?_

theorem State.takeTlp_steady {r s : State} (h : Steady r s) (t : HostTlp) : Steady r (s.takeTlp t) := by
  unfold State.takeTlp
  repeat' first
    | with_reducible assumption | with_reducible apply State.wakeDeep_steady | with_reducible apply State.sendTlp_steady
    | (simp only [Steady.mk_iff]; with_reducible refine SteadyF.of ?_ _ _) | split | dsimp only

theorem releaseTlps_steady {r s : State} (h : Steady r s) (x1 x2 : List HostTlp) : Steady r (releaseTlps s x1 x2) := by
  induction x2 generalizing s x1 with
  | nil => unfold releaseTlps; repeat' first
      | with_reducible assumption
      | refine fun (s : State) (hs : Steady r s) => ?_
      | with_reducible apply Keeps.next
      | with_reducible refine Steady.foldl _ (fun s x hs => ?_) _ _ ?_
      | (simp only [Steady.mk_iff]; with_reducible refine SteadyF.of ?_ _ _)
      | split
      | dsimp only
      | with_reducible refine Steady.snd (by assumption) ?_
      | with_reducible refine Steady.third (by assumption) ?_
  | cons a l ih =>
  unfold releaseTlps
  repeat' first
    | with_reducible assumption
    | refine fun (s : State) (hs : Steady r s) => ?_
    | with_reducible apply ih
    | with_reducible apply State.sendTlp_steady
    | with_reducible apply Keeps.next
    | with_reducible refine Steady.foldl _ (fun s x hs => ?_) _ _ ?_
    | (simp only [Steady.mk_iff]; with_reducible refine SteadyF.of ?_ _ _)
    | split
    | dsimp only
    | with_reducible refine Steady.snd (by assumption) ?_
    | with_reducible refine Steady.third (by assumption) ?_

theorem execHostPostedRelease_steady {r s : State} (h : Steady r s) : Keeps r (execHostPostedRelease s) := by
  unfold execHostPostedRelease
  repeat' first
    | with_reducible assumption | with_reducible apply releaseTlps_steady | with_reducible apply Keeps.next

theorem execHostRetryReissue_steady {r s : State} (h : Steady r s) (tag : Nat) : Keeps r (execHostRetryReissue tag s) := by
  unfold execHostRetryReissue
  repeat' first
    | with_reducible assumption | with_reducible apply State.replay_steady | with_reducible apply State.reach_steady
    | with_reducible apply Keeps.next | (simp only [Steady.mk_iff]; with_reducible refine SteadyF.of ?_ _ _) | split

theorem execHostReadTlp_steady {r s : State} (h : Steady r s) (t : Tlp) : Keeps r (execHostReadTlp t s) := by
  unfold execHostReadTlp
  repeat' first
    | with_reducible assumption | with_reducible apply State.takeTlp_steady | with_reducible apply Keeps.next
    | (simp only [Steady.mk_iff]; with_reducible refine SteadyF.of ?_ _ _) | split

theorem State.hostDiscard_steady {r s : State} (h : Steady r s) (np : Bool) (kind addr : Nat) :
    Steady r (s.hostDiscard np kind addr) := by
  unfold State.hostDiscard
  repeat' first
    | with_reducible assumption | with_reducible apply State.report_steady | split

theorem execHostWriteTlp_steady {r s : State} (h : Steady r s) (t : Tlp) (d : List (Option Byte)) :
    Keeps r (execHostWriteTlp t d s) := by
  unfold execHostWriteTlp
  repeat' first
    | with_reducible assumption | with_reducible apply State.takeTlp_steady | with_reducible apply State.hostDiscard_steady
    | with_reducible apply State.wakeDeep_steady | with_reducible apply Keeps.next | split | dsimp only

theorem State.atomicOp_steady {r s : State} (h : Steady r s) (t : Tlp) (wide : Bool) (op : Op) (operand : Nat) :
    Steady r (s.atomicOp t wide op operand) := by
  unfold State.atomicOp
  repeat' first
    | with_reducible assumption | with_reducible apply State.takeTlp_steady | split

theorem execAtomicopFetchadd_steady {r s : State} (h : Steady r s) (t : Tlp) (wide : Bool) (v : BitVec 64) :
    Keeps r (execAtomicopFetchadd t wide v s) := by
  unfold execAtomicopFetchadd
  repeat' first
    | with_reducible assumption | with_reducible apply State.atomicOp_steady | with_reducible apply Keeps.next

theorem execAtomicopSwap_steady {r s : State} (h : Steady r s) (t : Tlp) (wide : Bool) (v : BitVec 64) :
    Keeps r (execAtomicopSwap t wide v s) := by
  unfold execAtomicopSwap
  repeat' first
    | with_reducible assumption | with_reducible apply State.atomicOp_steady | with_reducible apply Keeps.next

theorem execAtomicopCas_steady {r s : State} (h : Steady r s) (t : Tlp) (size : Fin 3) (cmp swap : BitVec 64) :
    Keeps r (execAtomicopCas t size cmp swap s) := by
  unfold execAtomicopCas
  repeat' first
    | with_reducible assumption | with_reducible apply State.emit_steady | with_reducible apply State.hostDiscard_steady
    | with_reducible apply State.wakeDeep_steady | with_reducible apply State.atomicOp_steady | with_reducible apply Keeps.next
    | split

end Sys2Proof.Machine
end

