-- ==== Sys2Proof/Laws/SteadyResume.lean ====
section
/-!
SUPPORT. What the operations of `Resume` keep (`Steady`), one lemma per operation.
-/
namespace Sys2Proof.Machine

-- One theorem after another: elaborated side by side, these theorems would each hold a thread and its stack.
set_option Elab.async false
set_option linter.all false

theorem State.delayMarches_steady {r s : State} (h : Steady r s) (x1 : Nat) : Steady r (s.delayMarches x1) := by
  unfold State.delayMarches
  ·
    refine h.tabs rfl rfl rfl rfl fun c => ?_
    simp only [State.canonical, Bool.and_eq_true] at c ⊢
    simp only [c, Tab.wf_mapTab, and_self]

theorem State.resumeLake_steady {r s : State} (h : Steady r s) (n : Nat) : Steady r (s.resumeLake n) := by
  unfold State.resumeLake
  repeat' first
    | with_reducible assumption | with_reducible apply State.wakeLake_steady | with_reducible apply State.resumeSpring_steady
    | with_reducible apply State.wakeIdle_steady | split

theorem State.resumeService_steady {r s : State} (h : Steady r s) : Steady r s.resumeService := by
  unfold State.resumeService
  repeat' first
    | with_reducible assumption | with_reducible apply State.takeUp_steady | with_reducible apply State.resumeLake_steady
    | with_reducible apply State.replayAll_steady | with_reducible refine Steady.foldl _ (fun s x hs => ?_) _ _ ?_

theorem execDividerSwitchEnd_steady {r s : State} (h : Steady r s) : Keeps r (execDividerSwitchEnd s) := by
  unfold execDividerSwitchEnd
  repeat' first
    | with_reducible assumption | with_reducible apply State.delayMarches_steady | with_reducible apply State.resumeService_steady
    | with_reducible apply State.levelEvent_steady | with_reducible apply Keeps.next
    | (simp only [Steady.mk_iff]; with_reducible refine SteadyF.of ?_ _ _) | split

theorem execDrainAbandon_steady {r s : State} (h : Steady r s) : Keeps r (execDrainAbandon s) := by
  unfold execDrainAbandon
  repeat' first
    | with_reducible assumption | with_reducible apply State.reach_steady | with_reducible apply State.delayMarches_steady
    | with_reducible apply State.emit_steady | with_reducible apply State.log_steady
    | with_reducible apply State.resumeService_steady | with_reducible apply State.levelEvent_steady
    | with_reducible apply Keeps.next | (simp only [Steady.mk_iff]; with_reducible refine SteadyF.of ?_ _ _) | split

theorem State.backFromDeep_steady {r s : State} (h : Steady r s) (n : Nat) : Steady r (s.backFromDeep n) := by
  unfold State.backFromDeep
  repeat' first
    | with_reducible assumption | with_reducible apply State.modLake_steady | with_reducible apply State.modLp_steady
    | with_reducible apply State.staleRows_steady | split

theorem State.keepBills_steady {r s : State} (h : Steady r s) (old : State) : Steady r (State.keepBills s old) := by
  unfold State.keepBills
  exact Steady.foldl _ (fun _ _ hs => State.modLake_steady hs _ _) _ _ h

theorem execDeepExitEnd_steady {r s : State} (h : Steady r s) : Keeps r (execDeepExitEnd s) := by
  unfold execDeepExitEnd
  repeat' first
    | with_reducible assumption | with_reducible apply State.reachNs_steady | with_reducible apply State.keepBills_steady
    | with_reducible apply State.warmControl_steady | with_reducible apply State.backFromDeep_steady
    | with_reducible apply State.takeUp_steady | with_reducible apply State.replayAll_steady
    | with_reducible apply State.event_steady | with_reducible apply Keeps.next
    | with_reducible refine Steady.foldl _ (fun s x hs => ?_) _ _ ?_
    | (simp only [Steady.mk_iff]; with_reducible refine SteadyF.of ?_ _ _) | split

end Sys2Proof.Machine
end

