-- ==== Sys2Proof/Laws/SteadyMeter.lean ====
section
/-!
SUPPORT. What the operations of `Meter` keep (`Steady`), one lemma per operation.
-/
namespace Sys2Proof.Machine

-- One theorem after another: elaborated side by side, these theorems would each hold a thread and its stack.
set_option Elab.async false
set_option linter.all false

theorem State.withMeter_steady {r s : State} (h : Steady r s) (f : Meter → Meter) : Steady r (s.withMeter f) := by
  unfold State.withMeter
  repeat' first
    | with_reducible assumption | (simp only [Steady.mk_iff]; with_reducible refine SteadyF.of ?_ _ _)

theorem State.reachMeter_steady {r s : State} (h : Steady r s) (t : Nat) : Steady r (s.reachMeter t) := by
  unfold State.reachMeter
  repeat' first
    | with_reducible assumption | with_reducible apply State.reachNs_steady

theorem execMeterEnergySample_steady {r s : State} (h : Steady r s) (mv ma : List Nat) : Keeps r (execMeterEnergySample mv ma s) := by
  unfold execMeterEnergySample
  repeat' first
    | with_reducible assumption | with_reducible apply State.reachMeter_steady | with_reducible apply State.withMeter_steady
    | with_reducible apply Keeps.next | split

theorem execMeterSample_steady {r s : State} (h : Steady r s) : Keeps r (execMeterSample s) := by
  unfold execMeterSample
  repeat' first
    | with_reducible assumption | with_reducible apply State.reachMeter_steady | with_reducible apply State.withMeter_steady
    | with_reducible apply Keeps.next | split

theorem State.writeRecord_steady {r s : State} (h : Steady r s) (close : Bool) (time : Nat) : Steady r (s.writeRecord close time) := by
  unfold State.writeRecord
  repeat' first
    | with_reducible assumption | with_reducible apply State.withMeter_steady | with_reducible apply State.event_steady

theorem execTallyRecord_steady {r s : State} (h : Steady r s) : Keeps r (execTallyRecord s) := by
  unfold execTallyRecord
  repeat' first
    | with_reducible assumption | with_reducible apply State.writeRecord_steady | with_reducible apply State.reachMeter_steady
    | with_reducible apply State.withMeter_steady | with_reducible apply Keeps.next | split

theorem execMeterClose_steady {r s : State} (h : Steady r s) : Keeps r (execMeterClose s) := by
  unfold execMeterClose
  repeat' first
    | with_reducible assumption | with_reducible apply State.writeRecord_steady | with_reducible apply State.withMeter_steady
    | with_reducible apply Keeps.next | split

theorem execMeterPowerUp_steady {r s : State} (h : Steady r s) : Keeps r (execMeterPowerUp s) := by
  unfold execMeterPowerUp
  repeat' first
    | with_reducible assumption | with_reducible apply State.withMeter_steady | with_reducible apply Keeps.next

theorem execMonitorSelfTest_steady {r s : State} (h : Steady r s) (ok : Bool) : Keeps r (execMonitorSelfTest ok s) := by
  unfold execMonitorSelfTest
  repeat' first
    | with_reducible assumption | with_reducible apply State.withMeter_steady | with_reducible apply Keeps.next | split

theorem execTestPortAccess_steady {r s : State} (h : Steady r s) : Keeps r (execTestPortAccess s) := by
  unfold execTestPortAccess
  repeat' first
    | with_reducible assumption | with_reducible apply State.withMeter_steady | with_reducible apply Keeps.next

theorem execReferenceClockLoss_steady {r s : State} (h : Steady r s) : Keeps r (execReferenceClockLoss s) := by
  unfold execReferenceClockLoss
  repeat' first
    | with_reducible assumption | with_reducible apply State.withMeter_steady | with_reducible apply Keeps.next
    | (simp only [Steady.mk_iff]; with_reducible refine SteadyF.of ?_ _ _)

theorem execReferenceClockReturn_steady {r s : State} (h : Steady r s) : Keeps r (execReferenceClockReturn s) := by
  unfold execReferenceClockReturn
  repeat' first
    | with_reducible assumption | with_reducible apply State.withMeter_steady | with_reducible apply Keeps.next
    | (simp only [Steady.mk_iff]; with_reducible refine SteadyF.of ?_ _ _)

end Sys2Proof.Machine
end

