-- ==== Sys2Proof/Laws/SteadyFirmware.lean ====
section
/-!
SUPPORT. What the operations of `Firmware` keep (`Steady`), one lemma per operation.
-/
namespace Sys2Proof.Machine

-- One theorem after another: elaborated side by side, these theorems would each hold a thread and its stack.
set_option Elab.async false
set_option linter.all false

theorem State.withFw_steady {r s : State} (h : Steady r s) (f : Fw → Fw) : Steady r (s.withFw f) := by
  unfold State.withFw
  repeat' first
    | with_reducible assumption | (simp only [Steady.mk_iff]; with_reducible refine SteadyF.of ?_ _ _)

theorem State.fwEvent_steady {r s : State} (h : Steady r s) (ev version : Nat) : Steady r (s.fwEvent ev version) := by
  unfold State.fwEvent
  repeat' first
    | with_reducible assumption | with_reducible apply State.event_steady

theorem fwBeginOp_steady {r s : State} (h : Steady r s) (v : BitVec 32) : Steady r (fwBeginOp v s).2 := by
  unfold fwBeginOp
  repeat' first
    | with_reducible assumption | with_reducible apply State.withFw_steady | split

theorem State.chunkIn_steady {r s : State} (h : Steady r s) (i : Nat) (data : List Byte) : Steady r (s.chunkIn i data) := by
  unfold State.chunkIn
  repeat' first
    | with_reducible assumption | with_reducible apply State.withFw_steady | with_reducible apply State.fwEvent_steady | split
    | dsimp only

theorem fwChunkOp_steady {r s : State} (h : Steady r s) (bs : List Byte) : Steady r (fwChunkOp bs s).2 := by
  unfold fwChunkOp
  repeat' first
    | with_reducible assumption | with_reducible apply State.chunkIn_steady | split | dsimp only

theorem execFwVerify_steady {r s : State} (h : Steady r s) : Keeps r (execFwVerify s) := by
  unfold execFwVerify
  repeat' first
    | with_reducible assumption | with_reducible apply State.fwEvent_steady | with_reducible apply State.withFw_steady
    | with_reducible apply Keeps.next | split

theorem fwActivateOp_steady {r s : State} (h : Steady r s) (bs : List Byte) : Steady r (fwActivateOp bs s).2 := by
  unfold fwActivateOp
  repeat' first
    | with_reducible assumption | with_reducible apply State.withFw_steady | split | dsimp only

theorem execFwActivationFire_steady {r s : State} (h : Steady r s) : Keeps r (execFwActivationFire s) := by
  unfold execFwActivationFire
  repeat' first
    | with_reducible assumption | with_reducible apply State.withFw_steady | with_reducible apply State.reachNs_steady
    | with_reducible apply Keeps.next | split

theorem State.missActivation_steady {r s : State} (h : Steady r s) (reason : Nat) : Steady r (s.missActivation reason) := by
  unfold State.missActivation
  repeat' first
    | with_reducible assumption | with_reducible apply State.fwEvent_steady | with_reducible apply State.withFw_steady

theorem State.startImage_steady {r s : State} (h : Steady r s) : Steady r s.startImage := by
  unfold State.startImage
  repeat' first
    | with_reducible assumption | with_reducible apply State.withFw_steady | with_reducible apply State.fwEvent_steady | split
    | dsimp only

theorem execLoaderStart_steady {r s : State} (h : Steady r s) : Keeps r (execLoaderStart s) := by
  unfold execLoaderStart
  repeat' first
    | with_reducible assumption | with_reducible apply State.startImage_steady | with_reducible apply State.withFw_steady
    | with_reducible apply State.fwEvent_steady | with_reducible apply Keeps.next | split

theorem execImageStartTimeout_steady {r s : State} (h : Steady r s) : Keeps r (execImageStartTimeout s) := by
  unfold execImageStartTimeout
  repeat' first
    | with_reducible assumption | with_reducible apply State.withFw_steady | with_reducible apply State.reachNs_steady
    | with_reducible apply State.startImage_steady | with_reducible apply State.fwEvent_steady | with_reducible apply Keeps.next
    | split | dsimp only

theorem execFwConfirm_steady {r s : State} (h : Steady r s) : Keeps r (execFwConfirm s) := by
  unfold execFwConfirm
  repeat' first
    | with_reducible assumption | with_reducible apply State.reachNs_steady | with_reducible apply State.withFw_steady
    | with_reducible apply State.fwEvent_steady | with_reducible apply Keeps.next | split | dsimp only

theorem execTrialExpire_steady {r s : State} (h : Steady r s) : Keeps r (execTrialExpire s) := by
  unfold execTrialExpire
  repeat' first
    | with_reducible assumption | with_reducible apply State.withFw_steady | with_reducible apply State.reachNs_steady
    | with_reducible apply Keeps.next | split

theorem execSibStatusMsg_steady {r s : State} (h : Steady r s) (iface : BitVec 16) (trial : Bool) :
    Keeps r (execSibStatusMsg iface trial s) := by
  unfold execSibStatusMsg
  repeat' first
    | with_reducible assumption | with_reducible apply State.withFw_steady | with_reducible apply State.missActivation_steady
    | with_reducible apply Keeps.next | split

theorem execSibTimeout_steady {r s : State} (h : Steady r s) : Keeps r (execSibTimeout s) := by
  unfold execSibTimeout
  repeat' first
    | with_reducible assumption | with_reducible apply State.withFw_steady | with_reducible apply State.reachNs_steady
    | with_reducible apply Keeps.next | split

end Sys2Proof.Machine
end

