-- ==== Sys2Proof/Laws/SteadyDictionary.lean ====
section
/-!
SUPPORT. What the operations of `Dictionary` keep (`Steady`), one lemma per operation.
-/
namespace Sys2Proof.Machine

-- One theorem after another: elaborated side by side, these theorems would each hold a thread and its stack.
set_option Elab.async false
set_option linter.all false

theorem State.dictAccess_steady {r s : State} (h : Steady r s) (off size : Nat) (v : Option (BitVec 64)) :
    Steady r (s.dictAccess off size v).2 := by
  unfold State.dictAccess
  repeat' first
    | with_reducible assumption | with_reducible apply ctlAccess_steady
    | (simp only [Steady.mk_iff]; with_reducible refine SteadyF.of ?_ _ _)

theorem hwRead_steady {r s : State} (h : Steady r s) (x1 : HwReg) : Steady r (hwRead s x1).2 := by
  unfold hwRead
  repeat' first
    | with_reducible assumption | with_reducible apply State.dictAccess_steady

theorem hwWrite_steady {r s : State} (h : Steady r s) (x1 : HwReg) (v : Nat) : Steady r (hwWrite s x1 v).2 := by
  unfold hwWrite
  repeat' first
    | with_reducible assumption | with_reducible apply State.dictAccess_steady

theorem recordRead_steady {r s : State} (h : Steady r s) (x1 x2 : Nat) : Steady r (recordRead s x1 x2).2 := by
  induction x2 generalizing s x1 with
  | zero => exact h
  | succ k ih =>
  unfold recordRead
  repeat' first
    | with_reducible assumption
    | refine fun (s : State) (hs : Steady r s) => ?_
    | with_reducible apply ih
    | with_reducible apply State.dictAccess_steady
    | with_reducible apply Keeps.next
    | with_reducible refine Steady.foldl _ (fun s x hs => ?_) _ _ ?_
    | (simp only [Steady.mk_iff]; with_reducible refine SteadyF.of ?_ _ _)
    | split
    | dsimp only
    | with_reducible refine Steady.snd (by assumption) ?_
    | with_reducible refine Steady.third (by assumption) ?_

theorem entryRead_steady {r s : State} (h : Steady r s) (e : Entry) (i sub : Nat) : Steady r (entryRead s e i sub).2 := by
  unfold entryRead
  repeat' first
    | with_reducible assumption | with_reducible apply recordRead_steady | with_reducible apply hwRead_steady
    | (simp only [Steady.mk_iff]; with_reducible refine SteadyF.of ?_ _ _) | split | dsimp only

theorem applySetting_steady {r s : State} (h : Steady r s) (i sub v : Nat) : Steady r (applySetting s i sub v).2 := by
  unfold applySetting
  repeat' first
    | with_reducible assumption | with_reducible apply hwWrite_steady | with_reducible apply State.withFw_steady
    | (simp only [Steady.mk_iff]; with_reducible refine SteadyF.of ?_ _ _) | split
    | with_reducible refine Steady.snd (by assumption) ?_

theorem entryWrite_steady {r s : State} (h : Steady r s) (e : Entry) (i sub off : Nat) (d : List Byte) :
    Steady r (entryWrite s e i sub off d).2 := by
  unfold entryWrite
  repeat' first
    | with_reducible assumption | with_reducible apply fwBeginOp_steady | with_reducible apply fwChunkOp_steady
    | with_reducible apply fwActivateOp_steady | with_reducible apply applySetting_steady
    | with_reducible apply State.withFw_steady | with_reducible apply hwWrite_steady | split | dsimp only

theorem dictPerform_steady {r s : State} (h : Steady r s) (x1 : DictReq) : Steady r (dictPerform s x1).2 := by
  unfold dictPerform
  repeat' first
    | with_reducible assumption | with_reducible apply entryRead_steady | with_reducible apply entryWrite_steady | split

theorem State.serve_steady {r s : State} (h : Steady r s) (op : Nat) : Steady r (s.serve op) := by
  unfold State.serve
  repeat' first
    | with_reducible assumption | with_reducible apply dictPerform_steady
    | (simp only [Steady.mk_iff]; with_reducible refine SteadyF.of ?_ _ _) | split

theorem execDictRead_steady {r s : State} (h : Steady r s) : Keeps r (execDictRead s) := by
  unfold execDictRead
  repeat' first
    | with_reducible assumption | with_reducible apply State.serve_steady | with_reducible apply Keeps.next

theorem execDictWrite_steady {r s : State} (h : Steady r s) : Keeps r (execDictWrite s) := by
  unfold execDictWrite
  repeat' first
    | with_reducible assumption | with_reducible apply State.serve_steady | with_reducible apply Keeps.next

theorem execDictInfo_steady {r s : State} (h : Steady r s) : Keeps r (execDictInfo s) := by
  unfold execDictInfo
  repeat' first
    | with_reducible assumption | with_reducible apply State.serve_steady | with_reducible apply Keeps.next

theorem State.entryCommand_steady {r s : State} (h : Steady r s) (i : Nat) (d : List Byte) (mpriv : Bool) :
    Steady r (s.entryCommand i d mpriv) := by
  unfold State.entryCommand
  repeat' first
    | with_reducible assumption | with_reducible apply dictPerform_steady | with_reducible apply State.emit_steady | split
    | dsimp only

theorem execFwBegin_steady {r s : State} (h : Steady r s) (v : BitVec 32) (mpriv : Bool) : Keeps r (execFwBegin v mpriv s) := by
  unfold execFwBegin
  repeat' first
    | with_reducible assumption | with_reducible apply State.entryCommand_steady | with_reducible apply Keeps.next

theorem execFwChunk_steady {r s : State} (h : Steady r s) (bytes : List Byte) (mpriv : Bool) :
    Keeps r (execFwChunk bytes mpriv s) := by
  unfold execFwChunk
  repeat' first
    | with_reducible assumption | with_reducible apply State.entryCommand_steady | with_reducible apply Keeps.next

theorem execFwActivateSchedule_steady {r s : State} (h : Steady r s) (bytes : List Byte) (mpriv : Bool) :
    Keeps r (execFwActivateSchedule bytes mpriv s) := by
  unfold execFwActivateSchedule
  repeat' first
    | with_reducible assumption | with_reducible apply State.entryCommand_steady | with_reducible apply Keeps.next

theorem execFwActivateCancel_steady {r s : State} (h : Steady r s) (mpriv : Bool) : Keeps r (execFwActivateCancel mpriv s) := by
  unfold execFwActivateCancel
  repeat' first
    | with_reducible assumption | with_reducible apply State.entryCommand_steady | with_reducible apply Keeps.next

theorem execFwActivateRevert_steady {r s : State} (h : Steady r s) (mpriv : Bool) : Keeps r (execFwActivateRevert mpriv s) := by
  unfold execFwActivateRevert
  repeat' first
    | with_reducible assumption | with_reducible apply State.entryCommand_steady | with_reducible apply Keeps.next

theorem applyAll_steady {r s : State} (h : Steady r s) (x1 : Tab (Option Nat)) : Steady r (applyAll s x1).2 := by
  induction x1 generalizing s with
  | nil => exact h
  | cons a l ih =>
  obtain ⟨key, v⟩ := a
  cases v <;> unfold applyAll
  · exact ih h
  · exact ih (applySetting_steady h _ _ _)

theorem execSettingsApply_steady {r s : State} (h : Steady r s) : Keeps r (execSettingsApply s) := by
  unfold execSettingsApply
  repeat' first
    | with_reducible assumption | with_reducible apply State.withFw_steady | with_reducible apply applyAll_steady
    | with_reducible apply State.missActivation_steady | with_reducible apply Keeps.next | split

end Sys2Proof.Machine
end

