-- ==== Sys2Proof/Laws/SteadyI3c.lean ====
section
/-!
SUPPORT. What the operations of `I3c` keep (`Steady`), one lemma per operation.
-/
namespace Sys2Proof.Machine

-- One theorem after another: elaborated side by side, these theorems would each hold a thread and its stack.
set_option Elab.async false
set_option linter.all false

theorem State.withI3c_steady {r s : State} (h : Steady r s) (f : I3c → I3c) : Steady r (s.withI3c f) := by
  unfold State.withI3c
  repeat' first
    | with_reducible assumption | (simp only [Steady.mk_iff]; with_reducible refine SteadyF.of ?_ _ _)

theorem State.called_steady {r s : State} (h : Steady r s) (go : State → State) (hgo : ∀ s, Steady r s → Steady r (go s)) :
    Steady r (s.called go) := by
  unfold State.called
  repeat' first
    | with_reducible assumption | with_reducible apply State.emit_steady | with_reducible apply State.wakeDeep_steady
    | with_reducible apply hgo | split

theorem takeFrame_steady {r s : State} (h : Steady r s) (bs : List Byte) (parityOk mpriv : Bool) :
    Steady r (takeFrame bs parityOk mpriv s) := by
  unfold takeFrame
  repeat' first
    | with_reducible assumption | with_reducible apply State.withI3c_steady | with_reducible apply State.wakeDeep_steady | split
    | dsimp only

theorem execRequestFrame_steady {r s : State} (h : Steady r s) (bytes : List Byte) (parityOk mpriv : Bool) :
    Keeps r (execRequestFrame bytes parityOk mpriv s) := by
  unfold execRequestFrame
  repeat' first
    | with_reducible assumption | refine fun (s : State) (hs : Steady r s) => ?_ | with_reducible apply State.called_steady
    | with_reducible apply takeFrame_steady | with_reducible apply Keeps.next

theorem execDictResponseReady_steady {r s : State} (h : Steady r s) : Keeps r (execDictResponseReady s) := by
  unfold execDictResponseReady
  repeat' first
    | with_reducible assumption | with_reducible apply State.withI3c_steady | with_reducible apply Keeps.next | split

theorem execResponseFrameRead_steady {r s : State} (h : Steady r s) : Keeps r (execResponseFrameRead s) := by
  unfold execResponseFrameRead
  repeat' first
    | with_reducible assumption | refine fun (s : State) (hs : Steady r s) => ?_ | with_reducible apply State.called_steady
    | with_reducible apply State.emit_steady | with_reducible apply State.withI3c_steady | with_reducible apply Keeps.next

theorem State.heard_steady {r s : State} (h : Steady r s) (f : I3c → I3c) : Steady r (s.heard f) := by
  unfold State.heard
  repeat' first
    | with_reducible assumption | with_reducible apply State.withI3c_steady | split

theorem execEntdaa_steady {r s : State} (h : Steady r s) (addr : BitVec 7) : Keeps r (execEntdaa addr s) := by
  unfold execEntdaa
  repeat' first
    | with_reducible assumption | with_reducible apply State.emit_steady | with_reducible apply State.withI3c_steady
    | with_reducible apply Keeps.next | split

theorem execSetnewda_steady {r s : State} (h : Steady r s) (addr : BitVec 7) : Keeps r (execSetnewda addr s) := by
  unfold execSetnewda
  repeat' first
    | with_reducible assumption | refine fun (s : State) (hs : Steady r s) => ?_ | with_reducible apply State.called_steady
    | with_reducible apply State.withI3c_steady | with_reducible apply Keeps.next

theorem execRstdaa_steady {r s : State} (h : Steady r s) : Keeps r (execRstdaa s) := by
  unfold execRstdaa
  repeat' first
    | with_reducible assumption | with_reducible apply State.heard_steady | with_reducible apply Keeps.next

theorem execEnec_steady {r s : State} (h : Steady r s) (enint enhj : Bool) : Keeps r (execEnec enint enhj s) := by
  unfold execEnec
  repeat' first
    | with_reducible assumption | with_reducible apply State.heard_steady | with_reducible apply Keeps.next

theorem execDisec_steady {r s : State} (h : Steady r s) (disint dishj : Bool) : Keeps r (execDisec disint dishj s) := by
  unfold execDisec
  repeat' first
    | with_reducible assumption | with_reducible apply State.heard_steady | with_reducible apply Keeps.next

theorem execGetpid_steady {r s : State} (h : Steady r s) : Keeps r (execGetpid s) := by
  unfold execGetpid
  repeat' first
    | with_reducible assumption | refine fun (s : State) (hs : Steady r s) => ?_ | with_reducible apply State.called_steady
    | with_reducible apply State.emit_steady | with_reducible apply Keeps.next

theorem execGetbcr_steady {r s : State} (h : Steady r s) : Keeps r (execGetbcr s) := by
  unfold execGetbcr
  repeat' first
    | with_reducible assumption | refine fun (s : State) (hs : Steady r s) => ?_ | with_reducible apply State.called_steady
    | with_reducible apply State.emit_steady | with_reducible apply Keeps.next

theorem execGetdcr_steady {r s : State} (h : Steady r s) : Keeps r (execGetdcr s) := by
  unfold execGetdcr
  repeat' first
    | with_reducible assumption | refine fun (s : State) (hs : Steady r s) => ?_ | with_reducible apply State.called_steady
    | with_reducible apply State.emit_steady | with_reducible apply Keeps.next

theorem execGetstatus_steady {r s : State} (h : Steady r s) : Keeps r (execGetstatus s) := by
  unfold execGetstatus
  repeat' first
    | with_reducible assumption | refine fun (s : State) (hs : Steady r s) => ?_ | with_reducible apply State.called_steady
    | with_reducible apply State.emit_steady | with_reducible apply State.withI3c_steady | with_reducible apply Keeps.next

theorem execSetmwl_steady {r s : State} (h : Steady r s) (n : BitVec 16) : Keeps r (execSetmwl n s) := by
  unfold execSetmwl
  repeat' first
    | with_reducible assumption | with_reducible apply State.heard_steady | with_reducible apply Keeps.next

theorem execGetmwl_steady {r s : State} (h : Steady r s) : Keeps r (execGetmwl s) := by
  unfold execGetmwl
  repeat' first
    | with_reducible assumption | refine fun (s : State) (hs : Steady r s) => ?_ | with_reducible apply State.called_steady
    | with_reducible apply State.emit_steady | with_reducible apply Keeps.next

theorem execSetmrl_steady {r s : State} (h : Steady r s) (n : BitVec 16) : Keeps r (execSetmrl n s) := by
  unfold execSetmrl
  repeat' first
    | with_reducible assumption | with_reducible apply State.heard_steady | with_reducible apply Keeps.next

theorem execGetmrl_steady {r s : State} (h : Steady r s) : Keeps r (execGetmrl s) := by
  unfold execGetmrl
  repeat' first
    | with_reducible assumption | refine fun (s : State) (hs : Steady r s) => ?_ | with_reducible apply State.called_steady
    | with_reducible apply State.emit_steady | with_reducible apply Keeps.next

theorem execEntas_steady {r s : State} (h : Steady r s) (x0 : Fin 4) : Keeps r (execEntas x0 s) := by
  unfold execEntas
  repeat' first
    | with_reducible assumption | with_reducible apply Keeps.next

theorem execUnsupportedCcc_steady {r s : State} (h : Steady r s) (direct : Bool) : Keeps r (execUnsupportedCcc direct s) := by
  unfold execUnsupportedCcc
  repeat' first
    | with_reducible assumption | refine fun (s : State) (hs : Steady r s) => ?_ | with_reducible apply State.called_steady
    | with_reducible apply State.emit_steady | with_reducible apply Keeps.next | split

theorem execHdrEntry_steady {r s : State} (h : Steady r s) : Keeps r (execHdrEntry s) := by
  unfold execHdrEntry
  repeat' first
    | with_reducible assumption | with_reducible apply State.heard_steady | with_reducible apply Keeps.next

theorem execHdrExitPattern_steady {r s : State} (h : Steady r s) : Keeps r (execHdrExitPattern s) := by
  unfold execHdrExitPattern
  repeat' first
    | with_reducible assumption | with_reducible apply State.withI3c_steady | with_reducible apply Keeps.next

theorem execHotJoin_steady {r s : State} (h : Steady r s) : Keeps r (execHotJoin s) := by
  unfold execHotJoin
  repeat' first
    | with_reducible assumption | with_reducible apply State.reachNs_steady | with_reducible apply State.emit_steady
    | with_reducible apply State.withI3c_steady | with_reducible apply Keeps.next | split

theorem execIbiRaise_steady {r s : State} (h : Steady r s) (ack : Bool) : Keeps r (execIbiRaise ack s) := by
  unfold execIbiRaise
  repeat' first
    | with_reducible assumption | with_reducible apply State.emit_steady | with_reducible apply State.withI3c_steady
    | with_reducible apply Keeps.next | split

end Sys2Proof.Machine
end

