-- ==== Sys2Proof/WellFormed.lean ====
section
/-!
DEFINITION. When a command's operands are ones that the outside can present: word counts of 1 to 8 (R18), as many operand words as
the operation carries (R145), ports that can issue the command, and rows, sources and pieces that exist. `exec` gives an
ill-formed command a meaning too; no statement is about it.
-/
namespace Sys2Proof

/-- A port of the boundary: not the internal port of a Spring. -/
def Port.outside : Port → Bool
  | .spring .. => false
  | _ => true

/-- A request that the outside can present (R18). -/
def Req.wf (q : Req) : Bool := q.port.outside && 1 ≤ q.words && q.words ≤ 8

/-- An arrival's request comes from another die (R35). -/
def Req.arrives (q : Req) : Bool :=
  q.wf && (match q.port with | .sibling _ => true | .dexfer .. => true | _ => false)

/-- A take access comes through a wide port of a matrix engine (R235). -/
def Req.onWide (q : Req) : Bool :=
  q.wf && (match q.port with | .me .. => true | _ => false)

/-- The operand words that an operation carries: none, one, half of its words, or one for each of its words (R145). -/
def Op.operands (op : Op) (words : Nat) : Nat :=
  match op with
  | .write => words
  | .add _ => words
  | .addWide _ => words / 2
  | .max _ => words
  | .min _ => words
  | .swap .. => 1
  | .cas .. => 1
  | _ => 0

/-- A row of the die (R19). -/
def rowOk (row : Nat) : Bool := row < Config.lakes * Config.rowsPerLake

/-- A TLP of 1 to 4,096 bytes in its BAR (R28). -/
def Tlp.wf (t : Tlp) : Bool := 1 ≤ t.len && t.len ≤ 4096 && t.addr + t.len ≤ (if t.np then 0x80000000 else 0x20000000)

/-- A packet carries or answers one row request of at most 8 words, inside a row of the lake it goes to where it goes to one (R36, R64);
a request that covers two rows is two packets. A stop sends to itself only where it is a lake's (R68, R69). -/
def Packet.wf (k : Packet) : Bool :=
  1 ≤ k.ask.words && k.data.length ≤ 8 && 1 ≤ k.parts &&
  (match k.ask.op with | .xread .. | .gather _ => true | _ => k.ask.first + k.ask.words ≤ 8) &&
  (k.src != k.dst || (Config.posLake k.src).isSome) &&
  (match Config.posLake k.dst with | some n => k.resp || k.row / Config.rowsPerLake = n | none => true)

/-- A master presents at most the row requests of one beat (R59). -/
def Master.wf (a : ArbId) (m : Master) : Bool :=
  m.beat.length ≤ (match a with | .wide .. => 32 | .shoreS _ => 16 | .shoreC .. => 4 | .stop p _ => Config.stopRate p)

/-- A command whose operands the outside can present. -/
def Instr.wf : Instr → Bool
  | .read q | .peek q | .consume q | .xread q _ _ | .gather q _ => q.wf
  | .write q d => q.wf && d.length = Op.operands .write q.words
  | .produce q d => q.wf && d.length = Op.operands .write q.words
  | .add q a d => q.wf && d.length = (Op.add a).operands q.words
  | .addWide q a d => q.wf && d.length = (Op.addWide a).operands q.words
  | .max q a d => q.wf && d.length = (Op.max a).operands q.words
  | .min q a d => q.wf && d.length = (Op.min a).operands q.words
  | .swap q _ _ _ | .cas q _ _ _ => q.wf
  | .takePeek q => q.onWide
  | .takeWrite q d => q.onWide && d.length = Op.operands .write q.words
  | .writeBack row | .markWrite row | .scrubRead row | .scrubForced row | .waiterWake row | .tagSweep row => rowOk row
  | .hostReadTlp t => t.wf
  | .hostWriteTlp t d => t.wf && d.length = t.len
  | .arrivalRead q op => q.arrives && op.operands q.words = 0
  | .arrivalWrite q op d => q.arrives && d.length = op.operands q.words
  | .registerWrite _ off size _ => (size = 4 || size = 8) && off % size = 0 && off < 0x1000000
  | .corrInterval k => k < 26
  | .requestFrame bytes _ _ => bytes.length ≤ 65535
  | .entdaa a | .setnewda a => 8 ≤ a.toNat && a.toNat < 0x7E
  | .scrubDue _ | .scrubConfigWrite .. | .hostRetryReissue _ | .hostPostedRelease => true
  | .atomicopFetchadd .. | .atomicopSwap .. | .atomicopCas .. | .epIdWrite .. | .shoreCfgWrite .. => true
  | .arbDecision a ms => ms.all (Master.wf a)
  | .packetInject k => k.wf
  | .burstLimit _ | .quotaWindowClose _ | .arbConfigWrite .. => true
  | .stopStarving .. | .packetEject .. | .responseEject .. | .stopReissue .. | .backoffReset .. => true
  | .qshareWrite .. | .lateRecordInterval _ | .pcapPeriod _ | .pcapWrite .. => true
  | .handover .. | .ctxSelWrite .. | .liveViewValidWrite .. | .contextSave .. | .contextSaveComplete => true
  | .contextRestore .. | .contextRestoreLoad => true
  | .reelCfgWrite .. | .reelBaseWrite .. | .reelTailWrite .. | .reelHeadWrite .. | .srSeedWrite .. => true
  | .sprReelBind .. | .sprReelUnbind .. | .slotRead _ | .nop _ | .load _ | .store _ | .pull _ | .push _ | .copy _ => true
  | .fill _ | .signalCue _ | .waitCue _ | .mark _ | .markRetest _ | .stackReadReturn .. | .stackWriteAck .. => true
  | .descriptorComplete .. | .slotRelease _ | .sprCut .. | .cutComplete _ | .taskAbort .. | .taskAbortComplete => true
  | .basinLookup .. | .basinFillReturn .. | .basinInvAll .. | .basinInvRange .. | .basinInvDone => true
  | .waiterTimeout .. | .rangeStepEnter _ | .slateOp .. | .slateOpRow _ | .slateOpDone _ => true
  | .cueSignal .. | .cueSignalSend _ | .cueWait .. | .cueCountWrite .. | .cueCfgWrite .. => true
  | .takeOpen .. | .takeCommit _ | .takeAbort .. | .takeCommitStep .. | .takeAbortStep .. => true
  | .fence .. | .fenceComplete _ | .kernelEnd .. | .kernelBoundaryDone => true
  | .winOwnerWrite .. | .winConfigWrite .. | .winOpen .. | .winClose .. | .winRelease .. | .winClosed _ => true
  | .preempt .. | .preemptDeadline | .protModeChange .. | .conversionDone _ | .recordEnter | .ibiInterval _ => true
  | .errTailWrite .. | .errStatClear .. | .eccInjectArm .. => true
  | .monitorUpdate .. | .levelReqWrite .. | .levelChangeStart | .voltageStep | .drainComplete | .dividerSwitchEnd => true
  | .drainAbandon | .lakeStateReq .. | .lakeDrainComplete _ | .lakeEntryEnd _ | .autoIdle _ | .idleWake _ => true
  | .idleWakeEnd _ | .lakeWake _ | .lakeWakeEnd _ | .pwrWakeWrite .. | .deepEnter .. | .deepEntryEnd | .deepWake _ => true
  | .deepExitEnd | .coldReset | .aonRelease | .pllLock | .fuseRepairDone _ | .eccInitDone | .warmResetPin => true
  | .warmResetWrite .. | .warmReinitDone | .lakeReset .. | .lakeResetDone => true
  | .marchStart .. | .marchTestDone .. | .marchAnalysisDone _ | .marchRemapDone _ | .marchInitDone _ => true
  | .cntCfgWrite .. | .cntValWrite .. | .dailiesSnapshot .. | .snapshotRelease => true
  | .dictRead | .dictWrite | .dictInfo | .dictResponseReady | .responseFrameRead | .rstdaa | .enec .. | .disec .. => true
  | .getpid | .getbcr | .getdcr | .getstatus | .setmwl _ | .getmwl | .setmrl _ | .getmrl | .entas _ => true
  | .unsupportedCcc _ | .hdrEntry | .hotJoin | .ibiRaise _ => true
  | .settingsApply | .fwBegin .. | .fwChunk .. | .fwVerify | .fwActivateSchedule .. | .fwActivateCancel _ => true
  | .fwActivateRevert _ | .fwActivationFire | .loaderStart | .imageStartTimeout | .fwConfirm | .trialExpire => true
  | .sibStatusMsg .. | .sibTimeout => true
  | .meterEnergySample .. | .meterSample | .tallyRecord | .meterClose | .meterPowerUp | .monitorSelfTest _ => true
  | .clientTakesRequest .. | .referenceClockLoss | .referenceClockReturn | .hdrExitPattern | .testPortAccess => true
  | .vddLogLoss => true

end Sys2Proof
end

