-- ==== Sys2Proof/Tests/Slice0.lean ====
section
/-!
SUPPORT. Small tests of one step each: ill-formed commands that `Instr.wf` refuses, and, statement by statement, states and operands that
meet its hypotheses, with what the spec's words say comes of them.
-/
namespace Sys2Proof.Tests
open Sys2Proof.Machine
set_option Elab.async false
set_option linter.all false

/-! ### Helpers -/

/-- A command answers a next state that a test holds of. -/
def ran (c : Instr) (s : State) (p : State → Bool) : Bool :=
  match exec c s with
  | .next t => p t
  | _ => false

/-- The block after bring-up. -/
def base : State := { State.reset with tm := { Global.reset with ready := true, step := 0 } }

/-- The same with lake 5 ON. -/
def on5 : State := base.modLp 5 fun x => { x with state := .on }

def mgmt : Src := ⟨.mgmt, 0⟩
/-- The host through its unprivileged BAR. -/
def host : Src := ⟨.host false, 0⟩

/-! ### Ill-formed commands -/

def read1 : Req := { port := .mgmt, tag := 0, addr := 0, words := 1 }

theorem test_wf_read : Instr.wf (.read read1) = true ∧ Instr.wf (.read { read1 with words := 9 }) = false ∧
    Instr.wf (.peek { read1 with words := 0 }) = false ∧ Instr.wf (.consume { read1 with port := .spring 0 0 0 }) = false := by decide
theorem test_wf_strided : Instr.wf (.xread { read1 with words := 0 } 0 0) = false ∧ Instr.wf (.gather { read1 with words := 9 } 0) = false := by decide
theorem test_wf_write : Instr.wf (.write read1 [0]) = true ∧ Instr.wf (.write read1 []) = false ∧ Instr.wf (.produce read1 [0, 0]) = false := by
  decide
theorem test_wf_atomic : Instr.wf (.add read1 ⟨0, 0, false⟩ []) = false ∧ Instr.wf (.addWide { read1 with words := 4 } ⟨0, 0, false⟩ [0]) = false ∧
    Instr.wf (.max read1 ⟨0, 0, false⟩ []) = false ∧ Instr.wf (.min read1 ⟨0, 0, false⟩ [0, 0]) = false ∧
    Instr.wf (.swap { read1 with words := 0 } 0 0 0) = false ∧ Instr.wf (.cas { read1 with words := 9 } 0 0 0) = false := by decide
theorem test_wf_take : Instr.wf (.takePeek read1) = false ∧ Instr.wf (.takePeek { read1 with port := .me 0 0 0 }) = true ∧
    Instr.wf (.takeWrite { read1 with port := .me 0 0 0 } []) = false := by decide
theorem test_wf_row : Instr.wf (.writeBack 1179647) = true ∧ Instr.wf (.writeBack 1179648) = false ∧ Instr.wf (.markWrite 1179648) = false ∧
    Instr.wf (.scrubRead 1179648) = false ∧ Instr.wf (.scrubForced 1179648) = false ∧ Instr.wf (.waiterWake 1179648) = false ∧
    Instr.wf (.tagSweep 1179648) = false := by decide
theorem test_wf_tlp : Instr.wf (.hostReadTlp ⟨false, 0x1FFFFFFF, 2, false, 0⟩) = false ∧ Instr.wf (.hostReadTlp ⟨true, 0, 0, false, 0⟩) = false ∧
    Instr.wf (.hostWriteTlp ⟨true, 0, 2, false, 0⟩ [none]) = false ∧ Instr.wf (.hostReadTlp ⟨true, 0x7FFFFFFF, 1, false, 0⟩) = true := by decide
theorem test_wf_arrival : Instr.wf (.arrivalRead read1 .read) = false ∧ Instr.wf (.arrivalRead { read1 with port := .sibling 0 } .write) = false ∧
    Instr.wf (.arrivalWrite { read1 with port := .sibling 0 } .write []) = false ∧
    Instr.wf (.arrivalWrite { read1 with port := .sibling 0 } .write [0]) = true := by decide
theorem test_wf_register : Instr.wf (.registerWrite mgmt 0 2 0) = false ∧ Instr.wf (.registerWrite mgmt 4 8 0) = false ∧
    Instr.wf (.registerWrite mgmt 0x1000000 4 0) = false ∧ Instr.wf (.registerWrite mgmt 8 8 0) = true := by decide
theorem test_wf_other : Instr.wf (.corrInterval 26) = false ∧ Instr.wf (.entdaa 7) = false ∧ Instr.wf (.setnewda 0x7E) = false ∧
    Instr.wf (.entdaa 8) = true := by decide
theorem test_wf_frame : Instr.wf (.requestFrame [] true true) = true := by decide

/-! ### The block as a whole -/

theorem test_step_front : (match step { base with pending := [.entas 0, .entas 1] } with | .next t => decide (t.pending = [.entas 1]) | _ => false) = true := by
  decide
theorem test_tick : (match step base with | .next t => t.pw.now == 1 && t.pw.ns == 2 | _ => false) = true := by decide
theorem test_tick_aon : (match step { base with pw := { base.pw with refOk := false } } with | .next t => t.pw.now == 0 && t.pw.ns == 10 | _ => false) =
    true := by decide
theorem witness_EmptyQueueLetsTimePass : base.pending = [] ∧ base.canonical = true ∧ Tab.wf cntDefault base.cnt.ctrs = true ∧
    (base.reachNs 1000).pw.ns = 1000 ∧ (base.reachNs 1000).pw.now = 500 := by decide
theorem witness_StepKeepsCanonical : on5.canonical = true ∧ (match step on5 with | .next t => t.canonical | _ => false) = true := by decide
theorem witness_EndpointAndTimestampOutliveCommands : Instr.warmResetPin ≠ .coldReset ∧ Instr.warmResetPin ≠ .aonRelease ∧
    ran .warmResetPin { base with tm := { base.tm with epId := 0x2C6, epValid := true } } (fun t => t.tm.epValid ∧ t.tm.epId = 0x2C6) = true := by
  decide +kernel

/-! ### The control space -/

theorem witness_RegisterAccessChecked_misaligned :
    ctlGate base mgmt (whoOf base mgmt.port) 0x22 4 true = some (.nackBound, some 0) ∧ base.pw.deep = 0 ∧ base.draining = false ∧
    ran (.registerWrite mgmt 0x22 4 1) base (fun t => t.out = [.reg .mgmt 0 .nackBound 0] ∧ t.err.intake.length = 1) = true := by decide
theorem witness_RegisterAccessChecked_management : base.running = true ∧ unitAbsent base 0x20 = false ∧
    unitAbsent { base with variant := .zt9s } (pageOff 20 0) = true := by decide
theorem witness_RegisterAccessChecked_counters : base.privileged host = false ∧ unitAbsent base 0x40018 = false ∧
    ran (.registerWrite host 0x40018 8 1) base (fun t => t.out = [.reg (.host false) 0 .nackOwner 0] ∧ t.err.intake.length = 1) = true := by decide

/-- Every register of the statement is open to the host's unprivileged BAR. -/
theorem witness_UnprivilegedWritesDiscarded_global : base.privileged host = false ∧
    ([0x20, 0x30, 0x40, 0x100, 0x120, 0x140, 0x10000, 0x10400, 0x20500, 0x30014].all fun o => base.opens host o 4) = true ∧
    base.opens host 0x180 8 = true ∧ base.opens host 0x400 8 = true := by decide
theorem witness_UnprivilegedWritesDiscarded_lake :
    ([0, 0x608, 0x8000].all fun o => base.opens host (pageOff 23 o) 4) = true ∧ base.opens host (pageOff 23 0x308) 8 = true ∧
    base.opens host (pageOff 23 0x620) 8 = true ∧ base.opens host (0x10100 + 8 * 23) 4 = true := by decide
theorem witness_UnprivilegedWritesDiscarded_tables : base.opens host (0x20200 + 4 * 4) 4 = true ∧ base.opens host (0xD0000 + 63 * 64 + 8) 4 = true ∧
    base.opens host (0xD0000 + 63 * 64) 8 = true ∧ base.opens host (0x80000 + 4095 * 64 + 8) 8 = true ∧ base.opens host (0x80000 + 4095 * 64) 8 = true := by
  decide
theorem test_unprivileged_handover : ran (.handover host 0 1) base (fun t => t = base.reply host .nackOwner) = true := by decide

/-- An endpoint in place. -/
def based : State := { base with tm := { base.tm with epId := 0x2C6, epValid := true } }

theorem witness_EndpointWrittenOnce : base.opens mgmt 0x20 4 = true ∧ base.opens host 0x20 4 = true ∧ base.privileged mgmt = true ∧
    base.privileged host = false ∧ base.tm.epValid = false ∧ based.tm.epValid = true ∧ based.opens mgmt 0x20 4 = true := by decide
theorem test_endpoint : ran (.epIdWrite mgmt 0x2C7) base (fun t => t.tm.epId = 0x2C6 ∧ t.tm.epValid) = true := by decide
theorem test_endpoint_again : ran (.epIdWrite mgmt 0x2C9) based (fun t => t.tm.epId = 0x2C6 ∧ t.err.intake.length = 1) = true := by decide

theorem witness_GlobalRegistersWritten_level : base.opens mgmt 0x10000 4 = true ∧ base.opens mgmt 0x20500 4 = true ∧ base.pw.busy = false ∧
    bits (4 : BitVec 32) 0 3 ≤ 4 ∧ 4 < bits (5 : BitVec 32) 0 3 := by decide
theorem test_level : ran (.levelReqWrite mgmt 0) base (fun t => t.pw.req = 0) = true ∧
    ran (.levelReqWrite mgmt 5) base (fun t => t = base.rejected mgmt 0x10000 1) = true := by decide
/-- A level change in progress. -/
def changing : State := { base with pw := { base.pw with busy := true, phase := 1, req := 2, goal := 2 } }
theorem witness_GlobalRegistersWritten_busy : changing.opens mgmt 0x10000 4 = true ∧ changing.pw.busy = true ∧
    bits (2 : BitVec 32) 0 3 = changing.pw.req.toNat ∧ bits (3 : BitVec 32) 0 3 ≠ changing.pw.req.toNat ∧
    ran (.levelReqWrite mgmt 3) changing (fun t => t = changing.rejected mgmt 0x10000 2) = true := by decide
theorem test_cap : ran (.pcapWrite mgmt 0xFFF) { base with weir := { base.weir with unmet := true } } (fun t => t.weir.cap = 0xFFF ∧ !t.weir.unmet) = true := by
  decide
/-- Shares of 64 entries in all, of 65 in all, and one share of 65. -/
theorem witness_GlobalRegistersWritten_shares : base.opens mgmt (0x20200 + (4 : Fin 5) * 4) 4 = true ∧
    bits (0x10101010 : BitVec 32) 0 7 + bits (0x10101010 : BitVec 32) 8 7 + bits (0x10101010 : BitVec 32) 16 7 + bits (0x10101010 : BitVec 32) 24 7 = 64 ∧
    ran (.qshareWrite mgmt 4 0x10101010) base (fun t => t = { base with weir := { base.weir with
      qshare := Tab.set (fun _ => qshareReset) base.weir.qshare 4 0x10101010 } }.reply mgmt .ok) = true ∧
    ran (.qshareWrite mgmt 4 0x10101011) base (fun t => t = base.rejected mgmt (0x20200 + 4 * 4) 2) = true ∧
    ran (.qshareWrite mgmt 4 0x00000041) base (fun t => t = base.rejected mgmt (0x20200 + 4 * 4) 1) = true := by decide
theorem witness_GlobalRegistersWritten_plain : base.opens mgmt (pageOff 7 0x308) 8 = true ∧ base.opens mgmt 0x100 4 = true ∧
    base.opens mgmt 0x10608 8 = true ∧ bits (271 : BitVec 32) 0 9 < 272 ∧ 272 ≤ bits (272 : BitVec 32) 0 9 ∧
    ran (.ctxSelWrite mgmt 272) base (fun t => t = base.rejected mgmt 0x100 0) = true ∧
    ran (.registerWrite mgmt 0x10608 8 5) base (fun t => t = { base with pw := { base.pw with ftimeOfs := 5 } }.reply mgmt .ok) = true := by decide
theorem test_seed : ran (.srSeedWrite mgmt 7 9) base (fun t => t = (base.modLake 7 fun l => { l with srSeed := 9, mixes := l.mixes ++ [(base.pw.now, 9)] }).reply mgmt .ok) =
    true := by decide

theorem witness_ArbitersAndShoresConfigured : base.opens mgmt (arbOff (.lake 23 4) 0) 4 = true ∧ base.opens mgmt (arbOff (.lake 0 0) 1) 4 = true ∧
    base.opens mgmt (pageOff 3 0x80) 4 = true ∧ base.mastersLake mgmt 3 = true ∧ base.mastersLake host 3 = false ∧ base.opens host (pageOff 3 0x80) 4 = true ∧
    shoreBusy base 3 false = false ∧ takeOn base 3 false = false ∧ (base.mte 3).busy = false := by decide
/-- R58, R375: a request of shore A between its issue and its DV, a take open on shore B, a march test. -/
theorem test_shore_busy : ran (.shoreCfgWrite mgmt 3 1) { base with inPond := [(12, 1)] } (fun t => t = { base with inPond := [(12, 1)] }.rejected mgmt (pageOff 3 0x80) 1) = true ∧
    ran (.shoreCfgWrite mgmt 3 4) (base.modLake 3 fun l => l.setTake 8 { Take.reset with state := .open }) (fun t => (t.lake 3).bSplit = 0 ∧ t.err.intake.length = 1) = true ∧
    ran (.shoreCfgWrite mgmt 3 1) (base.modMte 3 fun m => { m with busy := true }) (fun t => (t.lake 3).aSplit = 0 ∧ t.err.intake.length = 1) = true ∧
    ran (.shoreCfgWrite mgmt 3 4) { base with inPond := [(12, 1)] } (fun t => (t.lake 3).bSplit = 1) = true := by decide
/-- R55: a split of 3 stays as it was. -/
theorem test_shore : ran (.shoreCfgWrite mgmt 3 0xD) base (fun t => (t.lake 3).aSplit = 1 ∧ (t.lake 3).bSplit = 0) = true := by decide
theorem test_arb : ran (.arbConfigWrite mgmt (.lake 23 4) 0 0x107) base (fun t => ((t.lake 23).arbSet 4).burstM1 = 7 ∧ ((t.lake 23).arbSet 4).fallback) = true := by
  decide

/-! ### Ownership, contexts and reels -/

/-- Word 0 of a context record (R140): record version, engine, TID, `PRIV`, `VALID`. -/
def word0 (e tid : Nat) (priv valid : Bool) : BitVec 64 :=
  BitVec.ofNat 64 (1 + 2 ^ 16 * e + 2 ^ 24 * tid + (if priv then 2 ^ 36 else 0) + (if valid then 2 ^ 37 else 0))

/-- A context of a task: its label, and segment 0 over the die-local map with both rights (R140). -/
def task (e tid label : Nat) (priv : Bool) : Ctx :=
  [(0, word0 e tid priv true), (1, BitVec.ofNat 64 label), (3, 0x80000007)]

/-- Tasks on vector cluster 0 (slot 0, no privilege) and vector cluster 63 (slot 63, privileged). -/
def tasks : State := ((base.setCtx 0 (task 0 5 1 false)).setCtx 63 (task 63 9 2 true)).modLp 23 fun x => { x with state := .on }
def vc0 : Src := ⟨.vc 0, 3⟩
def vc63 : Src := ⟨.vc 63, 3⟩

def newOwner : BitVec 32 := BitVec.ofNat 32 (63 + 256 * 9)
/-- A lake with a take open is not quiescent. -/
def unquiet : State := tasks.modLake 23 fun l => l.setTake 15 { Take.reset with state := .open }

theorem witness_HandoverNeedsQuiescence_unprivileged : tasks.opens vc0 (pageOff 23 0) 4 = true ∧ tasks.privileged vc0 = false := by decide +kernel
theorem witness_HandoverNeedsQuiescence_same : base.opens mgmt (pageOff 0 0) 4 = true ∧ base.privileged mgmt = true ∧
    (⟨BitVec.ofNat 8 (bits (0x7C : BitVec 32) 0 8), BitVec.ofNat 12 (bits (0x7C : BitVec 32) 8 12)⟩ : Principal) = (base.lake 0).owner := by
  decide +kernel
theorem witness_HandoverNeedsQuiescence_passed : tasks.opens vc63 (pageOff 23 0) 4 = true ∧ tasks.privileged vc63 = true ∧
    (⟨63, 9⟩ : Principal) ≠ (tasks.lake 23).owner ∧ mayOwn ⟨63, 9⟩ = true ∧ quiescent tasks 23 = true := by decide +kernel
theorem witness_HandoverNeedsQuiescence_rejected : mayOwn ⟨63, 0⟩ = false ∧ (⟨63, 0⟩ : Principal) ≠ (tasks.lake 23).owner ∧
    unquiet.opens vc63 (pageOff 23 0) 4 = true ∧ unquiet.privileged vc63 = true ∧ quiescent unquiet 23 = false := by decide +kernel
/-- R129: the share mask is cleared and the Spring unbound. -/
theorem test_handover : ran (.handover mgmt 23 newOwner) ((tasks.modLake 23 fun l => { l with share := 3 }).modSpring 23 fun x => { x with bound := true })
    (fun t => (t.lake 23).owner = ⟨63, 9⟩ ∧ (t.lake 23).share = 0 ∧ !(t.spring 23).bound) = true := by decide +kernel

/-- The live view shows slot 271, which is empty, or slot 63, which is not. -/
def view271 : State := { tasks with tm := { tasks.tm with ctxSel := 271 } }
def view63 : State := { tasks with tm := { tasks.tm with ctxSel := 63 } }
theorem witness_LiveViewWritten_valid : view63.opens mgmt 0x200 8 = true ∧ view63.privileged mgmt = true ∧ slotAbsent view63.variant 63 = false ∧
    ctxValid (view63.ctx 63) = true := by decide +kernel
theorem witness_LiveViewWritten_stored : view271.opens mgmt 0x200 8 = true ∧ slotAbsent view271.variant view271.tm.ctxSel.toNat = false ∧
    ctxValid (view271.ctx 271) = false ∧ bit (word0 0x40 7 false false) 37 = false := by decide +kernel
/-- A record with a cue range that ends with cue 4,095. -/
def view271cues : State := view271.setCtx 271 [(10, BitVec.ofNat 64 (4095 + 2 ^ 12 * 1))]
theorem witness_LiveViewWritten_loaded : view271cues.opens mgmt 0x200 8 = true ∧ ctxValid (view271cues.ctx 271) = false ∧
    bit (word0 0x40 7 false true) 37 = true ∧
    recordOk view271cues (Tab.set (fun _ => 0) (view271cues.ctx 271) 0 (word0 0x40 7 false true &&& 0x7FFFFFFFFF)) = true ∧
    recordOk view271cues (Tab.set (fun _ => 0) (view271cues.ctx 271) 0 (word0 0x40 0 false true &&& 0x7FFFFFFFFF)) = false := by decide +kernel
theorem test_live_view : ran (.liveViewValidWrite mgmt (word0 0x40 7 false true)) view271cues (fun t => (t.cue 4095).owner = ⟨0x40, 7⟩) = true ∧
    ran (.liveViewValidWrite mgmt (word0 0x40 0 false true)) view271cues (fun t => t = view271cues.rejected mgmt 0x200 5) = true := by
  decide +kernel

/-- The record's address and the slot of a save or restore command. -/
def recordAt0 (slot : Nat) : BitVec 64 := BitVec.ofNat 64 (0x400 + slot)
theorem witness_ContextsSavedAndRestored_asked : tasks.opens mgmt 0x108 8 = true ∧ tasks.opens mgmt 0x110 8 = true ∧ tasks.privileged mgmt = true ∧
    slotAbsent tasks.variant (bits (recordAt0 271) 0 9) = false ∧ tasks.tm.ctxBusy = false ∧ bits (recordAt0 271) 0 9 < 272 ∧
    inDataView tasks.variant (recordAddr (recordAt0 271)) = true ∧
    ran (.contextSave mgmt (recordAt0 63)) tasks (fun t => t.tm.ctxBusy) = true := by decide +kernel
/-- A save and a restore in progress, with lake 0 ON. -/
def saving : State := { tasks.modLp 0 fun x => { x with state := .on } with
  tm := { tasks.tm with ctxBusy := true, ctxIsSave := true, ctxSave := recordAt0 63, ctxLast := 63 } }
theorem witness_ContextsSavedAndRestored_busy : saving.opens mgmt 0x108 8 = true ∧ saving.opens mgmt 0x110 8 = true ∧ saving.tm.ctxBusy = true ∧
    slotAbsent saving.variant (bits (recordAt0 63) 0 9) = false := by decide +kernel
theorem witness_ContextsSavedAndRestored_saved : saving.pw.deep = 0 ∧ saving.draining = false ∧ ctxValid (saving.ctx 63) = true ∧ slotQuiet saving 63 = true ∧
    (match (saving.recordGate .write (recordAddr saving.tm.ctxSave)).1 with | .go => true | _ => false) = true ∧
    ran .contextSaveComplete saving (fun t => !t.tm.ctxBusy && !ctxValid (t.ctx 63) && readByte t.mem 0x402 == 63) = true := by decide +kernel
/-- A record in memory, written as a save leaves it (R140). -/
def restoring : State := { (saving.setCtx 63 []).putWords 4 [(0, packWord (fun i => (task 63 9 2 true).word i) 0)] with
  tm := { tasks.tm with ctxBusy := true, ctxRestore := recordAt0 63, ctxLast := 63 } }
theorem witness_ContextsSavedAndRestored_restored : restoring.pw.deep = 0 ∧ restoring.draining = false ∧ ctxValid (restoring.ctx 63) = false ∧
    (match (restoring.recordGate .read (recordAddr restoring.tm.ctxRestore)).1 with | .go => true | _ => false) = true ∧
    restoring.clean 4 = true ∧ restoring.clean 5 = true ∧ recordOk restoring (restoring.recordAt 0x400) = true ∧
    ran .contextRestoreLoad restoring (fun t => t.ctx 63 = task 63 9 2 true) = true := by decide +kernel

/-- Reel 63, enabled, of 8 slots at row 8 of lake 23, with three slots written, produced by vector cluster 0. -/
def reeled : State := tasks.modReel 63 fun r => { r with
  base := BitVec.ofNat 36 (23 * 49152 + 8), size := 3, enable := true, producer := 0, consumer := 0x67, tail := 3 }
def reeledBound : State := reeled.modSpring 23 fun x => { x with bound := true, reel := 63 }
theorem witness_ReelConfigured : base.privileged mgmt = true ∧ base.opens mgmt (0xD0000 + 63 * 64 + 8) 4 = true ∧ base.opens mgmt (0xD0000 + 63 * 64) 8 = true ∧
    reelBound base 63 = false ∧ bits (0xF : BitVec 32) 0 5 < 16 ∧ bits (0x10 : BitVec 32) 0 5 ≥ 16 ∧
    ({ base.reel 63 with size := 15, enable := false } : Reel).fits base.variant = true ∧
    ({ reeled.reel 63 with base := BitVec.ofNat 36 (24 * 49152 - 8) } : Reel).fits reeled.variant = true := by decide +kernel
theorem witness_ReelConfigured_bound : reeledBound.opens mgmt (0xD0000 + 63 * 64 + 8) 4 = true ∧ reeledBound.opens mgmt (0xD0000 + 63 * 64) 8 = true ∧
    reelBound reeledBound 63 = true := by decide +kernel
/-- R137: reel 63 at the last 8 rows of its lake, of which 16 do not fit. -/
def reeledEdge : State := reeled.modReel 63 fun r => { r with base := BitVec.ofNat 36 (24 * 49152 - 8) }
theorem witness_ReelConfigured_misfit : reeledEdge.opens mgmt (0xD0000 + 63 * 64 + 8) 4 = true ∧ reeledEdge.opens mgmt (0xD0000 + 63 * 64) 8 = true ∧
    ran (.reelCfgWrite mgmt 63 0x24) reeledEdge (fun t => t = reeledEdge.rejected mgmt (0xD0000 + 63 * 64 + 8) 1) = true ∧
    ran (.reelBaseWrite mgmt 63 (BitVec.ofNat 64 (256 * (24 * 49152 - 4)))) reeledEdge (fun t => t = reeledEdge.rejected mgmt (0xD0000 + 63 * 64) 1) = true ∧
    ran (.reelBaseWrite mgmt 63 (BitVec.ofNat 64 (256 * (24 * 49152 - 16)))) reeledEdge (fun t => (t.reel 63).base.toNat = 24 * 49152 - 16) = true := by
  decide +kernel
/-- R136: with the reel out of use a pointer takes any value. -/
def reelOff : State := reeled.modReel 63 fun r => { r with enable := false }
theorem witness_ReelConfigured_pointer : (reelOff.reel 63).enable = false ∧ reelBound reelOff 63 = false ∧ reelOff.opens mgmt (0xD0000 + 63 * 64 + 0x10) 4 = true ∧
    reelOff.opens mgmt (0xD0000 + 63 * 64 + 0x14) 4 = true ∧
    ran (.reelTailWrite mgmt 63 0xFFFFFFFF) reelOff (fun t => (t.reel 63).tail = 0xFFFFFFFF) = true := by decide +kernel
theorem test_reel_config : ran (.reelCfgWrite mgmt 63 0x00674023) { reeled with reels := [] } (fun t => (t.reel 63).size = 3 ∧ (t.reel 63).enable ∧
    (t.reel 63).producer = 0x40 ∧ (t.reel 63).consumer = 0x67) = true := by decide +kernel

/-- R138: the tail may move up to the head plus the capacity of 8, the head up to the tail. -/
theorem witness_ReelPointersAdvance_tail : (reeled.reel 63).enable = true ∧ reeled.opens vc0 (0xD0000 + 63 * 64 + 0x10) 4 = true ∧
    (reeled.reel 63).producer.toNat = (whoOf reeled vc0.port).engine ∧ reelBound reeled 63 = false ∧
    ((8 : BitVec 32) - (reeled.reel 63).tail).toNat < 2 ^ 31 ∧ ((8 : BitVec 32) - (reeled.reel 63).head).toNat ≤ 2 ^ (reeled.reel 63).size.toNat ∧
    2 ^ 31 ≤ ((2 : BitVec 32) - (reeled.reel 63).tail).toNat ∧
    ((9 : BitVec 32) - (reeled.reel 63).tail).toNat < 2 ^ 31 ∧ 2 ^ (reeled.reel 63).size.toNat < ((9 : BitVec 32) - (reeled.reel 63).head).toNat := by
  decide +kernel
theorem witness_ReelPointersAdvance_head : reeled.opens mgmt (0xD0000 + 63 * 64 + 0x14) 4 = true ∧ reeled.privileged mgmt = true ∧
    ((3 : BitVec 32) - (reeled.reel 63).head).toNat ≤ ((reeled.reel 63).tail - (reeled.reel 63).head).toNat ∧
    ((reeled.reel 63).tail - (reeled.reel 63).head).toNat < ((4 : BitVec 32) - (reeled.reel 63).head).toNat := by decide +kernel
theorem witness_ReelPointersAdvance_other : reeled.opens vc0 (0xD0000 + 63 * 64 + 0x14) 4 = true ∧
    ¬(reeled.privileged vc0 = true ∨ (reeled.reel 63).consumer.toNat = (whoOf reeled vc0.port).engine) ∧
    reeled.opens ⟨.vc 63, 0⟩ (0xD0000 + 63 * 64 + 0x10) 4 = true ∧ reeled.opens host (0xD0000 + 63 * 64 + 0x10) 4 = true ∧
    ¬(reeled.privileged host = true ∨ (reeled.reel 63).producer.toNat = (whoOf reeled host.port).engine) := by decide +kernel
theorem witness_ReelPointersAdvance_bound : reeledBound.opens vc0 (0xD0000 + 63 * 64 + 0x10) 4 = true ∧ (reeledBound.reel 63).enable = true ∧
    reeledBound.opens mgmt (0xD0000 + 63 * 64 + 0x14) 4 = true ∧ reelBound reeledBound 63 = true := by decide +kernel
theorem test_reel_tail : ran (.reelTailWrite vc0 63 8) reeled (fun t => (t.reel 63).tail = 8) = true ∧
    ran (.reelTailWrite vc0 63 9) reeled (fun t => (t.reel 63).tail = 3 ∧ (t.reel 63).refused) = true := by decide +kernel
theorem test_reel_head : ran (.reelHeadWrite mgmt 63 3) reeled (fun t => (t.reel 63).head = 3) = true := by decide +kernel

/-! ### Springs -/

/-- The data-view byte `off` of lake `n` on this die, by its global address (R34), and a stack address. -/
def onDie (n off : Nat) : BitVec 64 := BitVec.ofNat 64 (0x2C6 * 2 ^ 44 + n * 0xC00000 + off)
def inStack (off : Nat) : BitVec 64 := BitVec.ofNat 64 (2 ^ 60 + 0x2C6 * 2 ^ 44 + off)
/-- A byte of another die, which is not the sibling (R34). -/
def offDie (off : Nat) : BitVec 64 := BitVec.ofNat 64 (0x300 * 2 ^ 44 + off)

/-- The 8 words of 8 bytes of a descriptor (R177): flags with the kind, cue, tag; source, destination, length, count, argument. -/
def form (flags cue : Nat) (src dst : BitVec 64) (len count arg : Nat) : List (BitVec 64) :=
  [BitVec.ofNat 64 (flags + 2 ^ 16 * cue), src, dst, BitVec.ofNat 64 (len + 2 ^ 32 * count), 0, 0, BitVec.ofNat 64 arg, 0]

/-- A slot of a task on ME cluster 0 that has been read, and a descriptor of it. -/
def slotOf (pos : Nat) (read : Bool) : Slot := ⟨pos, ⟨0x40, 7⟩, false, 1, [⟨true, true, true, 0, 0x80000000⟩], true, read, none⟩
def descOf (seq : Nat) (w : List (BitVec 64)) : Desc := newDesc seq w (slotOf 0 true) false

/-- Lake 23 ON with its Spring bound to a reel of 2 slots, at slot 0, with these descriptors. -/
def sprung (ds : List Desc) : State :=
  (((based.modLp 23 fun x => { x with state := .on }).modLake 23 fun l => { l with owner := ⟨0x40, 7⟩ }).modReel 0 fun r => { r with
    base := BitVec.ofNat 36 (24 * 49152 - 2), size := 1, enable := true, slated := true, consumer := 0x67 }).modSpring 23 fun x =>
    { x with reel := 0, bound := true, slots := [slotOf 0 true], descs := ds, nextRead := 1 }
/-- A Spring that has been bound to no reel. -/
def unbound (busy : Bool) : State :=
  { (sprung []).modSpring 23 fun x => { x with bound := false, slots := [], descs := if busy then [descOf 0 (form 0 0 0 0 0 0 0)] else [] } with lakes := [] }
def idleSpring : State := (sprung []).modSpring 23 fun x => { x with slots := [] }
def busySpring : State := sprung [descOf 0 (form 0 0 0 0 0 0 0)]

theorem witness_SpringsBoundAndSlotsRead_bind : (unbound false).opens mgmt (pageOff 23 0x4000) 4 = true ∧ (unbound false).mastersLake mgmt 23 = true ∧
    ((unbound false).spring 23).bound = false ∧ (unbound false).springIdle 23 = true ∧ ((unbound false).reel 0).enable = true ∧
    ((unbound false).reel 0).slated = true ∧ ((unbound false).reel 0).consumer.toNat = 0x50 + 23 ∧ reelBound (unbound false) 0 = false ∧
    gRow 23 0 ≤ ((unbound false).reel 0).base.toNat ∧
    ((unbound false).reel 0).base.toNat + 2 ^ ((unbound false).reel 0).size.toNat ≤ gRow 23 0 + 49152 ∧
    ran (.sprReelBind mgmt 23 0) (unbound false) (fun t => (t.spring 23).bound ∧ (t.spring 23).depth = 2) = true := by decide +kernel
theorem witness_SpringsBoundAndSlotsRead_bind_empty : ∀ i, (unbound false).slate (slotRow ((unbound false).reel 0) i) ≠ .full :=
  fun i => by rw [show (unbound false).slate (slotRow ((unbound false).reel 0) i) = .empty from rfl]; decide
theorem witness_SpringsBoundAndSlotsRead_busy : (unbound true).opens mgmt (pageOff 23 0x4000) 4 = true ∧ (unbound true).mastersLake mgmt 23 = true ∧
    ((unbound true).spring 23).bound = false ∧ (unbound true).springIdle 23 = false := by decide +kernel
theorem witness_SpringsBoundAndSlotsRead_unbind : idleSpring.opens mgmt (pageOff 23 0x4000) 4 = true ∧ (idleSpring.spring 23).bound = true ∧
    idleSpring.mastersLake mgmt 23 = true ∧ (idleSpring.spring 23).reel.toNat = 0 ∧ idleSpring.springIdle 23 = true ∧ busySpring.opens mgmt (pageOff 23 0x4000) 4 = true ∧
    busySpring.mastersLake mgmt 23 = true ∧ (busySpring.spring 23).bound = true ∧ busySpring.springIdle 23 = false ∧
    ran (.sprReelUnbind mgmt 23) idleSpring (fun t => !(t.spring 23).bound) = true := by decide +kernel

/-- Slot 1 of the reel is FULL and not yet read, with four NOPs. -/
def slotted : State := ((sprung []).modSpring 23 fun x => { x with slots := [slotOf 1 false] }).setSlate (24 * 49152 - 1) .full
theorem witness_SpringsBoundAndSlotsRead_read : slotted.running = true ∧ (slotted.lp 23).state = .on ∧ slotted.tm.abQueue.length < 64 ∧
    (slotted.spring 23).bound = true ∧
    (slotted.spring 23).slots.find? (fun z => z.pos = nextPos (slotted.spring 23).slots 32769 (slotted.spring 23).nextRead && !z.read) = some (slotOf 1 false) ∧
    slotRow (slotted.reel 0) 1 = 24 * 49152 - 1 ∧ slotted.slate (24 * 49152 - 1) = .full ∧ slotted.clean (24 * 49152 - 1) = true ∧
    (slotOf 1 false).pr = (slotted.lake 23).owner ∧
    (slotDescs { slotOf 1 false with read := true } (slotted.rowWords (24 * 49152 - 1))).all (fun d => decide (descCheck slotted 23 d.slot d.w = none)) = true := by
  decide +kernel
theorem test_slot_read : ran (.slotRead 23) slotted (fun t => (t.spring 23).descs.map (·.seq) = [4, 5, 6, 7] ∧ (t.spring 23).nextRead = 2) = true := by
  decide +kernel
/-- The four descriptors of slot 0 have ended. -/
def released : State := (sprung ((List.range 4).map fun i => { descOf i (form 0 0 0 0 0 0 0) with stage := .ended })).setSlate (24 * 49152 - 2) .full
theorem witness_SpringsBoundAndSlotsRead_release : (released.spring 23).bound = true ∧ (released.lp 23).state = .on ∧
    ((released.spring 23).slots.any fun y => y.pos = (released.reel 0).head.toNat && y.read) = true ∧ slotEnded (released.spring 23) 0 = true ∧
    released.slate (slotRow (released.reel 0) 0) = .full ∧
    ran (.slotRelease 23) released (fun t => t.slate (24 * 49152 - 2) = .empty ∧ (t.reel 0).head = 1 ∧ (t.spring 23).descs = []) = true := by decide +kernel

/-- A transfer at the head: a LOAD of two rows into the last two rows but two of lake 23, landing slates. -/
def loadD : Desc := descOf 0 (form 0x21 0 (inStack 0) (onDie 23 (0xC00000 - 0x400)) 0x200 1 0)
def storeD : Desc := descOf 0 (form 2 0 (onDie 23 0) (inStack 0) 0x20 1 0)
def pullD : Desc := descOf 0 (form 3 0 (offDie 0) (onDie 23 0) 0x20 2 0)
def pushD : Desc := descOf 0 (form 4 0 (onDie 23 0) (offDie 0) 0x20 1 1)
theorem witness_TransfersAskCopyAndFill_transfers : (sprung [loadD]).begins 23 1 loadD = true ∧ (sprung [storeD]).begins 23 2 storeD = true ∧
    (sprung [storeD]).ownClean 23 storeD = true ∧ (sprung [pullD]).begins 23 3 pullD = true ∧ (sprung [pushD]).begins 23 4 pushD = true ∧
    (sprung [pushD]).ownClean 23 pushD = true ∧
    (piecesOf pushD.w).all (fun p => bits p.other 44 16 != (sprung [pushD]).tm.epId.toNat) = true := by decide +kernel
/-- R181 and R182: two rows of the stack, each read whole. -/
theorem test_load : ran (.load 23) (sprung [loadD]) (fun t => t.out.length = 2 ∧ (t.desc 23 0).any (fun d => d.asked = [0, 1])) = true := by decide +kernel
theorem test_store : ran (.store 23) (sprung [storeD]) (fun t => t.out.length = 1) = true := by decide +kernel

def copyD : Desc := descOf 0 (form 5 0 (onDie 4 0) (onDie 23 0) 0x20 1 0)
def fillD : Desc := descOf 0 (form 6 0 0x5A (onDie 23 0x20) 0x20 1 0)
def nopD : Desc := descOf 0 (form 0 0 0 0 0 0 0)
theorem witness_TransfersAskCopyAndFill_starts : (sprung [copyD]).begins 23 5 copyD = true ∧ (sprung [fillD]).begins 23 6 fillD = true ∧
    (sprung [fillD]).ownClean 23 fillD = true ∧ dSlate fillD.w = false ∧ ((sprung [fillD]).lake 23).injArm = false ∧
    (sprung [fillD]).landWaits 23 0 = false ∧ (sprung [nopD]).begins 23 0 nopD = true := by decide +kernel
theorem test_fill : ran (.fill 23) (sprung [fillD]) (fun t => readByte t.mem (23 * 0xC00000 + 0x20) = 0x5A ∧ readByte t.mem (23 * 0xC00000 + 0x28) = 0x5A ∧
    readByte t.mem (23 * 0xC00000 + 0x40) = 0 ∧ readByte t.mem (23 * 0xC00000) = 0) = true := by decide +kernel

def signalD : Desc := descOf 0 (form 7 4095 0 0 0 0 2)
def waitD (n : Nat) : Desc := descOf 0 (form 8 4095 0 0 0 0 n)
/-- Cue 4,095 belongs to the task, at a count of 65,534. -/
def cued (ds : List Desc) : State := (sprung ds).modCue 4095 fun c => { c with owner := ⟨0x40, 7⟩, count := 65534 }
theorem witness_CueDescriptorsAndMarksMet_cues : heldWaits (cued [signalD]) 4095 = [] ∧ (cued [signalD]).begins 23 7 signalD = true ∧
    (cued [signalD]).maySignal false ⟨0x40, 7⟩ 4095 = true ∧ (cued [waitD 65534]).begins 23 8 (waitD 65534) = true ∧
    (cued [waitD 65534]).mayWait false ⟨0x40, 7⟩ 4095 = true ∧ heldWaits (cued [waitD 65534]) 4095 = [] ∧
    dN (waitD 65534).w ≤ ((cued [waitD 65534]).cue 4095).count ∧ (cued [waitD 65535]).begins 23 8 (waitD 65535) = true ∧
    ((cued [waitD 65535]).cue 4095).count < dN (waitD 65535).w := by decide +kernel
/-- R230: the count saturates at 65,535; what is lost sets `OVF` and is counted. -/
theorem test_signal_cue : ran (.signalCue 23) (cued [signalD]) (fun t => (t.cue 4095).count = 65535 ∧ (t.cue 4095).ovf ∧ (t.cue 4095).lost = 1) = true := by
  decide +kernel

def markD (cond : Nat) (cue : Nat) (dst : BitVec 64) (n : Nat) : Desc := descOf 0 (form 9 cue 0 dst 0 0 (cond + 2 ^ 16 * n))
def markCue : Desc := markD 0 4095 0 65535
def markFull : Desc := markD 1 0 (onDie 23 0) 0
def markEmpty : Desc := markD 2 0 (onDie 23 0) 0
def markAll : Desc := markD 3 0 0 0
theorem witness_CueDescriptorsAndMarksMet_marks : (cued [markCue]).begins 23 9 markCue = true ∧ dCond markCue.w = 0 ∧
    (cued [markCue]).mayWait false ⟨0x40, 7⟩ 4095 = true ∧ (cued [markAll]).begins 23 9 markAll = true ∧ dCond markAll.w = 3 ∧
    (cued [markFull]).begins 23 9 markFull = true ∧ dCond markFull.w = 1 ∧ (cued [markFull]).clean (23 * 49152) = true ∧
    bits (dDst markFull.w) 0 44 / 256 = 23 * 49152 ∧ (cued [markEmpty]).begins 23 9 markEmpty = true ∧ dCond markEmpty.w = 2 := by decide +kernel
/-- A MARK in flight that has not been met. -/
def markHeld : Desc := { markFull with stage := .flight }
theorem witness_CueDescriptorsAndMarksMet_retest : (((cued [markHeld]).spring 23).descs.filter fun e => e.seq = markHeld.seq) = [markHeld] ∧
    (cued [markHeld]).clean (23 * 49152) = true ∧
    (((cued [markHeld]).spring 23).descs.filter fun e => e.holding && !e.failed && dKind e.w = 9 && (dCond e.w = 1 || dCond e.w = 2)) = [markHeld] ∧
    ran (.markRetest 23) ((cued [markHeld]).setSlate (23 * 49152) .full) (fun t => (t.desc 23 0).any (·.met)) = true := by decide +kernel

/-- The first piece of the LOAD comes back; the one piece of the STORE is acknowledged. -/
def asked : State := sprung [loadD.started]
def stored : State := sprung [{ storeD with stage := .flight, issued := true, asked := [0] }]
def piece0 : Piece := (piecesOf loadD.w).headD ⟨0, 0, 0, 0, 0⟩
theorem witness_StackAnswersAndCompletion_load : (asked.spring 23).descs.filter (·.seq = 0) = [loadD.started] ∧ loadD.started.asked.contains 0 = true ∧
    loadD.started.returned.contains 0 = false ∧ pieceOf loadD.started 0 = some piece0 ∧ dKind loadD.w = 1 ∧ dShared loadD.w = false ∧
    loadD.started.written.length = piece0.i ∧ (List.replicate 8 (0 : Word)).length = piece0.n ∧ asked.landWaits 23 0 = false ∧
    asked.ownClean 23 loadD.started = true ∧ (asked.lake 23).injArm = false ∧ (asked.lake 23).inMaint (lRow (piece0.own / 8)) = false ∧
    slateMeets (asked.lake 23) (lRow (piece0.own / 8)) (.land 0) (asked.slate (piece0.own / 8)) = true ∧
    asked.early (.waiters 23) (.wired 8) = none ∧ (asked.lake 23).waiters.length < 64 ∧ asked.draining = false ∧ loadD.started.ready = [] := by decide +kernel
theorem witness_StackAnswersAndCompletion_store : (stored.spring 23).descs.filter (·.seq = 0) = [{ storeD with stage := .flight, issued := true, asked := [0] }] ∧
    pieceOf storeD 0 ≠ none ∧ dKind storeD.w = 2 ∧ ran (.stackWriteAck 23 0 0 .ok) stored (fun t => (t.desc 23 0).any (·.returned = [0])) = true := by
  decide +kernel
/-- R183: the row that the piece filled is RESERVED. -/
theorem test_landing : ran (.stackReadReturn 23 0 0 .ok (List.replicate 8 0x77)) asked
    (fun t => readByte t.mem (24 * 0xC00000 - 0x400) = 0x77 ∧ t.slate (24 * 49152 - 4) = .reserved ∧ t.slate (24 * 49152 - 3) = .empty) = true := by
  decide +kernel
/-- Both rows of the LOAD have landed, with `SIG_DONE` on cue 4,095. -/
def doneD : Desc := { descOf 0 (form 0xA1 4095 (inStack 0) (onDie 23 (0xC00000 - 0x400)) 0x200 1 0) with
  stage := .flight, issued := true, asked := [0, 1], returned := [0, 1], written := [0, 1], landed := [24 * 49152 - 4, 24 * 49152 - 3] }
def landedS (ds : List Desc) : State := (((sprung ds).modCue 4095 fun c => { c with owner := ⟨0x40, 7⟩ }).setSlate (24 * 49152 - 4) .reserved).setSlate (24 * 49152 - 3) .reserved
theorem witness_StackAnswersAndCompletion_done : (landedS [doneD]).canonical = true ∧ ((landedS [doneD]).spring 23).descs.filter (·.seq = 0) = [doneD] ∧
    doneD.finished = true ∧ (landedS [doneD]).tableFull 23 = false ∧ doneD.ready = [] ∧ dSigDone doneD.w = true ∧
    (landedS [doneD]).maySignal false ⟨0x40, 7⟩ 4095 = true ∧ heldWaits (landedS [doneD]) 4095 = [] ∧ (landedS [doneD]).landedBy 23 doneD (24 * 49152 - 3) = true := by
  decide +kernel
theorem test_completion : ran (.descriptorComplete 23 0) (landedS [doneD]) (fun t => t.slate (24 * 49152 - 4) = .full ∧ t.slate (24 * 49152 - 3) = .full ∧
    (t.cue 4095).count = 1 ∧ t.pw.now = 1) = true := by decide +kernel

theorem witness_StackAnswersAndCompletion_settled : (landedS []).canonical = true ∧ (landedS []).allIssued 23 = true ∧ (landedS []).noneOrdered 23 = true ∧
    (∀ k, heldWaits base k = []) ∧ (∀ n, base.allIssued n = true) ∧ (∀ n, base.noneOrdered n = true) :=
  ⟨by decide +kernel, by decide +kernel, by decide +kernel, fun _ => rfl, fun _ => rfl, fun _ => rfl⟩

/-- A cut of the second descriptor of two, and of one in flight. -/
theorem witness_CutsAndTaskAbortsRun_cut : (sprung [nopD, { nopD with seq := 1 }]).opens mgmt (pageOff 23 0x4020) 4 = true ∧
    (sprung [nopD]).mastersLake mgmt 23 = true ∧ ((sprung [nopD]).spring 23).cutBusy = false ∧
    ran (.sprCut mgmt 23 1) (sprung [nopD, { nopD with seq := 1 }]) (fun t => (t.spring 23).cancelled = 1 ∧ (t.spring 23).cutBusy) = true := by decide +kernel
def cutting : State := (landedS [{ doneD with cut := true }]).modSpring 23 fun x => { x with cutBusy := true }
theorem witness_CutsAndTaskAbortsRun_cut_end : cutting.opens mgmt (pageOff 23 0x4020) 4 = true ∧ (cutting.spring 23).cutBusy = true ∧
    (cutOf (cutting.spring 23)).all (cutting.quiet 23) = true ∧ cutOf (cutting.spring 23) ≠ [] ∧ cutting.tableFull 23 = false ∧
    ran (.cutComplete 23) cutting (fun t => t.slate (24 * 49152 - 4) = .empty ∧ (t.spring 23).cutDone) = true := by decide +kernel
theorem witness_CutsAndTaskAbortsRun_abort : (landedS [doneD]).opens mgmt 0x120 4 = true ∧ (landedS [doneD]).tm.abBusy = false ∧
    (landedS [doneD]).tm.abQueue = [] := by decide +kernel
theorem witness_CutsAndTaskAbortsRun_abort_waits :
    let s : State := { landedS [doneD] with tm := { based.tm with abQueue := [⟨⟨0x41, 7⟩, 0, 0, 0, 0, .poison, 0⟩] } }
    s.opens mgmt 0x120 4 = true ∧ s.tm.abBusy = false ∧ s.tm.abQueue ≠ [] ∧
    ran (.taskAbort mgmt 0x740) s (fun t => t = s.rejected mgmt 0x120 2) = true := by decide +kernel
def aborting : State := { landedS [{ doneD with removed := true }] with tm := { based.tm with
  abBusy := true, abCur := ⟨0x40, 7⟩, abFirst := some ⟨⟨0x40, 7⟩, 0, 0, 0, 0, .ok, 0⟩, abSrcPos := 9 } }
theorem witness_CutsAndTaskAbortsRun_abort_end : aborting.opens mgmt 0x120 4 = true ∧ aborting.tm.abBusy = true ∧ abortReady aborting = true ∧
    aborting.tm.abQueue = [] ∧ ((List.range 24).all fun n => !aborting.tableFull n) = true ∧ aborting.landedBy 23 { doneD with removed := true } (24 * 49152 - 4) = true ∧
    ran .taskAbortComplete aborting (fun t => t.slate (24 * 49152 - 4) = .stale ∧ t.tm.abDone ∧ t.err.intake.length = 1) = true := by decide +kernel
/-- R192: the oldest fault that waits starts its abort in the next T-cycle. -/
theorem witness_CutsAndTaskAbortsRun_abort_next :
    let s : State := { aborting with tm := { aborting.tm with abQueue := [⟨⟨0x41, 7⟩, 0, 0, 0, 0, .poison, 0⟩] } }
    s.tm.abBusy = true ∧ abortReady s = true ∧ ((List.range 24).all fun n => !s.tableFull n) = true := by decide +kernel
/-! ### Cues, takes and slates -/

/-- Cue 4,095, of the task on vector cluster 63, at a count of 65,535, with its home lake ON; and the same with one wait held. -/
def cue63 : State := (tasks.modCue 4095 fun c => { c with owner := ⟨63, 9⟩, count := 65535 }).modLp (tasks.homeOf 4095) fun x => { x with state := .on }
def waiting : State := cue63.modLake (cue63.homeOf 4095) fun l => { l with
  waiters := [⟨77, whoOf cue63 (.vc 63), .cue 4095 65535 vc63, [], 0⟩] }
/-- An unprivileged task, which owns no cue. -/
def cue0 : State := cue63.modCue 4095 fun c => { c with owner := ⟨63, 9⟩, sigOpen := false }

theorem witness_CuesSignalledAndAwaited_signal : cue63.opens vc63 (0x80000 + 4095 * 64 + 0x10) 8 = true ∧ bits (0x2FFFF : BitVec 64) 16 2 < 3 ∧
    engineAwaits cue63 63 2 = [] ∧ cue63.maySignal true ⟨63, 9⟩ 4095 = true ∧ bits (0x2FFFF : BitVec 64) 0 16 ≠ 0 ∧ heldWaits cue63 4095 = [] ∧
    bits (0x20000 : BitVec 64) 0 16 = 0 ∧ ran (.cueSignal vc63 4095 0x2FFFF) cue63 (fun t => (t.cue 4095).count = 65535 ∧ (t.cue 4095).lost = 65535) = true := by
  decide +kernel
theorem witness_CuesSignalledAndAwaited_denied : cue0.opens vc0 (0x80000 + 4095 * 64 + 0x10) 8 = true ∧ engineAwaits cue0 0 0 = [] ∧
    (whoOf cue0 vc0.port).priv = false ∧ cue0.maySignal false ⟨0, 5⟩ 4095 = false := by decide +kernel
/-- A write of the task is on its way, unanswered. -/
def flying : State := { cue63 with remotes := [⟨88, whoOf cue63 (.vc 63), 5, .write, false, some vc63, none⟩] }
theorem witness_CuesSignalledAndAwaited_held : flying.opens vc63 (0x80000 + 4095 * 64 + 0x10) 8 = true ∧ engineAwaits flying 63 2 ≠ [] ∧
    ran (.cueSignal vc63 4095 0x20001) flying (fun t => t.signals.length = 1 ∧ (t.cue 4095).count = 65535 ∧ !(t.cue 4095).ovf) = true := by decide +kernel
def signalHeld : HeldSignal := ⟨5, vc63, whoOf cue63 (.vc 63), 4095, 0x20001, [.num 4], []⟩
def signalling : State := { cue63 with signals := [signalHeld] }
theorem witness_CuesSignalledAndAwaited_sent : signalling.signals.find? (·.id = 5) = some signalHeld ∧ settled signalling (bits signalHeld.v 16 2) signalHeld.waits = true ∧
    signalling.maySignal true ⟨63, 9⟩ 4095 = true ∧ bits signalHeld.v 0 16 ≠ 0 ∧ heldWaits signalling 4095 = [] ∧
    ran (.cueSignalSend 5) signalling (fun t => t.signals = [] ∧ (t.cue 4095).ovf) = true := by decide +kernel

theorem witness_CuesSignalledAndAwaited_wait : cue63.opens vc63 (0x80000 + 4095 * 64 + 0x18) 8 = true ∧ cue63.mayWait true ⟨63, 9⟩ 4095 = true ∧
    bits (0xFFFF : BitVec 64) 0 16 ≠ 0 ∧ bits (0xFFFF : BitVec 64) 0 16 ≤ (cue63.cue 4095).count ∧ heldWaits cue63 4095 = [] ∧
    ran (.cueWait vc63 4095 0xFFFF) cue63 (fun t => (t.cue 4095).count = 0) = true := by decide +kernel
theorem witness_CuesSignalledAndAwaited_wait_held : waiting.opens vc63 (0x80000 + 4095 * 64 + 0x18) 8 = true ∧ heldWaits waiting 4095 ≠ [] ∧
    (waiting.lp (waiting.homeOf 4095)).state = .on ∧ waiting.early (.waiters (Fin.ofNat 24 (waiting.homeOf 4095))) (whoOf waiting (.vc 63)).ident = none ∧
    (waiting.lake (waiting.homeOf 4095)).waiters.length < 64 ∧
    ran (.cueWait vc63 4095 1) waiting (fun t => (t.lake (waiting.homeOf 4095)).waiters.length = 2 ∧ (t.cue 4095).count = 65535) = true := by decide +kernel
theorem witness_CuesSignalledAndAwaited_count : cue63.opens mgmt (0x80000 + 4095 * 64 + 0x08) 8 = true ∧ cue63.privileged mgmt = true ∧
    ran (.cueCountWrite mgmt 4095 7) (cue63.modCue 4095 fun c => { c with ovf := true, lost := 3 })
      (fun t => (t.cue 4095).count = 7 ∧ !(t.cue 4095).ovf ∧ (t.cue 4095).lost = 0) = true := by decide +kernel
theorem witness_CuesSignalledAndAwaited_config : cue63.opens mgmt (0x80000 + 4095 * 64) 8 = true ∧ Config.lakePresent cue63.variant (bits (0x17000740 : BitVec 64) 24 5) = true ∧
    bits (0x17000740 : BitVec 64) 24 5 = 23 ∧ waiting.opens mgmt (0x80000 + 4095 * 64) 8 = true ∧ heldWaits waiting 4095 ≠ [] ∧
    (⟨BitVec.ofNat 8 (bits (0x17000740 : BitVec 64) 0 8), BitVec.ofNat 12 (bits (0x17000740 : BitVec 64) 8 12)⟩ : Principal) ≠ (waiting.cue 4095).owner ∧
    ran (.cueCfgWrite mgmt 4095 0x17000740) cue63 (fun t => (t.cue 4095).owner = ⟨0x40, 7⟩ ∧ (t.cue 4095).home = 23) = true := by decide +kernel

/-- Matrix engine 15, its third wide port, sub-shore 3, position 1. -/
def meC : TakeCmd := ⟨15, 2, 3, true, 6⟩
def meLake : Nat := portLake 15 2
/-- A take with one operand row, the last of the lake, and one result row, the first; it signals cue 4,095 and consumes. -/
def fields : TakeFields := ⟨true, true, 0, 4095, ⟨49151, 1⟩, ⟨0, 0⟩, ⟨0, 1⟩⟩
def engined : State := (((based.setCtx (80 + 8 * meLake + subShore 15 2 3) (task 0x4F 11 3 false)).modLake meLake fun l => { l with owner := ⟨0x4F, 11⟩, aSplit := 2, bSplit := 2 }).modLp
  meLake fun x => { x with state := .on }).modCue 4095 fun c => { c with owner := ⟨0x4F, 11⟩ }
def taking (st : TakeState) : State :=
  (engined.putTake meLake (cmdSlot meC) { Take.reset with state := st, f := fields, pr := ⟨0x4F, 11⟩, who := some (whoOf engined (cmdPort meC)), byCmd := true, cause := 1, fault := true }).setSlate
    (meLake * 49152) .reserved |>.setSlate (meLake * 49152 + 49151) .full

theorem witness_TakesOpenedAndEndAsked_open : engined.takesAt meC = true ∧
    ([fields.opa, fields.opb, fields.res].all fun g => g.count.toNat = 0 || g.first.toNat + g.count.toNat ≤ 49152) = true ∧
    openRights engined (whoOf engined (cmdPort meC)) meLake fields = true ∧ (engined.takeOf meC).state = .free ∧
    rangeMeets fields.opa fields.res = false ∧ rangeMeets fields.opb fields.res = false ∧
    ((List.range 16).all fun i => ((engined.lake meLake).take i).state = .free) = true ∧
    engined.meetsSpan meLake fields.res.first.toNat fields.res.count.toNat = false ∧ (engined.lake meLake).slBusy = false ∧
    engined.preempted 15 2 3 = false ∧ (engined.mte meLake).busy = false ∧ (engined.lake meLake).convBusy = false ∧
    ran (.takeOpen meC fields) engined (fun t => (t.takeOf meC).state = .open ∧ (t.takeOf meC).f = fields) = true := by decide +kernel
theorem witness_TakesOpenedAndEndAsked_refused : (taking .open).takesAt meC = true ∧ openRights (taking .open) (whoOf (taking .open) (cmdPort meC)) meLake fields = true ∧
    ((taking .open).takeOf meC).state ≠ .free := by decide +kernel
theorem witness_TakesOpenedAndEndAsked_end : ((taking .open).takeOf meC).state = .open ∧ ((taking .open).lake meLake).waiters = [] ∧
    ran (.takeCommit meC) (taking .open) (fun t => (t.takeOf meC).state = .committing) = true ∧
    ran (.takeAbort meC true) (taking .open) (fun t => (t.takeOf meC).state = .aborting) = true := by decide +kernel
theorem witness_TakesOpenedAndEndAsked_free : engined.takesAt meC = true ∧ (engined.takeOf meC).state = .free := by decide +kernel

theorem witness_TakeStepEnds_commit : (taking .committing).canonical = true ∧ (taking .committing).tableFull meLake = false ∧
    (((taking .committing).lake meLake).take (cmdSlot meC)).state = .committing ∧ commitWaits (taking .committing) meLake (cmdSlot meC) = false ∧
    heldWaits (taking .committing) 4095 = [] ∧
    ran (.takeCommitStep (Fin.ofNat 24 meLake) (Fin.ofNat 16 (cmdSlot meC))) (taking .committing) (fun t => t.slate (meLake * 49152) = .full ∧
      t.slate (meLake * 49152 + 49151) = .empty ∧ (t.cue 4095).count = 1 ∧ (t.takeOf meC).state = .free) = true := by decide +kernel
theorem witness_TakeStepEnds_abort : (taking .aborting).canonical = true ∧ (taking .aborting).tableFull meLake = false ∧
    (((taking .aborting).lake meLake).take (cmdSlot meC)).state = .aborting ∧
    ran (.takeAbortStep (Fin.ofNat 24 meLake) (Fin.ofNat 16 (cmdSlot meC))) (taking .aborting) (fun t => t.slate (meLake * 49152) = .stale ∧
      t.slate (meLake * 49152 + 49151) = .full ∧ (t.takeOf meC).state = .free) = true := by decide +kernel

theorem witness_PreemptionRuns : engined.opens mgmt 0x180 8 = true ∧ engined.privileged mgmt = true ∧ engined.tm.peBusy = false ∧
    bits (0xFFFF000FFF0F : BitVec 64) 8 12 ≠ 0 ∧ bits (0xF : BitVec 64) 8 12 = 0 ∧
    ran (.preempt mgmt 0xFFFF000FFF0F) (taking .open) (fun t => t.tm.peBusy ∧ t.tm.peMe = 15 ∧ t.tm.peDeadline = 65535) = true := by decide +kernel
/-- A pre-emption of all of matrix engine 15 in progress. -/
def preempting : State := { taking .open with tm := { (taking .open).tm with peBusy := true, peMe := 15, peSub := 0xFFF, peDeadline := 20 } }
theorem witness_PreemptionRuns_deadline : preempting.opens mgmt 0x180 8 = true ∧ preempting.canonical = true ∧ preempting.tm.peBusy = true ∧
    preempting.tm.pePassed = false ∧ (preemptSlots preempting).contains (meLake, cmdSlot meC) = true ∧
    (preempting.takeOf meC).state = .open := by decide +kernel

/-- A vector core's CONSUME of word 7 of row 23:0, held since T-cycle 0 with a timeout of 50; its row has become FULL. -/
def conReq : Req := { port := .vc 63, tag := 4, addr := BitVec.ofNat 64 (23 * 0xC00000 + 0xE0), words := 1 }
def conRow : RowReq := ⟨23 * 49152, [7], [], false⟩
def conWaiter : Waiter := ⟨70, { whoOf tasks (.vc 63) with timeout := 50 }, .access .read conReq .consume 61 0 [conRow], [23 * 49152], 0⟩
def conFlight : Flight := ⟨61, whoOf tasks (.vc 63), .read, conReq, 0, [], [none], 20, 0⟩
def consuming (sl : Slate) : State :=
  { ((tasks.modLake 23 fun l => { l with waiters := [conWaiter] }).putWords (23 * 49152) [(7, 0xAB)]).setSlate (23 * 49152) sl with flights := [conFlight] }
theorem witness_WaitersWokenAndTimedOut_woken : ((consuming .full).lake 23).waiters = [conWaiter] ∧ (consuming .full).flights.find? (·.rid = 61) = some conFlight ∧
    (consuming .full).draining = false ∧ ((consuming .full).lp 23).state = .on ∧ (consuming .full).slate (23 * 49152) = .full ∧
    ((consuming .full).lake 23).inMaint (lRow (23 * 49152)) = false ∧ (consuming .full).clean (23 * 49152) = true ∧ lakeOf (23 * 49152) = 23 := by decide +kernel
theorem test_woken : ran (.waiterWake (23 * 49152)) (consuming .full) (fun t => t.slate (23 * 49152) = .empty ∧ t.flights = [] ∧
    t.out.head? = some (.resp (.vc 63) 4 .ok [0xAB] 20 0)) = true := by decide +kernel
theorem witness_WaitersWokenAndTimedOut_access : (consuming .empty).canonical = true ∧ ((consuming .empty).lake 23).waiters.find? (·.id = 70) = some conWaiter ∧
    conWaiter.who.timeout ≠ 0 ∧ (consuming .empty).flights.find? (·.rid = 61) = some conFlight := by decide +kernel
def cueWaiter : Waiter := ⟨70, { whoOf tasks (.vc 63) with timeout := 1 }, .cue 4095 65535 vc63, [], 0⟩
def cueWaiting : State := tasks.modLake 23 fun l => { l with waiters := [cueWaiter] }
theorem witness_WaitersWokenAndTimedOut_cue : cueWaiting.canonical = true ∧ (cueWaiting.lake 23).waiters.find? (·.id = 70) = some cueWaiter ∧
    cueWaiter.who.timeout ≠ 0 ∧ ran (.waiterTimeout 23 70) cueWaiting (fun t => (t.lake 23).waiters = []) = true := by decide +kernel

/-- A commit's step that waited for an entry of the table, which has one now. -/
def entering : State := ((taking .committing).modLake meLake fun l => { l with
  stepWait := [.take (cmdSlot meC), .cut] }).modLake meLake fun l => l.setTake (cmdSlot meC) { l.take (cmdSlot meC) with f := { fields with sig := false } }
theorem witness_RangeTableWorks_entered : entering.canonical = true ∧ entering.tableFull meLake = false ∧
    (entering.lake meLake).stepWait = [.take (cmdSlot meC), .cut] ∧ (entering.takeOf meC).state = .committing ∧
    commitWaits entering meLake (cmdSlot meC) = false ∧ (entering.takeOf meC).f.sig = false ∧
    ran (.rangeStepEnter (Fin.ofNat 24 meLake)) entering (fun t => t.slate (meLake * 49152) = .full ∧ (t.lake meLake).stepWait = [.cut]) = true := by decide +kernel
def swept : State := tasks.modLake 23 fun l => { l with steps := [⟨[(24 * 49152 - 1, .full)]⟩] }
theorem witness_RangeTableWorks_swept : stepSlate (swept.lake 23).steps (24 * 49152 - 1) = some .full ∧ lakeOf (24 * 49152 - 1) = 23 ∧
    swept.draining = false ∧ (swept.lp 23).state = .on ∧
    ran (.tagSweep (24 * 49152 - 1)) swept (fun t => (t.tag (24 * 49152 - 1)).slate = .full ∧ (t.lake 23).steps = []) = true := by decide +kernel

/-- The last row of lake 23, to STALE with zeros. -/
def slateLast : BitVec 64 := BitVec.ofNat 64 (49151 + 2 ^ 16 + 2 ^ 32 * 3 + 2 ^ 34)
theorem witness_SlateMaintenanceRuns_start : tasks.opens mgmt (pageOff 23 0x200) 8 = true ∧ tasks.mastersLake mgmt 23 = true ∧ (tasks.lake 23).slBusy = false ∧
    bits slateLast 16 16 ≠ 0 ∧ bits slateLast 0 16 + bits slateLast 16 16 = 49152 ∧ bits slateLast 32 2 ≠ 1 ∧
    maintBlocked tasks 23 (bits slateLast 0 16) (bits slateLast 16 16) = false ∧ (tasks.mte 23).busy = false := by decide +kernel
def maintained (next : Nat) : State := (tasks.putWords (24 * 49152 - 1) [(0, 1)]).modLake 23 fun l => { l with
  slFirst := 49151, slCount := 1, slState := 3, slZero := true, slBusy := true, slNext := next }
theorem witness_SlateMaintenanceRuns_row : (maintained 49151).opens mgmt (pageOff 23 0x200) 8 = true ∧ ((maintained 49151).lake 23).slBusy = true ∧
    ((maintained 49151).lake 23).slNext < 49152 ∧ (maintained 49151).draining = false ∧ ((maintained 49151).lp 23).state = .on ∧
    ran (.slateOpRow 23) (maintained 49151) (fun t => t.slate (24 * 49152 - 1) = .stale ∧ t.mem = [] ∧ (t.lake 23).slNext = 49152) = true := by decide +kernel
theorem witness_SlateMaintenanceRuns_done : ((maintained 49152).lake 23).slBusy = true ∧ (maintained 49152).canonical = true ∧ ((maintained 49152).lake 23).waiters = [] ∧
    ran (.slateOpDone 23) (maintained 49152) (fun t => (t.lake 23).slDone ∧ !(t.lake 23).slBusy ∧ t.pw.now = 1) = true := by decide +kernel

/-! ### Fences, kernel boundaries, windows and the basin -/

theorem witness_FencesAndKernelBoundariesRun_fence : tasks.running = true ∧ tasks.slotDead vc63.port = false ∧ engineAwaits tasks 63 2 = [] ∧
    flying.running = true ∧ flying.slotDead vc63.port = false ∧ engineAwaits flying 63 2 ≠ [] ∧ engineAwaits flying 63 1 = [] ∧
    ran (.fence vc63 3) tasks (fun t => t.err.intake.length = 1 ∧ t.out.head? = some (.fenceDone (.vc 63) 3 .nackState)) = true := by decide +kernel
/-- A fence of scope 2 whose access is still on its way, and one of scope 0. -/
def fenceOf (scope : Fin 4) : Fence := ⟨6, vc63, scope, [.num 88]⟩
def fenced (scope : Fin 4) : State := { flying with fences := [fenceOf scope] }
theorem witness_FencesAndKernelBoundariesRun_complete : (fenced 2).fences.find? (·.id = 6) = some (fenceOf 2) ∧ (fenced 2).pw.deep = 0 ∧
    settled (fenced 2) 2 [.num 88] = false ∧ settled (fenced 0) 0 [.num 88] = true ∧ ran (.fenceComplete 6) (fenced 0) (fun t => t.fences = []) = true := by decide +kernel
theorem witness_FencesAndKernelBoundariesRun_kernel : flying.opens mgmt 0x140 4 = true ∧ flying.privileged mgmt = true ∧ flying.tm.kBusy = false ∧
    ran (.kernelEnd mgmt 0xFFFF) flying (fun t => t.tm.kBusy ∧ t.tm.kLast = 0xFFFF ∧ t.tm.kCover = [.num 88]) = true := by decide +kernel
def bounded (ws : List Access) : State := { flying with tm := { flying.tm with kBusy := true, kCover := ws } }
theorem witness_FencesAndKernelBoundariesRun_done : (bounded []).opens mgmt 0x140 4 = true ∧ (bounded []).tm.kBusy = true ∧ settled (bounded []) 2 [] = true ∧
    settled (bounded [.num 88]) 2 [.num 88] = false ∧ ran .kernelBoundaryDone (bounded []) (fun t => !t.tm.kBusy ∧ t.tm.kDone ∧ t.pw.now = 2) = true := by decide +kernel

/-- Window 255 over the last row of lake 23, for one endpoint, owned as the lake is. -/
def windowed (st : WinState) : State := tasks.modWin 255 fun x => { x with
  owner := (tasks.lake 23).owner, first := 49151, rows := 1, lake := 23, epFirst := 0x300, epLast := 0x300, state := st }
theorem witness_WindowsConfiguredOpenedAndClosed_config : (windowed .free).opens mgmt (0xC0000 + 255 * 64) 4 = true ∧ (windowed .free).privileged mgmt = true ∧
    ((windowed .free).win 255).state = .free ∧ ([(8, 8), (16, 4), (24, 4)].all fun a => (windowed .free).opens mgmt (0xC0000 + 255 * 64 + a.1) a.2) = true ∧
    (windowed .open).opens mgmt (0xC0000 + 255 * 64) 4 = true ∧ ((windowed .open).win 255).state ≠ .free ∧
    ([(8, 8), (16, 4), (24, 4)].all fun a => (windowed .open).opens mgmt (0xC0000 + 255 * 64 + a.1) a.2) = true := by decide +kernel
theorem witness_WindowsConfiguredOpenedAndClosed_open : (windowed .free).opens mgmt (0xC0000 + 255 * 64 + 0x20) 4 = true ∧
    Config.lakePresent tasks.variant 23 = true ∧ ((windowed .free).lp 23).state.down = false ∧ ((windowed .free).win 255).owner = ((windowed .free).lake 23).owner ∧
    ((windowed .free).win 255).first.toNat + ((windowed .free).win 255).rows.toNat = 49152 ∧ ((windowed .free).win 255).mode = 0 ∧
    ((windowed .free).wins.map (·.1)) = [255] ∧ ((windowed .free).mte 23).busy = false ∧
    ran (.winOpen mgmt 255) (windowed .free) (fun t => (t.win 255).state = .open) = true := by decide +kernel
theorem witness_WindowsConfiguredOpenedAndClosed_close : ((windowed .open).win 255).state = .open ∧ ((windowed .closed).win 255).state = .closed ∧
    (windowed .open).opens mgmt (0xC0000 + 255 * 64 + 0x20) 4 = true ∧ (windowed .closed).opens mgmt (0xC0000 + 255 * 64 + 0x20) 4 = true ∧
    ran (.winClose mgmt 255) (windowed .open) (fun t => (t.win 255).state = .closing ∧ t.out = []) = true ∧
    ran (.winRelease mgmt 255) (windowed .closed) (fun t => (t.win 255).state = .free) = true := by decide +kernel
/-- Its lake absent from a smaller part, its lake OFF, and two rows from its lake's last. -/
def winAbsent : State := { tasks.modWin 0 fun x => { x with lake := 23, rows := 1 } with variant := .zt9s }
def winOff : State := (windowed .free).modLp 23 fun x => { x with state := .off }
def winPast : State := (windowed .free).modWin 255 fun x => { x with rows := 2 }
theorem witness_WindowsConfiguredOpenedAndClosed_refused : winAbsent.opens mgmt (0xC0000 + 0x20) 4 = true ∧ ([winOff, winPast, windowed .closing].all fun s => s.opens mgmt (0xC0000 + 255 * 64 + 0x20) 4) = true ∧
    Config.lakePresent winAbsent.variant 23 = false ∧ (winOff.lp 23).state.down = true ∧ ((windowed .closing).win 255).state = .closing ∧
    ran (.winOpen mgmt 0) winAbsent (fun t => t = winAbsent.reply mgmt .absent) = true ∧
    ran (.winOpen mgmt 255) winOff (fun t => t = winOff.reply mgmt .nackLakeOff) = true ∧
    ran (.winOpen mgmt 255) winPast (fun t => t = winPast.reply mgmt .nackBound) = true := by decide +kernel
def winClosing : State := (windowed .closing).modWin 255 fun x => { x with closers := [mgmt] }
/-- A write through the window is held at its lake. -/
def farReq : Req := { port := .dexfer 3 0x300, tag := 8, addr := BitVec.ofNat 64 (24 * 0xC00000 - 0x100), words := 1 }
def winHeld : State := winClosing.modLp 23 fun x => { x with held := [.access .write farReq [1] 0 (whoOf winClosing farReq.port) (some (23, 8 * (24 * 49152 - 1))) 4] }
theorem witness_WindowsConfiguredOpenedAndClosed_closed : (winClosing.win 255).state = .closing ∧ winBusy winClosing (winClosing.win 255) = false ∧ (winHeld.win 255).state = .closing ∧
    winBusy winHeld (winHeld.win 255) = true ∧
    ran (.winClosed 255) winClosing (fun t => (t.win 255).state = .closed ∧ t.out = [.reg .mgmt 0 .ok 0] ∧ t.pw.now = 1) = true := by decide +kernel

/-- A SHARED LOAD of one line whose group, 0, has way 0 alone (R203). -/
def sharedD : Desc := { descOf 0 (form 0x11 0 (inStack 0x100) (onDie 23 0) 0x100 1 0) with stage := .flight, issued := true, asked := [0] }
def sharing : State := { sprung [sharedD] with weir := { based.weir with ways0 := 1 } }
def sharedLine : Line := ⟨true, false, 1, false, List.replicate 8 0x33, [2], [], 0⟩
def holding : State := { sharing with basin := { sharing.basin with lines := [(16 * basinSet sharing.variant 1 + 15, sharedLine)] } }
theorem witness_BasinServesAndForgets_looked : sharing.desc 23 0 = some sharedD ∧ dKind sharedD.w = 1 ∧ dShared sharedD.w = true ∧ pieceOf sharedD 0 ≠ none ∧
    ((piecesOf sharedD.w).map fun p => stackOf sharing p.other) = [(false, 256)] ∧ sharing.basin.fills = [] ∧
    sharing.basin.match (basinSet sharing.variant 1) false 1 = none ∧ sliceFills sharing (basinSet sharing.variant 1) < 16 ∧
    waysOf sharing (sharing.groupOf sharedD.slot.label) = 2 ^ 0 ∧ holding.desc 23 0 = some sharedD ∧
    holding.basin.match (basinSet holding.variant 1) false 1 = some 15 := by decide +kernel
/-- R201, R204: found, with an error corrected; found with one that cannot be; read anew; merged with the fill that runs; without a way to allocate. -/
theorem test_lookup_found : ran (.basinLookup 23 0 0 [(31, false)]) holding (fun t => (t.desc 23 0).any (·.returned = [0]) ∧ !t.basin.eccDrop ∧
    (t.basin.way (basinSet holding.variant 1) 15).corr = []) = true := by decide +kernel
theorem test_lookup_dropped : ran (.basinLookup 23 0 0 [(31, true)]) holding (fun t => t.basin.eccDrop ∧ t.basin.lines = [] ∧ t.basin.fills.length = 1) = true := by
  decide +kernel
theorem test_lookup_missed : ran (.basinLookup 23 0 0 []) sharing (fun t => t.out = [.basinRead false 1 1 ⟨0x40, 7⟩] ∧ t.basin.fills.map (·.way) = [0]) = true := by
  decide +kernel
/-- A fill of line 1 into way 15 that no read waits for, and one that the LOAD waits for. -/
def fillOf (rs : List (Nat × Nat × Nat)) : Fill := ⟨false, 1, basinSet sharing.variant 1, 15, false, rs, 0⟩
def filling (rs : List (Nat × Nat × Nat)) : State := { sharing with basin := { sharing.basin with fills := [fillOf rs] } }
theorem witness_BasinServesAndForgets_filled : (filling []).basin.fills.find? (fun g => g.sib = false && g.line = 1) = some (fillOf []) ∧
    (List.replicate 8 (5 : Word)).length = 8 ∧ (filling [(23, 0, 0)]).desc 23 0 = some sharedD ∧
    ran (.basinFillReturn false 1 .ok (List.replicate 8 5)) (filling []) (fun t => (t.basin.way (basinSet sharing.variant 1) 15).data = List.replicate 8 5) = true ∧
    ran (.basinFillReturn false 1 .ok (List.replicate 8 5)) (filling [(23, 0, 0)]) (fun t => (t.desc 23 0).any (·.returned = [0])) = true := by decide +kernel
theorem witness_BasinServesAndForgets_merged : (filling []).basin.match (basinSet sharing.variant 1) false 1 = none ∧ (filling []).barred (fillOf []) = false ∧
    ran (.basinLookup 23 0 0 []) (filling []) (fun t => t.out = [] ∧ t.basin.fills.map (·.reqs) = [[(23, 0, 0)]]) = true := by decide +kernel
def noWay : State := { sharing with weir := { sharing.weir with ways0 := 0 } }
theorem witness_BasinServesAndForgets_passed : noWay.desc 23 0 = some sharedD ∧ noWay.basin.fills = [] ∧ waysOf noWay (noWay.groupOf sharedD.slot.label) = 0 ∧
    ran (.basinLookup 23 0 0 []) noWay (fun t => t.out = [.stackRead 23 0 0 false 256 8 1] ∧ t.basin.fills = []) = true := by decide +kernel
def invRange : State := { holding with basin := { holding.basin with invAddr := 0, invLen := 1 } }
def invZero : State := { holding with basin := { holding.basin with invLen := 0 } }
def invBusy : State := { holding with basin := { holding.basin with busy := true, due := 3, invLen := 1 } }
theorem witness_BasinServesAndForgets_invalidated : holding.opens mgmt 0x400 8 = true ∧ holding.privileged mgmt = true ∧ holding.basin.busy = false ∧
    invZero.opens mgmt 0x400 8 = true ∧ invZero.basin.invLen.toNat = 0 ∧ invRange.opens mgmt 0x400 8 = true ∧ invRange.basin.invLen.toNat ≠ 0 ∧
    bits (BitVec.ofNat 64 (256 * (2 ^ 36 - 1))) 8 36 + invRange.basin.invLen.toNat ≤ 2 ^ 36 ∧ invBusy.opens mgmt 0x400 8 = true ∧ invBusy.basin.busy = true ∧
    ran (.basinInvAll mgmt 0) holding (fun t => t.basin.busy ∧ t.basin.start = 0) = true ∧
    ran (.basinInvRange mgmt 0x100) invRange (fun t => t.basin.busy ∧ t.basin.walkLen = 1) = true ∧
    ran .basinInvDone { invBusy with basin := { invBusy.basin with walkLen := 2 } } (fun t => !t.basin.busy ∧ t.basin.done ∧ t.basin.lines = [] ∧ t.pw.now = 3) = true := by decide +kernel

/-! ### Storage -/

/-- The last `k` words of lake 23, or of its first row but the last four, in a view (0 data, 2 peek, 3 slated), as the management stop
names them. -/
def reqAt (view w k : Nat) : Req := { port := .mgmt, tag := 2, addr := BitVec.ofNat 64 (view * 0x20000000 + 32 * w), words := k }
def lastW : Nat := 8 * 24 * 49152 - 8
/-- Lake 23's last row holds 0xA0 in its word 7 and is FULL; the row before it is EMPTY. -/
def filled : State := (tasks.putWords (24 * 49152 - 1) [(7, 0xA0)]).setSlate (24 * 49152 - 1) .full

/-- The status and the words of the last response. -/
def lastSt (t : State) : Option Status := match t.out with | .resp _ _ st _ _ _ :: _ => some st | _ => none
def lastWords (t : State) : List Word := match t.out with | .resp _ _ _ d _ _ :: _ => d | _ => []

theorem witness_ReadsAnswered : filled.serves .read (reqAt 0 lastW 8) .data lastW = true ∧ filled.serves .read (reqAt 0 (lastW - 4) 8) .data (lastW - 4) = true ∧
    filled.serves .read (reqAt 2 lastW 8) .peek lastW = true ∧ filled.serves .read (reqAt 3 lastW 8) .pc lastW = true ∧
    filled.apart (reqAt 3 lastW 8) = true ∧ filled.room (reqAt 3 lastW 8) .pc 23 = true ∧ lakeOf (wordRow lastW) = 23 ∧
    filled.readable .pc (wordRow lastW) = true ∧ filled.readable .data (wordRow (lastW - 4)) = true ∧
    engined.serves .read { reqAt 0 (meLake * 49152 * 8) 1 with port := .me 15 2 3 } .data (meLake * 49152 * 8) = true := by decide +kernel
/-- Half of a request of two rows is masked (R166). -/
def halfReq : Req := { reqAt 2 (meLake * 49152 * 8 + 4) 8 with port := .me 15 2 3, vbit := some (false, true) }
theorem witness_ReadsAnswered_masked : engined.serves .read halfReq .peek (meLake * 49152 * 8 + 4) = true ∧
    masks halfReq (meLake * 49152 * 8 + 4) (meLake * 49152 * 8 + 4) = true ∧ masks halfReq (meLake * 49152 * 8 + 4) (meLake * 49152 * 8 + 8) = false ∧
    engined.room halfReq .peek meLake = true ∧ engined.apart halfReq = true := by decide +kernel
theorem test_consume : ran (.consume (reqAt 3 (lastW + 7) 1)) filled (fun t => t.slate (24 * 49152 - 1) = .empty ∧
    lastSt t = some .ok ∧ lastWords t = [0xA0]) = true := by decide +kernel
/-- R23: zero data off the map. R13, R218: the stored words, marked, of a STALE row. -/
theorem test_read_off_map : ran (.read (reqAt 0 (24 * 49152 * 8) 1)) filled
    (fun t => lastSt t = some .absent ∧ lastWords t = [0]) = true ∧
    ran (.peek (reqAt 2 (lastW + 7) 1)) (filled.setSlate (24 * 49152 - 1) .stale) (fun t => lastSt t = some .poison ∧ lastWords t = [0xA0]) = true := by
  decide +kernel

theorem witness_WritesStored : filled.serves .write (reqAt 0 (lastW - 4) 8) .data (lastW - 4) = true ∧ filled.serves .write (reqAt 3 (lastW - 1) 1) .pc (lastW - 1) = true ∧
    filled.apart (reqAt 3 (lastW - 1) 1) = true ∧ filled.room (reqAt 3 (lastW - 1) 1) .pc 23 = true ∧ filled.clean (wordRow (lastW - 1)) = true ∧
    (filled.lake 23).inMaint (lRow (wordRow (lastW - 1))) = false ∧
    slateMeets (filled.lake 23) (lRow (wordRow (lastW - 1))) .produce (filled.slate (wordRow (lastW - 1))) = true := by decide +kernel
theorem test_produce : ran (.produce (reqAt 3 (lastW - 1) 1) [0xEE]) filled (fun t => t.slate (24 * 49152 - 2) = .full ∧
    readByte t.mem (32 * (lastW - 1)) = 0xEE ∧ readByte t.mem (32 * (lastW + 7)) = 0xA0) = true := by decide +kernel
/-- A take's write lands in its reserved row. -/
theorem test_take_write : ran (.takeWrite { reqAt 3 (meLake * 49152 * 8) 1 with port := .me 15 2 3, pos := true } [0x11])
    (taking .open) (fun t => t.slate (meLake * 49152) = .reserved ∧ readByte t.mem (meLake * 0xC00000) = 0x11) = true := by decide +kernel

theorem witness_ArrivingWritesGoThroughWindows : (windowed .open).reaches .write farReq .data lastW = true ∧ (windowed .open).apart farReq = true ∧
    ((whoOf (windowed .open) farReq.port).ownGlobal (windowed .open) farReq).arrival = some 0x300 ∧
    ((windowed .open).wins.find? (fun e => e.2.state = .open && e.2.lake.toNat = 23 && e.2.has (lRow (wordRow lastW)))).any (fun e => e.1 = 255 &&
      e.2.admitsSrc 0x300 && e.2.mode = 0) = true ∧ (windowed .open).clean (wordRow lastW) = true := by decide +kernel
theorem test_window_write : ran (.arrivalWrite farReq .write [0x44]) (windowed .open) (fun t => (t.win 255).accepted = 1 ∧ readByte t.mem (32 * lastW) = 0x44) = true ∧
    ran (.arrivalWrite { farReq with port := .dexfer 3 0x301 } .write [0x44]) (windowed .open) (fun t => lastSt t = some .nackOwner ∧ t.mem = []) = true := by
  decide +kernel

theorem witness_StridedReadsAnswered : filled.serves (.xread 3 0) (reqAt 0 (lastW - 56) 1) .data (lastW - 56) = true ∧
    filled.serves (.gather 8) (reqAt 2 (lastW - 56) 8) .peek (lastW - 56) = true ∧ filled.serves (.gather 8) (reqAt 0 (lastW - 56) 8) .data (lastW - 56) = true ∧
    ((wordsOf (.gather 8) (reqAt 0 (lastW - 56) 8) (lastW - 56)).all fun w => filled.readable .data (wordRow w)) = true := by decide +kernel
/-- R148: every eighth word, packed in order. -/
theorem test_gather : ran (.gather (reqAt 0 (lastW - 1) 2) 8) filled
    (fun t => lastWords t = [0, 0xA0]) = true := by decide +kernel

theorem witness_AtomicsApplied : filled.serves (.add ⟨3, 0, true⟩) (reqAt 0 lastW 8) .data lastW = true ∧ modeOf filled 23 (.add ⟨3, 0, true⟩) (reqAt 0 lastW 8) .data = .plain ∧
    filled.serves (.addWide ⟨3, 0, false⟩) (reqAt 0 lastW 8) .data lastW = true ∧ filled.serves (.max ⟨0, 0, false⟩) (reqAt 0 lastW 1) .data lastW = true ∧
    filled.serves (.min ⟨0, 0, false⟩) (reqAt 0 lastW 1) .data lastW = true ∧ filled.serves (.swap 0 7) (reqAt 0 lastW 1) .data lastW = true ∧
    filled.serves (.cas 0 0) (reqAt 0 lastW 1) .data lastW = true ∧ filled.clean (wordRow lastW) = true ∧ filled.apart (reqAt 0 lastW 8) = true := by
  decide +kernel
/-- An integer ADD to word 7 (R160), fetching the old word; MAX, MIN and SWAP of element 0 (R158, R159). -/
theorem test_add : ran (.add (reqAt 0 (lastW + 7) 1) ⟨0, 0, true⟩ [2]) filled (fun t => readByte t.mem (32 * (lastW + 7)) = 0xA2 ∧
    lastWords t = [0xA0]) = true := by decide +kernel
theorem test_max : ran (.max (reqAt 0 (lastW + 7) 1) ⟨0, 0, false⟩ [0xA1]) filled (fun t => readByte t.mem (32 * (lastW + 7)) = 0xA1) = true := by decide +kernel
theorem test_min : ran (.min (reqAt 0 (lastW + 7) 1) ⟨0, 0, false⟩ [0x9F]) filled (fun t => readByte t.mem (32 * (lastW + 7)) = 0x9F) = true := by decide +kernel
theorem test_swap : ran (.swap (reqAt 0 (lastW + 7) 1) 0 0 5) filled (fun t => readByte t.mem (32 * (lastW + 7)) = 5) = true := by decide +kernel

/-! ### Error protection -/

/-- A row with a write-back due, a mark queued and a patrol read due. -/
def troubled (tag : RowTag) (ms : List MarkEntry) : State := { tasks.modLake 23 fun l => { l with
    wbs := [⟨24 * 49152 - 1, 40, [], [], [], false, false⟩], marks := ms, scrubDue := [(24 * 49152 - 1, 0)] } with rows := [(24 * 49152 - 1, tag)] }
def corrTag : RowTag := { RowTag.reset with slate := .full, corr := [0] }
def badTag : RowTag := { RowTag.reset with slate := .full, bad := [0] }
def cleanTag : RowTag := { RowTag.reset with slate := .full }
theorem witness_RowsMaintainedAndProtected_rows : (troubled cleanTag []).canonical = true ∧ ((troubled cleanTag []).lake 23).wbs.find? (·.row = 24 * 49152 - 1) ≠ none ∧
    (troubled cleanTag [⟨24 * 49152 - 1, true⟩]).canonical = true ∧
    ((troubled cleanTag [⟨24 * 49152 - 1, true⟩]).lake 23).marks.find? (·.row = 24 * 49152 - 1) = some ⟨24 * 49152 - 1, true⟩ ∧
    ((troubled cleanTag []).lake 23).scrubDue.find? (·.1 = 24 * 49152 - 1) = some (24 * 49152 - 1, 0) ∧ (troubled cleanTag []).draining = false ∧
    scrubRuns (troubled cleanTag []) 23 = true ∧ (troubled cleanTag []).marked (24 * 49152 - 1) = false ∧ (troubled cleanTag []).clean (24 * 49152 - 1) = true ∧
    (troubled corrTag []).canonical = true ∧ scrubRuns (troubled corrTag []) 23 = true ∧ (troubled badTag []).canonical = true ∧ scrubRuns (troubled badTag []) 23 = true ∧
    ((troubled badTag []).tag (24 * 49152 - 1)).bad ≠ [] ∧ pondPledged (troubled cleanTag []) (24 * 49152 - 1) = false ∧
    pondPledged (troubled corrTag []) (24 * 49152 - 1) = false ∧ pondPledged (troubled badTag []) (24 * 49152 - 1) = false := by decide +kernel
theorem test_scrub : ran (.scrubRead (24 * 49152 - 1)) (troubled corrTag []) (fun t => (t.lake 23).corrected = 1 ∧ (t.tag (24 * 49152 - 1)).corr = []) = true ∧
    ran (.scrubForced (24 * 49152 - 1)) (troubled badTag []) (fun t => (t.lake 23).uncorr = 1 ∧ (t.lake 23).marks.length = 1) = true := by decide +kernel
theorem test_mark : ran (.markWrite (24 * 49152 - 1)) (troubled badTag [⟨24 * 49152 - 1, true⟩]) (fun t => (t.tag (24 * 49152 - 1)).mark ∧ t.slate (24 * 49152 - 1) = .stale) = true := by
  decide +kernel
theorem test_write_back : ran (.writeBack (24 * 49152 - 1)) (troubled cleanTag []) (fun t => (t.lake 23).wbs = [] ∧ t.pw.now = 40) = true := by decide +kernel

theorem witness_RowsMaintainedAndProtected_patrol : (tasks.lake 23).scrubEn = true ∧ scrubRuns tasks 23 = true ∧ tasks.opens mgmt (pageOff 23 0x608) 4 = true ∧
    tasks.privileged mgmt = true ∧ bits (0x3E : BitVec 32) 0 5 = 30 ∧ bits (0x2B : BitVec 32) 0 5 = 11 := by decide +kernel
/-- R314: an interval outside 12 to 30 is not taken. -/
theorem test_scrub_config : ran (.scrubConfigWrite mgmt 23 0x3E) tasks (fun t => (t.lake 23).scrubInt = 30) = true ∧
    ran (.scrubConfigWrite mgmt 23 0x0B) tasks (fun t => (t.lake 23).scrubInt = 20 ∧ !(t.lake 23).scrubEn) = true := by decide +kernel
theorem test_scrub_due : ran (.scrubDue 23) ((tasks.modLake 23 fun l => { l with scrubInt := 12, nextRow := 49151 })) (fun t => (t.lake 23).nextRow = 0 ∧
    (t.lake 23).passes = 1) = true := by decide +kernel
/-- A conversion in progress. -/
def converting : State := tasks.modLake 23 fun l => { l with convBusy := true, convDue := 20 }
theorem witness_RowsMaintainedAndProtected_convert : tasks.opens mgmt (pageOff 23 0x600) 4 = true ∧ tasks.mastersLake mgmt 23 = true ∧
    bit (0 : BitVec 32) 0 = (tasks.lake 23).wMode ∧ bit (1 : BitVec 32) 0 ≠ (tasks.lake 23).wMode ∧ quiescent tasks 23 = true ∧ (tasks.lp 23).state = .on ∧
    (tasks.lake 23).convBusy = false ∧ unquiet.opens mgmt (pageOff 23 0x600) 4 = true ∧ quiescent unquiet 23 = false ∧ (converting.lake 23).convBusy = true ∧
    ran (.protModeChange mgmt 23 1) tasks (fun t => (t.lake 23).wMode ∧ (t.lake 23).convDue = 1040) = true ∧
    ran (.conversionDone 23) converting (fun t => !(t.lake 23).convBusy ∧ t.pw.now = 20) = true := by decide +kernel
theorem witness_RowsMaintainedAndProtected_inject : tasks.opens mgmt (pageOff 23 0x620) 8 = true ∧ bit (0x1BFFF : BitVec 64) 16 = true ∧
    bits (0x1BFFF : BitVec 64) 17 2 ≠ 3 ∧ bits (0x1BFFF : BitVec 64) 0 16 = 49151 ∧ bits (0x1BFFF : BitVec 64) 19 5 ≤ 3 ∧ bits (0x7BFFF : BitVec 64) 17 2 = 3 ∧
    ran (.eccInjectArm mgmt 23 0x1BFFF) tasks (fun t => (t.lake 23).injArm ∧ (t.lake 23).injRow = 49151) = true := by decide +kernel

/-! ### The host window -/

/-- A host TLP of the privileged BAR in the last row of lake 23. -/
def tlp (off len : Nat) : Tlp := ⟨true, 24 * 0xC00000 - 0x100 + off, len, false, 11⟩
theorem witness_HostWindowServed_read : filled.hostClear = true ∧ filled.running = true ∧ (tlp 0xE0 32).addr < 0x20000000 ∧ 0 < (tlp 0xE0 32).len ∧
    (tlp 0xE0 32).addr / 256 = ((tlp 0xE0 32).addr + (tlp 0xE0 32).len - 1) / 256 ∧ filled.clean ((tlp 0xE0 32).addr / 256) = true ∧
    filled.serves .read (hostReq (tlp 0xE0 32) (lastW + 7) 1 (some (0, 32)) false) .data (lastW + 7) = true ∧
    (tlp 0xE0 32).addr % 32 = 0 ∧ filled.serves .write (hostReq (tlp 0xE0 32) (lastW + 7) 1 none true) .data (lastW + 7) = true := by decide +kernel
/-- R28 and R29: single bytes are read; a write that covers only part of a word is not performed. -/
theorem test_host_read : ran (.hostReadTlp (tlp 0xE0 2)) filled (fun t => t.out = [.cpl 11 false false false [0xA0, 0]]) = true := by decide +kernel
theorem test_host_write : ran (.hostWriteTlp (tlp 0xE0 32) (List.replicate 32 (some 0x21))) filled (fun t => t.out = [] ∧ readByte t.mem (24 * 0xC00000 - 1) = 0x21) = true := by
  decide +kernel
theorem witness_HostWindowServed_partial : (tlp 0xFF 1).addr / 32 = ((tlp 0xFF 1).addr + (tlp 0xFF 1).len - 1) / 32 ∧ (tlp 0xFF 1).len < 32 ∧
    ran (.hostWriteTlp (tlp 0xFF 1) [some 7]) filled (fun t => t.mem = filled.mem) = true := by decide +kernel

/-- A read of word 7 that waits out a backoff to T-cycle 9, and a posted write that waited behind another. -/
def hostRd : Req := { hostReq (tlp 0xE0 32) (lastW + 7) 1 (some (0, 2)) false with tag := 11 }
def hostWho : Who := whoOf filled (.host true)
def retrying : State := { filled with hostRetry := [.access .read hostRd [] 9 hostWho none 4] }
def hostWr : Req := hostReq (tlp 0xE0 32) (lastW + 7) 1 none true
def heldTlp : HostTlp := ⟨false, true, [.access .write hostWr [0x31] 0 hostWho none 4]⟩
def holdingTlp : State := { filled with hostHeld := [heldTlp] }
theorem witness_HostWindowServed_retry : retrying.pw.refOk = true ∧ retrying.hostReads = [] ∧ retrying.pw.deep = 0 ∧
    ({ retrying with hostRetry := [] }.reach 9).reachesAs { hostWho with granted := 9 } .read { hostRd with joins := false } .data (lastW + 7) = true ∧
    masks hostRd (lastW + 7) (lastW + 7) = false ∧
    ({ retrying with hostRetry := [] }.reach 9).clean (wordRow (lastW + 7)) = true := by decide +kernel
theorem test_retry : ran (.hostRetryReissue 11) retrying (fun t => t.out = [.cpl 11 false false false [0xA0, 0]] ∧ t.pw.now = 9) = true := by decide +kernel
theorem witness_HostWindowServed_posted : tlpMay holdingTlp [] heldTlp = true ∧ hostWr.posted = true ∧ hostWr.glob = false ∧ hostWho.arrival = none ∧
    hostWr.port = .host true ∧ holdingTlp.reachesAs { hostWho with granted := 0 } .write { hostWr with joins := false } .data (lastW + 7) = true ∧ holdingTlp.clean (wordRow (lastW + 7)) = true := by decide +kernel
theorem test_posted_release : ran .hostPostedRelease holdingTlp (fun t => t.hostHeld = [] ∧ readByte t.mem (32 * (lastW + 7)) = 0x31) = true := by decide +kernel

theorem witness_AtomicOpsServed : (tlp 0xE0 8).addr % 8 = 0 ∧ atomIndex true (tlp 0xE0 8).addr = 0 ∧ atomIndex true (tlp 0xF8 8).addr = 3 ∧
    atomIndex false (tlp 0xFC 4).addr = 7 ∧
    filled.serves (.add ⟨1, 0, true⟩) (hostReq (tlp 0xF8 8) (lastW + 7) 1 (some (24, 8)) false) .data (lastW + 7) = true ∧
    filled.serves (.swap 0 7) (hostReq (tlp 0xFC 4) (lastW + 7) 1 (some (28, 4)) false) .data (lastW + 7) = true ∧
    filled.serves (.cas 1 3) (hostReq (tlp 0xF8 8) (lastW + 7) 1 (some (24, 8)) false) .data (lastW + 7) = true := by decide +kernel
theorem test_fetchadd : ran (.atomicopFetchadd (tlp 0xE0 4) false 1) filled (fun t => t.out = [.cpl 11 false false false [0xA0, 0, 0, 0]] ∧
    readByte t.mem (32 * (lastW + 7)) = 0xA1) = true := by decide +kernel
theorem test_cas : ran (.atomicopCas (tlp 0xE0 4) 0 0xA0 0x0B) filled (fun t => readByte t.mem (32 * (lastW + 7)) = 0x0B) = true ∧
    ran (.atomicopCas (tlp 0xE0 4) 0 0xA1 0x0B) filled (fun t => t.mem = filled.mem) = true := by decide +kernel

/-! ### Arbiters and the canal -/

/-- Two masters at the stop arbiter of position 46, whose labels have class 0 and class 3. -/
def arb46 : ArbId := .stop 46 true
def ask : RowAsk := ⟨.read, 0, 8, false⟩
def m0 : Master := ⟨0, 1, 100, 0, 2, [ask], false⟩
def m45 : Master := ⟨45, 0, 100, 0, 2, [ask], false⟩
def classed : State := { tasks with weir := { tasks.weir with labelMap := [(1, 3)] } }
def granted (beats : Nat) : State := classed.modArb (arbKey arb46) fun x => { x with active := true, last := 45, beats := beats, limit := 4 }
theorem witness_ArbitersGrant_decides : classed.weir.cap = 0 ∧ classed.draining = false ∧ (contenders classed arb46 [m0, m45]).length = 2 ∧
    (classed.arb (arbKey arb46)).active = false ∧ contenders classed arb46 [] = [] ∧ (classed.arb (arbKey arb46)).holdTo = 0 ∧
    ran (.arbDecision arb46 [m0, m45]) classed (fun t => (t.arb (arbKey arb46)).active ∧ (t.arb (arbKey arb46)).last = 45 ∧ t.arbs.length = 1) = true := by decide +kernel
/-- R82: a shore held from T-cycle 0 on to 2, and a level change's drain. -/
def shoreHeld : State := classed.modArb (arbKey (.shoreS 3)) fun x => { x with holdTo := 2 }
def drainingNow : State := { classed with pw := { classed.pw with busy := true, phase := 2 } }
theorem witness_ArbitersGrant_busy : (shoreHeld.arb (arbKey (.shoreS 3))).active = false ∧ (shoreHeld.arb (arbKey (.shoreS 3))).holdFrom ≤ shoreHeld.pw.now ∧
    shoreHeld.pw.now < (shoreHeld.arb (arbKey (.shoreS 3))).holdTo ∧ drainingNow.draining = true ∧ contenders drainingNow arb46 [m45] ≠ [] ∧
    ran (.arbDecision (.shoreS 3) [m0]) shoreHeld (fun t => !(t.arb (arbKey (.shoreS 3))).active) = true := by decide +kernel
theorem witness_ArbitersGrant_beat : (granted 3).weir.cap = 0 ∧ ((granted 3).arb (arbKey arb46)).active = true ∧
    (contenders (granted 3) arb46 [m0, m45]).find? (fun m => m.idx = ((granted 3).arb (arbKey arb46)).last) = some (fromMaster (granted 3) arb46 m45) ∧
    ((granted 3).arb (arbKey arb46)).beats < ((granted 3).arb (arbKey arb46)).limit ∧ ((granted 3).arb (arbKey arb46)).holdTo = 0 ∧
    unitTaken (granted 3) arb46 (fromMaster (granted 3) arb46 m45) = false ∧
    ran (.arbDecision arb46 [m0, m45]) (granted 3) (fun t => (t.arb (arbKey arb46)).beats = 4) = true := by decide +kernel
/-- R153: a grant that has run its beats goes on while source rows of an XREAD remain. -/
def xreading : State := (granted 4).modArb (arbKey arb46) fun x => { x with xr := 1 }
def windowFull : State := classed.modArb (arbKey arb46) fun x => { x with closed := true, g := (64, 0, 0, 0), mask := 7 }
theorem witness_ArbitersGrant_ends : ((granted 4).arb (arbKey arb46)).active = true ∧ ((granted 4).arb (arbKey arb46)).fb = false ∧
    ((granted 4).arb (arbKey arb46)).limit ≤ ((granted 4).arb (arbKey arb46)).beats ∧ ((granted 4).arb (arbKey arb46)).xr = 0 ∧
    (xreading.arb (arbKey arb46)).xr ≠ 0 ∧ (windowFull.arb (arbKey arb46)).closed = true ∧ ((granted 3).arb (arbKey arb46)).closed = false ∧
    ran (.burstLimit arb46) (granted 4) (fun t => !(t.arb (arbKey arb46)).active) = true ∧ ran (.burstLimit arb46) xreading (fun t => t = xreading) = true ∧
    ran (.burstLimit arb46) (granted 3) (fun t => t = granted 3) = true ∧
    ran (.quotaWindowClose arb46) windowFull (fun t => (t.arb (arbKey arb46)).g = (0, 0, 0, 0) ∧ (t.arb (arbKey arb46)).mask = 0) = true := by decide +kernel
/-- The lake of position 0. -/
def lakeAt0 : Fin 24 := Fin.ofNat 24 ((Config.posLake 0).getD 0)
/-- R59, R68, R105: the C shore's beat takes its requests from the arrival queue. -/
def qe (id row : Nat) : QEntry := ⟨id, 46, 1, 1, 5, row, ask, 100⟩
def queuedAt (p : Nat) (l : List QEntry) : State := tasks.modStop p fun x => { x with queue := l }
def atC : State := (queuedAt 0 [qe 9 7, qe 10 8, qe 11 7]).modArb (arbKey (.shoreC lakeAt0 false)) fun x =>
  { x with active := true, last := 46, limit := 16 }
theorem test_beat_of_queue : ran (.arbDecision (.shoreC lakeAt0 false) []) atC
    (fun t => (t.stop 0).queue.map (·.id) = [11]) = true := by decide +kernel
def backedOff : State := { tasks with backoff := [((.waiters 23, .wired 7), (256, 10))] }
theorem witness_ArbitersGrant_backoff :
    backedOff.backoff.find? (fun e => e.1 = (RetryPt.waiters 23, Ident.wired 7)) = some ((.waiters 23, .wired 7), (256, 10)) ∧
    ran (.backoffReset (.waiters 23) (.wired 7)) backedOff (fun t => t.backoff = []) = true := by decide +kernel

/-- A packet from position 46 to position 0, granted injection, and one that has arrived there. -/
def packet : Packet := { id := 9, src := 46, dst := 0, resp := false, idx := 1, label := 5, ask := ask, row := 7 }
def may : State := tasks.modArb (arbKey (.stop 46 (packetCcw packet))) fun x => { x with active := true, last := 1 }
theorem witness_PacketsAndResponsesTravel_inject : packet.src ≠ packet.dst ∧ may.asHeld packet (packetCcw packet) 0 = (packet, 0) ∧
    mayInject may packet (packetCcw packet) may.pw.now = true ∧ ran (.packetInject packet) may (fun t => t.ring.length = 1) = true := by decide +kernel
/-- A stop whose arbiter has granted another, and one that already holds the packet (R66, R77). -/
def elsewhere : State := tasks.modArb (arbKey (.stop 46 (packetCcw packet))) fun x => { x with active := true, last := 2 }
def stopHolds : State := elsewhere.modStop 46 fun x => { x with held := [⟨packet, packetCcw packet, 0, 0⟩] }
theorem witness_PacketsAndResponsesTravel_held : mayInject elsewhere packet (packetCcw packet) elsewhere.pw.now = false ∧
    (elsewhere.stop packet.src).held.any (samePacket ·.k packet) = false ∧
    mayInject stopHolds packet (packetCcw packet) stopHolds.pw.now = false ∧ (stopHolds.stop packet.src).held.any (samePacket ·.k packet) = true ∧
    (stopHolds.stop 46).held.find? (fun t => t.ccw = packetCcw packet && t.k.src != t.k.dst) = some ⟨packet, packetCcw packet, 0, 0⟩ ∧
    (stopHolds.stop 46).starving (packetCcw packet) = false ∧
    ran (.packetInject packet) elsewhere (fun t => t.ring = [] ∧ (t.stop 46).held.length = 1) = true ∧
    ran (.stopStarving 46 (packetCcw packet)) stopHolds (fun t => (t.stop 46).starving (packetCcw packet) ∧ t.pw.now = 32) = true := by decide +kernel
/-- R68: a request of a lake's stop to its own lake. -/
def straight : Packet := { packet with src := 0 }
theorem witness_PacketsAndResponsesTravel_straight : straight.src = straight.dst ∧ (tasks.stop 0).held = [] ∧ (tasks.stop 0).outCw = [] ∧ (tasks.stop 0).outCcw = [] ∧
    tasks.draining = false ∧ stopAbsent tasks 0 = false ∧ (tasks.stop 0).refused = [] ∧ tasks.backoffOf (.arrival 0) (canalIdent 0 1) = (1, 0) ∧
    freeEntry ((tasks.stop 0).queue.map (·.cls)) (tasks.shares (queueKindAt 0)) (tasks.classOf 5) = true ∧
    ran (.packetInject straight) tasks (fun t => t.ring = [] ∧ (t.stop 0).queue.length = 1) = true := by decide +kernel
/-- Two packets of one engine on their way; the queue they go to is empty, or full; the client is there, or off. -/
def transit : Transit := ⟨packet, packetCcw packet, 0, 0⟩
def arriving : State := { tasks with ring := [transit, { transit with k := { packet with id := 10 } }] }
def fullQueue : State := { queuedAt 0 ((List.range 64).map fun i => qe (100 + i) i) with ring := [transit] }
def clientOff : State := { tasks with ring := [{ transit with k := { packet with dst := 43 } }], clientsOff := [43] }
theorem witness_PacketsAndResponsesTravel_eject : arriving.ring.find? (fun t => t.k.id = 9 && !t.k.resp) = some transit ∧
    (arriving.ring.takeWhile (· != transit)) = [] ∧ stopAbsent arriving 0 = false ∧
    (arriving.stop 0).refused = [] ∧ arriving.backoffOf (.arrival 0) (canalIdent 46 1) = (1, 0) ∧
    freeEntry ((arriving.stop 0).queue.map (·.cls)) (arriving.shares (queueKindAt 0)) (arriving.classOf 5) = true ∧
    ran (.packetEject 9 true) arriving (fun t => t.ring.length = 1 ∧ (t.stop 0).queue.length = 1) = true ∧
    ran (.packetEject 10 true) arriving (fun t => t = arriving) = true := by decide +kernel
theorem witness_PacketsAndResponsesTravel_answered : packet.src ≠ packet.dst ∧ stopAbsent fullQueue 0 = false ∧ (fullQueue.stop 0).held = [] ∧
    (fullQueue.stop 0).refused = [] ∧ fullQueue.backoffOf (.arrival 0) (canalIdent 46 1) = (1, 0) ∧
    freeEntry ((fullQueue.stop 0).queue.map (·.cls)) (fullQueue.shares (queueKindAt 0)) (fullQueue.classOf 5) = false ∧
    stopAbsent clientOff 43 = true ∧ (clientOff.stop 43).held = [] := by decide +kernel
theorem test_retry_packet : ran (.packetEject 9 true) fullQueue (fun t => (t.backoffOf (.arrival 0) (canalIdent 46 1)).1 = 2 ∧
    (t.ring.map fun u => (u.k.resp, u.k.st)) = [(true, .retry)]) = true := by decide +kernel
theorem test_absent_packet : ran (.packetEject 9 false) clientOff (fun t => (t.ring.map fun u => (u.k.resp, u.k.st)) = [(true, .absent)]) = true ∧
    ran (.packetEject 9 false) arriving (fun t => (t.ring.map fun u => u.k.st) = [.ok, .uncorrectable] ∧ t.err.intake.length = 1) = true := by decide +kernel
def refusedCopy : State := may.modStop 46 fun x => { x with copies := [(packet, 2)], outCw := [transit], outCcw := [transit] }
theorem witness_PacketsAndResponsesTravel_reissue : (refusedCopy.stop 46).copies.filter (fun c => c.1.dst = 0 && c.1.idx = 1) = [(packet, 2)] ∧
    packet.src = 46 ∧ packet.dst = 0 ∧
    ((refusedCopy.reach 2).modStop 46 fun x => { x with copies := [] }).asHeld packet (packetCcw packet) 2 = (packet, 0) ∧
    mayInject ((refusedCopy.reach 2).modStop 46 fun x => { x with copies := [] }) packet (packetCcw packet) 2 = true ∧
    ran (.stopReissue 46 0 1) refusedCopy (fun t => t.ring.length = 1 ∧ t.pw.now = 2 ∧ (t.stop 46).copies = []) = true := by decide +kernel
theorem witness_PacketsAndResponsesTravel_remote : flying.inbox.find? (·.id = 88) = none ∧ (flying.remotes.find? (·.id = 88)).any (fun r => r.src = some vc63) = true ∧
    ran (.responseEject 88 .ok [7] true) flying (fun t => t.remotes = [] ∧ t.out = [.resp (.vc 63) 3 .ok [7] 0 0]) = true := by decide +kernel
/-- A response to position 46 on its ring, OK or RETRY, its request still outstanding there. -/
def answer (st : Status) : Transit := ⟨{ packet with src := 0, dst := 46, resp := true, st := st, backoff := 2 }, !packetCcw packet, 3, 0⟩
def answering (st : Status) : State := { tasks.modStop 46 (fun x => { x with outCw := [transit] }) with ring := [answer st] }
theorem witness_PacketsAndResponsesTravel_response : (answering .ok).inbox = [] ∧ (answering .ok).remotes = [] ∧
    (answering .ok).ring.find? (fun t => t.k.id = 9 && t.k.resp) = some (answer .ok) ∧ (answering .retry).ring.find? (fun t => t.k.id = 9 && t.k.resp) = some (answer .retry) ∧
    (((answering .retry).stop 46).outCw ++ ((answering .retry).stop 46).outCcw).find? (·.k.id = 9) = some transit ∧ transit.k.src = 46 ∧
    ran (.responseEject 9 .ok [] true) (answering .ok) (fun t => t.ring = [] ∧ (t.stop 46).outCw = [] ∧ t.out = [.packet 46 9 .ok [] 2]) = true ∧
    ran (.responseEject 9 .ok [] true) (answering .retry) (fun t => (t.stop 46).copies.map (·.1) = [packet] ∧ t.out = []) = true := by decide +kernel
theorem witness_PacketsAndResponsesTravel_client : Config.posLake 46 = none ∧ ((queuedAt 46 [qe 9 7]).stop 46).queue.any (·.id = 9) = true ∧
    ran (.clientTakesRequest 46 9) (queuedAt 46 [qe 9 7]) (fun t => (t.stop 46).queue = [] ∧ t.pw.now = 0) = true ∧
    ran (.clientTakesRequest 46 9) ((queuedAt 46 [qe 9 7]).modStop 46 fun x => { x with took := (0, Config.stopRate 46) }) (fun t => t.pw.now = 1) = true := by decide +kernel

/-! ### The weir, the error log and the counters -/

/-- A cap of 100 quarter-watts, with an allowance and counts of periods at 8 and of calm periods, just before a period's end; the array supply
has given two readings in it, `p` on average, the others none but earlier ones of 0. -/
def capped (allow low calm limit p : Nat) : State := { base with
  weir := { base.weir with cap := 100, allow := allow, low := low, calm := calm, limit := limit, pSum := [(0, (2 * p, 2))] }
  pw := { base.pw with ns := 9999 } }
def powerOf (s : State) : Nat := (s.weir.pSum.map fun e => e.2.1 / e.2.2).sum
theorem witness_PowerLoopRuns : base.weir.cap = 0 ∧ 0 < (capped 96 0 0 0 101).weir.cap.toNat ∧ (capped 96 0 0 0 101).weir.cap.toNat < powerOf (capped 96 0 0 0 101) ∧
    100 * powerOf (capped 96 0 0 0 97) < 98 * 100 ∧ ¬100 * powerOf (capped 96 0 0 0 98) < 98 * 100 ∧ 100 * powerOf (capped 96 0 0 0 89) < 90 * 100 ∧
    90 * 100 ≤ 100 * powerOf (capped 96 0 0 0 90) := by decide +kernel
/-- R116: 96 falls by a hundred-and-first of itself, rounded up; at 8 for the eighth period a level is forced, or at 4 the cap is unmet. -/
theorem test_power_loop_above : ran (.pcapPeriod 0) (capped 96 0 0 0 101) (fun t => t.weir.allow = 95 ∧ t.weir.pSum = []) = true ∧
    ran (.pcapPeriod 0) (capped 8 7 0 3 0xFFFF) (fun t => t.weir.limit = 4 ∧ t.weir.low = 0) = true ∧
    ran (.pcapPeriod 0) (capped 8 6 0 3 0xFFFF) (fun t => t.weir.limit = 3 ∧ t.weir.low = 7) = true := by decide +kernel
theorem test_power_loop_calm : ran (.pcapPeriod 0) (capped 92 0 99 1 89) (fun t => t.weir.allow = 96 ∧ t.weir.limit = 0) = true ∧
    ran (.pcapPeriod 0) (capped 92 0 98 1 89) (fun t => t.weir.calm = 99 ∧ t.weir.limit = 1) = true ∧
    ran (.pcapPeriod 0) (capped 8 7 0 4 0xFFFF) (fun t => t.weir.unmet ∧ t.err.intake.length = 1) = true := by decide +kernel

/-- A record of class 7 of position 46, to be entered with this many unread ones in the ring. -/
def record7 : Rec := ⟨5, 0, 7, 0, 46, 0x7C, 0, 0, 1, 0⟩
def logged (unread : Nat) : State := { base with err := { base.err with intake := [record7], head := unread, firstV := true } }
theorem witness_ErrorLogRecords_enter : (logged 63).err.intake = [record7] ∧ ((logged 63).err.head + 2 ^ 32 - (logged 63).err.tail) % 2 ^ 32 = 63 ∧
    ((logged 64).err.head + 2 ^ 32 - (logged 64).err.tail) % 2 ^ 32 = 64 ∧ bit base.err.ibiEn 7 = true ∧ Tab.get (fun _ => none) base.err.lastIbi 7 = none ∧
    bit ({ (logged 63).err with ibiEn := 0 } : ErrLog).ibiEn 7 = false ∧
    ran .recordEnter (logged 64) (fun t => t.err.head = 65 ∧ t.err.tail = 1 ∧ t.err.lost) = true ∧
    ran .recordEnter (logged 63) (fun t => t.err.head = 64 ∧ t.err.tail = 0 ∧ !t.err.lost) = true := by decide +kernel
def corrected1 : State := { base with err := { base.err with recEn := 0xFF, ibiEn := 0xFF, ibiPend := 0x80
                                                             corr := [(46, ⟨some 0, 3, some { record7 with cls := 1 }⟩)], lastIbi := [(7, some 0)] } }
theorem witness_ErrorLogRecords_intervals : bit corrected1.err.recEn 1 = true ∧ corrected1.err.intake.length < 16 ∧
    (Tab.get (fun _ => Corr.reset) corrected1.err.corr 46).first = some { record7 with cls := 1 } ∧ bit corrected1.err.ibiPend (7 : Fin 8) = true ∧
    bit corrected1.err.ibiEn (7 : Fin 8) = true ∧ Tab.get (fun _ => none) corrected1.err.lastIbi (7 : Fin 8) = some 0 := by decide +kernel
def lated : State := { base with err := { base.err with recEn := 0xFF }, weir := { base.weir with late := [(3, { Late.reset with pending := 2, label := 9, pos := 46 })] } }
theorem witness_ErrorLogRecords_late : (Tab.get (fun _ => Late.reset) lated.weir.late (3 : Fin 4)).pending ≠ 0 ∧ bit lated.err.recEn 7 = true ∧ lated.err.intake.length < 16 ∧
    ran (.lateRecordInterval 3) lated (fun t => t.err.intake.map (·.count) = [2]) = true := by decide +kernel
theorem witness_ErrorLogRecords_registers : (logged 63).opens mgmt 0x30014 4 = true ∧ (logged 63).opens host 0x30008 4 = true ∧
    ran (.errTailWrite mgmt 63) (logged 63) (fun t => t.err.tail = 63) = true ∧
    ran (.errTailWrite mgmt 64) (logged 63) (fun t => t.err.tail = 0 ∧ t.out.head? = some (.reg .mgmt 0 .nackState 0)) = true ∧
    ran (.errStatClear host 3) (logged 63) (fun t => !t.err.firstV) = true := by decide +kernel

/-- The counter block, between snapshots and in one. -/
def snapping : State := { base with cnt := { base.cnt with busy := true, due := 9, seqA := 1, ctrs := [(0, { cntDefault 0 with pend := 3 })] } }
theorem witness_CountersConfigured_registers : base.privileged mgmt = true ∧ cntSetOf 0x33F0 = some (.spring, 23) ∧ cntSetOf 0x71F0 = some (.canal, 0) ∧
    base.opens mgmt (0x40000 + 0x33F0) 4 = true ∧ base.opens mgmt (0x40000 + 0x71F0 + 8) 8 = true ∧ base.cnt.busy = false ∧
    eventListed .spring (bits (0x3F00004F : BitVec 32) 0 8) = true ∧ qualListed .spring (bits (0x3F00004F : BitVec 32) 24 6) = true ∧
    eventListed .spring (bits (0x24 : BitVec 32) 0 8) = false ∧ eventListed .canal (bits (0x66 : BitVec 32) 0 8) = true ∧
    qualListed .canal (bits (0x66 : BitVec 32) 24 6) = true ∧ bits (0x66 : BitVec 32) 30 2 ≠ 3 ∧
    snapping.opens mgmt (0x40000 + 0x33F0) 4 = true ∧ snapping.opens mgmt (0x40000 + 0x33F0 + 8) 8 = true ∧ snapping.cnt.busy = true := by decide +kernel
theorem test_counter : ran (.cntCfgWrite mgmt 0x33F0 0x3F00004F) base (fun t => (t.ctr 0x33F0).cfg = 0x3F00004F) = true ∧
    ran (.cntValWrite mgmt 0x71F0 5) base (fun t => (t.ctr 0x71F0).val = 5) = true ∧
    ran (.cntCfgWrite mgmt 0x33F0 0x24) base (fun t => t = base.rejected mgmt (0x40000 + 0x33F0) 1) = true := by decide +kernel
theorem witness_CountersConfigured_snapshot : base.opens mgmt 0x40000 4 = true ∧ bit (3 : BitVec 32) 0 = true ∧ bit (2 : BitVec 32) 0 = false ∧ snapping.opens mgmt 0x40000 4 = true ∧
    ran (.dailiesSnapshot mgmt 3) base (fun t => t.cnt.busy ∧ t.cnt.due = 139 ∧ t.cnt.clrWrap) = true := by decide +kernel
theorem witness_CountersConfigured_release : snapping.cnt.busy = true ∧ Tab.wf cntDefault snapping.cnt.ctrs = true ∧ snapping.pw.deep ≠ 1 := by decide +kernel
/-- An entry to DEEP that waits for the snapshot. -/
def snapDeep : State := { snapping with pw := { snapping.pw with deep := 1 } }
theorem witness_CountersConfigured_deep : snapDeep.canonical = true ∧ snapDeep.pw.deep = 1 ∧ snapDeep.lakes = [] ∧
    ((List.range 24).all fun n => (snapDeep.lp n).held = [] && ((List.range 16).all fun k => ((snapDeep.lake n).take k).state = .free)) = true := by decide +kernel

/-! ### Levels -/

/-- A change from level 2 to level 1, before its first step; from 2 to 3 at its drain, and with its divider switching; and at its voltages. -/
def rising : State := { base with pw := { base.pw with cur := 2, busy := true, phase := 1, goal := 1, arrMv := Config.vddArr 2, logMv := Config.vddLog 2 } }
def slowing (phase : Nat) (switching : Bool) : State := { base with pw := { base.pw with
  cur := 2, busy := true, phase := phase, goal := 3, switching := switching, arrMv := Config.vddArr 2, logMv := Config.vddLog 2 } }
theorem witness_LevelChangeRuns_start : base.targetLevel = base.pw.cur ∨ base.targetLevel ≠ base.pw.cur := by decide +kernel
def wanted : State := { base with pw := { base.pw with cur := 4, goal := 4, req := 0 } }
theorem witness_LevelChangeRuns_started : wanted.targetLevel ≠ wanted.pw.cur ∧ wanted.targetLevel ≠ wanted.pw.goal ∧ wanted.pw.busy = false ∧
    wanted.tm.ready = true ∧ wanted.pw.deep = 0 ∧ wanted.pw.logOk = true ∧ wanted.pw.refOk = true ∧
    ran .levelChangeStart wanted (fun t => t.pw.busy ∧ t.pw.phase = 1 ∧ t.pw.goal = 0) = true := by decide +kernel
theorem witness_LevelChangeRuns_volts : rising.pw.busy = true ∧ rising.pw.arrMv ≠ Config.vddArr rising.pw.goal ∧ (slowing 3 false).pw.phase = 3 ∧
    (slowing 3 false).pw.logMv ≠ Config.vddLog 3 := by decide +kernel
theorem witness_LevelChangeRuns_drained : (slowing 2 false).pw.busy = true ∧ (slowing 2 false).pw.phase = 2 ∧ drained (slowing 2 false) = true ∧
    ran .drainComplete (slowing 2 false) (fun t => t.pw.switching) = true := by decide +kernel
theorem witness_LevelChangeRuns_switch : (slowing 2 true).canonical = true ∧ (slowing 2 true).pw.held = [] ∧ (slowing 2 true).lakes = [] ∧ (slowing 2 true).springs = [] ∧
    ran .dividerSwitchEnd (slowing 2 true) (fun t => t.pw.cur = 3 ∧ t.pw.phase = 3 ∧ t.pw.ns = 4) = true := by decide +kernel
/-- A packet of the canal that never arrives keeps the drain going. -/
def stuck : State := { slowing 2 false with ring := [transit] }
theorem witness_LevelChangeRuns_abandoned : stuck.canonical = true ∧ stuck.pw.busy = true ∧ stuck.pw.phase = 2 ∧ stuck.pw.held = [] ∧ stuck.pw.switching = false ∧
    stuck.lakes = [] ∧ stuck.springs = [] ∧ drained stuck = false := by decide +kernel


/-- R336: where a drain held nothing, nothing goes on. -/
theorem witness_LevelChangeRuns_still : base.still ∧ base.pw.held = [] ∧ (∀ n, (base.lake n).waiters = []) ∧ decide (base.resumeService = base) = true :=
  ⟨⟨by decide, fun _ => rfl, fun n => ⟨rfl, rfl, fun d h => absurd h (List.not_mem_nil)⟩⟩, rfl, fun _ => rfl, by decide +kernel⟩
/-- R335: the mean of what a supply's monitor read. -/
theorem test_monitor : ran (.monitorUpdate 2 900 40 7) (capped 96 0 0 0 5) (fun t => t.weir.pSum = [(0, (10, 2)), (2, (7, 1))] ∧
    bits (Tab.get (fun _ => 0) t.pw.mon 2) 32 16 = 7) = true := by decide +kernel
/-- An intake of 16 records, a class that is not recorded, an interrupt that waits, and one that was disabled since. -/
theorem witness_ErrorLogRecords_lost : bit ({ base.err with recEn := 0 } : ErrLog).recEn 7 = false ∧ bit base.err.recEn 7 = true ∧
    16 ≤ ({ (logged 0).err with intake := List.replicate 16 record7 } : ErrLog).intake.length ∧
    Tab.get (fun _ => none) ({ base.err with lastIbi := [(7, some 0)] } : ErrLog).lastIbi 7 = some 0 ∧
    ran .recordEnter { (logged 0) with err := { (logged 0).err with lastIbi := [(7, some 0)] } } (fun t => t.err.ibiPend = 0x80) = true ∧
    ran (.ibiInterval 7) { corrected1 with err := { corrected1.err with ibiEn := 0 } } (fun t => t.err.ibiPend = 0 ∧ t.i3c.pend = []) = true ∧
    ran (.corrInterval 46) corrected1 (fun t => t.err.intake.map (·.count) = [3]) = true := by decide +kernel
/-! ### Lake power -/

/-- Lake 23 in a state, with a request, a delay of 16 T-cycles and a wake from RET allowed. -/
def inState (st : LkState) (req : BitVec 2) (f : LakePower → LakePower) : State := tasks.modLp 23 fun x => f { x with
  state := st, req := req, idleDelay := 16, wakeReq := true }
def lk23 : Nat := 0x10100 + 8 * 23
theorem witness_LakeStatesRequested_same : (inState .on 0 id).opens mgmt lk23 4 = true ∧ (inState .on 0 id).privileged mgmt = true ∧
    bits (0x100008 : BitVec 32) 0 2 = ((inState .on 0 id).lp 23).req.toNat ∧ (inState .on 0 id).failedLake 23 = false := by decide +kernel
theorem witness_LakeStatesRequested_refused : (inState .entering 2 id).opens mgmt lk23 4 = true ∧ ((inState .entering 2 id).lp 23).state.transit = true ∧
    bits (1 : BitVec 32) 0 2 ≠ ((inState .entering 2 id).lp 23).req.toNat ∧ ((inState .on 0 id).lp 23).state.transit = false ∧
    ((inState .on 0 id).modMte 23 fun m => { m with busy := true }).opens mgmt lk23 4 = true ∧
    (((inState .on 0 id).modMte 23 fun m => { m with busy := true }).mte 23).busy = true ∧ ((inState .off 3 id).lp 23).state = .off ∧
    (inState .off 3 id).opens mgmt lk23 4 = true ∧ ((inState .off 3 id).mte 23).busy = false := by decide +kernel
/-- A failed lake, and one that a bound Spring pins. -/
def failedL : State := { inState .off 3 id with tm := { tasks.tm with lakeFail := 0x800000 } }
def pinnedL : State := (inState .on 0 id).modSpring 23 fun x => { x with bound := true }
theorem witness_LakeStatesRequested_kept : pinnedL.opens mgmt lk23 4 = true ∧ pinnedL.pinned 23 = true ∧ failedL.opens mgmt lk23 4 = true ∧ failedL.failedLake 23 = true ∧
    ran (.lakeStateReq mgmt 23 0) failedL (fun t => t = failedL.rejected mgmt lk23 6) = true := by decide +kernel
theorem witness_LakeStatesRequested_up : lakeQuietForIdle (inState .on 0 id) 23 = true ∧ ((inState .idle 1 id).lp 23).waking = false ∧ (inState .idle 1 id).opens mgmt lk23 4 = true ∧
    (inState .ret 2 id).opens mgmt lk23 4 = true ∧ ((inState .ret 2 id).mte 23).busy = false ∧ (inState .ret 2 id).failedLake 23 = false ∧
    (inState .off 3 id).failedLake 23 = false ∧ (inState .ret 2 id).pinned 23 = false ∧
    ran (.lakeStateReq mgmt 23 1) (inState .on 0 id) (fun t => (t.lp 23).state = .idle) = true ∧
    ran (.lakeStateReq mgmt 23 0) (inState .off 3 id) (fun t => (t.lp 23).state = .waking ∧ (t.lp 23).dueNs = 40000) = true := by decide +kernel
theorem witness_LakeStatesRequested_down : (inState .on 0 id).canonical = true ∧ ((inState .on 0 id).lp 23).held = [] ∧ ((inState .on 0 id).lake 23).waiters = [] ∧
    ((List.range 16).all fun k => (((inState .on 0 id).lake 23).take k).state = .free) = true ∧ (inState .on 0 id).pinned 23 = false := by decide +kernel
theorem test_lake_down : ran (.lakeStateReq mgmt 23 2) ((inState .on 0 id).modWin 3 fun x => { x with lake := 23, state := .open })
    (fun t => (t.lp 23).state = .draining ∧ (t.win 3).state = .closing) = true := by decide +kernel

def draining23 : State := inState .draining 2 fun x => { x with due := 1 }
def writing23 : State := draining23.modLake 23 fun l => { l with wbs := [⟨23 * 49152, 9, [], [], [], false, false⟩] }
def entering23 (wake : Bool) : State := inState .entering 3 fun x => { x with toOff := true, wakePend := wake, dueNs := 1000 }
theorem witness_LakesGoDownAndWake_down : (draining23.lp 23).state = .draining ∧ lakeDrained draining23 23 = true ∧ lakeDrained writing23 23 = false ∧
    draining23.pw.deep ≠ 1 ∧ ((entering23 false).lp 23).state = .entering ∧ ((entering23 true).lp 23).wakePend = true ∧
    ran (.lakeDrainComplete 23) draining23 (fun t => (t.lp 23).state = .entering ∧ (t.lp 23).dueNs = 2002) = true ∧
    ran (.lakeEntryEnd 23) (entering23 false) (fun t => (t.lp 23).state = .off ∧ t.pw.ns = 1000) = true := by decide +kernel
theorem witness_LakesGoDownAndWake_idle : (inState .on 1 id).canonical = true ∧ lakeQuietForIdle (inState .on 1 id) 23 = true ∧ ((inState .on 1 id).lp 23).req = 1 ∧
    ran (.autoIdle 23) (inState .on 1 id) (fun t => (t.lp 23).state = .idle ∧ t.pw.now = 16) = true := by decide +kernel
def waking23 (off : Bool) : State := (inState .waking 0 fun x => { x with fromOff := off, dueNs := 100 }).putWords (24 * 49152 - 1) [(7, 0xA0)] |>.setSlate (24 * 49152 - 1) .full
theorem witness_LakesGoDownAndWake_wake : ((inState .idle 1 id).lp 23).waking = false ∧ ((inState .ret 2 id).lp 23).wakeReq = true ∧
    ((inState .ret 2 fun x => { x with wakeReq := false }).lp 23).state = .ret ∧
    (inState .idle 1 fun x => { x with waking := true, due := 20 }).canonical = true ∧ (waking23 true).canonical = true ∧ ((waking23 true).lp 23).held = [] ∧
    ((waking23 true).lake 23).waiters = [] ∧ (waking23 true).springs = [] ∧ (waking23 true).tm.lrWait = false := by decide +kernel
theorem test_wake_from_ret : ran (.lakeWakeEnd 23) (waking23 false) (fun t => (t.lp 23).state = .on ∧ t.slate (24 * 49152 - 1) = .full ∧
    t.mem = (waking23 false).mem) = true := by decide +kernel
theorem test_wake_from_off : ran (.lakeWakeEnd 23) (waking23 true) (fun t => t.slate (24 * 49152 - 1) = .empty ∧ t.mem = []) = true := by decide +kernel
theorem test_wake_idle : ran (.idleWakeEnd 23) (inState .idle 1 fun x => { x with waking := true, due := 20 }) (fun t => (t.lp 23).state = .on ∧ t.pw.now = 20) = true := by
  decide +kernel

/-- Vector cluster 0's task owns lake 23, and no other. -/
def ownedL (st : LkState) : State := (inState st 0 id).modLake 23 fun l => { l with owner := ⟨0, 5⟩ }
theorem witness_WakeRegisterWritten : (ownedL .idle).opens vc0 0x10300 4 = true ∧ (ownedL .idle).privileged vc0 = false ∧
    ((ownedL .idle).lake 23).owner = (whoOf (ownedL .idle) vc0.port).pr ∧ ((ownedL .idle).lake 22).owner ≠ (whoOf (ownedL .idle) vc0.port).pr ∧
    bit (0xC00000 : BitVec 32) 22 = true ∧ ((ownedL .off).lp 23).state = .off ∧ (ownedL .off).opens mgmt 0x10300 4 = true ∧
    ran (.pwrWakeWrite vc0 0x800000) (ownedL .idle) (fun t => (t.lp 23).waking) = true ∧
    ran (.pwrWakeWrite vc0 0xC00000) (ownedL .idle) (fun t => t = (ownedL .idle).reply vc0 .nackOwner) = true ∧
    ran (.pwrWakeWrite mgmt 0x800000) (ownedL .off) (fun t => t = (ownedL .off).rejected mgmt 0x10300 0) = true := by decide +kernel
theorem witness_WakeRegisterWritten_remembered : ((inState .draining 2 fun x => { x with wakePend := true }).lp 23).wakePend = true ∧
    lakeDrained (inState .draining 2 fun x => { x with wakePend := true }) 23 = true ∧ ((entering23 true).lp 23).state = .entering := by decide +kernel

/-- DEEP, on its way in, reached, and on its way out; every lake is in RET. -/
def retAll : State := { base with lpow := (List.range 24).map fun n => (n, { LakePower.reset with state := .ret, req := 2, deepBack := true }) }
def deepIn (d : Nat) (pend : Bool) : State := { retAll with pw := { base.pw with deep := d, deepPend := pend, deepTimed := true, deepDueNs := 12000 } }
theorem witness_DeepEnteredAndLeft_enter : base.opens mgmt 0x10400 4 = true ∧ bit (0 : BitVec 32) 0 = false ∧ bit (1 : BitVec 32) 0 = true ∧
    ((List.range 24).all fun n => !(base.lp n).state.transit && !(base.mte n).busy && (base.lp n).held = [] && (base.lake n).waiters = []) = true ∧
    base.cnt.busy = false ∧ snapping.opens mgmt 0x10400 4 = true ∧ draining23.opens mgmt 0x10400 4 = true ∧ (draining23.lp 23).state.transit = true := by decide +kernel
theorem witness_DeepEnteredAndLeft_down : (deepIn 1 true).pw.deepTimed = true ∧ (deepIn 1 true).basin.fills = [] ∧ (deepIn 1 true).basin.busy = false ∧
    ((List.range 24).all fun n => ((deepIn 1 true).lp n).state = .ret) = true := by decide +kernel
theorem test_deep_wake : ran (.deepWake .wakeLine) (deepIn 1 false) (fun t => t.pw.deepPend) = true ∧
    ran (.deepWake .i3cAddress) (deepIn 2 false) (fun t => t.pw.deep = 3 ∧ t.pw.deepDueNs = 8000) = true := by decide +kernel
theorem witness_DeepEnteredAndLeft_up : (deepIn 3 false).canonical = true ∧ (deepIn 3 false).pw.held = [] := by decide +kernel

/-- Nothing waits at a lake that goes down or wakes. -/
theorem witness_LakesGoDownAndWake_still : (inState .on 0 id).still ∧ ((inState .on 0 id).lp 23).held = [] ∧ ((inState .on 0 id).lake 23).waiters = [] ∧
    (∀ k < 16, (((inState .on 0 id).lake 23).take k).state = .free) :=
  ⟨⟨by decide +kernel, fun _ => rfl, fun n => ⟨rfl, rfl, fun d h => absurd h List.not_mem_nil⟩⟩, by decide +kernel, by decide +kernel, by decide +kernel⟩
/-- A request held for a lake's wake, which a level change's drain keeps. -/
def heldWake (drain : Bool) : State := { (inState .idle 1 fun x => { x with waking := true, due := 20, held := [.access .read (reqAt 0 lastW 1) [] 0 (whoOf tasks .mgmt) (some (0, lastW)) 4] })
  with pw := { base.pw with busy := drain, phase := if drain then 2 else 0 } }
theorem witness_LakesGoDownAndWake_held : ((heldWake true).lp 23).waking = true ∧ ((heldWake true).reach ((heldWake true).lp 23).due).draining = true ∧
    ((heldWake false).reach ((heldWake false).lp 23).due).draining = false ∧
    ran (.idleWakeEnd 23) (heldWake true) (fun t => (t.lp 23).held = [] ∧ t.pw.held.length = 1 ∧ t.out = []) = true ∧
    ran (.idleWakeEnd 23) (heldWake false) (fun t => lastSt t = some .ok ∧ t.pw.now = 20) = true := by decide +kernel
/-- A per-lake reset that waits for the wake, and a lake that is to be IDLE. -/
theorem witness_LakesGoDownAndWake_reset : ({ waking23 true with tm := { base.tm with lrBusy := true, lrWait := true, lrTarget := 23 } } : State).tm.lrTarget = 23 ∧
    ((inState .waking 1 id).lp 23).req ≠ 0 ∧ ran (.lakeWakeEnd 23) (inState .waking 1 id) (fun t => (t.lp 23).state = .idle) = true ∧
    ran (.lakeWakeEnd 23) { waking23 false with tm := { base.tm with lrBusy := true, lrWait := true, lrTarget := 23 } } (fun t => (t.lake 23).inReset ∧ t.slate (24 * 49152 - 1) = .full) = true := by
  decide +kernel
/-! ### Bring-up, resets and the march test -/

/-- Bring-up at a step, with lake 22 failed. -/
def atStep (k : Nat) : State := { State.reset with tm := { Global.reset with ready := false, step := k, stepDue := 10, stepDueNs := 100, lakeFail := 0x400000 } }
def fuses : List FuseWord := [⟨23, 95, [(7, 511)], [(1, 35)], false⟩]
theorem witness_BringUpRuns : (State.reset).tm.aonUp = true ∧ ({ base with tm := { base.tm with aonUp := false } } : State).tm.aonUp = false ∧ (atStep 3).tm.step = 3 ∧
    (atStep 4).tm.step = 4 ∧ Config.lakePresent (atStep 4).variant 23 = true ∧ (atStep 6).canonical = true ∧ (atStep 9).canonical = true ∧
    ((List.range 24).all fun n => ((atStep 6).lp n).state = .on || ((atStep 6).lp n).state = .idle) = true ∧ (atStep 6).failedLake 22 = true ∧
    (atStep 6).failedLake 23 = false := by decide +kernel
theorem test_pll : ran .pllLock (atStep 3) (fun t => t.tm.step = 4 ∧ t.tm.stepDueNs = 32768) = true := by decide +kernel
theorem test_fuses : ran (.fuseRepairDone fuses) (atStep 4) (fun t => ((t.mte 23).pond 95).row 7 = ⟨true, false, false, 511⟩ ∧ (t.mte 0).due = 50 + 20816) = true := by
  decide +kernel
theorem test_ecc_init : ran .eccInitDone ((atStep 6).putWords 3 [(0, 1)]) (fun t => t.tm.ready ∧ t.mem = [] ∧ (t.lp 23).state = .idle ∧ t.pw.now = 11) = true := by
  decide +kernel

theorem witness_WarmResetRuns : based.canonical = true ∧ based.tm.step = 0 ∧ based.tm.aonUp = true ∧ based.opens mgmt 0x30 4 = true ∧ based.privileged mgmt = true ∧
    (atStep 3).canonical = true ∧ (atStep 3).tm.step ≠ 0 ∧ (deepIn 2 false).pw.deep = 2 ∧ based.pw.deep ≠ 2 ∧ ((List.range 24).all fun n => (based.lake n).wbs = []) = true := by
  decide +kernel

theorem witness_LakeResetRuns_refused : based.opens mgmt 0x40 4 = true ∧ Config.lakePresent based.variant 31 = false ∧ Config.lakePresent based.variant 23 = true ∧
    ({ based with tm := { based.tm with lrBusy := true } } : State).opens mgmt 0x40 4 = true ∧ (inState .waking 0 id).opens mgmt 0x40 4 = true ∧
    ((inState .waking 0 id).lp 23).state = .waking ∧ (inState .waking 0 id).tm.lrBusy = false ∧ (inState .waking 0 id).failedLake 23 = false := by decide +kernel
theorem witness_LakeResetRuns_starts : (windowed .open).opens mgmt 0x40 4 = true ∧ (windowed .open).canonical = true ∧ ((windowed .open).lp 23).state = .on ∧
    ((windowed .open).lp 23).held = [] ∧ ((windowed .open).lake 23).waiters = [] ∧ ((windowed .open).lake 23).wbs = [] ∧ ((windowed .open).lake 23).marks = [] ∧
    ((windowed .open).mte 23).busy = false ∧ ((windowed .open).lake 23).convBusy = false := by decide +kernel
def resetting : State := { tasks.modLake 23 fun l => { l with inReset := true } with tm := { tasks.tm with lrBusy := true, lrTarget := 23, lrDue := 529 } }
theorem witness_LakeResetRuns_done : resetting.tm.lrBusy = true ∧ resetting.tm.lrWait = false ∧
    ran .lakeResetDone resetting (fun t => !(t.lake 23).inReset ∧ t.tm.lrDone ∧ t.pw.now = 529) = true := by decide +kernel

/-- A march run of lake 23 in a phase, with what it has found. -/
def marching (phase : Nat) (keep : Bool) (fs : List FailCell) (rep : Tab PondRepair) : State := (tasks.putWords (24 * 49152 - 1) [(7, 0xA0)]).modMte 23 fun m => { m with
  busy := true, phase := phase, modeRun := keep, bg := 1, due := 10, fails := fs, repair := rep }
def spent : PondRepair := { PondRepair.reset with unrep := true }
theorem witness_MarchRuns_start : tasks.opens mgmt (pageOff 23 0x8000) 4 = true ∧ bit (0x3C : BitVec 32) 0 = false ∧ bit (0x3F : BitVec 32) 0 = true ∧
    (tasks.mte 23).busy = false ∧ BitVec.ofNat 4 (bits (0x3F : BitVec 32) 2 4) ≠ 0 ∧ BitVec.ofNat 4 (bits (1 : BitVec 32) 2 4) = 0 ∧ tasks.failedLake 23 = false ∧
    quiescent tasks 23 = true ∧ (tasks.lp 23).state = .on ∧ (tasks.lake 23).convBusy = false ∧ tasks.tm.lrBusy = false ∧
    failedL.opens mgmt (pageOff 23 0x8000) 4 = true ∧ unquiet.opens mgmt (pageOff 23 0x8000) 4 = true ∧ (marching 1 false [] []).opens mgmt (pageOff 23 0x8000) 4 = true := by
  decide +kernel
/-- R368: 5,200 T-cycles for each background and 16 more; and for a preserving run 1,560 for each of 14 operations and 16 more. -/
theorem test_march_start : ran (.marchStart mgmt 23 0x3D) tasks (fun t => (t.mte 23).due = 20816) = true ∧
    ran (.marchStart mgmt 23 0x07) tasks (fun t => (t.mte 23).due = 21856) = true := by decide +kernel
theorem witness_MarchRuns_phases : ((marching 1 true [] []).mte 23).busy = true ∧ ((marching 2 true [⟨95, 511, 35⟩] []).mte 23).fails = [⟨95, 511, 35⟩] ∧
    ((marching 2 false [] []).mte 23).cold = false ∧ (((marching 2 false [] [(95, spent)]).mte 23).pond 95).unrep = true ∧
    ((marching 3 true [] []).mte 23).phase = 3 ∧ (marching 4 false [] []).canonical = true ∧ ((marching 4 false [] []).mte 23).phase = 4 := by decide +kernel
theorem test_march_repair : ran (.marchAnalysisDone 23) (marching 2 true [⟨95, 511, 35⟩] []) (fun t => ((t.mte 23).pond 95).row 0 = ⟨true, true, false, 511⟩ ∧
    (t.mte 23).result = 1 ∧ (t.mte 23).due = 12) = true := by decide +kernel
theorem test_march_failed : ran (.marchAnalysisDone 23) (marching 2 false [] [(95, spent)]) (fun t => (t.lp 23).state = .off ∧ t.failedLake 23) = true := by decide +kernel
theorem test_march_init : ran (.marchInitDone 23) (marching 4 false [] []) (fun t => t.mem = [] ∧ (t.mte 23).done) = true ∧
    ran (.marchRemapDone 23) (marching 3 true [] []) (fun t => t.mem ≠ [] ∧ (t.mte 23).done) = true := by decide +kernel

/-- R15: an absent lake is answered before the sender is judged. -/
theorem test_reset_absent : ran (.lakeReset host 31) based (fun t => t = based.reply host .absent) = true ∧
    ran (.lakeReset host 23) based (fun t => t = based.reply host .nackOwner) = true := by decide +kernel
theorem witness_LakeResetRuns_still : (windowed .open).still ∧ ((windowed .open).lp 23).held = [] ∧ ((windowed .open).lake 23).waiters = [] ∧
    ((windowed .open).lake 23).wbs = [] ∧ ((windowed .open).lake 23).marks = [] ∧ ((windowed .open).win 255).lake.toNat = 23 ∧ ((windowed .open).win 255).active = true ∧
    ((windowed .open).stop (Config.lakePos 23)).queue = [] :=
  ⟨⟨by decide +kernel, fun _ => rfl, fun n => ⟨rfl, rfl, fun d h => absurd h List.not_mem_nil⟩⟩, by decide +kernel, by decide +kernel, by decide +kernel,
    by decide +kernel, by decide +kernel, by decide +kernel, by decide +kernel⟩
/-- R120: the arrival queue's requests are answered with ABSENT. -/
theorem test_reset_queue : (((queuedAt (Config.lakePos 23) [qe 9 7]).emptyQueue (Config.lakePos 23)).stop (Config.lakePos 23)).queue = [] ∧
    ((queuedAt (Config.lakePos 23) [qe 9 7]).emptyQueue (Config.lakePos 23)).ring.map (fun u => u.k.st) = [.absent] := by decide +kernel
theorem witness_MarchRuns_none : ¬((tasks.mte 23).busy = true ∧ (tasks.mte 23).phase = 1) ∧ (analyse spent []).unrep = true ∧ spent.unrep = true ∧
    PondRepair.reset.unrep = false ∧ ran (.marchInitDone 23) tasks (fun t => t = tasks) = true := by decide +kernel
theorem witness_MarchRuns_verdict : ((List.range 96).all fun p => !(analyse (((marching 2 true [⟨95, 511, 35⟩] []).mte 23).pond p) (pondFails [⟨95, 511, 35⟩] p)).unrep) = true ∧
    (analyse (((marching 2 true [⟨95, 511, 35⟩] []).mte 23).pond 95) (pondFails [⟨95, 511, 35⟩] 95)).hit = true ∧
    (analyse (((marching 2 false [] [(95, spent)]).mte 23).pond 95) (pondFails [] 95)).unrep = true := by decide +kernel
/-! ### The sideband -/

/-- The target with address 8, out of DEEP; the same with a request held, and with a response that is not ready. -/
def joined : State := { base with i3c := { base.i3c with addr := some 8 }, fw := { base.fw with running := true, setOk := true } }
def request (op index len : Nat) (data : List Byte) : DictReq := ⟨7, op, index, 0, 0, len, data, true⟩
def asking (r : DictReq) : State := { joined with i3c := { joined.i3c with held := some r } }
def unready : State := { joined with i3c := { joined.i3c with resp := some ⟨7, .ok, 0, [1]⟩ } }
/-- A READ of 8 bytes of entry 0x2008; its bytes add up to 0 (R400). -/
def readFrame : List Byte := [7, 1, 0x08, 0x20, 0, 0, 0, 8, 0, 0xC8]
theorem witness_OneRequestHeld_request : (match ackOf joined with | .ack => true | _ => false) = true ∧ sumBytes readFrame = 0 ∧ readFrame.length ≤ joined.i3c.mwl.toNat ∧ joined.pw.deep ≠ 1 ∧
    sumBytes [7, 2, 0x08, 0x30, 0, 0, 0, 1, 0, 0x2F, 0x8F] = 0 ∧ sumBytes [7, 3, 0x08, 0x30, 0, 0, 0, 0, 0, 0xBE] = 0 := by decide +kernel
theorem test_request : ran (.requestFrame readFrame true true) joined (fun t => t.i3c.held = some (request 1 0x2008 8 [])) = true ∧
    ran (.requestFrame readFrame false true) joined (fun t => t.i3c.held = none ∧ t.i3c.resp = some ⟨7, .retry, 6, []⟩) = true := by decide +kernel
theorem witness_OneRequestHeld_response : unready.i3c.resp = some ⟨7, .ok, 0, [1]⟩ ∧ unready.i3c.ready = false ∧ joined.i3c.resp = none ∧
    (asking (request 1 0x2008 8 [])).tm.aonUp = true ∧ (asking (request 1 0x2008 8 [])).i3c.hdr = false ∧ (asking (request 1 0x2008 8 [])).i3c.held ≠ none ∧
    base.i3c.addr = none ∧ ({ joined with pw := { joined.pw with deep := 2 } } : State).i3c.addr ≠ none := by decide +kernel
theorem test_response : ran .dictResponseReady unready (fun t => t.i3c.ready ∧ t.i3c.unread) = true ∧
    ran .responseFrameRead { joined with i3c := { joined.i3c with resp := some ⟨7, .ok, 0, [1]⟩, ready := true } } (fun t => t.out = [.frame [7, 0, 1, 0, 1, 0xF7]]) = true := by
  decide +kernel

theorem witness_DictionaryServes : (asking (request 1 0x2008 8 [])).i3c.held = some (request 1 0x2008 8 []) ∧ dictMayRun (asking (request 1 0x2008 8 [])) (request 1 0x2008 8 []) = true ∧
    13 ≤ joined.i3c.mrl.toNat ∧ firstRefusal (dictRefusals joined (request 1 0x6FFF 8 [])) = some (.absent, 1) ∧ dictMayRun joined (request 1 0x6FFF 8 []) = true ∧
    firstRefusal (dictRefusals joined (request 3 0x2008 0 [])) = none ∧ (dictEntry 0x2008).isSome = true ∧
    dictMayRun joined (request 2 0x3008 1 [0x2F]) = true ∧ joined.fw.running = true ∧ joined.pw.logOk = true := by decide +kernel
theorem test_dictionary : ran .dictRead (asking (request 1 0x2008 8 [])) (fun t => t.i3c.resp = some ⟨7, .ok, 0, [0, 0, 0, 0, 0, 0, 0, 0]⟩ ∧ t.i3c.held = none) = true ∧
    ran .dictWrite (asking (request 2 0x3008 1 [0x2F])) (fun t => t.i3c.ibiMask = 0x2F) = true := by decide +kernel

theorem witness_TargetAnswersAndInterrupts_codes : base.tm.aonUp = true ∧ base.i3c.hdr = false ∧ base.i3c.addr = none ∧ joined.i3c.addr ≠ none ∧
    ({ joined with i3c := { joined.i3c with hdr := true } } : State).i3c.hdr = true ∧ ran (.entdaa 8) base (fun t => t.i3c.addr = some 8) = true ∧
    ran .getbcr joined (fun t => t.out = [.ccc [0x0E]]) = true ∧ ran .rstdaa joined (fun t => t.i3c.addr = none) = true := by decide +kernel
/-- Interrupts 0x10 and 0x15 wait. -/
def interrupting : State := { joined with i3c := { joined.i3c with pend := [(0x10, some 3), (0x15, some 9)] } }
theorem witness_TargetAnswersAndInterrupts_raise : base.i3c.enhj = true ∧ interrupting.i3c.addr ≠ none ∧ interrupting.i3c.enint = true ∧
    Tab.wf (fun _ => none) interrupting.i3c.pend = true ∧ Tab.get (fun _ => none) interrupting.i3c.pend 0x10 = some 3 ∧ raisable interrupting 0x10 = true ∧
    ((List.range 0x10).all fun c => Tab.get (fun _ => none) interrupting.i3c.pend c = none) = true ∧
    ran (.ibiRaise true) interrupting (fun t => t.out = [.ibi 0x10 3]) = true ∧ ran .hotJoin base (fun t => t.i3c.hjNs = 10000000) = true := by decide +kernel

/-! ### The firmware update -/

def updating (st : FwState) : State := { joined with fw := { joined.fw with state := st, version := 0x20001, slotB := [(0, 1)], bitmap := [0] } }
/-- An image of two chunks staged for version 5, of which the second is missing. -/
def receiving : State := { joined with fw := { joined.fw with state := .receiving, version := 5, bitmap := [0] } }
theorem witness_ImageStagedAndVerified_begin : joined.pw.deep = 0 ∧ joined.draining = false ∧ joined.fw.running = true ∧ joined.pw.logOk = true ∧
    base.fw.running = false ∧ (updating .scheduled).fw.state = .scheduled ∧ (updating .rejected).fw.state = .rejected ∧
    ran (.fwBegin 5 true) joined (fun t => t.fw.state = .receiving ∧ t.fw.version = 5) = true ∧
    ran (.fwBegin 5 true) (updating .trial) (fun t => t.out = [.dict .nackState 8] ∧ t.fw.state = .trial) = true := by decide +kernel
theorem witness_ImageStagedAndVerified_chunk : (List.replicate 1024 (0 : Byte)).length = 1024 ∧ receiving.fw.state = .receiving ∧ 0 ∈ receiving.fw.bitmap ∧
    receiving.fw.slotB.length ≤ 1023 ∧ ¬1 ∈ receiving.fw.bitmap ∧ ({ receiving.fw with bitmap := [] } : Fw).bitmap = [] ∧ (List.replicate 1031 (0 : Byte)).length ≠ 1032 := by
  decide +kernel
/-- Whatever the checks of the free digest and signature say, they let a verification pass or fail. -/
theorem witness_ImageStagedAndVerified_verify (m : Image) (f : Fw) (s : State) (hs : s = { joined with fw := { f with running := true, state := .verifying, slotB := m } }) :
    s.fw.running = true ∧ s.fw.state = .verifying ∧ s.fw.slotB = m := by subst hs; exact ⟨rfl, rfl, rfl⟩

def staged (sibOk : Bool) : State := { updating .staged with fw := { (updating .staged).fw with sibValid := sibOk } }
theorem witness_ActivationScheduledAndFired_schedule : (staged true).pw.deep = 0 ∧ (staged true).draining = false ∧ (staged true).fw.running = true ∧ (staged true).pw.logOk = true ∧
    (staged true).fabricTime + 10000000 ≤ 10000000 ∧ 604800000000000 ≤ (staged true).fabricTime + 604800000000000 ∧ (staged true).fw.sibTrial = false ∧
    (staged true).fw.slotB.field 0x16 2 ≤ (staged true).fw.sibIface.toNat ∧ (staged true).fw.sibIface.toNat ≤ (staged true).fw.slotB.field 0x18 2 ∧
    (staged false).fw.sibValid = false ∧ (updating .scheduled).fw.state = .scheduled ∧ (updating .trial).fw.state = .trial := by decide +kernel
theorem test_schedule : ran (.fwActivateSchedule (numBytes 4 0x20001 ++ numBytes 8 10000000 ++ numBytes 20 0) true) (staged true) (fun t => t.fw.state = .scheduled ∧
      t.fw.at_ = 10000000) = true ∧
    ran (.fwActivateSchedule (numBytes 4 0x20001 ++ numBytes 8 9999999 ++ numBytes 20 0) true) (staged true) (fun t => t.out = [.dict .nackState 5]) = true := by decide +kernel
theorem test_cancel : ran (.fwActivateCancel true) (updating .scheduled) (fun t => t.fw.state = .staged) = true ∧
    ran (.fwActivateRevert true) (updating .trial) (fun t => !t.fw.running ∧ t.fw.revert) = true := by decide +kernel
theorem witness_ActivationScheduledAndFired_fire : (updating .scheduled).fw.running = true ∧ (updating .scheduled).fw.fired = false ∧
    ran .fwActivationFire (updating .scheduled) (fun t => t.fw.fired ∧ !t.fw.running) = true := by decide +kernel
def starting (st : FwState) (at_ : Nat) : State := { updating st with
  fw := { (updating st).fw with starting := true, running := false, at_ := at_ }, pw := { joined.pw with ns := 2000001, now := 1000000 } }
theorem witness_ActivationScheduledAndFired_starts : (starting .idle 0).fw.starting = true ∧ (starting .idle 0).tm.ready = true ∧ (starting .idle 0).pw.deep = 0 ∧
    (starting .idle 0).draining = false ∧ ((starting .idle 0).fw.bankOf (starting .idle 0).fw.cur).vals = [] ∧ (starting .scheduled 1000000).fw.at_ + 1000000 < (starting .scheduled 1000000).fabricTime ∧
    ¬(starting .scheduled 1000001).fw.at_ + 1000000 < (starting .scheduled 1000001).fabricTime ∧
    ran .settingsApply (starting .scheduled 1000000) (fun t => t.fw.state = .staged ∧ t.fw.reason = 9) = true ∧
    ran .settingsApply (starting .scheduled 1000001) (fun t => t.fw.state = .scheduled ∧ t.fw.running) = true := by decide +kernel

/-- The sequencer stands, with an image in slot B, after an activation that fired or in a trial. -/
def standing (m : Image) (st : FwState) (fired : Bool) : State := { base with fw := { base.fw with slotB := m, state := st, fired := fired } }
theorem witness_LoaderStartsAndTrialEnds_loader (m : Image) (h : m.startable = true) : (standing m .trial false).tm.ready = true ∧ (standing m .trial false).pw.logOk = true ∧
    (standing m .trial false).pw.deep = 0 ∧ (standing m .trial false).fw.running = false ∧ (standing m .trial false).fw.starting = false ∧
    (standing m .trial false).fw.stopped = false ∧ (standing m .scheduled true).fw.fired = true ∧ (standing m .trial false).fw.slotB.startable = true ∧
    (standing m .trial false).fw.conv = false ∧ (standing m .idle false).fw.state ≠ .trial := ⟨rfl, rfl, rfl, rfl, rfl, rfl, rfl, h, rfl, by show FwState.idle ≠ FwState.trial; decide⟩
def onTrial (ns : Nat) : State := { updating .trial with pw := { joined.pw with ns := ns } }
theorem witness_LoaderStartsAndTrialEnds_trial (m : Image) (h : m.startable = true) :
    let s : State := { starting .trial 0 with fw := { (starting .trial 0).fw with slotB := m } }
    s.fw.starting = true ∧ s.fw.state = .trial ∧ s.fw.conv = false ∧ s.fw.slotB.startable = true ∧ (starting .idle 0).fw.state ≠ .trial :=
  ⟨rfl, rfl, rfl, h, by show FwState.idle ≠ FwState.trial; decide⟩
theorem witness_LoaderStartsAndTrialEnds_confirm : (onTrial 600000000000).fw.running = true ∧ (onTrial 600000000000).fw.setOk = true ∧ (onTrial 600000000000).fw.conv = false ∧
    (onTrial 600000000000).pw.ns < (onTrial 600000000000).fw.trialNs + 1200000000000 ∧ (onTrial 1200000000000).fw.trialNs + 1200000000000 ≤ (onTrial 1200000000000).pw.ns ∧
    ran .fwConfirm (onTrial 600000000000) (fun t => t.fw.state = .idle) = true ∧ ran .fwConfirm (onTrial 1200000000000) (fun t => t.fw.state = .trial) = true ∧
    ran .trialExpire (onTrial 1200000000000) (fun t => !t.fw.running) = true := by decide +kernel
theorem witness_LoaderStartsAndTrialEnds_sibling : joined.fw.running = true ∧ joined.fw.sibTrial = false ∧ (updating .scheduled).fw.fired = false ∧
    (staged true).fw.sibValid = true ∧ ran (.sibStatusMsg 3 true) (updating .scheduled) (fun t => t.fw.state = .staged ∧ t.fw.reason = 7) = true ∧
    ran (.sibStatusMsg 3 false) joined (fun t => t.fw.sibValid ∧ t.fw.sibIface = 3) = true := by decide +kernel

/-! ### The sealed meter -/

def metered : State := { base with meter := { base.meter with energyDue := 10, sampleDue := 20, recDue := 40 }, weir := { base.weir with lwords := [(63, 5)] } }
theorem witness_MeterCountsAndRecords_running : metered.meter.running = true ∧ metered.pw.logOk = true ∧ metered.pw.deep ≠ 2 ∧
    ran (.meterEnergySample [750, 0, 0, 800] [2]) metered (fun t => natAt t.meter.energy 0 = 1500 ∧ !t.meter.tamper) = true ∧
    ran (.meterEnergySample [0, 0, 0, 801] []) metered (fun t => t.meter.tamper) = true := by decide +kernel
theorem test_meter_sample : ran .meterSample metered (fun t => natAt t.meter.moved 63 = 5 ∧ t.meter.sampleDue = 1000020) = true := by decide +kernel
def unmetered : State := { base with meter := { base.meter with running := false } }
theorem witness_MeterCountsAndRecords_down : unmetered.meter.running = false ∧ ran .meterPowerUp unmetered (fun t => t.meter.running ∧ t.meter.fStart) = true ∧
    ran (.monitorSelfTest false) metered (fun t => t.meter.tamper ∧ t.meter.cause = 0x10) = true ∧
    ran .referenceClockLoss metered (fun t => !t.pw.refOk ∧ t.meter.clkFree) = true := by decide +kernel


/-! ### Further clauses of the sideband and the firmware -/

/-- Frames whose sum, length or operation does not fit, and the target on its way into and in DEEP. -/
def joinedDeep (d : Nat) : State := { joined with pw := { joined.pw with deep := d, deepPend := true } }
theorem witness_OneRequestHeld_bad : sumBytes (readFrame.dropLast ++ [0xC9]) ≠ 0 ∧ ({ joined.i3c with mwl := 9 } : I3c).mwl.toNat < readFrame.length ∧
    sumBytes [7, 4, 0x08, 0x20, 0, 0, 0, 8, 0, 0xC5] = 0 ∧ (joinedDeep 1).i3c.addr ≠ none ∧ (joinedDeep 1).tm.aonUp = true ∧
    (match ackOf { joined with pw := { joined.pw with deep := 1 } } with | .ack => true | _ => false) = true ∧ needsWake (request 1 0x2000 4 []) = true := by decide +kernel
theorem test_bad_frames : ran (.requestFrame (readFrame.dropLast ++ [0xC9]) true true) joined (fun t => t.i3c.resp = some ⟨7, .retry, 6, []⟩ ∧ t.i3c.held = none) = true ∧
    ran (.requestFrame readFrame true true) (joinedDeep 1) (fun t => t.out = [.busNack] ∧ t.i3c.held = none) = true ∧
    ran .responseFrameRead (joinedDeep 2) (fun t => t.pw.deep = 3 ∧ t.out = [.busNack]) = true := by decide +kernel
theorem witness_DictionaryServes_other : joined.i3c.held = none ∧ (dictMayRun ({ joinedDeep 2 with i3c := { joined.i3c with held := some (request 1 0x2000 4 []) } }) (request 1 0x2000 4 [])) = false ∧
    ((dictEntry 0x2008).bind fun e => subEntry joined.variant e 0x2008 0).isSome = true ∧ ((dictEntry 0x3008).bind fun e => subEntry joined.variant e 0x3008 0).isSome = true ∧
    (dictEntry 0x6FFF).isSome = false ∧
    ran .dictRead (asking (request 1 0x6FFF 8 [])) (fun t => t.i3c.resp = some ⟨7, .absent, 1, []⟩) = true := by decide +kernel
theorem witness_ImageStagedAndVerified_refused : drainingNow.draining = true ∧ base.fw.running = false ∧ le (List.replicate 1032 (0 : Byte)) 2 4 ≠ receiving.fw.version.toNat ∧
    joined.fw.state ≠ .receiving ∧ joined.fw.state ≠ .verifying := by decide +kernel
theorem test_chunk_refused : ran (.fwChunk [0] true) receiving (fun t => t.out = [.dict .nackState 3]) = true ∧
    ran (.fwChunk [0] false) receiving (fun t => t.out = [.dict .nackOwner 4]) = true ∧ ran (.fwActivateCancel false) joined (fun t => t.out = [.dict .nackOwner 4]) = true := by
  decide +kernel
theorem witness_LoaderStartsAndTrialEnds_none : joined.fw.running = true ∧ joined.fw.starting = false ∧ joined.fw.state ≠ .trial ∧ base.fw.running = false ∧
    (standing [] .idle false).fw.fired = false ∧ (standing [] .idle false).fw.state ≠ .trial ∧ joined.fw.sibValid = false ∧
    ran .loaderStart joined (fun t => t = joined) = true ∧ ran .sibTimeout joined (fun t => t = joined) = true := by decide +kernel
end Sys2Proof.Tests
end

section
/-!
PROOF. The per-lake reset (O52). Sparse tables are equal where they read alike, so a step that changes nothing it can see gives back its
state: a lake where nothing waits is left alone by the first stage of its reset (`State.dropLake_eq_self`), and so is a block where nothing
waits by the last (`State.takeUp_eq_self`). What the stages between them change is said stage by stage, then field by field of
`State.resetLake`, and from the field of the arbiters O52 is refuted.
-/
namespace Sys2Proof

/-! ### Reads of sparse tables -/

section
variable {α : Type} {d : Nat → α}

theorem Tab.After.lt_of_mem {t : Tab α} {a : Nat} (ht : Tab.After a t) {e : Nat × α} (he : e ∈ t) : a < e.1 := by
  induction t generalizing a with
  | nil => cases he
  | cons b t ih =>
    rcases List.mem_cons.1 he with rfl | he
    · exact ht.1
    · exact Nat.lt_trans ht.1 (ih ht.2 he)

theorem Tab.get_of_mem {t : Tab α} (ht : Tab.sorted t = true) {e : Nat × α} (he : e ∈ t) : Tab.get d t e.1 = e.2 := by
  induction t with
  | nil => cases he
  | cons b t ih =>
    have hb := (Tab.sorted_cons b t).1 ht
    rcases List.mem_cons.1 he with rfl | he
    · simp [Tab.get]
    · rw [Tab.get, if_neg (Nat.ne_of_lt (hb.lt_of_mem he))]
      exact ih (Tab.sorted_of_after hb) he

theorem Tab.mem_of_get_ne {t : Tab α} {k : Nat} (h : Tab.get d t k ≠ d k) : (k, Tab.get d t k) ∈ t := by
  induction t with
  | nil => exact absurd rfl h
  | cons b t ih =>
    rw [Tab.get] at h ⊢
    split at h
    · next hb => simp [← hb]
    · next hb => rw [if_neg hb]; exact List.mem_cons_of_mem _ (ih h)

theorem Tab.get_eraseRange (t : Tab α) (lo hi k : Nat) :
    Tab.get d (Tab.eraseRange t lo hi) k = if lo ≤ k ∧ k < hi then d k else Tab.get d t k := by
  induction t with
  | nil => simp [Tab.eraseRange]
  | cons b t ih =>
    rw [Tab.eraseRange] at ih ⊢
    by_cases hb : lo ≤ b.1 ∧ b.1 < hi
    · rw [List.filter_cons_of_neg (by simp [hb]), ih]
      by_cases hk : lo ≤ k ∧ k < hi
      · simp [hk]
      · have : b.1 ≠ k := by rintro rfl; exact hk hb
        simp [hk, Tab.get, this]
    · rw [List.filter_cons_of_pos (by simp only [Bool.not_eq_true', Bool.and_eq_false_iff, decide_eq_false_iff_not]; omega), Tab.get, Tab.get, ih]
      by_cases hk : b.1 = k
      · subst hk; simp [hb]
      · simp [hk]

theorem Tab.pairwise_of_sorted {t : Tab α} (ht : Tab.sorted t = true) : t.Pairwise fun a b => a.1 < b.1 := by
  induction t with
  | nil => exact .nil
  | cons b t ih =>
    have hb := (Tab.sorted_cons b t).1 ht
    exact .cons (fun _ he => hb.lt_of_mem he) (ih (Tab.sorted_of_after hb))

variable [DecidableEq α]

/-- A canonical table lists exactly the keys that read as something else than an unlisted one. -/
theorem Tab.mem_iff_get {t : Tab α} (ht : Tab.wf d t = true) (e : Nat × α) : e ∈ t ↔ Tab.get d t e.1 = e.2 ∧ e.2 ≠ d e.1 := by
  obtain ⟨hs, hd⟩ := Tab.wf_iff.1 ht
  refine ⟨fun he => ⟨Tab.get_of_mem hs he, hd e he⟩, fun ⟨hg, hne⟩ => ?_⟩
  have := Tab.mem_of_get_ne (d := d) (t := t) (k := e.1) (hg ▸ hne)
  rwa [hg] at this

/-- Tables in canonical form that read alike are equal. -/
theorem Tab.eq_of_get_eq {t u : Tab α} (ht : Tab.wf d t = true) (hu : Tab.wf d u = true) (h : ∀ k, Tab.get d t k = Tab.get d u k) :
    t = u := by
  have pt := Tab.pairwise_of_sorted (Tab.wf_iff.1 ht).1
  have pu := Tab.pairwise_of_sorted (Tab.wf_iff.1 hu).1
  have nodup {l : Tab α} (hl : l.Pairwise fun a b => a.1 < b.1) : l.Nodup := hl.imp fun hab => by rintro rfl; omega
  have perm : t.Perm u := (List.perm_ext_iff_of_nodup (nodup pt) (nodup pu)).2 fun e => by rw [Tab.mem_iff_get ht, Tab.mem_iff_get hu, h]
  exact perm.eq_of_pairwise (fun a b _ _ hab hba => by omega) pt pu

/-- A key stored again as it reads changes nothing. -/
theorem Tab.set_get_self {t : Tab α} (ht : Tab.wf d t = true) (k : Nat) : Tab.set d t k (Tab.get d t k) = t :=
  Tab.eq_of_get_eq (Tab.wf_set ht _ _) ht fun j => by
    by_cases hj : j = k
    · subst hj; exact Tab.get_set_same _ _ _
    · exact Tab.get_set_other hj _

/-- A change of values that leaves what an unlisted key reads as alone changes what every key reads as. -/
theorem Tab.get_mapTab {t : Tab α} (ht : Tab.sorted t = true) {f : Nat → α → α} {k : Nat} (hd : f k (d k) = d k) :
    Tab.get d (Machine.mapTab d f t) k = f k (Tab.get d t k) := by
  induction t with
  | nil => exact hd.symm
  | cons b t ih =>
    have hb := (Tab.sorted_cons b t).1 ht
    have ih := ih (Tab.sorted_of_after hb)
    rw [Machine.mapTab] at ih ⊢
    rw [List.map_cons, List.filter_cons, Tab.get]
    by_cases hk : b.1 = k
    · subst hk
      rw [hb.get (Nat.le_refl _), hd] at ih
      split
      · simp [Tab.get]
      · next hf => rw [ih]; simpa using (Eq.symm (by simpa using hf))
    · split <;> simp [Tab.get, hk, ih]

end

namespace Machine

/-! ### The tables of a canonical state -/

/-- The tables of the state, each in canonical form. -/
structure State.TablesWf (s : State) : Prop where
  mem : Memory.wf s.mem = true
  rows : Tab.wf (fun _ => RowTag.reset) s.rows = true
  lakes : Tab.wf (fun _ => Lake.reset) s.lakes = true
  lpow : Tab.wf (fun _ => LakePower.reset) s.lpow = true
  mtes : Tab.wf (fun _ => Mte.reset) s.mtes = true
  springs : Tab.wf (fun _ => Spring.reset) s.springs = true
  arbs : Tab.wf (fun k => Arb.reset (arbHigh k)) s.arbs = true
  stops : Tab.wf (fun _ => Stop.reset) s.stops = true
  cues : Tab.wf (Cue.reset s.variant) s.cues = true
  wins : Tab.wf (fun _ => Win.reset) s.wins = true
  reels : Tab.wf (fun _ => Reel.reset) s.reels = true
  ctxs : Tab.wf (fun _ => []) s.ctxs = true

theorem State.canonical_iff {s : State} : s.canonical = true ↔ s.TablesWf := by
  simp only [State.canonical, Bool.and_eq_true]
  constructor
  · rintro ⟨⟨⟨⟨⟨⟨⟨⟨⟨⟨⟨h1, h2⟩, h3⟩, h4⟩, h5⟩, h6⟩, h7⟩, h8⟩, h9⟩, h10⟩, h11⟩, h12⟩
    exact ⟨h1, h2, h3, h4, h5, h6, h7, h8, h9, h10, h11, h12⟩
  · rintro ⟨h1, h2, h3, h4, h5, h6, h7, h8, h9, h10, h11, h12⟩
    exact ⟨⟨⟨⟨⟨⟨⟨⟨⟨⟨⟨h1, h2⟩, h3⟩, h4⟩, h5⟩, h6⟩, h7⟩, h8⟩, h9⟩, h10⟩, h11⟩, h12⟩

theorem State.modLake_eq_self {s : State} (h : Tab.wf (fun _ => Lake.reset) s.lakes = true) {n : Nat} {f : Lake → Lake}
    (hf : f (s.lake n) = s.lake n) : s.modLake n f = s := by
  rw [State.modLake, hf, State.lake, Tab.set_get_self h]

theorem State.modLp_eq_self {s : State} (h : Tab.wf (fun _ => LakePower.reset) s.lpow = true) {n : Nat} {f : LakePower → LakePower}
    (hf : f (s.lp n) = s.lp n) : s.modLp n f = s := by
  rw [State.modLp, hf, State.lp, Tab.set_get_self h]

theorem State.modSpring_eq_self {s : State} (h : Tab.wf (fun _ => Spring.reset) s.springs = true) {n : Nat} {f : Spring → Spring}
    (hf : f (s.spring n) = s.spring n) : s.modSpring n f = s := by
  rw [State.modSpring, hf, State.spring, Tab.set_get_self h]

/-! ### What waits may go on: nothing, where nothing waits -/

/-- Nothing is held on a cue where the waiters of its home lake and the Springs hold nothing on it. -/
theorem heldWaits_eq_nil_iff {s : State} {k : Nat} : heldWaits s k = [] ↔
    (s.lake (s.homeOf k)).waiters.filterMap (entryWait k) = [] ∧
      ∀ n < Config.lakes, (s.spring n).descs.filter (Desc.watches k 8) = [] := by
  simp only [heldWaits, List.append_eq_nil_iff, List.flatten_eq_nil_iff, List.forall_mem_map, List.mem_range, List.map_eq_nil_iff]

theorem State.serveCues_eq_self {s : State} (h : ∀ k, heldWaits s k = []) : s.serveCues = s := by
  rw [State.serveCues]
  generalize s.cues = l
  induction l with
  | nil => rfl
  | cons e l ih => rw [List.foldl_cons, h, List.length_nil, State.serveCue]; exact ih

theorem State.issueWaiting_eq_self {s : State} {n : Nat} (h : s.allIssued n = true) : s.issueWaiting n = s := by
  have none_left : (s.spring n).descs.filter (fun d => d.live && kMoves (dKind d.w) && !d.issued) = [] := by
    rw [List.filter_eq_nil_iff]
    intro d hd
    simpa [or_iff_not_imp_left] using List.all_eq_true.1 h d hd
  rw [State.issueWaiting, none_left, List.foldl_nil]

/-- Descriptors that are met already are not changed by being met. -/
theorem map_met_eq_self {ds : List Desc} {ok : Desc → Bool} (h : ∀ d ∈ ds, ok d = true → d.met = true) :
    (ds.map fun d => if ok d then { d with met := true } else d) = ds := by
  refine (List.map_congr_left fun d hd => ?_).trans (List.map_id' ds)
  split
  · next hok => rw [← h d hd hok]
  · rfl

theorem State.meetOrder_eq_self {s : State} {n : Nat} (hw : Tab.wf (fun _ => Spring.reset) s.springs = true) (h : s.noneOrdered n = true) :
    s.meetOrder n = s := by
  rw [State.meetOrder]
  refine State.modSpring_eq_self hw ?_
  rw [map_met_eq_self]
  intro d hd ok
  simp only [Bool.and_eq_true, decide_eq_true_eq] at ok
  obtain ⟨⟨⟨flight, mark⟩, cond⟩, -⟩ := ok
  simpa [flight, mark, cond] using List.all_eq_true.1 h d hd

theorem State.takeUp_eq_self {s : State} (hw : Tab.wf (fun _ => Spring.reset) s.springs = true) (hc : ∀ k, heldWaits s k = [])
    (hi : ∀ n, s.allIssued n = true) (ho : ∀ n, s.noneOrdered n = true) : s.takeUp = s := by
  rw [State.takeUp, State.serveCues_eq_self hc]
  generalize List.range Config.lakes = l
  induction l with
  | nil => rfl
  | cons n l ih => rw [List.foldl_cons, State.issueWaiting_eq_self (hi n), State.meetOrder_eq_self hw (ho n)]; exact ih

/-- The reset point of a lake where nothing is held, waits, is to be written back or marked. -/
theorem State.dropLake_eq_self {s : State} (hc : s.canonical = true) {n : Nat} (held : (s.lp n).held = []) (waiters : (s.lake n).waiters = [])
    (wbs : (s.lake n).wbs = []) (marks : (s.lake n).marks = []) : s.dropLake n = s := by
  have hw := State.canonical_iff.1 hc
  have lake : (s.modLake n fun l => { l with wbs := [], marks := [] }) = s := State.modLake_eq_self hw.lakes (by rw [← wbs, ← marks])
  have lp : (s.modLp n fun x => { x with held := [] }) = s := State.modLp_eq_self hw.lpow (by rw [← held])
  simp only [State.dropLake, wbs, marks, List.reverse_nil, List.foldl_nil, lake, lp, held, State.answerAll, State.releaseWaiters, waiters,
    List.filter_nil]

/-! ### The slates of the rows (R219, R222, R360) -/

/-- A step on a row taken into its tag bits is gone for that row, and stays for every other. -/
theorem stepSlate_without (steps : List RangeStep) (row r : Nat) :
    stepSlate ((steps.map fun st => { st with sets := st.sets.filter (·.1 != row) }).filter (·.sets != [])) r =
      if r = row then none else stepSlate steps r := by
  rw [stepSlate, stepSlate, ← List.filter_reverse, ← List.map_reverse]
  have one (st : RangeStep) : (st.sets.filter (·.1 != row)).find? (·.1 = r) = if r = row then none else st.sets.find? (·.1 = r) := by
    rw [List.find?_filter]
    split
    · next e => subst e; simp
    · next e =>
      congr 1
      funext x
      by_cases hx : x.1 = r
      · simp [hx, e]
      · simp [hx]
  induction steps.reverse with
  | nil => simp
  | cons st l ih =>
    rw [List.map_cons, List.filter_cons]
    have head := one st
    split
    · rw [List.findSome?_cons, List.findSome?_cons, ih, head]
      by_cases e : r = row <;> simp [e]
    · next empty =>
      rw [show st.sets.filter (·.1 != row) = [] by simpa using empty, List.find?_nil] at head
      rw [List.findSome?_cons, ih]
      split
      · rfl
      · next e => rw [if_neg e] at head; rw [← head]; rfl

theorem stepSlate_eq_none {steps : List RangeStep} {r : Nat} (h : r ∉ (steps.map fun st => st.sets.map (·.1)).flatten) :
    stepSlate steps r = none := by
  rw [stepSlate, List.findSome?_eq_none_iff]
  intro st hst
  rw [Option.map_eq_none_iff, List.find?_eq_none]
  rintro x hx e
  exact h (List.mem_flatten.2 ⟨_, List.mem_map.2 ⟨st, List.mem_reverse.1 hst, rfl⟩, List.mem_map.2 ⟨x, hx, by simpa using e⟩⟩)

theorem State.settle_frame (s : State) (row : Nat) : ∃ rows lakes, s.settle row = { s with rows := rows, lakes := lakes } := by
  rw [State.settle]
  split
  · exact ⟨s.rows, s.lakes, rfl⟩
  · exact ⟨_, _, rfl⟩

theorem State.settle_lake (s : State) (row k : Nat) : (s.settle row).lake k = { s.lake k with steps := ((s.settle row).lake k).steps } := by
  rw [State.settle]
  split
  · rfl
  · by_cases hk : k = lakeOf row
    · subst hk; rw [State.modLake_lake_same]; rfl
    · rw [State.modLake_lake_other _ _ _ _ hk]; rfl

theorem State.settle_stepSlate (s : State) (row r : Nat) :
    stepSlate ((s.settle row).lake (lakeOf r)).steps r = if r = row then none else stepSlate (s.lake (lakeOf r)).steps r := by
  rw [State.settle]
  split
  · next hn =>
    split
    · next e => rw [e, hn]
    · rfl
  · by_cases hk : lakeOf r = lakeOf row
    · rw [hk, State.modLake_lake_same, stepSlate_without]; rfl
    · rw [State.modLake_lake_other _ _ _ _ hk, if_neg fun e => hk (congrArg lakeOf e)]; rfl

theorem State.settle_tag_slate (s : State) (row r : Nat) :
    ((s.settle row).tag r).slate = if r = row then s.slate r else (s.tag r).slate := by
  rw [State.settle]
  split
  · next hn =>
    split
    · next e => rw [State.slate, e, hn]; rfl
    · rfl
  · next sl hs =>
    rw [State.modLake_tag]
    split
    · next e => rw [e, State.setTag_same, State.slate, hs]; rfl
    · next e => rw [State.setTag_other _ _ _ _ e]

/-- A row in a pond cycle of its own reads as the slate it had. -/
theorem State.settle_slate (s : State) (row r : Nat) : (s.settle row).slate r = s.slate r := by
  rw [State.slate, State.settle_stepSlate, State.settle_tag_slate]
  split <;> rfl

/-- Rows in pond cycles of their own, one after another. -/
theorem State.settleAll_frame (s : State) (rows : List Nat) :
    ∃ tags lakes, rows.foldl State.settle s = { s with rows := tags, lakes := lakes } := by
  induction rows generalizing s with
  | nil => exact ⟨s.rows, s.lakes, rfl⟩
  | cons row rows ih =>
    obtain ⟨t, l, h⟩ := s.settle_frame row
    obtain ⟨t', l', h'⟩ := ih (s.settle row)
    exact ⟨t', l', by rw [List.foldl_cons, h', h]⟩

theorem State.settleAll_lake (s : State) (rows : List Nat) (k : Nat) :
    (rows.foldl State.settle s).lake k = { s.lake k with steps := ((rows.foldl State.settle s).lake k).steps } := by
  induction rows generalizing s with
  | nil => rfl
  | cons row rows ih => rw [List.foldl_cons, ih, State.settle_lake]

theorem State.settleAll_slate (s : State) (rows : List Nat) (r : Nat) : (rows.foldl State.settle s).slate r = s.slate r := by
  induction rows generalizing s with
  | nil => rfl
  | cons row rows ih => rw [List.foldl_cons, ih, State.settle_slate]

theorem State.settleAll_stepSlate (s : State) (rows : List Nat) (r : Nat) :
    stepSlate ((rows.foldl State.settle s).lake (lakeOf r)).steps r = if r ∈ rows then none else stepSlate (s.lake (lakeOf r)).steps r := by
  induction rows generalizing s with
  | nil => rfl
  | cons row rows ih =>
    rw [List.foldl_cons, ih, State.settle_stepSlate]
    by_cases e : r = row <;> simp [e]

/-- The range steps that a lake has taken, applied to the tag bits of their rows (R222). -/
def State.applySteps (s : State) (n : Nat) : State := (((s.lake n).steps.map fun st => st.sets.map (·.1)).flatten).foldl State.settle s

theorem State.applySteps_canonical {s : State} (hc : s.canonical = true) (n : Nat) : (s.applySteps n).canonical = true :=
  (Steady.foldl State.settle (fun _ x hs => State.settle_steady hs x) _ s (.refl s)).tables hc

/-- No range step on a row of the lake is left. -/
theorem State.applySteps_stepSlate (s : State) (r : Nat) : stepSlate ((s.applySteps (lakeOf r)).lake (lakeOf r)).steps r = none := by
  rw [State.applySteps, State.settleAll_stepSlate]
  split
  · rfl
  · next h => exact stepSlate_eq_none h

/-- A row still RESERVED becomes STALE. -/
def RowTag.staled (t : RowTag) : RowTag := if t.slate = .reserved then { t with slate := .stale } else t

theorem RowTag.staled_slate (t : RowTag) : t.staled.slate = if t.slate = .reserved then .stale else t.slate := by
  rw [RowTag.staled]
  split <;> rfl

theorem State.staleRows_eq (s : State) (n : Nat) : s.staleRows n = { s.applySteps n with
    rows := mapTab (fun _ => RowTag.reset) (fun r t => if lakeOf r = n then t.staled else t) (s.applySteps n).rows } := by
  have f : (fun (r : Nat) (t : RowTag) => if lakeOf r = n && t.slate = .reserved then { t with slate := .stale } else t) =
      fun r t => if lakeOf r = n then t.staled else t := by
    funext r t
    by_cases h : lakeOf r = n <;> simp [h, RowTag.staled]
  rw [State.staleRows, f]
  rfl

theorem State.staleRows_frame (s : State) (n : Nat) : ∃ tags lakes, s.staleRows n = { s with rows := tags, lakes := lakes } := by
  obtain ⟨t, l, h⟩ := s.settleAll_frame (((s.lake n).steps.map fun st => st.sets.map (·.1)).flatten)
  exact ⟨_, l, by rw [State.staleRows_eq, State.applySteps, h]⟩

theorem State.staleRows_lake (s : State) (n k : Nat) : (s.staleRows n).lake k = (s.applySteps n).lake k := by
  rw [State.staleRows_eq]
  rfl

theorem State.staleRows_tag {s : State} (hc : s.canonical = true) (n r : Nat) :
    (s.staleRows n).tag r = if lakeOf r = n then ((s.applySteps n).tag r).staled else (s.applySteps n).tag r := by
  have wf := State.canonical_iff.1 (State.applySteps_canonical hc n)
  rw [State.staleRows_eq]
  exact Tab.get_mapTab (f := fun r t => if lakeOf r = n then t.staled else t) (Tab.wf_iff.1 wf.rows).1 (by split <;> rfl)

/-- A RESERVED row of the lake is STALE, every other row keeps its slate. -/
theorem State.staleRows_slate {s : State} (hc : s.canonical = true) (n r : Nat) :
    (s.staleRows n).slate r = if lakeOf r = n ∧ s.slate r = .reserved then .stale else s.slate r := by
  rw [← s.settleAll_slate _ r, ← State.applySteps.eq_1 s n, State.slate, State.slate, State.staleRows_lake, State.staleRows_tag hc]
  by_cases h : lakeOf r = n
  · subst h
    rw [State.applySteps_stepSlate, if_pos rfl]
    simp [RowTag.staled_slate]
  · simp [h]

/-! ### The windows (R289) -/

/-- A window on a lake in reset. -/
def Win.reclosed (x : Win) : Win := { x with state := .closed, closers := [], cause := 2 }

/-- A window is CLOSED by the reset of its lake, and its CLOSEs are answered. -/
def State.reclose (s : State) (w : Nat) : State := (s.winDone w .absent).modWin w fun x => { x with cause := 2 }

theorem State.replyAll_frame (s : State) (cs : List Src) (st : Status) : ∃ os, cs.foldl (fun s c => s.reply c st) s = { s with out := os } := by
  induction cs generalizing s with
  | nil => exact ⟨s.out, rfl⟩
  | cons c cs ih =>
    obtain ⟨os, h⟩ := ih (s.reply c st)
    exact ⟨os, by rw [List.foldl_cons, h]; rfl⟩

theorem State.winDone_frame (s : State) (w : Nat) (st : Status) :
    ∃ os, s.winDone w st = { s.modWin w fun x => { x with state := .closed, closers := [] } with out := os } :=
  State.replyAll_frame _ _ _

theorem State.reclose_frame (s : State) (w : Nat) : ∃ ws os, s.reclose w = { s with wins := ws, out := os } := by
  obtain ⟨os, h⟩ := s.winDone_frame w .absent
  exact ⟨_, os, by rw [State.reclose, h]; rfl⟩

theorem State.reclose_win (s : State) (w v : Nat) : (s.reclose w).win v = if v = w then (s.win v).reclosed else s.win v := by
  obtain ⟨os, h⟩ := s.winDone_frame w .absent
  have done (v : Nat) : (s.winDone w .absent).win v = (s.modWin w fun x => { x with state := .closed, closers := [] }).win v := by rw [h]; rfl
  rw [State.reclose]
  split
  · next e => rw [e, State.modWin_win_same, done, State.modWin_win_same]; rfl
  · next e => rw [State.modWin_win_other _ _ _ _ e, done, State.modWin_win_other _ _ _ _ e]

theorem State.recloseAll_frame (s : State) (l : List (Nat × Win)) :
    ∃ ws os, l.foldl (fun s e => s.reclose e.1) s = { s with wins := ws, out := os } := by
  induction l generalizing s with
  | nil => exact ⟨s.wins, s.out, rfl⟩
  | cons e l ih =>
    obtain ⟨_, _, h⟩ := s.reclose_frame e.1
    obtain ⟨ws, os, h'⟩ := ih (s.reclose e.1)
    exact ⟨ws, os, by rw [List.foldl_cons, h', h]⟩

theorem State.recloseAll_win (s : State) (l : List (Nat × Win)) (w : Nat) :
    (l.foldl (fun s e => s.reclose e.1) s).win w = if w ∈ l.map (·.1) then (s.win w).reclosed else s.win w := by
  induction l generalizing s with
  | nil => rfl
  | cons e l ih =>
    rw [List.foldl_cons, ih, State.reclose_win, List.map_cons]
    by_cases h : w = e.1
    · rw [if_pos h, if_pos (List.mem_cons.2 (.inl h))]
      split <;> rfl
    · simp only [h, if_false, List.mem_cons, false_or]

theorem State.closeForReset_frame (s : State) (n : Nat) : ∃ ws os, s.closeForReset n = { s with wins := ws, out := os } :=
  s.recloseAll_frame _

/-- Every OPEN or CLOSING window of the lake is CLOSED, every other is left alone. -/
theorem State.closeForReset_win {s : State} (hw : Tab.wf (fun _ => Win.reset) s.wins = true) (n w : Nat) :
    (s.closeForReset n).win w = if (s.win w).lake.toNat = n ∧ (s.win w).active = true then (s.win w).reclosed else s.win w := by
  have listed : w ∈ (s.wins.filter fun e => e.2.lake.toNat = n && e.2.active).map (·.1) ↔ (s.win w).lake.toNat = n ∧ (s.win w).active = true := by
    simp only [List.mem_map, List.mem_filter, Bool.and_eq_true, decide_eq_true_eq]
    constructor
    · rintro ⟨e, ⟨he, h⟩, rfl⟩
      rwa [State.win, ((Tab.mem_iff_get hw e).1 he).1]
    · intro h
      refine ⟨(w, s.win w), ⟨Tab.mem_of_get_ne fun e => ?_, h⟩, rfl⟩
      have := h.2
      rw [State.win, e] at this
      exact Bool.noConfusion this
  refine (s.recloseAll_win _ w).trans ?_
  simp only [listed]

/-! ### The arrival queue (R91, R120) -/

theorem State.voidContext_frame (s : State) (n : Nat) : ∃ cs busy st,
    s.voidContext n = { s with ctxs := cs, tm := { s.tm with ctxBusy := busy, ctxStatus := st } } := by
  rw [State.voidContext]
  dsimp only
  split <;> split
  · exact ⟨s.ctxs, s.tm.ctxBusy, s.tm.ctxStatus, rfl⟩
  · exact ⟨_, _, _, rfl⟩
  · exact ⟨s.ctxs, s.tm.ctxBusy, s.tm.ctxStatus, rfl⟩
  · exact ⟨s.ctxs, _, _, rfl⟩

/-- From `s` to `t` packets have gone from the stops to the rings or outputs; what waits in the arrival queues stays. -/
structure Sent (s t : State) : Prop where
  frame : ∃ stops ring cnt out, t = { s with stops := stops, ring := ring, cnt := cnt, out := out }
  queue : ∀ p, (t.stop p).queue = (s.stop p).queue
  refused : ∀ p, (t.stop p).refused = (s.stop p).refused

theorem Sent.refl (s : State) : Sent s s := ⟨⟨s.stops, s.ring, s.cnt, s.out, rfl⟩, fun _ => rfl, fun _ => rfl⟩

theorem Sent.trans {a b c : State} (h : Sent a b) (k : Sent b c) : Sent a c := by
  obtain ⟨⟨_, _, _, _, rfl⟩, hq, hr⟩ := h
  obtain ⟨⟨s, r, c, o, rfl⟩, kq, kr⟩ := k
  exact ⟨⟨s, r, c, o, rfl⟩, fun p => (kq p).trans (hq p), fun p => (kr p).trans (hr p)⟩

theorem State.modStop_sent (s : State) (p : Nat) {f : Stop → Stop} (hq : ∀ x, (f x).queue = x.queue) (hr : ∀ x, (f x).refused = x.refused) :
    Sent s (s.modStop p f) := by
  refine ⟨⟨_, s.ring, s.cnt, s.out, rfl⟩, fun m => ?_, fun m => ?_⟩ <;> by_cases e : m = p
  · rw [e, State.modStop_stop_same, hq]
  · rw [State.modStop_stop_other _ _ _ _ e]
  · rw [e, State.modStop_stop_same, hr]
  · rw [State.modStop_stop_other _ _ _ _ e]

theorem Sent.ring {s t : State} (h : Sent s t) (r : List Transit) : Sent s { t with ring := r } :=
  h.trans ⟨⟨t.stops, r, t.cnt, t.out, rfl⟩, fun _ => rfl, fun _ => rfl⟩

theorem State.count_sent (s : State) (o : Occ) : Sent s (s.count o) := by
  rw [State.count]
  split
  · exact .refl s
  · exact ⟨⟨s.stops, s.ring, _, s.out, rfl⟩, fun _ => rfl, fun _ => rfl⟩

theorem Stop.setOut_queue (x : Stop) (ccw : Bool) (l : List Transit) : (x.setOut ccw l).queue = x.queue := by cases ccw <;> rfl
theorem Stop.setOut_refused (x : Stop) (ccw : Bool) (l : List Transit) : (x.setOut ccw l).refused = x.refused := by cases ccw <;> rfl
theorem Stop.setStarving_queue (x : Stop) (ccw b : Bool) : (x.setStarving ccw b).queue = x.queue := by cases ccw <;> rfl
theorem Stop.setStarving_refused (x : Stop) (ccw b : Bool) : (x.setStarving ccw b).refused = x.refused := by cases ccw <;> rfl

theorem State.enterRing_sent (s : State) (k : Packet) (iss : Int) (ccw : Bool) (t : Nat) : Sent s (s.enterRing k iss ccw t) := by
  unfold State.enterRing
  refine Sent.trans (Sent.ring (State.modStop_sent _ _ (fun x => ?_) fun x => ?_) _) (State.count_sent _ _) <;> dsimp only <;> split
  · exact x.setStarving_queue ccw false
  · exact (Stop.setOut_queue _ _ _).trans (x.setStarving_queue ccw false)
  · exact x.setStarving_refused ccw false
  · exact (Stop.setOut_refused _ _ _).trans (x.setStarving_refused ccw false)

theorem State.launch_sent (s : State) (k : Packet) (t : Nat) : Sent s (s.launch k t) := by
  unfold State.launch
  extract_lets ccw
  split
  split
  · exact s.enterRing_sent _ _ _ _
  · split
    · exact .refl s
    · exact s.modStop_sent _ (fun _ => rfl) fun _ => rfl

theorem State.sendResponse_sent (s : State) (k : Packet) (st : Status) (b : Nat) : Sent s (s.sendResponse k st b) := by
  unfold State.sendResponse
  extract_lets r
  split
  · exact s.launch_sent _ _
  · split
    · exact s.modStop_sent _ (fun _ => rfl) fun _ => rfl
    · exact ⟨⟨s.stops, s.ring, s.cnt, _, rfl⟩, fun _ => rfl, fun _ => rfl⟩

/-- The requests of an arrival queue are answered. -/
theorem State.respondAll_sent (s : State) (p : Nat) (q : List QEntry) :
    Sent s (q.foldl (fun s e => s.sendResponse (e.packet p) .absent 0) s) := by
  induction q generalizing s with
  | nil => exact .refl s
  | cons e q ih => exact (s.sendResponse_sent _ _ _).trans (ih _)

theorem State.emptyQueue_frame (s : State) (p : Nat) :
    ∃ stops ring cnt out, s.emptyQueue p = { s with stops := stops, ring := ring, cnt := cnt, out := out } := by
  obtain ⟨st, r, c, o, h⟩ := ((s.modStop p fun x => { x with queue := [], refused := [] }).respondAll_sent p (s.stop p).queue).frame
  exact ⟨st, r, c, o, by rw [State.emptyQueue, h]; rfl⟩

theorem State.emptyQueue_stop (s : State) (p : Nat) : ((s.emptyQueue p).stop p).queue = [] ∧ ((s.emptyQueue p).stop p).refused = [] := by
  have sent := (s.modStop p fun x => { x with queue := [], refused := [] }).respondAll_sent p (s.stop p).queue
  exact ⟨(sent.queue p).trans (by rw [State.modStop_stop_same]), (sent.refused p).trans (by rw [State.modStop_stop_same])⟩

/-- Where nothing has arrived, nothing is counted. -/
theorem State.emptyQueue_cnt {s : State} {p : Nat} (h : (s.stop p).queue = []) : (s.emptyQueue p).cnt = s.cnt := by
  rw [State.emptyQueue, h]
  rfl

/-! ### The reset of a lake where nothing waits (R359, R360) -/

/-- What the reset of a lake does before its tables are cleared, where nothing waits there. -/
def State.resetPoint (s : State) (n : Nat) : State :=
  (((s.staleRows n).closeForReset n).voidContext n).emptyQueue (Config.lakePos n)

/-- What the reset of a lake leaves of its tables. -/
def State.resetTables (s : State) (n : Nat) : State :=
  let s := (s.modLake n fun l => { l.afterReset with inReset := true }).modSpring n Spring.afterReset
  { s with
    reels := mapTab (fun _ => Reel.reset) (fun _ r => if r.base.toNat / Config.rowsPerLake = n then { r with enable := false } else r) s.reels
    ctxs := Tab.eraseRange s.ctxs (80 + 8 * n) (88 + 8 * n)
    arbs := Tab.eraseRange s.arbs (16 * n) (16 * n + 16)
    backoff := s.backoff.filter fun e => match e.1.1 with
      | .waiters m => m.val != n
      | .arrival p => p.val != Config.lakePos n
    basin := s.basin.forget n
    inPond := s.inPond.filter (·.1 / 4 != n)
    inbox := s.inbox.filter (·.n != n)
    tm := { s.tm with lrWait := false, lrDue := s.pw.now + 529 } }

theorem State.resetLake_stages (s : State) (n : Nat) : s.resetLake n = (((s.dropLake n).resetPoint n).resetTables n).takeUp := by
  unfold State.resetLake State.resetPoint State.resetTables
  rfl

section
variable (s : State) (n : Nat)

/-- After its rows are STALE, the reset of a lake changes windows, context slots, stops and what is driven or counted. -/
theorem State.resetPoint_frame : ∃ wins ctxs busy st stops ring cnt out, s.resetPoint n =
    { s.staleRows n with wins := wins, ctxs := ctxs, tm := { (s.staleRows n).tm with ctxBusy := busy, ctxStatus := st }
                         stops := stops, ring := ring, cnt := cnt, out := out } := by
  obtain ⟨wins, _, h2⟩ := (s.staleRows n).closeForReset_frame n
  obtain ⟨ctxs, busy, st, h3⟩ := ((s.staleRows n).closeForReset n).voidContext_frame n
  obtain ⟨stops, ring, cnt, out, h4⟩ := (((s.staleRows n).closeForReset n).voidContext n).emptyQueue_frame (Config.lakePos n)
  exact ⟨wins, ctxs, busy, st, stops, ring, cnt, out, by rw [State.resetPoint, h4, h3, h2]⟩

/-- What the reset point of a lake leaves alone. -/
theorem State.resetPoint_keeps : (s.resetPoint n).variant = s.variant ∧ (s.resetPoint n).mem = s.mem ∧ (s.resetPoint n).lpow = s.lpow ∧
    (s.resetPoint n).springs = s.springs ∧ (s.resetPoint n).reels = s.reels ∧ (s.resetPoint n).arbs = s.arbs ∧
    (s.resetPoint n).basin = s.basin ∧ (s.resetPoint n).cues = s.cues ∧ (s.resetPoint n).pw = s.pw ∧ (s.resetPoint n).err = s.err ∧
    (s.resetPoint n).tm.lrBusy = s.tm.lrBusy ∧ (s.resetPoint n).tm.lrTarget = s.tm.lrTarget := by
  obtain ⟨_, _, h1⟩ := s.staleRows_frame n
  obtain ⟨_, _, _, _, _, _, _, _, h2⟩ := s.resetPoint_frame n
  rw [h2, h1]
  exact ⟨rfl, rfl, rfl, rfl, rfl, rfl, rfl, rfl, rfl, rfl, rfl, rfl⟩

theorem State.resetPoint_lake (k : Nat) : (s.resetPoint n).lake k = { s.lake k with steps := ((s.resetPoint n).lake k).steps } := by
  obtain ⟨_, _, _, _, _, _, _, _, h⟩ := s.resetPoint_frame n
  have lake : (s.resetPoint n).lake k = (s.applySteps n).lake k := by rw [← State.staleRows_lake, h]; rfl
  rw [lake]
  exact s.settleAll_lake _ k

theorem State.resetPoint_slate_eq (r : Nat) : (s.resetPoint n).slate r = (s.staleRows n).slate r := by
  obtain ⟨_, _, _, _, _, _, _, _, h⟩ := s.resetPoint_frame n
  rw [h]
  rfl

theorem State.resetPoint_stepSlate (r : Nat) : stepSlate ((s.resetPoint (lakeOf r)).lake (lakeOf r)).steps r = none := by
  obtain ⟨_, _, _, _, _, _, _, _, h⟩ := s.resetPoint_frame (lakeOf r)
  rw [h]
  exact (congrArg (fun l => stepSlate l.steps r) (s.staleRows_lake (lakeOf r) (lakeOf r))).trans (s.applySteps_stepSlate r)

theorem State.resetPoint_win (hw : Tab.wf (fun _ => Win.reset) s.wins = true) (w : Nat) : (s.resetPoint n).win w =
    if (s.win w).lake.toNat = n ∧ (s.win w).active = true then (s.win w).reclosed else s.win w := by
  obtain ⟨_, _, h1⟩ := s.staleRows_frame n
  obtain ⟨_, _, _, h3⟩ := ((s.staleRows n).closeForReset n).voidContext_frame n
  obtain ⟨_, _, _, _, h4⟩ := (((s.staleRows n).closeForReset n).voidContext n).emptyQueue_frame (Config.lakePos n)
  have closed : (s.resetPoint n).win w = ((s.staleRows n).closeForReset n).win w := by rw [State.resetPoint, h4, h3]; rfl
  have wins : (s.staleRows n).wins = s.wins := by rw [h1]
  have win : (s.staleRows n).win w = s.win w := by rw [State.win, wins]; rfl
  rw [closed, State.closeForReset_win (wins ▸ hw), win]

theorem State.resetPoint_stop :
    ((s.resetPoint n).stop (Config.lakePos n)).queue = [] ∧ ((s.resetPoint n).stop (Config.lakePos n)).refused = [] :=
  State.emptyQueue_stop _ _

theorem State.resetPoint_cnt (h : (s.stop (Config.lakePos n)).queue = []) : (s.resetPoint n).cnt = s.cnt := by
  obtain ⟨_, _, h1⟩ := s.staleRows_frame n
  obtain ⟨_, _, h2⟩ := (s.staleRows n).closeForReset_frame n
  obtain ⟨_, _, _, h3⟩ := ((s.staleRows n).closeForReset n).voidContext_frame n
  rw [State.resetPoint, State.emptyQueue_cnt, h3, h2, h1]
  rw [h3, h2, h1]
  exact h

/-! The tables of a lake in reset. -/

theorem State.resetTables_lake_same : (s.resetTables n).lake n = { (s.lake n).afterReset with inReset := true } :=
  State.modLake_lake_same s n fun l => { l.afterReset with inReset := true }

theorem State.resetTables_lake_other {k : Nat} (h : k ≠ n) : (s.resetTables n).lake k = s.lake k :=
  State.modLake_lake_other s n (fun l => { l.afterReset with inReset := true }) k h

theorem State.resetTables_spring_same : (s.resetTables n).spring n = (s.spring n).afterReset := State.modSpring_spring_same _ _ _

theorem State.resetTables_spring_other {k : Nat} (h : k ≠ n) : (s.resetTables n).spring k = s.spring k :=
  State.modSpring_spring_other _ _ _ _ h

theorem State.resetTables_springs_wf (hw : Tab.wf (fun _ => Spring.reset) s.springs = true) :
    Tab.wf (fun _ => Spring.reset) (s.resetTables n).springs = true := Tab.wf_set hw _ _

@[simp] theorem State.resetTables_mem : (s.resetTables n).mem = s.mem := rfl
@[simp] theorem State.resetTables_lpow : (s.resetTables n).lpow = s.lpow := rfl
@[simp] theorem State.resetTables_cues : (s.resetTables n).cues = s.cues := rfl
@[simp] theorem State.resetTables_pw : (s.resetTables n).pw = s.pw := rfl
@[simp] theorem State.resetTables_err : (s.resetTables n).err = s.err := rfl
@[simp] theorem State.resetTables_cnt : (s.resetTables n).cnt = s.cnt := rfl
@[simp] theorem State.resetTables_basin : (s.resetTables n).basin = s.basin.forget n := rfl
@[simp] theorem State.resetTables_tm : (s.resetTables n).tm = { s.tm with lrWait := false, lrDue := s.pw.now + 529 } := rfl
@[simp] theorem State.resetTables_win (w : Nat) : (s.resetTables n).win w = s.win w := rfl
@[simp] theorem State.resetTables_stop (p : Nat) : (s.resetTables n).stop p = s.stop p := rfl
@[simp] theorem State.resetTables_cue (k : Nat) : (s.resetTables n).cue k = s.cue k := rfl

theorem State.resetTables_reel (hw : Tab.wf (fun _ => Reel.reset) s.reels = true) (e : Nat) : (s.resetTables n).reel e =
    if (s.reel e).base.toNat / Config.rowsPerLake = n then { s.reel e with enable := false } else s.reel e :=
  Tab.get_mapTab (d := fun _ => Reel.reset)
    (f := fun _ r => if r.base.toNat / Config.rowsPerLake = n then { r with enable := false } else r) (Tab.wf_iff.1 hw).1 (by split <;> rfl)

theorem State.resetTables_arb (k : Nat) :
    (s.resetTables n).arb k = if 16 * n ≤ k ∧ k < 16 * n + 16 then Arb.reset (arbHigh k) else s.arb k := Tab.get_eraseRange _ _ _ _

/-- The clearing of a lake's tables keeps the slate of every row without a range step of that lake. -/
theorem State.resetTables_slate {r : Nat} (h : lakeOf r = n → stepSlate (s.lake n).steps r = none) :
    (s.resetTables n).slate r = s.slate r := by
  have tag : (s.resetTables n).tag r = s.tag r := rfl
  rw [State.slate, State.slate, tag]
  by_cases hr : lakeOf r = n
  · rw [hr, State.resetTables_lake_same, h hr]; rfl
  · rw [State.resetTables_lake_other _ _ hr]

end

section
variable {s : State} {n : Nat}

/-- Nothing waits for the end of a lake's reset point, where nothing waited before it. -/
theorem State.takeUp_resetTables (hs : s.still) (waiters : (s.lake n).waiters = []) :
    ((s.resetPoint n).resetTables n).takeUp = (s.resetPoint n).resetTables n := by
  obtain ⟨canonical, cueWaits, springs⟩ := hs
  obtain ⟨hvariant, -, -, hsprings, -, -, -, hcues, -⟩ := s.resetPoint_keeps n
  have spring (k : Nat) : (((s.resetPoint n).resetTables n).spring k).descs = [] ∨ ((s.resetPoint n).resetTables n).spring k = s.spring k := by
    by_cases hk : k = n
    · subst hk; rw [State.resetTables_spring_same]; exact .inl rfl
    · rw [State.resetTables_spring_other _ _ hk, State.spring, hsprings]; exact .inr rfl
  have lake (k : Nat) : (((s.resetPoint n).resetTables n).lake k).waiters = (s.lake k).waiters := by
    by_cases hk : k = n
    · subst hk; rw [State.resetTables_lake_same, waiters]; rfl
    · rw [State.resetTables_lake_other _ _ hk, State.resetPoint_lake]
  have home (k : Nat) : ((s.resetPoint n).resetTables n).homeOf k = s.homeOf k := by
    rw [State.homeOf, State.homeOf, State.resetTables_cue, State.cue, State.cue, hvariant, hcues]
  refine State.takeUp_eq_self (State.resetTables_springs_wf _ _ ?_) (fun k => ?_) (fun k => ?_) fun k => ?_
  · rw [hsprings]
    exact (State.canonical_iff.1 canonical).springs
  · obtain ⟨entries, descs⟩ := heldWaits_eq_nil_iff.1 (cueWaits k)
    refine heldWaits_eq_nil_iff.2 ⟨by rw [home, lake]; exact entries, fun m hm => ?_⟩
    rcases spring m with h | h
    · rw [h, List.filter_nil]
    · rw [h]; exact descs m hm
  · rcases spring k with h | h
    · rw [State.allIssued, h, List.all_nil]
    · rw [State.allIssued, h]; exact (springs k).1
  · rcases spring k with h | h
    · rw [State.noneOrdered, h, List.all_nil]
    · rw [State.noneOrdered, h]; exact (springs k).2.1

/-- Nothing waits in the block or is held at a lake, and the lake has no row to write back or to mark. -/
structure State.StillAt (s : State) (n : Nat) : Prop where
  still : s.still
  held : (s.lp n).held = []
  waiters : (s.lake n).waiters = []
  wbs : (s.lake n).wbs = []
  marks : (s.lake n).marks = []

variable (h : s.StillAt n)
include h

theorem State.resetLake_eq : s.resetLake n = (s.resetPoint n).resetTables n := by
  rw [State.resetLake_stages, State.dropLake_eq_self h.still.1 h.held h.waiters h.wbs h.marks, State.takeUp_resetTables h.still h.waiters]

theorem State.resetLake_tm : (s.resetLake n).tm.lrWait = false ∧ (s.resetLake n).tm.lrDue = s.pw.now + 529 ∧
    (s.resetLake n).tm.lrBusy = s.tm.lrBusy ∧ (s.resetLake n).tm.lrTarget = s.tm.lrTarget := by
  obtain ⟨-, -, -, -, -, -, -, -, pw, -, lrBusy, lrTarget⟩ := s.resetPoint_keeps n
  rw [State.resetLake_eq h]
  simp only [State.resetTables_tm, pw, lrBusy, lrTarget, and_self]

/-- A reset of a lake moves no byte and no time, and leaves the power of the lakes, the cues and the error log alone. -/
theorem State.resetLake_keeps : (s.resetLake n).mem = s.mem ∧ (s.resetLake n).lpow = s.lpow ∧ (s.resetLake n).cues = s.cues ∧
    (s.resetLake n).pw = s.pw ∧ (s.resetLake n).err = s.err := by
  obtain ⟨-, mem, lpow, -, -, -, -, cues, pw, err, -, -⟩ := s.resetPoint_keeps n
  rw [State.resetLake_eq h]
  simp only [State.resetTables_mem, State.resetTables_lpow, State.resetTables_cues, State.resetTables_pw, State.resetTables_err, mem, lpow,
    cues, pw, err, and_self]

theorem State.resetLake_lake_same : (s.resetLake n).lake n = { (s.lake n).afterReset with inReset := true } := by
  rw [State.resetLake_eq h, State.resetTables_lake_same, State.resetPoint_lake]
  rfl

theorem State.resetLake_lake_other {k : Nat} (hk : k ≠ n) :
    (s.resetLake n).lake k = { s.lake k with steps := ((s.resetLake n).lake k).steps } := by
  rw [State.resetLake_eq h, State.resetTables_lake_other _ _ hk, ← State.resetPoint_lake]

theorem State.resetLake_spring (k : Nat) : (s.resetLake n).spring k = if k = n then (s.spring k).afterReset else s.spring k := by
  obtain ⟨-, -, -, springs, -⟩ := s.resetPoint_keeps n
  have before : (s.resetPoint n).spring k = s.spring k := by rw [State.spring, springs]; rfl
  rw [State.resetLake_eq h, ← before]
  split
  · next e => subst e; rw [State.resetTables_spring_same]
  · next e => rw [State.resetTables_spring_other _ _ e]

theorem State.resetLake_slate (r : Nat) :
    (s.resetLake n).slate r = if lakeOf r = n ∧ s.slate r = .reserved then .stale else s.slate r := by
  rw [State.resetLake_eq h, State.resetTables_slate, State.resetPoint_slate_eq, State.staleRows_slate h.still.1]
  rintro rfl
  exact s.resetPoint_stepSlate r

theorem State.resetLake_win (w : Nat) : (s.resetLake n).win w =
    if (s.win w).lake.toNat = n ∧ (s.win w).active = true then (s.win w).reclosed else s.win w := by
  rw [State.resetLake_eq h, State.resetTables_win]
  exact s.resetPoint_win n (State.canonical_iff.1 h.still.1).wins w

theorem State.resetLake_reel (e : Nat) : (s.resetLake n).reel e =
    if (s.reel e).base.toNat / Config.rowsPerLake = n then { s.reel e with enable := false } else s.reel e := by
  obtain ⟨-, -, -, -, reels, -⟩ := s.resetPoint_keeps n
  have before : (s.resetPoint n).reel e = s.reel e := by rw [State.reel, reels]; rfl
  rw [State.resetLake_eq h, State.resetTables_reel _ _ (reels ▸ (State.canonical_iff.1 h.still.1).reels), before]

/-- The 16 arbiters of the lake are reset, every other is left alone (R91). -/
theorem State.resetLake_arb (k : Nat) :
    (s.resetLake n).arb k = if 16 * n ≤ k ∧ k < 16 * n + 16 then Arb.reset (arbHigh k) else s.arb k := by
  obtain ⟨-, -, -, -, -, arbs, -⟩ := s.resetPoint_keeps n
  have before : (s.resetPoint n).arb k = s.arb k := by rw [State.arb, arbs]; rfl
  rw [State.resetLake_eq h, State.resetTables_arb, before]

theorem State.resetLake_basin : (s.resetLake n).basin = s.basin.forget n := by
  obtain ⟨-, -, -, -, -, -, basin, -⟩ := s.resetPoint_keeps n
  rw [State.resetLake_eq h, State.resetTables_basin, basin]

theorem State.resetLake_stop :
    ((s.resetLake n).stop (Config.lakePos n)).queue = [] ∧ ((s.resetLake n).stop (Config.lakePos n)).refused = [] := by
  rw [State.resetLake_eq h, State.resetTables_stop]
  exact s.resetPoint_stop n

theorem State.resetLake_cnt (empty : (s.stop (Config.lakePos n)).queue = []) : (s.resetLake n).cnt = s.cnt := by
  rw [State.resetLake_eq h, State.resetTables_cnt, s.resetPoint_cnt n empty]

end

/-! ### The write of `TM_LAKE_RESET` and the end of the reset (R356, R359, R360) -/

section
variable {s : State} {src : Src} (open_ : s.opens src 0x40 4 = true) {v : BitVec 32}
include open_

/-- A write of 4 bytes that reaches `TM_LAKE_RESET`. -/
theorem exec_lakeReset (v : BitVec 32) :
    exec (.lakeReset src v) s = .next (lakeResetSet (s.ctl src 0x40) (v.setWidth 64) s) := ctlCommand_4 open_ rfl v

theorem exec_lakeReset_absent (absent : Config.lakePresent s.variant (bits v 0 5) = false) :
    exec (.lakeReset src v) s = .next (s.reply src .absent) := by
  rw [exec_lakeReset open_, lakeResetSet]
  simp only [bits_setWidth_64, absent, Bool.not_false, if_true]
  rfl

variable (present : Config.lakePresent s.variant (bits v 0 5) = true)
include present

theorem exec_lakeReset_unprivileged (priv : s.privileged src = false) : exec (.lakeReset src v) s = .next (s.reply src .nackOwner) := by
  have hp : (s.ctl src 0x40).w.priv = false := priv
  rw [exec_lakeReset open_, lakeResetSet]
  simp only [bits_setWidth_64, present, Bool.not_true, Bool.false_eq_true, if_false, State.privOnly, hp]
  rfl

/-- What rejects a per-lake reset, in the order of the conditions (R359). -/
def lakeResetFails (s : State) (n : Nat) : List Bool :=
  [s.tm.lrBusy, s.failedLake n, (s.lp n).state = .ret || (s.lp n).state = .off || (s.lp n).state = .draining || (s.lp n).state = .entering,
    (s.mte n).busy, (s.lake n).convBusy]

/-- The registers of a per-lake reset that has begun, or waits for its lake's wake. -/
def State.beginReset (s : State) (n : Nat) : State :=
  { s with tm := { s.tm with lrLake := BitVec.ofNat 5 n, lrTarget := n, lrBusy := true, lrWait := (s.lp n).state = LkState.waking } }

variable (priv : s.privileged src = true)
include priv

theorem exec_lakeReset_rejected {k : Nat} (fails : firstOf (lakeResetFails s (bits v 0 5)) = k + 1) :
    exec (.lakeReset src v) s = .next (s.rejected src 0x40 (k + 1)) := by
  have hp : (s.ctl src 0x40).w.priv = true := priv
  rw [lakeResetFails] at fails
  rw [exec_lakeReset open_, lakeResetSet]
  simp only [bits_setWidth_64, present, Bool.not_true, Bool.false_eq_true, if_false, State.privOnly, hp, if_true, State.unless, fails]
  rfl

theorem exec_lakeReset_begins (fails : firstOf (lakeResetFails s (bits v 0 5)) = 0) : exec (.lakeReset src v) s =
    .next ((if (s.lp (bits v 0 5)).state = LkState.waking then s.beginReset (bits v 0 5)
      else (s.beginReset (bits v 0 5)).resetLake (bits v 0 5)).reply src .ok) := by
  have hp : (s.ctl src 0x40).w.priv = true := priv
  rw [lakeResetFails] at fails
  rw [exec_lakeReset open_, lakeResetSet]
  simp only [bits_setWidth_64, present, Bool.not_true, Bool.false_eq_true, if_false, State.privOnly, hp, if_true, State.unless, fails]
  rfl

end

/-- The end of a reset that has reached its reset point: the lake is ON (R360). -/
theorem exec_lakeResetDone {s : State} (busy : s.tm.lrBusy = true) (begun : s.tm.lrWait = false) : exec .lakeResetDone s = .next
    { ((s.reach s.tm.lrDue).modLake s.tm.lrTarget fun l => { l with inReset := false, idleFrom := (s.reach s.tm.lrDue).pw.now }).modLp
        s.tm.lrTarget fun x => { x with state := .on, waking := false } with
      tm := { (s.reach s.tm.lrDue).tm with lrBusy := false, lrDone := true } } := by
  show execLakeResetDone s = _
  rw [execLakeResetDone, busy, begun]
  rfl

theorem exec_lakeResetDone_none {s : State} (none_ends : s.tm.lrBusy = false ∨ s.tm.lrWait = true) : exec .lakeResetDone s = .next s := by
  show execLakeResetDone s = _
  rw [execLakeResetDone, if_pos]
  rcases none_ends with h | h <;> simp [h]

/-! ### The arbiters that the statement names (O52)

In O52 the arbiter number `k` of `16 * n ≤ k → k < 16 * n + 16 → …` takes the type of `n`, so that the products are taken modulo 24: for
lake 3 they say 0 to 15, which are lake 0's. The reset of lake 3 leaves lake 0's arbiters alone (`State.resetLake_arb`, R91). -/

/-- A block after reset, but for lake 0's first arbiter, which holds a grant. -/
def grantHeld : State := { State.reset with arbs := [(0, { Arb.reset (arbHigh 0) with active := true })] }

theorem grantHeld_stillAt : grantHeld.StillAt 3 where
  still := ⟨by decide +kernel, fun _ => rfl, fun _ => ⟨rfl, rfl, fun _ hd => absurd hd List.not_mem_nil⟩⟩
  held := rfl
  waiters := rfl
  wbs := rfl
  marks := rfl

/-- Refutes O52: with its arbiter numbers in `Fin 24` it says that the reset of lake 3 resets the arbiters 0 to 15 of lake 0. Numbered as
naturals they are the lake's own, and `State.resetLake_arb` has the clause; the other clauses hold as they stand, by the lemmas above. -/
theorem not_lakeResetRuns : ¬ Obligations.LakeResetRuns := by
  rintro ⟨-, reset, -⟩
  have quiet := grantHeld_stillAt
  obtain ⟨-, -, -, -, -, -, -, -, -, -, -, arbs, -⟩ := reset grantHeld 3 quiet.still quiet.held quiet.waiters quiet.wbs quiet.marks
  have said : (grantHeld.resetLake 3).arb 0 = Arb.reset (arbHigh 0) := arbs 0 (by decide) (by decide)
  have kept : (grantHeld.resetLake 3).arb 0 = grantHeld.arb 0 := (State.resetLake_arb quiet 0).trans (if_neg (by decide))
  exact absurd (kept.symm.trans said) (by decide)

end Machine
end Sys2Proof
end

section
/-!
PROOF. The block as a whole and the endpoint (O4, O5, O6, O9). Every command but the two of cold reset keeps what `Steady` says of a state and
the next one (`exec_steady`); what the two of cold reset leave is said apart. The invariants of a step follow from these.
-/
namespace Sys2Proof.Machine

-- One theorem after another: elaborated side by side, these theorems would each hold a thread and its stack.
set_option Elab.async false

/-! ### What every command keeps -/

/-- Every command but those of cold reset keeps the canonical form, the endpoint once it is set, and the direction of time. -/
theorem exec_steady (s : State) (c : Instr) (notCold : c ≠ .coldReset) (notRelease : c ≠ .aonRelease) : Keeps s (exec c s) :=
  match c with
  | .read .. => execRead_steady (.refl s) _
  | .write .. => execWrite_steady (.refl s) _ _
  | .peek .. => execPeek_steady (.refl s) _
  | .consume .. => execConsume_steady (.refl s) _
  | .produce .. => execProduce_steady (.refl s) _ _
  | .xread .. => execXread_steady (.refl s) _ _ _
  | .gather .. => execGather_steady (.refl s) _ _
  | .add .. => execAdd_steady (.refl s) _ _ _
  | .addWide .. => execAddWide_steady (.refl s) _ _ _
  | .max .. => execMax_steady (.refl s) _ _ _
  | .min .. => execMin_steady (.refl s) _ _ _
  | .swap .. => execSwap_steady (.refl s) _ _ _ _
  | .cas .. => execCas_steady (.refl s) _ _ _ _
  | .takePeek .. => execTakePeek_steady (.refl s) _
  | .takeWrite .. => execTakeWrite_steady (.refl s) _ _
  | .writeBack .. => execWriteBack_steady (.refl s) _
  | .markWrite .. => execMarkWrite_steady (.refl s) _
  | .scrubDue .. => execScrubDue_steady (.refl s) _
  | .scrubRead .. => execScrubRead_steady (.refl s) _
  | .scrubForced .. => execScrubForced_steady (.refl s) _
  | .scrubConfigWrite .. => execScrubConfigWrite_steady (.refl s) _ _ _
  | .hostReadTlp .. => execHostReadTlp_steady (.refl s) _
  | .hostWriteTlp .. => execHostWriteTlp_steady (.refl s) _ _
  | .hostRetryReissue .. => execHostRetryReissue_steady (.refl s) _
  | .hostPostedRelease => execHostPostedRelease_steady (.refl s)
  | .atomicopFetchadd .. => execAtomicopFetchadd_steady (.refl s) _ _ _
  | .atomicopSwap .. => execAtomicopSwap_steady (.refl s) _ _ _
  | .atomicopCas .. => execAtomicopCas_steady (.refl s) _ _ _ _
  | .arrivalRead .. => execArrivalRead_steady (.refl s) _ _
  | .arrivalWrite .. => execArrivalWrite_steady (.refl s) _ _ _
  | .epIdWrite .. => execEpIdWrite_steady (.refl s) _ _
  | .registerWrite .. => execRegisterWrite_steady (.refl s) _ _ _ _
  | .shoreCfgWrite .. => execShoreCfgWrite_steady (.refl s) _ _ _
  | .arbDecision .. => execArbDecision_steady (.refl s) _ _
  | .burstLimit .. => execBurstLimit_steady (.refl s) _
  | .quotaWindowClose .. => execQuotaWindowClose_steady (.refl s) _
  | .arbConfigWrite .. => execArbConfigWrite_steady (.refl s) _ _ _ _
  | .packetInject .. => execPacketInject_steady (.refl s) _
  | .stopStarving .. => execStopStarving_steady (.refl s) _ _
  | .packetEject .. => execPacketEject_steady (.refl s) _ _
  | .responseEject .. => execResponseEject_steady (.refl s) _ _ _ _
  | .stopReissue .. => execStopReissue_steady (.refl s) _ _ _
  | .backoffReset .. => execBackoffReset_steady (.refl s) _ _
  | .qshareWrite .. => execQshareWrite_steady (.refl s) _ _ _
  | .lateRecordInterval .. => execLateRecordInterval_steady (.refl s) _
  | .pcapPeriod .. => execPcapPeriod_steady (.refl s) _
  | .pcapWrite .. => execPcapWrite_steady (.refl s) _ _
  | .handover .. => execHandover_steady (.refl s) _ _ _
  | .ctxSelWrite .. => execCtxSelWrite_steady (.refl s) _ _
  | .liveViewValidWrite .. => execLiveViewValidWrite_steady (.refl s) _ _
  | .contextSave .. => execContextSave_steady (.refl s) _ _
  | .contextSaveComplete => execContextSaveComplete_steady (.refl s)
  | .contextRestore .. => execContextRestore_steady (.refl s) _ _
  | .contextRestoreLoad => execContextRestoreLoad_steady (.refl s)
  | .reelCfgWrite .. => execReelCfgWrite_steady (.refl s) _ _ _
  | .reelBaseWrite .. => execReelBaseWrite_steady (.refl s) _ _ _
  | .reelTailWrite .. => execReelTailWrite_steady (.refl s) _ _ _
  | .reelHeadWrite .. => execReelHeadWrite_steady (.refl s) _ _ _
  | .srSeedWrite .. => execSrSeedWrite_steady (.refl s) _ _ _
  | .sprReelBind .. => execSprReelBind_steady (.refl s) _ _ _
  | .sprReelUnbind .. => execSprReelUnbind_steady (.refl s) _ _
  | .slotRead .. => execSlotRead_steady (.refl s) _
  | .nop .. => execNop_steady (.refl s) _
  | .load .. => execLoad_steady (.refl s) _
  | .store .. => execStore_steady (.refl s) _
  | .pull .. => execPull_steady (.refl s) _
  | .push .. => execPush_steady (.refl s) _
  | .copy .. => execCopy_steady (.refl s) _
  | .fill .. => execFill_steady (.refl s) _
  | .signalCue .. => execSignalCue_steady (.refl s) _
  | .waitCue .. => execWaitCue_steady (.refl s) _
  | .mark .. => execMark_steady (.refl s) _
  | .markRetest .. => execMarkRetest_steady (.refl s) _
  | .stackReadReturn .. => execStackReadReturn_steady (.refl s) _ _ _ _ _
  | .stackWriteAck .. => execStackWriteAck_steady (.refl s) _ _ _ _
  | .descriptorComplete .. => execDescriptorComplete_steady (.refl s) _ _
  | .slotRelease .. => execSlotRelease_steady (.refl s) _
  | .sprCut .. => execSprCut_steady (.refl s) _ _ _
  | .cutComplete .. => execCutComplete_steady (.refl s) _
  | .taskAbort .. => execTaskAbort_steady (.refl s) _ _
  | .taskAbortComplete => execTaskAbortComplete_steady (.refl s)
  | .basinLookup .. => execBasinLookup_steady (.refl s) _ _ _ _
  | .basinFillReturn .. => execBasinFillReturn_steady (.refl s) _ _ _ _
  | .basinInvAll .. => execBasinInvAll_steady (.refl s) _ _
  | .basinInvRange .. => execBasinInvRange_steady (.refl s) _ _
  | .basinInvDone => execBasinInvDone_steady (.refl s)
  | .waiterWake .. => execWaiterWake_steady (.refl s) _
  | .waiterTimeout .. => execWaiterTimeout_steady (.refl s) _ _
  | .rangeStepEnter .. => execRangeStepEnter_steady (.refl s) _
  | .tagSweep .. => execTagSweep_steady (.refl s) _
  | .slateOp .. => execSlateOp_steady (.refl s) _ _ _
  | .slateOpRow .. => execSlateOpRow_steady (.refl s) _
  | .slateOpDone .. => execSlateOpDone_steady (.refl s) _
  | .cueSignal .. => execCueSignal_steady (.refl s) _ _ _
  | .cueSignalSend .. => execCueSignalSend_steady (.refl s) _
  | .cueWait .. => execCueWait_steady (.refl s) _ _ _
  | .cueCountWrite .. => execCueCountWrite_steady (.refl s) _ _ _
  | .cueCfgWrite .. => execCueCfgWrite_steady (.refl s) _ _ _
  | .takeOpen .. => execTakeOpen_steady (.refl s) _ _
  | .takeCommit .. => execTakeCommit_steady (.refl s) _
  | .takeAbort .. => execTakeAbort_steady (.refl s) _ _
  | .takeCommitStep .. => execTakeCommitStep_steady (.refl s) _ _
  | .takeAbortStep .. => execTakeAbortStep_steady (.refl s) _ _
  | .fence .. => execFence_steady (.refl s) _ _
  | .fenceComplete .. => execFenceComplete_steady (.refl s) _
  | .kernelEnd .. => execKernelEnd_steady (.refl s) _ _
  | .kernelBoundaryDone => execKernelBoundaryDone_steady (.refl s)
  | .winOwnerWrite .. => execWinOwnerWrite_steady (.refl s) _ _ _
  | .winConfigWrite .. => execWinConfigWrite_steady (.refl s) _ _ _ _
  | .winOpen .. => execWinOpen_steady (.refl s) _ _
  | .winClose .. => execWinClose_steady (.refl s) _ _
  | .winRelease .. => execWinRelease_steady (.refl s) _ _
  | .winClosed .. => execWinClosed_steady (.refl s) _
  | .preempt .. => execPreempt_steady (.refl s) _ _
  | .preemptDeadline => execPreemptDeadline_steady (.refl s)
  | .protModeChange .. => execProtModeChange_steady (.refl s) _ _ _
  | .conversionDone .. => execConversionDone_steady (.refl s) _
  | .recordEnter => execRecordEnter_steady (.refl s)
  | .corrInterval .. => execCorrInterval_steady (.refl s) _
  | .ibiInterval .. => execIbiInterval_steady (.refl s) _
  | .errTailWrite .. => execErrTailWrite_steady (.refl s) _ _
  | .errStatClear .. => execErrStatClear_steady (.refl s) _ _
  | .eccInjectArm .. => execEccInjectArm_steady (.refl s) _ _ _
  | .monitorUpdate .. => execMonitorUpdate_steady (.refl s) _ _ _ _
  | .levelReqWrite .. => execLevelReqWrite_steady (.refl s) _ _
  | .levelChangeStart => execLevelChangeStart_steady (.refl s)
  | .voltageStep => execVoltageStep_steady (.refl s)
  | .drainComplete => execDrainComplete_steady (.refl s)
  | .dividerSwitchEnd => execDividerSwitchEnd_steady (.refl s)
  | .drainAbandon => execDrainAbandon_steady (.refl s)
  | .lakeStateReq .. => execLakeStateReq_steady (.refl s) _ _ _
  | .lakeDrainComplete .. => execLakeDrainComplete_steady (.refl s) _
  | .lakeEntryEnd .. => execLakeEntryEnd_steady (.refl s) _
  | .autoIdle .. => execAutoIdle_steady (.refl s) _
  | .idleWake .. => execIdleWake_steady (.refl s) _
  | .idleWakeEnd .. => execIdleWakeEnd_steady (.refl s) _
  | .lakeWake .. => execLakeWake_steady (.refl s) _
  | .lakeWakeEnd .. => execLakeWakeEnd_steady (.refl s) _
  | .pwrWakeWrite .. => execPwrWakeWrite_steady (.refl s) _ _
  | .deepEnter .. => execDeepEnter_steady (.refl s) _ _
  | .deepEntryEnd => execDeepEntryEnd_steady (.refl s)
  | .deepWake source => execDeepWake_steady (.refl s) source
  | .deepExitEnd => execDeepExitEnd_steady (.refl s)
  | .coldReset => absurd rfl notCold
  | .aonRelease => absurd rfl notRelease
  | .pllLock => execPllLock_steady (.refl s)
  | .fuseRepairDone .. => execFuseRepairDone_steady (.refl s) _
  | .eccInitDone => execEccInitDone_steady (.refl s)
  | .warmResetPin => execWarmResetPin_steady (.refl s)
  | .warmResetWrite .. => execWarmResetWrite_steady (.refl s) _ _
  | .warmReinitDone => execWarmReinitDone_steady (.refl s)
  | .lakeReset .. => execLakeReset_steady (.refl s) _ _
  | .lakeResetDone => execLakeResetDone_steady (.refl s)
  | .marchStart .. => execMarchStart_steady (.refl s) _ _ _
  | .marchTestDone .. => execMarchTestDone_steady (.refl s) _ _
  | .marchAnalysisDone .. => execMarchAnalysisDone_steady (.refl s) _
  | .marchRemapDone .. => execMarchRemapDone_steady (.refl s) _
  | .marchInitDone .. => execMarchInitDone_steady (.refl s) _
  | .cntCfgWrite .. => execCntCfgWrite_steady (.refl s) _ _ _
  | .cntValWrite .. => execCntValWrite_steady (.refl s) _ _ _
  | .dailiesSnapshot .. => execDailiesSnapshot_steady (.refl s) _ _
  | .snapshotRelease => execSnapshotRelease_steady (.refl s)
  | .requestFrame .. => execRequestFrame_steady (.refl s) _ _ _
  | .dictRead => execDictRead_steady (.refl s)
  | .dictWrite => execDictWrite_steady (.refl s)
  | .dictInfo => execDictInfo_steady (.refl s)
  | .dictResponseReady => execDictResponseReady_steady (.refl s)
  | .responseFrameRead => execResponseFrameRead_steady (.refl s)
  | .entdaa .. => execEntdaa_steady (.refl s) _
  | .setnewda .. => execSetnewda_steady (.refl s) _
  | .rstdaa => execRstdaa_steady (.refl s)
  | .enec .. => execEnec_steady (.refl s) _ _
  | .disec .. => execDisec_steady (.refl s) _ _
  | .getpid => execGetpid_steady (.refl s)
  | .getbcr => execGetbcr_steady (.refl s)
  | .getdcr => execGetdcr_steady (.refl s)
  | .getstatus => execGetstatus_steady (.refl s)
  | .setmwl .. => execSetmwl_steady (.refl s) _
  | .getmwl => execGetmwl_steady (.refl s)
  | .setmrl .. => execSetmrl_steady (.refl s) _
  | .getmrl => execGetmrl_steady (.refl s)
  | .entas k => execEntas_steady (.refl s) k
  | .unsupportedCcc .. => execUnsupportedCcc_steady (.refl s) _
  | .hdrEntry => execHdrEntry_steady (.refl s)
  | .hotJoin => execHotJoin_steady (.refl s)
  | .ibiRaise .. => execIbiRaise_steady (.refl s) _
  | .settingsApply => execSettingsApply_steady (.refl s)
  | .fwBegin .. => execFwBegin_steady (.refl s) _ _
  | .fwChunk .. => execFwChunk_steady (.refl s) _ _
  | .fwVerify => execFwVerify_steady (.refl s)
  | .fwActivateSchedule .. => execFwActivateSchedule_steady (.refl s) _ _
  | .fwActivateCancel .. => execFwActivateCancel_steady (.refl s) _
  | .fwActivateRevert .. => execFwActivateRevert_steady (.refl s) _
  | .fwActivationFire => execFwActivationFire_steady (.refl s)
  | .loaderStart => execLoaderStart_steady (.refl s)
  | .imageStartTimeout => execImageStartTimeout_steady (.refl s)
  | .fwConfirm => execFwConfirm_steady (.refl s)
  | .trialExpire => execTrialExpire_steady (.refl s)
  | .sibStatusMsg .. => execSibStatusMsg_steady (.refl s) _ _
  | .sibTimeout => execSibTimeout_steady (.refl s)
  | .meterEnergySample .. => execMeterEnergySample_steady (.refl s) _ _
  | .meterSample => execMeterSample_steady (.refl s)
  | .tallyRecord => execTallyRecord_steady (.refl s)
  | .meterClose => execMeterClose_steady (.refl s)
  | .meterPowerUp => execMeterPowerUp_steady (.refl s)
  | .monitorSelfTest .. => execMonitorSelfTest_steady (.refl s) _
  | .clientTakesRequest .. => execClientTakesRequest_steady (.refl s) _ _
  | .referenceClockLoss => execReferenceClockLoss_steady (.refl s)
  | .referenceClockReturn => execReferenceClockReturn_steady (.refl s)
  | .hdrExitPattern => execHdrExitPattern_steady (.refl s)
  | .testPortAccess => execTestPortAccess_steady (.refl s)
  | .vddLogLoss => execVddLogLoss_steady (.refl s)

theorem execColdReset_canonical {s t : State} (hc : s.canonical = true) (h : exec .coldReset s = .next t) : t.canonical = true := by
  have lakes := (State.canonical_iff.1 ((State.dropAll_steady (.refl s)).tables hc)).lakes
  obtain rfl := Host.Outcome.next.inj h
  generalize s.dropAll = u at lakes ⊢
  exact State.canonical_iff.2 ⟨rfl, rfl, Tab.wf_mapTab lakes fun _ l => { Lake.reset with draws := l.draws },
    rfl, rfl, rfl, rfl, rfl, rfl, rfl, rfl, rfl⟩

theorem execColdReset_epValid {s t : State} (h : exec .coldReset s = .next t) : t.tm.epValid = false := by
  obtain rfl := Host.Outcome.next.inj h
  rfl

/-- The release of the AON domain starts the timestamp afresh and leaves the tables and the endpoint alone. -/
theorem execAonRelease_keeps {s t : State} (h : exec .aonRelease s = .next t) :
    t.canonical = s.canonical ∧ t.tm.epValid = s.tm.epValid ∧ t.tm.epId = s.tm.epId := by
  change execAonRelease s = .next t at h
  rw [execAonRelease] at h
  split at h <;> cases h <;> exact ⟨rfl, rfl, rfl⟩

theorem exec_canonical {c : Instr} {s t : State} (hc : s.canonical = true) (h : exec c s = .next t) : t.canonical = true := by
  by_cases cold : c = .coldReset
  · subst cold
    exact execColdReset_canonical hc h
  · by_cases release : c = .aonRelease
    · subst release
      exact (execAonRelease_keeps h).1.trans hc
    · exact (exec_steady s c cold release t h).tables hc

/-- Settles O4: the model evaluates its reset state; what a register file reads there is its reset value. -/
theorem resetIsCanonical : Obligations.ResetIsCanonical := by
  refine ⟨rfl, rfl, by decide, rfl, rfl, rfl, rfl, rfl, rfl, rfl, rfl, rfl, rfl, rfl, rfl, rfl, rfl, rfl, rfl, ?_⟩
  refine ⟨fun _ => ⟨rfl, rfl, rfl, rfl, rfl, rfl, fun _ => rfl, fun _ => rfl⟩, fun _ => ⟨rfl, rfl, rfl, rfl, rfl⟩, fun _ => ⟨rfl, rfl, rfl⟩,
    fun k => ⟨rfl, rfl, ?_⟩, fun _ => rfl, fun _ => rfl, fun _ => ⟨rfl, (by decide : bit Counter.reset.cfg 9 = false)⟩,
    fun _ => rfl⟩
  -- a cue is homed on a lake of its variant, whose number fits in the 5 bits of HOME
  have lakes : Config.lakeCount State.reset.variant = 24 := by decide
  change (BitVec.ofNat 5 (k % Config.lakeCount State.reset.variant)).toNat = _
  rw [lakes, BitVec.toNat_ofNat]
  omega

/-- Settles O5: a command does its effect on a state with a shorter queue (`exec_canonical`), and an empty queue is a tick (`idle_steady`). -/
theorem stepKeepsCanonical : Obligations.StepKeepsCanonical := by
  intro s t hc h
  unfold step at h
  split at h
  · cases h
    exact (idle_steady (.refl s)).tables hc
  · next c rest _ => exact exec_canonical (s := { s with pending := rest }) hc h

/-- Settles O6: two of the clauses of `exec_steady`. -/
theorem endpointAndTimestampOutliveCommands : Obligations.EndpointAndTimestampOutliveCommands := by
  intro c s t notCold notRelease h
  have kept := exec_steady s c notCold notRelease t h
  exact ⟨kept.time, kept.ep⟩

/-! ### The endpoint (R33) -/

/-- `EP_VALID` outlasts every command but a cold reset. -/
theorem exec_epValid {c : Instr} {s t : State} (notCold : c ≠ .coldReset) (valid : s.tm.epValid = true) (h : exec c s = .next t) :
    t.tm.epValid = true := by
  by_cases release : c = .aonRelease
  · subst release
    exact (execAonRelease_keeps h).2.1.trans valid
  · exact ((exec_steady s c notCold release t h).ep valid).1

/-- A write of 4 bytes that reaches `EP_ID`. -/
theorem exec_epIdWrite {s : State} {src : Src} (open_ : s.opens src 0x20 4 = true) (v : BitVec 32) :
    exec (.epIdWrite src v) s = .next (epIdSet (s.ctl src 0x20) (v.setWidth 64) s) := ctlCommand_4 open_ rfl v

/-- Settles O9: the register's write takes one of three branches, by the privilege of its sender and by `EP_VALID`. -/
theorem endpointWrittenOnce : Obligations.EndpointWrittenOnce := by
  refine ⟨fun c s t h => ⟨fun cold => ?_, fun notCold valid => exec_epValid notCold valid h⟩, fun s src v open_ => ?_⟩
  · subst cold
    exact execColdReset_epValid h
  rw [exec_epIdWrite open_, epIdSet]
  have priv : (s.ctl src 0x20).w.priv = s.privileged src := rfl
  refine ⟨fun unprivileged => ?_, fun privileged first => ?_, fun privileged again => ?_⟩
  · rw [State.privOnly, priv, unprivileged]
    rfl
  · rw [State.privOnly, priv, privileged, State.unless0, first, bits_setWidth_64, bits, Nat.shiftRight_eq_div_pow, Nat.pow_one]
    rfl
  · rw [State.privOnly, priv, privileged, State.unless0, again]
    rfl

end Sys2Proof.Machine
end

section
/-!
PROOF. Warm reset (O51). A reset ends what is in progress with responses, which touch none of the tables (`Answered`); with the write-backs it
undoes and the waiters it releases this is `State.dropAll` (`State.dropAll_frame`). The registers that a warm reset leaves then stand in
`State.warmControl`.
-/
namespace Sys2Proof.Machine

-- One theorem after another: elaborated side by side, these theorems would each hold a thread and its stack.
set_option Elab.async false

/-! ### Responses -/

/-- From `s` to `t` responses have been driven, or taken to where they are collected, and nothing else has changed. -/
def Answered (s t : State) : Prop := ∃ weir inbox flights reads retry next out, t =
  { s with weir := weir, inbox := inbox, flights := flights, hostReads := reads, hostRetry := retry, nextId := next, out := out }

theorem Answered.refl (s : State) : Answered s s := ⟨s.weir, s.inbox, s.flights, s.hostReads, s.hostRetry, s.nextId, s.out, rfl⟩

theorem Answered.trans {a b c : State} (h : Answered a b) (k : Answered b c) : Answered a c := by
  obtain ⟨_, _, _, _, _, _, _, rfl⟩ := h
  obtain ⟨w, i, f, r, y, n, o, rfl⟩ := k
  exact ⟨w, i, f, r, y, n, o, rfl⟩

theorem Answered.foldl {α : Type} {f : State → α → State} (hf : ∀ s x, Answered s (f s x)) (l : List α) (s : State) :
    Answered s (l.foldl f s) := by
  induction l generalizing s with
  | nil => exact .refl s
  | cons x l ih => exact (hf s x).trans (ih (f s x))

theorem State.emit_answered (s : State) (o : Out) : Answered s (s.emit o) :=
  ⟨s.weir, s.inbox, s.flights, s.hostReads, s.hostRetry, s.nextId, _, rfl⟩

/-- A response changes the weir's late counts and estimators (R113, R114). -/
theorem State.deadlines_frame (s : State) (w : Who) (op : Op) (lake : Bool) (dst : Option Nat) (valid : Nat) :
    ∃ weir, s.deadlines w op lake dst valid = { s with weir := weir } := by
  have late (s : State) (b : Prop) [Decidable b] (c : Nat) : ∃ weir, (if b then s.lateOne c w.label w.pos else s) = { s with weir := weir } := by
    split
    · exact ⟨_, rfl⟩
    · exact ⟨s.weir, rfl⟩
  unfold State.deadlines
  dsimp only
  split
  · exact ⟨s.weir, rfl⟩
  · obtain ⟨weir, h⟩ := late s (w.dl < valid - w.issued) (s.classOf w.label)
    rw [h]
    split <;> exact ⟨_, rfl⟩

theorem State.hostCpl_answered (s : State) (tag w : Nat) (c : Cpl) : Answered s (s.hostCpl tag w c) := by
  unfold State.hostCpl
  extract_lets out
  split
  · exact s.emit_answered _
  · refine Answered.trans (b := { s with hostReads := _ }) ?_ (Answered.foldl (fun s _ => s.emit_answered _) _ _)
    exact ⟨s.weir, s.inbox, s.flights, _, s.hostRetry, s.nextId, s.out, rfl⟩

theorem State.respond_answered (s : State) (w : Who) (dst : Option Nat) (op : Op) (q : Req) (opnd : List Word) (st : Status) (data : List Word)
    (from_ lat backoff : Nat) : Answered s (s.respond w dst op q opnd st data from_ lat backoff) := by
  obtain ⟨weir, h⟩ := s.deadlines_frame w op true (dst.map Config.lakePos) (from_ + lat)
  have counted : Answered s (s.deadlines w op true (dst.map Config.lakePos) (from_ + lat)) :=
    ⟨weir, s.inbox, s.flights, s.hostReads, s.hostRetry, s.nextId, s.out, h⟩
  unfold State.respond
  extract_lets again
  split
  · exact ⟨s.weir, s.inbox, s.flights, s.hostReads, _, _, s.out, rfl⟩
  · refine counted.trans ?_
    split
    · split
      · exact .refl _
      · exact State.hostCpl_answered _ _ _ _
    · exact ⟨_, _, _, _, _, _, _, rfl⟩
    · exact State.emit_answered _ _

theorem State.answerAbsent_answered (s : State) (h : Held) : Answered s (s.answerAbsent h) := by
  cases h with
  | access => exact s.respond_answered _ _ _ _ _ _ _ _ _ _
  | reg src off size v =>
    rw [State.answerAbsent]
    split
    · exact s.emit_answered _
    · rw [State.answerRead]
      split <;> exact s.emit_answered _
  | take => exact s.emit_answered _

theorem State.finishPart_answered (s : State) (rid part : Nat) (st : Status) (data : List Word) (backoff : Nat) :
    Answered s (s.finishPart rid part st data backoff) := by
  unfold State.finishPart
  split
  · exact .refl s
  · extract_lets parts done lat n
    split
    · exact Answered.trans ⟨s.weir, s.inbox, _, s.hostReads, s.hostRetry, s.nextId, s.out, rfl⟩ (State.respond_answered _ _ _ _ _ _ _ _ _ _ _)
    · exact ⟨s.weir, s.inbox, _, s.hostReads, s.hostRetry, s.nextId, s.out, rfl⟩

/-! ### The reset point (R225, R357) -/

/-- No lake has a row to write back. -/
def State.noWbs (s : State) : Prop := ∀ n < Config.lakes, (s.lake n).wbs = []

/-- From `s` to `t` waits have ended with responses, and write-backs and mark writes have been taken up: rows, lakes and what they hold have
changed, memory only where there was a write-back. -/
structure Dropped (s t : State) : Prop where
  frame : ∃ mem rows lakes lpow, Answered { s with mem := mem, rows := rows, lakes := lakes, lpow := lpow } t
  mem : s.noWbs → t.noWbs ∧ t.mem = s.mem

theorem Answered.dropped {s t : State} (h : Answered s t) : Dropped s t := by
  refine ⟨⟨s.mem, s.rows, s.lakes, s.lpow, h⟩, fun none_ => ?_⟩
  obtain ⟨_, _, _, _, _, _, _, rfl⟩ := h
  exact ⟨none_, rfl⟩

theorem Dropped.trans {a b c : State} (h : Dropped a b) (k : Dropped b c) : Dropped a c := by
  refine ⟨?_, fun none_ => ⟨(k.mem (h.mem none_).1).1, (k.mem (h.mem none_).1).2.trans (h.mem none_).2⟩⟩
  obtain ⟨_, _, _, _, _, _, _, _, _, _, _, rfl⟩ := h.frame
  obtain ⟨m, r, l, p, x⟩ := k.frame
  exact ⟨m, r, l, p, Answered.trans ⟨_, _, _, _, _, _, _, rfl⟩ x⟩

theorem Dropped.foldl {α : Type} {f : State → α → State} (hf : ∀ s x, Dropped s (f s x)) (l : List α) (s : State) :
    Dropped s (l.foldl f s) := by
  induction l generalizing s with
  | nil => exact (Answered.refl s).dropped
  | cons x l ih => exact (hf s x).trans (ih (f s x))

/-- Rows, lakes and lake power changed without a change of memory, where every lake keeps its write-backs or loses them. -/
theorem Dropped.of_lakes {s : State} {rows : Tab RowTag} {lakes : Tab Lake} {lpow : Tab LakePower}
    (h : ∀ n, ((s.lake n).wbs = [] → (({ s with rows := rows, lakes := lakes, lpow := lpow } : State).lake n).wbs = [])) :
    Dropped s { s with rows := rows, lakes := lakes, lpow := lpow } :=
  ⟨⟨s.mem, rows, lakes, lpow, .refl _⟩, fun none_ => ⟨fun n hn => h n (none_ n hn), rfl⟩⟩

theorem State.modLake_dropped (s : State) (n : Nat) {f : Lake → Lake} (hf : ∀ l, l.wbs = [] → (f l).wbs = []) : Dropped s (s.modLake n f) := by
  refine Dropped.of_lakes (lpow := s.lpow) (rows := s.rows) fun k hk => ?_
  by_cases e : k = n
  · subst e
    exact (congrArg Lake.wbs (State.modLake_lake_same s k f)).trans (hf _ hk)
  · exact (congrArg Lake.wbs (State.modLake_lake_other s n f k e)).trans hk

theorem State.setTag_dropped (s : State) (row : Nat) (t : RowTag) : Dropped s (s.setTag row t) :=
  Dropped.of_lakes (lakes := s.lakes) (lpow := s.lpow) fun _ h => h

theorem State.modLp_dropped (s : State) (n : Nat) (f : LakePower → LakePower) : Dropped s (s.modLp n f) :=
  Dropped.of_lakes (rows := s.rows) (lakes := s.lakes) fun _ h => h

theorem State.settle_dropped (s : State) (row : Nat) : Dropped s (s.settle row) := by
  rw [State.settle]
  split
  · exact (Answered.refl s).dropped
  · exact (s.setTag_dropped _ _).trans (State.modLake_dropped _ _ fun _ h => h)

theorem State.mark_dropped (s : State) (row : Nat) (stale : Bool) : Dropped s (s.mark row stale) := by
  rw [State.mark]
  refine Dropped.trans ?_ (State.setTag_dropped _ _ _)
  split
  · exact (s.settle_dropped row).trans (State.setTag_dropped _ _ _)
  · exact (Answered.refl s).dropped

theorem State.dropWaiter_dropped (s : State) (n : Nat) (e : Waiter) (st : Status) (backoff : Nat) : Dropped s (s.dropWaiter n e st backoff) := by
  unfold State.dropWaiter
  extract_lets u
  refine Dropped.trans (b := u) (s.modLake_dropped n fun _ h => h) ?_
  clear_value u
  split
  · exact (State.finishPart_answered _ _ _ _ _ _).dropped
  · obtain ⟨weir, h⟩ := u.deadlines_frame e.who .read false none u.pw.now
    rw [h]
    exact Answered.dropped ⟨weir, u.inbox, u.flights, u.hostReads, u.hostRetry, u.nextId, _, rfl⟩
  · exact (Answered.refl _).dropped

theorem State.releaseWaiters_dropped (s : State) (n : Nat) (p : Waiter → Bool) (st : Status) (backoff : Nat) :
    Dropped s (s.releaseWaiters n p st backoff) :=
  Dropped.foldl (fun s e => s.dropWaiter_dropped n e st backoff) _ s

/-- The write-backs of a lake undone: none where it has none. -/
theorem State.undoAll_frame (s : State) (bs : List WriteBack) :
    ∃ mem rows, bs.foldl State.undoWb s = { s with mem := mem, rows := rows } := by
  induction bs generalizing s with
  | nil => exact ⟨s.mem, s.rows, rfl⟩
  | cons b bs ih =>
    obtain ⟨m, r, h⟩ := ih (s.undoWb b)
    exact ⟨m, r, by rw [List.foldl_cons, h]; rfl⟩

theorem State.undoAll_dropped (s : State) {n : Nat} (hn : n < Config.lakes) : Dropped s ((s.lake n).wbs.reverse.foldl State.undoWb s) := by
  constructor
  · obtain ⟨m, r, h⟩ := s.undoAll_frame (s.lake n).wbs.reverse
    exact ⟨m, r, s.lakes, s.lpow, h ▸ .refl _⟩
  · intro none_
    rw [none_ n hn]
    exact ⟨none_, rfl⟩

theorem State.dropLake_dropped (s : State) {n : Nat} (hn : n < Config.lakes) : Dropped s (s.dropLake n) := by
  unfold State.dropLake
  extract_lets undone marked cleared held
  have h1 : Dropped s undone := s.undoAll_dropped hn
  have h2 : Dropped undone marked := Dropped.foldl (fun s (m : MarkEntry) => s.mark_dropped m.row m.stale) _ _
  have h3 : Dropped marked cleared := marked.modLake_dropped n fun _ _ => rfl
  have h4 : Dropped cleared ((cleared.modLp n fun x => { x with held := [] }).answerAll held) :=
    (cleared.modLp_dropped n _).trans (Answered.foldl State.answerAbsent_answered _ _).dropped
  exact (((h1.trans h2).trans h3).trans h4).trans (State.releaseWaiters_dropped _ _ _ _ _)

theorem State.dropLakes_dropped (s : State) : Dropped s ((List.range Config.lakes).foldl State.dropLake s) := by
  have all (l : List Nat) (hl : ∀ n ∈ l, n < Config.lakes) (s : State) : Dropped s (l.foldl State.dropLake s) := by
    induction l generalizing s with
    | nil => exact (Answered.refl s).dropped
    | cons n l ih => exact (s.dropLake_dropped (hl n (by simp))).trans (ih (fun m hm => hl m (by simp [hm])) _)
  exact all _ (fun n => List.mem_range.1) s

/-- The end of everything in progress. What waited is answered, what was on its way is gone; memory is as it was where no row waited to be
written back. -/
theorem State.dropAll_frame (s : State) : ∃ mem rows lakes lpow weir retry next out, s.dropAll = { s with
    mem := mem, rows := rows, lakes := lakes, lpow := lpow, weir := weir, nextId := next, out := out, pw := { s.pw with held := [] }
    hostHeld := [], hostRetry := retry, signals := [], flights := [], inbox := [], ring := [], stops := [], arbs := []
    backoff := [], remotes := [], group := [], ps := ⟨[], []⟩, inPond := [], hostReads := [] } ∧ (s.noWbs → mem = s.mem) := by
  unfold State.dropAll
  extract_lets s1 hs p s2 s3 cs s4
  have h1 : Dropped s s1 := s.dropLakes_dropped
  have h4 : Answered s2 s4 := (Answered.foldl State.answerAbsent_answered hs s2).trans (Answered.foldl (fun s _ => s.emit_answered _) cs s3)
  clear_value s4 s1
  obtain ⟨weir, inbox, flights, reads, retry, next, out, rfl⟩ := h4
  have kept := h1.mem
  obtain ⟨mem, rows, lakes, lpow, _, _, _, _, _, _, _, rfl⟩ := h1.frame
  exact ⟨mem, rows, lakes, lpow, weir, retry, next, out, rfl, fun none_ => (kept none_).2⟩

/-! ### Warm reset (R358) -/

/-- A key of those set reads as what it was set to. -/
theorem get_foldl_set {α : Type} [DecidableEq α] {d : Nat → α} {f : Nat → α} {l : List Nat} {n : Nat} (h : n ∈ l) (t : Tab α) :
    Tab.get d (l.foldl (fun t n => Tab.set d t n (f n)) t) n = f n := by
  induction l using List.reverseRecOn with
  | nil => cases h
  | append_singleton l m ih =>
    rw [List.foldl_append, List.foldl_cons, List.foldl_nil]
    by_cases e : n = m
    · subst e; exact Tab.get_set_same _ _ _
    · rw [Tab.get_set_other e]
      exact ih ((List.mem_append.1 h).resolve_right fun k => e (List.mem_singleton.1 k))

theorem State.staleKept_frame (s : State) (keep : Nat → Bool) (l : List Nat) :
    ∃ rows lakes, l.foldl (fun s n => if keep n then s.staleSteps n else s) s = { s with rows := rows, lakes := lakes } := by
  induction l generalizing s with
  | nil => exact ⟨s.rows, s.lakes, rfl⟩
  | cons n l ih =>
    have head : ∃ rows lakes, (if keep n then s.staleSteps n else s) = { s with rows := rows, lakes := lakes } := by
      split
      · exact s.settleAll_frame _
      · exact ⟨s.rows, s.lakes, rfl⟩
    obtain ⟨_, _, h⟩ := head
    obtain ⟨r, k, h'⟩ := ih (if keep n then s.staleSteps n else s)
    exact ⟨r, k, by rw [List.foldl_cons, h', h]⟩

theorem State.warmControl_lake (s : State) (asRet : Nat → Bool) {n : Nat} (hn : n < Config.lakes) :
    (s.warmControl asRet).lake n = (s.lake n).warm (asRet n) := by
  rw [State.lake, State.warmControl]
  exact get_foldl_set (f := fun n => (s.lake n).warm (asRet n)) (List.mem_range.2 hn) s.lakes

/-- A warm reset: each unit's registers as the reset leaves them, the power registers as after a level change that was given up, and step 9 of
the bring-up. -/
theorem State.warmReset_frame (s : State) (cause : Nat) : ∃ mem rows lakes lpow weir retry next out, s.warmReset cause = { s with
    mem := mem, rows := rows, lakes := lakes, lpow := lpow, weir := weir, nextId := next, out := out
    springs := mapTab (fun _ => Spring.reset) (fun _ x => x.warm) s.springs, mtes := mapTab (fun _ => Mte.reset) (fun _ m => m.warm) s.mtes
    arbs := [], backoff := [], stops := [], stopCfg := [], cues := [], wins := [], reels := [], ctxs := [], basin := Basin.reset
    err := s.err.warm, cnt := { Counters.reset with epoch := satAdd max32 s.cnt.epoch 1 }, fw := s.fw.halt
    hostHeld := [], hostRetry := retry, signals := [], flights := [], inbox := [], ring := [], remotes := []
    group := [], ps := ⟨[], []⟩, inPond := [], hostReads := []
    pw := { s.pw with
      held := [], busy := false, done := false, drainTo := false, phase := 0, goal := s.pw.cur, lastDrain := 0, switching := false
      arrMv := Config.vddArr s.pw.cur, logMv := Config.vddLog s.pw.cur, deep := 0, deepPend := false, deepTimed := false }
    tm := { s.tm.warm with
      ready := false, step := 9, stepDue := s.pw.now + 528, rstCause := cause, warmCount := satAdd max32 s.tm.warmCount 1 } } ∧
    (s.noWbs → mem = s.mem) ∧
    ∀ n < Config.lakes, ∃ l asRet, Tab.get (fun _ => Lake.reset) lakes n = Lake.warm l asRet := by
  unfold State.warmReset
  extract_lets d keep u w p tm
  have lakes (n : Nat) (hn : n < Config.lakes) : w.lake n = (u.lake n).warm (keep n) := u.warmControl_lake keep hn
  obtain ⟨mem, _, _, _, _, retry, next, out, hd, kept⟩ := s.dropAll_frame
  obtain ⟨rows, _, hu⟩ : ∃ rows lakes, u = { d with rows := rows, lakes := lakes } := d.staleKept_frame keep _
  have e : d = s.dropAll := rfl
  clear_value u keep d
  subst e
  rw [hd] at hu
  subst hu
  exact ⟨mem, rows, _, _, _, retry, next, out, rfl, kept, fun n hn => ⟨_, _, lakes n hn⟩⟩

/-- A lake's page after a warm reset belongs to the management controller, with no take and no waiter (R357, R358). -/
theorem Lake.warm_empty (l : Lake) (asRet : Bool) :
    (l.warm asRet).owner = mgmtPrincipal ∧ (l.warm asRet).takes = [] ∧ (l.warm asRet).waiters = [] := by
  cases asRet <;> exact ⟨rfl, rfl, rfl⟩

theorem State.askWarm_eq {s : State} (cause : Nat) (step : s.tm.step = 0) (up : s.tm.aonUp = true) : s.askWarm cause = s.warmReset cause := by
  simp [State.askWarm, step, up]

theorem State.askWarm_none {s : State} (cause : Nat) (h : s.tm.step ≠ 0 ∨ s.tm.aonUp = false) : s.askWarm cause = s := by
  rcases h with h | h <;> simp [State.askWarm, h]

/-- A privileged write of 4 bytes that reaches `TM_RESET`. -/
theorem exec_warmResetWrite {s : State} {src : Src} (open_ : s.opens src 0x30 4 = true) (privileged : s.privileged src = true) (v : BitVec 32) :
    exec (.warmResetWrite src v) s = .next (if bit v 0 then (s.reply src .ok).askWarm 2 else s.reply src .ok) := by
  have priv : (s.ctl src 0x30).w.priv = true := privileged
  refine (ctlCommand_4 open_ rfl v).trans ?_
  rw [regWrite, resetSet, State.privOnly, priv, bit_setWidth_64]
  rfl

/-- Settles O51: what `State.warmReset_frame` and `State.dropAll_frame` say, read field by field. -/
theorem warmResetRuns : Obligations.WarmResetRuns := by
  unfold Obligations.WarmResetRuns
  intro warm
  have leaves (s : State) (cause : Nat) (hc : s.canonical = true) : warm s (s.warmReset cause) cause := by
    obtain ⟨_, _, _, _, _, _, _, _, h, mem, lakes⟩ := s.warmReset_frame cause
    have springs (n : Nat) : Tab.get (fun _ => Spring.reset) (mapTab (fun _ => Spring.reset) (fun _ x => x.warm) s.springs) n = (s.spring n).warm :=
      Tab.get_mapTab (f := fun _ x => Spring.warm x) (Tab.wf_iff.1 (State.canonical_iff.1 hc).springs).1 rfl
    rw [h]
    refine ⟨rfl, rfl, rfl, rfl, rfl, rfl, rfl, rfl, rfl, rfl, rfl, rfl, rfl, rfl, rfl, rfl, rfl, fun n hn => ?_, fun n => ?_, rfl, rfl, rfl, rfl,
      rfl, rfl, rfl, rfl, rfl, rfl, rfl, rfl, rfl, mem⟩
    · obtain ⟨l, asRet, e⟩ := lakes n hn
      rw [State.lake, e]
      exact l.warm_empty asRet
    · rw [State.spring, springs n]
      exact ⟨rfl, rfl, rfl⟩
  refine ⟨fun s hc => ⟨fun step up => ⟨_, ?_, leaves s 1 hc⟩, fun h => ?_⟩,
    fun s src v hc open_ privileged => ⟨fun step up go => ⟨_, ?_, leaves (s.reply src .ok) 2 hc⟩, fun h => ?_, fun off => ?_⟩,
    fun s => ⟨fun deep => ?_, fun deep => ?_⟩⟩
  · exact congrArg Host.Outcome.next (State.askWarm_eq 1 step up)
  · exact congrArg Host.Outcome.next (State.askWarm_none 1 h)
  · rw [exec_warmResetWrite open_ privileged, if_pos go, State.askWarm_eq (s := s.reply src .ok) 2 step up]
  · rw [exec_warmResetWrite open_ privileged, State.askWarm_none (s := s.reply src .ok) 2 h, ite_self]
  · rw [exec_warmResetWrite open_ privileged, off]
    rfl
  · exact if_pos deep
  · obtain ⟨_, _, _, _, _, _, _, _, h, mem⟩ := s.dropAll_frame
    refine ⟨_, if_neg deep, ?_⟩
    rw [h]
    exact ⟨rfl, rfl, rfl, rfl, rfl, rfl, rfl, rfl, rfl, rfl, rfl, rfl, rfl, mem⟩

end Sys2Proof.Machine
end

section
/-!
PROOF. The pond cycle of a READ or a WRITE of a row (R44, R45): what it leaves of the rows, lakes and memory is said by `Work`, for the rows it
touches and for all others, and a clean row is read or written without a repair.
-/
namespace Sys2Proof.Machine

-- One theorem after another: elaborated side by side, these theorems would each hold a thread and its stack.
set_option Elab.async false

/-! ### What pond cycles leave -/

/-- From `s` to `t` pond cycles of mode `m` have been spent on the rows of `l`: their slates are as the mode leaves them, every other row has its
slate, its errors, its words and its group, and nothing else of the block has changed than the lakes' write-backs, marks and idle counts, what
is counted, and with a produce the reel of a Spring. -/
structure Work (m : Mode) (l : List Nat) (s t : State) : Prop where
  frame : ∃ mem rows lakes weir cnt group springs reels backoff, t = { s with
    mem := mem, rows := rows, lakes := lakes, weir := weir, cnt := cnt, group := group, springs := springs, reels := reels, backoff := backoff }
  lake : ∀ n, t.lake n = { s.lake n with
    idleFrom := (t.lake n).idleFrom, steps := (t.lake n).steps, wbs := (t.lake n).wbs, marks := (t.lake n).marks, injArm := (t.lake n).injArm }
  slate : ∀ r, t.slate r = if r ∈ l then slateAfter m (s.slate r) else s.slate r
  clean : ∀ r, r ∉ l → t.clean r = s.clean r
  words : ∀ a, wordRow a ∉ l → readWord t.mem a = readWord s.mem a
  group : ∀ r, r ∉ l → t.groupOfRow r = s.groupOfRow r
  slots : m ≠ .produce → t.springs = s.springs ∧ t.reels = s.reels
  accepted : m = .plain → t.backoff = s.backoff

/-- What changes only counts and the words moved. -/
theorem Work.counted {s : State} {m : Mode} (weir : Weir) (cnt : Counters) : Work m [] s { s with weir := weir, cnt := cnt } where
  frame := ⟨s.mem, s.rows, s.lakes, weir, cnt, s.group, s.springs, s.reels, s.backoff, rfl⟩
  lake _ := rfl
  slate r := by rw [if_neg List.not_mem_nil]; rfl
  clean _ _ := rfl
  words _ _ := rfl
  group _ _ := rfl
  slots _ := ⟨rfl, rfl⟩
  accepted _ := rfl

theorem Work.refl (m : Mode) (s : State) : Work m [] s s := Work.counted s.weir s.cnt

/-- Work on some rows and then on others. -/
theorem Work.append {a b c : State} {m : Mode} {l k : List Nat} (h : Work m l a b) (h' : Work m k b c) (apart : l.Disjoint k) :
    Work m (l ++ k) a c where
  frame := by
    obtain ⟨_, _, _, _, _, _, _, _, _, rfl⟩ := h.frame
    obtain ⟨m, r, l, w, c, g, x, e, b, rfl⟩ := h'.frame
    exact ⟨m, r, l, w, c, g, x, e, b, rfl⟩
  lake n := by rw [h'.lake n, h.lake n]
  slate r := by
    rw [h'.slate r, h.slate r]
    simp only [List.mem_append]
    by_cases hk : r ∈ k
    · have hl : r ∉ l := fun hl => apart hl hk
      simp [hk, hl]
    · simp [hk]
  clean r hr := by
    rw [List.mem_append, not_or] at hr
    rw [h'.clean r hr.2, h.clean r hr.1]
  words a ha := by
    rw [List.mem_append, not_or] at ha
    rw [h'.words a ha.2, h.words a ha.1]
  group r hr := by
    rw [List.mem_append, not_or] at hr
    rw [h'.group r hr.2, h.group r hr.1]
  slots hm := ⟨(h'.slots hm).1.trans (h.slots hm).1, (h'.slots hm).2.trans (h.slots hm).2⟩
  accepted hm := (h'.accepted hm).trans (h.accepted hm)

/-- Work of a mode that leaves slates alone, followed by work on the same rows. -/
theorem Work.trans {a b c : State} {m : Mode} {l : List Nat} (h : Work .plain l a b) (h' : Work m l b c) : Work m l a c where
  frame := by
    obtain ⟨_, _, _, _, _, _, _, _, _, rfl⟩ := h.frame
    obtain ⟨m, r, l, w, c, g, x, e, b, rfl⟩ := h'.frame
    exact ⟨m, r, l, w, c, g, x, e, b, rfl⟩
  lake n := by rw [h'.lake n, h.lake n]
  slate r := by
    have same : b.slate r = a.slate r := (h.slate r).trans (ite_self _)
    rw [h'.slate r, same]
  clean r hr := (h'.clean r hr).trans (h.clean r hr)
  words w hw := (h'.words w hw).trans (h.words w hw)
  group r hr := (h'.group r hr).trans (h.group r hr)
  slots hm := ⟨(h'.slots hm).1.trans (h.slots Mode.noConfusion).1, (h'.slots hm).2.trans (h.slots Mode.noConfusion).2⟩
  accepted hm := (h'.accepted hm).trans (h.accepted rfl)

/-- A mode that leaves slates alone, on more rows. -/
theorem Work.mono {s t : State} {m : Mode} {l k : List Nat} (h : Work m l s t) (sub : l ⊆ k) (keeps : ∀ sl, slateAfter m sl = sl) :
    Work m k s t :=
  { h with
    slate := fun r => by rw [h.slate r, keeps, ite_self, ite_self]
    clean := fun r hr => h.clean r fun k => hr (sub k)
    words := fun a ha => h.words a fun k => ha (sub k)
    group := fun r hr => h.group r fun k => hr (sub k) }

section
variable (s : State) (row : Nat)

theorem State.count_counted (m : Mode) (o : Occ) : Work m [] s (s.count o) := by
  rw [State.count]
  split
  · exact .refl m s
  · exact .counted s.weir _

theorem State.count_work (o : Occ) : Work .plain [row] s (s.count o) := (s.count_counted .plain o).mono (List.nil_subset _) fun _ => rfl

theorem State.moved_work (w : Who) (n k : Nat) : Work .plain [row] s (s.moved w n k) := by
  unfold State.moved
  extract_lets u
  refine Work.trans (b := u) (s.count_work row _) (Work.mono (l := []) ?_ (List.nil_subset _) fun _ => rfl)
  split
  · exact .refl _ u
  · exact .counted _ u.cnt

/-- The lake of the row, with another idle count, other write-backs or an error no longer armed; its marks on other rows stay. -/
theorem State.modLake_work {f : Lake → Lake}
    (fields : ∀ l, f l = { l with idleFrom := (f l).idleFrom, wbs := (f l).wbs, marks := (f l).marks, injArm := (f l).injArm })
    (marks : ∀ l r, r ≠ row → (f l).marks.any (·.row = r) = l.marks.any (·.row = r)) : Work .plain [row] s (s.modLake (lakeOf row) f) where
  frame := ⟨s.mem, s.rows, _, s.weir, s.cnt, s.group, s.springs, s.reels, s.backoff, rfl⟩
  lake n := by
    by_cases e : n = lakeOf row
    · subst e
      rw [State.modLake_lake_same, fields]
    · rw [State.modLake_lake_other _ _ _ _ e]
  slate r := by
    have steps : ((s.modLake (lakeOf row) f).lake (lakeOf r)).steps = (s.lake (lakeOf r)).steps := by
      by_cases e : lakeOf r = lakeOf row
      · rw [e, State.modLake_lake_same, fields]
      · rw [State.modLake_lake_other _ _ _ _ e]
    rw [State.slate, steps]
    exact (ite_self _).symm
  clean r hr := by
    have here : ((s.modLake (lakeOf row) f).lake (lakeOf r)).marks.any (·.row = r) = (s.lake (lakeOf r)).marks.any (·.row = r) := by
      by_cases e : lakeOf r = lakeOf row
      · rw [e, State.modLake_lake_same, marks _ _ fun k => hr (List.mem_singleton.2 k)]
      · rw [State.modLake_lake_other _ _ _ _ e]
    rw [State.clean, State.marked, here]
    rfl
  words _ _ := rfl
  group _ _ := rfl
  slots _ := ⟨rfl, rfl⟩
  accepted _ := rfl

/-- The tag of the row, with other errors or another mark. -/
theorem State.setTag_work {t : RowTag} (same : t.slate = (s.tag row).slate) : Work .plain [row] s (s.setTag row t) where
  frame := ⟨s.mem, _, s.lakes, s.weir, s.cnt, s.group, s.springs, s.reels, s.backoff, rfl⟩
  lake _ := rfl
  slate r := by
    have slate : ((s.setTag row t).tag r).slate = (s.tag r).slate := by
      by_cases e : r = row
      · rw [e, State.setTag_same, same]
      · rw [State.setTag_other _ _ _ _ e]
    rw [State.slate, slate]
    exact (ite_self _).symm
  clean r hr := by
    have e : r ≠ row := fun k => hr (List.mem_singleton.2 k)
    simp only [State.clean, State.marked, State.setTag_other _ _ _ _ e, State.setTag_lake]
  words _ _ := rfl
  group _ _ := rfl
  slots _ := ⟨rfl, rfl⟩
  accepted _ := rfl

/-- A pond cycle takes the range steps on its row into the row's tag. -/
theorem State.settle_work : Work .plain [row] s (s.settle row) where
  frame := by
    obtain ⟨r, l, h⟩ := s.settle_frame row
    exact ⟨s.mem, r, l, s.weir, s.cnt, s.group, s.springs, s.reels, s.backoff, h⟩
  lake n := by rw [s.settle_lake row n]
  slate r := (s.settle_slate row r).trans (ite_self _).symm
  clean r hr := by
    have e : r ≠ row := fun k => hr (List.mem_singleton.2 k)
    have tag : (s.settle row).tag r = s.tag r := by
      rw [State.settle]
      split
      · rfl
      · exact State.setTag_other _ _ _ _ e
    rw [State.clean, State.marked, tag, s.settle_lake]
    rfl
  words a _ := by
    obtain ⟨_, _, h⟩ := s.settle_frame row
    rw [h]
  group r _ := by
    obtain ⟨_, _, h⟩ := s.settle_frame row
    rw [h]
    rfl
  slots _ := by
    obtain ⟨_, _, h⟩ := s.settle_frame row
    rw [h]
    exact ⟨rfl, rfl⟩
  accepted _ := by
    obtain ⟨_, _, h⟩ := s.settle_frame row
    rw [h]

theorem State.spend_work (w : Who) (grp : Option Grp) : Work .plain [row] s (s.spend w row grp) := by
  rw [State.spend]
  split
  · exact Work.mono (.refl _ s) (List.nil_subset _) fun _ => rfl
  · exact (s.settle_work row).trans (((s.settle row).count_work row _).trans (State.modLake_work _ row (fun _ => rfl) fun _ _ _ => rfl))

/-- A change of the groups of the row alone. -/
theorem Work.of_group {g : List Grp} (other : ∀ r ≠ row, g.find? (·.row = r) = s.groupOfRow r) : Work .plain [row] s { s with group := g } where
  frame := ⟨s.mem, s.rows, s.lakes, s.weir, s.cnt, g, s.springs, s.reels, s.backoff, rfl⟩
  lake _ := rfl
  slate _ := (ite_self _).symm
  clean _ _ := rfl
  words _ _ := rfl
  group r hr := other r fun k => hr (List.mem_singleton.2 k)
  slots _ := ⟨rfl, rfl⟩
  accepted _ := rfl

theorem find?_filter_row {l : List Grp} {row r : Nat} (h : r ≠ row) : (l.filter (·.row != row)).find? (·.row = r) = l.find? (·.row = r) := by
  rw [List.find?_filter]
  congr 1
  funext g
  by_cases e : g.row = r <;> simp [e, h]

theorem State.alone_work : Work .plain [row] s (s.alone row) := Work.of_group s row fun _ => find?_filter_row

theorem State.joinGroup_work (k : Nat) (old : List Word) (tag : RowTag) (ws atoms : List Nat) (checked : Bool) :
    Work .plain [row] s (s.joinGroup none row k old tag ws atoms checked) := by
  refine Work.of_group s row fun r hr => ?_
  rw [List.find?_cons_of_neg (by simpa using hr.symm)]
  exact find?_filter_row hr

theorem State.refresh_work (ws : List Nat) : Work .plain [row] s (s.refresh row ws) := by
  unfold State.refresh
  extract_lets wm t whole t'
  have same : t'.slate = (s.tag row).slate := rfl
  refine (s.setTag_work row same).trans (State.modLake_work _ row (fun _ => rfl) fun l r hr => ?_)
  dsimp only
  split
  · rw [List.any_filter]
    congr 1
    funext e
    by_cases h : e.row = r <;> simp [h, hr]
  · rfl

theorem State.mergeWbs_work (ws : List Nat) : Work .plain [row] s (s.mergeWbs row ws) := by
  unfold State.mergeWbs
  exact State.modLake_work s row (fun _ => rfl) fun _ _ _ => rfl

theorem State.scheduleWb_work (old : RowTag) (undo : List (Nat × Word)) (fresh : Bool) : Work .plain [row] s (s.scheduleWb row old undo fresh) := by
  unfold State.scheduleWb
  refine State.modLake_work s row (fun l => ?_) fun l r _ => ?_ <;> split <;> rfl

theorem State.inject_work : Work .plain [row] s (s.inject row) := by
  unfold State.inject
  extract_lets n l t u t'
  have same : t'.slate = (s.tag row).slate := by
    dsimp only [t']
    split <;> rfl
  split
  · exact Work.mono (.refl _ s) (List.nil_subset _) fun _ => rfl
  · exact (s.setTag_work row same).trans (State.modLake_work _ row (fun _ => rfl) fun _ _ _ => rfl)

/-! ### Memory, and the tag of the row -/

@[simp] theorem State.count_mem (o : Occ) : (s.count o).mem = s.mem := by
  rw [State.count]
  split <;> rfl

@[simp] theorem State.count_tag (o : Occ) (r : Nat) : (s.count o).tag r = s.tag r := by
  rw [State.count]
  split <;> rfl

@[simp] theorem State.count_lake (o : Occ) (n : Nat) : (s.count o).lake n = s.lake n := by
  rw [State.count]
  split <;> rfl

@[simp] theorem State.moved_mem (w : Who) (n k : Nat) : (s.moved w n k).mem = s.mem := by
  unfold State.moved
  extract_lets u
  split <;> exact s.count_mem _

@[simp] theorem State.moved_tag (w : Who) (n k r : Nat) : (s.moved w n k).tag r = s.tag r := by
  unfold State.moved
  extract_lets u
  split <;> exact s.count_tag _ r

@[simp] theorem State.settle_mem : (s.settle row).mem = s.mem := by
  obtain ⟨_, _, h⟩ := s.settle_frame row
  rw [h]

/-- A pond cycle leaves the errors of its row alone. -/
@[simp] theorem State.settle_bad (r : Nat) : ((s.settle row).tag r).bad = (s.tag r).bad := by
  rw [State.settle]
  split
  · rfl
  · rw [State.modLake_tag]
    by_cases e : r = row
    · rw [e, State.setTag_same]
    · rw [State.setTag_other _ _ _ _ e]

@[simp] theorem State.spend_mem (w : Who) (grp : Option Grp) : (s.spend w row grp).mem = s.mem := by
  rw [State.spend]
  split
  · rfl
  · exact ((s.settle row).count_mem _).trans (s.settle_mem row)

@[simp] theorem State.spend_bad (w : Who) (grp : Option Grp) (r : Nat) : ((s.spend w row grp).tag r).bad = (s.tag r).bad := by
  rw [State.spend]
  split
  · rfl
  · exact (congrArg RowTag.bad ((s.settle row).count_tag _ r)).trans (s.settle_bad row r)

@[simp] theorem State.joinGroup_mem (grp : Option Grp) (k : Nat) (old : List Word) (tag : RowTag) (ws atoms : List Nat) (checked : Bool) :
    (s.joinGroup grp row k old tag ws atoms checked).mem = s.mem := rfl

@[simp] theorem State.mergeWbs_mem (ws : List Nat) : (s.mergeWbs row ws).mem = s.mem := rfl

@[simp] theorem State.scheduleWb_mem (old : RowTag) (undo : List (Nat × Word)) (fresh : Bool) : (s.scheduleWb row old undo fresh).mem = s.mem := rfl

@[simp] theorem State.inject_mem : (s.inject row).mem = s.mem := by
  unfold State.inject
  extract_lets
  split <;> rfl

@[simp] theorem State.setSlate_mem (sl : Slate) : (s.setSlate row sl).mem = s.mem := s.settle_mem row

@[simp] theorem State.refresh_bad (ws : List Nat) : ((s.refresh row ws).tag row).bad = refreshed (s.wMode row) ws (s.tag row).bad :=
  congrArg RowTag.bad (s.setTag_same row _)

theorem State.clean_iff : s.clean row = true ↔ s.marked row = false ∧ (s.tag row).corr = [] ∧ (s.tag row).bad = [] := by
  simp only [State.clean, Bool.and_eq_true, Bool.not_eq_true', decide_eq_true_eq, and_assoc]

/-- The slate of the row set in its own pond cycle. -/
theorem State.setSlate_work {m : Mode} {sl : Slate} (after : slateAfter m (s.slate row) = sl) (modal : m ≠ .plain) :
    Work m [row] s (s.setSlate row sl) := by
  refine (s.settle_work row).trans ?_
  have taken : stepSlate ((s.settle row).lake (lakeOf row)).steps row = none := (s.settle_stepSlate row row).trans (if_pos rfl)
  have own := s.settle_slate row row
  change Work m [row] (s.settle row) ((s.settle row).setTag row { (s.settle row).tag row with slate := sl })
  generalize s.settle row = u at taken own ⊢
  exact {
    frame := ⟨u.mem, _, u.lakes, u.weir, u.cnt, u.group, u.springs, u.reels, u.backoff, rfl⟩
    lake := fun _ => rfl
    slate := fun r => by
      by_cases e : r = row
      · subst e
        rw [if_pos (List.mem_singleton.2 rfl), State.slate, State.setTag_lake, taken, State.setTag_same, own, after]
        rfl
      · rw [if_neg fun k => e (List.mem_singleton.1 k), State.slate, State.setTag_other _ _ _ _ e]
        rfl
    clean := fun r hr => by
      rw [State.clean, State.marked, State.setTag_other _ _ _ _ fun k => hr (List.mem_singleton.2 k)]
      rfl
    words := fun _ _ => rfl
    group := fun _ _ => rfl
    slots := fun _ => ⟨rfl, rfl⟩
    accepted := fun plain => absurd plain modal }

/-! ### The words of a row -/

/-- Words stored in a row, each at its place. -/
def storeAt (m : List Host.Cell) (row : Nat) (ws : List (Nat × Word)) : List Host.Cell :=
  ws.foldl (fun m e => writeWord m (8 * row + e.1) e.2) m

theorem readWord_storeAt_other {m : List Host.Cell} {row a : Nat} {ws : List (Nat × Word)} (h : ∀ e ∈ ws, a ≠ 8 * row + e.1) :
    readWord (storeAt m row ws) a = readWord m a := by
  induction ws generalizing m with
  | nil => rfl
  | cons e ws ih =>
    rw [storeAt, List.foldl_cons, ← storeAt, ih fun x hx => h x (List.mem_cons_of_mem e hx)]
    exact readWord_writeWord_other (h e (List.mem_cons_self ..)) e.2

theorem placed_fst (places : List Nat) (data : List Word) : (placed places data).map (·.1) = places := by
  induction places generalizing data with
  | nil => rfl
  | cons p places ih => cases data <;> rw [placed, List.map_cons, ih]

/-- Words stored from a place on stand at their places, and nowhere else. -/
theorem readWord_storeAt_placed (m : List Host.Cell) (row p n : Nat) (data : List Word) (a : Nat) :
    readWord (storeAt m row (placed (List.range' p n) data)) a =
      if 8 * row + p ≤ a ∧ a < 8 * row + p + n then data.getD (a - (8 * row + p)) 0 else readWord m a := by
  induction n generalizing m p data with
  | zero =>
    rw [if_neg (by omega)]
    rfl
  | succ n ih =>
    have head : placed (List.range' p (n + 1)) data = (p, data.headD 0) :: placed (List.range' (p + 1) n) data.tail := by
      cases data <;> rfl
    rw [head, storeAt, List.foldl_cons, ← storeAt, ih]
    by_cases first : a = 8 * row + p
    · subst first
      rw [if_neg (by omega), if_pos (by omega), readWord_writeWord_same, Nat.sub_self]
      cases data <;> rfl
    · rw [readWord_writeWord_other first]
      by_cases inside : 8 * row + p ≤ a ∧ a < 8 * row + p + (n + 1)
      · rw [if_pos inside, if_pos (by omega), show a - (8 * row + p) = a - (8 * row + (p + 1)) + 1 by omega]
        cases data <;> rfl
      · rw [if_neg inside, if_neg (by omega)]

theorem State.rowWords_getD {i : Nat} (h : i < 8) : (s.rowWords row).getD i 0 = readWord s.mem (8 * row + i) := by
  rw [State.rowWords, List.getD_eq_getElem _ _ (by simpa using h)]
  simp

theorem State.putWords_work {ws : List (Nat × Word)} (h : ∀ e ∈ ws, e.1 < 8) : Work .plain [row] s (s.putWords row ws) where
  frame := ⟨_, s.rows, s.lakes, s.weir, s.cnt, s.group, s.springs, s.reels, s.backoff, rfl⟩
  lake _ := rfl
  slate _ := (ite_self _).symm
  clean _ _ := rfl
  words a ha := readWord_storeAt_other fun e he k => by
    have := h e he
    rw [wordRow, List.mem_singleton] at ha
    omega
  group _ _ := rfl
  slots _ := ⟨rfl, rfl⟩
  accepted _ := rfl

/-! ### One row request (R44, R45, R216, R219) -/

/-- A read pond cycle of a row without an error or a mark finds nothing to repair. -/
theorem State.checkRow_clean {w : Option Who} {finder : Nat} {t : RowTag} (corr : t.corr = []) (bad : t.bad = []) (none_ : (s.tag row).bad = []) :
    s.checkRow w row finder t none = s := by
  simp [State.checkRow, corr, bad, none_]

end

variable {s : State} {r : RowReq}

theorem readRow_clean (w : Who) (clean : s.clean r.row = true) (inRow : ∀ i ∈ r.places, i < 8) :
    ∃ t, readRow s w none r = (⟨.ok, r.places.map fun i => readWord s.mem (8 * r.row + i)⟩, t) ∧ Work .plain [r.row] s t ∧
      t.mem = s.mem := by
  obtain ⟨mark, corr, bad⟩ := (s.clean_iff r.row).1 clean
  have words : (r.places.map fun i => (s.rowWords r.row).getD i 0) = r.places.map fun i => readWord s.mem (8 * r.row + i) :=
    List.map_congr_left fun i hi => s.rowWords_getD r.row (inRow i hi)
  have found : (s.spend w r.row none).checkRow (some w) r.row 0 { s.tag r.row with mark := s.marked r.row } none = s.spend w r.row none :=
    State.checkRow_clean _ _ corr bad ((s.spend_bad r.row w none r.row).trans bad)
  have named : namedBad ((s.spend w r.row none).wMode r.row) (s.tag r.row).bad r.places = false := by
    simp [namedBad, bad]
  have performed : readRow s w none r = (⟨.ok, r.places.map fun i => readWord s.mem (8 * r.row + i)⟩,
      (((s.spend w r.row none).joinGroup none r.row (shoreRank w r.row) (s.rowWords r.row) { s.tag r.row with mark := false } [] [] true).countLake
        (lakeOf r.row) 0x05 w.quals (some w.label)).moved w (lakeOf r.row) r.n) := by
    rw [mark] at found
    simp only [readRow, State.before, mark, words, found, named, Bool.false_eq_true, if_false]
  refine ⟨_, performed, (s.spend_work r.row w none).trans ((State.joinGroup_work _ _ _ _ _ _ _ _).trans ((State.count_work _ _ _).trans
    (State.moved_work _ _ w (lakeOf r.row) r.n))), ?_⟩
  rw [State.moved_mem, State.countLake, State.count_mem]
  exact s.spend_mem r.row w none

/-- The row after a write's words have been stored with fresh check bytes. -/
def State.stored (s : State) (w : Who) (r : RowReq) : State :=
  (storeWords ((s.spend w r.row none).countLake (lakeOf r.row) 0x05 w.quals (some w.label)) w r (placed r.places r.data)).refresh r.row
    ((placed r.places r.data).map (·.1))

theorem State.stored_work (w : Who) (inRow : ∀ i ∈ r.places, i < 8) : Work .plain [r.row] s (s.stored w r) := by
  have places : ∀ e ∈ placed r.places r.data, e.1 < 8 := fun e he =>
    inRow e.1 (placed_fst r.places r.data ▸ List.mem_map_of_mem he)
  exact (s.spend_work r.row w none).trans ((State.count_work _ _ _).trans ((State.putWords_work _ _ places).trans
    ((State.moved_work _ _ w (lakeOf r.row) (placed r.places r.data).length).trans (State.refresh_work _ _ _))))

theorem State.stored_mem (w : Who) : (s.stored w r).mem = storeAt s.mem r.row (placed r.places r.data) := by
  refine (State.moved_mem _ w (lakeOf r.row) _).trans ?_
  rw [State.putWords, State.countLake, State.count_mem, State.spend_mem]
  rfl

theorem State.stored_bad (w : Who) (clean : s.clean r.row = true) : ((s.stored w r).tag r.row).bad = [] := by
  have bad : ((storeWords ((s.spend w r.row none).countLake (lakeOf r.row) 0x05 w.quals (some w.label)) w r
      (placed r.places r.data)).tag r.row).bad = [] := by
    rw [storeWords, State.moved_tag, State.putWords_tag, State.countLake, State.count_tag, State.spend_bad]
    exact ((s.clean_iff r.row).1 clean).2.2
  rw [State.stored, State.refresh_bad, bad]
  cases State.wMode _ _ <;> rfl

theorem writeRow_clean (w : Who) (whole : Bool) (clean : s.clean r.row = true) (inRow : ∀ i ∈ r.places, i < 8) :
    ∃ t, writeRow s w none whole r = (⟨.ok, []⟩, t) ∧ Work .plain [r.row] s t ∧ t.mem = storeAt s.mem r.row (placed r.places r.data) := by
  obtain ⟨mark, corr, bad⟩ := (s.clean_iff r.row).1 clean
  have stored := State.stored_bad w clean
  have work := s.stored_work w inRow
  let old := s.rowWords r.row
  let t : RowTag := { s.tag r.row with mark := false }
  let ws := placed r.places r.data
  by_cases rmw : (s.wMode r.row && r.splitsCodeword) = true
  · have performed : writeRow s w none whole r = (⟨.ok, []⟩,
        (((s.stored w r).setTag r.row { (s.stored w r).tag r.row with corr := [] }).scheduleWb r.row t (ws.map fun e => (e.1, old.getD e.1 0))
          true).joinGroup none r.row (shoreRank w r.row) old t (ws.map (·.1)) [] true) := by
      rw [State.stored] at stored ⊢
      simp [writeRow, State.before, mark, corr, bad, rmw, stored, t, ws, old]
    exact ⟨_, performed, work.trans ((State.setTag_work _ _ (t := { (s.stored w r).tag r.row with corr := [] }) rfl).trans
      ((State.scheduleWb_work _ _ _ _ _).trans       (State.joinGroup_work _ _ _ _ _ _ _ _))),
      by rw [State.joinGroup_mem, State.scheduleWb_mem, State.setTag_mem, s.stored_mem w]⟩
  · have performed : writeRow s w none whole r = (⟨.ok, []⟩,
        (((s.stored w r).mergeWbs r.row (ws.map (·.1))).inject r.row).joinGroup none r.row (shoreRank w r.row) old t (ws.map (·.1)) [] false) := by
      rw [State.stored]
      simp [writeRow, State.before, mark, rmw, t, ws, old]
    exact ⟨_, performed, work.trans ((State.mergeWbs_work _ _ _).trans ((State.inject_work _ _).trans (State.joinGroup_work _ _ _ _ _ _ _ _))),
      by rw [State.joinGroup_mem, State.inject_mem, State.mergeWbs_mem, s.stored_mem w]⟩

end Sys2Proof.Machine
end

section
/-!
PROOF. The row requests of a READ or a WRITE: each is performed in its pond cycle where its row is ready for it, the row requests of a request are
performed one after another, and the request is answered (R36, R37, R166, R216, R219).
-/
namespace Sys2Proof.Machine

-- One theorem after another: elaborated side by side, these theorems would each hold a thread and its stack.
set_option Elab.async false

/-! ### Row requests by mode (R24, R166, R216, R219) -/

/-- The modes that a READ and a WRITE may have (R24, R235). -/
inductive Suits : Op → Mode → Prop
  | readPlain : Suits .read .plain
  | peek : Suits .read .peek
  | takePeek (k : Nat) : Suits .read (.takePeek k)
  | consume : Suits .read .consume
  | writePlain : Suits .write .plain
  | produce : Suits .write .produce
  | takeWrite (k : Nat) : Suits .write (.takeWrite k)

theorem modeOf_suits (s : State) (n : Nat) {op : Op} (h : op = .read ∨ op = .write) (q : Req) (v : View) : Suits op (modeOf s n op q v) := by
  unfold modeOf
  extract_lets t
  rcases h with rfl | rfl <;> cases v <;> cases t <;> constructor

theorem Suits.reads {op : Op} {m : Mode} (suit : Suits op m) (modal : m ≠ .plain) : m.reads = !decide (op = .write) := by
  cases suit with
  | readPlain | writePlain => exact absurd rfl modal
  | _ => rfl

/-- A STALE slate meets no slated mode. -/
theorem Suits.stale {op : Op} {m : Mode} (suit : Suits op m) (modal : m ≠ .plain) (l : Lake) (r : Nat) : slateMeets l r m .stale = false := by
  cases suit with
  | readPlain | writePlain => exact absurd rfl modal
  | _ => rfl

theorem Suits.foreignLand {op : Op} {m : Mode} (suit : Suits op m) (l : Lake) (r : Nat) : foreignLand l r m = false := by
  cases suit <;> rfl

theorem Suits.notAtomic {op : Op} {m : Mode} (suit : Suits op m) : opIsAtomic op = false := by
  cases suit <;> rfl

theorem Suits.notSolo {op : Op} {m : Mode} (suit : Suits op m) : opSolo op = false := by
  cases suit <;> rfl

/-- The row of a row request is clean, and its slate meets the mode. -/
def State.ready (s : State) (m : Mode) (r : RowReq) : Prop :=
  s.clean r.row = true ∧ (m ≠ .plain → (s.lake (lakeOf r.row)).inMaint (lRow r.row) = false ∧
    slateMeets (s.lake (lakeOf r.row)) (lRow r.row) m (s.slate r.row) = true)

/-- The words that a row request returns. -/
def RowReq.answer (op : Op) (mem : List Host.Cell) (r : RowReq) : List Word :=
  if r.masked then zeros r.n else if op = .write then [] else r.places.map fun i => readWord mem (8 * r.row + i)

/-- Memory after a row request. -/
def RowReq.written (op : Op) (mem : List Host.Cell) (r : RowReq) : List Host.Cell :=
  if r.masked then mem else if op = .write then storeAt mem r.row (placed r.places r.data) else mem

/-- The rows that a row request touches. -/
def RowReq.touched (r : RowReq) : List Nat := if r.masked then [] else [r.row]

/-- A row request that is not masked, by its operation, on a clean row. -/
theorem row_performed {s : State} {r : RowReq} (w : Who) (op : Op) (whole : Bool) (live : r.masked = false) (clean : s.clean r.row = true)
    (inRow : ∀ i ∈ r.places, i < 8) :
    ∃ t, (if op = .write then writeRow s w none whole r else readRow s w none r) = (⟨.ok, RowReq.answer op s.mem r⟩, t) ∧
      Work .plain [r.row] s t ∧ t.mem = RowReq.written op s.mem r := by
  rw [RowReq.answer, RowReq.written, live]
  simp only [Bool.false_eq_true, if_false]
  split
  · exact writeRow_clean w whole clean inRow
  · exact readRow_clean w clean inRow

/-- What a slated access that has been performed does to the slate of its row, the reel of a Spring and the groups (R172, R217, R219). -/
def State.settleMode (s : State) (w : Who) (m : Mode) (row : Nat) (sl : Slate) : State :=
  let s := if m.alone then s.setSlate row (slateAfter m sl) else s
  let s := if m = .produce then s.slotFullBy row w else s
  if m.alone then s.alone row else s

theorem State.slotFull_frame (s : State) (row : Nat) (pr : Principal) (priv : Bool) (label : Nat) (segs : List Seg) :
    ∃ springs reels, s.slotFull row pr priv label segs = { s with springs := springs, reels := reels } := by
  unfold State.slotFull
  extract_lets
  split
  · exact ⟨s.springs, s.reels, rfl⟩
  · exact ⟨_, _, rfl⟩

theorem State.slotFullBy_frame (s : State) (row : Nat) (w : Who) :
    ∃ springs reels, s.slotFullBy row w = { s with springs := springs, reels := reels } := by
  unfold State.slotFullBy
  split
  · extract_lets
    split <;> exact s.slotFull_frame _ _ _ _ _
  · exact s.slotFull_frame _ _ _ _ _

/-- Work of a mode, and then work on the same rows that leaves slates alone. -/
theorem Work.andThen {a b c : State} {m : Mode} {l : List Nat} (h : Work m l a b) (h' : Work .plain l b c) : Work m l a c where
  frame := by
    obtain ⟨_, _, _, _, _, _, _, _, _, rfl⟩ := h.frame
    obtain ⟨m, r, l, w, c, g, x, e, b, rfl⟩ := h'.frame
    exact ⟨m, r, l, w, c, g, x, e, b, rfl⟩
  lake n := by rw [h'.lake n, h.lake n]
  slate r := ((h'.slate r).trans (ite_self _)).trans (h.slate r)
  clean r hr := (h'.clean r hr).trans (h.clean r hr)
  words w hw := (h'.words w hw).trans (h.words w hw)
  group r hr := (h'.group r hr).trans (h.group r hr)
  slots hm := ⟨(h'.slots Mode.noConfusion).1.trans (h.slots hm).1, (h'.slots Mode.noConfusion).2.trans (h.slots hm).2⟩
  accepted hm := (h'.accepted rfl).trans (h.accepted hm)

/-- A produce that fills a command slot changes its Spring and reel as well. -/
theorem Work.slotFullBy {s t : State} {l : List Nat} (h : Work .produce l s t) (row : Nat) (w : Who) : Work .produce l s (t.slotFullBy row w) := by
  obtain ⟨springs, reels, e⟩ := t.slotFullBy_frame row w
  rw [e]
  exact { h with
    frame := by
      obtain ⟨m, r, k, w, c, g, _, _, b, rfl⟩ := h.frame
      exact ⟨m, r, k, w, c, g, springs, reels, b, rfl⟩
    slots := fun hm => absurd rfl hm }

theorem State.settleMode_work (s : State) (w : Who) {op : Op} {m : Mode} (suit : Suits op m) (modal : m ≠ .plain) (row : Nat) :
    Work m [row] s (s.settleMode w m row (s.slate row)) := by
  have same (m : Mode) (keeps : ∀ sl, slateAfter m sl = sl) : Work m [row] s s := Work.mono (.refl m s) (List.nil_subset _) keeps
  have set := s.setSlate_work row (m := m) rfl modal
  have done (u : State) : Work .plain [row] u (u.alone row) := u.alone_work row
  cases suit with
  | readPlain | writePlain => exact absurd rfl modal
  | peek | takePeek => exact same _ fun _ => rfl
  | consume | takeWrite => exact set.andThen (done _)
  | produce => exact (set.slotFullBy row w).andThen (done _)

@[simp] theorem State.settleMode_mem (s : State) (w : Who) (m : Mode) (row : Nat) (sl : Slate) : (s.settleMode w m row sl).mem = s.mem := by
  have set : (if m.alone then s.setSlate row (slateAfter m sl) else s).mem = s.mem := by
    split
    · exact s.setSlate_mem row _
    · rfl
  have filled (u : State) : (if m = .produce then u.slotFullBy row w else u).mem = u.mem := by
    split
    · obtain ⟨_, _, h⟩ := u.slotFullBy_frame row w
      rw [h]
    · rfl
  have alone (u : State) : (if m.alone then u.alone row else u).mem = u.mem := by split <;> rfl
  rw [State.settleMode, alone, filled, set]

/-- A slated row request whose row is clean and FULL, EMPTY or RESERVED as its mode wants is performed (R216). -/
theorem slatedRow_ready {s : State} {r : RowReq} (w : Who) {op : Op} {m : Mode} (suit : Suits op m) (modal : m ≠ .plain)
    (live : r.masked = false) (ready : s.ready m r) (inRow : ∀ i ∈ r.places, i < 8) :
    ∃ t, slatedRow s w none m r = (.done ⟨.ok, RowReq.answer op s.mem r⟩, t) ∧ Work m r.touched s t ∧
      t.mem = RowReq.written op s.mem r := by
  obtain ⟨clean, slated⟩ := ready
  obtain ⟨maint, met⟩ := slated modal
  obtain ⟨mark, -, bad⟩ := (s.clean_iff r.row).1 clean
  obtain ⟨t, performed, work, mem⟩ := row_performed w op true live clean inRow
  have same : t.slate r.row = s.slate r.row := (work.slate r.row).trans (ite_self _)
  have fresh : s.slate r.row ≠ .stale := fun stale => by
    rw [stale, suit.stale modal] at met
    cases met
  have tags : tagsBad (s.wMode r.row) [] = false := by cases s.wMode r.row <;> rfl
  have named : namedBad (s.wMode r.row) [] r.places = false := by simp [namedBad]
  have finished : slatedRow s w none m r = (.done ⟨.ok, RowReq.answer op s.mem r⟩, t.settleMode w m r.row (s.slate r.row)) := by
    have chosen : (if m.reads then readRow s w none r else writeRow s w none true r) = (⟨.ok, RowReq.answer op s.mem r⟩, t) := by
      rw [← performed, suit.reads modal]
      by_cases write : op = .write <;> simp [write]
    unfold slatedRow
    simp only [State.before, maint, suit.foreignLand, mark, bad, tags, named, Bool.or_self, Bool.and_false, Bool.false_and,
      Bool.not_false, Bool.false_eq_true, if_false, fresh, met, Bool.not_true, chosen, decide_true, Bool.true_and, decide_eq_true_eq]
    rfl
  refine ⟨_, finished, ?_, (t.settleMode_mem w m r.row _).trans mem⟩
  rw [RowReq.touched, live, ← same]
  exact work.trans (t.settleMode_work w suit modal r.row)

/-! ### The row requests of a request -/

theorem State.joins_none {s : State} {row : Nat} (h : s.groupOfRow row = none) (joined : Bool) (k : Nat) : s.joins joined row k = none := by
  rw [State.joins, h]
  split <;> rfl

theorem rowAccess_ready {s : State} {r : RowReq} (w : Who) {op : Op} {m : Mode} (suit : Suits op m) (joined : Bool)
    (ready : r.masked = false → s.ready m r) (inRow : ∀ i ∈ r.places, i < 8) (ungrouped : s.groupOfRow r.row = none) :
    ∃ t, rowAccess s w op joined m r = (.done ⟨.ok, r.answer op s.mem⟩, t) ∧ Work m r.touched s t ∧ t.mem = r.written op s.mem := by
  by_cases masked : r.masked = true
  · refine ⟨s.countLake (lakeOf r.row) 0x24 w.quals (some w.label), ?_, ?_, ?_⟩
    · rw [rowAccess, if_pos masked, RowReq.answer, if_pos masked]
    · rw [RowReq.touched, if_pos masked]
      exact s.count_counted m _
    · rw [RowReq.written, if_pos masked]
      exact s.count_mem _
  · have live : r.masked = false := by simpa using masked
    have row : [r.row] = r.touched := by rw [RowReq.touched, if_neg masked]
    rw [rowAccess, if_neg masked]
    simp only [State.joins_none ungrouped]
    by_cases modal : m = .plain
    · obtain ⟨t, performed, done⟩ := row_performed w op false live (ready live).1 inRow
      subst modal
      refine ⟨t, ?_, row ▸ done⟩
      simp only [suit.notAtomic, suit.notSolo, Bool.false_eq_true, if_false, performed]
    · obtain ⟨t, performed, done⟩ := slatedRow_ready w suit modal live (ready live) inRow
      refine ⟨t, ?_, done⟩
      cases suit with
      | readPlain | writePlain => exact absurd rfl modal
      | _ => simp only [performed, opSolo, Bool.false_eq_true, if_false]

theorem partAccess_single {s t : State} {r : RowReq} {w : Who} {op : Op} {m : Mode} {fit : Nat} {ws : List Word} (suit : Suits op m) (q : Req)
    (w0 : Nat) (h : rowAccess s w op (0 < fit) m r = (.done ⟨.ok, ws⟩, t)) : partAccess s w op q w0 m fit [r] = (some (.ok, ws), t) := by
  cases suit <;> simp only [partAccess, rowsAccess, h] <;> simp [RowOut.met, RowOut.res, firstStatus, assemble, Status.rank]

/-- A row request of its own row stays ready through work on others. -/
theorem State.ready.of_work {s t : State} {m m' : Mode} {l : List Nat} {r : RowReq} (h : s.ready m r) (work : Work m' l s t) (other : r.row ∉ l) :
    t.ready m r := by
  refine ⟨(work.clean r.row other).trans h.1, fun modal => ?_⟩
  rw [work.lake, work.slate, if_neg other]
  exact h.2 modal

theorem RowReq.answer_written (op : Op) (mem : List Host.Cell) (r r' : RowReq) : r'.answer op (r.written op mem) = r'.answer op mem := by
  rw [RowReq.answer, RowReq.answer, RowReq.written]
  split
  · rfl
  · split
    · rfl
    · rw [ite_self]

/-- A slated part that is performed is accepted by the waiter table (R89). -/
theorem Work.accept {s t : State} {m : Mode} {l : List Nat} (h : Work m l s t) (pt : RetryPt) (i : Ident) :
    Work m l s (if m = .plain then t else t.backoffClear pt i) := by
  split
  · exact h
  · next slated =>
    exact { h with
      frame := by
        obtain ⟨m, r, k, w, c, g, x, e, _, rfl⟩ := h.frame
        exact ⟨m, r, k, w, c, g, x, e, _, rfl⟩
      accepted := fun plain => absurd plain slated }

/-- The row requests of a request, each of a row of its own, are performed one after another. -/
theorem partsAccess_ready {w : Who} {op : Op} {m : Mode} (suit : Suits op m) (q : Req) (w0 rid : Nat) (rs : List RowReq) :
    ∀ (s : State) (i fit : Nat), (∀ r ∈ rs, r.masked = false → s.ready m r) → (∀ r ∈ rs, ∀ i ∈ r.places, i < 8) →
      (∀ r ∈ rs, s.groupOfRow r.row = none) → (rs.map (·.row)).Nodup →
      ∃ t, partsAccess w op q w0 m rid s i fit (rs.map ([·])) = (rs.map fun r => some (.ok, r.answer op s.mem, 0), t) ∧
        Work m (rs.flatMap RowReq.touched) s t ∧ t.mem = rs.foldl (fun mem r => r.written op mem) s.mem := by
  induction rs with
  | nil => exact fun s _ _ _ _ _ _ => ⟨s, rfl, .refl m s, rfl⟩
  | cons r rs ih =>
    intro s i fit ready inRow ungrouped distinct
    rw [List.map_cons, List.nodup_cons] at distinct
    obtain ⟨a, first, work, mem⟩ := rowAccess_ready w suit (decide (0 < fit)) (ready r (by simp)) (inRow r (by simp)) (ungrouped r (by simp))
    have work := work.accept (.waiters (Fin.ofNat 24 (lakeOf (wordRow w0)))) w.ident
    have kept : (if m = .plain then a else a.backoffClear (.waiters (Fin.ofNat 24 (lakeOf (wordRow w0)))) w.ident).mem = r.written op s.mem := by
      rw [← mem]
      split <;> rfl
    have other (r' : RowReq) (hr' : r' ∈ rs) : r'.row ∉ r.touched := by
      rw [RowReq.touched]
      split
      · exact List.not_mem_nil
      · exact fun k => distinct.1 (List.mem_map.2 ⟨r', hr', List.mem_singleton.1 k⟩)
    obtain ⟨t, rest, work', mem'⟩ := ih _ (i + 1) (fit - 1) (fun r' hr' live => (ready r' (by simp [hr']) live).of_work work (other r' hr'))
      (fun r' hr' => inRow r' (by simp [hr'])) (fun r' hr' => (work.group r'.row (other r' hr')).trans (ungrouped r' (by simp [hr']))) distinct.2
    refine ⟨t, ?_, ?_, ?_⟩
    · rw [kept] at rest
      simp only [RowReq.answer_written] at rest
      simp only [List.map_cons, partsAccess, partAccess_single suit q w0 first, List.length_singleton, rest]
    · rw [List.flatMap_cons]
      refine work.append work' fun x hx hx' => ?_
      obtain ⟨r', hr', touched⟩ := List.mem_flatMap.1 hx'
      have row : x = r'.row := by
        rw [RowReq.touched] at touched
        split at touched
        · cases touched
        · exact List.mem_singleton.1 touched
      exact other r' hr' (row ▸ hx)
    · rw [mem', kept, List.foldl_cons]

/-! ### A request at its ponds (R36 to R42, R216) -/

/-- What a request changes before its pond cycles: its lanes, what is counted, and the cycle in which its ponds answer. It joins no group. -/
def State.Begun (s x : State) : Prop :=
  ∃ arbs cnt ps nextId inPond, x = { s with arbs := arbs, cnt := cnt, group := [], ps := ps, nextId := nextId, inPond := inPond }

theorem State.count_frame (s : State) (o : Occ) : ∃ cnt, s.count o = { s with cnt := cnt } := by
  rw [State.count]
  split
  · exact ⟨s.cnt, rfl⟩
  · exact ⟨_, rfl⟩

theorem State.modArbs_frame (f : State → Arb → Arb) (ks : List Nat) (s : State) :
    ∃ arbs, ks.foldl (fun s k => s.modArb k (f s)) s = { s with arbs := arbs } := by
  induction ks generalizing s with
  | nil => exact ⟨s.arbs, rfl⟩
  | cons k ks ih =>
    obtain ⟨arbs, h⟩ := ih (s.modArb k (f s))
    exact ⟨arbs, h⟩

theorem State.place_begun {s : State} {joins : Bool} (apart : joins = false ∨ s.group = [] ∧ s.ps = ⟨[], []⟩)
    (w : Who) (n : Nat) (op : Op) (m : Mode) (rows : List RowReq) : s.Begun (s.place w n op m joins rows).2 := by
  have fresh : (if joins then s else { s with group := [], ps := ⟨[], []⟩ }) = { s with group := [], ps := ⟨[], []⟩ } := by
    obtain rfl | ⟨group, ps⟩ := apart
    · rfl
    · rw [← group, ← ps]
      split <;> rfl
  unfold State.place
  extract_lets s1 key lanes used0 used beats solo chunk stalls longest all s2 counted s3
  have held : ∃ arbs cnt, s3 = { s2 with arbs := arbs, cnt := cnt } := by
    change ∃ arbs cnt, (if all = 0 then s2 else _) = _
    split
    · exact ⟨s2.arbs, s2.cnt, rfl⟩
    · obtain ⟨c, h⟩ := s2.count_frame { set := .lake, inst := n, ev := 0x0B, quals := w.quals, label := some w.label, n := all }
      obtain ⟨c', h'⟩ := (s2.count _).count_frame { set := .lake, inst := n, ev := 0x12, quals := w.quals, label := some w.label, n := longest }
      have twice : counted = { s2 with cnt := c' } := h'.trans (by rw [h])
      obtain ⟨arbs, held⟩ := State.modArbs_frame (fun x a => { a with holdFrom := x.pw.now + 2, holdTo := x.pw.now + 2 + longest })
        (heldWith key) counted
      exact ⟨arbs, c', held.trans (by rw [twice])⟩
  obtain ⟨arbs, cnt, held⟩ := held
  refine ⟨arbs, cnt, s2.ps, s.nextId, s.inPond, ?_⟩
  have placed : s2 = { s1 with ps := s2.ps } := rfl
  change s3 = _
  rw [held, placed, show s1 = { s with group := [], ps := ⟨[], []⟩ } from fresh]

theorem firstStatus_ok (l : List Status) (h : ∀ st ∈ l, st = .ok) : firstStatus l = .ok := by
  induction l with
  | nil => rfl
  | cons a l ih =>
    rw [firstStatus, h a (by simp), ih fun st hst => h st (by simp [hst])]
    rfl

theorem State.takeOutcome_ok (s : State) (n : Nat) (m : Mode) : s.takeOutcome n m .ok = s := by
  rw [State.takeOutcome]
  split <;> rfl

/-- A request whose row requests, each of a row of its own, find their rows clean and their slates as its mode wants them is performed at once. -/
theorem State.perform_ready {s : State} {w : Who} {op : Op} {m : Mode} {q : Req} {data : List Word} {w0 : Nat} (suit : Suits op m)
    (apart : q.joins = false ∨ s.group = [] ∧ s.ps = ⟨[], []⟩) (rs : List RowReq) (parts : partsOf op q w0 data = rs.map ([·]))
    (ready : ∀ r ∈ rs, r.masked = false → s.ready m r) (inRow : ∀ r ∈ rs, ∀ i ∈ r.places, i < 8) (distinct : (rs.map (·.row)).Nodup) :
    ∃ x t, s.Begun x ∧ Work m (rs.flatMap RowReq.touched) x t ∧ t.mem = rs.foldl (fun mem r => r.written op mem) s.mem ∧
      s.perform w op q data w0 m = t.respond w (some (lakeOf (wordRow w0))) op q data .ok (rs.map fun r => r.answer op s.mem).flatten s.pw.now
        (latencyOf s w op q (lakeOf (wordRow w0)) w0 +
          (s.place w (lakeOf (wordRow w0)) op m q.joins (partsOf op q w0 data).flatten).1.late) 0 := by
  obtain ⟨arbs, cnt, ps, nextId, inPond, placed⟩ := State.place_begun apart w (lakeOf (wordRow w0)) op m (partsOf op q w0 data).flatten
  unfold State.perform
  rw [parts] at placed ⊢
  dsimp only
  generalize s.place w (lakeOf (wordRow w0)) op m q.joins (rs.map ([·])).flatten = pl at placed ⊢
  obtain ⟨p, x⟩ := pl
  subst placed
  dsimp only
  let x : State := ({ s with arbs := arbs, cnt := cnt, group := [], ps := ps, nextId := nextId, inPond := inPond }.claim w).inPonds w
    (lakeOf (wordRow w0)) (s.pw.now + opLatency op (s.lake (lakeOf (wordRow w0))).wMode (wordPlace w0) q.words
      (lanesOf s w (lakeOf (wordRow w0))) + p.late)
  obtain ⟨t, performed, work, mem⟩ := partsAccess_ready (w := w) suit { q with addr := BitVec.ofNat 64 (32 * w0), glob := false } w0 w.id rs x 0
    (if q.joins then p.fit else 0) ready inRow (fun _ _ => rfl) distinct
  refine ⟨x, t, ⟨_, _, _, _, _, rfl⟩, work, mem, ?_⟩
  have now : t.pw.now = s.pw.now := by
    obtain ⟨_, _, _, _, _, _, _, _, _, h⟩ := work.frame
    rw [h]
    rfl
  generalize accessed : partsAccess w op _ w0 m w.id _ 0 _ _ = out
  obtain rfl := accessed.symm.trans performed
  have outcomes : (rs.map fun r => some (Status.ok, r.answer op x.mem, 0)).filterMap id = rs.map fun r => (Status.ok, r.answer op x.mem, 0) := by
    simp [List.filterMap_map]
  have all : (rs.map fun r => some (Status.ok, r.answer op x.mem, 0)).all Option.isSome = true := by simp
  have waits : rs.foldl (fun (b : Nat) _ => max b 0) 0 = 0 := List.foldl_fixed' (fun _ => rfl) rs
  have kept (u : State) : rs.foldl (fun u _ => u.takeOutcome (lakeOf (wordRow w0)) m .ok) u = u :=
    List.foldl_fixed' (fun _ => u.takeOutcome_ok _ m) rs
  dsimp only
  rw [outcomes, if_pos all, List.foldl_map, List.foldl_map, kept, waits, now, firstStatus_ok _ (by simp), List.map_map]
  rfl

/-! ### The row requests of a read or a write (R36, R37, R166) -/

/-- The words of a request in the row of its first word. -/
def firstWords (q : Req) (w0 : Nat) : Nat := min q.words (8 - wordPlace w0)

/-- The row request of the words in the row of the first word. -/
def firstRow (q : Req) (w0 : Nat) (d : List Word) : RowReq :=
  ⟨wordRow w0, List.range' (wordPlace w0) (firstWords q w0), d.take (firstWords q w0), !(q.vbit.getD (true, true)).1⟩

/-- The row request of the words that have gone on into the next row. -/
def nextRow (q : Req) (w0 : Nat) (d : List Word) : RowReq :=
  ⟨wordRow w0 + 1, List.range' 0 (q.words - firstWords q w0), d.drop (firstWords q w0), !(q.vbit.getD (true, true)).2⟩

/-- The row requests of a READ or a WRITE. -/
def rowRequests (q : Req) (w0 : Nat) (d : List Word) : List RowReq :=
  if firstWords q w0 < q.words then [firstRow q w0 d, nextRow q w0 d] else [firstRow q w0 d]

theorem RowReq.answer_read (mem : List Host.Cell) {r : RowReq} {p n a : Nat} (places : r.places = List.range' p n) (start : 8 * r.row + p = a) :
    r.answer .read mem = (List.range n).map fun i => if r.masked then 0 else readWord mem (a + i) := by
  rw [RowReq.answer, RowReq.n, places, if_neg (show ¬Op.read = .write from Op.noConfusion)]
  split
  · simp [zeros]
  · rw [List.range'_eq_map_range, List.map_map]
    exact List.map_congr_left fun i _ => by rw [← start, Function.comp, Nat.add_assoc]

theorem row_place (w : Nat) : 8 * wordRow w + wordPlace w = w := Nat.div_add_mod w 8

section
variable {q : Req} {w0 : Nat} {d : List Word} (count : 1 ≤ q.words ∧ q.words ≤ 8)
include count

omit count in
/-- Words up to the end of the first row, or up to the end of the request and then in the next row. -/
theorem firstWords_cases (q : Req) (w0 : Nat) : (firstWords q w0 = q.words ∧ wordPlace w0 + q.words ≤ 8) ∨
    (firstWords q w0 < q.words ∧ wordPlace w0 + firstWords q w0 = 8) := by
  unfold firstWords wordPlace
  omega

theorem wordRow_first {i : Nat} (h : i < firstWords q w0) : wordRow (w0 + i) = wordRow w0 := by
  unfold firstWords wordPlace at h
  unfold wordRow
  omega

theorem wordRow_next {i : Nat} (h : i < q.words) (h' : ¬ i < firstWords q w0) : wordRow (w0 + i) = wordRow w0 + 1 := by
  unfold firstWords wordPlace at h'
  unfold wordRow
  omega

theorem masks_first {i : Nat} (h : i < firstWords q w0) : masks q w0 (w0 + i) = (firstRow q w0 d).masked := by
  rw [masks, if_pos (wordRow_first count h)]
  rfl

theorem masks_next {i : Nat} (h : i < q.words) (h' : ¬ i < firstWords q w0) : masks q w0 (w0 + i) = (nextRow q w0 d).masked := by
  rw [masks, wordRow_next count h h', if_neg (Nat.succ_ne_self _)]
  rfl

/-- Every row request is of a row of some word of the request. -/
theorem exists_word_of_rowRequest {r : RowReq} (h : r ∈ rowRequests q w0 d) :
    ∃ i < q.words, wordRow (w0 + i) = r.row ∧ masks q w0 (w0 + i) = r.masked := by
  have first : ∃ i < q.words, wordRow (w0 + i) = (firstRow q w0 d).row ∧ masks q w0 (w0 + i) = (firstRow q w0 d).masked := by
    have some_ : 0 < firstWords q w0 := by unfold firstWords wordPlace; omega
    exact ⟨0, by omega, wordRow_first count some_, masks_first count some_⟩
  rw [rowRequests] at h
  split at h
  · next more =>
    rcases List.mem_pair.1 h with rfl | rfl
    · exact first
    · exact ⟨firstWords q w0, more, wordRow_next count more (lt_irrefl _), masks_next count more (lt_irrefl _)⟩
  · exact List.mem_singleton.1 h ▸ first

/-- Every word of the request is in the row of some row request. -/
theorem exists_rowRequest_of_word (d : List Word) {i : Nat} (h : i < q.words) :
    ∃ r ∈ rowRequests q w0 d, r.row = wordRow (w0 + i) ∧ r.masked = masks q w0 (w0 + i) := by
  rw [rowRequests]
  by_cases inFirst : i < firstWords q w0
  · refine ⟨firstRow q w0 d, ?_, (wordRow_first count inFirst).symm, (masks_first count inFirst).symm⟩
    split <;> simp
  · rw [if_pos (lt_of_le_of_lt (not_lt.1 inFirst) h)]
    exact ⟨nextRow q w0 d, by simp, (wordRow_next count h inFirst).symm, (masks_next count h inFirst).symm⟩

theorem rowRequests_inRow : ∀ r ∈ rowRequests q w0 d, ∀ i ∈ r.places, i < 8 := by
  have first : ∀ i ∈ (firstRow q w0 d).places, i < 8 := fun i hi => by
    have := List.mem_range'_1.1 hi
    unfold firstWords wordPlace at this
    omega
  have next : ∀ i ∈ (nextRow q w0 d).places, i < 8 := fun i hi => by
    have := List.mem_range'_1.1 hi
    omega
  intro r hr
  rw [rowRequests] at hr
  split at hr
  · rcases List.mem_pair.1 hr with rfl | rfl
    · exact first
    · exact next
  · exact List.mem_singleton.1 hr ▸ first

omit count in
theorem rowRequests_distinct : ((rowRequests q w0 d).map (·.row)).Nodup := by
  rw [rowRequests]
  split <;> simp [firstRow, nextRow]

/-- The rows that the row requests touch are those of the words that are not masked. -/
theorem mem_touched {x : Nat} : x ∈ (rowRequests q w0 d).flatMap RowReq.touched ↔
    ∃ i < q.words, wordRow (w0 + i) = x ∧ masks q w0 (w0 + i) = false := by
  have touched (r : RowReq) : x ∈ r.touched ↔ r.row = x ∧ r.masked = false := by
    cases masked : r.masked <;> simp [RowReq.touched, masked, eq_comm]
  rw [List.mem_flatMap]
  constructor
  · rintro ⟨r, hr, hx⟩
    obtain ⟨i, hi, row, mask⟩ := exists_word_of_rowRequest count hr
    obtain ⟨row', mask'⟩ := (touched r).1 hx
    exact ⟨i, hi, row.trans row', mask.trans mask'⟩
  · rintro ⟨i, hi, row, mask⟩
    obtain ⟨r, hr, row', mask'⟩ := exists_rowRequest_of_word count d hi
    exact ⟨r, hr, (touched r).2 ⟨row'.trans row, mask'.trans mask⟩⟩

theorem partsOf_rowRequests {op : Op} (h : op = .read ∨ op = .write) : partsOf op q w0 d = (rowRequests q w0 d).map ([·]) := by
  have words : wordsOf op q w0 = List.range' w0 q.words := by
    have offsets : opOffsets op q.words = (List.range q.words).map fun i : Nat => (i : Int) := by rcases h with rfl | rfl <;> rfl
    rw [wordsOf, offsets, List.map_map, List.range'_eq_map_range]
    exact List.map_congr_left fun i _ => by simp; omega
  have first : ((wordsOf op q w0).take (firstWords q w0)).map wordPlace = List.range' (wordPlace w0) (firstWords q w0) := by
    rw [words]
    refine List.ext_getElem (by simp; unfold firstWords; omega) fun i hi _ => ?_
    simp only [List.length_map, List.length_take, List.length_range', lt_min_iff] at hi
    obtain ⟨hi, _⟩ := hi
    simp only [List.getElem_map, List.getElem_take, List.getElem_range', Nat.one_mul]
    unfold firstWords wordPlace at hi
    unfold wordPlace
    omega
  have next : firstWords q w0 < q.words →
      ((wordsOf op q w0).drop (firstWords q w0)).map wordPlace = List.range' 0 (q.words - firstWords q w0) := by
    intro more
    rw [words]
    refine List.ext_getElem (by simp) fun i hi _ => ?_
    simp only [List.length_map, List.length_drop, List.length_range'] at hi
    simp only [List.getElem_map, List.getElem_drop, List.getElem_range', Nat.one_mul]
    unfold firstWords wordPlace at more hi ⊢
    omega
  have parts : partsOf op q w0 d =
      if firstWords q w0 < q.words then
        [[⟨wordRow w0, ((wordsOf op q w0).take (firstWords q w0)).map wordPlace, d.take (firstWords q w0), !(q.vbit.getD (true, true)).1⟩],
         [⟨wordRow w0 + 1, ((wordsOf op q w0).drop (firstWords q w0)).map wordPlace, d.drop (firstWords q w0), !(q.vbit.getD (true, true)).2⟩]]
      else
        [[⟨wordRow w0, ((wordsOf op q w0).take (firstWords q w0)).map wordPlace, d.take (firstWords q w0), !(q.vbit.getD (true, true)).1⟩]] := by
    rcases h with rfl | rfl <;> rfl
  rw [parts, rowRequests, first]
  split
  · next more =>
    rw [next more]
    rfl
  · rfl

/-- The words that a READ is answered with. -/
theorem answers_read (mem : List Host.Cell) : ((rowRequests q w0 d).map fun r => r.answer .read mem).flatten =
    (List.range q.words).map fun i => if masks q w0 (w0 + i) then 0 else readWord mem (w0 + i) := by
  have first : (firstRow q w0 d).answer .read mem =
      (List.range (firstWords q w0)).map fun i => if masks q w0 (w0 + i) then 0 else readWord mem (w0 + i) := by
    rw [RowReq.answer_read mem (a := w0) rfl (row_place w0)]
    exact List.map_congr_left fun i hi => by rw [masks_first count (List.mem_range.1 hi)]
  rw [rowRequests]
  obtain ⟨all, -⟩ | ⟨more, ends⟩ := firstWords_cases q w0
  · rw [if_neg (by omega), List.map_singleton, List.flatten_singleton, first, all]
  · have place := row_place w0
    have next : (nextRow q w0 d).answer .read mem = (List.range (q.words - firstWords q w0)).map fun i =>
        if masks q w0 (w0 + (firstWords q w0 + i)) then 0 else readWord mem (w0 + (firstWords q w0 + i)) := by
      rw [RowReq.answer_read mem (a := w0 + firstWords q w0) rfl (show 8 * (wordRow w0 + 1) + 0 = _ by omega)]
      refine List.map_congr_left fun i hi => ?_
      have := List.mem_range.1 hi
      rw [masks_next (d := d) count (by omega) (by omega), Nat.add_assoc]
    have split : q.words = firstWords q w0 + (q.words - firstWords q w0) := by omega
    conv_rhs => rw [split, List.range_add, List.map_append, List.map_map]
    rw [if_pos more, List.map_cons, List.map_singleton, List.flatten_cons, List.flatten_singleton, first, next]
    rfl

omit count in
/-- A WRITE that masks no row is answered without words. -/
theorem answers_write (mem : List Host.Cell) (unmasked : q.vbit = none) : ((rowRequests q w0 d).map fun r => r.answer .write mem).flatten = [] := by
  rw [rowRequests]
  split <;> simp [RowReq.answer, firstRow, nextRow, unmasked]

/-- What a WRITE that masks no row leaves in memory. -/
theorem readWord_written (mem : List Host.Cell) (unmasked : q.vbit = none) (a : Nat) :
    readWord ((rowRequests q w0 d).foldl (fun mem r => r.written .write mem) mem) a =
      if w0 ≤ a ∧ a < w0 + q.words then d.getD (a - w0) 0 else readWord mem a := by
  have first (mem : List Host.Cell) : (firstRow q w0 d).written .write mem =
      storeAt mem (wordRow w0) (placed (List.range' (wordPlace w0) (firstWords q w0)) (d.take (firstWords q w0))) := by
    simp [RowReq.written, firstRow, unmasked]
  have next (mem : List Host.Cell) : (nextRow q w0 d).written .write mem =
      storeAt mem (wordRow w0 + 1) (placed (List.range' 0 (q.words - firstWords q w0)) (d.drop (firstWords q w0))) := by
    simp [RowReq.written, nextRow, unmasked]
  have place := row_place w0
  rw [rowRequests]
  obtain ⟨all, -⟩ | ⟨more, ends⟩ := firstWords_cases q w0
  · rw [if_neg (by omega), List.foldl_cons, List.foldl_nil, first, readWord_storeAt_placed, place, all]
    split
    · rw [List.getD_eq_getElem?_getD, List.getElem?_take_of_lt (by omega), ← List.getD_eq_getElem?_getD]
    · rfl
  · rw [if_pos more, List.foldl_cons, List.foldl_cons, List.foldl_nil, next, first, readWord_storeAt_placed, readWord_storeAt_placed, place]
    by_cases second : w0 + firstWords q w0 ≤ a
    · rw [if_neg (show ¬(w0 ≤ a ∧ a < w0 + firstWords q w0) by omega)]
      refine if_congr (by omega) ?_ rfl
      rw [List.getD_eq_getElem?_getD, List.getElem?_drop, ← List.getD_eq_getElem?_getD,
        show firstWords q w0 + (a - (8 * (wordRow w0 + 1) + 0)) = a - w0 by omega]
    · rw [if_neg (show ¬(8 * (wordRow w0 + 1) + 0 ≤ a ∧ a < 8 * (wordRow w0 + 1) + 0 + (q.words - firstWords q w0)) by omega)]
      by_cases inside : w0 ≤ a
      · rw [if_pos (by omega), if_pos (by omega), List.getD_eq_getElem?_getD, List.getElem?_take_of_lt (by omega),
          ← List.getD_eq_getElem?_getD]
      · rw [if_neg (by omega), if_neg (by omega)]
end

end Sys2Proof.Machine
end

section
/-!
PROOF. Reads and writes at their lake (O32, O33): a request that passes every check, with room at its lake, is performed at once.
-/
namespace Sys2Proof.Machine

-- One theorem after another: elaborated side by side, these theorems would each hold a thread and its stack.
set_option Elab.async false

/-! ### A request at its lake (R15, R24, R39, R146, R223) -/

theorem leavesLake_of_gateEarly {s : State} {w : Who} {op : Op} {q : Req} {v : View} {n w0 : Nat} (h : gateEarly s w op q v n w0 = .go) :
    leavesLake op q w0 = false := by
  by_contra leaves
  rw [Bool.not_eq_false] at leaves
  simp only [gateEarly, leaves, if_true] at h
  split_ifs at h

theorem opPermitted_of_gateLate {s : State} {w : Who} {op : Op} {q : Req} {v : View} {n w0 : Nat} (h : gateLate s w op q v n w0 = .go) :
    opPermitted op q w0 = true := by
  by_contra refused
  rw [Bool.not_eq_true] at refused
  simp only [gateLate, refused, Bool.not_false, if_true] at h
  split_ifs at h

/-- A permitted READ or WRITE names one word to eight. -/
theorem words_of_opPermitted {op : Op} {q : Req} {w0 : Nat} (kind : op = .read ∨ op = .write) (h : opPermitted op q w0 = true) :
    1 ≤ q.words ∧ q.words ≤ 8 := by
  rcases kind with rfl | rfl <;>
  · simp only [opPermitted, Bool.and_eq_true, decide_eq_true_eq] at h
    exact h.1

/-- A permitted WRITE masks no row. -/
theorem vbit_of_opPermitted {q : Req} {w0 : Nat} (h : opPermitted .write q w0 = true) : q.vbit = none := by
  simp only [opPermitted, Bool.and_eq_true, reduceCtorEq, decide_false, Bool.false_and, Bool.or_false, Option.isNone_iff_eq_none] at h
  exact h.2

/-- The rows of a READ or a WRITE that leaves its lake by no word are of that lake. -/
theorem lakeOf_word {op : Op} {q : Req} {w0 i : Nat} (kind : op = .read ∨ op = .write) (stays : leavesLake op q w0 = false) (h : i < q.words) :
    lakeOf (wordRow (w0 + i)) = lakeOf (wordRow w0) := by
  have offsets : opOffsets op q.words = (List.range q.words).map fun i : Nat => (i : Int) := by rcases kind with rfl | rfl <;> rfl
  rw [leavesLake, offsets, List.any_map, List.any_eq_false] at stays
  have inside := stays i (List.mem_range.2 h)
  simp only [Function.comp, Bool.or_eq_true, decide_eq_true_eq, not_or, not_lt, not_le] at inside
  unfold lakeOf wordRow
  unfold Config.rowsPerLake at inside ⊢
  omega

/-- What a request that reaches its lake has passed. -/
structure Passed (s : State) (w : Who) (op : Op) (q : Req) (v : View) (w0 : Nat) : Prop where
  running : s.running = true
  unit : noUnit s op = false
  wide : widePort s w q = none
  live : s.slotDead q.port = false
  sound : s.err.fatal = false
  aimed : aim s w op q = .word v w0
  on : (s.lp (lakeOf (wordRow w0))).state = .on
  early : gateEarly s (w.ownGlobal s q) op q v (lakeOf (wordRow w0)) w0 = .go
  late : gateLate s (w.ownGlobal s q) op q v (lakeOf (wordRow w0)) w0 = .go

theorem passed_iff {s : State} {w : Who} {op : Op} {q : Req} {v : View} {w0 : Nat} : s.reachesAs w op q v w0 = true ↔ Passed s w op q v w0 := by
  simp only [State.reachesAs, Bool.and_eq_true, Bool.not_eq_true', Option.isNone_iff_eq_none, decide_eq_true_eq]
  exact ⟨fun ⟨⟨⟨⟨⟨⟨⟨⟨a, b⟩, c⟩, d⟩, e⟩, f⟩, g⟩, h⟩, i⟩ => ⟨a, b, c, d, e, f, g, h, i⟩,
    fun ⟨a, b, c, d, e, f, g, h, i⟩ => ⟨⟨⟨⟨⟨⟨⟨⟨a, b⟩, c⟩, d⟩, e⟩, f⟩, g⟩, h⟩, i⟩⟩

theorem State.running_iff (s : State) : s.running = true ↔ s.pw.deep = 0 ∧ s.draining = false ∧ s.tm.ready = true ∧ s.pw.logOk = true := by
  simp only [State.running, Bool.and_eq_true, Bool.not_eq_true', decide_eq_true_eq, and_assoc]

theorem Who.ownGlobal_ident (w : Who) (s : State) (q : Req) : (w.ownGlobal s q).ident = w.ident := by
  unfold Who.ownGlobal
  split <;> rfl

/-- A request that passes every check, and is no write from another die, takes its pond cycles at its lake. -/
theorem presentBy_passed {s : State} {u w : Who} {op : Op} {q : Req} {v : View} {w0 : Nat} (d : List Word) (now : { u with granted := s.pw.now } = w)
    (h : Passed s w op q v w0) (here : ((w.ownGlobal s q).arrival.isSome && opWrites op) = false) :
    presentBy u op q d s = s.startAccess (w.ownGlobal s q) op q d (lakeOf (wordRow w0)) w0
      (modeOf s (lakeOf (wordRow w0)) op q v) := by
  obtain ⟨deep, draining, ready, supplied⟩ := s.running_iff.1 h.running
  have atLake : s.atLake (w.ownGlobal s q) op q d v w0 false =
      s.startAccess (w.ownGlobal s q) op q d (lakeOf (wordRow w0)) w0
        (modeOf s (lakeOf (wordRow w0)) op q v) := by
    simp only [State.atLake, h.early, here, Bool.false_and, Bool.false_eq_true, if_false, h.on, reduceCtorEq, h.late]
  rw [← atLake]
  simp only [presentBy, now, State.absentNow, deep, draining, ready, supplied, h.unit, State.dispatch, h.aimed, h.wide, h.live, h.sound,
    bne_self_eq_false, Bool.or_self, Bool.not_true, Bool.false_eq_true, if_false]

/-- A request that waits for no slate, or whose lake has room for a waiter, is not turned away. -/
theorem State.startAccess_room {s : State} {w : Who} {op : Op} {q : Req} {n w0 : Nat} {m : Mode} (d : List Word)
    (room : m = .plain ∨ s.early (.waiters (Fin.ofNat 24 n)) w.ident = none ∧ (s.lake n).waiters.length < 64) :
    s.startAccess w op q d n w0 m = s.perform w op q d w0 m := by
  unfold State.startAccess
  obtain rfl | ⟨early, free⟩ := room
  · simp
  · dsimp only
    rw [early, if_neg (not_le.2 free)]
    exact ite_self _

/-- A READ or WRITE that passes every check, with room at its lake, on rows that are ready for it, is performed at once. -/
theorem presentBy_ready {s : State} {u w : Who} {op : Op} {q : Req} {v : View} {w0 : Nat} (d : List Word)
    (now : { u with granted := s.pw.now } = w) (kind : op = .read ∨ op = .write)
    (h : Passed s w op q v w0) (here : ((w.ownGlobal s q).arrival.isSome && opWrites op) = false)
    (apart : q.joins = false ∨ s.group = [] ∧ s.ps = ⟨[], []⟩) :
    let n := lakeOf (wordRow w0)
    let m := modeOf s n op q v
    (room : m = .plain ∨ s.early (.waiters (Fin.ofNat 24 n)) w.ident = none ∧ (s.lake n).waiters.length < 64) →
    (ready : ∀ i < q.words, masks q w0 (w0 + i) = false → s.clean (wordRow (w0 + i)) = true ∧
      (m ≠ .plain → (s.lake n).inMaint (lRow (wordRow (w0 + i))) = false ∧
        slateMeets (s.lake n) (lRow (wordRow (w0 + i))) m (s.slate (wordRow (w0 + i))) = true)) →
    ∃ x t, s.Begun x ∧ Work m ((rowRequests q w0 d).flatMap RowReq.touched) x t ∧
      t.mem = (rowRequests q w0 d).foldl (fun mem r => r.written op mem) s.mem ∧
      presentBy u op q d s = t.respond (w.ownGlobal s q) (some n) op q d .ok
        ((rowRequests q w0 d).map fun r => r.answer op s.mem).flatten s.pw.now
        (latencyOf s (w.ownGlobal s q) op q n w0 +
          (s.place (w.ownGlobal s q) n op m q.joins (partsOf op q w0 d).flatten).1.late) 0 := by
  intro n m room ready
  have count := words_of_opPermitted kind (opPermitted_of_gateLate h.late)
  have stays := leavesLake_of_gateEarly h.early
  have ready : ∀ r ∈ rowRequests q w0 d, r.masked = false → s.ready m r := fun r hr live => by
    obtain ⟨i, hi, row, mask⟩ := exists_word_of_rowRequest count hr
    obtain ⟨clean, slated⟩ := ready i hi (mask.trans live)
    rw [State.ready, ← row, lakeOf_word kind stays hi]
    exact ⟨clean, slated⟩
  obtain ⟨x, t, begun, work, mem, performed⟩ := State.perform_ready (w := w.ownGlobal s q) (data := d) (w0 := w0)
    (modeOf_suits s n kind q v) apart (rowRequests q w0 d) (partsOf_rowRequests count kind) ready (rowRequests_inRow count) rowRequests_distinct
  refine ⟨x, t, begun, work, mem, ?_⟩
  rw [presentBy_passed d now h here, State.startAccess_room d (by rw [w.ownGlobal_ident]; exact room), performed]

/-! ### The statements -/

theorem modeOf_data (s : State) (n : Nat) {op : Op} (kind : op = .read ∨ op = .write) (q : Req) : modeOf s n op q .data = .plain := by
  unfold modeOf
  rcases kind with rfl | rfl <;> rfl

/-- A slated READ wants its row FULL, whatever take it names. -/
theorem slateMeets_read {s : State} {n : Nat} {q : Req} {v : View} {l : Lake} {r : Nat} (full : v ≠ .data → sl = .full) :
    slateMeets l r (modeOf s n .read q v) sl = true := by
  unfold modeOf
  extract_lets t
  cases v <;> cases t <;> simp_all [slateMeets]

/-- A READ leaves the slate of a row alone, but for a consume. -/
theorem slateAfter_read (s : State) (n : Nat) (q : Req) (v : View) (sl : Slate) :
    slateAfter (modeOf s n .read q v) sl = if v = .pc then .empty else sl := by
  unfold modeOf
  extract_lets t
  cases v <;> cases t <;> rfl

theorem modeOf_read_ne_produce (s : State) (n : Nat) (q : Req) (v : View) : modeOf s n .read q v ≠ .produce := by
  unfold modeOf
  extract_lets t
  cases v <;> cases t <;> exact Mode.noConfusion

theorem written_read (mem : List Host.Cell) (rs : List RowReq) : rs.foldl (fun mem r => r.written .read mem) mem = mem :=
  List.foldl_fixed' (fun r => by rw [RowReq.written, if_neg (show ¬Op.read = .write from Op.noConfusion), ite_self]) rs

theorem Passed.of_serves {s : State} {op : Op} {q : Req} {v : View} {w0 : Nat} (h : s.serves op q v w0 = true) :
    Passed s (s.issuer q) op q v w0 ∧ (((s.issuer q).ownGlobal s q).arrival.isSome && opWrites op) = false := by
  simpa only [State.serves, State.reaches, State.caller, Bool.and_eq_true, Bool.not_eq_true', passed_iff] using h

theorem State.apart_iff (s : State) (q : Req) : s.apart q = true ↔ q.joins = false ∨ s.group = [] ∧ s.ps = ⟨[], []⟩ := by
  simp only [State.apart, Bool.or_eq_true, Bool.not_eq_true', Bool.and_eq_true, decide_eq_true_eq]

/-- Room for a waiter at its lake, or a request that waits for no slate. -/
theorem State.room_cases {s : State} {q : Req} {op : Op} {v : View} {n : Nat} (kind : op = .read ∨ op = .write) (h : s.room q v n = true) :
    modeOf s n op q v = .plain ∨
      s.early (.waiters (Fin.ofNat 24 n)) (s.issuer q).ident = none ∧ (s.lake n).waiters.length < 64 := by
  have ident : (s.issuer q).ident = (whoOf s q.port).ident := by
    unfold State.issuer Who.budget
    split <;> rfl
  rw [State.room, Bool.or_eq_true, Bool.and_eq_true, decide_eq_true_eq, decide_eq_true_eq, Option.isNone_iff_eq_none, ← ident] at h
  refine h.imp_left fun data => ?_
  rw [data]
  exact modeOf_data s n kind q

theorem State.readable_iff {s : State} {v : View} {row : Nat} : s.readable v row = true ↔
    s.clean row = true ∧ (v ≠ .data → s.slate row = .full ∧ (s.lake (lakeOf row)).inMaint (lRow row) = false) := by
  by_cases data : v = .data <;> simp [State.readable, data]

/-- Settles O32: the row requests of the read, each of a row that is ready for it, are performed one after another. -/
theorem readsAnswered : Obligations.ReadsAnswered := by
  intro s q v w0 serves apart room readable
  obtain ⟨passed, here⟩ := Passed.of_serves serves
  have count := words_of_opPermitted (.inl rfl) (opPermitted_of_gateLate passed.late)
  have lakes (i : Nat) := lakeOf_word (i := i) (.inl rfl) (leavesLake_of_gateEarly passed.early)
  obtain ⟨x, t, ⟨arbs, cnt, ps, nextId, inPond, rfl⟩, work, mem, performed⟩ := presentBy_ready [] rfl (.inl rfl) passed here
    ((s.apart_iff q).1 apart)
    (State.room_cases (.inl rfl) room) fun i hi live => by
      obtain ⟨clean, slated⟩ := s.readable_iff.1 (readable i hi live)
      refine ⟨clean, fun modal => ?_⟩
      have view : v ≠ .data := fun data => modal (data ▸ modeOf_data s _ (.inl rfl) q)
      rw [← lakes i hi]
      exact ⟨(slated view).2, slateMeets_read fun _ => (slated view).1⟩
  refine ⟨t, fun c hc => ?_, fun r => ?_, ?_⟩
  · have run : exec c s = .next (present .read q [] s) := by
      simp only [List.mem_cons, List.not_mem_nil, or_false] at hc
      rcases hc with rfl | rfl | rfl | rfl | rfl <;> rfl
    rw [run, present, performed, answers_read count]
    rfl
  · refine (work.slate r).trans ?_
    change (if r ∈ _ then slateAfter _ (s.slate r) else s.slate r) = _
    simp only [slateAfter_read, mem_touched count]
    by_cases view : v = .pc
    · simp only [view, if_true, true_and]
    · simp only [view, if_false, false_and, ite_self]
  · obtain ⟨_, rows, lakes, weir, cnt, group, _, _, backoff, frame⟩ := work.frame
    obtain ⟨springs, reels⟩ := work.slots (modeOf_read_ne_produce s _ q v)
    rw [written_read] at mem
    subst frame
    cases mem
    cases springs
    cases reels
    rfl

theorem masks_none {q : Req} (unmasked : q.vbit = none) (w0 w : Nat) : masks q w0 w = false := by
  rw [masks, unmasked]
  exact ite_self _

/-- Settles O33: the row requests of the write, each of a row that is ready for it, store their words one after another. -/
theorem writesStored : Obligations.WritesStored := by
  intro s q v w0 d serves apart n m room ready
  obtain ⟨passed, here⟩ := Passed.of_serves serves
  have permitted := opPermitted_of_gateLate passed.late
  have count := words_of_opPermitted (.inr rfl) permitted
  have unmasked := vbit_of_opPermitted permitted
  obtain ⟨x, t, ⟨arbs, cnt, ps, nextId, inPond, rfl⟩, work, mem, performed⟩ := presentBy_ready d rfl (.inr rfl) passed here
    ((s.apart_iff q).1 apart)
    (State.room_cases (.inr rfl) room) fun i hi _ => ready i hi
  refine ⟨t, fun c hc => ?_, fun a => ?_, fun r => ?_, ?_⟩
  · have run : exec c s = .next (present .write q d s) := by
      simp only [List.mem_cons, List.not_mem_nil, or_false] at hc
      rcases hc with rfl | rfl | rfl | rfl <;> rfl
    rw [run, present, performed, answers_write _ unmasked]
    rfl
  · rw [mem, readWord_written count s.mem unmasked]
  · refine (work.slate r).trans ?_
    change (if r ∈ _ then slateAfter _ (s.slate r) else s.slate r) = _
    simp only [mem_touched count, masks_none unmasked, and_true]
    rfl
  · obtain ⟨_, rows, lakes, weir, cnt, group, _, _, backoff, rfl⟩ := work.frame
    rfl

end Sys2Proof.Machine
end

section
/-!
PROOF. The host window (O38): words and their bytes, the request that the host stop makes of a TLP inside one row, and what the stop presents
again.
-/
namespace Sys2Proof.Machine

-- One theorem after another: elaborated side by side, these theorems would each hold a thread and its stack.
set_option Elab.async false

/-! ### Words and their bytes (R29) -/

theorem ofBytes_lt (bs : List Byte) : ofBytes bs < 256 ^ bs.length := by
  induction bs with
  | nil => exact Nat.one_pos
  | cons b bs ih =>
    have := b.isLt
    have unfolded : ofBytes (b :: bs) = b.toNat + 256 * ofBytes bs := rfl
    rw [unfolded, List.length_cons, Nat.pow_succ]
    omega

/-- The byte at a place of a number made of bytes. -/
theorem ofBytes_digit (bs : List Byte) (i : Nat) (h : i < bs.length) : ofBytes bs / 256 ^ i % 256 = bs[i].toNat := by
  induction bs generalizing i with
  | nil => exact absurd h (Nat.not_lt_zero i)
  | cons b bs ih =>
    have := b.isLt
    have unfolded : ofBytes (b :: bs) = b.toNat + 256 * ofBytes bs := rfl
    cases i with
    | zero =>
      rw [unfolded, List.getElem_cons_zero]
      omega
    | succ i =>
      rw [List.getElem_cons_succ, ← ih i (Nat.lt_of_succ_lt_succ h), Nat.pow_succ', ← Nat.div_div_eq_div_mul, unfolded,
        show (b.toNat + 256 * ofBytes bs) / 256 = ofBytes bs by omega]

/-- The bytes of a word made of 32 bytes. -/
theorem wordBytes_ofBytes {bs : List Byte} (h : bs.length = 32) : wordBytes (BitVec.ofNat 256 (ofBytes bs)) = bs := by
  refine List.ext_getElem (by simp [wordBytes, h]) fun i hi hi' => ?_
  have small : ofBytes bs < 2 ^ 256 := lt_of_lt_of_eq (ofBytes_lt bs) (by rw [h]; rfl)
  have digit := ofBytes_digit bs i hi'
  simp only [wordBytes, bits, List.getElem_map, List.getElem_range, BitVec.toNat_ofNat, Nat.mod_eq_of_lt small, Nat.shiftRight_eq_div_pow]
  rw [show 2 ^ (8 * i) = 256 ^ i by rw [Nat.pow_mul], show 2 ^ 8 = 256 from rfl, digit]
  exact BitVec.ofNat_toNat 8 _

theorem wordFrom_ofBytes (m : List Host.Cell) (a k : Nat) : wordFrom m a k = ofBytes ((List.range' a k).map (readByte m)) := by
  induction k generalizing a with
  | zero => rfl
  | succ k ih =>
    rw [wordFrom, ih]
    rfl

theorem wordBytes_readWord (m : List Host.Cell) (w : Nat) : wordBytes (readWord m w) = (List.range' (32 * w) 32).map (readByte m) := by
  rw [readWord, wordFrom_ofBytes]
  exact wordBytes_ofBytes (by simp)

/-- A byte is the byte of its word. -/
theorem readByte_of_readWord {m m' : List Host.Cell} {a : Nat} (h : readWord m (a / 32) = readWord m' (a / 32)) : readByte m a = readByte m' a := by
  have bytes : (List.range' (32 * (a / 32)) 32).map (readByte m) = (List.range' (32 * (a / 32)) 32).map (readByte m') := by
    rw [← wordBytes_readWord, ← wordBytes_readWord, h]
  exact List.map_inj_left.1 bytes a (List.mem_range'_1.2 (by omega))

/-- Rows of 32 make one list. -/
theorem flatten_rows {α : Type} (f : Nat → α) (k : Nat) :
    ((List.range k).map fun i => (List.range 32).map fun j => f (32 * i + j)).flatten = (List.range (32 * k)).map f := by
  induction k with
  | zero => rfl
  | succ k ih =>
    rw [List.range_succ (n := k), List.map_append, List.flatten_append, ih, Nat.mul_succ, List.range_add, List.map_append, List.map_map,
      List.map_singleton, List.flatten_singleton]
    rfl

theorem wordBytes_rows (m : List Host.Cell) (w k : Nat) :
    (((List.range k).map fun i => readWord m (w + i)).map wordBytes).flatten = (List.range (32 * k)).map fun j => readByte m (32 * w + j) := by
  rw [← flatten_rows fun j => readByte m (32 * w + j), List.map_map]
  refine congrArg List.flatten (List.map_congr_left fun i _ => ?_)
  rw [Function.comp, wordBytes_readWord, List.range'_eq_map_range, List.map_map]
  exact List.map_congr_left fun j _ => by rw [Function.comp, Nat.mul_add, Nat.add_assoc]

/-- The bytes of memory among those of the words that hold them. -/
theorem State.bytesAt_words (s : State) {a n w k : Nat} (first : 32 * w ≤ a) (last : a + n ≤ 32 * (w + k)) :
    ((((List.range k).map fun i => readWord s.mem (w + i)).map wordBytes).flatten.drop (a - 32 * w)).take n = s.bytesAt a n := by
  rw [wordBytes_rows]
  refine List.ext_getElem (by simp [State.bytesAt]; omega) fun i hi hi' => ?_
  simp only [State.bytesAt, List.getElem_take, List.getElem_drop, List.getElem_map, List.getElem_range]
  congr 1
  omega

/-! ### Requests of the host stop (R29, R30, R261) -/

theorem Passed.numbered {s : State} {w : Who} {op : Op} {q : Req} {v : View} {w0 : Nat} (h : Passed s w op q v w0) (k : Nat) :
    Passed { s with nextId := k } w op q v w0 :=
  ⟨h.running, h.unit, h.wide, h.live, h.sound, h.aimed, h.on, h.early, h.late⟩

/-- What the rows of a data-view access change, with what a request changes before them and the budgets that its answer reckons with. -/
def State.Accessed (s t : State) : Prop :=
  (∀ r, t.slate r = s.slate r) ∧ t = { s with
    lakes := t.lakes, rows := t.rows, mem := t.mem, arbs := t.arbs, weir := t.weir, cnt := t.cnt, group := t.group, ps := t.ps, inPond := t.inPond
    nextId := t.nextId }

theorem State.Accessed.same {s t : State} (h : s.Accessed t) :
    t.out = s.out ∧ t.hostRetry = s.hostRetry ∧ t.hostReads = s.hostReads ∧ t.pw = s.pw ∧ t.fresh = s.fresh := by
  rw [h.2]
  exact ⟨rfl, rfl, rfl, rfl, rfl⟩

theorem State.Begun.accessed {s x t : State} {l : List Nat} (begun : s.Begun x) (work : Work .plain l x t) (weir : Weir) :
    s.Accessed { t with weir := weir } := by
  obtain ⟨_, _, _, _, _, rfl⟩ := begun
  refine ⟨fun r => (work.slate r).trans (ite_self _), ?_⟩
  obtain ⟨springs, reels⟩ := work.slots Mode.noConfusion
  have backoff := work.accepted rfl
  obtain ⟨_, _, _, _, _, _, _, _, _, rfl⟩ := work.frame
  cases springs
  cases reels
  cases backoff
  rfl

section
variable (s : State) (w : Who) (dst : Option Nat) (op : Op) {q : Req} {np : Bool} (d data : List Word) (from_ lat : Nat) (port : q.port = .host np)
include port

/-- A posted write that is performed has no completion. -/
theorem State.respond_posted (posted : q.posted = true) : ∃ weir, s.respond w dst op q d .ok data from_ lat 0 = { s with weir := weir } := by
  obtain ⟨weir, h⟩ := s.deadlines_frame w op true (dst.map Config.lakePos) (from_ + lat)
  refine ⟨weir, ?_⟩
  unfold State.respond
  rw [port]
  simp only [h, posted]
  rfl

/-- A host request that is performed has one completion, where none of the stop's reads is in pieces. -/
theorem State.respond_completed {a n : Nat} (posted : q.posted = false) (bytes : q.bytes = some (a, n)) (reads : s.hostReads = []) :
    ∃ weir, s.respond w dst op q d .ok data from_ lat 0 =
      ({ s with weir := weir } : State).emit (.cpl q.tag false false false (((data.map wordBytes).flatten.drop a).take n)) := by
  obtain ⟨weir, h⟩ := s.deadlines_frame w op true (dst.map Config.lakePos) (from_ + lat)
  refine ⟨weir, ?_⟩
  unfold State.respond
  rw [port]
  simp only [h, State.hostCpl, reads, posted, bytes]
  rfl

end

section
variable {s : State} {w : Who} {q : Req} {w0 : Nat} {np : Bool} (port : q.port = .host np) (alone : q.joins = false)
include port alone

/-- A host read of ready rows, where no other read is in pieces, is answered with the bytes it names. -/
theorem hostRead_performed {a n : Nat} (passed : Passed s { w with granted := s.pw.now } .read q .data w0) (reads : s.hostReads = [])
    (bytes : q.bytes = some (a, n)) (posted : q.posted = false)
    (clean : ∀ i < q.words, masks q w0 (w0 + i) = false ∧ s.clean (wordRow (w0 + i)) = true) :
    ∃ t, s.Accessed t ∧ t.mem = s.mem ∧ presentBy w .read q [] s = t.emit (.cpl q.tag false false false
      (((((List.range q.words).map fun i => readWord s.mem (w0 + i)).map wordBytes).flatten.drop a).take n)) := by
  have count := words_of_opPermitted (.inl rfl) (opPermitted_of_gateLate passed.late)
  have plain := modeOf_data s (lakeOf (wordRow w0)) (.inl rfl : Op.read = .read ∨ Op.read = .write) q
  obtain ⟨x, t, begun, work, mem, performed⟩ := presentBy_ready [] rfl (.inl rfl) passed (Bool.and_false _) (.inl alone) (.inl plain)
    fun i hi _ => ⟨(clean i hi).2, fun modal => absurd plain modal⟩
  rw [plain] at work
  have words : ((List.range q.words).map fun i => if masks q w0 (w0 + i) then 0 else readWord s.mem (w0 + i)) =
      (List.range q.words).map fun i => readWord s.mem (w0 + i) :=
    List.map_congr_left fun i hi => by rw [(clean i (List.mem_range.1 hi)).1]; rfl
  obtain ⟨-, -, same, -⟩ := (begun.accessed work t.weir).same
  obtain ⟨weir, responds⟩ := t.respond_completed (({ w with granted := s.pw.now } : Who).ownGlobal s q) (some (lakeOf (wordRow w0))) .read []
    ((List.range q.words).map fun i => readWord s.mem (w0 + i)) s.pw.now _ port posted bytes (same.trans reads)
  refine ⟨{ t with weir := weir }, begun.accessed work weir, mem.trans (written_read _ _), ?_⟩
  rw [performed, answers_read count, words, responds]

/-- A posted write of the host on ready rows is stored, and has no completion. -/
theorem hostWrite_performed {d : List Word} (passed : Passed s { w with granted := s.pw.now } .write q .data w0)
    (posted : q.posted = true) (here : (({ w with granted := s.pw.now } : Who).ownGlobal s q).arrival = none)
    (clean : ∀ i < q.words, s.clean (wordRow (w0 + i)) = true) :
    s.Accessed (presentBy w .write q d s) ∧
      ∀ a, readWord (presentBy w .write q d s).mem a = if w0 ≤ a ∧ a < w0 + q.words then d.getD (a - w0) 0 else readWord s.mem a := by
  have permitted := opPermitted_of_gateLate passed.late
  have count := words_of_opPermitted (.inr rfl) permitted
  have plain := modeOf_data s (lakeOf (wordRow w0)) (.inr rfl : Op.write = .read ∨ Op.write = .write) q
  obtain ⟨x, t, begun, work, mem, performed⟩ := presentBy_ready d rfl (.inr rfl) passed (by rw [here]; rfl) (.inl alone) (.inl plain)
    fun i hi _ => ⟨clean i hi, fun modal => absurd plain modal⟩
  rw [plain] at work
  obtain ⟨weir, responds⟩ := t.respond_posted (({ w with granted := s.pw.now } : Who).ownGlobal s q) (some (lakeOf (wordRow w0))) .write d
    ((rowRequests q w0 d).map fun r => r.answer .write s.mem).flatten s.pw.now _ port posted
  have stored : presentBy w .write q d s = { t with weir := weir } := by
    rw [performed, responds]
  rw [stored]
  refine ⟨begun.accessed work weir, fun a => ?_⟩
  change readWord t.mem a = _
  rw [mem, readWord_written count s.mem (vbit_of_opPermitted permitted)]

end

theorem tlpMay_clear {s : State} {earlier : List HostTlp} (held : earlier = []) (out : postedOut s = []) (t : HostTlp) :
    tlpMay s earlier t = true := by
  rw [tlpMay, held, out]
  cases t.posted <;> simp

theorem State.wakeDeep_running {s : State} (deep : s.pw.deep = 0) : s.wakeDeep = s := by
  rw [State.wakeDeep, deep]
  rfl

theorem State.hostClear_iff (s : State) : s.hostClear = true ↔ s.hostHeld = [] ∧ s.hostReads = [] ∧ postedOut s = [] := by
  simp only [State.hostClear, Bool.and_eq_true, decide_eq_true_eq, and_assoc]

/-- A TLP of one request, where nothing is held at the host stop, is presented at once. -/
theorem State.takeTlp_clear {s : State} (clear : s.hostClear = true) (deep : s.pw.deep = 0) (ro posted : Bool) (op : Op) (q : Req) (d : List Word)
    (p : Port) : s.takeTlp ⟨ro, posted, [.access op q d 0 (whoOf s p) none 4]⟩ =
      presentBy (whoOf s p) op { q with joins := false } d { s with nextId := s.nextId + 1 } := by
  obtain ⟨held, -, out⟩ := s.hostClear_iff.1 clear
  have out : postedOut { s with nextId := s.nextId + 1 } = [] := out
  unfold State.takeTlp
  rw [State.wakeDeep_running deep]
  exact if_pos (tlpMay_clear held out _)

/-- Time that passes to a T-cycle is seen in what it counts, in the lakes' tokens and in the flags of descriptors. -/
theorem State.reach_frame (s : State) (at_ : Nat) :
    ∃ cnt lakes springs pw, s.reach at_ = { s with cnt := cnt, lakes := lakes, springs := springs, pw := pw } ∧ at_ ≤ pw.now := by
  have counted (dt : Nat) : ∃ cnt, s.countLevels dt = { s with cnt := cnt } := by
    rw [State.countLevels]
    split
    · exact ⟨s.cnt, rfl⟩
    · exact ⟨_, rfl⟩
  have filled (u : State) (dt : Nat) : ∃ lakes, u.refill dt = { u with lakes := lakes } := by
    rw [State.refill]
    split
    · exact ⟨u.lakes, rfl⟩
    · exact ⟨_, rfl⟩
  unfold State.reach
  split
  · next reached => exact ⟨s.cnt, s.lakes, s.springs, s.pw, rfl, reached⟩
  · obtain ⟨cnt, h⟩ := counted (at_ - s.pw.now)
    obtain ⟨lakes, h'⟩ := filled { s with cnt := cnt } (at_ - s.pw.now)
    rw [State.elapse, h, h']
    exact ⟨_, _, _, _, rfl, show at_ ≤ s.pw.now + (at_ - s.pw.now) by omega⟩

/-! ### TLPs inside one row (R29) -/

/-- A TLP inside one row is one piece. -/
theorem rowPieces_row {a len : Nat} (some_ : 0 < len) (row : a / 256 = (a + len - 1) / 256) :
    rowPieces a len = [(a / 32, (a + len - 1) / 32 - a / 32 + 1)] := by
  have one : (a + len - 1) / 32 / 8 - a / 32 / 8 + 1 = 1 := by omega
  unfold rowPieces
  rw [Nat.max_eq_left some_]
  simp only [one, List.range_one, List.map_singleton, Nat.add_zero]
  rw [Nat.max_eq_left (by omega), Nat.min_eq_left (by omega)]

theorem readPart_row (w : Who) (t : Tlp) (some_ : 0 < t.len) :
    readPart w t (t.addr / 32, (t.addr + t.len - 1) / 32 - t.addr / 32 + 1) =
      .access .read (hostReq t (t.addr / 32) ((t.addr + t.len - 1) / 32 - t.addr / 32 + 1) (some (t.addr - 32 * (t.addr / 32), t.len)) false) [] 0 w
        none 4 := by
  unfold readPart hostReq
  dsimp only
  rw [Nat.max_eq_left (by omega), Nat.min_eq_left (by omega), show t.addr + t.len - t.addr = t.len by omega]

/-- The bytes of a word that a write of whole words covers. -/
theorem enabledIn_whole {t : Tlp} {d : List Byte} (length : d.length = t.len) (start : t.addr % 32 = 0) {i : Nat} (h : 32 * i + 32 ≤ t.len) :
    enabledIn t (d.map some) (t.addr / 32 + i) = (List.range 32).map fun j => d.getD (32 * i + j) 0 := by
  rw [enabledIn, ← List.filterMap_eq_map (f := fun j => d.getD (32 * i + j) 0)]
  refine List.filterMap_congr fun j hj => ?_
  have := List.mem_range.1 hj
  have place : 32 * (t.addr / 32 + i) + j - t.addr = 32 * i + j := by omega
  rw [if_neg (by omega), place, List.getD_eq_getElem _ _ (by rw [List.length_map]; omega), List.getElem_map, Function.comp,
    List.getD_eq_getElem _ _ (by omega)]

/-- A write inside a word that does not cover it enables some of its bytes and not all. -/
theorem enabledIn_part {t : Tlp} {d : List Byte} (length : d.length = t.len) (some_ : 0 < t.len) (one : t.addr / 32 = (t.addr + t.len - 1) / 32)
    (part : t.len < 32) : (enabledIn t (d.map some) (t.addr / 32)).length ≠ 0 ∧ (enabledIn t (d.map some) (t.addr / 32)).length ≠ 32 := by
  rw [enabledIn, List.length_filterMap_eq_countP]
  constructor
  · refine (List.countP_pos_iff.2 ⟨t.addr % 32, List.mem_range.2 (by omega), ?_⟩).ne'
    rw [if_neg (by omega), List.getD_eq_getElem _ _ (by rw [List.length_map]; omega), List.getElem_map]
    rfl
  · intro all
    have enabled := List.countP_eq_length.1 (all.trans List.length_range.symm)
    by_cases start : t.addr % 32 = 0
    · have after := enabled t.len (List.mem_range.2 part)
      rw [if_neg (by omega), List.getD_eq_default _ _ (by rw [List.length_map]; omega)] at after
      cases after
    · have before := enabled 0 (List.mem_range.2 (by omega))
      rw [if_pos (by omega)] at before
      cases before

/-! ### Writes of whole words (R29) -/

/-- The 32 bytes of word `i` of a write's data. -/
def sliceOf (d : List Byte) (i : Nat) : List Byte := (List.range 32).map fun j => d.getD (32 * i + j) 0

/-- The first `k` words of a write's data. -/
def slicedWords (d : List Byte) (k : Nat) : List Word := (List.range k).map fun i => BitVec.ofNat 256 (ofBytes (sliceOf d i))

theorem sliceOf_length (d : List Byte) (i : Nat) : (sliceOf d i).length = 32 := by
  simp [sliceOf]

/-- Memory that holds the words of a write's data holds its bytes. -/
theorem State.bytesAt_stored {s : State} {a n w k : Nat} {d : List Byte} (begins : 32 * w = a) (covers : 32 * k = n) (length : d.length = n)
    (stored : ∀ i < k, readWord s.mem (w + i) = (slicedWords d k).getD i 0) : s.bytesAt a n = d := by
  subst begins covers
  have read : ((List.range k).map fun i => readWord s.mem (w + i)).map wordBytes = (List.range k).map (sliceOf d) := by
    rw [List.map_map]
    refine List.map_congr_left fun i hi => ?_
    have inside := List.mem_range.1 hi
    rw [Function.comp, stored i inside, slicedWords, List.getD_eq_getElem _ _ (by simpa using inside), List.getElem_map, List.getElem_range]
    exact wordBytes_ofBytes (sliceOf_length d i)
  have all : (List.range (32 * k)).map (fun j => d.getD j 0) = d := by
    refine List.ext_getElem (by simp [length]) fun i _ hi => ?_
    rw [List.getElem_map, List.getElem_range, List.getD_eq_getElem _ _ hi]
  rw [← s.bytesAt_words (w := w) (k := k) (le_refl _) (by omega), read, Nat.sub_self, List.drop_zero, ← length, List.take_of_length_le]
  · exact (flatten_rows (fun j => d.getD j 0) k).trans all
  · exact (congrArg List.length ((flatten_rows (fun j => d.getD j 0) k).trans all)).le

section
variable {t : Tlp} {d : List Byte} {k : Nat} (length : d.length = t.len) (start : t.addr % 32 = 0) (covers : 32 * k = t.len)
include length start covers

theorem enabledIn_slice {i : Nat} (h : i < k) : enabledIn t (d.map some) (t.addr / 32 + i) = sliceOf d i :=
  enabledIn_whole length start (by omega)

/-- A write of whole words inside one row is one request. -/
theorem writeParts_whole (o : Who) : writeParts o t (d.map some) (t.addr / 32, k) =
    [.access .write (hostReq t (t.addr / 32) k none true) (slicedWords d k) 0 o none 4] := by
  have all : ((List.range k).map (t.addr / 32 + ·)).filter (fun x => (enabledIn t (d.map some) x).length = 32) =
      (List.range k).map (t.addr / 32 + ·) := by
    refine List.filter_eq_self.2 fun x hx => ?_
    obtain ⟨i, hi, rfl⟩ := List.mem_map.1 hx
    rw [enabledIn_slice length start covers (List.mem_range.1 hi), sliceOf_length]
    rfl
  have data : ((List.range k).map fun i => BitVec.ofNat 256 (ofBytes (enabledIn t (d.map some) (t.addr / 32 + i)))) = slicedWords d k :=
    List.map_congr_left fun i hi => by rw [enabledIn_slice length start covers (List.mem_range.1 hi)]
  unfold writeParts
  dsimp only
  rw [all, if_pos (by simp), writeWords, data]
  rfl

/-- A write of whole words covers no word only partly. -/
theorem partly_whole : ([(t.addr / 32, k)].any fun p => (List.range p.2).any fun i =>
    (enabledIn t (d.map some) (p.1 + i)).length != 0 && (enabledIn t (d.map some) (p.1 + i)).length != 32) = false := by
  rw [List.any_cons, List.any_nil, Bool.or_false, List.any_eq_false]
  intro i hi
  rw [enabledIn_slice length start covers (List.mem_range.1 hi), sliceOf_length]
  decide

end

/-! ### TLPs to memory (R28 to R30) -/

theorem inBar_of_lt {t : Tlp} (below : t.addr < 0x20000000) : Tlp.inBar t = true := by
  simp [Tlp.inBar, below]

theorem inControl_of_lt {a : Nat} (below : a < 0x20000000) : inControl a = false := by
  rw [inControl, Nat.div_eq_of_lt below]
  rfl

section
variable {s : State} {t : Tlp} (clear : s.hostClear = true) (running : s.running = true) (below : t.addr < 0x20000000) (some_ : 0 < t.len)
  (row : t.addr / 256 = (t.addr + t.len - 1) / 256)
include clear running below some_ row

/-- A host read inside one row that is clean is answered with the bytes it names. -/
theorem hostReadTlp_row {w k : Nat} (first : t.addr / 32 = w) (count : (t.addr + t.len - 1) / 32 - w + 1 = k) (clean : s.clean (t.addr / 256) = true)
    (serves : s.serves .read (hostReq t w k (some (t.addr - 32 * w, t.len)) false) .data w = true) :
    ∃ u, s.Accessed u ∧ u.mem = s.mem ∧ exec (.hostReadTlp t) s = .next (u.emit (.cpl t.tag false false false (s.bytesAt t.addr t.len))) := by
  subst first count
  have taken : exec (.hostReadTlp t) s = .next (presentBy (whoOf s (.host t.np)) .read
      (hostReq t (t.addr / 32) ((t.addr + t.len - 1) / 32 - t.addr / 32 + 1) (some (t.addr - 32 * (t.addr / 32), t.len)) false) []
      { s with nextId := s.nextId + 1 }) := by
    change execHostReadTlp t s = _
    rw [execHostReadTlp, inBar_of_lt below, inControl_of_lt below, rowPieces_row some_ row]
    simp only [Bool.not_true, Bool.false_eq_true, if_false, List.length_singleton, lt_irrefl, List.map_singleton, readPart_row _ t some_]
    rw [State.takeTlp_clear clear (s.running_iff.1 running).1]
    rfl
  obtain ⟨-, reads, -⟩ := s.hostClear_iff.1 clear
  obtain ⟨u, accessed, mem, performed⟩ := hostRead_performed (s := { s with nextId := s.nextId + 1 }) (w := whoOf s (.host t.np)) rfl rfl
    ((Passed.of_serves serves).1.numbered (s.nextId + 1)) reads rfl rfl fun i hi => ⟨masks_none rfl _ _, by
      have inRow : wordRow (t.addr / 32 + i) = t.addr / 256 := by
        change i < (t.addr + t.len - 1) / 32 - t.addr / 32 + 1 at hi
        unfold wordRow
        omega
      rw [inRow]
      exact clean⟩
  refine ⟨u, accessed, mem, ?_⟩
  rw [taken, performed, ← s.bytesAt_words (w := t.addr / 32) (k := (t.addr + t.len - 1) / 32 - t.addr / 32 + 1) (by omega) (by omega)]
  rfl

/-- A posted write of whole words inside one row that is clean is stored, and nothing else changes in memory. -/
theorem hostWriteTlp_row {w k : Nat} (first : t.addr / 32 = w) (count : (t.addr + t.len - 1) / 32 - w + 1 = k) (clean : s.clean (t.addr / 256) = true)
    {d : List Byte} (length : d.length = t.len) (start : t.addr % 32 = 0) (whole : t.len % 32 = 0)
    (serves : s.serves .write (hostReq t w k none true) .data w = true) :
    ∃ u, s.Accessed u ∧ exec (.hostWriteTlp t (d.map some)) s = .next u ∧ u.bytesAt t.addr t.len = d ∧
      ∀ a, a < t.addr ∨ t.addr + t.len ≤ a → readByte u.mem a = readByte s.mem a := by
  subst first
  have covers : 32 * k = t.len := by omega
  have begins : 32 * (t.addr / 32) = t.addr := by omega
  have taken : exec (.hostWriteTlp t (d.map some)) s = .next (presentBy (whoOf s (.host t.np)) .write (hostReq t (t.addr / 32) k none true)
      (slicedWords d k) { s with nextId := s.nextId + 1 }) := by
    change execHostWriteTlp t (d.map some) s = _
    rw [execHostWriteTlp, inBar_of_lt below, inControl_of_lt below, rowPieces_row some_ row, count]
    dsimp only
    rw [partly_whole length start covers]
    simp only [Bool.not_true, Bool.false_eq_true, if_false, List.map_singleton, List.flatten_singleton, writeParts_whole length start covers]
    rw [State.takeTlp_clear clear (s.running_iff.1 running).1]
    rfl
  obtain ⟨accessed, stored⟩ := hostWrite_performed (s := { s with nextId := s.nextId + 1 }) (w := whoOf s (.host t.np)) (d := slicedWords d k)
    rfl rfl ((Passed.of_serves serves).1.numbered (s.nextId + 1)) rfl rfl fun i hi => by
      have inRow : wordRow (t.addr / 32 + i) = t.addr / 256 := by
        change i < k at hi
        unfold wordRow
        omega
      rw [inRow]
      exact clean
  refine ⟨_, accessed, taken, ?_, fun a outside => ?_⟩
  · refine State.bytesAt_stored begins covers length fun i hi => ?_
    rw [stored (t.addr / 32 + i), if_pos ⟨Nat.le_add_right _ i, Nat.add_lt_add_left hi _⟩, Nat.add_sub_cancel_left]
  · refine readByte_of_readWord ((stored (a / 32)).trans (if_neg ?_))
    change ¬(t.addr / 32 ≤ a / 32 ∧ a / 32 < t.addr / 32 + k)
    omega

omit clear in
/-- A write of a part of one word is discarded with its record. -/
theorem hostWriteTlp_part {d : List Byte} (length : d.length = t.len) (one : t.addr / 32 = (t.addr + t.len - 1) / 32) (part : t.len < 32) :
    exec (.hostWriteTlp t (d.map some)) s = .next (s.hostDiscard t.np 0 t.addr) := by
  obtain ⟨some_enabled, not_all⟩ := enabledIn_part length some_ one part
  have single : (t.addr + t.len - 1) / 32 - t.addr / 32 + 1 = 1 := by omega
  change execHostWriteTlp t (d.map some) s = _
  rw [execHostWriteTlp, inBar_of_lt below, inControl_of_lt below, rowPieces_row some_ row, single]
  simp [some_enabled, not_all, State.wakeDeep_running (s.running_iff.1 running).1]

end

/-! ### What the host stop holds (R30, R99, R261) -/

/-- A host read that has waited out its backoff is presented again, as the issuer it came from, and answered with its bytes. -/
theorem hostRetryReissue_read {s : State} {q : Req} {due c a n w0 : Nat} {np : Bool} {w : Who}
    (found : s.hostRetry.find? (fun h => (retryOf h).1 = q.tag) = some (.access .read q [] due w none c)) (root : s.pw.refOk = true)
    (reads : s.hostReads = []) (port : q.port = .host np) (bytes : q.bytes = some (a, n)) (posted : q.posted = false) (deep : s.pw.deep = 0)
    {u : State} (waited : { s with hostRetry := s.hostRetry.erase (.access .read q [] due w none c) }.reach due = u)
    (reaches : u.reachesAs { w with granted := u.pw.now } .read { q with joins := false } .data w0 = true)
    (clean : ∀ i < q.words, masks q w0 (w0 + i) = false ∧ u.clean (wordRow (w0 + i)) = true) :
    ∃ t, exec (.hostRetryReissue q.tag) s = .next t ∧ t.mem = s.mem ∧ t.hostRetry = u.hostRetry ∧ due ≤ t.pw.now ∧
      t.out = .cpl q.tag false false false
        (((((List.range q.words).map fun i => readWord s.mem (w0 + i)).map wordBytes).flatten.drop a).take n) :: s.out := by
  obtain ⟨same_mem, same_out, same_reads, passed⟩ : u.mem = s.mem ∧ u.out = s.out ∧ u.hostReads = s.hostReads ∧ due ≤ u.pw.now := by
    obtain ⟨_, _, _, _, frame, passes⟩ := State.reach_frame { s with hostRetry := s.hostRetry.erase (.access .read q [] due w none c) } due
    rw [← waited, frame]
    exact ⟨rfl, rfl, rfl, passes⟩
  have issued : exec (.hostRetryReissue q.tag) s = .next (presentBy w .read { q with joins := false } [] u) := by
    change execHostRetryReissue q.tag s = _
    rw [execHostRetryReissue, found, ← waited]
    simp only [deep, root]
    rfl
  obtain ⟨t, accessed, mem, performed⟩ := hostRead_performed (w := w) (q := { q with joins := false }) port rfl (passed_iff.1 reaches)
    (same_reads.trans reads) bytes posted clean
  obtain ⟨out, retry, -, power, -⟩ := accessed.same
  refine ⟨_, issued.trans (congrArg _ performed), mem.trans same_mem, retry, passed.trans_eq (congrArg (·.now) power.symm), ?_⟩
  rw [← same_mem, ← same_out]
  exact congrArg (_ :: ·) out

/-- A posted write that the host stop held alone is stored once it may be injected. -/
theorem hostPostedRelease_write {s : State} {q : Req} {ro : Bool} {d : List Word} {due c w0 : Nat} {w : Who}
    (held : s.hostHeld = [⟨ro, true, [.access .write q d due w none c]⟩])
    (may : tlpMay s [] ⟨ro, true, [.access .write q d due w none c]⟩ = true)
    (posted : q.posted = true) (port : ∃ np, q.port = .host np) (near : w.arrival = none) (local_ : q.glob = false)
    (reaches : s.reachesAs { w with granted := s.pw.now } .write { q with joins := false } .data w0 = true)
    (clean : ∀ i < q.words, s.clean (wordRow (w0 + i)) = true) :
    ∃ t, exec .hostPostedRelease s = .next t ∧ t.hostHeld = [] ∧ t.out = s.out ∧ (∀ r, t.slate r = s.slate r) ∧
      ∀ a, readWord t.mem a = if w0 ≤ a ∧ a < w0 + q.words then d.getD (a - w0) 0 else readWord s.mem a := by
  obtain ⟨np, port⟩ := port
  have here : (({ w with granted := s.pw.now } : Who).ownGlobal s { q with joins := false }).arrival = none := by
    have addressed : isGlobal { q with joins := false } = false := by
      rw [isGlobal, local_, port]
      rfl
    rw [Who.ownGlobal, addressed]
    exact near
  obtain ⟨accessed, stored⟩ := hostWrite_performed (w := w) (q := { q with joins := false }) (d := d) port rfl (passed_iff.1 reaches)
    posted here clean
  have released : exec .hostPostedRelease s = .next { presentBy w .write { q with joins := false } d s with hostHeld := [] } := by
    change execHostPostedRelease s = _
    rw [execHostPostedRelease, held, releaseTlps, if_pos may]
    rfl
  exact ⟨_, released, rfl, accessed.same.1, accessed.1, stored⟩

/-- Settles O38, a request of the host being one at its lake: a TLP is one request where it lies inside one row, and what was held is presented
again. -/
theorem hostWindowServed : Obligations.HostWindowServed := by
  constructor
  · intro s t clear running below some_ row clean w k
    refine ⟨fun serves => ?_, fun d length start whole serves => ?_, fun d length one part => ?_⟩
    · obtain ⟨u, ⟨slates, frame⟩, mem, performed⟩ := hostReadTlp_row clear running below some_ row rfl rfl clean serves
      refine ⟨u, performed, slates, ?_⟩
      rw [mem] at frame
      exact frame
    · obtain ⟨u, accessed, performed, bytes, others⟩ := hostWriteTlp_row clear running below some_ row rfl rfl clean length start whole serves
      obtain ⟨-, -, -, -, fresh⟩ := accessed.same
      refine ⟨u, performed, bytes, others, accessed.1, ?_⟩
      rw [fresh]
      exact accessed.2
    · exact hostWriteTlp_part running below some_ row length one part
  · constructor
    · intro s q due c a n w0 np w found root reads port bytes posted deep u reaches clean
      exact hostRetryReissue_read found root reads port bytes posted deep rfl reaches clean
    · intro s q ro d due c w0 w h held may posted port near local_ reaches clean
      exact hostPostedRelease_write held may posted port near local_ reaches clean

end Sys2Proof.Machine
end

section
/-!
PROOF. Maintenance and protection of the rows (O37). Time that passes first is seen in nothing that a row holds (`Waited`), and what is done to a
row (a write-back, a mark, a check with its repair, a conversion) changes tags, lakes, counts and the error log alone, and of the rows only its
own (`Maintained`). What each does to the lake and the tag of its row is said once per operation, and the commands are read from these.
-/
namespace Sys2Proof.Machine

-- One theorem after another: elaborated side by side, these theorems would each hold a thread and its stack.
set_option Elab.async false

/-! ### Time that passes (R330, R331) -/

/-- From `s` to `t` time has passed, and no more: memory, tags, cues, outputs and the lakes are as they were, but for the tokens (R118). -/
structure Waited (s t : State) : Prop where
  mem : t.mem = s.mem
  rows : t.rows = s.rows
  cues : t.cues = s.cues
  out : t.out = s.out
  lake : ∀ n, t.lake n = { s.lake n with tokens := (t.lake n).tokens }

theorem Waited.refl (s : State) : Waited s s := ⟨rfl, rfl, rfl, rfl, fun _ => rfl⟩

theorem Waited.trans {a b c : State} (h : Waited a b) (k : Waited b c) : Waited a c :=
  ⟨k.mem.trans h.mem, k.rows.trans h.rows, k.cues.trans h.cues, k.out.trans h.out, fun n => by rw [k.lake n, h.lake n]⟩

/-- Another PS cycle begins (R49). -/
theorem Waited.regrouped {s t : State} (h : Waited s t) (ps : PsCycle) (group : List Grp) : Waited s { t with ps := ps, group := group } :=
  ⟨h.mem, h.rows, h.cues, h.out, h.lake⟩

theorem Waited.tag {s t : State} (h : Waited s t) (r : Nat) : t.tag r = s.tag r := congrArg (Tab.get _ · r) h.rows

theorem Waited.slate {s t : State} (h : Waited s t) (r : Nat) : t.slate r = s.slate r := by
  rw [State.slate, h.lake, h.tag]
  rfl

theorem Waited.marked {s t : State} (h : Waited s t) (r : Nat) : t.marked r = s.marked r := by
  rw [State.marked, h.lake, h.tag]
  rfl

/-- A lake without tokens spent is not changed by what it is given, so that a lake that is not listed needs none (R118). -/
theorem State.refill_lake {s : State} (wf : Tab.wf (fun _ => Lake.reset) s.lakes = true) (dt n : Nat) :
    (s.refill dt).lake n = { s.lake n with tokens := ((s.refill dt).lake n).tokens } := by
  rw [State.refill]
  split
  · rfl
  · have full : min 96 (Lake.reset.tokens + s.weir.allow * dt) = Lake.reset.tokens := Nat.min_eq_left (Nat.le_add_right 96 _)
    have given : Tab.get (fun _ => Lake.reset)
        (mapTab (fun _ => Lake.reset) (fun _ l => { l with tokens := min 96 (l.tokens + s.weir.allow * dt) }) s.lakes) n =
        { s.lake n with tokens := min 96 ((s.lake n).tokens + s.weir.allow * dt) } :=
      Tab.get_mapTab (f := fun _ (l : Lake) => { l with tokens := min 96 (l.tokens + s.weir.allow * dt) }) (Tab.wf_iff.1 wf).1
        (by rw [full])
    rw [State.lake, given]

theorem State.elapse_waited {s : State} (canonical : s.canonical = true) (dt : Nat) : Waited s (s.elapse dt) := by
  have levels : ∃ cnt, s.countLevels dt = { s with cnt := cnt } := by
    rw [State.countLevels]
    split
    · exact ⟨s.cnt, rfl⟩
    · exact ⟨_, rfl⟩
  obtain ⟨cnt, counted⟩ := levels
  have filled : ∃ lakes, State.refill { s with cnt := cnt } dt = { s with cnt := cnt, lakes := lakes } := by
    rw [State.refill]
    split
    · exact ⟨s.lakes, rfl⟩
    · exact ⟨_, rfl⟩
  have lake := State.refill_lake (s := { s with cnt := cnt }) (State.canonical_iff.1 canonical).lakes dt
  obtain ⟨lakes, filled⟩ := filled
  rw [filled] at lake
  rw [State.elapse, counted, filled]
  exact ⟨rfl, rfl, rfl, rfl, lake⟩

theorem State.reach_waited {s : State} (canonical : s.canonical = true) (at_ : Nat) : Waited s (s.reach at_) := by
  rw [State.reach]
  split
  · exact .refl s
  · exact State.elapse_waited canonical _

theorem State.le_reach_now (s : State) (at_ : Nat) : at_ ≤ (s.reach at_).pw.now := by
  obtain ⟨_, _, _, _, reached, passed⟩ := s.reach_frame at_
  rw [reached]
  exact passed

/-! ### What maintenance leaves alone -/

/-- From `s` to `t` tags, lakes, counts, the error log and the groups of requests have changed, and nothing else. -/
def Tended (s t : State) : Prop := ∃ rows lakes cnt err group fresh,
  t = { s with rows := rows, lakes := lakes, cnt := cnt, err := err, group := group, fresh := fresh }

theorem Tended.refl (s : State) : Tended s s := ⟨_, _, _, _, _, _, rfl⟩

theorem Tended.trans {a b c : State} (h : Tended a b) (k : Tended b c) : Tended a c := by
  obtain ⟨_, _, _, _, _, _, rfl⟩ := h
  obtain ⟨_, _, _, _, _, _, rfl⟩ := k
  exact ⟨_, _, _, _, _, _, rfl⟩

theorem Tended.foldl {α : Type} {f : State → α → State} (each : ∀ s x, Tended s (f s x)) (l : List α) (s : State) : Tended s (l.foldl f s) := by
  induction l generalizing s with
  | nil => exact .refl s
  | cons x l ih => exact (each s x).trans (ih (f s x))

theorem Tended.same {s t : State} (h : Tended s t) : t.mem = s.mem ∧ t.cues = s.cues ∧ t.out = s.out ∧ t.pw = s.pw := by
  obtain ⟨_, _, _, _, _, _, rfl⟩ := h
  exact ⟨rfl, rfl, rfl, rfl⟩

/-- From `s` to `t` the row has been maintained: every other row has its tag and its slate, and the row has its slate where `keeps` holds. -/
structure Maintained (row : Nat) (keeps : Prop) (s t : State) : Prop where
  tended : Tended s t
  tag : ∀ r, r ≠ row → t.tag r = s.tag r
  slate : ∀ r, r ≠ row ∨ keeps → t.slate r = s.slate r

variable {row : Nat} {keeps : Prop}

theorem Maintained.refl (s : State) : Maintained row keeps s s := ⟨.refl s, fun _ _ => rfl, fun _ _ => rfl⟩

theorem Maintained.trans {a b c : State} (h : Maintained row keeps a b) (k : Maintained row keeps b c) : Maintained row keeps a c :=
  ⟨h.tended.trans k.tended, fun r hr => (k.tag r hr).trans (h.tag r hr), fun r hr => (k.slate r hr).trans (h.slate r hr)⟩

theorem Maintained.mono {keeps' : Prop} {s t : State} (h : Maintained row keeps s t) (sub : keeps' → keeps) : Maintained row keeps' s t :=
  ⟨h.tended, h.tag, fun r hr => h.slate r (hr.imp_right sub)⟩

/-- What maintenance changes of neither memory, cues, outputs nor any other row, where time has passed before it. -/
theorem Maintained.kept {s u t : State} (h : Maintained row keeps u t) (waited : Waited s u) :
    t.mem = s.mem ∧ t.cues = s.cues ∧ t.out = s.out ∧ ∀ r, r ≠ row → t.tag r = s.tag r := by
  obtain ⟨mem, cues, out, -⟩ := h.tended.same
  exact ⟨mem.trans waited.mem, cues.trans waited.cues, out.trans waited.out, fun r hr => (h.tag r hr).trans (waited.tag r)⟩

/-- What pond cycles leave of the slates, for an operation of maintenance. -/
theorem Work.maintained {s t : State} (h : Work .plain [row] s t) (tended : Tended s t) (tag : ∀ r, r ≠ row → t.tag r = s.tag r) :
    Maintained row keeps s t := ⟨tended, tag, fun r _ => (h.slate r).trans (ite_self _)⟩

theorem Maintained.counted (s : State) (cnt : Counters) (err : ErrLog) (group : List Grp) (fresh : Nat) :
    Maintained row keeps s { s with cnt := cnt, err := err, group := group, fresh := fresh } :=
  ⟨⟨_, _, _, _, _, _, rfl⟩, fun _ _ => rfl, fun _ _ => rfl⟩

section
variable (s : State)

theorem State.report_frame (r : Rec) : ∃ err, s.report r = { s with err := err } := by
  rw [State.report]
  split
  · exact ⟨s.err, rfl⟩
  · split <;> exact ⟨_, rfl⟩

theorem State.correction_frame (k detail addr : Nat) : ∃ err, s.correction k detail addr = { s with err := err } := by
  unfold State.correction
  extract_lets c r open_ c' _ u
  split
  · exact ⟨_, rfl⟩
  · obtain ⟨err, reported⟩ := u.report_frame r
    exact ⟨err, reported⟩

theorem State.count_maintained (o : Occ) : Maintained row keeps s (s.count o) := by
  obtain ⟨cnt, counted⟩ := s.count_frame o
  rw [counted]
  exact .counted s cnt s.err s.group s.fresh

theorem State.modLake_tended (n : Nat) (f : Lake → Lake) : Tended s (s.modLake n f) := ⟨_, _, _, _, _, _, rfl⟩

theorem State.setTag_tended (row : Nat) (t : RowTag) : Tended s (s.setTag row t) := ⟨_, _, _, _, _, _, rfl⟩

/-- A lake whose range steps stay. -/
theorem State.modLake_maintained (n : Nat) (f : Lake → Lake) (steps : ∀ l, (f l).steps = l.steps) : Maintained row keeps s (s.modLake n f) where
  tended := s.modLake_tended n f
  tag _ _ := rfl
  slate r _ := by
    have same : ((s.modLake n f).lake (lakeOf r)).steps = (s.lake (lakeOf r)).steps := by
      by_cases e : lakeOf r = n
      · rw [e, State.modLake_lake_same, steps]
      · rw [State.modLake_lake_other _ _ _ _ e]
    rw [State.slate, same]
    rfl

variable (row)

theorem State.setTag_maintained {t : RowTag} (same : keeps → t.slate = (s.tag row).slate) : Maintained row keeps s (s.setTag row t) where
  tended := s.setTag_tended row t
  tag _ hr := State.setTag_other _ _ _ _ hr
  slate r hr := by
    have slate : ((s.setTag row t).tag r).slate = (s.tag r).slate := by
      by_cases e : r = row
      · rw [e, State.setTag_same, same (hr.resolve_left fun k => k e)]
      · rw [State.setTag_other _ _ _ _ e]
    rw [State.slate, slate]
    rfl

theorem State.settle_tag_other {r : Nat} (h : r ≠ row) : (s.settle row).tag r = s.tag r := by
  rw [State.settle]
  split
  · rfl
  · exact State.setTag_other _ _ _ _ h

theorem State.settle_maintained : Maintained row keeps s (s.settle row) := by
  obtain ⟨_, _, frame⟩ := s.settle_frame row
  exact (s.settle_work row).maintained ⟨_, _, _, _, _, _, frame⟩ fun r hr => s.settle_tag_other row hr

theorem State.pondCycle_maintained : Maintained row keeps s (s.pondCycle row) :=
  (s.count_maintained _).trans (State.modLake_maintained _ _ _ fun _ => rfl)

theorem State.scheduleWb_maintained (old : RowTag) (undo : List (Nat × Word)) (fresh : Bool) :
    Maintained row keeps s (s.scheduleWb row old undo fresh) := by
  unfold State.scheduleWb
  refine s.modLake_maintained _ _ fun l => ?_
  split <;> rfl

theorem State.inject_maintained : Maintained row keeps s (s.inject row) := by
  refine (s.inject_work row).maintained ?_ fun r hr => ?_ <;> unfold State.inject <;> extract_lets n l t u t' <;> split
  · exact .refl s
  · exact ⟨_, _, _, _, _, _, rfl⟩
  · rfl
  · exact State.setTag_other _ _ _ _ hr

theorem State.inject_unarmed (unarmed : (s.lake (lakeOf row)).injArm = false) : s.inject row = s := by
  rw [State.inject, unarmed]
  rfl

/-! ### Marks (R311) -/

theorem State.setSlate_slate (sl : Slate) : (s.setSlate row sl).slate row = sl := by
  rw [State.setSlate, State.slate, State.setTag_lake, State.settle_stepSlate, if_pos rfl, State.setTag_same]
  rfl

/-- The mark of a row whose tags are lost is all that changes its slate. -/
theorem State.mark_maintained {stale : Bool} (same : keeps → stale = false) : Maintained row keeps s (s.mark row stale) := by
  unfold State.mark
  extract_lets u
  have lost : Maintained row keeps s u := by
    dsimp only [u]
    split
    · next h => exact (s.settle_maintained row).trans ((s.settle row).setTag_maintained row fun k => absurd (same k) (by simp [h]))
    · exact .refl s
  exact lost.trans (u.setTag_maintained row fun _ => rfl)

theorem State.mark_tag (stale : Bool) :
    ((s.mark row stale).tag row).mark = true ∧ ((s.mark row stale).tag row).corr = [] ∧ ((s.mark row stale).tag row).bad = [] := by
  unfold State.mark
  extract_lets u
  rw [State.setTag_same]
  exact ⟨rfl, rfl, rfl⟩

theorem State.mark_stale_slate : (s.mark row true).slate row = .stale := by
  have kept : Maintained row True (s.setSlate row .stale) (s.mark row true) := State.setTag_maintained row (s.setSlate row .stale) fun _ => rfl
  exact (kept.slate row (.inr trivial)).trans (s.setSlate_slate row .stale)

theorem State.mark_lake (stale : Bool) (n : Nat) : ∃ steps, (s.mark row stale).lake n = { s.lake n with steps := steps } := by
  cases stale
  · exact ⟨_, rfl⟩
  · exact ⟨_, s.settle_lake row n⟩

/-! ### Errors found (R308, R309) -/

variable (us : List Nat) (finder : Nat)

/-- A pond cycle has corrected a row of the lake (R308). -/
def Lake.corrects (l : Lake) : Lake := { l with corrected := satAdd 0xFFFFFF l.corrected 1 }

/-- A row of the lake has been found uncorrectable (R309). -/
def Lake.condemns (l : Lake) : Lake := { l with uncorr := satAdd 0xFFFF l.uncorr 1 }

theorem State.foundCorr_frame : ∃ cnt err, s.foundCorr row us finder =
    ({ s with cnt := cnt, err := err, fresh := s.fresh + 1 } : State).modLake (lakeOf row) Lake.corrects := by
  obtain ⟨cnt, counted⟩ := s.count_frame { set := .lake, inst := lakeOf row, ev := 0x09 }
  obtain ⟨err, reported⟩ := State.correction_frame { s with cnt := cnt } (lakeOf row) (eccDetail { s with cnt := cnt } row us finder) (rowAddr row)
  refine ⟨cnt, err, ?_⟩
  rw [State.foundCorr, State.countLake]
  simp only [counted, reported]
  rfl

theorem State.foundBad_frame (w : Option Who) : ∃ err, s.foundBad w row us finder =
    ({ s with err := err, fresh := s.fresh + 1 } : State).modLake (lakeOf row) Lake.condemns := by
  unfold State.foundBad State.log
  extract_lets n pr u
  obtain ⟨err, reported⟩ : ∃ err, u = { s with err := err } := s.report_frame _
  clear_value u
  subst reported
  exact ⟨err, rfl⟩

theorem State.foundCorr_maintained : Maintained row keeps s (s.foundCorr row us finder) := by
  obtain ⟨cnt, err, found⟩ := s.foundCorr_frame row us finder
  rw [found]
  exact (Maintained.counted s cnt err s.group _).trans (State.modLake_maintained _ _ _ fun _ => rfl)

theorem State.foundBad_maintained (w : Option Who) : Maintained row keeps s (s.foundBad w row us finder) := by
  obtain ⟨err, found⟩ := s.foundBad_frame row us finder w
  rw [found]
  exact (Maintained.counted s s.cnt err s.group _).trans (State.modLake_maintained _ _ _ fun _ => rfl)

@[simp] theorem State.foundCorr_tag (r : Nat) : (s.foundCorr row us finder).tag r = s.tag r := by
  obtain ⟨_, _, found⟩ := s.foundCorr_frame row us finder
  rw [found]
  rfl

@[simp] theorem State.foundBad_tag (w : Option Who) (r : Nat) : (s.foundBad w row us finder).tag r = s.tag r := by
  obtain ⟨_, found⟩ := s.foundBad_frame row us finder w
  rw [found]
  rfl

@[simp] theorem State.foundCorr_lake : (s.foundCorr row us finder).lake (lakeOf row) = (s.lake (lakeOf row)).corrects := by
  obtain ⟨_, _, found⟩ := s.foundCorr_frame row us finder
  rw [found, State.modLake_lake_same]
  rfl

@[simp] theorem State.foundBad_lake (w : Option Who) : (s.foundBad w row us finder).lake (lakeOf row) = (s.lake (lakeOf row)).condemns := by
  obtain ⟨_, found⟩ := s.foundBad_frame row us finder w
  rw [found, State.modLake_lake_same]
  rfl

/-! ### The check of a row (R306, R308, R309, R311) -/

/-- What a write-back that is scheduled leaves of its lake. -/
theorem State.scheduleWb_lake (old : RowTag) (undo : List (Nat × Word)) (fresh : Bool) :
    ∃ wbs, (s.scheduleWb row old undo fresh).lake (lakeOf row) = { s.lake (lakeOf row) with wbs := wbs } := by
  rw [State.scheduleWb, State.modLake_lake_same]
  split <;> exact ⟨_, rfl⟩

/-- A row with a correctable error, corrected and to be written back. -/
def State.correctedRow : State :=
  ((s.foundCorr row us finder).setTag row { s.tag row with corr := [] }).scheduleWb row (s.tag row) [] true

/-- A row with an uncorrectable error, which waits for its mark. -/
def State.condemnedRow (w : Option Who) : State := (s.foundBad w row us finder).queueMark row

/-- A row with both errors counted, the correctable one corrected. -/
def State.halfRow (w : Option Who) (bad : List Nat) : State :=
  ((s.foundCorr row us finder).foundBad w row bad finder).setTag row { s.tag row with corr := [] }

/-- A row with both, which is marked by the write-back of its correction. -/
def State.markedRow (w : Option Who) (bad : List Nat) : State :=
  ((s.halfRow row us finder w bad).mark row (tagsBad ((s.halfRow row us finder w bad).wMode row) (s.tag row).bad)).scheduleWb row (s.tag row) [] false

section
variable {s row} {t : RowTag} (unmarked : t.mark = false) (w : Option Who) (finder : Nat)
include unmarked

theorem State.checkRow_sound (corr : t.corr = []) (bad : t.bad = []) (sound : (s.tag row).bad = []) : s.checkRow w row finder t none = s := by
  simp [State.checkRow, unmarked, corr, bad, sound]

theorem State.checkRow_corr (corr : t.corr ≠ []) (bad : t.bad = []) (sound : (s.tag row).bad = []) :
    s.checkRow w row finder t none = s.correctedRow row t.corr finder := by
  simp [State.checkRow, State.correctedRow, unmarked, corr, bad, sound]

theorem State.checkRow_bad (corr : t.corr = []) (bad : t.bad ≠ []) (unsound : (s.tag row).bad ≠ []) :
    s.checkRow w row finder t none = s.condemnedRow row t.bad finder w := by
  simp [State.checkRow, State.condemnedRow, unmarked, corr, bad, unsound]

theorem State.checkRow_both (corr : t.corr ≠ []) (bad : t.bad ≠ []) (unsound : (s.tag row).bad ≠ []) :
    s.checkRow w row finder t none = s.markedRow row t.corr finder w t.bad := by
  simp [State.checkRow, State.markedRow, State.halfRow, unmarked, corr, bad, unsound]

end

theorem State.correctedRow_maintained : Maintained row keeps s (s.correctedRow row us finder) := by
  have found := s.foundCorr_maintained row (keeps := keeps) us finder
  have slate : (s.tag row).slate = ((s.foundCorr row us finder).tag row).slate := by rw [State.foundCorr_tag]
  have corrected := found.trans (State.setTag_maintained row _ (t := { s.tag row with corr := [] }) fun _ => slate)
  rw [State.correctedRow]
  exact corrected.trans (State.scheduleWb_maintained row _ _ _ _)

theorem State.queueMark_maintained : Maintained row keeps s (s.queueMark row) := by
  rw [State.queueMark]
  exact s.modLake_maintained _ _ fun _ => rfl

theorem State.condemnedRow_maintained (w : Option Who) : Maintained row keeps s (s.condemnedRow row us finder w) := by
  rw [State.condemnedRow]
  exact (s.foundBad_maintained row us finder w).trans (State.queueMark_maintained row _)

theorem State.halfRow_maintained (w : Option Who) (bad : List Nat) : Maintained row False s (s.halfRow row us finder w bad) := by
  have found := (s.foundCorr_maintained row (keeps := False) us finder).trans (State.foundBad_maintained row _ bad finder w)
  rw [State.halfRow]
  exact found.trans (State.setTag_maintained row _ (t := { s.tag row with corr := [] }) False.elim)

theorem State.markedRow_maintained (w : Option Who) (bad : List Nat) : Maintained row False s (s.markedRow row us finder w bad) := by
  have marked := (s.halfRow_maintained row us finder w bad).trans ((s.halfRow row us finder w bad).mark_maintained row
    (stale := tagsBad ((s.halfRow row us finder w bad).wMode row) (s.tag row).bad) False.elim)
  rw [State.markedRow]
  exact marked.trans (State.scheduleWb_maintained row _ _ _ _)

@[simp] theorem State.scheduleWb_tag (old : RowTag) (undo : List (Nat × Word)) (fresh : Bool) (r : Nat) :
    (s.scheduleWb row old undo fresh).tag r = s.tag r := rfl

theorem State.correctedRow_tag : (s.correctedRow row us finder).tag row = { s.tag row with corr := [] } := by
  rw [State.correctedRow, State.scheduleWb_tag, State.setTag_same]

theorem State.correctedRow_lake :
    ∃ wbs, (s.correctedRow row us finder).lake (lakeOf row) = { (s.lake (lakeOf row)).corrects with wbs := wbs } := by
  obtain ⟨wbs, scheduled⟩ := ((s.foundCorr row us finder).setTag row { s.tag row with corr := [] }).scheduleWb_lake row (s.tag row) [] true
  rw [State.setTag_lake, State.foundCorr_lake] at scheduled
  exact ⟨wbs, scheduled⟩

theorem State.condemnedRow_lake (w : Option Who) : ∃ stale, (s.condemnedRow row us finder w).lake (lakeOf row) =
    { (s.lake (lakeOf row)).condemns with marks := (s.lake (lakeOf row)).marks ++ [⟨row, stale⟩] } := by
  rw [State.condemnedRow, State.queueMark, State.modLake_lake_same, State.foundBad_lake]
  exact ⟨_, rfl⟩

theorem State.markedRow_lake (w : Option Who) (bad : List Nat) : ∃ wbs steps, (s.markedRow row us finder w bad).lake (lakeOf row) =
    { (s.lake (lakeOf row)).corrects.condemns with wbs := wbs, steps := steps } := by
  have half : (s.halfRow row us finder w bad).lake (lakeOf row) = (s.lake (lakeOf row)).corrects.condemns := by
    rw [State.halfRow, State.setTag_lake, State.foundBad_lake, State.foundCorr_lake]
  obtain ⟨steps, marked⟩ := (s.halfRow row us finder w bad).mark_lake row
    (tagsBad ((s.halfRow row us finder w bad).wMode row) (s.tag row).bad) (lakeOf row)
  obtain ⟨wbs, scheduled⟩ := State.scheduleWb_lake row ((s.halfRow row us finder w bad).mark row
    (tagsBad ((s.halfRow row us finder w bad).wMode row) (s.tag row).bad)) (s.tag row) [] false
  exact ⟨wbs, steps, scheduled.trans (by rw [marked, half])⟩

/-! ### The patrol scrub (R48, R314) -/

/-- The patrol's read of the row is no longer due. -/
def Lake.patrols (row : Nat) (l : Lake) : Lake := { l with scrubDue := l.scrubDue.filter (·.1 != row) }

/-- A row in the pond cycle of its scrub read, before it is checked. -/
def State.patrolled : State :=
  ((((s.modLake (lakeOf row) (Lake.patrols row)).alone row).settle row).countLake (lakeOf row) 0x04).countLake (lakeOf row) 0x08

theorem State.scrub_eq : s.scrub row = (s.patrolled row).checkRow none row 1 { s.tag row with mark := s.marked row } none := rfl

theorem State.patrolled_maintained : Maintained row keeps s (s.patrolled row) := by
  have taken := s.modLake_maintained (row := row) (keeps := keeps) (lakeOf row) (Lake.patrols row) fun _ => rfl
  have alone := taken.trans (c := (s.modLake (lakeOf row) (Lake.patrols row)).alone row) (.counted _ _ _ _ _)
  exact ((alone.trans (State.settle_maintained row _)).trans (State.count_maintained _ _)).trans (State.count_maintained _ _)

theorem State.patrolled_lake : ∃ steps, (s.patrolled row).lake (lakeOf row) = { (s.lake (lakeOf row)).patrols row with steps := steps } := by
  have taken : ((s.modLake (lakeOf row) (Lake.patrols row)).alone row).lake (lakeOf row) = (s.lake (lakeOf row)).patrols row :=
    s.modLake_lake_same _ _
  rw [State.patrolled, State.countLake, State.count_lake, State.countLake, State.count_lake, State.settle_lake, taken]
  exact ⟨_, rfl⟩

theorem State.patrolled_bad : ((s.patrolled row).tag row).bad = (s.tag row).bad := by
  rw [State.patrolled, State.countLake, State.count_tag, State.countLake, State.count_tag, State.settle_bad]
  rfl

end

/-- A scrub read is performed in the time that it waits for, where its lake's scrub runs and its pond is not taken before it. -/
theorem scrubAfter_due {s : State} {at_ : Nat} (canonical : s.canonical = true)
    (due : (s.lake (lakeOf row)).scrubDue.find? (·.1 = row) = some (row, at_)) (draining : s.draining = false)
    (runs : scrubRuns s (lakeOf row) = true) (free : pondPledged s row = false) (wait : Nat) :
    ∃ u, Waited s u ∧ scrubAfter row wait s = u.scrub row := by
  have performed : ∃ at', scrubAfter row wait s =
      (if wait = 0 && pondWanted (s.reach at') row then { (s.reach at').elapse 1 with ps := ⟨[], []⟩, group := [] } else s.reach at').scrub row := by
    refine ⟨at_ + wait + if (s.lp (lakeOf row)).state = .idle then 20 else 0, ?_⟩
    rw [scrubAfter]
    simp only [due, draining, runs, free]
    rfl
  obtain ⟨at', performed⟩ := performed
  have waited := State.reach_waited canonical at'
  have canonical' := (State.reach_steady (.refl s) at').tables canonical
  generalize s.reach at' = u at performed waited canonical'
  rw [performed]
  split
  · exact ⟨_, (waited.trans (State.elapse_waited canonical' 1)).regrouped ⟨[], []⟩ [], rfl⟩
  · exact ⟨u, waited, rfl⟩

section
variable (s : State) (unmarked : s.marked row = false)
include unmarked

/-! A row without errors is left as it is, and each kind of error is taken up in its own way. -/

theorem State.scrub_eq_patrolled (corr : (s.tag row).corr = []) (bad : (s.tag row).bad = []) : s.scrub row = s.patrolled row := by
  rw [s.scrub_eq row]
  exact State.checkRow_sound unmarked none 1 corr bad ((s.patrolled_bad row).trans bad)

theorem State.scrub_eq_corrected (corr : (s.tag row).corr ≠ []) (bad : (s.tag row).bad = []) :
    s.scrub row = (s.patrolled row).correctedRow row (s.tag row).corr 1 := by
  rw [s.scrub_eq row]
  exact State.checkRow_corr unmarked none 1 corr bad ((s.patrolled_bad row).trans bad)

theorem State.scrub_eq_condemned (corr : (s.tag row).corr = []) (bad : (s.tag row).bad ≠ []) :
    s.scrub row = (s.patrolled row).condemnedRow row (s.tag row).bad 1 none := by
  rw [s.scrub_eq row]
  exact State.checkRow_bad unmarked none 1 corr bad (by rwa [s.patrolled_bad row])

theorem State.scrub_eq_marked (corr : (s.tag row).corr ≠ []) (bad : (s.tag row).bad ≠ []) :
    s.scrub row = (s.patrolled row).markedRow row (s.tag row).corr 1 none (s.tag row).bad := by
  rw [s.scrub_eq row]
  exact State.checkRow_both unmarked none 1 corr bad (by rwa [s.patrolled_bad row])

theorem State.scrub_maintained : Maintained row ((s.tag row).corr = [] ∨ (s.tag row).bad = []) s (s.scrub row) := by
  have patrolled := s.patrolled_maintained row (keeps := (s.tag row).corr = [] ∨ (s.tag row).bad = [])
  by_cases corr : (s.tag row).corr = [] <;> by_cases bad : (s.tag row).bad = []
  · rwa [s.scrub_eq_patrolled unmarked corr bad]
  · rw [s.scrub_eq_condemned unmarked corr bad]
    exact patrolled.trans (State.condemnedRow_maintained row _ _ _ _)
  · rw [s.scrub_eq_corrected unmarked corr bad]
    exact patrolled.trans (State.correctedRow_maintained row _ _ _)
  · rw [s.scrub_eq_marked unmarked corr bad]
    exact patrolled.trans ((State.markedRow_maintained row _ _ _ _ _).mono fun k => (k.elim corr bad).elim)

theorem State.scrub_scrubDue :
    ((s.scrub row).lake (lakeOf row)).scrubDue = (s.lake (lakeOf row)).scrubDue.filter (·.1 != row) := by
  obtain ⟨_, patrolled⟩ := s.patrolled_lake row
  by_cases corr : (s.tag row).corr = [] <;> by_cases bad : (s.tag row).bad = []
  · rw [s.scrub_eq_patrolled unmarked corr bad, patrolled]
    rfl
  · obtain ⟨_, condemned⟩ := (s.patrolled row).condemnedRow_lake row (s.tag row).bad 1 none
    rw [s.scrub_eq_condemned unmarked corr bad, condemned, patrolled]
    rfl
  · obtain ⟨_, corrected⟩ := (s.patrolled row).correctedRow_lake row (s.tag row).corr 1
    rw [s.scrub_eq_corrected unmarked corr bad, corrected, patrolled]
    rfl
  · obtain ⟨_, _, marked⟩ := (s.patrolled row).markedRow_lake row (s.tag row).corr 1 none (s.tag row).bad
    rw [s.scrub_eq_marked unmarked corr bad, marked, patrolled]
    rfl

theorem State.scrub_sound (corr : (s.tag row).corr = []) (bad : (s.tag row).bad = []) :
    ((s.scrub row).lake (lakeOf row)).corrected = (s.lake (lakeOf row)).corrected ∧
      ((s.scrub row).lake (lakeOf row)).uncorr = (s.lake (lakeOf row)).uncorr := by
  obtain ⟨_, patrolled⟩ := s.patrolled_lake row
  rw [s.scrub_eq_patrolled unmarked corr bad, patrolled]
  exact ⟨rfl, rfl⟩

theorem State.scrub_corr (corr : (s.tag row).corr ≠ []) (bad : (s.tag row).bad = []) : ((s.scrub row).tag row).corr = [] ∧
    ((s.scrub row).lake (lakeOf row)).corrected = satAdd 0xFFFFFF (s.lake (lakeOf row)).corrected 1 := by
  obtain ⟨_, patrolled⟩ := s.patrolled_lake row
  obtain ⟨_, corrected⟩ := (s.patrolled row).correctedRow_lake row (s.tag row).corr 1
  rw [s.scrub_eq_corrected unmarked corr bad, State.correctedRow_tag, corrected, patrolled]
  exact ⟨rfl, rfl⟩

theorem State.scrub_bad (corr : (s.tag row).corr = []) (bad : (s.tag row).bad ≠ []) :
    ((s.scrub row).lake (lakeOf row)).uncorr = satAdd 0xFFFF (s.lake (lakeOf row)).uncorr 1 ∧
      ∃ stale, ((s.scrub row).lake (lakeOf row)).marks = (s.lake (lakeOf row)).marks ++ [⟨row, stale⟩] := by
  obtain ⟨_, patrolled⟩ := s.patrolled_lake row
  obtain ⟨stale, condemned⟩ := (s.patrolled row).condemnedRow_lake row (s.tag row).bad 1 none
  rw [s.scrub_eq_condemned unmarked corr bad, condemned, patrolled]
  exact ⟨rfl, stale, rfl⟩

end

/-- A scrub read that is due, forced or not, takes its row's errors up (R48, R306, R308, R309, R314). -/
theorem exec_scrub {s : State} {at_ : Nat} (canonical : s.canonical = true)
    (due : (s.lake (lakeOf row)).scrubDue.find? (·.1 = row) = some (row, at_)) (draining : s.draining = false)
    (runs : scrubRuns s (lakeOf row) = true) (free : pondPledged s row = false) {c : Instr} (hc : c ∈ [Instr.scrubRead row, .scrubForced row]) :
    ∃ u, Waited s u ∧ exec c s = .next (u.scrub row) := by
  have performed (wait : Nat) := scrubAfter_due canonical due draining runs free wait
  simp only [List.mem_cons, List.not_mem_nil, or_false] at hc
  rcases hc with rfl | rfl
  · obtain ⟨u, waited, h⟩ := performed 0
    exact ⟨u, waited, congrArg _ h⟩
  · obtain ⟨u, waited, h⟩ := performed 4096
    exact ⟨u, waited, congrArg _ h⟩

/-! ### Write-backs (R43) and queued marks (R311) -/

/-- A write-back leaves its queue. -/
def Lake.writesBack (b : WriteBack) (l : Lake) : Lake := { l with wbs := l.wbs.erase b }

/-- A queued mark leaves its queue. -/
def Lake.writesMark (m : MarkEntry) (l : Lake) : Lake := { l with marks := l.marks.erase m }

theorem State.pondCycle_lake (s : State) (row : Nat) :
    (s.pondCycle row).lake (lakeOf row) = { s.lake (lakeOf row) with idleFrom := s.pw.now } := by
  rw [State.pondCycle, State.modLake_lake_same, State.countLake, State.count_lake]

theorem State.inject_wbs (s : State) (row n : Nat) : ((s.inject row).lake n).wbs = (s.lake n).wbs := by
  unfold State.inject
  extract_lets
  split
  · rfl
  · by_cases e : n = lakeOf row
    · rw [e, State.modLake_lake_same]
      rfl
    · rw [State.modLake_lake_other _ _ _ _ e]
      rfl

/-- A row in the pond cycle of its write-back. -/
def State.rewritten (s : State) (row : Nat) (b : WriteBack) : State :=
  ((s.countLake (lakeOf row) 0x07).pondCycle row).modLake (lakeOf row) (Lake.writesBack b)

theorem State.rewritten_maintained (s : State) (b : WriteBack) : Maintained row keeps s (s.rewritten row b) :=
  ((s.count_maintained _).trans (State.pondCycle_maintained row _)).trans (State.modLake_maintained _ _ _ fun _ => rfl)

theorem State.rewritten_lake (s : State) (b : WriteBack) : (s.rewritten row b).lake (lakeOf row) =
    { s.lake (lakeOf row) with idleFrom := (s.countLake (lakeOf row) 0x07).pw.now, wbs := (s.lake (lakeOf row)).wbs.erase b } := by
  rw [State.rewritten, State.modLake_lake_same, State.pondCycle_lake, State.countLake, State.count_lake]
  rfl

theorem State.rewritten_tag (s : State) (b : WriteBack) : (s.rewritten row b).tag row = s.tag row := by
  rw [State.rewritten, State.modLake_tag, State.pondCycle, State.modLake_tag, State.countLake, State.count_tag, State.countLake, State.count_tag]

/-- A write-back is performed at its time; an armed error takes effect where its check bytes are fresh (R324). -/
theorem exec_writeBack {s : State} {b : WriteBack} (found : (s.lake (lakeOf row)).wbs.find? (·.row = row) = some b) :
    exec (.writeBack row) s = .next (if b.fresh then ((s.reach b.due).rewritten row b).inject row else (s.reach b.due).rewritten row b) := by
  change execWriteBack row s = _
  rw [execWriteBack, found]
  rfl

/-- A queued mark is written in a pond cycle of its row. -/
theorem exec_markWrite {s : State} {m : MarkEntry} (found : (s.lake (lakeOf row)).marks.find? (·.row = row) = some m) :
    exec (.markWrite row) s = .next (((s.pondCycle row).modLake (lakeOf row) (Lake.writesMark m)).mark row m.stale) := by
  change execMarkWrite row s = _
  rw [execMarkWrite, found]
  rfl

theorem writeBack_performed {s : State} {b : WriteBack} (canonical : s.canonical = true)
    (found : (s.lake (lakeOf row)).wbs.find? (·.row = row) = some b) :
    ∃ t, exec (.writeBack row) s = .next t ∧ (t.lake (lakeOf row)).wbs = (s.lake (lakeOf row)).wbs.erase b ∧ b.due ≤ t.pw.now ∧
      (t.mem = s.mem ∧ t.cues = s.cues ∧ t.out = s.out ∧ ∀ r, r ≠ row → t.tag r = s.tag r) ∧ (∀ r, t.slate r = s.slate r) ∧
      ((s.lake (lakeOf row)).injArm = false → t.tag row = s.tag row) := by
  have waited := State.reach_waited canonical b.due
  have due := s.le_reach_now b.due
  refine ⟨_, exec_writeBack found, ?_⟩
  generalize s.reach b.due = u at waited due
  have lake : (u.rewritten row b).lake (lakeOf row) = { s.lake (lakeOf row) with
      tokens := (u.lake (lakeOf row)).tokens, idleFrom := (u.countLake (lakeOf row) 0x07).pw.now, wbs := (s.lake (lakeOf row)).wbs.erase b } := by
    rw [State.rewritten_lake, waited.lake]
  have rewritten := State.rewritten_maintained (row := row) (keeps := True) u b
  have tag : (u.rewritten row b).tag row = s.tag row := (u.rewritten_tag b).trans (waited.tag row)
  have performed : Maintained row True u (if b.fresh then (u.rewritten row b).inject row else u.rewritten row b) := by
    split
    · exact rewritten.trans (State.inject_maintained row _)
    · exact rewritten
  obtain ⟨-, -, -, power⟩ := performed.tended.same
  refine ⟨?_, by rwa [power], performed.kept waited, fun r => (performed.slate r (.inr trivial)).trans (waited.slate r), fun unarmed => ?_⟩
  · split
    · rw [State.inject_wbs, lake]
    · rw [lake]
  · split
    · rwa [State.inject_unarmed row _ (by rw [lake]; exact unarmed)]
    · exact tag

theorem markWrite_performed {s : State} {m : MarkEntry} (found : (s.lake (lakeOf row)).marks.find? (·.row = row) = some m) :
    ∃ t, exec (.markWrite row) s = .next t ∧ (t.lake (lakeOf row)).marks = (s.lake (lakeOf row)).marks.erase m ∧ (t.tag row).mark = true ∧
      (t.tag row).corr = [] ∧ (t.tag row).bad = [] ∧
      (t.mem = s.mem ∧ t.cues = s.cues ∧ t.out = s.out ∧ ∀ r, r ≠ row → t.tag r = s.tag r) ∧ (m.stale = true → t.slate row = .stale) ∧
      (∀ r, r ≠ row ∨ m.stale = false → t.slate r = s.slate r) := by
  have taken : Maintained row (m.stale = false) s ((s.pondCycle row).modLake (lakeOf row) (Lake.writesMark m)) :=
    (s.pondCycle_maintained row).trans (State.modLake_maintained _ _ _ fun _ => rfl)
  have lake : ((s.pondCycle row).modLake (lakeOf row) (Lake.writesMark m)).lake (lakeOf row) =
      { s.lake (lakeOf row) with idleFrom := s.pw.now, marks := (s.lake (lakeOf row)).marks.erase m } := by
    rw [State.modLake_lake_same, State.pondCycle_lake]
    rfl
  refine ⟨_, exec_markWrite found, ?_⟩
  generalize (s.pondCycle row).modLake (lakeOf row) (Lake.writesMark m) = u at taken lake
  obtain ⟨steps, marked⟩ := u.mark_lake row m.stale (lakeOf row)
  obtain ⟨mark, corr, bad⟩ := u.mark_tag row m.stale
  have written := taken.trans (u.mark_maintained row id)
  refine ⟨?_, mark, corr, bad, written.kept (.refl s), fun stale => ?_, written.slate⟩
  · rw [marked, lake]
  · rw [stale]
    exact u.mark_stale_slate row

theorem scrub_performed {s : State} {at_ : Nat} (canonical : s.canonical = true)
    (due : (s.lake (lakeOf row)).scrubDue.find? (·.1 = row) = some (row, at_)) (draining : s.draining = false)
    (runs : scrubRuns s (lakeOf row) = true) (unmarked : s.marked row = false) (free : pondPledged s row = false) {c : Instr}
    (hc : c ∈ [Instr.scrubRead row, .scrubForced row]) :
    ∃ t, exec c s = .next t ∧ (t.lake (lakeOf row)).scrubDue = (s.lake (lakeOf row)).scrubDue.filter (·.1 != row) ∧
      (t.mem = s.mem ∧ t.cues = s.cues ∧ t.out = s.out ∧ ∀ r, r ≠ row → t.tag r = s.tag r) ∧
      (s.clean row = true → (t.lake (lakeOf row)).corrected = (s.lake (lakeOf row)).corrected ∧
        (t.lake (lakeOf row)).uncorr = (s.lake (lakeOf row)).uncorr ∧ ∀ r, t.slate r = s.slate r) ∧
      ((s.tag row).corr ≠ [] → (s.tag row).bad = [] → (t.tag row).corr = [] ∧
        (t.lake (lakeOf row)).corrected = satAdd 0xFFFFFF (s.lake (lakeOf row)).corrected 1 ∧ ∀ r, t.slate r = s.slate r) ∧
      ((s.tag row).corr = [] → (s.tag row).bad ≠ [] → (t.lake (lakeOf row)).uncorr = satAdd 0xFFFF (s.lake (lakeOf row)).uncorr 1 ∧
        ∃ st, (t.lake (lakeOf row)).marks = (s.lake (lakeOf row)).marks ++ [⟨row, st⟩]) := by
  obtain ⟨u, waited, performed⟩ := exec_scrub canonical due draining runs free hc
  have unmarked' : u.marked row = false := (waited.marked row).trans unmarked
  have maintained := u.scrub_maintained unmarked'
  have same := waited.lake (lakeOf row)
  rw [waited.tag] at maintained
  have slates (h : (s.tag row).corr = [] ∨ (s.tag row).bad = []) (r : Nat) : (u.scrub row).slate r = s.slate r :=
    (maintained.slate r (.inr h)).trans (waited.slate r)
  refine ⟨_, performed, ?_, maintained.kept waited, fun clean => ?_, fun corr bad => ?_, fun corr bad => ?_⟩
  · rw [u.scrub_scrubDue unmarked', same]
  · obtain ⟨-, corr, bad⟩ := s.clean_iff row |>.1 clean
    obtain ⟨corrected, uncorr⟩ := u.scrub_sound unmarked' (by rwa [waited.tag]) (by rwa [waited.tag])
    rw [corrected, uncorr, same]
    exact ⟨rfl, rfl, slates (.inl corr)⟩
  · obtain ⟨repaired, corrected⟩ := u.scrub_corr unmarked' (by rwa [waited.tag]) (by rwa [waited.tag])
    rw [repaired, corrected, same]
    exact ⟨rfl, rfl, slates (.inr bad)⟩
  · obtain ⟨uncorr, stale, marks⟩ := u.scrub_bad unmarked' (by rwa [waited.tag]) (by rwa [waited.tag])
    rw [uncorr, marks, same]
    exact ⟨rfl, stale, rfl⟩

/-! ### When rows come due (R314), conversions and their end (R303, R307) -/

theorem State.modLake_congr {s : State} {n : Nat} {f g : Lake → Lake} (h : f (s.lake n) = g (s.lake n)) : s.modLake n f = s.modLake n g := by
  rw [State.modLake, State.modLake, h]

theorem exec_scrubDue {s : State} {n : Fin 24} (enabled : (s.lake n).scrubEn = true) (runs : scrubRuns s n = true) :
    exec (.scrubDue n) s = .next ((s.reach ((s.lake n).scrubFrom + 2 ^ (s.lake n).scrubInt.toNat)).modLake n fun l =>
      { l with scrubDue := l.scrubDue ++ [(gRow n l.nextRow, (s.reach ((s.lake n).scrubFrom + 2 ^ (s.lake n).scrubInt.toNat)).pw.now)]
               scrubFrom := (s.reach ((s.lake n).scrubFrom + 2 ^ (s.lake n).scrubInt.toNat)).pw.now
               nextRow := if (s.lake n).nextRow + 1 = 49152 then 0 else l.nextRow + 1
               passes := if (s.lake n).nextRow + 1 = 49152 then satAdd max32 l.passes 1 else l.passes }) := by
  change execScrubDue n s = _
  simp only [execScrubDue, enabled, runs, Bool.and_self, Bool.not_true, Bool.false_eq_true, if_false, decide_eq_true_eq]
  rfl

theorem exec_conversionDone {s : State} {n : Fin 24} (busy : (s.lake n).convBusy = true) :
    exec (.conversionDone n) s = .next ((s.reach (s.lake n).convDue).modLake n fun l =>
      { l with convBusy := false, idleFrom := (s.reach (s.lake n).convDue).pw.now }) := by
  change execConversionDone n s = _
  rw [execConversionDone, busy]
  rfl

theorem State.convertRow_tended (s : State) (n row : Nat) : Tended s (State.convertRow n s row) := by
  unfold State.convertRow
  extract_lets u t u1 u2
  split
  · exact .refl s
  have settled : Tended s u := (s.settle_maintained (keeps := False) row).tended
  split
  · exact settled.trans (u.setTag_tended row _)
  have counted : Tended s u1 := by
    dsimp only [u1]
    split
    · exact settled.trans (u.foundCorr_maintained (keeps := False) row t.corr 2).tended
    · exact settled
  have found : Tended s u2 := by
    dsimp only [u2]
    split
    · exact counted.trans (u1.foundBad_maintained (keeps := False) row t.bad 2 none).tended
    · exact counted
  split
  · exact found.trans (u2.mark_maintained (keeps := False) row False.elim).tended
  · exact found.trans (u2.setTag_tended row _)

/-- The queued marks of a lake written, and its write-backs and marks taken up, before its conversion (R307). -/
def State.marksWritten (s : State) (n : Nat) : State :=
  ((s.lake n).marks.foldl (fun s m => s.mark m.row m.stale) s).modLake n fun l => { l with marks := [], wbs := [] }

/-- The rows of a lake in the code of its new mode. -/
def State.recoded (s : State) (n : Nat) : State := (rowsHeld (s.marksWritten n) n).foldl (State.convertRow n) (s.marksWritten n)

/-- The conversion of a lake to a mode runs until a T-cycle. -/
def Lake.converts (mode : Bool) (due : Nat) (l : Lake) : Lake := { l with wMode := mode, convBusy := true, convDue := due, injArm := false }

theorem State.recoded_tended (s : State) (n : Nat) : Tended s (s.recoded n) := by
  have marked := Tended.foldl (fun s m => (s.mark_maintained (keeps := False) m.row (stale := m.stale) False.elim).tended) (s.lake n).marks s
  have written : Tended s (s.marksWritten n) := marked.trans (State.modLake_tended _ n _)
  exact written.trans (.foldl (fun s row => s.convertRow_tended n row) _ _)

/-! ### The registers of protection (R303, R307, R314, R324) -/

section
variable {s : State} {src : Src} {n : Fin 24}

theorem State.unless_pass {c : Ctl} {fails : List Bool} {go : State → State} (h : firstOf fails = 0) : s.unless c fails go = go s := by
  rw [State.unless, h]
  rfl

theorem State.unless_rejected {off k : Nat} {fails : List Bool} {go : State → State} (h : firstOf fails = k + 1) :
    s.unless (s.ctl src off) fails go = s.rejected src off (k + 1) := by
  rw [State.unless, h]
  rfl

theorem exec_scrubConfigWrite (open_ : s.opens src (pageOff n 0x608) 4 = true) (v : BitVec 32) :
    exec (.scrubConfigWrite src n v) s = .next (scrubSet (s.ctl src (pageOff n 0x608)) n (v.setWidth 64) s) :=
  ctlCommand_4 open_ (regHere_page n.2 (by decide)) v

theorem exec_protModeChange (open_ : s.opens src (pageOff n 0x600) 4 = true) (v : BitVec 32) :
    exec (.protModeChange src n v) s = .next (protSet (s.ctl src (pageOff n 0x600)) n (v.setWidth 64) s) :=
  ctlCommand_4 open_ (regHere_page n.2 (by decide)) v

theorem exec_eccInjectArm (open_ : s.opens src (pageOff n 0x620) 8 = true) (v : BitVec 64) :
    exec (.eccInjectArm src n v) s = .next (eccInjSet (s.ctl src (pageOff n 0x620)) n v s) :=
  ctlCommand_8 open_ (regHere_page n.2 (by decide)) v

/-- A privileged write of `LK_SCRUB` (R314). -/
theorem scrubConfigWrite_privileged (open_ : s.opens src (pageOff n 0x608) 4 = true) (privileged : s.privileged src = true) (v : BitVec 32) :
    let i := if 12 ≤ bits v 0 5 ∧ bits v 0 5 ≤ 30 then BitVec.ofNat 5 (bits v 0 5) else (s.lake n).scrubInt
    exec (.scrubConfigWrite src n v) s = .next ((s.modLake n fun l =>
      { l with scrubInt := i, scrubEn := bit v 5
               scrubFrom := if i ≠ l.scrubInt ∨ bit v 5 = true ∧ l.scrubEn = false then s.pw.now else l.scrubFrom }).reply src .ok) := by
  intro i
  have priv : (s.ctl src (pageOff n 0x608)).w.priv = true := privileged
  rw [exec_scrubConfigWrite open_, scrubSet, State.privOnly, priv, if_pos rfl]
  refine congrArg (fun u : State => Host.Outcome.next (u.reply src .ok)) (State.modLake_congr ?_)
  simp only [bits_setWidth_64, bit_setWidth_64, Bool.and_eq_true, Bool.or_eq_true, Bool.not_eq_true', decide_eq_true_eq, bne_iff_ne, i]

theorem protModeChange_same (open_ : s.opens src (pageOff n 0x600) 4 = true) (master : s.mastersLake src n = true) {v : BitVec 32}
    (same : bit v 0 = (s.lake n).wMode) : exec (.protModeChange src n v) s = .next (s.reply src .ok) := by
  have owns : s.owns (s.ctl src (pageOff n 0x600)).w n = true := master
  rw [exec_protModeChange open_, protSet, State.ownerOnly, if_pos owns]
  simp only [bit_setWidth_64, same, if_true]
  rfl

/-- What rejects a change of the mode, in the order of the conditions (R303, R307). -/
def protFails (s : State) (n : Nat) : List Bool := [!quiescent s n, (s.lp n).state != .on, (s.lake n).convBusy]

theorem protModeChange_rejected (open_ : s.opens src (pageOff n 0x600) 4 = true) (master : s.mastersLake src n = true) {v : BitVec 32}
    (other : bit v 0 ≠ (s.lake n).wMode) {k : Nat} (fails : firstOf (protFails s n) = k + 1) :
    exec (.protModeChange src n v) s = .next (s.rejected src (pageOff n 0x600) (k + 1)) := by
  have owns : s.owns (s.ctl src (pageOff n 0x600)).w n = true := master
  rw [protFails] at fails
  rw [exec_protModeChange open_, protSet, State.ownerOnly, if_pos owns]
  simp only [bit_setWidth_64, other, if_false]
  rw [State.unless_rejected fails]

theorem protModeChange_begins (open_ : s.opens src (pageOff n 0x600) 4 = true) (master : s.mastersLake src n = true) {v : BitVec 32}
    (other : bit v 0 ≠ (s.lake n).wMode) (passes : firstOf (protFails s n) = 0) :
    ∃ t, exec (.protModeChange src n v) s = .next t ∧ (t.lake n).wMode = bit v 0 ∧ (t.lake n).convBusy = true ∧
      (t.lake n).convDue = s.pw.now + 1040 ∧ t.mem = s.mem ∧ t.out = .reg src.port src.tag .ok 0 :: s.out := by
  have owns : s.owns (s.ctl src (pageOff n 0x600)).w n = true := master
  obtain ⟨mem, -, out, power⟩ := (s.recoded_tended n).same
  refine ⟨((s.recoded n).modLake n (Lake.converts (bit v 0) ((s.recoded n).pw.now + 1040))).done (s.ctl src (pageOff n 0x600)), ?_, ?_⟩
  · rw [protFails] at passes
    rw [exec_protModeChange open_, protSet, State.ownerOnly, if_pos owns]
    simp only [bit_setWidth_64, other, if_false]
    rw [State.unless_pass passes]
    rfl
  · rw [← power, ← mem, ← out]
    generalize s.recoded n = u
    have lake : ((u.modLake n (Lake.converts (bit v 0) (u.pw.now + 1040))).done (s.ctl src (pageOff n 0x600))).lake n =
        (u.lake n).converts (bit v 0) (u.pw.now + 1040) := u.modLake_lake_same _ _
    rw [lake]
    exact ⟨rfl, rfl, rfl, rfl, rfl⟩

/-- What rejects an error to be armed, in the order of the conditions (R324). -/
def injFails (s : State) (n : Nat) (v : BitVec 64) : List Bool :=
  [bit v 16 && bits v 17 2 = 3, bit v 16 && Config.rowsPerLake ≤ bits v 0 16, bit v 16 && 3 < bits v 19 5 && (s.lake n).wMode]

theorem eccInjectArm_rejected (open_ : s.opens src (pageOff n 0x620) 8 = true) (privileged : s.privileged src = true) {v : BitVec 64} {k : Nat}
    (fails : firstOf (injFails s n v) = k + 1) :
    exec (.eccInjectArm src n v) s = .next (s.rejected src (pageOff n 0x620) (k + 1)) := by
  have priv : (s.ctl src (pageOff n 0x620)).w.priv = true := privileged
  rw [injFails] at fails
  rw [exec_eccInjectArm open_, eccInjSet, State.privOnly, priv, if_pos rfl, State.unless_rejected fails]

theorem eccInjectArm_arms (open_ : s.opens src (pageOff n 0x620) 8 = true) (privileged : s.privileged src = true) {v : BitVec 64}
    (passes : firstOf (injFails s n v) = 0) :
    exec (.eccInjectArm src n v) s = .next ((s.modLake n fun l =>
      { l with injRow := BitVec.ofNat 16 (bits v 0 16), injArm := bit v 16, injKind := BitVec.ofNat 2 (bits v 17 2)
               injUnit := BitVec.ofNat 5 (bits v 19 5) }).reply src .ok) := by
  have priv : (s.ctl src (pageOff n 0x620)).w.priv = true := privileged
  rw [injFails] at passes
  rw [exec_eccInjectArm open_, eccInjSet, State.privOnly, priv, if_pos rfl, State.unless_pass passes]
  rfl

end

/-- Settles O37: the clauses about rows are what each command does to its row and lake, those about registers the branches of their writes. -/
theorem rowsMaintainedAndProtected : Obligations.RowsMaintainedAndProtected := by
  refine ⟨fun s row canonical => ⟨fun b found => writeBack_performed canonical found, fun m found => markWrite_performed found,
    fun at_ due draining runs unmarked free c hc => scrub_performed canonical due draining runs unmarked free hc⟩,
    fun s n enabled runs => exec_scrubDue enabled runs, fun s src n v open_ privileged => scrubConfigWrite_privileged open_ privileged v,
    fun s src n v open_ master => ⟨protModeChange_same open_ master, fun other busy => ?_, fun other quiet off => ?_, fun other quiet on idle => ?_⟩,
    fun s n busy => exec_conversionDone busy, fun s src n v open_ privileged => ⟨fun legal => ?_, fun arms kind => ?_, fun arms kind row => ?_,
    fun arms kind row unit wide => ?_⟩⟩
  · exact protModeChange_rejected open_ master other (k := 0) (by simp [protFails, firstOf, busy])
  · exact protModeChange_rejected open_ master other (k := 1) (by simp [protFails, firstOf, quiet, off])
  · exact protModeChange_begins open_ master other (by simp [protFails, firstOf, quiet, on, idle])
  · refine eccInjectArm_arms open_ privileged ?_
    rcases legal with unarmed | ⟨kind, row, unit | narrow⟩
    · simp [injFails, firstOf, unarmed]
    · have row : ¬ Config.rowsPerLake ≤ bits v 0 16 := Nat.not_le.2 row
      simp [injFails, firstOf, kind, row, Nat.not_lt.2 unit]
    · have row : ¬ Config.rowsPerLake ≤ bits v 0 16 := Nat.not_le.2 row
      simp [injFails, firstOf, kind, row, narrow]
  · exact eccInjectArm_rejected open_ privileged (k := 0) (by simp [injFails, firstOf, arms, kind])
  · have row : Config.rowsPerLake ≤ bits v 0 16 := row
    exact eccInjectArm_rejected open_ privileged (k := 1) (by simp [injFails, firstOf, arms, kind, row])
  · have row : ¬ Config.rowsPerLake ≤ bits v 0 16 := Nat.not_le.2 row
    exact eccInjectArm_rejected open_ privileged (k := 2) (by simp [injFails, firstOf, arms, kind, row, unit, wide])

end Sys2Proof.Machine
end

section
/-!
PROOF. Arbiters (O40). What a command does to an arbiter is said by `Arbitrated`: the arbiter takes a state, every other one stands, and of
the rest packets alone may have gone from the stops to the rings. Each stage of an arbiter's T-cycle (a beat, what its holder offers, a grant,
a decision) is described so once, and the commands are read from these.
-/
namespace Sys2Proof.Machine

-- One theorem after another: elaborated side by side, these theorems would each hold a thread and its stack.
set_option Elab.async false

/-! ### Packets that go from their stops (R66) -/

/-- From `s` to `t` packets have gone from the stops to the rings, and events have been counted. -/
def Injected (s t : State) : Prop := ∃ stops ring cnt, t = { s with stops := stops, ring := ring, cnt := cnt }

theorem Injected.refl (s : State) : Injected s s := ⟨s.stops, s.ring, s.cnt, rfl⟩

theorem Injected.trans {s t u : State} (h : Injected s t) (k : Injected t u) : Injected s u := by
  obtain ⟨_, _, _, rfl⟩ := h
  obtain ⟨stops, ring, cnt, rfl⟩ := k
  exact ⟨stops, ring, cnt, rfl⟩

theorem Injected.foldl {α : Type} {f : State → α → State} (each : ∀ s x, Injected s (f s x)) (l : List α) (s : State) :
    Injected s (l.foldl f s) := by
  induction l generalizing s with
  | nil => exact .refl s
  | cons x l ih => exact (each s x).trans (ih (f s x))

theorem State.count_injected (s : State) (o : Occ) : Injected s (s.count o) := by
  obtain ⟨cnt, counted⟩ := s.count_frame o
  exact ⟨s.stops, s.ring, cnt, counted⟩

theorem State.modStop_injected (s : State) (p : Nat) (f : Stop → Stop) : Injected s (s.modStop p f) := ⟨_, s.ring, s.cnt, rfl⟩

/-- What is held of a packet by its stop, with the T-cycle of its issue, as it enters the ring, or waits to, in T-cycle `t`. -/
def State.transitOf (s : State) (k : Packet) (t : Nat) : Transit :=
  ⟨(s.asHeld k (packetCcw k) t).1, packetCcw k, t, (s.asHeld k (packetCcw k) t).2⟩

/-- The three outcomes of a launch: the packet enters its ring, is held by its stop, or is held there already (R66). -/
theorem State.launch_eq (s : State) (k : Packet) (t : Nat) : s.launch k t =
    let h := s.transitOf k t
    if mayInject s h.k h.ccw t then s.enterRing h.k h.iss h.ccw t
    else if (s.stop h.k.src).held.any (samePacket ·.k h.k) then s
    else s.modStop h.k.src fun x => { x with held := x.held ++ [h] } := rfl

theorem State.enterRing_frame (s : State) (k : Packet) (iss : Int) (ccw : Bool) (t : Nat) : ∃ stops cnt, s.enterRing k iss ccw t =
    { s with stops := stops, ring := s.ring ++ [⟨k, ccw, t, iss⟩], cnt := cnt } := by
  unfold State.enterRing
  extract_lets u entered
  obtain ⟨cnt, counted⟩ := State.count_frame { entered with ring := entered.ring ++ [u] }
    { set := .canal, inst := 0, ev := 0x61, quals := [k.src.val], label := some k.label.val, ccw := some ccw }
  exact ⟨entered.stops, cnt, counted⟩

theorem State.launch_injected (s : State) (k : Packet) (t : Nat) : Injected s (s.launch k t) := by
  rw [State.launch_eq]
  dsimp only
  split
  · obtain ⟨stops, cnt, entered⟩ := s.enterRing_frame (s.transitOf k t).k (s.transitOf k t).iss (s.transitOf k t).ccw t
    exact ⟨stops, _, cnt, entered⟩
  · split
    · exact .refl s
    · exact s.modStop_injected _ _

/-! ### Arbiters -/

/-- From `s` to `t` the arbiter of key `k` has taken the state `x`; every other one stands, and packets may have gone to the rings. -/
structure Arbitrated (k : Nat) (x : Arb) (s t : State) : Prop where
  frame : ∃ arbs stops ring cnt, t = { s with arbs := arbs, stops := stops, ring := ring, cnt := cnt }
  same : t.arb k = x
  others : ∀ j, j ≠ k → t.arb j = s.arb j

/-- The frame as the statement writes it. -/
theorem Arbitrated.rest {k : Nat} {x : Arb} {s t : State} (h : Arbitrated k x s t) :
    t = { s with arbs := t.arbs, stops := t.stops, ring := t.ring, cnt := t.cnt } := by
  obtain ⟨_, _, _, _, rfl⟩ := h.frame
  rfl

theorem Arbitrated.weir {k : Nat} {x : Arb} {s t : State} (h : Arbitrated k x s t) : t.weir = s.weir := by
  obtain ⟨_, _, _, _, rfl⟩ := h.frame
  rfl

theorem Arbitrated.trans {k : Nat} {x y : Arb} {s t u : State} (h : Arbitrated k x s t) (h' : Arbitrated k y t u) : Arbitrated k y s u where
  frame := by
    obtain ⟨_, _, _, _, rfl⟩ := h.frame
    obtain ⟨arbs, stops, ring, cnt, rfl⟩ := h'.frame
    exact ⟨arbs, stops, ring, cnt, rfl⟩
  same := h'.same
  others j hj := (h'.others j hj).trans (h.others j hj)

theorem Injected.arbitrated {s t : State} (h : Injected s t) (k : Nat) : Arbitrated k (s.arb k) s t := by
  obtain ⟨stops, ring, cnt, rfl⟩ := h
  exact ⟨⟨s.arbs, stops, ring, cnt, rfl⟩, rfl, fun _ _ => rfl⟩

/-- Packets that go to the rings leave the arbiters as they are. -/
theorem Arbitrated.injected {k : Nat} {x : Arb} {s t u : State} (h : Arbitrated k x s t) (h' : Injected t u) : Arbitrated k x s u := by
  have tail := h'.arbitrated k
  rw [h.same] at tail
  exact h.trans tail

theorem State.modArb_arbitrated (s : State) (k : Nat) (f : Arb → Arb) : Arbitrated k (f (s.arb k)) s (s.modArb k f) :=
  ⟨⟨_, s.stops, s.ring, s.cnt, rfl⟩, s.modArb_arb_same k f, s.modArb_arb_other k f⟩

theorem State.countArb_injected (s : State) (a : ArbId) (ev : Nat) (cls : Option Nat) : Injected s (s.countArb a ev cls) := by
  unfold State.countArb
  split <;> exact s.count_injected _

/-! ### Beats (R60, R105) -/

/-- An arbiter whose holder's beat issues in T-cycle `now` (R60, R153). -/
def Arb.beaten (x : Arb) (m : Contender) (now : Nat) : Arb :=
  { x with beats := x.beats + 1, withheld := 0, want := 0, xr := m.more, xrLabel := m.label, xrAt := if m.xread then now + 1 else x.xrAt }

theorem State.beat_arbitrated {s : State} (uncapped : s.weir.cap = 0) (a : ArbId) (m : Contender) :
    Arbitrated (arbKey a) ((s.arb (arbKey a)).beaten m s.pw.now) s (s.beat a m) := by
  unfold State.beat
  extract_lets s1 s2
  have issued : Arbitrated (arbKey a) ((s.arb (arbKey a)).beaten m s.pw.now) s s1 :=
    (s.modArb_arbitrated (arbKey a) (·.beaten m s.pw.now)).injected (State.countArb_injected _ a 0x52 none)
  clear_value s1
  have cap : s1.weir.cap = 0 := by rw [issued.weir, uncapped]
  have free : s2 = s1 := by
    simp only [s2, cap, if_true]
    split <;> rfl
  rw [free]
  refine issued.injected ?_
  split
  · exact s1.modStop_injected _ _
  · exact Injected.foldl (f := fun u (h : Transit) => u.launch h.k u.pw.now) (fun u h => u.launch_injected h.k u.pw.now) _ s1
  · exact .refl s1

theorem withheld_of_uncapped {s : State} (uncapped : s.weir.cap = 0) (a : ArbId) (c : Nat) (m : Contender) : withheld s a c m = false := by
  unfold withheld
  split
  · simp [uncapped]
  · rfl

/-- With no cap a beat is held behind the transpose unit alone (R118, R153). -/
theorem State.offerBeat_uncapped {s : State} (uncapped : s.weir.cap = 0) (a : ArbId) (c : Nat) (m : Contender) :
    (unitTaken s a m = false → s.offerBeat a c m = s.beat a m) ∧ (unitTaken s a m = true → Injected s (s.offerBeat a c m)) := by
  unfold State.offerBeat
  rw [withheld_of_uncapped uncapped]
  refine ⟨fun open_ => by rw [open_]; rfl, fun taken => ?_⟩
  rw [taken, if_neg Bool.false_ne_true, if_pos rfl]
  split
  · exact s.count_injected _
  · exact .refl s

/-- What the holder offers keeps the grant: who holds it, and for how many beats. -/
theorem State.offerBeat_arbitrated {s : State} (uncapped : s.weir.cap = 0) (a : ArbId) (c : Nat) (m : Contender) :
    ∃ y : Arb, Arbitrated (arbKey a) y s (s.offerBeat a c m) ∧ y.active = (s.arb (arbKey a)).active ∧ y.last = (s.arb (arbKey a)).last ∧
      y.limit = (s.arb (arbKey a)).limit := by
  obtain ⟨issues, behind⟩ := State.offerBeat_uncapped uncapped a c m
  cases taken : unitTaken s a m with
  | false =>
    rw [issues taken]
    exact ⟨_, State.beat_arbitrated uncapped a m, rfl, rfl, rfl⟩
  | true => exact ⟨_, (behind taken).arbitrated _, rfl, rfl, rfl⟩

/-! ### Decisions (R79 to R86) -/

/-- The winner is granted: the grant is the arbiter's, for the beats of its burst (R60, R79). -/
theorem State.grantTo_arbitrated {s : State} (uncapped : s.weir.cap = 0) (a : ArbId) (x : Arb) (c : Nat) (m : Contender)
    (brk someMasked restart : Bool) :
    ∃ y : Arb, Arbitrated (arbKey a) y s (s.grantTo a x c m brk someMasked restart) ∧ y.active = true ∧ y.last = m.idx ∧
      y.limit = (arbCfgOf s a).burstM1.toNat + 1 := by
  unfold State.grantTo
  extract_lets cfg g full x' s1 s2 s3 s4 s5
  have counted (u : State) (b : Bool) (ev : Nat) (cls : Option Nat) : Injected u (if b then u.countArb a ev cls else u) := by
    split
    · exact u.countArb_injected a ev cls
    · exact .refl u
  have granted : Arbitrated (arbKey a) x' s s1 :=
    ((s.modArb_arbitrated (arbKey a) fun _ => x').injected (State.countArb_injected _ a 0x50 _)).injected (State.countArb_injected _ a 0x51 _)
  have h2 : Injected s1 s2 := counted s1 brk 0x54 none
  have h3 : Injected s2 s3 := counted s2 someMasked 0x57 (some c)
  have h4 : Injected s3 s4 := by
    change Injected s3 (if restart then (s3.countArb a 0x58).countArb a 0x59 else s3)
    split
    · exact (s3.countArb_injected a 0x58 none).trans (State.countArb_injected _ a 0x59 none)
    · exact .refl s3
  have h5 : Injected s4 s5 := counted s4 full 0x58 none
  have decided : Arbitrated (arbKey a) x' s s5 := granted.injected (((h2.trans h3).trans h4).trans h5)
  split
  · have began := decided.injected (counted s5 x.parked 0x55 none)
    have cap : (if x.parked then s5.countArb a 0x55 else s5).weir.cap = 0 := by rw [began.weir, uncapped]
    obtain ⟨y, offered, active, last, limit⟩ := State.offerBeat_arbitrated cap a c m
    rw [began.same] at active last limit
    exact ⟨y, began.trans offered, active, last, limit⟩
  · exact ⟨x', decided.injected (s5.countArb_injected a 0x53 none), rfl, rfl, rfl⟩

/-- Of masters that request, one is chosen (R79, R80). -/
theorem choose_mem (s : State) (a : ArbId) (x : Arb) (c : Nat) {ms : List Contender} (requests : ms ≠ []) :
    ∃ m ∈ ms, choose s a x c ms = some m := by
  unfold choose
  extract_lets better
  have keeps (l : List Contender) (m : Contender) : ∃ w, (w = m ∨ w ∈ l) ∧
      l.foldl (fun o m => match o with | none => some m | some n => if better m n then some m else some n) (some m) = some w := by
    induction l generalizing m with
    | nil => exact ⟨m, .inl rfl, rfl⟩
    | cons n l ih =>
      rw [List.foldl_cons]
      dsimp only
      split
      · obtain ⟨w, mem, won⟩ := ih n
        exact ⟨w, .inr (List.mem_cons.2 mem), won⟩
      · obtain ⟨w, mem, won⟩ := ih m
        exact ⟨w, mem.imp_right (List.mem_cons_of_mem _), won⟩
  obtain ⟨m, l, rfl⟩ := List.exists_cons_of_ne_nil requests
  obtain ⟨w, mem, won⟩ := keeps l m
  exact ⟨w, List.mem_cons.2 mem, won⟩

/-- The lowest class among masters, no class being above 3, is one master's, and no master's is lower. -/
theorem lowestClass {α : Type} (cls : α → Nat) {l : List α} (some_ : l ≠ []) (le : ∀ m, cls m ≤ 3) :
    (∃ m ∈ l, cls m = l.foldl (fun c m => min c (cls m)) 3) ∧ ∀ m ∈ l, l.foldl (fun c m => min c (cls m)) 3 ≤ cls m := by
  have least (l : List α) (b : Nat) : (l.foldl (fun c m => min c (cls m)) b = b ∨ ∃ m ∈ l, cls m = l.foldl (fun c m => min c (cls m)) b) ∧
      l.foldl (fun c m => min c (cls m)) b ≤ b ∧ ∀ m ∈ l, l.foldl (fun c m => min c (cls m)) b ≤ cls m := by
    induction l generalizing b with
    | nil => exact ⟨.inl rfl, Nat.le_refl b, fun _ hm => absurd hm List.not_mem_nil⟩
    | cons n l ih =>
      obtain ⟨reached, below, low⟩ := ih (min b (cls n))
      simp only [List.foldl_cons, List.mem_cons, forall_eq_or_imp, exists_eq_or_imp]
      refine ⟨?_, by omega, by omega, low⟩
      rcases reached with first | later
      · omega
      · exact .inr (.inr later)
  obtain ⟨reached, -, low⟩ := least l 3
  refine ⟨?_, low⟩
  rcases reached with first | later
  · obtain ⟨m, hm⟩ := List.exists_mem_of_ne_nil l some_
    exact ⟨m, hm, Nat.le_antisymm ((le m).trans_eq first.symm) (low m hm)⟩
  · exact later

theorem masterClass_le (s : State) (a : ArbId) (cfg : ArbCfg) (m : Contender) : masterClass s a cfg m ≤ 3 := by
  have lt (n : Nat) : n % 4 ≤ 3 := Nat.le_of_lt_succ (Nat.mod_lt n (by decide))
  unfold masterClass
  extract_lets o
  split
  · exact lt o
  · exact lt _

/-- In a new window no class is masked (R85): every quota is at least one grant. -/
theorem masked_newWindow (cfg : ArbCfg) (c : Nat) : masked cfg (0, 0, 0, 0) c = false := by
  have pos (q : BitVec 6) : quota q ≠ 0 := by
    unfold quota
    split
    · decide
    · next nonzero => exact fun zero => nonzero (BitVec.eq_of_toNat_eq zero)
  unfold masked
  split <;> simp [pos]

/-- The grants counted in the window that a decision is made in (R84). -/
def windowGrants (x : Arb) : Nat × Nat × Nat × Nat := if x.closed then (0, 0, 0, 0) else x.g

/-- The masters that a decision is made between: those not masked, or all of them where every one is, in a new window (R85). -/
def decidedAmong (s : State) (a : ArbId) (cs : List Contender) : List Contender :=
  let g := windowGrants (s.arb (arbKey a))
  if cs.all (fun m => masked (arbCfgOf s a) g (masterClass s a (arbCfgOf s a) m)) then cs
  else cs.filter fun m => !masked (arbCfgOf s a) g (masterClass s a (arbCfgOf s a) m)

theorem decidedAmong_ne_nil (s : State) (a : ArbId) {cs : List Contender} (requests : cs ≠ []) : decidedAmong s a cs ≠ [] := by
  unfold decidedAmong
  dsimp only
  split
  · exact requests
  · next open_ => simpa [List.filter_eq_nil_iff] using open_

/-- A decision with no cap grants a master of the lowest class among those it is made between (R79, R85). -/
theorem State.decide_grants {s : State} (uncapped : s.weir.cap = 0) (a : ArbId) {cs : List Contender} (requests : cs ≠ []) (brk : Bool) :
    ∃ m ∈ decidedAmong s a cs, ∃ y : Arb, Arbitrated (arbKey a) y s (s.decide a cs brk) ∧ y.active = true ∧ y.last = m.idx ∧
      y.limit = (arbCfgOf s a).burstM1.toNat + 1 ∧
      ∀ m' ∈ decidedAmong s a cs, masterClass s a (arbCfgOf s a) m ≤ masterClass s a (arbCfgOf s a) m' := by
  unfold State.decide
  extract_lets cfg x0 x cls someMasked restart x' open_ c
  have grants : x.g = windowGrants x0 := by
    change (if x0.closed then { x0 with g := (0, 0, 0, 0), closed := false } else x0 : Arb).g = _
    rw [windowGrants]
    split <;> rfl
  have among : open_ = decidedAmong s a cs := by
    unfold decidedAmong
    dsimp only
    rw [← grants]
    change cs.filter (fun m => !masked cfg (if restart then { x with g := (0, 0, 0, 0) } else x : Arb).g (cls m)) =
      if restart then cs else cs.filter fun m => !masked cfg x.g (cls m)
    split
    · simp [masked_newWindow]
    · rfl
  obtain ⟨⟨low, lowMem, lowest⟩, least⟩ := lowestClass cls (among ▸ decidedAmong_ne_nil s a requests) (masterClass_le s a cfg)
  obtain ⟨m, mem, chosen⟩ := choose_mem s a x' c (ms := open_.filter fun m => cls m = c)
    (List.ne_nil_of_mem (List.mem_filter.2 ⟨lowMem, decide_eq_true lowest⟩))
  obtain ⟨mOpen, mClass⟩ := List.mem_filter.1 mem
  obtain ⟨y, granted, active, last, limit⟩ := State.grantTo_arbitrated uncapped a x' c m brk someMasked restart
  rw [chosen]
  dsimp only
  rw [withheld_of_uncapped uncapped, Bool.and_false, if_neg Bool.false_ne_true, ← among]
  exact ⟨m, mOpen, y, granted, active, last, limit, fun m' hm' => (of_decide_eq_true mClass).trans_le (least m' hm')⟩

/-! ### The T-cycle of an arbiter (R62, R79, R82) -/

/-- The T-cycle of an arbiter without a grant: its shore is held, it parks, a drain has work, or it decides. -/
theorem State.arbStep_idle {s : State} {a : ArbId} (idle : (s.arb (arbKey a)).active = false) (ms : List Master) : s.arbStep a ms =
    if (s.arb (arbKey a)).holdFrom ≤ s.pw.now ∧ s.pw.now < (s.arb (arbKey a)).holdTo then s.countArb a 0x56
    else if contenders s a ms = [] then
      s.modArb (arbKey a) fun x => { x with active := false, parked := true, withheld := 0, want := 0 }
    else if s.draining then s.countArb a 0x56 else s.decide a (contenders s a ms) false := by
  unfold State.arbStep
  simp [idle]

/-- The T-cycle of an arbiter whose holder requests still, with beats left or source rows of an XREAD (R60, R153). -/
theorem State.arbStep_goesOn {s : State} {a : ArbId} {ms : List Master} {m : Contender} (active : (s.arb (arbKey a)).active = true)
    (open_ : ¬((s.arb (arbKey a)).holdFrom ≤ s.pw.now ∧ s.pw.now < (s.arb (arbKey a)).holdTo))
    (holder : (contenders s a ms).find? (fun m => m.idx = (s.arb (arbKey a)).last) = some m)
    (more : (s.arb (arbKey a)).fb = true ∨ (s.arb (arbKey a)).beats < (s.arb (arbKey a)).limit ∨ (s.arb (arbKey a)).xr ≠ 0) :
    s.arbStep a ms = s.offerBeat a (masterClass s a (arbCfgOf s a) m) m := by
  have goes : ((s.arb (arbKey a)).fb || Decidable.decide ((s.arb (arbKey a)).beats < (s.arb (arbKey a)).limit) || (s.arb (arbKey a)).xr != 0) = true := by
    simpa [or_assoc] using more
  have open_ : (Decidable.decide ((s.arb (arbKey a)).holdFrom ≤ s.pw.now) && Decidable.decide (s.pw.now < (s.arb (arbKey a)).holdTo)) = false := by
    simpa using open_
  unfold State.arbStep
  simp only [active, holder, goes, open_, Option.isNone_some, Bool.and_false, Bool.false_eq_true, if_false, if_true]

/-! ### The commands -/

theorem exec_arbDecision (a : ArbId) (ms : List Master) (s : State) : exec (.arbDecision a ms) s = .next (s.arbStep a ms) := rfl

/-- BURST_LIMIT ends a grant that has run its beats, and no other (R60, R153). -/
theorem exec_burstLimit (s : State) (a : ArbId) :
    let x := s.arb (arbKey a)
    (x.active = true → x.fb = false → x.limit ≤ x.beats → x.xr = 0 →
      exec (.burstLimit a) s = .next ((s.modArb (arbKey a) fun x => { x with active := false, xr := 0 }).countArb a 0x54)) ∧
    (x.active = false ∨ x.fb = true ∨ x.beats < x.limit ∨ x.xr ≠ 0 → exec (.burstLimit a) s = .next s) := by
  intro x
  have run : exec (.burstLimit a) s = if x.active && !x.fb && decide (x.limit ≤ x.beats) && decide (x.xr = 0) then
      .next ((s.modArb (arbKey a) fun x => { x with active := false, xr := 0 }).countArb a 0x54) else .next s := rfl
  rw [run]
  refine ⟨fun active fb ran xr => by simp [active, fb, ran, xr], fun stays => if_neg ?_⟩
  rcases stays with h | h | h | h <;> simp [h]

/-- QUOTA_WINDOW_CLOSE opens a full window afresh, and leaves another (R84). -/
theorem exec_quotaWindowClose (s : State) (a : ArbId) : exec (.quotaWindowClose a) s =
    .next (if (s.arb (arbKey a)).closed then s.modArb (arbKey a) fun x => { x with g := (0, 0, 0, 0), closed := false, mask := 0 } else s) := rfl

theorem State.backoffClear_backoffOf_same (s : State) (rp : RetryPt) (i : Ident) : (s.backoffClear rp i).backoffOf rp i = (1, 0) := by
  have none_ : (s.backoff.filter fun e => e.1 != (rp, i)).find? (fun e => e.1 = (rp, i)) = none := by simp
  rw [State.backoffOf, State.backoffClear, none_]

theorem State.backoffClear_backoffOf_other (s : State) {rp rp' : RetryPt} {i i' : Ident} (other : (rp', i') ≠ (rp, i)) :
    (s.backoffClear rp i).backoffOf rp' i' = s.backoffOf rp' i' := by
  have kept : (s.backoff.filter fun e => e.1 != (rp, i)).find? (fun e => e.1 = (rp', i')) = s.backoff.find? (fun e => e.1 = (rp', i')) := by
    rw [List.find?_filter]
    congr 1
    funext e
    by_cases h : e.1 = (rp', i') <;> simp [h, other]
  rw [State.backoffOf, State.backoffClear, kept, State.backoffOf]

/-- BACKOFF_RESET: once its 4,096 T-cycles have passed the count is 1, and every other one stands (R89). -/
theorem exec_backoffReset {s : State} {rp : RetryPt} {i : Ident} {c x : Nat}
    (counted : s.backoff.find? (fun e => e.1 = (rp, i)) = some ((rp, i), (c, x))) :
    ∃ t, exec (.backoffReset rp i) s = .next t ∧ t.backoffOf rp i = (1, 0) ∧ x + 4096 ≤ t.pw.now ∧
      (∀ rp' i', (rp', i') ≠ (rp, i) → t.backoffOf rp' i' = s.backoffOf rp' i') ∧ t.mem = s.mem ∧ t.out = s.out := by
  obtain ⟨cnt, lakes, springs, pw, reached, passed⟩ := s.reach_frame (x + 4096)
  have run : exec (.backoffReset rp i) s = .next ((s.reach (x + 4096)).backoffClear rp i) := by
    change execBackoffReset rp i s = _
    rw [execBackoffReset, counted]
  refine ⟨_, run, ?_, ?_, fun rp' i' other => ?_, ?_, ?_⟩
  · exact State.backoffClear_backoffOf_same _ rp i
  · rw [reached]
    exact passed
  · rw [State.backoffClear_backoffOf_other _ other, reached]
    rfl
  all_goals rw [reached]; rfl

/-- Settles O40: the branches of an arbiter's T-cycle, with what a decision grants (`State.decide_grants`) and a beat issues
(`State.beat_arbitrated`), and the two ends of a grant and a window. -/
theorem arbitersGrant : Obligations.ArbitersGrant := by
  unfold Obligations.ArbitersGrant
  refine ⟨fun s a ms idle => ?_, fun s a ms m uncapped active open_ holder more free => ?_, fun s a => ?_, fun s rp i c x => exec_backoffReset⟩
  · simp only [exec_arbDecision, State.arbStep_idle idle]
    refine ⟨fun held => by rw [if_pos held], fun open_ none_ => by rw [if_neg open_, if_pos none_],
      fun open_ some_ drain => by rw [if_neg open_, if_neg some_, if_pos drain], fun open_ some_ drain uncapped => ?_⟩
    rw [if_neg open_, if_neg some_, drain, if_neg Bool.false_ne_true]
    obtain ⟨m, among, y, granted, active, last, limit, lowest⟩ := State.decide_grants uncapped a some_ false
    refine ⟨_, m, among, rfl, ?_, ?_, ?_, lowest, granted.others, granted.rest⟩ <;> rw [granted.same]
    · exact active
    · exact last
    · exact limit
  · have beat := State.beat_arbitrated uncapped a m
    refine ⟨s.beat a m, ?_, beat.same, beat.others, beat.rest⟩
    rw [exec_arbDecision, State.arbStep_goesOn active open_ holder more, (State.offerBeat_uncapped uncapped a _ m).1 free]
  · obtain ⟨ends, stays⟩ := exec_burstLimit s a
    refine ⟨ends, stays, fun full => ?_, fun counts => ?_⟩
    · rw [exec_quotaWindowClose, if_pos full]
    · rw [exec_quotaWindowClose, counts, if_neg Bool.false_ne_true]

end Sys2Proof.Machine
end

section
/-!
PROOF. The canal (O41). What each command does to a packet or a response is said by a lemma for each of its outcomes. Where time passes
first, a stop answers as before if the table of the lakes is canonical; O41, which asks it of every state, fails for one where it is not.
-/
namespace Sys2Proof.Machine

-- One theorem after another: elaborated side by side, these theorems would each hold a thread and its stack.
set_option Elab.async false

/-! ### Injection (R66) -/

/-- PACKET_INJECT of a packet to another stop is a launch: the packet enters its ring, is held by its stop, or is held there already. -/
theorem exec_packetInject_apart {k : Packet} (apart : k.src ≠ k.dst) (s : State) : exec (.packetInject k) s = .next (s.launch k s.pw.now) :=
  if_pos (by simpa using apart)

theorem State.launch_enters {s : State} {k : Packet} {t : Nat} (may : mayInject s (s.transitOf k t).k (packetCcw k) t = true) :
    ∃ stops cnt, s.launch k t = { s with stops := stops, ring := s.ring ++ [s.transitOf k t], cnt := cnt } := by
  rw [State.launch_eq]
  exact (if_pos may).symm ▸ s.enterRing_frame _ _ _ t

/-- A packet that its stop holds nothing of, and that is a response or has none outstanding, is held as it is presented. -/
theorem State.asHeld_new {s : State} {k : Packet} {ccw : Bool} (none_held : (s.stop k.src).held.any (samePacket ·.k k) = false)
    (none_out : k.resp = true ∨ ((s.stop k.src).out ccw).any (·.k.id = k.id) = false) (t : Nat) :
    s.asHeld k ccw t = (k, (t : Int) - k.age) := by
  have none_held : (s.stop k.src).held.find? (samePacket ·.k k) = none := by simpa using none_held
  have none_out : (if k.resp then none else ((s.stop k.src).out ccw).find? (·.k.id = k.id)) = none := by
    split
    · rfl
    · next request => simpa [request] using none_out
  unfold State.asHeld
  dsimp only
  rw [none_held, none_out]

/-- A packet that is launched is on its ring, or held by its stop. -/
theorem State.launch_present {s : State} {k : Packet} {t : Nat} (new : (s.transitOf k t).k = k)
    (none_held : (s.stop k.src).held.any (samePacket ·.k k) = false) :
    s.transitOf k t ∈ (s.launch k t).ring ++ ((s.launch k t).stop k.src).held := by
  cases may : mayInject s (s.transitOf k t).k (packetCcw k) t with
  | true =>
    obtain ⟨stops, cnt, entered⟩ := State.launch_enters may
    rw [entered]
    simp
  | false =>
    rw [State.launch_eq]
    dsimp only
    rw [if_neg (by rw [show (s.transitOf k t).ccw = packetCcw k from rfl, may]; exact Bool.false_ne_true), new, none_held,
      if_neg Bool.false_ne_true, State.modStop_stop_same]
    simp

theorem State.modStop_stop (s : State) (p : Nat) (f : Stop → Stop) (q : Nat) :
    (s.modStop p f).stop q = if q = p then f (s.stop q) else s.stop q := by
  split
  · next same => rw [same, State.modStop_stop_same]
  · next other => exact State.modStop_stop_other s p f q other

/-! ### What a stop answers itself (R71, R74, R316) -/

/-- A response of status `st` to a request packet is on its way back, or held by the stop that answers. -/
def State.Answers (t : State) (k : Packet) (st : Status) : Prop :=
  ∃ u ∈ t.ring ++ (t.stop k.dst).held, u.k.id = k.id ∧ u.k.resp = true ∧ u.k.st = st ∧ u.k.src = k.dst ∧ u.k.dst = k.src

section
variable {s : State} {k : Packet} (apart : k.src ≠ k.dst)
include apart

theorem State.sendResponse_injected (st : Status) (b : Nat) : Injected s (s.sendResponse k st b) := by
  unfold State.sendResponse
  extract_lets r
  rw [if_pos (by simpa using apart)]
  exact s.launch_injected r _

theorem State.sendResponse_answers (st : Status) (b : Nat) (none_held : (s.stop k.dst).held.any (fun u => u.k.id = k.id && u.k.resp) = false) :
    (s.sendResponse k st b).Answers k st := by
  unfold State.sendResponse
  extract_lets r
  have none_held : (s.stop r.src).held.any (samePacket ·.k r) = false := by
    simpa [samePacket, r] using none_held
  have new : (s.transitOf r (s.pw.now + 1)).k = r := congrArg Prod.fst (State.asHeld_new none_held (.inl rfl) _)
  have present := State.launch_present new none_held
  rw [if_pos (by simpa using apart)]
  exact ⟨_, present, by rw [new]; exact ⟨rfl, rfl, rfl, rfl, rfl⟩⟩

end

/-! ### Arrival (R71, R90, R105) -/

/-- A packet that reaches its stop is neither absent's, refused before, nor early (R71, R74, R90). -/
structure State.Expects (s : State) (k : Packet) : Prop where
  present : stopAbsent s k.dst = false
  unrefused : (s.stop k.dst).refused.find? (fun e => e.1 = k.src.val && e.2.1 = k.idx.val) = none
  rested : s.backoffOf (.arrival k.dst) (canalIdent k.src k.idx) = (1, 0)

/-- The class of a packet has a free entry in the arrival queue of its stop (R105). -/
def State.hasEntry (s : State) (k : Packet) : Bool :=
  freeEntry ((s.stop k.dst).queue.map (·.cls)) (s.shares (queueKindAt k.dst)) (s.classOf k.label)

/-- The entry of a packet that was issued in T-cycle `iss`. -/
def State.entryOf (s : State) (k : Packet) (iss : Int) : QEntry :=
  ⟨k.id, k.src, k.idx, s.classOf k.label, k.label, k.row, k.ask, iss + k.dl.toNat⟩

/-- A packet that arrives finds in `t` what it would in `s`. -/
structure ArrivesAlike (s t : State) : Prop where
  absent : ∀ p, stopAbsent t p = stopAbsent s p
  queue : ∀ p, (t.stop p).queue = (s.stop p).queue
  refused : ∀ p, (t.stop p).refused = (s.stop p).refused
  backoff : t.backoff = s.backoff
  weir : t.weir = s.weir

theorem State.Expects.alike {s t : State} {k : Packet} (h : s.Expects k) (alike : ArrivesAlike s t) : t.Expects k where
  present := (alike.absent k.dst).trans h.present
  unrefused := by rw [alike.refused]; exact h.unrefused
  rested := by rw [State.backoffOf, alike.backoff]; exact h.rested

theorem ArrivesAlike.hasEntry {s t : State} (alike : ArrivesAlike s t) (k : Packet) : t.hasEntry k = s.hasEntry k := by
  simp only [State.hasEntry, State.shares, State.classOf, alike.queue, alike.weir]

theorem ArrivesAlike.entryOf {s t : State} (alike : ArrivesAlike s t) (k : Packet) (iss : Int) : t.entryOf k iss = s.entryOf k iss := by
  simp only [State.entryOf, State.classOf, alike.weir]

/-- A packet that its stop expects joins the queue where its class has an entry, and else is turned away and recorded. -/
theorem State.Expects.arrive {s : State} {k : Packet} (h : s.Expects k) (iss : Int) (ccw : Bool) :
    s.ejectRequest k iss ccw true = if s.hasEntry k then s.enqueue k.dst k iss else s.recordRefusal k.dst k ccw := by
  have unrefused : (s.stop k.dst).refused.find? (fun e => e.1 = k.src.val && e.2.1 = k.idx.val && e.2.2.1 != k.id) = none := by
    have := h.unrefused
    simp only [List.find?_eq_none, Bool.and_eq_true, decide_eq_true_eq, not_and] at this ⊢
    exact fun e he both => absurd both.2 (this e he both.1)
  have onTime : s.early (.arrival k.dst) (canalIdent k.src k.idx) = none := by
    rw [State.early, h.rested]
    exact if_neg (Nat.not_lt_zero _)
  unfold State.ejectRequest State.arrive
  dsimp only
  rw [h.present, if_neg Bool.false_ne_true, if_neg (by decide), unrefused]
  dsimp only
  rw [Fin.ofNat_val_eq_self, onTime]
  rfl

theorem State.enqueue_queue (s : State) (p : Nat) (k : Packet) (iss : Int) :
    ((s.enqueue p k iss).stop p).queue = (s.stop p).queue ++ [s.entryOf k iss] := by
  unfold State.enqueue
  dsimp only
  rw [State.modStop_stop_same]
  rfl

theorem State.enqueue_frame (s : State) (p : Nat) (k : Packet) (iss : Int) : ∃ stops backoff,
    s.enqueue p k iss = { s with stops := stops, backoff := backoff } := ⟨_, _, rfl⟩

theorem State.countArrival_frame (s : State) (ev p : Nat) (k : Packet) (ccw : Bool) : ∃ cnt, s.countArrival ev p k ccw = { s with cnt := cnt } := by
  unfold State.countArrival
  split <;> exact s.count_frame _

/-- The state in which a packet has been turned away, and its refusal recorded, before the RETRY goes back (R71, R89). -/
def State.refusalRecorded (s : State) (k : Packet) : State :=
  let away := s.turnAway (.arrival k.dst) (canalIdent k.src k.idx)
  away.2.modStop k.dst fun x =>
    { x with refused := x.refused.filter (fun e => !(e.1 = k.src.val && e.2.1 = k.idx.val)) ++ [(k.src.val, k.idx.val, k.id, s.pw.now + away.1)] }

theorem State.refusalRecorded_stop (s : State) (k : Packet) : (s.refusalRecorded k).stop k.dst = { s.stop k.dst with
    refused := ((s.refusalRecorded k).stop k.dst).refused } := by
  unfold State.refusalRecorded
  dsimp only
  rw [State.modStop_stop_same]
  rfl

theorem State.refusalRecorded_refused (s : State) (k : Packet) :
    ((s.refusalRecorded k).stop k.dst).refused.any (fun e => e.1 = k.src.val && e.2.1 = k.idx.val && e.2.2.1 = k.id) = true := by
  unfold State.refusalRecorded
  dsimp only
  rw [State.modStop_stop_same]
  simp

theorem State.refusalRecorded_backoffOf (s : State) (k : Packet) :
    ((s.refusalRecorded k).backoffOf (.arrival k.dst) (canalIdent k.src k.idx)).1 =
      min (2 * (s.backoffOf (.arrival k.dst) (canalIdent k.src k.idx)).1) 256 := by
  unfold State.refusalRecorded State.backoffOf
  dsimp only
  rw [State.modStop_backoff, State.turnAway, List.find?_cons_of_pos (by simp)]
  rfl

theorem State.recordRefusal_eq (s : State) (k : Packet) (ccw : Bool) : ∃ cnt, s.recordRefusal k.dst k ccw =
    State.sendResponse { s.refusalRecorded k with cnt := cnt } k .retry (s.turnAway (.arrival k.dst) (canalIdent k.src k.idx)).1 := by
  obtain ⟨c, arrival⟩ := (s.refusalRecorded k).countArrival_frame 0x5A k.dst k ccw
  obtain ⟨c', counted⟩ := State.count_frame { s.refusalRecorded k with cnt := c }
    { set := .canal, inst := 0, ev := 0x66, quals := [k.dst.val], label := some k.label.val, ccw := some ccw }
  refine ⟨c', ?_⟩
  unfold State.recordRefusal State.refusePacket
  rw [Fin.ofNat_val_eq_self]
  exact congrArg (State.sendResponse · k .retry _) ((congrArg (State.countCanal · 0x66 k.dst (some k.label.val) (some ccw)) arrival).trans counted)

theorem State.linkFail_frame (s : State) (p : Nat) (label : Option Nat) (ccw : Option Bool) :
    ∃ cnt err, s.linkFail p label ccw = { s with cnt := cnt, err := err } := by
  obtain ⟨cnt, counted⟩ := s.count_frame { set := .canal, inst := 0, ev := 0x68, quals := [p], label := label, ccw := ccw }
  have counted : s.countCanal 0x68 p label ccw = { s with cnt := cnt } := counted
  obtain ⟨err, reported⟩ := State.report_frame { s with cnt := cnt } ⟨s.pw.ns, 0, 2, Status.uncorrectable.code, p, 0x7C, 0, p, 1, 0⟩
  exact ⟨cnt, err, by rw [State.linkFail, counted]; exact reported⟩

/-- A packet turned away: RETRY goes back, its count doubles, and its engine's later packets are refused until it comes again (R71, R89). -/
theorem State.recordRefusal_refuses {s : State} {k : Packet} (apart : k.src ≠ k.dst)
    (rested : s.backoffOf (.arrival k.dst) (canalIdent k.src k.idx) = (1, 0))
    (none_held : (s.stop k.dst).held.any (fun u => u.k.id = k.id && u.k.resp) = false) (ccw : Bool) :
    let t := s.recordRefusal k.dst k ccw
    t.Answers k .retry ∧ t.out = s.out ∧ t.mem = s.mem ∧ (t.backoffOf (.arrival k.dst) (canalIdent k.src k.idx)).1 = 2 ∧
      (t.stop k.dst).queue = (s.stop k.dst).queue ∧
      (t.stop k.dst).refused.any (fun e => e.1 = k.src.val && e.2.1 = k.idx.val && e.2.2.1 = k.id) = true := by
  obtain ⟨cnt, sent⟩ := s.recordRefusal_eq k ccw
  have stop : State.stop { s.refusalRecorded k with cnt := cnt } k.dst = (s.refusalRecorded k).stop k.dst := rfl
  have answers := State.sendResponse_answers (s := { s.refusalRecorded k with cnt := cnt }) apart .retry
    (s.turnAway (.arrival k.dst) (canalIdent k.src k.idx)).1 (by rw [stop, s.refusalRecorded_stop]; exact none_held)
  have arrivals := State.sendResponse_sent { s.refusalRecorded k with cnt := cnt } k .retry
    (s.turnAway (.arrival k.dst) (canalIdent k.src k.idx)).1
  obtain ⟨stops, ring, cnt', rest⟩ := State.sendResponse_injected (s := { s.refusalRecorded k with cnt := cnt }) apart .retry
    (s.turnAway (.arrival k.dst) (canalIdent k.src k.idx)).1
  have doubled := s.refusalRecorded_backoffOf k
  rw [rested] at doubled
  intro t
  change t = _ at sent
  rw [sent]
  refine ⟨answers, ?_, ?_, ?_, ?_, ?_⟩
  · rw [rest]; rfl
  · rw [rest]; rfl
  · rw [rest]; exact doubled
  · rw [arrivals.queue, stop, s.refusalRecorded_stop]
  · rw [arrivals.refused]; exact s.refusalRecorded_refused k

/-! ### A ring is left (R65) -/

/-- Time has passed from `s` to `t`, and T-cycle `at_` has come; the lakes are as they were where their table is canonical. -/
structure TimePassed (at_ : Nat) (s t : State) : Prop where
  frame : ∃ cnt lakes springs pw, t = { s with cnt := cnt, lakes := lakes, springs := springs, pw := pw }
  come : at_ ≤ t.pw.now
  canonical : s.canonical = true → t.canonical = true
  inReset : s.canonical = true → ∀ n, (t.lake n).inReset = (s.lake n).inReset

theorem State.reach_passed (s : State) (at_ : Nat) : TimePassed at_ s (s.reach at_) := by
  obtain ⟨cnt, lakes, springs, pw, reached, come⟩ := s.reach_frame at_
  exact ⟨⟨cnt, lakes, springs, pw, reached⟩, by rw [reached]; exact come, (State.reach_steady (.refl s) at_).tables,
    fun canonical n => by rw [(State.reach_waited canonical at_).lake n]⟩

theorem State.elapse_eq_reach (s : State) : s.elapse 1 = s.reach (s.pw.now + 1) := by
  rw [State.reach, if_neg (by omega), Nat.add_sub_cancel_left]

theorem TimePassed.trans {a b : Nat} {s t u : State} (h : TimePassed a s t) (k : TimePassed b t u) (le : a ≤ b) : TimePassed a s u where
  frame := by
    obtain ⟨_, _, _, _, rfl⟩ := h.frame
    obtain ⟨cnt, lakes, springs, pw, rfl⟩ := k.frame
    exact ⟨cnt, lakes, springs, pw, rfl⟩
  come := le.trans k.come
  canonical c := k.canonical (h.canonical c)
  inReset c n := (k.inReset (h.canonical c) n).trans (h.inReset c n)

/-- A packet has left its ring at its stop: time has passed for its way, and the stop has counted its ejection. -/
structure Ejected (h : Transit) (s t : State) : Prop where
  frame : ∃ cnt lakes springs pw stops, t =
    { s with cnt := cnt, lakes := lakes, springs := springs, pw := pw, stops := stops, ring := s.ring.erase h }
  come : h.at_ + 5 + Config.hops h.k.src h.k.dst ≤ t.pw.now
  stop : ∀ p, t.stop p = { s.stop p with ejCw := (t.stop p).ejCw, ejCcw := (t.stop p).ejCcw }
  inReset : s.canonical = true → ∀ n, (t.lake n).inReset = (s.lake n).inReset

theorem State.leaveRing_ejected (s : State) (h : Transit) : Ejected h s (s.leaveRing h) := by
  unfold State.leaveRing
  extract_lets p s1 last s2 e s3
  have way : TimePassed (h.at_ + 5 + Config.hops h.k.src h.k.dst) s s1 := s.reach_passed _
  have waited : TimePassed (h.at_ + 5 + Config.hops h.k.src h.k.dst) s s2 := by
    change TimePassed _ s (if (last s1).1 = s1.pw.now && Decidable.decide (Config.stopRate p ≤ (last s1).2) then s1.elapse 1 else s1)
    split
    · rw [State.elapse_eq_reach]
      exact way.trans (s1.reach_passed _) (way.come.trans (Nat.le_succ _))
    · exact way
  have stop (q : Nat) : s3.stop q = { s2.stop q with ejCw := (s3.stop q).ejCw, ejCcw := (s3.stop q).ejCcw } := by
    have read : s3.stop q = if q = p then (if h.ccw then { s2.stop q with ejCcw := e } else { s2.stop q with ejCw := e }) else s2.stop q :=
      s2.modStop_stop p _ q
    rw [read]
    split
    · split <;> rfl
    · rfl
  obtain ⟨cnt, counted⟩ := State.count_frame { s3 with ring := s3.ring.erase h }
    { set := .canal, inst := 0, ev := 0x62, quals := [p], label := some h.k.label.val, ccw := some h.ccw }
  have counted : State.countCanal { s3 with ring := s3.ring.erase h } 0x62 p (some h.k.label) (some h.ccw) =
    { s3 with ring := s3.ring.erase h, cnt := cnt } := counted
  rw [counted]
  obtain ⟨cnt', lakes, springs, pw, rest⟩ := waited.frame
  have stops (q : Nat) : s2.stop q = s.stop q := by rw [rest]; rfl
  exact {
    frame := ⟨cnt, lakes, springs, pw, s3.stops, by
      change { s2 with stops := s3.stops, ring := s2.ring.erase h, cnt := cnt } = _
      rw [rest]⟩
    come := waited.come
    stop := fun q => (stop q).trans (by rw [stops]; rfl)
    inReset := waited.inReset }

section
variable {s t : State} {h : Transit} (left : Ejected h s t)
include left

theorem Ejected.ring : t.ring = s.ring.erase h := by
  obtain ⟨_, _, _, _, _, rfl⟩ := left.frame
  rfl

theorem Ejected.same : t.out = s.out ∧ t.mem = s.mem ∧ t.backoff = s.backoff ∧ t.weir = s.weir := by
  obtain ⟨_, _, _, _, _, rfl⟩ := left.frame
  exact ⟨rfl, rfl, rfl, rfl⟩

theorem Ejected.held (p : Nat) : (t.stop p).held = (s.stop p).held := by rw [left.stop]

theorem Ejected.out (p : Nat) (ccw : Bool) : (t.stop p).out ccw = (s.stop p).out ccw := by
  rw [left.stop]
  rfl

/-- In a canonical state the time that a packet takes changes nothing for its arrival. -/
theorem Ejected.arrivesAlike (canonical : s.canonical = true) : ArrivesAlike s t where
  absent p := by
    have inReset := left.inReset canonical
    obtain ⟨_, _, _, _, _, rfl⟩ := left.frame
    unfold stopAbsent
    split
    · rw [inReset]
    · rfl
  queue p := by rw [left.stop]
  refused p := by rw [left.stop]
  backoff := left.same.2.2.1
  weir := left.same.2.2.2

end

/-! ### Packets that leave their ring (R65 to R74, R316) -/

section
variable {s : State} {h : Transit} (found : s.ring.find? (fun t => t.k.id = h.k.id && !t.k.resp) = some h)
  (first : (s.ring.takeWhile (· != h)).any (fun u => !u.k.resp && u.k.src = h.k.src && u.k.idx = h.k.idx && u.k.dst = h.k.dst) = false)
include found first

/-- PACKET_EJECT of the first of its engine's packets to a stop. -/
theorem exec_packetEject_first (ok : Bool) : exec (.packetEject h.k.id ok) s = .next ((s.leaveRing h).ejectRequest h.k h.iss h.ccw ok) := by
  change execPacketEject h.k.id ok s = _
  rw [execPacketEject, found]
  dsimp only
  rw [first, if_neg Bool.false_ne_true]

variable (canonical : s.canonical = true)
include canonical

/-- A request for which its class has an entry joins the queue of the stop (R71, R105). -/
theorem exec_packetEject_queued (expects : s.Expects h.k) (free : s.hasEntry h.k = true) :
    ∃ t, exec (.packetEject h.k.id true) s = .next t ∧ t.ring = s.ring.erase h ∧ t.out = s.out ∧ t.mem = s.mem ∧
      h.at_ + 5 + Config.hops h.k.src h.k.dst ≤ t.pw.now ∧ (t.stop h.k.dst).queue = (s.stop h.k.dst).queue ++ [s.entryOf h.k h.iss] := by
  have left := s.leaveRing_ejected h
  have alike := left.arrivesAlike canonical
  obtain ⟨out, mem, -, -⟩ := left.same
  refine ⟨(s.leaveRing h).enqueue h.k.dst h.k h.iss, ?_, left.ring, out, mem, left.come, ?_⟩
  · rw [exec_packetEject_first found first, (expects.alike alike).arrive, alike.hasEntry, free, if_pos rfl]
  · rw [State.enqueue_queue, alike.queue, alike.entryOf]

variable (apart : h.k.src ≠ h.k.dst) (none_held : (s.stop h.k.dst).held.any (fun u => u.k.id = h.k.id && u.k.resp) = false)
include apart none_held

/-- A request for which its class has no entry is recorded, and answered with RETRY (R71, R89). -/
theorem exec_packetEject_refused (expects : s.Expects h.k) (full : s.hasEntry h.k = false) :
    ∃ t, exec (.packetEject h.k.id true) s = .next t ∧ t.Answers h.k .retry ∧ t.out = s.out ∧ t.mem = s.mem ∧
      (t.backoffOf (.arrival h.k.dst) (canalIdent h.k.src h.k.idx)).1 = 2 ∧ (t.stop h.k.dst).queue = (s.stop h.k.dst).queue ∧
      (t.stop h.k.dst).refused.any (fun e => e.1 = h.k.src.val && e.2.1 = h.k.idx.val && e.2.2.1 = h.k.id) = true := by
  have left := s.leaveRing_ejected h
  have alike := left.arrivesAlike canonical
  obtain ⟨out, mem, -, -⟩ := left.same
  obtain ⟨answers, out', mem', backoff, queue, refused⟩ :=
    State.recordRefusal_refuses apart (expects.alike alike).rested (by rw [left.held]; exact none_held) h.ccw
  refine ⟨(s.leaveRing h).recordRefusal h.k.dst h.k h.ccw, ?_, answers, out'.trans out, mem'.trans mem, backoff,
    queue.trans (alike.queue _), refused⟩
  rw [exec_packetEject_first found first, (expects.alike alike).arrive, alike.hasEntry, full, if_neg Bool.false_ne_true]

/-- A request that fails parity is answered with UNCORRECTABLE (R316). -/
theorem exec_packetEject_uncorrectable (present : stopAbsent s h.k.dst = false) :
    ∃ t, exec (.packetEject h.k.id false) s = .next t ∧ t.Answers h.k .uncorrectable ∧ t.out = s.out ∧ t.mem = s.mem := by
  have left := s.leaveRing_ejected h
  obtain ⟨out, mem, -, -⟩ := left.same
  obtain ⟨cnt, err, failed⟩ := (s.leaveRing h).linkFail_frame h.k.dst (some h.k.label) (some h.ccw)
  have answers := State.sendResponse_answers (s := { s.leaveRing h with cnt := cnt, err := err }) apart .uncorrectable 0
    (by rw [show State.stop { s.leaveRing h with cnt := cnt, err := err } = (s.leaveRing h).stop from rfl, left.held]; exact none_held)
  obtain ⟨stops, ring, cnt', rest⟩ := State.sendResponse_injected (s := { s.leaveRing h with cnt := cnt, err := err }) apart .uncorrectable 0
  refine ⟨_, ?_, answers, by rw [rest]; exact out, by rw [rest]; exact mem⟩
  rw [exec_packetEject_first found first, State.ejectRequest, (left.arrivesAlike canonical).absent, present, failed]
  rfl

/-- A request to a stop whose client is absent is answered with ABSENT, whether it fails parity or not (R74). -/
theorem exec_packetEject_absent (absent : stopAbsent s h.k.dst = true) (ok : Bool) :
    ∃ t, exec (.packetEject h.k.id ok) s = .next t ∧ t.Answers h.k .absent ∧ t.out = s.out ∧ t.mem = s.mem := by
  have left := s.leaveRing_ejected h
  obtain ⟨out, mem, -, -⟩ := left.same
  obtain ⟨cnt, counted⟩ := (s.leaveRing h).count_frame
    { set := .canal, inst := 0, ev := 0x67, quals := [h.k.dst.val], label := some h.k.label.val, ccw := some h.ccw }
  have counted : (s.leaveRing h).countCanal 0x67 h.k.dst (some h.k.label) (some h.ccw) = { s.leaveRing h with cnt := cnt } := counted
  have answers := State.sendResponse_answers (s := { s.leaveRing h with cnt := cnt }) apart .absent 0
    (by rw [show State.stop { s.leaveRing h with cnt := cnt } = (s.leaveRing h).stop from rfl, left.held]; exact none_held)
  obtain ⟨stops, ring, cnt', rest⟩ := State.sendResponse_injected (s := { s.leaveRing h with cnt := cnt }) apart .absent 0
  refine ⟨_, ?_, answers, by rw [rest]; exact out, by rw [rest]; exact mem⟩
  rw [exec_packetEject_first found first, State.ejectRequest, (left.arrivesAlike canonical).absent, absent, counted]
  rfl

end

/-! ### Injection, holding and reissue (R66 to R68, R71) -/

/-- A packet that may enter its ring does (R66, R69). -/
theorem exec_packetInject_enters {s : State} {k : Packet} (apart : k.src ≠ k.dst)
    (may : mayInject s (s.transitOf k s.pw.now).k (packetCcw k) s.pw.now = true) :
    ∃ t, exec (.packetInject k) s = .next t ∧ t.ring = s.ring ++ [s.transitOf k s.pw.now] ∧
      t = { s with ring := t.ring, stops := t.stops, cnt := t.cnt } := by
  obtain ⟨stops, cnt, entered⟩ := State.launch_enters may
  refine ⟨_, exec_packetInject_apart apart s, ?_, ?_⟩ <;> rw [entered]

/-- A packet that may not enter its ring is held by its stop, once (R66). -/
theorem exec_packetInject_held {s : State} {k : Packet} (apart : k.src ≠ k.dst)
    (may : mayInject s (s.transitOf k s.pw.now).k (packetCcw k) s.pw.now = false) :
    exec (.packetInject k) s = .next (
      if (s.stop (s.transitOf k s.pw.now).k.src).held.any (samePacket ·.k (s.transitOf k s.pw.now).k) then s
      else s.modStop (s.transitOf k s.pw.now).k.src fun x => { x with held := x.held ++ [s.transitOf k s.pw.now] }) := by
  rw [exec_packetInject_apart apart, State.launch_eq]
  exact congrArg _ (if_neg (ne_true_of_eq_false may))

/-- A request of a stop to itself takes no ring: it joins the stop's queue (R68). -/
theorem exec_packetInject_straight {s : State} {k : Packet} (own : k.src = k.dst) (request : k.resp = false)
    (none_held : (s.stop k.src).held.any (samePacket ·.k k) = false) (none_out : ((s.stop k.src).out false).any (·.k.id = k.id) = false)
    (flows : s.draining = false) (expects : s.Expects k) (free : s.hasEntry k = true) :
    ∃ t, exec (.packetInject k) s = .next t ∧ t.ring = s.ring ∧ t.out = s.out ∧
      (t.stop k.dst).queue = (s.stop k.dst).queue ++ [s.entryOf k ((s.pw.now : Int) - k.age)] := by
  let u : State := s.modStop k.src fun x => { x with held := x.held.filter fun h => !samePacket h.k k }
  have sent : Sent s u := s.modStop_sent _ (fun _ => rfl) fun _ => rfl
  have alike : ArrivesAlike s u := ⟨fun _ => rfl, sent.queue, sent.refused, rfl, rfl⟩
  have flows : u.draining = false := flows
  refine ⟨u.enqueue k.dst k ((s.pw.now : Int) - k.age), ?_, rfl, rfl, by rw [State.enqueue_queue, alike.queue, alike.entryOf]⟩
  have run : exec (.packetInject k) s = .next (s.passStraight (s.asHeld k false s.pw.now).1 (s.asHeld k false s.pw.now).2) := by
    change execPacketInject k s = _
    rw [execPacketInject, if_neg (by simpa using own), request, if_neg Bool.false_ne_true]
  rw [run, State.asHeld_new none_held (.inr none_out), State.passStraight]
  dsimp only
  rw [flows, if_neg Bool.false_ne_true, (expects.alike alike).arrive, alike.hasEntry, free, if_pos rfl]

theorem Stop.setStarving_starving (x : Stop) (ccw b : Bool) : (x.setStarving ccw b).starving ccw = b := by cases ccw <;> rfl

/-- STOP_STARVING: a stop that has held a packet for 32 T-cycles starves in its direction (R67). -/
theorem exec_stopStarving {s : State} {p : Fin 47} {ccw : Bool} {h : Transit}
    (holds : (s.stop p).held.find? (fun t => t.ccw = ccw && t.k.src != t.k.dst) = some h) (fed : (s.stop p).starving ccw = false) :
    ∃ t, exec (.stopStarving p ccw) s = .next t ∧ (t.stop p).starving ccw = true ∧ h.at_ + 32 ≤ t.pw.now ∧ t.ring = s.ring ∧ t.mem = s.mem := by
  have run : ∃ stops cnt, exec (.stopStarving p ccw) s =
      .next (State.modStop { s.reach (h.at_ + 32) with stops := stops, cnt := cnt } p fun x => x.setStarving ccw true) := by
    change ∃ stops cnt, execStopStarving p ccw s = _
    rw [execStopStarving, holds]
    dsimp only
    rw [fed, if_neg Bool.false_ne_true]
    cases nextFull (s.reach (h.at_ + 32)) p ccw with
    | none => exact ⟨_, _, rfl⟩
    | some r =>
      obtain ⟨cnt, counted⟩ := State.count_frame ((s.reach (h.at_ + 32)).modStop p fun x => { x with rsv := x.rsv ++ [(ccw, r)] })
        { set := .canal, inst := 0, ev := 0x65, quals := [p.val], ccw := some ccw }
      exact ⟨_, cnt, congrArg (fun u : State => Host.Outcome.next (u.modStop p fun x => x.setStarving ccw true)) counted⟩
  obtain ⟨stops, cnt, run⟩ := run
  have waited := s.reach_passed (h.at_ + 32)
  have come := waited.come
  obtain ⟨_, _, _, _, passed⟩ := waited.frame
  refine ⟨_, run, ?_, come, ?_, ?_⟩
  · rw [State.modStop_stop_same, Stop.setStarving_starving]
  · rw [State.modStop_ring, passed]
  · rw [State.modStop_mem, passed]

/-- STOP_REISSUE: once its backoff has expired a refused request enters its ring again (R71). -/
theorem exec_stopReissue {s : State} {p dst idx : Fin 47} {k : Packet} {e : Nat}
    (copy : (s.stop p).copies.filter (fun c => c.1.dst = dst && c.1.idx = idx) = [(k, e)]) (apart : p ≠ dst) :
    let u := (s.reach e).modStop p fun x => { x with copies := x.copies.filter fun c => !(c.1.dst = dst && c.1.idx = idx) }
    mayInject u (u.transitOf k u.pw.now).k (packetCcw k) u.pw.now = true →
      ∃ t, exec (.stopReissue p dst idx) s = .next t ∧ t.ring = s.ring ++ [u.transitOf k u.pw.now] ∧ e ≤ t.pw.now ∧ t.out = s.out ∧
        t.mem = s.mem := by
  intro u may
  have waited := s.reach_passed e
  have run : exec (.stopReissue p dst idx) s = .next (u.launch k u.pw.now) := by
    change execStopReissue p dst idx s = _
    rw [execStopReissue, copy]
    simp only [List.cons_ne_nil, if_false, List.foldl_cons, List.foldl_nil, Nat.zero_max, apart]
    rfl
  obtain ⟨stops, cnt, entered⟩ := State.launch_enters may
  have come := waited.come
  obtain ⟨_, _, _, _, passed⟩ := waited.frame
  have ring : u.ring = s.ring := by rw [State.modStop_ring, passed]
  refine ⟨_, run, ?_, ?_, ?_, ?_⟩ <;> rw [entered]
  · rw [ring]
  · exact come
  · change (s.reach e).out = s.out
    rw [passed]
  · change (s.reach e).mem = s.mem
    rw [passed]

/-! ### Responses (R34, R66, R71, R73, R250, R316) -/

/-- A response from another die is driven at the port that asked, once, with UNCORRECTABLE where it fails parity (R34, R250, R316). -/
theorem exec_responseEject_remote {s : State} {r : Remote} {c : Src} (none_mail : s.inbox.find? (·.id = r.id) = none)
    (asked : s.remotes.find? (·.id = r.id) = some r) (from_ : r.src = some c) (st : Status) (d : List Word) :
    (∃ u : State, exec (.responseEject r.id st d true) s = .next (u.emit (.resp c.port c.tag st d 0 0)) ∧
      u = { s with remotes := s.remotes.filter (·.id != r.id), weir := u.weir }) ∧
    (∃ u : State, exec (.responseEject r.id st d false) s = .next (u.emit (.resp c.port c.tag .uncorrectable d 0 0)) ∧
      u = { s with remotes := s.remotes.filter (·.id != r.id), weir := u.weir, cnt := u.cnt, err := u.err }) := by
  let w : State := { s with remotes := s.remotes.filter (·.id != r.id) }
  have run (ok : Bool) : exec (.responseEject r.id st d ok) s = .next (s.remoteAnswer r st d ok) := by
    change execResponseEject r.id st d ok s = _
    rw [execResponseEject, none_mail, asked]
  constructor
  · obtain ⟨weir, late⟩ := w.deadlines_frame r.who r.op false (some r.pos) w.pw.now
    refine ⟨{ w with weir := weir }, ?_, rfl⟩
    rw [run, ← late]
    unfold State.remoteAnswer
    rw [from_]
    rfl
  · obtain ⟨cnt, err, failed⟩ := w.linkFail_frame r.who.pos none none
    obtain ⟨weir, late⟩ := (w.linkFail r.who.pos none none).deadlines_frame r.who r.op false (some r.pos) (w.linkFail r.who.pos none none).pw.now
    refine ⟨{ w with weir := weir, cnt := cnt, err := err }, ?_, rfl⟩
    have answered : (w.linkFail r.who.pos none none).deadlines r.who r.op false (some r.pos) (w.linkFail r.who.pos none none).pw.now =
      { w with weir := weir, cnt := cnt, err := err } := by rw [late, failed]
    rw [run, ← answered]
    unfold State.remoteAnswer
    rw [from_]
    rfl

theorem State.deliver_closes {s : State} {k : Packet} (final : k.st ≠ .retry) :
    s.deliver k = (s.closePacket k.dst k.id k.parts).emit (.packet k.dst k.id k.st k.data k.backoff) := if_neg final

theorem Stop.closed_out (x : Stop) (id n : Nat) (ccw : Bool) :
    Stop.out { x with outCw := closeOut id n x.outCw, outCcw := closeOut id n x.outCcw } ccw = closeOut id n (x.out ccw) := by
  cases ccw <;> rfl

section
variable {s : State} {h : Transit} (none_mail : s.inbox.find? (·.id = h.k.id) = none) (none_asked : s.remotes.find? (·.id = h.k.id) = none)
  (found : s.ring.find? (fun t => t.k.id = h.k.id && t.k.resp) = some h) (st : Status) (d : List Word)
include none_mail none_asked found

/-- RESPONSE_EJECT of a response on a ring, which carries its own status and data. -/
theorem exec_responseEject_ring (ok : Bool) : exec (.responseEject h.k.id st d ok) s = .next (s.ejectResponse h ok) := by
  change execResponseEject h.k.id st d ok s = _
  rw [execResponseEject, none_mail, none_asked, found]

/-- A response other than RETRY leaves its ring and closes its request (R66, R73). -/
theorem exec_responseEject_delivered (final : h.k.st ≠ .retry) :
    ∃ t, exec (.responseEject h.k.id st d true) s = .next t ∧ t.ring = s.ring.erase h ∧
      t.out = .packet h.k.dst h.k.id h.k.st h.k.data h.k.backoff :: s.out ∧
      (∀ ccw, (t.stop h.k.dst).out ccw = closeOut h.k.id h.k.parts ((s.stop h.k.dst).out ccw)) ∧ t.mem = s.mem := by
  have left := s.leaveRing_ejected h
  obtain ⟨out, mem, -, -⟩ := left.same
  refine ⟨_, (exec_responseEject_ring none_mail none_asked found st d true).trans
    (congrArg _ (State.deliver_closes (s := s.leaveRing h) final)), left.ring, ?_, fun ccw => ?_, mem⟩
  · rw [State.emit_out]
    exact congrArg _ out
  · rw [State.emit_stop, State.closePacket, State.modStop_stop_same, Stop.closed_out, left.out]

/-- A response that fails parity is delivered with UNCORRECTABLE (R316). -/
theorem exec_responseEject_uncorrectable :
    ∃ t, exec (.responseEject h.k.id st d false) s = .next t ∧ t.ring = s.ring.erase h ∧
      t.out = .packet h.k.dst h.k.id .uncorrectable h.k.data h.k.backoff :: s.out ∧ t.mem = s.mem := by
  have left := s.leaveRing_ejected h
  obtain ⟨out, mem, -, -⟩ := left.same
  obtain ⟨cnt, err, failed⟩ := (s.leaveRing h).linkFail_frame h.k.dst (some h.k.label) (some h.ccw)
  have final : ({ h.k with st := .uncorrectable } : Packet).st ≠ .retry := Status.noConfusion
  refine ⟨State.deliver { s.leaveRing h with cnt := cnt, err := err } { h.k with st := .uncorrectable }, ?_, ?_, ?_, ?_⟩
  · rw [exec_responseEject_ring none_mail none_asked found, State.ejectResponse, ← failed]
    rfl
  all_goals rw [State.deliver_closes final]
  · exact left.ring
  · exact congrArg _ out
  · exact mem

/-- A RETRY leaves its ring and stays at the stop, which keeps the request to issue it again once the backoff has expired (R71, R90). -/
theorem exec_responseEject_retry {o : Transit} (retry : h.k.st = .retry)
    (waits : ((s.stop h.k.dst).outCw ++ (s.stop h.k.dst).outCcw).find? (·.k.id = h.k.id) = some o) (own : o.k.src = h.k.dst) :
    ∃ t, exec (.responseEject h.k.id st d true) s = .next t ∧ t.ring = s.ring.erase h ∧ t.out = s.out ∧ t.mem = s.mem ∧
      (o.k, t.pw.now + h.k.backoff) ∈ (t.stop h.k.dst).copies ∧ (∀ ccw, (t.stop h.k.dst).out ccw = (s.stop h.k.dst).out ccw) := by
  have left := s.leaveRing_ejected h
  obtain ⟨out, mem, -, -⟩ := left.same
  have waits : (((s.leaveRing h).stop h.k.dst).outCw ++ ((s.leaveRing h).stop h.k.dst).outCcw).find? (·.k.id = h.k.id) = some o := by
    rw [left.stop]
    exact waits
  have kept : (s.leaveRing h).deliver h.k = (s.leaveRing h).keepCopy o.k h.k.backoff := by
    rw [State.deliver, if_pos retry, waits]
  refine ⟨_, (exec_responseEject_ring none_mail none_asked found st d true).trans (congrArg _ kept), left.ring, out, mem, ?_, fun ccw => ?_⟩
  all_goals rw [State.keepCopy, own, State.modStop_stop_same]
  · simp
  · exact left.out _ ccw

end

/-- A T-cycle passes, or none. -/
theorem State.elapse_if (s : State) (c : Prop) [Decidable c] : ∃ cnt lakes springs pw,
    (if c then s.elapse 1 else s) = { s with cnt := cnt, lakes := lakes, springs := springs, pw := pw } ∧
      pw.now = s.pw.now + if c then 1 else 0 := by
  split
  · obtain ⟨cnt, counted⟩ : ∃ cnt, s.countLevels 1 = { s with cnt := cnt } := by
      rw [State.countLevels]
      split
      · exact ⟨s.cnt, rfl⟩
      · exact ⟨_, rfl⟩
    obtain ⟨lakes, filled⟩ : ∃ lakes, State.refill { s with cnt := cnt } 1 = { s with cnt := cnt, lakes := lakes } := by
      rw [State.refill]
      split
      · exact ⟨s.lakes, rfl⟩
      · exact ⟨_, rfl⟩
    rw [State.elapse, counted, filled]
    exact ⟨_, _, _, _, rfl, rfl⟩
  · exact ⟨s.cnt, s.lakes, s.springs, s.pw, rfl, rfl⟩

/-- CLIENT_TAKES_REQUEST frees the entry, in the next T-cycle where the stop has delivered as many as it may in this one (R105). -/
theorem exec_clientTakesRequest {s : State} {p : Fin 47} {id : Nat} (client : Config.posLake p = none)
    (waits : (s.stop p).queue.any (·.id = id) = true) :
    ∃ t, exec (.clientTakesRequest p id) s = .next t ∧ t.out = .delivered p id :: s.out ∧ t.ring = s.ring ∧ t.mem = s.mem ∧
      (t.stop p).queue = (s.stop p).queue.filter (·.id != id) ∧
      t.pw.now = s.pw.now + (if (s.stop p).took.1 = s.pw.now ∧ Config.stopRate p ≤ (s.stop p).took.2 then 1 else 0) := by
  obtain ⟨cnt, lakes, springs, pw, waited, now⟩ := s.elapse_if ((s.stop p).took.1 = s.pw.now ∧ Config.stopRate p ≤ (s.stop p).took.2)
  have run : exec (.clientTakesRequest p id) s =
      .next ((State.modStop { s with cnt := cnt, lakes := lakes, springs := springs, pw := pw } p fun x =>
        { x with queue := x.queue.filter (·.id != id), took := (pw.now, if x.took.1 = pw.now then x.took.2 + 1 else 1) }).emit (.delivered p id)) := by
    change execClientTakesRequest p id s = _
    rw [execClientTakesRequest, client, waits, if_neg (by decide)]
    simp only [Bool.and_eq_true, decide_eq_true_eq]
    rw [waited]
  refine ⟨_, run, rfl, rfl, rfl, ?_, now⟩
  rw [State.emit_stop, State.modStop_stop_same]
  rfl

/-! ### A state whose table of lakes is not canonical (O41)

A lake listed twice reads as its first entry. Where that entry lacks tokens alone, the tokens that it is given while a packet travels make it
equal to an unlisted one, so that it is dropped, and the lake reads as its second entry from then on: in reset, and so ABSENT (R74). -/

/-- A request from position 46 on its way to lake 0, at position 0. -/
def requestToLake0 : Transit :=
  ⟨{ id := 9, src := 46, dst := 0, resp := false, idx := 1, label := 5, ask := ⟨.read, 0, 8, false⟩, row := 7 }, false, 0, 0⟩

/-- A block with a power cap that lists lake 0 twice: with 95 tokens, and in reset. -/
def lakeListedTwice : State := { State.reset with
  tm := { Global.reset with ready := true }
  weir := { State.reset.weir with cap := 1 }
  lakes := [(0, { Lake.reset with tokens := 95 }), (0, { Lake.reset with inReset := true })]
  ring := [requestToLake0] }

/-- Refutes O41: its clause about a request that reaches its stop asks no canonical form of the state, and with lake 0 listed twice a request
that finds the lake present and the queue empty is answered with ABSENT. In the canonical states, which reset and every command keep
(`exec_canonical`), the clause holds (`exec_packetEject_queued`, `exec_packetEject_refused`, `exec_packetEject_uncorrectable`,
`exec_packetEject_absent`); the others hold in every state, by the lemmas of their commands above. -/
theorem not_packetsAndResponsesTravel : ¬ Obligations.PacketsAndResponsesTravel := by
  rintro ⟨⟨-, -, -, eject, -⟩, -⟩
  have found : lakeListedTwice.ring.find? (fun t => t.k.id = requestToLake0.k.id && !t.k.resp) = some requestToLake0 := by decide +kernel
  have first : (lakeListedTwice.ring.takeWhile (· != requestToLake0)).any (fun u => !u.k.resp && u.k.src = requestToLake0.k.src &&
    u.k.idx = requestToLake0.k.idx && u.k.dst = requestToLake0.k.dst) = false := by decide +kernel
  obtain ⟨t, run, -, -, -, -, queued⟩ := (eject lakeListedTwice requestToLake0 found first).1 (by decide +kernel) (by decide +kernel)
    (by decide +kernel) (by decide +kernel)
  have turnedAway : (((lakeListedTwice.leaveRing requestToLake0).ejectRequest requestToLake0.k requestToLake0.iss requestToLake0.ccw true).stop
    requestToLake0.k.dst).queue = [] := by decide +kernel
  obtain rfl := Host.Outcome.next.inj ((exec_packetEject_first found first true).symm.trans run)
  exact absurd (turnedAway.symm.trans queued) (by simp)

end Sys2Proof.Machine
end

section
/-!
PROOF. The configuration of arbiters and shores (O11). A write of a register of an arbiter set changes its set alone. A write of the splits is
refused under the first of three conditions that holds (`shoreFails`), and sets both splits where none does.
-/
namespace Sys2Proof.Machine

section
variable {s : State} {src : Src} {n : Fin 24} {v : BitVec 32}

/-! ### Arbiter sets (R92, R93, R97) -/

section
variable {i : Fin 5} {which : Fin 3}

/-- A write of 4 bytes that reaches a register of a lake's arbiter set. -/
theorem exec_arbConfigWrite (open_ : s.opens src (arbOff (.lake n i) which) 4 = true) (v : BitVec 32) :
    exec (.arbConfigWrite src (.lake n i) which v) s =
      .next (arbCfgSet (s.ctl src (arbOff (.lake n i) which)) (.lake n i) which (v.setWidth 64) s) := by
  have run : exec (.arbConfigWrite src (.lake n i) which v) s =
    .next (arbCfgSet (s.ctl src (arbOff (.lake n i) which)) (.lake (Fin.ofNat 24 n) (Fin.ofNat 5 i)) which (v.setWidth 64) s) :=
    ctlCommand_4 open_ (regHere_lkArb n i which) v
  rwa [Fin.ofNat_val_eq_self, Fin.ofNat_val_eq_self] at run

/-- A privileged write of `LK_ARB_CTL` (R92). -/
theorem arbConfigWrite_control (open_ : s.opens src (arbOff (.lake n i) 0) 4 = true) (privileged : s.privileged src = true) :
    exec (.arbConfigWrite src (.lake n i) 0 v) s = .next ((s.setArbSet n i
      { (s.lake n).arbSet i with burstM1 := BitVec.ofNat 5 (bits v 0 5), fallback := bit v 8 }).reply src .ok) := by
  have priv : (s.ctl src (arbOff (.lake n i) (0 : Fin 3))).w.priv = true := privileged
  rw [exec_arbConfigWrite (which := 0) open_, arbCfgSet.eq_def, State.privOnly, if_pos priv]
  simp only [bits_setWidth_64, bit_setWidth_64]
  rfl

/-- A privileged write of `LK_ARB_QUOTA` (R93). -/
theorem arbConfigWrite_quotas (open_ : s.opens src (arbOff (.lake n i) 1) 4 = true) (privileged : s.privileged src = true) :
    exec (.arbConfigWrite src (.lake n i) 1 v) s = .next ((s.setArbSet n i
      { (s.lake n).arbSet i with
        q0 := BitVec.ofNat 6 (bits v 0 6), q1 := BitVec.ofNat 6 (bits v 8 6), q2 := BitVec.ofNat 6 (bits v 16 6) }).reply src .ok) := by
  have priv : (s.ctl src (arbOff (.lake n i) (1 : Fin 3))).w.priv = true := privileged
  rw [exec_arbConfigWrite (which := 1) open_, arbCfgSet.eq_def, State.privOnly, if_pos priv]
  simp only [bits_setWidth_64]
  rfl

end

/-! ### Shore splits (R54, R55, R58, R375) -/

/-- The split that a shore has after a write that carries `k` for it: a 3 leaves it as it was (R55). -/
def splitWritten (old : BitVec 2) (k : Nat) : BitVec 2 := if k = 3 then old else BitVec.ofNat 2 k

/-- What rejects a write of a lake's splits, in the order of the conditions: of a shore that it changes, a request under way, or an open take
(R58); of the lake, a march test (R375). -/
def shoreFails (s : State) (n : Nat) (v : BitVec 32) : List Bool :=
  let a := splitWritten (s.lake n).aSplit (bits v 0 2)
  let b := splitWritten (s.lake n).bSplit (bits v 2 2)
  let ca := a != (s.lake n).aSplit
  let cb := b != (s.lake n).bSplit
  [(ca && shoreBusy s n false) || (cb && shoreBusy s n true), (ca && takeOn s n false) || (cb && takeOn s n true), (ca || cb) && (s.mte n).busy]

variable (open_ : s.opens src (pageOff n 0x80) 4 = true)
include open_

theorem exec_shoreCfgWrite (v : BitVec 32) :
    exec (.shoreCfgWrite src n v) s = .next (shoreCfgSet (s.ctl src (pageOff n 0x80)) n (v.setWidth 64) s) :=
  ctlCommand_4 open_ (regHere_page n.2 (by decide)) v

theorem shoreCfgWrite_foreign (foreign : s.mastersLake src n = false) :
    exec (.shoreCfgWrite src n v) s = .next (s.reply src .nackOwner) := by
  have owns : ¬ s.owns (s.ctl src (pageOff n 0x80)).w n = true := ne_true_of_eq_false foreign
  rw [exec_shoreCfgWrite open_, shoreCfgSet.eq_def, State.ownerOnly, if_neg owns]
  rfl

variable (master : s.mastersLake src n = true)
include master

/-- A write by a master of the lake sets its splits, but where one of `shoreFails` holds. -/
theorem shoreCfgWrite_master : exec (.shoreCfgWrite src n v) s =
    .next (s.unless (s.ctl src (pageOff n 0x80)) (shoreFails s n v) fun s => (s.modLake n fun l =>
      { l with aSplit := splitWritten (s.lake n).aSplit (bits v 0 2), bSplit := splitWritten (s.lake n).bSplit (bits v 2 2) }).reply src .ok) := by
  have owns : s.owns (s.ctl src (pageOff n 0x80)).w n = true := master
  rw [exec_shoreCfgWrite open_, shoreCfgSet.eq_def, State.ownerOnly, if_pos owns]
  simp only [bits_setWidth_64]
  rfl

theorem shoreCfgWrite_rejected {k : Nat} (fails : firstOf (shoreFails s n v) = k + 1) :
    exec (.shoreCfgWrite src n v) s = .next (s.rejected src (pageOff n 0x80) (k + 1)) := by
  rw [shoreCfgWrite_master open_ master, State.unless_rejected fails]

theorem shoreCfgWrite_sets (passes : firstOf (shoreFails s n v) = 0) :
    exec (.shoreCfgWrite src n v) s = .next ((s.modLake n fun l =>
      { l with aSplit := splitWritten (s.lake n).aSplit (bits v 0 2), bSplit := splitWritten (s.lake n).bSplit (bits v 2 2) }).reply src .ok) := by
  rw [shoreCfgWrite_master open_ master, State.unless_pass passes]

end

/-- Settles O11: a write of an arbiter's register replaces its set, and what rejects one of the splits is the first of `shoreFails` that
holds. -/
theorem arbitersAndShoresConfigured : Obligations.ArbitersAndShoresConfigured := by
  refine ⟨fun s src n i v privileged => ⟨fun open_ => arbConfigWrite_control open_ privileged,
    fun open_ => arbConfigWrite_quotas open_ privileged⟩, fun s src n v open_ => ?_⟩
  intro l a b busy taken tested refused
  have conditions : shoreFails s n v = [decide busy, decide taken, decide tested] := by
    simp only [busy, taken, tested, Bool.decide_and, Bool.decide_or, Bool.decide_eq_true, ne_eq, decide_not]
    rfl
  refine ⟨shoreCfgWrite_foreign open_, fun master => ⟨fun h₁ => ?_, fun h₁ h₂ => ?_, fun h₁ h₂ h₃ => ?_, fun h₁ h₂ h₃ => ?_⟩⟩
  · exact shoreCfgWrite_rejected open_ master (k := 0) (by simp [conditions, firstOf, h₁])
  · exact shoreCfgWrite_rejected open_ master (k := 1) (by simp [conditions, firstOf, h₁, h₂])
  · exact shoreCfgWrite_rejected open_ master (k := 2) (by simp [conditions, firstOf, h₁, h₂, h₃])
  · exact shoreCfgWrite_sets open_ master (by simp [conditions, firstOf, h₁, h₂, h₃])

end Sys2Proof.Machine
end

section
/-!
SUPPORT. Timestamps and reports, as the power loop (O42) and the error log (O43) use them: waiting for a timestamp reaches it and changes what
time does alone, and a report is discarded, taken or lost.
-/
namespace Sys2Proof.Machine

/-! ### Time that passes to a timestamp (R330, R331) -/

theorem tCyclesFor_reaches (cur frac dns : Nat) : 8 * dns ≤ frac + tCyclesFor cur frac dns * Config.divider cur := by
  have positive : 0 < Config.divider cur := by
    unfold Config.divider
    split <;> decide
  have rounded := Nat.lt_div_mul_add (a := 8 * dns - frac + Config.divider cur - 1) positive
  unfold tCyclesFor
  omega

/-- T-cycles that pass are seen in what they count, in the lakes' tokens, in the flags of descriptors, and in the time. -/
theorem State.elapse_frame (s : State) (dt : Nat) : ∃ cnt lakes springs, s.elapse dt =
    { s with
      cnt := cnt, lakes := lakes, springs := springs
      pw := { s.pw with
        now := s.pw.now + dt, ns := s.pw.ns + (s.pw.frac + dt * Config.divider s.pw.cur) / 8
        frac := (s.pw.frac + dt * Config.divider s.pw.cur) % 8 } } := by
  obtain ⟨cnt, counted⟩ : ∃ cnt, s.countLevels dt = { s with cnt := cnt } := by
    rw [State.countLevels]
    split <;> exact ⟨_, rfl⟩
  obtain ⟨lakes, filled⟩ : ∃ lakes, State.refill { s with cnt := cnt } dt = { s with cnt := cnt, lakes := lakes } := by
    rw [State.refill]
    split <;> exact ⟨_, rfl⟩
  rw [State.elapse, counted, filled]
  exact ⟨_, _, _, rfl⟩

/-- A timestamp that is waited for is reached. -/
theorem State.reachNs_frame (s : State) (at_ : Nat) : ∃ cnt lakes springs now ns frac, s.reachNs at_ =
    { s with cnt := cnt, lakes := lakes, springs := springs, pw := { s.pw with now := now, ns := ns, frac := frac } } ∧ at_ ≤ ns := by
  unfold State.reachNs
  split
  · next reached => exact ⟨s.cnt, s.lakes, s.springs, s.pw.now, s.pw.ns, s.pw.frac, rfl, reached⟩
  split
  · obtain ⟨cnt, lakes, springs, passed⟩ := s.elapse_frame (tCyclesFor s.pw.cur s.pw.frac (at_ - s.pw.ns))
    have reaches := tCyclesFor_reaches s.pw.cur s.pw.frac (at_ - s.pw.ns)
    exact ⟨cnt, lakes, springs, _, _, _, passed, by omega⟩
  · exact ⟨s.cnt, s.lakes, s.springs, s.pw.now, _, s.pw.frac, rfl, by omega⟩

theorem State.reachNs_weir (s : State) (at_ : Nat) : (s.reachNs at_).weir = s.weir := by
  obtain ⟨_, _, _, _, _, _, waited, -⟩ := s.reachNs_frame at_
  rw [waited]

theorem State.reachNs_err (s : State) (at_ : Nat) : (s.reachNs at_).err = s.err := by
  obtain ⟨_, _, _, _, _, _, waited, -⟩ := s.reachNs_frame at_
  rw [waited]

theorem State.reachNs_i3c (s : State) (at_ : Nat) : (s.reachNs at_).i3c = s.i3c := by
  obtain ⟨_, _, _, _, _, _, waited, -⟩ := s.reachNs_frame at_
  rw [waited]

theorem State.le_reachNs_ns (s : State) (at_ : Nat) : at_ ≤ (s.reachNs at_).pw.ns := by
  obtain ⟨_, _, _, _, _, _, waited, reached⟩ := s.reachNs_frame at_
  rw [waited]
  exact reached

theorem State.reachNs_periodPower (s : State) (at_ : Nat) : (s.reachNs at_).periodPower = s.periodPower := by
  obtain ⟨_, _, _, _, _, _, waited, -⟩ := s.reachNs_frame at_
  rw [waited]
  rfl

/-! ### Reports (R320) -/

section
variable {s : State} {r : Rec}

theorem State.report_discarded (discarded : bit s.err.recEn r.cls = false) : s.report r = s := by
  rw [State.report, discarded]
  rfl

theorem State.report_taken (recorded : bit s.err.recEn r.cls = true) (room : s.err.intake.length < 16) :
    s.report r = { s with err := { s.err with intake := s.err.intake ++ [r] } } := by
  rw [State.report, recorded, if_neg (by decide), if_neg (Nat.not_le.2 room)]

theorem State.report_lost (recorded : bit s.err.recEn r.cls = true) (full : 16 ≤ s.err.intake.length) :
    s.report r = { s with err := { s.err with
      lost := true
      lostC := Tab.set (fun _ => 0) s.err.lostC r.cls (satAdd max32 (Tab.get (fun _ => 0) s.err.lostC r.cls) 1) } } := by
  rw [State.report, recorded, if_neg (by decide), if_pos full]

end

/-- A report changes the log alone, and takes the last place of an intake that has room. -/
theorem State.report_enters (s : State) (r : Rec) : ∃ err, s.report r = { s with err := err } ∧
    (bit s.err.recEn r.cls = true → s.err.intake.length < 16 → err.intake = s.err.intake ++ [r]) := by
  obtain ⟨err, reported⟩ := s.report_frame r
  refine ⟨err, reported, fun recorded room => ?_⟩
  rw [State.report_taken recorded room] at reported
  exact (congrArg (·.err.intake) reported).symm

end Sys2Proof.Machine
end

section
/-!
PROOF. The power loop (O42). What a period makes of the weir is said case by case, by where the power lies against the cap, the allowance against
its least and its largest, and the counts against eight and a hundred periods. The command adds a report at most (`exec_pcapPeriod`).
-/
namespace Sys2Proof.Machine

/-! ### A period of the power loop (R116) -/

section
variable {w : Weir} {p : Nat}

/-- The allowance after a period above the cap. -/
def Weir.loweredAllow (w : Weir) (p : Nat) : Nat := max 8 (w.allow - (w.allow * (p - w.cap.toNat) + p - 1) / p)

/-- The allowance after a period at or below the cap. -/
def Weir.raisedAllow (w : Weir) (p : Nat) : Nat := if 100 * p < 98 * w.cap.toNat then min 96 (w.allow + 4) else w.allow

theorem Weir.period_uncapped (uncapped : w.cap.toNat = 0) :
    w.period p = ({ w with pMeas := BitVec.ofNat 16 p, allow := 96, limit := 0, low := 0, calm := 0 }, false) := by
  unfold Weir.period
  exact if_pos uncapped

/-- Above the cap: the weir, and whether a level is forced or the cap is unmet. -/
theorem Weir.period_above (capped : 0 < w.cap.toNat) (above : w.cap.toNat < p) :
    w.period p =
      let low := if w.loweredAllow p = 8 then w.low + 1 else 0
      let w' := { w with pMeas := BitVec.ofNat 16 p, allow := w.loweredAllow p, calm := 0, low := if low = 8 then 0 else low }
      if low = 8 then if w.limit < 4 then ({ w' with limit := w.limit + 1 }, false) else ({ w' with unmet := true }, true)
      else (w', false) := by
  unfold Weir.period
  exact (if_neg capped.ne').trans (if_pos above)

section
variable (capped : 0 < w.cap.toNat) (above : w.cap.toNat < p)
include capped above

theorem Weir.period_free (free : w.loweredAllow p ≠ 8) :
    w.period p = ({ w with pMeas := BitVec.ofNat 16 p, allow := w.loweredAllow p, calm := 0, low := 0 }, false) := by
  simp [Weir.period_above capped above, free]

theorem Weir.period_low (least : w.loweredAllow p = 8) (early : w.low + 1 ≠ 8) :
    w.period p = ({ w with pMeas := BitVec.ofNat 16 p, allow := w.loweredAllow p, calm := 0, low := w.low + 1 }, false) := by
  simp only [Weir.period_above capped above, least, early, if_true, if_false]

theorem Weir.period_forces (least : w.loweredAllow p = 8) (eighth : w.low + 1 = 8) (level : w.limit < 4) :
    w.period p = ({ w with pMeas := BitVec.ofNat 16 p, allow := w.loweredAllow p, calm := 0, low := 0, limit := w.limit + 1 }, false) := by
  simp only [Weir.period_above capped above, least, eighth, level, if_true]

theorem Weir.period_unmet (least : w.loweredAllow p = 8) (eighth : w.low + 1 = 8) (slowest : 4 ≤ w.limit) :
    w.period p = ({ w with pMeas := BitVec.ofNat 16 p, allow := w.loweredAllow p, calm := 0, low := 0, unmet := true }, true) := by
  simp only [Weir.period_above capped above, least, eighth, Nat.not_lt.2 slowest, if_true, if_false]

theorem Weir.period_above_allow : (w.period p).1.allow = w.loweredAllow p ∧ (w.period p).1.calm = 0 := by
  rw [Weir.period_above capped above]
  extract_lets low w'
  split
  · split <;> exact ⟨rfl, rfl⟩
  · exact ⟨rfl, rfl⟩

end

/-- At or below the cap: calm periods are counted, and the hundredth gives a level back. -/
theorem Weir.period_within (capped : 0 < w.cap.toNat) (within : p ≤ w.cap.toNat) :
    w.period p =
      let calm := if 100 * p < 90 * w.cap.toNat ∧ w.raisedAllow p = 96 ∧ 0 < w.limit then w.calm + 1 else 0
      ({ w with
        pMeas := BitVec.ofNat 16 p, allow := w.raisedAllow p, low := 0
        limit := if calm = 100 then w.limit - 1 else w.limit, calm := if calm = 100 then 0 else calm }, false) := by
  unfold Weir.period
  exact (if_neg capped.ne').trans (if_neg (Nat.not_lt.2 within))

section
variable (capped : 0 < w.cap.toNat) (within : p ≤ w.cap.toNat)
include capped within

theorem Weir.period_restless (restless : 90 * w.cap.toNat ≤ 100 * p ∨ w.raisedAllow p ≠ 96 ∨ w.limit = 0) :
    w.period p = ({ w with pMeas := BitVec.ofNat 16 p, allow := w.raisedAllow p, low := 0, calm := 0 }, false) := by
  have not_calm : ¬(100 * p < 90 * w.cap.toNat ∧ w.raisedAllow p = 96 ∧ 0 < w.limit) := by omega
  rw [Weir.period_within capped within, if_neg not_calm]
  rfl

section
variable (calm : 100 * p < 90 * w.cap.toNat) (full : w.raisedAllow p = 96) (forced : 0 < w.limit)
include calm full forced

theorem Weir.period_calm (more : w.calm + 1 ≠ 100) :
    w.period p = ({ w with pMeas := BitVec.ofNat 16 p, allow := w.raisedAllow p, low := 0, calm := w.calm + 1 }, false) := by
  simp only [Weir.period_within capped within, calm, full, forced, more, and_self, if_true, if_false]

theorem Weir.period_givesBack (last : w.calm + 1 = 100) :
    w.period p = ({ w with pMeas := BitVec.ofNat 16 p, allow := w.raisedAllow p, low := 0, limit := w.limit - 1, calm := 0 }, false) := by
  simp only [Weir.period_within capped within, calm, full, forced, last, and_self, if_true]

end
end

/-- A period changes the registers and counts of the power loop alone. -/
theorem Weir.period_frame (w : Weir) (p : Nat) : ∃ allow limit unmet low calm, (w.period p).1 =
    { w with pMeas := BitVec.ofNat 16 p, allow := allow, limit := limit, unmet := unmet, low := low, calm := calm } := by
  rcases Nat.eq_zero_or_pos w.cap.toNat with uncapped | capped
  · rw [Weir.period_uncapped uncapped]
    exact ⟨_, _, _, _, _, rfl⟩
  rcases Nat.lt_or_ge w.cap.toNat p with above | within
  · rw [Weir.period_above capped above]
    extract_lets low w'
    split
    · split <;> exact ⟨_, _, _, _, _, rfl⟩
    · exact ⟨_, _, _, _, _, rfl⟩
  · rw [Weir.period_within capped within]
    exact ⟨_, _, _, _, _, rfl⟩

theorem Weir.period_unmet_kept
    (not_slowest : ¬(0 < w.cap.toNat ∧ w.cap.toNat < p ∧ (w.period p).1.allow = 8 ∧ w.low + 1 = 8 ∧ 4 ≤ w.limit)) :
    (w.period p).1.unmet = w.unmet := by
  rcases Nat.eq_zero_or_pos w.cap.toNat with uncapped | capped
  · rw [Weir.period_uncapped uncapped]
  rcases Nat.lt_or_ge w.cap.toNat p with above | within
  · rw [(Weir.period_above_allow capped above).1] at not_slowest
    by_cases least : w.loweredAllow p = 8
    · by_cases eighth : w.low + 1 = 8
      · rw [Weir.period_forces capped above least eighth (by omega)]
      · rw [Weir.period_low capped above least eighth]
    · rw [Weir.period_free capped above least]
  · rw [Weir.period_within capped within]

end

/-! ### The command -/

/-- The weir before a new period: it holds no reading. -/
def Weir.newPeriod (w : Weir) : Weir := { w with pSum := [] }

/-- PCAP_PERIOD: the weir takes the period's outcome, and a cap that is not met is recorded (R116, R117). -/
theorem exec_pcapPeriod (s : State) (skipped : Nat) :
    let u := s.reachNs ((s.pw.ns / 10000 + 1 + skipped) * 10000)
    let r := s.weir.newPeriod.period s.periodPower
    ∃ t, exec (.pcapPeriod skipped) s = .next t ∧ t.weir = r.1 ∧ (r.2 = false → t.err = s.err) ∧
      (r.2 = true → bit s.err.recEn 6 = true → s.err.intake.length < 16 →
        t.err.intake = s.err.intake ++ [⟨u.pw.ns, 0, 6, 0, 0x32, 0x7C, 0, 0, 1, 0⟩]) ∧
      t = { u with weir := t.weir, pw := { u.pw with goal := t.pw.goal }, err := t.err } := by
  intro u r
  have kept : u.err = s.err := s.reachNs_err _
  obtain ⟨goal, run⟩ : ∃ goal, exec (.pcapPeriod skipped) s = .next (if r.2 = true
      then State.log { u with weir := r.1, pw := { u.pw with goal := goal } } 6 .ok 0x32 ⟨0x7C, 0⟩ 0 0
      else { u with weir := r.1, pw := { u.pw with goal := goal } }) := by
    change ∃ goal, execPcapPeriod skipped s = _
    rw [execPcapPeriod, State.reachNs_weir, State.reachNs_periodPower]
    exact ⟨_, rfl⟩
  cases record : r.2 with
  | false =>
    rw [record] at run
    exact ⟨_, run, rfl, fun _ => kept, nofun, rfl⟩
  | true =>
    rw [record, if_pos rfl, State.log] at run
    obtain ⟨err, reported, enters⟩ := State.report_enters { u with weir := r.1, pw := { u.pw with goal := goal } }
      ⟨u.pw.ns, 0, 6, 0, 0x32, 0x7C, 0, 0, 1, 0⟩
    refine ⟨_, run.trans (congrArg _ reported), rfl, nofun, fun _ enabled room => ?_, rfl⟩
    rw [← kept] at enabled room ⊢
    exact enters enabled room

/-- Settles O42: a period's power lies above the cap or not, and each outcome of `Weir.period` is read off its lemma. -/
theorem powerLoopRuns : Obligations.PowerLoopRuns := by
  intro s skipped u w cap read mean P
  have power : s.periodPower = P := by
    simp only [State.periodPower, List.map_cons, List.map_nil, List.sum_cons, List.sum_nil, Nat.add_zero, ← Nat.add_assoc]
    rfl
  obtain ⟨t, run, weir, silent, recorded, rest⟩ := exec_pcapPeriod s skipped
  rw [power] at weir silent recorded
  obtain ⟨_, _, _, _, _, frame⟩ := s.weir.newPeriod.period_frame P
  refine ⟨t, run, ?_, fun uncapped => ?_, fun capped above => ?_, fun capped within => ?_, ?_, ?_⟩
  · rw [weir, frame]
  · rw [Weir.period_uncapped (w := s.weir.newPeriod) uncapped] at weir silent
    rw [weir]
    exact ⟨rfl, rfl, rfl, rfl, silent rfl⟩
  · obtain ⟨allow, calm⟩ := Weir.period_above_allow (w := s.weir.newPeriod) capped above
    rw [← weir] at allow calm
    refine ⟨allow, calm, fun free => ?_, fun least early => ?_, fun least eighth => ?_⟩
    · rw [Weir.period_free (w := s.weir.newPeriod) capped above (allow ▸ free)] at weir silent
      rw [weir]
      exact ⟨rfl, rfl, silent rfl⟩
    · rw [Weir.period_low (w := s.weir.newPeriod) capped above (allow ▸ least) early] at weir silent
      rw [weir]
      exact ⟨rfl, rfl, silent rfl⟩
    · rcases Nat.lt_or_ge w.limit 4 with level | slowest
      · rw [Weir.period_forces (w := s.weir.newPeriod) capped above (allow ▸ least) eighth level] at weir silent
        rw [weir]
        exact ⟨rfl, fun _ => ⟨rfl, rfl, silent rfl⟩, fun slowest => absurd level (Nat.not_lt.2 slowest)⟩
      · rw [Weir.period_unmet (w := s.weir.newPeriod) capped above (allow ▸ least) eighth slowest] at weir recorded
        rw [weir]
        exact ⟨rfl, fun level => absurd level (Nat.not_lt.2 slowest), fun _ => ⟨rfl, rfl, recorded rfl⟩⟩
  · have outcome := Weir.period_within (w := s.weir.newPeriod) capped within
    rw [outcome] at silent
    have allow : t.weir.allow = s.weir.newPeriod.raisedAllow P := by rw [weir, outcome]
    refine ⟨allow, by rw [weir, outcome], silent rfl, fun calm full forced last => ?_, fun calm full forced more => ?_, fun restless => ?_⟩
    · rw [Weir.period_givesBack (w := s.weir.newPeriod) capped within calm (allow ▸ full) forced last] at weir
      rw [weir]
      exact ⟨rfl, rfl⟩
    · rw [Weir.period_calm (w := s.weir.newPeriod) capped within calm (allow ▸ full) forced more] at weir
      rw [weir]
      exact ⟨rfl, rfl⟩
    · rw [Weir.period_restless (w := s.weir.newPeriod) capped within (allow ▸ restless)] at weir
      rw [weir]
      exact ⟨rfl, rfl⟩
  · rw [weir]
    exact Weir.period_unmet_kept (w := s.weir.newPeriod)
  · have registers : t.weir = { s.weir with
        pSum := [], pMeas := t.weir.pMeas, allow := t.weir.allow, limit := t.weir.limit, unmet := t.weir.unmet, low := t.weir.low
        calm := t.weir.calm } := by
      rw [weir, frame]
      rfl
    exact rest.trans (congrArg (fun x : Weir => { u with weir := x, pw := { u.pw with goal := t.pw.goal }, err := t.err }) registers)

end Sys2Proof.Machine
end

section
/-!
PROOF. The error log (O43). A record enters the ring and then signals its class, and each of the two is described by what it leaves in the fields
that it changes (`ErrLog.enter_outcome`, `State.classEvent_outcome`). The commands of the intervals wait for `State.intervalEnd`.
-/
namespace Sys2Proof.Machine

/-! ### Flags -/

theorem bit_setFlag (v : BitVec 8) {k : Nat} (lt : k < 8) : bit (v ||| BitVec.ofNat 8 (2 ^ k)) k = true := by
  simp only [bit, BitVec.getLsbD_or, BitVec.getLsbD_ofNat, Nat.testBit_two_pow_self, lt, decide_true, Bool.and_true, Bool.or_true]

theorem bit_clearFlag (v : BitVec 8) (k : Nat) : bit (v &&& ~~~BitVec.ofNat 8 (2 ^ k)) k = false := by
  simp only [bit, BitVec.getLsbD_and, BitVec.getLsbD_not, BitVec.getLsbD_ofNat, Nat.testBit_two_pow_self, Bool.and_true]
  cases decide (k < 8)
  · exact Bool.and_false _
  · rw [Bool.true_and, Bool.not_true, Bool.and_false]

theorem lt_of_bit {w : Nat} {v : BitVec w} {k : Nat} (set : bit v k = true) : k < w := BitVec.lt_of_getLsbD set

/-! ### The ring (R320) -/

/-- The log's read pointer and its marks of lost records, once there is room for a record: where there are 64 unread ones the oldest is given
up. -/
structure ErrLog.RoomMade (e : ErrLog) (tail : Nat) (lost : Bool) (lostC : Tab Nat) : Prop where
  room : (e.head + 2 ^ 32 - e.tail) % 2 ^ 32 < 64 → tail = e.tail ∧ lost = e.lost ∧ lostC = e.lostC
  full : 64 ≤ (e.head + 2 ^ 32 - e.tail) % 2 ^ 32 → tail = (e.tail + 1) % 2 ^ 32 ∧ lost = true ∧
    ∀ o, Tab.get (fun _ => none) e.ring (e.tail % 64) = some o →
      Tab.get (fun _ => 0) lostC o.cls = satAdd max32 (Tab.get (fun _ => 0) e.lostC o.cls) 1

theorem ErrLog.makeRoom_outcome (e : ErrLog) : ∃ tail lost lostC, e.makeRoom = { e with tail := tail, lost := lost, lostC := lostC } ∧
    e.RoomMade tail lost lostC := by
  unfold ErrLog.makeRoom
  split
  · next room => exact ⟨_, _, _, rfl, fun _ => ⟨rfl, rfl, rfl⟩, fun full => absurd room (Nat.not_lt.2 full)⟩
  · next full =>
    refine ⟨_, _, _, rfl, fun room => absurd room full, fun _ => ⟨rfl, rfl, fun o oldest => ?_⟩⟩
    rw [oldest]
    exact Tab.get_set_same _ _ _

/-- A record enters at `HEAD`, where room is made for it. -/
theorem ErrLog.enter_outcome (e : ErrLog) (r : Rec) : ∃ tail lost lostC ring, e.enter r =
    { e with
      tail := tail, lost := lost, lostC := lostC, ring := ring, head := (e.head + 1) % 2 ^ 32
      first := if e.firstV then e.first else some { r with seq := e.head }, firstV := true } ∧
    Tab.get (fun _ => none) ring (e.head % 64) = some { r with seq := e.head } ∧
    (∀ k, k ≠ e.head % 64 → Tab.get (fun _ => none) ring k = Tab.get (fun _ => none) e.ring k) ∧ e.RoomMade tail lost lostC := by
  obtain ⟨tail, lost, lostC, made, outcome⟩ := e.makeRoom_outcome
  refine ⟨tail, lost, lostC, _, ?_, Tab.get_set_same e.ring _ _, fun k other => Tab.get_set_other other _, outcome⟩
  rw [ErrLog.enter, made]

/-! ### Interrupts of the classes (R322) -/

/-- An interrupt of an error class is raised: none of them is masked (R412). -/
theorem State.raiseClass_outcome (s : State) {k : Nat} (lt : k < 8) : ∃ lastIbi ibiPend pend, s.raiseClass k =
    { s with err := { s.err with lastIbi := lastIbi, ibiPend := ibiPend }, i3c := { s.i3c with pend := pend } } ∧
    bit ibiPend k = false ∧ Tab.get (fun _ => none) lastIbi k = some s.pw.ns ∧
    Tab.get (fun _ => none) pend k = some (BitVec.ofNat 32 s.err.head) := by
  refine ⟨_, _, _, ?_, bit_clearFlag s.err.ibiPend k, Tab.get_set_same s.err.lastIbi k _, Tab.get_set_same s.i3c.pend k _⟩
  have unmasked : ¬0x10 ≤ k := by omega
  simp only [State.raiseClass, State.event, unmasked, decide_false, Bool.false_and, Bool.false_eq_true, if_false]

/-- The last interrupt of a class was raised less than 1 ms ago. -/
def State.ibiHeld (s : State) (k : Nat) : Prop := ∃ t0, Tab.get (fun _ => none) s.err.lastIbi k = some t0 ∧ s.pw.ns < t0 + 1000000

theorem State.classEvent_disabled {s : State} {k : Nat} (disabled : bit s.err.ibiEn k = false) : s.classEvent k = s := by
  rw [State.classEvent, disabled]
  rfl

theorem State.classEvent_held {s : State} {k : Nat} (enabled : bit s.err.ibiEn k = true) (held : s.ibiHeld k) :
    s.classEvent k = { s with err := { s.err with ibiPend := s.err.ibiPend ||| BitVec.ofNat 8 (2 ^ k) } } := by
  obtain ⟨t0, last, recent⟩ := held
  simp only [State.classEvent, enabled, last, recent, Bool.not_true, Bool.false_eq_true, decide_true, if_true, if_false]

theorem State.classEvent_raises {s : State} {k : Nat} (enabled : bit s.err.ibiEn k = true) (free : ¬s.ibiHeld k) :
    s.classEvent k = s.raiseClass k := by
  rw [State.classEvent, enabled]
  cases last : Tab.get (fun _ => none) s.err.lastIbi k with
  | none => rfl
  | some t0 =>
    have passed : ¬s.pw.ns < t0 + 1000000 := fun recent => free ⟨t0, last, recent⟩
    simp only [passed, Bool.not_true, Bool.false_eq_true, decide_false, if_false]

/-- What a record that has entered the ring does for the interrupt of its class. -/
theorem State.classEvent_outcome (s : State) (k : Nat) : ∃ lastIbi ibiPend pend, s.classEvent k =
    { s with err := { s.err with lastIbi := lastIbi, ibiPend := ibiPend }, i3c := { s.i3c with pend := pend } } ∧
    (bit s.err.ibiEn k = false → pend = s.i3c.pend ∧ ibiPend = s.err.ibiPend) ∧
    (bit s.err.ibiEn k = true → s.ibiHeld k → pend = s.i3c.pend ∧ bit ibiPend k = true) ∧
    (bit s.err.ibiEn k = true → ¬s.ibiHeld k → bit ibiPend k = false ∧ Tab.get (fun _ => none) lastIbi k = some s.pw.ns ∧
      Tab.get (fun _ => none) pend k = some (BitVec.ofNat 32 s.err.head)) := by
  cases enabled : bit s.err.ibiEn k with
  | false => exact ⟨_, _, _, State.classEvent_disabled enabled, fun _ => ⟨rfl, rfl⟩, nofun, nofun⟩
  | true =>
    have lt := lt_of_bit enabled
    by_cases held : s.ibiHeld k
    · exact ⟨_, _, _, State.classEvent_held enabled held, nofun, fun _ _ => ⟨rfl, bit_setFlag _ lt⟩, fun _ free => absurd held free⟩
    · obtain ⟨lastIbi, ibiPend, pend, raised, outcome⟩ := s.raiseClass_outcome lt
      exact ⟨lastIbi, ibiPend, pend, (State.classEvent_raises enabled held).trans raised, nofun, fun _ held' => absurd held' held,
        fun _ _ => outcome⟩

/-! ### Records enter (R320) -/

theorem exec_recordEnter_none {s : State} (empty : s.err.intake = []) : exec .recordEnter s = .next s := by
  change execRecordEnter s = _
  rw [execRecordEnter, empty]

/-- RECORD_ENTER of the oldest report in the intake. -/
theorem exec_recordEnter {s : State} {r : Rec} {rest : List Rec} (intake : s.err.intake = r :: rest) :
    exec .recordEnter s = .next (State.classEvent { s with err := ErrLog.enter { s.err with intake := rest } r } r.cls) := by
  change execRecordEnter s = _
  rw [execRecordEnter, intake]

/-! ### Intervals of 1 ms (R114, R320, R322) -/

/-- The end of the interval of 1 ms that began at a timestamp, where one did. -/
def State.intervalEnd (s : State) (since : Option Nat) : State :=
  match since with
  | some t0 => s.reachNs (t0 + 1000000)
  | none => s

section
variable (s : State) (since : Option Nat)

theorem State.intervalEnd_err : (s.intervalEnd since).err = s.err := by
  cases since with
  | none => rfl
  | some t0 => exact s.reachNs_err _

theorem State.intervalEnd_i3c : (s.intervalEnd since).i3c = s.i3c := by
  cases since with
  | none => rfl
  | some t0 => exact s.reachNs_i3c _

theorem State.intervalEnd_weir : (s.intervalEnd since).weir = s.weir := by
  cases since with
  | none => rfl
  | some t0 => exact s.reachNs_weir _

theorem State.intervalEnd_passed (t0 : Nat) (began : since = some t0) : t0 + 1000000 ≤ (s.intervalEnd since).pw.ns := by
  subst began
  exact s.le_reachNs_ns _

end

theorem exec_corrInterval {s : State} {k t0 : Nat} {r : Rec} (last : (Tab.get (fun _ => Corr.reset) s.err.corr k).last = some t0)
    (first : (Tab.get (fun _ => Corr.reset) s.err.corr k).first = some r) (held : (Tab.get (fun _ => Corr.reset) s.err.corr k).held ≠ 0) :
    exec (.corrInterval k) s = .next (State.report
      { s.reachNs (t0 + 1000000) with err := { s.err with
          corr := Tab.set (fun _ => Corr.reset) s.err.corr k ⟨some (t0 + 1000000), 0, none⟩ } }
      { r with time := t0 + 1000000, count := min max32 (Tab.get (fun _ => Corr.reset) s.err.corr k).held }) := by
  change execCorrInterval k s = _
  simp only [execCorrInterval, last, first, held, if_false, State.reachNs_err]

theorem exec_corrInterval_none {s : State} {k : Nat} (none_held : (Tab.get (fun _ => Corr.reset) s.err.corr k).last = none ∨
    (Tab.get (fun _ => Corr.reset) s.err.corr k).first = none ∨ (Tab.get (fun _ => Corr.reset) s.err.corr k).held = 0) :
    exec (.corrInterval k) s = .next s := by
  change execCorrInterval k s = _
  unfold execCorrInterval
  extract_lets c
  split
  · next last first => rw [if_pos (by simpa only [c, last, first, reduceCtorEq, false_or] using none_held)]
  · rfl

theorem exec_ibiInterval_none {s : State} {c : Fin 8} (none_pends : bit s.err.ibiPend c = false) : exec (.ibiInterval c) s = .next s := by
  change execIbiInterval c s = _
  rw [execIbiInterval, none_pends]
  rfl

/-- IBI_INTERVAL of a class whose interrupt waits: it waits no more, and is raised where it is still enabled. -/
theorem exec_ibiInterval {s : State} {c : Fin 8} (pends : bit s.err.ibiPend c = true) :
    let u := s.intervalEnd (Tab.get (fun _ => none) s.err.lastIbi c)
    ∃ t, exec (.ibiInterval c) s = .next t ∧ bit t.err.ibiPend c = false ∧
      (bit s.err.ibiEn c = true → Tab.get (fun _ => none) t.err.lastIbi c = some u.pw.ns ∧
        Tab.get (fun _ => none) t.i3c.pend c = some (BitVec.ofNat 32 s.err.head)) ∧
      (bit s.err.ibiEn c = false → t.err.lastIbi = s.err.lastIbi ∧ t.i3c = s.i3c) ∧
      t = { u with err := { s.err with lastIbi := t.err.lastIbi, ibiPend := t.err.ibiPend }, i3c := { s.i3c with pend := t.i3c.pend } } := by
  intro u
  have run : exec (.ibiInterval c) s = if bit u.err.ibiEn c then .next (u.raiseClass c)
      else .next { u with err := { u.err with ibiPend := u.err.ibiPend &&& ~~~(BitVec.ofNat 8 (2 ^ c.val)) } } := by
    change execIbiInterval c s = _
    rw [execIbiInterval, pends]
    rfl
  have err : u.err = s.err := s.intervalEnd_err _
  have i3c : u.i3c = s.i3c := s.intervalEnd_i3c _
  rw [← err, ← i3c]
  cases enabled : bit u.err.ibiEn c with
  | true =>
    obtain ⟨lastIbi, ibiPend, pend, raised, cleared, outcome⟩ := u.raiseClass_outcome c.2
    rw [enabled, if_pos rfl, raised] at run
    exact ⟨_, run, cleared, fun _ => outcome, nofun, rfl⟩
  | false =>
    rw [enabled, if_neg (by decide)] at run
    exact ⟨_, run, bit_clearFlag _ _, nofun, fun _ => ⟨rfl, rfl⟩, rfl⟩

theorem exec_lateRecordInterval_none {s : State} {c : Fin 4} (none_pends : (Tab.get (fun _ => Late.reset) s.weir.late c).pending = 0) :
    exec (.lateRecordInterval c) s = .next s := by
  change execLateRecordInterval c s = _
  unfold execLateRecordInterval
  exact if_pos none_pends

/-- LATE_RECORD_INTERVAL: the late requests of a class are reported in one record, and a new interval begins. -/
theorem exec_lateRecordInterval {s : State} {c : Fin 4} (pends : (Tab.get (fun _ => Late.reset) s.weir.late c).pending ≠ 0) :
    let l := Tab.get (fun _ => Late.reset) s.weir.late c
    let u := s.intervalEnd l.since
    exec (.lateRecordInterval c) s = .next (State.report
      { u with weir := { s.weir with late := Tab.set (fun _ => Late.reset) s.weir.late c { l with since := some u.pw.ns, pending := 0 } } }
      ⟨u.pw.ns, 0, 7, 0, l.pos, 0x7C, 0, c, l.pending, l.label⟩) := by
  intro l u
  have weir : u.weir = s.weir := s.intervalEnd_weir _
  rw [← weir]
  change execLateRecordInterval c s = _
  unfold execLateRecordInterval
  exact if_neg pends

/-! ### The registers of the log (R321, R323) -/

section
variable {s : State} {src : Src} {v : BitVec 32}

theorem exec_errTailWrite (open_ : s.opens src 0x30014 4 = true) :
    exec (.errTailWrite src v) s = .next (errTailSet (s.ctl src 0x30014) (v.setWidth 64) s) := ctlCommand_4 open_ rfl v

theorem exec_errStatClear (open_ : s.opens src 0x30008 4 = true) :
    exec (.errStatClear src v) s = .next (errStatSet (s.ctl src 0x30008) (v.setWidth 64) s) := ctlCommand_4 open_ rfl v

theorem errTailWrite_foreign (open_ : s.opens src 0x30014 4 = true) (unprivileged : s.privileged src = false) :
    exec (.errTailWrite src v) s = .next (s.reply src .nackOwner) := by
  have priv : (s.ctl src 0x30014).w.priv = false := unprivileged
  rw [exec_errTailWrite open_, errTailSet, State.privOnly, priv]
  rfl

/-- A privileged write of `ERR_TAIL` sets it, but not beyond `HEAD`. -/
theorem errTailWrite_privileged (open_ : s.opens src 0x30014 4 = true) (privileged : s.privileged src = true) :
    exec (.errTailWrite src v) s = .next (s.unless0 (s.ctl src 0x30014)
      ((s.err.head + 2 ^ 32 - s.err.tail) % 2 ^ 32 < (v.toNat + 2 ^ 32 - s.err.tail) % 2 ^ 32)
      fun s => { s with err := { s.err with tail := v.toNat } }.done (s.ctl src 0x30014)) := by
  have priv : (s.ctl src 0x30014).w.priv = true := privileged
  have whole : bits (v.setWidth 64) 0 32 = v.toNat := by
    rw [bits_setWidth_64, bits, Nat.shiftRight_zero, Nat.mod_eq_of_lt v.isLt]
  rw [exec_errTailWrite open_, errTailSet, State.privOnly, if_pos priv]
  simp only [whole]
  rfl

theorem errStatClear_clears (open_ : s.opens src 0x30008 4 = true) :
    exec (.errStatClear src v) s = .next (State.reply { s with err := { s.err with
      lost := s.err.lost && !bit v 0, lostC := if bit v 0 then [] else s.err.lostC, firstV := s.err.firstV && !bit v 1 } } src .ok) := by
  rw [exec_errStatClear open_, errStatSet, bit_setWidth_64, bit_setWidth_64]
  cases bit v 0 <;> cases bit v 1 <;>
    simp only [Bool.not_true, Bool.not_false, Bool.and_true, Bool.and_false, if_true, Bool.false_eq_true, if_false] <;> rfl

end

/-- Settles O43: a report, a record that enters and each interval by the lemma of its outcomes, the registers by the branches of their writes. -/
theorem errorLogRecords : Obligations.ErrorLogRecords := by
  refine ⟨fun s r => ⟨State.report_discarded, State.report_taken,
      fun recorded full => ⟨_, State.report_lost recorded full, Tab.get_set_same _ _ _⟩⟩,
    fun s => exec_recordEnter_none, fun s r rest intake => ?_,
    fun s k => ⟨fun t0 r last first held => exec_corrInterval last first held, exec_corrInterval_none⟩,
    fun s c => ⟨exec_ibiInterval_none, fun pends => ?_⟩,
    fun s c => ⟨exec_lateRecordInterval_none, exec_lateRecordInterval, s.intervalEnd_passed _⟩,
    fun s src v open_ => ⟨errTailWrite_foreign open_, fun privileged within => ?_, fun privileged beyond => ?_⟩,
    fun s src v => errStatClear_clears⟩
  · obtain ⟨tail, lost, lostC, ring, entered, same, others, made⟩ := ErrLog.enter_outcome { s.err with intake := rest } r
    have run := exec_recordEnter intake
    rw [entered] at run
    obtain ⟨lastIbi, ibiPend, pend, signalled, disabled, held, raised⟩ := State.classEvent_outcome { s with err := _ } r.cls
    refine ⟨_, run.trans (congrArg _ signalled), rfl, rfl, same, others, rfl, rfl, made.room, made.full,
      fun off => ?_, fun on waits _ => ?_, fun on free _ => ?_, rfl⟩
    · obtain ⟨rfl, rfl⟩ := disabled off
      exact ⟨rfl, rfl⟩
    · obtain ⟨rfl, flag⟩ := held on waits
      exact ⟨rfl, flag⟩
    · exact raised on free
  · obtain ⟨t, run, cleared, enabled, disabled, frame⟩ := exec_ibiInterval pends
    exact ⟨t, run, cleared, s.intervalEnd_passed _, enabled, disabled, frame⟩
  · rw [errTailWrite_privileged open_ privileged, State.unless0, if_neg (by simpa using within)]
    rfl
  · rw [errTailWrite_privileged open_ privileged, State.unless0, if_pos (by simpa using beyond)]
    rfl

end Sys2Proof.Machine
end

section
/-!
PROOF. Registers of the ownership chapter that a command writes (O10, O12, O15, O16). A privileged write carries on to the conditions of its
register (`State.privOnly_privileged`); each register then has one lemma for its whole write, and one for each condition that rejects it.
-/
namespace Sys2Proof.Machine

section
variable {s : State} {src : Src} {off : Nat} {go : State → State}

/-! ### The checks that registers share (R11, R131) -/

theorem State.privOnly_privileged (privileged : s.privileged src = true) : s.privOnly (s.ctl src off) go = go s := if_pos privileged

theorem State.privOnly_unprivileged (unprivileged : s.privileged src = false) :
    s.privOnly (s.ctl src off) go = s.reply src .nackOwner := if_neg (ne_true_of_eq_false unprivileged)

theorem State.unless0_pass {c : Ctl} {fail : Bool} (passes : fail = false) : s.unless0 c fail go = go s := if_neg (ne_true_of_eq_false passes)

theorem State.unless0_rejected {fail : Bool} (fails : fail = true) : s.unless0 (s.ctl src off) fail go = s.rejected src off 0 := if_pos fails

theorem firstOf_eq_zero {fails : List Bool} : firstOf fails = 0 ↔ fails.all (!·) = true := by
  induction fails with
  | nil => simp [firstOf]
  | cons b l ih =>
    rw [firstOf, List.all_cons]
    cases b with
    | true => simp
    | false => cases h : firstOf l <;> simp [h, ← ih]

theorem firstOf_cons_fail {p : Prop} [Decidable p] (fail : p) (l : List Bool) : firstOf (Decidable.decide p :: l) = 0 + 1 := by
  rw [firstOf, if_pos (decide_eq_true fail)]

theorem firstOf_cons_pass {p : Prop} [Decidable p] (pass : ¬p) {l : List Bool} {k : Nat} (rest : firstOf l = k + 1) :
    firstOf (Decidable.decide p :: l) = k + 1 + 1 := by
  rw [firstOf, decide_eq_false pass, rest]
  rfl

/-- A write is rejected under the first of its conditions that holds (R131). -/
theorem State.unless_firstOf {fails : List Bool} (some_ : fails.all (!·) = false) :
    s.unless (s.ctl src off) fails go = s.rejected src off (firstOf fails) := by
  obtain ⟨k, hk⟩ := Nat.exists_eq_succ_of_ne_zero (n := firstOf fails) fun zero =>
    Bool.noConfusion (some_.symm.trans (firstOf_eq_zero.1 zero))
  rw [State.unless_rejected hk, hk]

end

/-- The value of a register of 32 bits, written through 64. -/
theorem ofNat_toNat_setWidth_64 (v : BitVec 32) : BitVec.ofNat 32 (v.setWidth 64).toNat = v := by
  rw [toNat_setWidth_64, BitVec.ofNat_toNat, BitVec.setWidth_eq]

/-! ### Level, power cap, queue shares, slot selection, seed and time offset (R107, R115, R141, R163, R332, R334) -/

section
variable {s : State} {src : Src} (privileged : s.privileged src = true)
include privileged

/-- A privileged write of `PWR_LEVEL`. -/
theorem exec_levelReqWrite (open_ : s.opens src 0x10000 4 = true) (v : BitVec 32) : exec (.levelReqWrite src v) s =
    .next (s.unless (s.ctl src 0x10000) [4 < bits v 0 3, s.pw.busy && bits v 0 3 != s.pw.req.toNat] fun s =>
      { s with pw := { s.pw with req := BitVec.ofNat 3 (bits v 0 3), goal := if s.pw.busy then s.pw.goal else s.pw.cur } }.reply src .ok) := by
  have run : exec (.levelReqWrite src v) s = .next (levelReqSet (s.ctl src 0x10000) (v.setWidth 64) s) := ctlCommand_4 open_ rfl v
  rw [run, levelReqSet, State.privOnly_privileged privileged]
  simp only [bits_setWidth_64]
  rfl

theorem exec_pcapWrite (open_ : s.opens src 0x20500 4 = true) (v : BitVec 32) : exec (.pcapWrite src v) s =
    .next ({ s with weir := { s.weir with cap := BitVec.ofNat 12 (bits v 0 12), unmet := false } }.reply src .ok) := by
  have run : exec (.pcapWrite src v) s = .next (pcapSet (s.ctl src 0x20500) (v.setWidth 64) s) := ctlCommand_4 open_ rfl v
  rw [run, pcapSet, State.privOnly_privileged privileged, bits_setWidth_64]
  rfl

/-- A privileged write of a `WEIR_QSHARE` register. -/
theorem exec_qshareWrite {k : Fin 5} (open_ : s.opens src (0x20200 + k * 4) 4 = true) (v : BitVec 32) : exec (.qshareWrite src k v) s =
    .next (s.unless (s.ctl src (0x20200 + k * 4)) [(rsvs v).any fun r => 64 < r, 64 < (rsvs v).sum] fun s =>
      { s with weir := { s.weir with qshare := Tab.set (fun _ => qshareReset) s.weir.qshare k (v &&& 0x7F7F7F7F) } }.reply src .ok) := by
  have run : exec (.qshareWrite src k v) s = .next (qshareSet (s.ctl src (0x20200 + k * 4)) k (v.setWidth 64) s) :=
    ctlCommand_4 open_ (regHere_qshare k) v
  rw [run, qshareSet, State.privOnly_privileged privileged, ofNat_toNat_setWidth_64]
  simp only [rsvs, bits_setWidth_64]
  rfl

theorem exec_srSeedWrite {n : Fin 24} (open_ : s.opens src (pageOff n 0x308) 8 = true) (v : BitVec 64) : exec (.srSeedWrite src n v) s =
    .next ((s.modLake n fun l => { l with srSeed := v, mixes := l.mixes ++ [(s.pw.now, v)] }).reply src .ok) := by
  have run : exec (.srSeedWrite src n v) s = .next (srSeedSet (s.ctl src (pageOff n 0x308)) n v s) :=
    ctlCommand_8 open_ (regHere_page n.2 (by decide)) v
  rw [run, srSeedSet, State.privOnly_privileged privileged]
  rfl

/-- A privileged write of `TM_CTX_SEL`. -/
theorem exec_ctxSelWrite (open_ : s.opens src 0x100 4 = true) (v : BitVec 32) : exec (.ctxSelWrite src v) s =
    .next (s.unless0 (s.ctl src 0x100) (!slotExists (bits v 0 9)) fun s =>
      { s with tm := { s.tm with ctxSel := BitVec.ofNat 9 (bits v 0 9) } }.reply src .ok) := by
  have run : exec (.ctxSelWrite src v) s = .next (ctxSelSet (s.ctl src 0x100) (v.setWidth 64) s) := ctlCommand_4 open_ rfl v
  rw [run, ctxSelSet, State.privOnly_privileged privileged, bits_setWidth_64]
  rfl

theorem exec_registerWrite_timeOffset (open_ : s.opens src 0x10608 8 = true) (v : BitVec 64) :
    exec (.registerWrite src 0x10608 8 v) s = .next ({ s with pw := { s.pw with ftimeOfs := v } }.reply src .ok) := by
  have run : exec (.registerWrite src 0x10608 8 v) s = .next (ftimeSet (s.ctl src 0x10608) v s) := ctlCommand_8 open_ rfl v
  rw [run, ftimeSet, State.privOnly_privileged privileged]
  rfl

end

/-- Settles O10: each register's write is carried on where its conditions let it, and rejected under the first of them that holds. -/
theorem globalRegistersWritten : Obligations.GlobalRegistersWritten := by
  refine ⟨fun s src v privileged => ⟨fun open_ => ?_, fun open_ => exec_pcapWrite privileged open_ v⟩, fun s src k v open_ privileged => ?_,
    fun s src privileged => ⟨fun n v open_ => exec_srSeedWrite privileged open_ v, fun v open_ => ?_,
      fun v open_ => exec_registerWrite_timeOffset privileged open_ v⟩⟩
  · rw [exec_levelReqWrite privileged open_]
    refine ⟨fun low same => ?_, fun high => ?_, fun low busy other => ?_⟩
    · rw [State.unless_pass]
      have : (s.pw.busy && bits v 0 3 != s.pw.req.toNat) = false := by simpa using same
      simp [firstOf, low, this]
    · rw [State.unless_rejected (k := 0)]
      simp [firstOf, high]
    · rw [State.unless_rejected (k := 1)]
      simp [firstOf, low, busy, other]
  · intro sum fits
    rw [exec_qshareWrite privileged open_]
    have shares : (rsvs v).any (fun r => decide (64 < r)) = decide ¬fits := by
      simp only [fits, rsvs, List.any_cons, List.any_nil, Bool.or_false, ← Bool.decide_or]
      congr 1
      exact propext (by omega)
    have total : (rsvs v).sum = sum := by
      simp only [sum, rsvs, List.sum_cons, List.sum_nil]
      omega
    rw [shares, total]
    refine ⟨fun fit le => ?_, fun unfit => ?_, fun fit more => ?_⟩
    · rw [State.unless_pass]
      simp [firstOf, fit, Nat.not_lt.2 le]
    · rw [State.unless_rejected (k := 0)]
      simp [firstOf, unfit]
    · rw [State.unless_rejected (k := 1)]
      simp [firstOf, fit, more]
  · rw [exec_ctxSelWrite privileged open_]
    refine ⟨fun exists_ => ?_, fun none_ => ?_⟩
    · rw [State.unless0_pass (by simp [slotExists, exists_])]
    · rw [State.unless0_rejected (by simp [slotExists, none_])]

/-! ### The handover (R129) -/

section
variable {s : State} {src : Src} {n : Fin 24} (open_ : s.opens src (pageOff n 0) 4 = true) (v : BitVec 32)
include open_

/-- A write of 4 bytes that reaches `LK_OWNER`. -/
theorem exec_handover : exec (.handover src n v) s = .next (lkOwnerSet (s.ctl src (pageOff n 0)) n (v.setWidth 64) s) :=
  ctlCommand_4 open_ (regHere_page n.2 (by decide)) v

theorem handover_unprivileged (unprivileged : s.privileged src = false) : exec (.handover src n v) s = .next (s.reply src .nackOwner) := by
  rw [exec_handover open_, lkOwnerSet, State.privOnly_unprivileged unprivileged]

/-- A privileged write passes the lake on, but to its present owner, to a principal that may not own a lake, or while the lake is not quiescent. -/
theorem handover_privileged (privileged : s.privileged src = true) {p : Principal} (named : ownerIn (v.setWidth 64) = p) :
    exec (.handover src n v) s = .next (if p = (s.lake n).owner then s.reply src .ok
      else s.unless (s.ctl src (pageOff n 0)) [!mayOwn p, !quiescent s n] fun s => (s.handover n p).reply src .ok) := by
  rw [exec_handover open_, lkOwnerSet, State.privOnly_privileged privileged, named]
  rfl

end

/-- Settles O12: the branches of `handover_privileged`. -/
theorem handoverNeedsQuiescence : Obligations.HandoverNeedsQuiescence := by
  intro s src n v open_ p
  refine ⟨handover_unprivileged open_ v, fun privileged => ?_⟩
  rw [handover_privileged open_ v privileged (p := p) (by simp only [ownerIn, bits_setWidth_64, p])]
  refine ⟨fun same => by rw [if_pos same], fun other may quiet => ?_, fun other mayNot => ?_, fun other may busy => ?_⟩
  · rw [if_neg other, State.unless_pass (by simp [firstOf, may, quiet])]
    rfl
  · rw [if_neg other, State.unless_rejected (k := 0) (by simp [firstOf, mayNot])]
  · rw [if_neg other, State.unless_rejected (k := 1) (by simp [firstOf, may, busy])]

/-! ### Reels (R136 to R138, R172) -/

section
variable {s : State} {src : Src} {e : Fin 64} (privileged : s.privileged src = true)
include privileged

/-- A privileged write of `REEL_CFG`. -/
theorem exec_reelCfgWrite {v : BitVec 32} {r : Reel} (open_ : s.opens src (0xD0000 + e * 64 + 8) 4 = true)
    (written : r = { s.reel e with
      size := BitVec.ofNat 5 (bits v 0 5), enable := bit v 5, slated := bit v 6, producer := BitVec.ofNat 8 (bits v 8 8)
      consumer := BitVec.ofNat 8 (bits v 16 8), refused := false }) :
    exec (.reelCfgWrite src e v) s = .next (s.unless0 (s.ctl src (0xD0000 + e * 64 + 8)) (reelBound s e || 16 ≤ bits v 0 5) fun s' =>
      s'.unless (s.ctl src (0xD0000 + e * 64 + 8))
        (if bit v 5 || ((s.reel e).enable && r.size != (s.reel e).size) then r.misfits s'.variant else [])
        fun s => (s.modReel e fun _ => r).reply src .ok) := by
  have run : exec (.reelCfgWrite src e v) s = .next (reelCfgSet (s.ctl src (0xD0000 + e * 64 + 8)) e (v.setWidth 64) s) :=
    ctlCommand_4 open_ (regHere_reelCfg e.2) v
  subst written
  rw [run, reelCfgSet, State.privOnly_privileged privileged]
  simp only [bits_setWidth_64, bit_setWidth_64]
  rfl

/-- A privileged write of `REEL_BASE`. -/
theorem exec_reelBaseWrite {v : BitVec 64} {r : Reel} (open_ : s.opens src (0xD0000 + e * 64) 8 = true)
    (written : r = { s.reel e with base := BitVec.ofNat 36 (bits v 8 36) }) :
    exec (.reelBaseWrite src e v) s = .next (s.unless0 (s.ctl src (0xD0000 + e * 64)) (reelBound s e) fun s' =>
      s'.unless (s.ctl src (0xD0000 + e * 64)) (if (s.reel e).enable && r.base != (s.reel e).base then r.misfits s'.variant else [])
        fun s => (s.modReel e fun _ => r).reply src .ok) := by
  have run : exec (.reelBaseWrite src e v) s = .next (reelBaseSet (s.ctl src (0xD0000 + e * 64)) e v s) :=
    ctlCommand_8 open_ (regHere_reelBase e.2) v
  subst written
  rw [run, reelBaseSet, State.privOnly_privileged privileged]
  rfl

end

section
variable {s : State} {src : Src} {off : Nat} {e : Nat} {named : BitVec 8} {fails : Reel → List Bool} {store : Reel → Reel}

/-- An engine that is not the one named for the pointer, and acts without privilege, does not move it. -/
theorem State.movePointer_foreign (foreign : ¬(s.privileged src = true ∨ named.toNat = (whoOf s src.port).engine)) :
    s.movePointer (s.ctl src off) e named fails store = s.reply src .nackOwner := by
  have refused : (!((whoOf s src.port).priv || Decidable.decide (named.toNat = (whoOf s src.port).engine))) = true := by
    simpa [State.privileged] using foreign
  exact if_pos refused

variable (may : s.privileged src = true ∨ named.toNat = (whoOf s src.port).engine)
include may

/-- A write of a pointer by an agent that may move it. -/
theorem State.movePointer_allowed : s.movePointer (s.ctl src off) e named fails store =
    s.unless0 (s.ctl src off) (reelBound s e || (!(s.reel e).enable && !s.privileged src)) fun s =>
      let k := firstOf (if (s.reel e).enable then fails (s.reel e) else [])
      if k = 0 then (s.modReel e store).reply src .ok else (s.modReel e fun r => { r with refused := true }).rejected src off k := by
  have allowed : ¬(!((whoOf s src.port).priv || Decidable.decide (named.toNat = (whoOf s src.port).engine))) = true := by
    rcases may with privileged | engine
    · simp [show (whoOf s src.port).priv = true from privileged]
    · simp [engine]
  refine (if_neg allowed).trans ?_
  rw [State.unless0, State.unless0]
  refine ite_congr rfl (fun _ => rfl) fun _ => ?_
  dsimp only
  generalize firstOf _ = k
  cases k <;> rfl

theorem State.movePointer_bound (bound : reelBound s e = true) :
    s.movePointer (s.ctl src off) e named fails store = s.rejected src off 0 := by
  rw [State.movePointer_allowed may, State.unless0_rejected (by rw [bound, Bool.true_or])]

variable (free : reelBound s e = false)
include free

theorem State.movePointer_stores (inUse : (s.reel e).enable = true ∨ s.privileged src = true)
    (passes : (s.reel e).enable = true → firstOf (fails (s.reel e)) = 0) :
    s.movePointer (s.ctl src off) e named fails store = (s.modReel e store).reply src .ok := by
  have first : firstOf (if (s.reel e).enable then fails (s.reel e) else []) = 0 := by
    split
    · next enabled => exact passes enabled
    · rfl
  rw [State.movePointer_allowed may, State.unless0_pass (by rcases inUse with h | h <;> simp [free, h]), first]
  rfl

theorem State.movePointer_refused {k : Nat} (enabled : (s.reel e).enable = true) (fail : firstOf (fails (s.reel e)) = k + 1) :
    s.movePointer (s.ctl src off) e named fails store = (s.modReel e fun r => { r with refused := true }).rejected src off (k + 1) := by
  rw [State.movePointer_allowed may, State.unless0_pass (by simp [free, enabled]), if_pos enabled, fail]
  rfl

end

section
variable {s : State} {src : Src} {e : Fin 64} (v : BitVec 32)

theorem exec_reelTailWrite (open_ : s.opens src (0xD0000 + e * 64 + 0x10) 4 = true) : exec (.reelTailWrite src e v) s =
    .next (s.movePointer (s.ctl src (0xD0000 + e * 64 + 0x10)) e (s.reel e).producer
      (fun r => [2 ^ 31 ≤ (v - r.tail).toNat, 2 ^ r.size.toNat < (v - r.head).toNat]) fun r => { r with tail := v }) := by
  have run : exec (.reelTailWrite src e v) s = .next (reelTailSet (s.ctl src (0xD0000 + e * 64 + 0x10)) e (v.setWidth 64) s) :=
    ctlCommand_4 open_ (regHere_reelTail e.2) v
  rw [run, reelTailSet, ofNat_toNat_setWidth_64]

theorem exec_reelHeadWrite (open_ : s.opens src (0xD0000 + e * 64 + 0x14) 4 = true) : exec (.reelHeadWrite src e v) s =
    .next (s.movePointer (s.ctl src (0xD0000 + e * 64 + 0x14)) e (s.reel e).consumer
      (fun r => [(r.tail - r.head).toNat < (v - r.head).toNat]) fun r => { r with head := v }) := by
  have run : exec (.reelHeadWrite src e v) s = .next (reelHeadSet (s.ctl src (0xD0000 + e * 64 + 0x14)) e (v.setWidth 64) s) :=
    ctlCommand_4 open_ (regHere_reelHead e.2) v
  rw [run, reelHeadSet, ofNat_toNat_setWidth_64]

end

/-- Settles O15: the conditions of each register in turn; what is not judged meets none. -/
theorem reelConfigured : Obligations.ReelConfigured := by
  intro s src e privileged
  refine ⟨fun v open_ => ?_, fun v open_ => ?_, fun v disabled free => ⟨fun open_ => ?_, fun open_ => ?_⟩⟩
  · intro r judged stored
    have whole := exec_reelCfgWrite privileged open_ (v := v) (r := r) rfl
    have asked : (bit v 5 || ((s.reel e).enable && r.size != (s.reel e).size)) = decide judged := by
      simp only [judged, Bool.decide_or, Bool.decide_and, Bool.decide_eq_true, ne_eq, decide_not]
      rfl
    rw [asked] at whole
    refine ⟨fun free small fits => ?_, fun free small judge unfit => ?_, fun refused => ?_⟩
    · refine whole.trans ?_
      rw [State.unless0_pass (by simp [free, small]), State.unless_pass]
      rw [firstOf_eq_zero]
      by_cases judge : judged
      · simpa [judge, Reel.fits] using fits judge
      · simp [judge]
    · rw [whole, State.unless0_pass (by simp [free, small]), if_pos (decide_eq_true judge), State.unless_firstOf unfit]
    · rw [whole, State.unless0_rejected (by simpa using refused)]
  · intro r judged
    have whole := exec_reelBaseWrite privileged open_ (v := v) (r := r) rfl
    have asked : ((s.reel e).enable && r.base != (s.reel e).base) = decide judged := by
      simp only [judged, Bool.decide_and, Bool.decide_eq_true, ne_eq, decide_not]
      rfl
    rw [asked] at whole
    refine ⟨fun free fits => ?_, fun free judge unfit => ?_, fun bound => ?_⟩
    · rw [whole, State.unless0_pass free, State.unless_pass]
      rw [firstOf_eq_zero]
      by_cases judge : judged
      · simpa [judge, Reel.fits] using fits judge
      · simp [judge]
    · rw [whole, State.unless0_pass free, if_pos (decide_eq_true judge), State.unless_firstOf unfit]
    · rw [whole, State.unless0_rejected bound]
  · rw [exec_reelTailWrite v open_, State.movePointer_stores (.inl privileged) free (.inr privileged) (by simp [disabled])]
  · rw [exec_reelHeadWrite v open_, State.movePointer_stores (.inl privileged) free (.inr privileged) (by simp [disabled])]

/-! ### The pointers of a reel in use (R138)

O16 names its two registers by `let tailAt := 0xD0000 + e * 64 + 0x10`, without a type, so that the offset takes the type of `e`, `Fin 64`:
it is 16 for every reel, and 20 for the head. At the offsets of the registers themselves the rule holds as O16 words it
(`reelTailWrite_inUse`, `reelHeadWrite_inUse`). -/

section
variable {s : State} {src : Src} {e : Fin 64} {v : BitVec 32} (enabled : (s.reel e).enable = true)
include enabled

/-- A write of `REEL_TAIL` of a reel in use. -/
theorem reelTailWrite_inUse (open_ : s.opens src (0xD0000 + e * 64 + 0x10) 4 = true) :
    let r := s.reel e
    let may := s.privileged src = true ∨ r.producer.toNat = (whoOf s src.port).engine
    let refused (k : Nat) : Prop := exec (.reelTailWrite src e v) s =
      .next ((s.modReel e fun r => { r with refused := true }).rejected src (0xD0000 + e * 64 + 0x10) k)
    (may → reelBound s e = false →
      ((v - r.tail).toNat < 2 ^ 31 → (v - r.head).toNat ≤ 2 ^ r.size.toNat →
        exec (.reelTailWrite src e v) s = .next ((s.modReel e fun r => { r with tail := v }).reply src .ok)) ∧
      (2 ^ 31 ≤ (v - r.tail).toNat → refused 1) ∧
      ((v - r.tail).toNat < 2 ^ 31 → 2 ^ r.size.toNat < (v - r.head).toNat → refused 2)) ∧
    (may → reelBound s e = true → exec (.reelTailWrite src e v) s = .next (s.rejected src (0xD0000 + e * 64 + 0x10) 0)) ∧
    (¬may → exec (.reelTailWrite src e v) s = .next (s.reply src .nackOwner)) := by
  dsimp only
  rw [exec_reelTailWrite v open_]
  refine ⟨fun may free => ⟨fun forward room => ?_, fun back => ?_, fun forward full => ?_⟩, fun may bound => ?_, fun foreign => ?_⟩
  · rw [State.movePointer_stores may free (.inl enabled) fun _ => firstOf_eq_zero.2 (by simp only [decide_eq_false (Nat.not_le.2 forward), decide_eq_false (Nat.not_lt.2 room)]; rfl)]
  · rw [State.movePointer_refused (k := 0) may free enabled (firstOf_cons_fail back _)]
  · rw [State.movePointer_refused (k := 1) may free enabled (firstOf_cons_pass (Nat.not_le.2 forward) (firstOf_cons_fail full []))]
  · rw [State.movePointer_bound may bound]
  · rw [State.movePointer_foreign foreign]

/-- A write of `REEL_HEAD` of a reel in use. -/
theorem reelHeadWrite_inUse (open_ : s.opens src (0xD0000 + e * 64 + 0x14) 4 = true) :
    let r := s.reel e
    let may := s.privileged src = true ∨ r.consumer.toNat = (whoOf s src.port).engine
    (may → reelBound s e = false →
      ((v - r.head).toNat ≤ (r.tail - r.head).toNat →
        exec (.reelHeadWrite src e v) s = .next ((s.modReel e fun r => { r with head := v }).reply src .ok)) ∧
      ((r.tail - r.head).toNat < (v - r.head).toNat → exec (.reelHeadWrite src e v) s =
        .next ((s.modReel e fun r => { r with refused := true }).rejected src (0xD0000 + e * 64 + 0x14) 1))) ∧
    (may → reelBound s e = true → exec (.reelHeadWrite src e v) s = .next (s.rejected src (0xD0000 + e * 64 + 0x14) 0)) ∧
    (¬may → exec (.reelHeadWrite src e v) s = .next (s.reply src .nackOwner)) := by
  dsimp only
  rw [exec_reelHeadWrite v open_]
  refine ⟨fun may free => ⟨fun upTo => ?_, fun past => ?_⟩, fun may bound => ?_, fun foreign => ?_⟩
  · rw [State.movePointer_stores may free (.inl enabled) fun _ => firstOf_eq_zero.2 (by simp only [decide_eq_false (Nat.not_lt.2 upTo)]; rfl)]
  · rw [State.movePointer_refused (k := 0) may free enabled (firstOf_cons_fail past [])]
  · rw [State.movePointer_bound may bound]
  · rw [State.movePointer_foreign foreign]

end

/-- A block that runs, with reel 0 in use, and its management controller. -/
def reelInUse : State := { State.reset with
  tm := { State.reset.tm with ready := true }, reels := [(0, { Reel.reset with enable := true })] }
def reelAdvancer : Src := ⟨.mgmt, 0⟩

/-- Refutes O16: the record of a refused advance of reel 0's tail names the register's address, `0x200D0010`, and O16 says `0x20000010`. -/
theorem not_reelPointersAdvance : ¬ Obligations.ReelPointersAdvance := by
  intro advance
  have enabled : (reelInUse.reel (0 : Fin 64)).enable = true := by decide
  have privileged : reelInUse.privileged reelAdvancer = true := by decide
  have free : reelBound reelInUse (0 : Fin 64) = false := by decide
  have back : 2 ^ 31 ≤ ((0x80000000 : BitVec 32) - (reelInUse.reel (0 : Fin 64)).tail).toNat := by decide
  have said := ((advance reelInUse reelAdvancer 0 0x80000000 enabled).1 (by decide)).1 (.inl privileged) free
  have done := (reelTailWrite_inUse (src := reelAdvancer) (e := 0) (v := 0x80000000) enabled (by decide)).1 (.inl privileged) free
  have same := Host.Outcome.next.inj ((done.2.1 back).symm.trans (said.2.1 back))
  exact absurd (congrArg (fun t => t.err.intake.map (·.addr)) same) (by decide)

end Sys2Proof.Machine
end

section
/-!
PROOF. Contexts (O13, O14). A load changes the slot, the owners of the record's cues and the pointers of the reels it applies
(`State.loadCtx_frame`). A save that begins ends waits and takes, with responses (`Released`); its rows are written whole and a restore's are
read, each in one pond cycle (`State.recordRow_written`, `State.recordRow_read`).
-/
namespace Sys2Proof.Machine

/-! ### The flags of a context's first word (R140) -/

/-- Setting bits outside a field leaves the field. -/
theorem bits_or_of_clear {w : Nat} (v : BitVec w) {m : BitVec w} {lo n : Nat} (clear : bits m lo n = 0) : bits (v ||| m) lo n = bits v lo n := by
  rw [bits] at clear ⊢
  rw [BitVec.toNat_or, Nat.shiftRight_or_distrib, Nat.or_mod_two_pow, clear, Nat.or_zero]
  rfl

/-- A context with `VALID` set, as a load leaves it. -/
def Ctx.validated (r : Ctx) : Ctx := Tab.set (fun _ => 0) r 0 (r.word 0 ||| 0x2000000000)

theorem Ctx.validated_word (r : Ctx) : r.validated.word 0 = r.word 0 ||| 0x2000000000 := Tab.get_set_same _ _ _

theorem ctxValid_validated (r : Ctx) : ctxValid r.validated = true := by
  rw [ctxValid, Ctx.validated_word, bit, BitVec.getLsbD_or, Bool.or_eq_true]
  exact .inr (by decide)

theorem ctxPrincipal_validated (r : Ctx) : ctxPrincipal r.validated = ctxPrincipal r := by
  rw [ctxPrincipal, ctxPrincipal, Ctx.validated_word, bits_or_of_clear _ (by decide), bits_or_of_clear _ (by decide)]

theorem State.invalidSlot_valid (s : State) (x : Nat) : ctxValid ((s.invalidSlot x).ctx x) = false := by
  rw [State.invalidSlot, State.setCtx_same, ctxValid]
  have word (r : Ctx) (v : BitVec 64) : Ctx.word (Tab.set (fun _ => 0) r 0 v) 0 = v := Tab.get_set_same _ _ _
  have mask : (0xFFFFFFDFFFFFFFFF : BitVec 64).getLsbD 37 = false := by decide
  rw [word, bit, BitVec.getLsbD_and, mask, Bool.and_false]

/-! ### The load of a context (R143, R232) -/

/-- Cues given to an owner, and no other change. -/
theorem State.ownCues_frame (pr : Principal) (l : List Nat) (s : State) :
    ∃ cues, l.foldl (fun s k => s.modCue k fun c => { c with owner := pr }) s = { s with cues := cues } ∧
      ∀ k, k ∈ l ∨ (s.cue k).owner = pr → (Tab.get (Cue.reset s.variant) cues k).owner = pr := by
  induction l generalizing s with
  | nil => exact ⟨s.cues, rfl, fun k hk => hk.resolve_left List.not_mem_nil⟩
  | cons j l ih =>
    obtain ⟨cues, frame, owned⟩ := ih (s.modCue j fun c => { c with owner := pr })
    refine ⟨cues, frame, fun k hk => owned k ?_⟩
    by_cases e : k = j
    · exact .inr (e ▸ congrArg Cue.owner (s.modCue_cue_same j _))
    · rw [State.modCue_cue_other _ _ _ _ e]
      exact hk.imp_left fun m => (List.mem_cons.1 m).resolve_left e

theorem State.applyReels_frame (bs : List Binding) (s : State) :
    ∃ reels, bs.foldl (fun s b => if b.used && b.apply then s.modReel b.reel fun e =>
      { e with tail := BitVec.ofNat 32 b.tail, head := BitVec.ofNat 32 b.head } else s) s = { s with reels := reels } := by
  induction bs generalizing s with
  | nil => exact ⟨s.reels, rfl⟩
  | cons b bs ih =>
    rw [List.foldl_cons]
    split
    · obtain ⟨reels, h⟩ := ih (s.modReel b.reel fun e => { e with tail := BitVec.ofNat 32 b.tail, head := BitVec.ofNat 32 b.head })
      exact ⟨reels, h⟩
    · exact ih s

/-- A load sets the slot with `VALID`, and gives the record's principal the cues of its ranges; beside them it changes pointers of reels. -/
theorem State.loadCtx_frame (s : State) (x : Nat) (r : Ctx) :
    ∃ cues reels, s.loadCtx x r = { s.setCtx x r.validated with cues := cues, reels := reels } ∧
      ∀ g ∈ ctxCues r, ∀ k, g.1 ≤ k → k < g.1 + g.2 → (Tab.get (Cue.reset s.variant) cues k).owner = ctxPrincipal r := by
  rw [State.loadCtx]
  obtain ⟨cues, given, owned⟩ := State.ownCues_frame (ctxPrincipal r)
    ((ctxCues r).map fun c => (List.range c.2).map (c.1 + ·)).flatten (s.setCtx x r.validated)
  obtain ⟨reels, applied⟩ := State.applyReels_frame (ctxBindings r) { s.setCtx x r.validated with cues := cues }
  refine ⟨cues, reels, ?_, fun g hg k lo hi => owned k (.inl (List.mem_flatten.2 ⟨_, List.mem_map_of_mem hg, ?_⟩))⟩
  · rw [← applied, ← given]
    rfl
  · exact List.mem_map.2 ⟨k - g.1, List.mem_range.2 (by omega), by omega⟩

/-! ### The live view (R141) -/

section
variable {s : State} {src : Src} {v : BitVec 64} {r : Ctx} (open_ : s.opens src 0x200 8 = true) (privileged : s.privileged src = true)
  (present : slotAbsent s.variant s.tm.ctxSel.toNat = false) (shown : r = Tab.set (fun _ => 0) (s.ctx s.tm.ctxSel.toNat) 0 (v &&& 0x7FFFFFFFFF))
include open_ privileged present shown

/-- A privileged write of the first word of the live view. -/
theorem exec_liveViewValidWrite : exec (.liveViewValidWrite src v) s =
    .next (s.unless (s.ctl src 0x200)
      (if bit v 37 then restoreFails s (ctxValid (s.ctx s.tm.ctxSel.toNat)) r else [ctxValid (s.ctx s.tm.ctxSel.toNat)])
      fun u => (if bit v 37 then u.loadCtx s.tm.ctxSel.toNat r else u.setCtx s.tm.ctxSel.toNat r).reply src .ok) := by
  have run : exec (.liveViewValidWrite src v) s = .next (liveSet (s.ctl src 0x200) 0 v s) := ctlCommand_8 open_ rfl v
  subst shown
  rw [run, liveSet, if_neg (ne_true_of_eq_false present), State.privOnly_privileged privileged]
  cases bit v 37 <;> rfl

end

/-- Settles O13: with `VALID` in the word it is a load under the conditions of a restore, else a store under the slot's `VALID` alone. -/
theorem liveViewWritten : Obligations.LiveViewWritten := by
  intro s src v open_ privileged present x r
  rw [exec_liveViewValidWrite open_ privileged present (r := r) rfl]
  refine ⟨fun valid => ?_, fun invalid word => ?_, fun invalid flag fails => ?_, fun invalid flag passes => ?_⟩
  · rw [valid, State.unless_rejected (k := 0)]
    split <;> rfl
  · rw [invalid, if_neg (ne_true_of_eq_false word), State.unless_pass rfl, if_neg (ne_true_of_eq_false word)]
  · rw [invalid, if_pos flag, State.unless_firstOf fails]
  · rw [invalid, if_pos flag, State.unless_pass (firstOf_eq_zero.2 passes), if_pos flag]
    obtain ⟨cues, reels, loaded, owned⟩ := s.loadCtx_frame x r
    refine ⟨_, rfl, ?_, ?_, fun g hg k lo hi => ?_, ?_, ?_, ?_⟩
    all_goals rw [loaded]
    · exact (congrArg ctxValid (s.setCtx_same x _)).trans (ctxValid_validated r)
    · exact (congrArg ctxPrincipal (s.setCtx_same x _)).trans (ctxPrincipal_validated r)
    · exact owned g hg k lo hi
    all_goals rfl

/-! ### Waits and takes that a save ends (R142, R225, R292) -/

/-- From `s` to `t` waits and takes have ended, with responses: of lakes, Springs and cues alone something else may have changed. -/
def Released (s t : State) : Prop := ∃ lakes springs cues, Answered { s with lakes := lakes, springs := springs, cues := cues } t

theorem Answered.released {s t : State} (h : Answered s t) : Released s t := ⟨s.lakes, s.springs, s.cues, h⟩

theorem Released.refl (s : State) : Released s s := (Answered.refl s).released

theorem Released.trans {a b c : State} (h : Released a b) (k : Released b c) : Released a c := by
  obtain ⟨_, _, _, _, _, _, _, _, _, _, rfl⟩ := h
  obtain ⟨l, x, q, k⟩ := k
  exact ⟨l, x, q, Answered.trans ⟨_, _, _, _, _, _, _, rfl⟩ k⟩

theorem Released.foldl {α : Type} {f : State → α → State} (each : ∀ s x, Released s (f s x)) (l : List α) (s : State) :
    Released s (l.foldl f s) := by
  induction l generalizing s with
  | nil => exact .refl s
  | cons x l ih => exact (each s x).trans (ih (f s x))

theorem Released.same {s t : State} (h : Released s t) : t.tm = s.tm ∧ t.ctxs = s.ctxs ∧ t.mem = s.mem := by
  obtain ⟨_, _, _, _, _, _, _, _, _, _, rfl⟩ := h
  exact ⟨rfl, rfl, rfl⟩

theorem State.modLake_released (s : State) (n : Nat) (f : Lake → Lake) : Released s (s.modLake n f) := ⟨_, s.springs, s.cues, .refl _⟩

theorem State.deadlines_released (s : State) (w : Who) (op : Op) (lake : Bool) (dst : Option Nat) (valid : Nat) :
    Released s (s.deadlines w op lake dst valid) := by
  obtain ⟨weir, h⟩ := s.deadlines_frame w op lake dst valid
  rw [h]
  exact Answered.released ⟨weir, s.inbox, s.flights, s.hostReads, s.hostRetry, s.nextId, s.out, rfl⟩

theorem State.dropWaiter_released (s : State) (n : Nat) (e : Waiter) (st : Status) (backoff : Nat) : Released s (s.dropWaiter n e st backoff) := by
  unfold State.dropWaiter
  extract_lets u
  refine Released.trans (b := u) (s.modLake_released n _) ?_
  split
  · exact (u.finishPart_answered _ _ _ _ _).released
  · exact (u.deadlines_released _ _ _ _ _).trans (State.emit_answered _ _).released
  · exact .refl u

theorem State.releaseWaiters_released (s : State) (n : Nat) (p : Waiter → Bool) (st : Status) (backoff : Nat) :
    Released s (s.releaseWaiters n p st backoff) := Released.foldl (fun s e => s.dropWaiter_released n e st backoff) _ s

theorem State.endTake_released (s : State) (n k cause : Nat) (st : Status) : Released s (s.endTake n k cause st) := by
  unfold State.endTake
  extract_lets x fault u
  split
  · exact (s.modLake_released n _).trans (u.releaseWaiters_released n _ _ _)
  · exact .refl s

theorem State.meet_released (s : State) (k : Nat) (h : HeldWait) : Released s (s.meet k h) := by
  unfold State.meet
  extract_lets u
  have taken : Released s u := ⟨s.lakes, s.springs, _, .refl _⟩
  refine taken.trans ?_
  split
  · exact ((u.modLake_released _ _).trans (State.deadlines_released _ _ _ _ _ _)).trans (State.emit_answered _ _).released
  · exact ⟨u.lakes, _, u.cues, .refl _⟩

theorem State.serveCue_released (k fuel : Nat) (s : State) : Released s (State.serveCue k fuel s) := by
  induction fuel generalizing s with
  | zero => exact .refl s
  | succ fuel ih =>
    rw [State.serveCue]
    split
    · exact .refl s
    · next h _ =>
      split
      · exact (s.meet_released k h).trans (ih _)
      · exact .refl s

theorem State.serveCues_released (s : State) : Released s s.serveCues := by
  rw [State.serveCues]
  exact Released.foldl (fun s (e : Nat × Cue) => State.serveCue_released e.1 _ s) s.cues s

theorem State.beginSave_released (s : State) (x : Nat) : Released s (s.beginSave x) := by
  unfold State.beginSave
  refine Released.trans (Released.trans ?takes (Released.foldl (fun s n => s.releaseWaiters_released n _ _ _) _ _)) (State.serveCues_released _)
  split
  · exact (s.endTake_released _ _ _ _).trans (State.endTake_released _ _ _ _ _)
  · exact .refl s

/-! ### A save or restore is asked for (R141 to R143) -/

/-- The registers of a save that is in progress. -/
def State.saveAsked (s : State) (v : BitVec 64) : State :=
  { s with tm := { s.tm with ctxSave := v &&& 0xFFFFFFFFFFF, ctxBusy := true, ctxIsSave := true, ctxLast := bits v 0 9 } }

/-- A save of a valid slot begins by stopping what the slot has under way. -/
def State.saveBegun (s : State) (v : BitVec 64) : State :=
  if ctxValid (s.ctx (bits v 0 9)) then (s.saveAsked v).beginSave (bits v 0 9) else s.saveAsked v

theorem State.saveBegun_released (s : State) (v : BitVec 64) : Released (s.saveAsked v) (s.saveBegun v) := by
  rw [State.saveBegun]
  split
  · exact (s.saveAsked v).beginSave_released _
  · exact .refl _

section
variable {s : State} {src : Src} {v : BitVec 64} (privileged : s.privileged src = true) (present : slotAbsent s.variant (bits v 0 9) = false)
include privileged present

/-- What rejects a save or a restore, in the order of the conditions. -/
def recordCommandFails (s : State) (v : BitVec 64) : List Bool :=
  [s.tm.ctxBusy, !slotExists (bits v 0 9), !inDataView s.variant (recordAddr v)]

/-- A privileged write of `TM_CTX_SAVE`. -/
theorem exec_contextSave (open_ : s.opens src 0x108 8 = true) : exec (.contextSave src v) s =
    .next (s.unless (s.ctl src 0x108) (recordCommandFails s v) fun s => (s.saveBegun v).reply src .ok) := by
  have run : exec (.contextSave src v) s = .next (ctxSaveSet (s.ctl src 0x108) v s) := ctlCommand_8 open_ rfl v
  rw [run, ctxSaveSet, if_neg (ne_true_of_eq_false present), State.privOnly_privileged privileged]
  rfl

/-- A privileged write of `TM_CTX_RESTORE`. -/
theorem exec_contextRestore (open_ : s.opens src 0x110 8 = true) : exec (.contextRestore src v) s =
    .next (s.unless (s.ctl src 0x110) (recordCommandFails s v) fun s =>
      { s with tm := { s.tm with
        ctxRestore := v &&& 0xFFFFFFFFFFF, ctxBusy := true, ctxIsSave := false, ctxLast := bits v 0 9 } }.reply src .ok) := by
  have run : exec (.contextRestore src v) s = .next (ctxRestoreSet (s.ctl src 0x110) v s) := ctlCommand_8 open_ rfl v
  rw [run, ctxRestoreSet, if_neg (ne_true_of_eq_false present), State.privOnly_privileged privileged]
  rfl

end

theorem recordCommandFails_none {s : State} {v : BitVec 64} (free : s.tm.ctxBusy = false) (slot : bits v 0 9 < 272)
    (inView : inDataView s.variant (recordAddr v) = true) : firstOf (recordCommandFails s v) = 0 := by
  simp [firstOf_eq_zero, recordCommandFails, free, slotExists, slot, inView]

theorem recordCommandFails_busy {s : State} (busy : s.tm.ctxBusy = true) (v : BitVec 64) : firstOf (recordCommandFails s v) = 0 + 1 := by
  rw [recordCommandFails, busy]
  rfl

/-! ### The rows of a record (R142, R143) -/

/-- A record's lake lets the row go on without a change. -/
theorem State.recordGate_go {s : State} {op : Op} {a : Nat} (go : (s.recordGate op a).1 = .go) : s.recordGate op a = (.go, s) := by
  revert go
  unfold State.recordGate
  extract_lets w n
  split
  · exact fun go => nomatch go
  · exact fun go => nomatch go
  · split
    · exact fun go => nomatch go
    · split
      · exact fun go => nomatch go
      · exact fun go => congrArg (·, s) go

/-- A write of all 8 words of a row is performed whatever errors or mark the row has (R45, R311, R312). -/
theorem writeRow_whole (s : State) (w : Who) (whole : Bool) {r : RowReq} (all : r.places = List.range 8) :
    ∃ t, writeRow s w none whole r = (⟨.ok, []⟩, t) ∧ Work .plain [r.row] s t ∧ t.mem = storeAt s.mem r.row (placed r.places r.data) := by
  let ws := placed r.places r.data
  let old := s.rowWords r.row
  let t : RowTag := { s.tag r.row with mark := s.marked r.row }
  have inRow : ∀ i ∈ r.places, i < 8 := fun i hi => List.mem_range.1 (all ▸ hi)
  have covered : r.splitsCodeword = false := by
    rw [RowReq.splitsCodeword, all]
    rfl
  have eight : ¬ r.n < 8 := by
    rw [RowReq.n, all]
    decide
  have performed : writeRow s w none whole r = (⟨.ok, []⟩,
      (((s.stored w r).mergeWbs r.row (ws.map (·.1))).inject r.row).joinGroup none r.row (shoreRank w r.row) old t (ws.map (·.1)) [] false) := by
    rw [State.stored]
    simp [writeRow, State.before, covered, eight, t, ws, old]
  refine ⟨_, performed, ?_, ?_⟩
  · exact (s.stored_work w inRow).trans ((State.mergeWbs_work _ _ _).trans ((State.inject_work _ _).trans (State.joinGroup_work _ _ _ _ _ _ _ _)))
  · rw [State.joinGroup_mem, State.inject_mem, State.mergeWbs_mem, s.stored_mem w]

/-- From `s` to `t` a row of a record has been accessed: no context, no reel, and no error or mark of another row has changed. -/
structure RecordRow (row : Nat) (s t : State) : Prop where
  tm : t.tm = s.tm
  ctxs : t.ctxs = s.ctxs
  reels : t.reels = s.reels
  clean : ∀ r, r ≠ row → t.clean r = s.clean r

theorem RecordRow.of_work {s x t : State} {row : Nat} (begun : s.Begun x) (work : Work .plain [row] x t) : RecordRow row s t := by
  obtain ⟨arbs, cnt, ps, nextId, inPond, rfl⟩ := begun
  have reels := (work.slots Mode.noConfusion).2
  have clean := work.clean
  obtain ⟨_, _, _, _, _, _, _, _, _, rfl⟩ := work.frame
  exact ⟨rfl, rfl, reels, fun r hr => clean r fun k => hr (List.mem_singleton.1 k)⟩

/-- The row request of a record's row. -/
def recordRowReq (row : Nat) (data : List Word) : RowReq := ⟨row, List.range 8, data, false⟩

theorem State.recordRow_written (s : State) (row : Nat) (data : List Word) :
    ∃ t, s.recordRow .write (recordRowReq row data) = (.done ⟨.ok, []⟩, t) ∧ RecordRow row s t ∧
      t.mem = storeAt s.mem row (placed (List.range 8) data) := by
  have begun := State.place_begun (s := s) (.inl rfl) (recordWho s) (lakeOf row) .write .plain [recordRowReq row data]
  obtain ⟨t, performed, work, mem⟩ := writeRow_whole (s.place (recordWho s) (lakeOf row) .write .plain false [recordRowReq row data]).2
    (recordWho s) false (r := recordRowReq row data) rfl
  refine ⟨t, ?_, .of_work begun work, mem.trans ?_⟩
  · refine Eq.trans ?_ (congrArg (fun x : RowRes × State => (RowOut.done x.1, x.2)) performed)
    rfl
  · obtain ⟨_, _, _, _, _, h⟩ := begun
    rw [h]
    rfl

theorem State.recordRow_read {s : State} {row : Nat} (clean : s.clean row = true) :
    ∃ t, s.recordRow .read (recordRowReq row []) = (.done ⟨.ok, (List.range 8).map fun i => readWord s.mem (8 * row + i)⟩, t) ∧
      RecordRow row s t ∧ t.mem = s.mem := by
  have begun := State.place_begun (s := s) (.inl rfl) (recordWho s) (lakeOf row) .read .plain [recordRowReq row []]
  have placed_ : (s.place (recordWho s) (lakeOf row) .read .plain false [recordRowReq row []]).2.mem = s.mem ∧
      (s.place (recordWho s) (lakeOf row) .read .plain false [recordRowReq row []]).2.clean row = true := by
    obtain ⟨_, _, _, _, _, h⟩ := begun
    rw [h]
    exact ⟨rfl, clean⟩
  obtain ⟨t, performed, work, mem⟩ := readRow_clean (recordWho s) (r := recordRowReq row []) placed_.2 fun i => List.mem_range.1
  rw [placed_.1] at performed mem
  refine ⟨t, ?_, .of_work begun work, mem⟩
  refine Eq.trans ?_ (congrArg (fun x : RowRes × State => (RowOut.done x.1, x.2)) performed)
  rfl

/-- The record of a slot depends on the pointers of the reels alone. -/
theorem recordOf_congr {s t : State} (reels : t.reels = s.reels) (r : Ctx) : recordOf t r = recordOf s r := by
  funext i
  simp only [recordOf, State.reel, reels]

/-- The words of a record's row `k`. -/
def recordWords (f : Nat → Word) (k : Nat) : List Word := (List.range 8).map fun i => f (8 * k + i)

theorem State.writeRecordRow_performed (s : State) (r : Ctx) (a k : Nat) :
    ∃ t, s.writeRecordRow r a k = (.ok, t) ∧ RecordRow (a / 256 + k) s t ∧
      t.mem = storeAt s.mem (a / 256 + k) (placed (List.range 8) (recordWords (packWord (recordOf s r)) k)) := by
  obtain ⟨t, performed, row, mem⟩ := s.recordRow_written (a / 256 + k) (recordWords (packWord (recordOf s r)) k)
  exact ⟨t, congrArg (fun x : RowOut × State => (x.1.res.st, x.2)) performed, row, mem⟩

theorem State.readRecordRow_performed {s : State} {a k : Nat} (clean : s.clean (a / 256 + k) = true) :
    ∃ t, s.readRecordRow a k = (.ok, (List.range 8).map fun i => readWord s.mem (8 * (a / 256 + k) + i), t) ∧
      RecordRow (a / 256 + k) s t ∧ t.mem = s.mem := by
  obtain ⟨t, performed, row, mem⟩ := State.recordRow_read clean
  exact ⟨t, congrArg (fun x : RowOut × State => (x.1.res.st, x.1.res.words, x.2)) performed, row, mem⟩

theorem recordWords_getD (f : Nat → Word) (k : Nat) {i : Nat} (lt : i < 8) : (recordWords f k).getD i 0 = f (8 * k + i) := by
  rw [recordWords, List.getD_eq_getElem _ _ (by simpa using lt), List.getElem_map, List.getElem_range]

/-- Memory after both rows of a record have been written: the record's 16 words stand there, and every other word is as it was. -/
theorem readWord_record (m : List Host.Cell) (row : Nat) (f : Nat → Word) (a : Nat) :
    readWord (storeAt (storeAt m row (placed (List.range 8) (recordWords f 0))) (row + 1) (placed (List.range 8) (recordWords f 1))) a =
      if 8 * row ≤ a ∧ a < 8 * row + 16 then f (a - 8 * row) else readWord m a := by
  rw [List.range_eq_range', readWord_storeAt_placed, readWord_storeAt_placed]
  by_cases second : 8 * (row + 1) + 0 ≤ a ∧ a < 8 * (row + 1) + 0 + 8
  · rw [if_pos second, if_pos (by omega), recordWords_getD f 1 (by omega)]
    congr 1
    omega
  · rw [if_neg second]
    by_cases first : 8 * row + 0 ≤ a ∧ a < 8 * row + 0 + 8
    · rw [if_pos first, if_pos (by omega), recordWords_getD f 0 (by omega)]
      congr 1
      omega
    · rw [if_neg first, if_neg (by omega)]

theorem recordAddr_aligned (v : BitVec 64) : recordAddr v % 512 = 0 := Nat.mul_mod_left _ _

/-- A record's words are those of its two rows. -/
theorem readWord_rows (m : List Host.Cell) {a : Nat} (aligned : a % 512 = 0) :
    ((List.range 8).map fun i => readWord m (8 * (a / 256 + 0) + i)) ++ ((List.range 8).map fun i => readWord m (8 * (a / 256 + 1) + i)) =
      (List.range 16).map fun i => readWord m (a / 32 + i) := by
  have low : 8 * (a / 256 + 0) = a / 32 := by omega
  have high : 8 * (a / 256 + 1) = a / 32 + 8 := by omega
  rw [low, high, show 16 = 8 + 8 from rfl, List.range_add, List.map_append, List.map_map]
  exact congrArg _ (List.map_congr_left fun i _ => congrArg _ (Nat.add_assoc _ _ _))

/-- The checks of a restore depend on the reels alone. -/
theorem recordOk_congr {s t : State} (reels : t.reels = s.reels) (r : Ctx) : recordOk t r = recordOk s r := by
  simp only [recordOk, restoreFails, State.reel, reels]

/-! ### The end of a save, and the load of a restore (R142, R143) -/

section
variable {s : State} (deep : s.pw.deep = 0) (flows : s.draining = false) (busy : s.tm.ctxBusy = true)
include deep flows busy

theorem exec_contextSaveComplete {x a : Nat} (slot : x = bits s.tm.ctxSave 0 9) (record : a = recordAddr s.tm.ctxSave)
    (isSave : s.tm.ctxIsSave = true) (valid : ctxValid (s.ctx x) = true) (quiet : slotQuiet s x = true)
    (go : (s.recordGate .write a).1 = .go) :
    ∃ t : State, exec .contextSaveComplete s = .next ((t.invalidSlot x).endCtx .ok) ∧ t.mem =
      storeAt (storeAt s.mem (a / 256) (placed (List.range 8) (recordWords (packWord (recordOf s (s.ctx x))) 0))) (a / 256 + 1)
        (placed (List.range 8) (recordWords (packWord (recordOf s (s.ctx x))) 1)) := by
  obtain ⟨t, first, row, mem⟩ := s.writeRecordRow_performed (s.ctx x) a 0
  obtain ⟨u, second, -, mem'⟩ := t.writeRecordRow_performed (s.ctx x) a 1
  refine ⟨u, ?_, by rw [mem', mem, recordOf_congr row.reels]; rfl⟩
  change execContextSaveComplete s = _
  subst slot record
  simp only [execContextSaveComplete, deep, flows, busy, isSave, valid, quiet, State.recordGate_go go, first, second]
  rfl

theorem exec_contextRestoreLoad {x a : Nat} (slot : x = bits s.tm.ctxRestore 0 9) (record : a = recordAddr s.tm.ctxRestore)
    (isRestore : s.tm.ctxIsSave = false) (invalid : ctxValid (s.ctx x) = false) (go : (s.recordGate .read a).1 = .go)
    (clean : s.clean (a / 256) = true) (clean' : s.clean (a / 256 + 1) = true) (passes : recordOk s (s.recordAt a) = true) :
    ∃ t : State, exec .contextRestoreLoad s = .next ((t.loadCtx x (s.recordAt a)).endCtx .ok) ∧ t.mem = s.mem := by
  obtain ⟨t, first, row, mem⟩ := State.readRecordRow_performed (s := s) (a := a) (k := 0) clean
  obtain ⟨u, second, row', mem'⟩ := State.readRecordRow_performed (s := t) (a := a) (k := 1)
    ((row.clean _ (Nat.succ_ne_self _)).trans clean')
  refine ⟨u, ?_, mem'.trans mem⟩
  have words := readWord_rows s.mem (a := a) (record ▸ recordAddr_aligned _)
  rw [mem] at second
  have ok : recordOk u (s.recordAt a) = true := (recordOk_congr (row'.reels.trans row.reels) _).trans passes
  change execContextRestoreLoad s = _
  rw [State.recordAt, ← words] at ok ⊢
  subst slot record
  simp only [execContextRestoreLoad, deep, flows, busy, isRestore, invalid, State.recordGate_go go, first, second, ok]
  rfl

end

/-- Settles O14: a save that begins changes no context and no memory (`State.saveBegun_released`), its end writes the record's two rows whole,
and a restore loads what it reads there. -/
theorem contextsSavedAndRestored : Obligations.ContextsSavedAndRestored := by
  refine ⟨⟨fun s src v open_ privileged present => ⟨fun free slot inView => ?_, fun busy => ?_⟩, ?_⟩,
    fun s src v open_ privileged present => ⟨fun free slot inView => ?_, fun busy => ?_⟩, ?_⟩
  · rw [exec_contextSave privileged present open_, State.unless_pass (recordCommandFails_none free slot inView)]
    obtain ⟨tm, ctxs, mem⟩ := (s.saveBegun_released v).same
    refine ⟨_, rfl, ?_, ?_, ?_, ?_, ctxs, mem, rfl⟩
    all_goals rw [State.reply_tm, tm]; rfl
  · rw [exec_contextSave privileged present open_, State.unless_rejected (recordCommandFails_busy busy v)]
  · intro s deep flows busy isSave x a valid quiet go
    obtain ⟨t, run, mem⟩ := exec_contextSaveComplete deep flows busy rfl rfl isSave valid quiet go
    have row : 8 * (a / 256) = a / 32 ∧ a = 32 * (a / 32) := by
      simp only [a, recordAddr]
      omega
    have word (w : Nat) : readWord ((t.invalidSlot x).endCtx .ok).mem w =
        if a / 32 ≤ w ∧ w < a / 32 + 16 then packWord (recordOf s (s.ctx x)) (w - a / 32) else readWord s.mem w := by
      rw [← row.1, ← readWord_record, ← mem]
      rfl
    refine ⟨_, run, rfl, rfl, t.invalidSlot_valid x, fun i hi => ?_, fun b outside => readByte_of_readWord ?_⟩
    · rw [word, if_pos (by omega), Nat.add_sub_cancel_left]
    · rw [word, if_neg (by omega)]
  · rw [exec_contextRestore privileged present open_, State.unless_pass (recordCommandFails_none free slot inView)]
  · rw [exec_contextRestore privileged present open_, State.unless_rejected (recordCommandFails_busy busy v)]
  · intro s deep flows busy isRestore x a r invalid go clean clean' passes
    obtain ⟨t, run, mem⟩ := exec_contextRestoreLoad deep flows busy rfl rfl isRestore invalid go clean clean' passes
    obtain ⟨cues, reels, loaded, -⟩ := t.loadCtx_frame x r
    refine ⟨_, run, rfl, rfl, ?_, ?_⟩
    · rw [show s.recordAt (recordAddr s.tm.ctxRestore) = r from rfl, loaded]
      exact mem
    · rw [show s.recordAt (recordAddr s.tm.ctxRestore) = r from rfl, loaded]
      exact t.setCtx_same x _

end Sys2Proof.Machine
end

section
/-!
PROOF. The power states that a lake is asked for (O46). A write of `PWR_LAKEn` is rejected under the first of `lakePowerFails` that holds, or stores
its fields and starts the transition that its state and the state asked for give (`exec_lakeStateReq_moves`); where nothing waits at the lake,
its way down changes its power and its windows alone (`State.drainLake_still`).
-/
namespace Sys2Proof

/-! ### An entry stored twice -/

section
variable {α : Type}

theorem Tab.erase_erase (t : Tab α) (k : Nat) : Tab.erase (Tab.erase t k) k = Tab.erase t k := by
  simp [Tab.erase, List.filter_filter]

theorem Tab.erase_insert (t : Tab α) (k : Nat) (v : α) : Tab.erase (Tab.insert t k v) k = Tab.erase t k := by
  induction t with
  | nil => simp [Tab.insert, Tab.erase]
  | cons e t ih =>
    obtain ⟨a, x⟩ := e
    rw [Tab.insert]
    split
    · simp [Tab.erase]
    · simp only [Tab.erase] at ih ⊢
      rw [List.filter_cons, List.filter_cons, ih]

/-- What a key is stored as last counts. -/
theorem Tab.set_set [DecidableEq α] {d : Nat → α} (t : Tab α) (k : Nat) (v w : α) : Tab.set d (Tab.set d t k v) k w = Tab.set d t k w := by
  have erased : Tab.erase (Tab.set d t k v) k = Tab.erase t k := by
    rw [Tab.set]
    split
    · exact Tab.erase_erase t k
    · rw [Tab.erase_insert, Tab.erase_erase]
  rw [Tab.set, erased, ← Tab.set]

end

namespace Machine

theorem State.modLp_modLp (s : State) (n : Nat) (f g : LakePower → LakePower) : (s.modLp n f).modLp n g = s.modLp n fun x => g (f x) := by
  rw [State.modLp, State.modLp_lp_same, State.modLp, State.modLp, Tab.set_set]

/-! ### The write of a lake's power register (R131, R340, R354) -/

/-- The register's fields as a write stores them. -/
def LakePower.written (x : LakePower) (v : BitVec 32) : LakePower := { x with
  req := BitVec.ofNat 2 (bits v 0 2), autoIdle := bit v 2, wakeReq := bit v 3
  idleDelay := if bits v 16 16 = 0 then x.idleDelay else BitVec.ofNat 16 (bits v 16 16) }

/-- What rejects a write that asks for state `r`, in the order of the conditions; those but the last only where it changes the state asked
for. -/
def lakePowerFails (s : State) (n r : Nat) : List Bool :=
  let change := r != (s.lp n).req.toNat
  [change && (s.lp n).state.transit, change && (s.mte n).busy, change && s.pw.deep != 0, change && r = 2 && (s.lp n).state = .off,
    change && r = 3 && s.pinned n, r != 3 && s.failedLake n]

section
variable {s : State} {n r : Nat} (change : r ≠ (s.lp n).req.toNat)
include change

theorem lakePowerFails_transit (transit : (s.lp n).state.transit = true) : firstOf (lakePowerFails s n r) = 0 + 1 := by
  simp [lakePowerFails, firstOf, change, transit]

variable (rests : (s.lp n).state.transit = false)
include rests

theorem lakePowerFails_tested (tested : (s.mte n).busy = true) : firstOf (lakePowerFails s n r) = 1 + 1 := by
  simp [lakePowerFails, firstOf, change, rests, tested]

variable (untested : (s.mte n).busy = false) (runs : s.pw.deep = 0)
include untested runs

theorem lakePowerFails_retOfOff (ret : r = 2) (off : (s.lp n).state = .off) : firstOf (lakePowerFails s n r) = 3 + 1 := by
  subst ret
  rw [off] at rests
  simp [lakePowerFails, firstOf, change, rests, untested, runs, off]

theorem lakePowerFails_pinned (off : r = 3) (pinned : s.pinned n = true) : firstOf (lakePowerFails s n r) = 4 + 1 := by
  subst off
  simp [lakePowerFails, firstOf, change, rests, untested, runs, pinned]

omit change in
theorem lakePowerFails_failed (on : r ≠ 3) (kept : ¬(r = 2 ∧ (s.lp n).state = .off)) (failed : s.failedLake n = true) :
    firstOf (lakePowerFails s n r) = 5 + 1 := by
  have not_ret : ¬((r ≠ (s.lp n).req.toNat ∧ r = 2) ∧ (s.lp n).state = .off) := fun h => kept ⟨h.1.2, h.2⟩
  simp [lakePowerFails, firstOf, rests, untested, runs, on, not_ret, failed]

theorem lakePowerFails_none (kept : ¬(r = 2 ∧ (s.lp n).state = .off)) (free : r = 3 → s.pinned n = false)
    (works : r ≠ 3 → s.failedLake n = false) : firstOf (lakePowerFails s n r) = 0 := by
  simp only [firstOf_eq_zero, lakePowerFails, rests, untested, runs, List.all_cons, List.all_nil, Bool.and_true, Bool.and_eq_true,
    Bool.not_eq_true', bne_self_eq_false, Bool.and_false, true_and]
  refine ⟨?_, ?_, ?_⟩
  · simpa [change] using kept
  · simpa [change] using free
  · simpa using works

end

theorem State.opens_deep {s : State} {src : Src} {off size : Nat} (open_ : s.opens src off size = true) : s.pw.deep = 0 := by
  simp only [State.opens, Bool.and_eq_true, decide_eq_true_eq] at open_
  exact open_.1.1.1

section
variable {s : State} {src : Src} {n : Fin 24} {v : BitVec 32} (open_ : s.opens src (0x10100 + 8 * n) 4 = true)
  (privileged : s.privileged src = true)
include open_ privileged

theorem exec_lakeStateReq : exec (.lakeStateReq src n v) s =
    .next (s.unless (s.ctl src (0x10100 + 8 * n)) (lakePowerFails s n (bits v 0 2)) fun u =>
      (if bits v 0 2 != (s.lp n).req.toNat then (u.modLp n fun x => x.written v).moveLake n (bits v 0 2)
        else u.modLp n fun x => x.written v).reply src .ok) := by
  have run : exec (.lakeStateReq src n v) s = .next (lakePowerSet (s.ctl src (0x10100 + 8 * n)) n (v.setWidth 64) s) :=
    ctlCommand_4 open_ (regHere_pwrLake n) v
  rw [run, lakePowerSet, State.privOnly_privileged privileged]
  simp only [bits_setWidth_64, bit_setWidth_64]
  rfl

/-- A write that asks for the same state stores its fields alone. -/
theorem exec_lakeStateReq_same (same : bits v 0 2 = (s.lp n).req.toNat) (works : bits v 0 2 ≠ 3 → s.failedLake n = false) :
    exec (.lakeStateReq src n v) s = .next ((s.modLp n fun _ => (s.lp n).written v).reply src .ok) := by
  have passes : firstOf (lakePowerFails s n (bits v 0 2)) = 0 := firstOf_eq_zero.2 (by
    simp only [lakePowerFails, same, bne_self_eq_false, Bool.false_and, List.all_cons, List.all_nil, Bool.not_false, Bool.true_and, Bool.and_true,
      Bool.not_eq_true', Bool.and_eq_false_iff, bne_eq_false_iff_eq]
    by_cases off : (s.lp n).req.toNat = 3
    · exact .inl off
    · exact .inr (works (same ▸ off)))
  rw [exec_lakeStateReq open_ privileged, State.unless_pass passes, if_neg (by simp [same])]
  rfl

theorem exec_lakeStateReq_rejected {k : Nat} (fails : firstOf (lakePowerFails s n (bits v 0 2)) = k + 1) :
    exec (.lakeStateReq src n v) s = .next (s.rejected src (0x10100 + 8 * n) (k + 1)) := by
  rw [exec_lakeStateReq open_ privileged, State.unless_rejected fails]

/-- A write that asks for another state, and is not rejected, starts the transition that leads there. -/
theorem exec_lakeStateReq_moves (change : bits v 0 2 ≠ (s.lp n).req.toNat) (rests : (s.lp n).state.transit = false)
    (untested : (s.mte n).busy = false) (kept : ¬(bits v 0 2 = 2 ∧ (s.lp n).state = .off)) (free : bits v 0 2 = 3 → s.pinned n = false)
    (works : bits v 0 2 ≠ 3 → s.failedLake n = false) :
    exec (.lakeStateReq src n v) s = .next (((s.modLp n fun _ => (s.lp n).written v).moveLake n (bits v 0 2)).reply src .ok) := by
  have passes := lakePowerFails_none change rests untested (State.opens_deep open_) kept free works
  rw [exec_lakeStateReq open_ privileged, State.unless_pass passes, if_pos (by simpa using change)]
  rfl

end

/-! ### The transitions (R340 to R345) -/

section
variable {s : State} {n : Nat} {y : LakePower}

/-- A lake's power stored, and then changed. -/
theorem State.modLp_stored (s : State) (n : Nat) (y : LakePower) (f : LakePower → LakePower) :
    (s.modLp n fun _ => y).modLp n f = s.modLp n fun _ => f y := s.modLp_modLp n _ _

/-- What keeps a lake awake is not its power register, but for the requests held at it. -/
theorem lakeQuietForIdle_stored (held : y.held = (s.lp n).held) : lakeQuietForIdle (s.modLp n fun _ => y) n = lakeQuietForIdle s n := by
  rw [lakeQuietForIdle, lakeQuietForIdle, State.modLp_lp_same, held]
  rfl

theorem State.moveLake_toIdle (on : (s.lp n).state = .on) : s.moveLake n 1 = s.goIdle n := by
  unfold State.moveLake
  rw [on]
  rfl

theorem State.moveLake_fromIdle (idle : (s.lp n).state = .idle) : s.moveLake n 0 = s.wakeIdle n := by
  unfold State.moveLake
  rw [idle]
  rfl

theorem State.moveLake_up {r : Nat} (down : (s.lp n).state = .ret ∨ (s.lp n).state = .off) (up : r ≤ 1) : s.moveLake n r = s.wakeDown n false := by
  unfold State.moveLake
  obtain rfl | rfl : r = 0 ∨ r = 1 := by omega
  all_goals rcases down with h | h <;> rw [h] <;> rfl

/-- The way down from ON or IDLE. -/
theorem State.moveLake_down {r : Nat} (down : r = 2 ∨ r = 3) (up : (s.lp n).state = .on ∨ (s.lp n).state = .idle) :
    s.moveLake n r = s.drainLake n (Decidable.decide (r = 3)) false := by
  unfold State.moveLake
  rcases down with rfl | rfl <;> rcases up with h | h <;> rw [h] <;> rfl

theorem State.moveLake_retOff (ret : (s.lp n).state = .ret) : s.moveLake n 3 =
    s.modLp n fun x => { x with state := .entering, toOff := true, wakePend := false, dueNs := s.pw.ns + 1000 } := by
  unfold State.moveLake
  rw [ret]
  rfl

/-- A lake that is where it is asked to be. -/
theorem State.moveLake_there {r : Nat} (there : r = 0 ∧ (s.lp n).state = .on ∨ r = 1 ∧ (s.lp n).state = .idle ∨
    r = 2 ∧ (s.lp n).state = .ret ∨ r = 3 ∧ (s.lp n).state = .off) : s.moveLake n r = s := by
  unfold State.moveLake
  rcases there with ⟨rfl, h⟩ | ⟨rfl, h⟩ | ⟨rfl, h⟩ | ⟨rfl, h⟩ <;> rw [h] <;> rfl

theorem State.goIdle_stored (on : y.state = .on) (held : y.held = (s.lp n).held) : (s.modLp n fun _ => y).goIdle n =
    s.modLp n fun _ => if lakeQuietForIdle s n then { y with state := .idle, waking := false } else y := by
  simp only [State.goIdle, State.modLp_lp_same, on, lakeQuietForIdle_stored held, decide_true, Bool.true_and]
  split
  · exact s.modLp_stored n y _
  · rfl

theorem State.wakeIdle_waking (waking : (s.lp n).waking = true) : s.wakeIdle n = s :=
  if_neg (by simp [waking])

/-- A wake from IDLE begins, which is counted (R341). -/
theorem State.wakeIdle_stored (idle : y.state = .idle) (asleep : y.waking = false) : ∃ cnt, (s.modLp n fun _ => y).wakeIdle n =
    { s.modLp n fun _ => { y with waking := true, due := s.pw.now + 20 } with cnt := cnt } := by
  obtain ⟨cnt, counted⟩ := (s.modLp n fun _ => y).count_frame { set := .lake, inst := n, ev := 0x0E }
  refine ⟨cnt, ?_⟩
  rw [State.wakeIdle, State.modLp_lp_same, if_pos (by simp [idle, asleep]), State.countLake, counted,
    ← s.modLp_stored n y fun x => { x with waking := true, due := s.pw.now + 20 }]
  rfl

theorem State.wakeDown_ret (ret : y.state = .ret) : (s.modLp n fun _ => y).wakeDown n false =
    s.modLp n fun _ => { y with state := .waking, fromOff := false, due := 0, dueNs := s.pw.ns + 6000 } := by
  simp only [State.wakeDown, State.modLp_lp_same, ret, Bool.false_eq_true, if_false]
  exact s.modLp_stored n y _

theorem State.wakeDown_off (off : y.state = .off) : (s.modLp n fun _ => y).wakeDown n false =
    s.modLp n fun _ => { y with state := .waking, fromOff := true, due := 0, dueNs := s.pw.ns + 40000 } := by
  simp only [State.wakeDown, State.modLp_lp_same, off, Bool.false_eq_true, if_false]
  exact s.modLp_stored n y _

end

/-! ### The way down of a lake where nothing waits (R342) -/

theorem State.forceClose_win {s : State} (sorted : Tab.sorted s.wins = true) (n w : Nat) : (s.forceClose n).win w =
    if (s.win w).lake.toNat = n ∧ (s.win w).state = .open then { s.win w with state := .closing, cause := 1, atClose := s.pw.now }
    else s.win w := by
  have closes := Tab.get_mapTab (d := fun _ => Win.reset) sorted (k := w) (f := fun _ x =>
    if x.lake.toNat = n && x.state = .open then { x with state := .closing, cause := 1, atClose := s.pw.now } else x)
    (if_neg (by simp [Win.reset]))
  refine closes.trans ?_
  simp only [Bool.and_eq_true, decide_eq_true_eq]
  rfl

theorem State.forceClose_lp (s : State) (n k : Nat) : (s.forceClose n).lp k = s.lp k := rfl

theorem State.endTake_free {s : State} {n k cause : Nat} {st : Status} (free : ((s.lake n).take k).state = .free) :
    s.endTake n k cause st = s := by
  rw [State.endTake, free]
  exact if_neg (by decide)

theorem State.endTakes_free {s : State} {n cause : Nat} {l : List Nat} (free : ∀ k ∈ l, ((s.lake n).take k).state = .free) :
    l.foldl (fun s k => s.endTake n k cause) s = s := by
  induction l with
  | nil => rfl
  | cons k l ih =>
    rw [List.foldl_cons, State.endTake_free (free k (List.mem_cons_self ..))]
    exact ih fun j hj => free j (List.mem_cons_of_mem k hj)

/-- What lets nothing that waits go on: cues, lakes and Springs as in a still block. -/
theorem State.still.takeUp_eq {s t : State} (still : s.still) (cues : t.cues = s.cues) (variant : t.variant = s.variant)
    (lakes : t.lakes = s.lakes) (springs : t.springs = s.springs) : t.takeUp = t := by
  obtain ⟨canonical, waits, springsStill⟩ := still
  have spring (k : Nat) : t.spring k = s.spring k := by rw [State.spring, springs]; rfl
  refine State.takeUp_eq_self (springs ▸ (State.canonical_iff.1 canonical).springs) (fun k => ?_) (fun k => ?_) fun k => ?_
  · rw [← waits k]
    simp only [heldWaits, State.homeOf, State.cue, State.lake, State.spring, cues, variant, lakes, springs]
  · rw [State.allIssued, spring]
    exact (springsStill k).1
  · rw [State.noneOrdered, spring]
    exact (springsStill k).2.1

/-- A lake that goes down where nothing waits at it: its power and its windows alone change. -/
theorem State.drainLake_still {s : State} {n : Nat} (still : s.still) (held : (s.lp n).held = []) (waiters : (s.lake n).waiters = [])
    (takes : ∀ k < 16, ((s.lake n).take k).state = .free) (off back : Bool) :
    s.drainLake n off back = (s.modLp n fun x => { x with
      state := .draining, toOff := off, deepBack := back, waking := false, wakePend := false, due := s.pw.now + 1 }).forceClose n := by
  unfold State.drainLake
  extract_lets hs u lands d c e
  have begun : u = s := if_pos held
  have none_lands : lands = [] := by
    simp only [lands, begun, waiters, List.filter_nil]
  have waits : (d.forceClose n).releaseWaiters n (fun _ => true) .nackLakeOff = d.forceClose n := by
    have none_waits : ((d.forceClose n).lake n).waiters = [] := by
      rw [show (d.forceClose n).lake n = u.lake n from rfl, begun, waiters]
    rw [State.releaseWaiters, none_waits]
    rfl
  have ends : e = d.forceClose n := by
    simp only [e, c, waits]
    refine State.endTakes_free fun k hk => ?_
    rw [show (d.forceClose n).lake n = u.lake n from rfl, begun]
    exact takes k (List.mem_range.1 hk)
  rw [none_lands, ends]
  simp only [d, begun]
  exact still.takeUp_eq rfl rfl rfl rfl

/-! ### The obligation -/

section
variable {s : State} {src : Src} {n : Fin 24} {v : BitVec 32} (open_ : s.opens src (0x10100 + 8 * n) 4 = true)
  (privileged : s.privileged src = true) (change : bits v 0 2 ≠ (s.lp n).req.toNat) (rests : (s.lp n).state.transit = false)
  (untested : (s.mte n).busy = false)
include open_ privileged change rests untested

/-- A write that asks a lake that works for ON, IDLE or RET, but not for RET out of OFF. -/
theorem exec_lakeStateReq_works (kept : ¬(bits v 0 2 = 2 ∧ (s.lp n).state = .off)) (on : bits v 0 2 ≠ 3) (works : s.failedLake n = false) :
    exec (.lakeStateReq src n v) s = .next (((s.modLp n fun _ => (s.lp n).written v).moveLake n (bits v 0 2)).reply src .ok) :=
  exec_lakeStateReq_moves open_ privileged change rests untested kept (fun off => absurd off on) fun _ => works

/-- A write that asks a lake that nothing pins for OFF. -/
theorem exec_lakeStateReq_off (off : bits v 0 2 = 3) (free : s.pinned n = false) :
    exec (.lakeStateReq src n v) s = .next (((s.modLp n fun _ => (s.lp n).written v).moveLake n (bits v 0 2)).reply src .ok) :=
  exec_lakeStateReq_moves open_ privileged change rests untested (fun ret => by omega) (fun _ => free) fun on => absurd off on

end

/-- Settles O46: the write's conditions, the transition for each state of the lake and state asked for, and the way down where nothing waits. -/
theorem lakeStatesRequested : Obligations.LakeStatesRequested := by
  refine ⟨fun s src n v open_ privileged => ?_, fun s n off back still held waiters takes => ?_⟩
  · intro r x y becomes refused
    have deep := State.opens_deep open_
    have state {st : LkState} (h : x.state = st) : ((s.modLp n fun _ => x.written v).lp n).state = st :=
      (congrArg LakePower.state (s.modLp_lp_same n _)).trans h
    refine ⟨fun same works => exec_lakeStateReq_same open_ privileged same works, fun change transit => ?_, fun change rests tested => ?_,
      fun change rests untested => ⟨fun ret off => ?_, fun off pinned => ?_, fun on kept failed => ?_, fun on works => ?_, ?_, ?_, ?_⟩⟩
    · exact exec_lakeStateReq_rejected open_ privileged (lakePowerFails_transit change transit)
    · exact exec_lakeStateReq_rejected open_ privileged (lakePowerFails_tested change rests tested)
    · exact exec_lakeStateReq_rejected open_ privileged (lakePowerFails_retOfOff change rests untested deep ret off)
    · exact exec_lakeStateReq_rejected open_ privileged (lakePowerFails_pinned change rests untested deep off pinned)
    · exact exec_lakeStateReq_rejected open_ privileged (lakePowerFails_failed rests untested deep on kept failed)
    · have moves {z : State} (kept : ¬(r = 2 ∧ x.state = .off)) (moved : (s.modLp n fun _ => x.written v).moveLake n r = z) :
          exec (.lakeStateReq src n v) s = .next (z.reply src .ok) :=
        moved ▸ exec_lakeStateReq_works open_ privileged change rests untested kept on works
      refine ⟨fun zero there => ?_, fun one there => ?_, fun two there => ?_, fun zero idle waking => ?_, fun one on => ?_,
        fun zero idle asleep => ?_, fun up ret => ?_, fun up off => ?_⟩
      · exact moves (by omega) (State.moveLake_there (.inl ⟨zero, state there⟩))
      · exact moves (by omega) (State.moveLake_there (.inr (.inl ⟨one, state there⟩)))
      · exact moves (fun h => nomatch there.symm.trans h.2) (State.moveLake_there (.inr (.inr (.inl ⟨two, state there⟩))))
      · refine moves (by omega) ?_
        rw [zero, State.moveLake_fromIdle (state idle), State.wakeIdle_waking]
        · rfl
        · exact (congrArg LakePower.waking (s.modLp_lp_same n _)).trans waking
      · refine moves (by omega) ?_
        rw [one, State.moveLake_toIdle (state on), State.goIdle_stored]
        · rfl
        · exact on
        · rfl
      · obtain ⟨cnt, woken⟩ := State.wakeIdle_stored (s := s) (n := n) (y := x.written v) idle asleep
        have run := moves (by omega) ((congrArg _ zero).trans ((State.moveLake_fromIdle (state idle)).trans woken))
        refine ⟨_, run, ?_, fun k hk => ?_, rfl, rfl⟩
        · exact s.modLp_lp_same n fun _ => { y with waking := true, due := s.pw.now + 20 }
        · exact s.modLp_lp_other n (fun _ => { y with waking := true, due := s.pw.now + 20 }) k hk
      · exact moves (by omega) ((State.moveLake_up (.inl (state ret)) up).trans (State.wakeDown_ret ret))
      · exact moves (by omega) ((State.moveLake_up (.inr (state off)) up).trans (State.wakeDown_off off))
    · intro three free there
      have run := exec_lakeStateReq_off open_ privileged change rests untested three free
      rwa [State.moveLake_there (.inr (.inr (.inr ⟨three, state there⟩)))] at run
    · intro three free ret
      have run := exec_lakeStateReq_off open_ privileged change rests untested three free
      rw [show bits v 0 2 = 3 from three, State.moveLake_retOff (state ret), State.modLp_stored] at run
      exact run
    · intro asked up
      have down : r = 2 ∨ r = 3 := asked.imp And.left And.left
      have kept : ¬(r = 2 ∧ x.state = .off) := by
        rintro ⟨-, off⟩
        exact up.elim (fun h => nomatch h.symm.trans off) fun h => nomatch h.symm.trans off
      have free : r = 3 → s.pinned n = false := fun three => asked.elim (fun h => by omega) And.right
      have works : r ≠ 3 → s.failedLake n = false := fun on => asked.elim And.right fun h => absurd h.1 on
      have run := exec_lakeStateReq_moves open_ privileged change rests untested kept free works
      rw [State.moveLake_down down (up.imp state state)] at run
      exact run
  · have down := State.drainLake_still still held waiters takes off back
    have sorted : Tab.sorted s.wins = true := (Tab.wf_iff.1 (State.canonical_iff.1 still.1).wins).1
    intro t
    simp only [t, down]
    refine ⟨?_, fun k hk => ?_, fun w => State.forceClose_win sorted n w, rfl⟩
    · rw [State.forceClose_lp, State.modLp_lp_same]
    · rw [State.forceClose_lp, State.modLp_lp_other _ _ _ _ hk]

end Machine
end Sys2Proof
end

section
/-!
PROOF. Pond cycles that change no slate: what they leave of rows, lakes and memory is said by `SlatesKept`, and a request whose parts are all
performed at its lake is answered at once (R36 to R42).
-/
namespace Sys2Proof.Machine

-- One theorem after another: elaborated side by side, these theorems would each hold a thread and its stack.
set_option Elab.async false

/-! ### What such pond cycles leave -/

/-- From `s` to `t` pond cycles that change no slate have been spent on the rows of `l`: every other row has its errors, its words and its
group, and nothing else of the block has changed than the lakes' write-backs, marks, idle counts, flags and draws, and what is counted. -/
structure SlatesKept (l : List Nat) (s t : State) : Prop where
  frame : ∃ mem rows lakes weir cnt group, t = { s with
    mem := mem, rows := rows, lakes := lakes, weir := weir, cnt := cnt, group := group }
  lake : ∀ n, t.lake n = { s.lake n with
    idleFrom := (t.lake n).idleFrom, steps := (t.lake n).steps, wbs := (t.lake n).wbs, marks := (t.lake n).marks, injArm := (t.lake n).injArm
    fInvalid := (t.lake n).fInvalid, fOverflow := (t.lake n).fOverflow, iOverflow := (t.lake n).iOverflow
    srForced := (t.lake n).srForced, draws := (t.lake n).draws }
  slate : ∀ r, t.slate r = s.slate r
  clean : ∀ r, r ∉ l → t.clean r = s.clean r
  words : ∀ a, wordRow a ∉ l → readWord t.mem a = readWord s.mem a
  group : ∀ r, r ∉ l → t.groupOfRow r = s.groupOfRow r

theorem Work.slatesKept {l : List Nat} {s t : State} (h : Work .plain l s t) : SlatesKept l s t where
  frame := by
    obtain ⟨springs, reels⟩ := h.slots Mode.noConfusion
    have backoff := h.accepted rfl
    obtain ⟨mem, rows, lakes, weir, cnt, group, _, _, _, rfl⟩ := h.frame
    cases springs
    cases reels
    cases backoff
    exact ⟨mem, rows, lakes, weir, cnt, group, rfl⟩
  lake n := by rw [h.lake n]
  slate r := (h.slate r).trans (ite_self _)
  clean := h.clean
  words := h.words
  group := h.group

theorem SlatesKept.append {a b c : State} {l k : List Nat} (h : SlatesKept l a b) (h' : SlatesKept k b c) : SlatesKept (l ++ k) a c where
  frame := by
    obtain ⟨_, _, _, _, _, _, rfl⟩ := h.frame
    obtain ⟨mem, rows, lakes, weir, cnt, group, rfl⟩ := h'.frame
    exact ⟨mem, rows, lakes, weir, cnt, group, rfl⟩
  lake n := by rw [h'.lake n, h.lake n]
  slate r := (h'.slate r).trans (h.slate r)
  clean r hr := by
    rw [List.mem_append, not_or] at hr
    exact (h'.clean r hr.2).trans (h.clean r hr.1)
  words a ha := by
    rw [List.mem_append, not_or] at ha
    exact (h'.words a ha.2).trans (h.words a ha.1)
  group r hr := by
    rw [List.mem_append, not_or] at hr
    exact (h'.group r hr.2).trans (h.group r hr.1)

theorem SlatesKept.mono {l k : List Nat} {s t : State} (h : SlatesKept l s t) (sub : l ⊆ k) : SlatesKept k s t :=
  { h with
    clean := fun r hr => h.clean r fun k => hr (sub k)
    words := fun a ha => h.words a fun k => ha (sub k)
    group := fun r hr => h.group r fun k => hr (sub k) }

/-- Further pond cycles on the same rows. -/
theorem SlatesKept.trans {a b c : State} {l : List Nat} (h : SlatesKept l a b) (h' : SlatesKept l b c) : SlatesKept l a c :=
  (h.append h').mono (List.append_subset.2 ⟨List.Subset.refl l, List.Subset.refl l⟩)

theorem SlatesKept.pw {l : List Nat} {s t : State} (h : SlatesKept l s t) : t.pw = s.pw := by
  obtain ⟨_, _, _, _, _, _, rfl⟩ := h.frame
  rfl

/-- The words that a row request names. -/
def RowReq.found (r : RowReq) (mem : List Host.Cell) : List Word := r.places.map fun i => readWord mem (8 * r.row + i)

theorem SlatesKept.found {l : List Nat} {s t : State} {r : RowReq} (h : SlatesKept l s t) (other : r.row ∉ l) (inRow : ∀ i ∈ r.places, i < 8) :
    r.found t.mem = r.found s.mem := by
  refine List.map_congr_left fun i hi => h.words _ ?_
  have := inRow i hi
  rwa [wordRow, show (8 * r.row + i) / 8 = r.row by omega]

/-! ### A request whose parts are all performed -/

/-- A part whose row requests are all performed, whatever has been counted of it before them. -/
theorem partAccess_performed {s : State} {w : Who} {op : Op} {m : Mode} {fit : Nat} {rs : List RowReq} {outs : List (List Word)} {P : State → Prop}
    (q : Req) (w0 : Nat)
    (performed : ∀ cnt, ∃ t, rowsAccess w op m { s with cnt := cnt } fit rs = (outs.map fun ws => .done ⟨.ok, ws⟩, t) ∧ P t) :
    ∃ t, partAccess s w op q w0 m fit rs = (some (.ok, assemble op q w0 rs outs), t) ∧ P t := by
  have met : (outs.map fun ws => RowOut.done ⟨.ok, ws⟩).all RowOut.met = true := by simp [RowOut.met]
  have results : (outs.map fun ws => RowOut.done ⟨.ok, ws⟩).map RowOut.res = outs.map fun ws => ⟨.ok, ws⟩ := List.map_map ..
  have words : (outs.map fun ws => (⟨.ok, ws⟩ : RowRes)).map (·.words) = outs := (List.map_map ..).trans (List.map_id outs)
  have status : firstStatus ((outs.map fun ws => (⟨.ok, ws⟩ : RowRes)).map (·.st)) = .ok := firstStatus_ok _ (by simp)
  have counted (n ev k : Nat) : ∃ cnt, s.countLake n ev w.quals (some w.label) k = { s with cnt := cnt } := s.count_frame _
  cases op with
  | xread ew st =>
    obtain ⟨cnt, h⟩ := counted (lakeOf (wordRow w0)) 0x20 rs.length
    obtain ⟨t, run, holds⟩ := performed cnt
    refine ⟨t, ?_, holds⟩
    simp only [partAccess, h, run, met, results, words, status, Bool.true_or, if_true]
  | gather st =>
    obtain ⟨cnt, h⟩ := counted (lakeOf (wordRow w0)) 0x21 q.words
    obtain ⟨t, run, holds⟩ := performed cnt
    refine ⟨t, ?_, holds⟩
    simp only [partAccess, h, run, met, results, words, status, Bool.true_or, if_true]
  | _ =>
    obtain ⟨t, run, holds⟩ := performed s.cnt
    refine ⟨t, ?_, holds⟩
    simp only [partAccess, run, met, results, words, status, Bool.true_or, if_true]

/-- A part that is performed, before others (R89, R216). -/
theorem partsAccess_performed {s t : State} {w : Who} {op : Op} {q : Req} {w0 : Nat} {m : Mode} {fit : Nat} {rows : List RowReq} {ws : List Word}
    (performed : partAccess s w op q w0 m fit rows = (some (.ok, ws), t)) {rid i : Nat} {rest : List (List RowReq)} :
    partsAccess w op q w0 m rid s i fit (rows :: rest) =
      let u := if m = .plain then t else t.backoffClear (.waiters (Fin.ofNat 24 (lakeOf (wordRow w0)))) w.ident
      let others := partsAccess w op q w0 m rid u (i + 1) (fit - rows.length) rest
      (some (.ok, ws, 0) :: others.1, others.2) := by
  rw [partsAccess, performed]

section
variable {s : State} {op : Op} {q : Req} {data : List Word} {w0 : Nat} {outs : List (List Word)} {P : State → State → Prop}

theorem State.perform_performed {w : Who} {m : Mode} (apart : q.joins = false ∨ s.group = [] ∧ s.ps = ⟨[], []⟩)
    (performed : ∀ (x : State) (here : Req) (fit : Nat), s.Begun x → here.words = q.words → ∃ t,
      partsAccess w op here w0 m w.id x 0 fit (partsOf op q w0 data) = (outs.map fun ws => some (.ok, ws, 0), t) ∧ t.pw = x.pw ∧ P x t) :
    ∃ x t, s.Begun x ∧ P x t ∧
      s.perform w op q data w0 m = t.respond w (some (lakeOf (wordRow w0))) op q data .ok outs.flatten s.pw.now
        (latencyOf s w op q (lakeOf (wordRow w0)) w0 +
          (s.place w (lakeOf (wordRow w0)) op m q.joins (partsOf op q w0 data).flatten).1.late) 0 := by
  obtain ⟨arbs, cnt, ps, nextId, inPond, placed⟩ := State.place_begun apart w (lakeOf (wordRow w0)) op m (partsOf op q w0 data).flatten
  unfold State.perform
  dsimp only
  generalize s.place w (lakeOf (wordRow w0)) op m q.joins (partsOf op q w0 data).flatten = pl at placed ⊢
  obtain ⟨p, x⟩ := pl
  subst placed
  dsimp only
  let x : State := ({ s with arbs := arbs, cnt := cnt, group := [], ps := ps, nextId := nextId, inPond := inPond }.claim w).inPonds w
    (lakeOf (wordRow w0)) (s.pw.now + opLatency op (s.lake (lakeOf (wordRow w0))).wMode (wordPlace w0) q.words
      (lanesOf s w (lakeOf (wordRow w0))) + p.late)
  have begun : s.Begun x := ⟨_, _, _, _, _, rfl⟩
  obtain ⟨t, accessed, pw, holds⟩ := performed x { q with addr := BitVec.ofNat 64 (32 * w0), glob := false } (if q.joins then p.fit else 0)
    begun rfl
  refine ⟨x, t, begun, holds, ?_⟩
  have now : t.pw.now = s.pw.now := congrArg _ pw
  generalize run : partsAccess w op _ w0 m w.id _ 0 _ _ = out
  obtain rfl := run.symm.trans accessed
  have outcomes : (outs.map fun ws => some (Status.ok, ws, 0)).filterMap id = outs.map fun ws => (Status.ok, ws, 0) := by
    simp [List.filterMap_map]
  have all : (outs.map fun ws => some (Status.ok, ws, 0)).all Option.isSome = true := by simp
  have waits : outs.foldl (fun (b : Nat) _ => max b 0) 0 = 0 := List.foldl_fixed' (fun _ => rfl) outs
  have kept (u : State) : outs.foldl (fun u _ => u.takeOutcome (lakeOf (wordRow w0)) m .ok) u = u :=
    List.foldl_fixed' (fun _ => u.takeOutcome_ok _ m) outs
  have words : (outs.map fun ws => (Status.ok, ws, 0)).map (·.2.1) = outs := (List.map_map ..).trans (List.map_id outs)
  dsimp only
  rw [outcomes, if_pos all, words, List.foldl_map, List.foldl_map, kept, waits, now, firstStatus_ok _ (by simp)]
  rfl

/-- In the data view no request treats slates. -/
theorem modeOf_dataView (s : State) (n : Nat) (op : Op) (q : Req) : modeOf s n op q .data = .plain := by
  unfold modeOf
  cases op <;> rfl

/-- A request that passes every check, with room at its lake, is answered at once where its parts are all performed. -/
theorem State.present_performed {v : View} (serves : s.serves op q v w0 = true) (apart : s.apart q = true)
    (room : s.room q v (lakeOf (wordRow w0)) = true)
    (performed : ∀ (x : State) (here : Req) (fit : Nat), s.Begun x → here.words = q.words → ∃ t,
      partsAccess (s.caller q) op here w0 (modeOf s (lakeOf (wordRow w0)) op q v) (s.caller q).id x 0 fit (partsOf op q w0 data) =
        (outs.map fun ws => some (.ok, ws, 0), t) ∧ t.pw = x.pw ∧ P x t) :
    ∃ x t, s.Begun x ∧ P x t ∧ present op q data s = s.answered t op q data v w0 outs.flatten := by
  obtain ⟨passed, here⟩ := Passed.of_serves serves
  have room : modeOf s (lakeOf (wordRow w0)) op q v = .plain ∨
      s.early (.waiters (Fin.ofNat 24 (lakeOf (wordRow w0)))) (s.caller q).ident = none ∧ (s.lake (lakeOf (wordRow w0))).waiters.length < 64 := by
    have ident : (s.caller q).ident = (whoOf s q.port).ident := by
      rw [State.caller, Who.ownGlobal_ident]
      unfold State.issuer Who.budget
      split <;> rfl
    rw [State.room, Bool.or_eq_true, Bool.and_eq_true, decide_eq_true_eq, decide_eq_true_eq, Option.isNone_iff_eq_none, ← ident] at room
    exact room.imp_left fun view => by rw [view, modeOf_dataView]
  obtain ⟨x, t, begun, holds, run⟩ := State.perform_performed ((s.apart_iff q).1 apart) performed
  refine ⟨x, t, begun, holds, ?_⟩
  rw [present, presentBy_passed data rfl passed here]
  exact (State.startAccess_room data room).trans run

end

end Sys2Proof.Machine
end

section
/-!
PROOF. Strided and transposing reads (O35): every row request of an XREAD or a GATHER reads its row in a pond cycle that changes nothing of
what a read finds (R150, R152, R156, R157), so that all of them are performed, one after another, and the words that they return are put together.
-/
namespace Sys2Proof.Machine

-- One theorem after another: elaborated side by side, these theorems would each hold a thread and its stack.
set_option Elab.async false

/-! ### The pond cycle of a read changes nothing that a read finds -/

@[simp] theorem State.settle_clean (s : State) (row : Nat) : (s.settle row).clean row = s.clean row := by
  have tag : ((s.settle row).tag row).mark = (s.tag row).mark ∧ ((s.settle row).tag row).corr = (s.tag row).corr ∧
      ((s.settle row).tag row).bad = (s.tag row).bad := by
    rw [State.settle]
    split
    · exact ⟨rfl, rfl, rfl⟩
    · rw [State.modLake_tag, State.setTag_same]
      exact ⟨rfl, rfl, rfl⟩
  obtain ⟨mark, corr, bad⟩ := tag
  rw [State.clean, State.marked, mark, corr, bad, s.settle_lake]
  rfl

@[simp] theorem State.spend_clean (s : State) (w : Who) (row : Nat) : (s.spend w row none).clean row = s.clean row := by
  obtain ⟨cnt, counted⟩ := (s.settle row).count_frame { set := .lake, inst := lakeOf row, ev := 0x04, quals := w.quals, label := some w.label }
  rw [← s.settle_clean row, State.spend, if_neg (by simp), State.pondCycle, State.countLake, counted, State.clean, State.marked,
    State.modLake_lake_same]
  rfl

@[simp] theorem State.count_clean (s : State) (o : Occ) (row : Nat) : (s.count o).clean row = s.clean row := by
  rw [State.count]
  split <;> rfl

@[simp] theorem State.moved_clean (s : State) (w : Who) (n k row : Nat) : (s.moved w n k).clean row = s.clean row := by
  unfold State.moved
  extract_lets u
  split <;> exact s.count_clean _ row

@[simp] theorem State.joinGroup_clean (s : State) (grp : Option Grp) (row k : Nat) (old : List Word) (tag : RowTag) (ws atoms : List Nat)
    (checked : Bool) (r : Nat) : (s.joinGroup grp row k old tag ws atoms checked).clean r = s.clean r := rfl

section
variable {s : State} {r : RowReq}

/-- A plain read leaves a clean row clean. -/
theorem readRow_keeps_clean (w : Who) (clean : s.clean r.row = true) : (readRow s w none r).2.clean r.row = true := by
  obtain ⟨mark, corr, bad⟩ := (s.clean_iff r.row).1 clean
  have found : (s.spend w r.row none).checkRow (some w) r.row 0 { s.tag r.row with mark := s.marked r.row } none = s.spend w r.row none :=
    State.checkRow_clean _ _ corr bad ((s.spend_bad r.row w none r.row).trans bad)
  rw [mark] at found
  simp only [readRow, State.before, mark, found, Bool.false_eq_true, if_false]
  rw [State.moved_clean, State.countLake, State.count_clean, State.joinGroup_clean, s.spend_clean w r.row, clean]

/-- From `s` to `t` rows of `l` have been read: memory, slates and whether a row is ready for a read are as they were. -/
structure RowsRead (l : List Nat) (s t : State) : Prop extends SlatesKept l s t where
  mem : t.mem = s.mem
  errors : ∀ r, t.clean r = s.clean r

theorem RowsRead.append {a b c : State} {l k : List Nat} (h : RowsRead l a b) (h' : RowsRead k b c) : RowsRead (l ++ k) a c where
  toSlatesKept := h.toSlatesKept.append h'.toSlatesKept
  mem := h'.mem.trans h.mem
  errors r := (h'.errors r).trans (h.errors r)

theorem RowsRead.readable {l : List Nat} (h : RowsRead l s t) (v : View) (row : Nat) : t.readable v row = s.readable v row := by
  rw [State.readable, State.readable, h.errors, h.slate, h.lake]
  rfl

/-- What is counted of a request changes nothing of a row. -/
theorem RowsRead.counted (s : State) (cnt : Counters) : RowsRead [] s { s with cnt := cnt } where
  toSlatesKept := (Work.counted s.weir cnt).slatesKept
  mem := rfl
  errors _ := rfl

theorem readRow_rowsRead (w : Who) (clean : s.clean r.row = true) (inRow : ∀ i ∈ r.places, i < 8) :
    (readRow s w none r).1 = ⟨.ok, r.found s.mem⟩ ∧ RowsRead [r.row] s (readRow s w none r).2 := by
  obtain ⟨t, run, work, mem⟩ := readRow_clean w clean inRow
  have kept := readRow_keeps_clean w clean
  rw [run] at kept ⊢
  refine ⟨rfl, work.slatesKept, mem, fun x => ?_⟩
  by_cases own : x = r.row
  · rw [own, kept, clean]
  · exact work.clean x fun k => own (List.mem_singleton.1 k)

/-! ### The row requests of a strided read -/

/-- A read in a mode that leaves slates alone wants its row FULL where it is slated (R24, R147). -/
theorem slatedRow_reads {m : Mode} (w : Who) (still : m.alone = false) (slated : m ≠ .plain) (clean : s.clean r.row = true)
    (full : s.slate r.row = .full) (maint : (s.lake (lakeOf r.row)).inMaint (lRow r.row) = false) :
    slatedRow s w none m r = (.done (readRow s w none r).1, (readRow s w none r).2) := by
  obtain ⟨mark, -, bad⟩ := (s.clean_iff r.row).1 clean
  have tags : tagsBad (s.wMode r.row) [] = false := by cases s.wMode r.row <;> rfl
  have named : namedBad (s.wMode r.row) [] r.places = false := by simp [namedBad]
  have reads : m.reads = true ∧ slateMeets (s.lake (lakeOf r.row)) (lRow r.row) m .full = true ∧
      foreignLand (s.lake (lakeOf r.row)) (lRow r.row) m = false ∧ m ≠ .produce := by
    cases m with
    | plain => exact absurd rfl slated
    | peek | takePeek => exact ⟨rfl, rfl, rfl, Mode.noConfusion⟩
    | consume | produce | takeWrite | land => cases still
  obtain ⟨reads, met, own, consumes⟩ := reads
  simp [slatedRow, State.before, maint, own, mark, bad, tags, named, full, met, reads, still, consumes]

/-- The row request of a strided read in view `v` finds its row as it wants it. -/
structure Strided (s : State) (v : View) (r : RowReq) : Prop where
  live : r.masked = false
  inRow : ∀ i ∈ r.places, i < 8
  readable : s.readable v r.row = true

variable {w : Who} {op : Op} {m : Mode} {v : View}

theorem rowAccess_strided (reads : opWrites op = false) (still : m.alone = false) (view : v = .data → m = .plain) (row : Strided s v r)
    (joined : Bool) (apart : opSolo op = true ∨ s.groupOfRow r.row = none) :
    ∃ t, rowAccess s w op joined m r = (.done ⟨.ok, r.found s.mem⟩, t) ∧ RowsRead [r.row] s t := by
  obtain ⟨live, inRow, readable⟩ := row
  obtain ⟨clean, slated⟩ := s.readable_iff.1 readable
  obtain ⟨found, read⟩ := readRow_rowsRead w clean inRow
  have ungrouped : s.joins (joined && !opSolo op && !m.alone) r.row (shoreRank w r.row) = none := by
    rcases apart with solo | none_
    · rw [solo, Bool.not_true, Bool.and_false, Bool.false_and]
      rfl
    · exact State.joins_none none_ _ _
  have notAtomic : opIsAtomic op = false ∧ op ≠ .write := by
    cases op with
    | read | xread | gather | reserved => exact ⟨rfl, Op.noConfusion⟩
    | _ => cases reads
  have alone : RowsRead [r.row] (readRow s w none r).2 ((readRow s w none r).2.alone r.row) :=
    ⟨(State.alone_work _ _).slatesKept, rfl, fun _ => rfl⟩
  refine ⟨if opSolo op then (readRow s w none r).2.alone r.row else (readRow s w none r).2, ?_, ?_⟩
  · rw [rowAccess, live, if_neg Bool.false_ne_true, ungrouped, ← found]
    by_cases plain : m = .plain
    · subst plain
      simp only [notAtomic, Bool.false_eq_true, if_false]
    · have full := slated fun data => plain (view data)
      have slatedRead := slatedRow_reads w still plain clean full.1 full.2
      cases m with
      | plain => exact absurd rfl plain
      | _ => simp only [slatedRead]
  · split
    · exact ⟨read.toSlatesKept.trans alone.toSlatesKept, alone.mem.trans read.mem, fun x => (alone.errors x).trans (read.errors x)⟩
    · exact read

theorem Strided.of_read {l : List Nat} {t : State} (h : Strided s v r) (read : RowsRead l s t) : Strided t v r :=
  ⟨h.live, h.inRow, (read.readable v r.row).trans h.readable⟩

/-- Row requests that join no group, as those of an XREAD, or that are each of a row of its own, which has no group, as those of a GATHER. -/
def Ungrouped (s : State) (op : Op) (rs : List RowReq) : Prop :=
  opSolo op = true ∨ (rs.map (·.row)).Nodup ∧ ∀ r ∈ rs, s.groupOfRow r.row = none

theorem Ungrouped.head {rs : List RowReq} (h : Ungrouped s op (r :: rs)) : opSolo op = true ∨ s.groupOfRow r.row = none :=
  h.imp_right fun ⟨_, ungrouped⟩ => ungrouped r (List.mem_cons_self ..)

theorem Ungrouped.tail {rs : List RowReq} {t : State} (h : Ungrouped s op (r :: rs)) (read : RowsRead [r.row] s t) : Ungrouped t op rs := by
  refine h.imp_right fun ⟨distinct, ungrouped⟩ => ?_
  rw [List.map_cons, List.nodup_cons] at distinct
  refine ⟨distinct.2, fun x hx => ?_⟩
  have other : x.row ∉ [r.row] := fun k => distinct.1 (List.mem_map.2 ⟨x, hx, List.mem_singleton.1 k⟩)
  exact (read.group x.row other).trans (ungrouped x (List.mem_cons_of_mem r hx))

/-- The row requests of a strided read are all performed, in their order. -/
theorem rowsAccess_strided (reads : opWrites op = false) (still : m.alone = false) (view : v = .data → m = .plain) (rs : List RowReq) :
    ∀ (s : State) (fit : Nat), (∀ r ∈ rs, Strided s v r) → Ungrouped s op rs →
      ∃ t, rowsAccess w op m s fit rs = (rs.map fun r => .done ⟨.ok, r.found s.mem⟩, t) ∧ RowsRead (rs.map (·.row)) s t := by
  induction rs with
  | nil => exact fun s _ _ _ => ⟨s, rfl, RowsRead.counted s s.cnt⟩
  | cons r rs ih =>
    intro s fit rows apart
    obtain ⟨a, first, read⟩ := rowAccess_strided (w := w) reads still view (rows r (List.mem_cons_self ..)) (decide (0 < fit)) apart.head
    obtain ⟨t, rest, read'⟩ := ih a (fit - 1) (fun x hx => (rows x (List.mem_cons_of_mem r hx)).of_read read) (apart.tail read)
    refine ⟨t, ?_, read.append read'⟩
    rw [read.mem] at rest
    rw [rowsAccess, first, rest, List.map_cons]

/-- From `s` to `t` a strided read has been performed: memory, slates and all but the lakes, rows, groups and counts are as they were. -/
def State.ReadDone (s t : State) : Prop :=
  (∀ r, t.slate r = s.slate r) ∧ ∃ rows lakes weir cnt group backoff,
    t = { s with rows := rows, lakes := lakes, weir := weir, cnt := cnt, group := group, backoff := backoff }

theorem RowsRead.done {l : List Nat} {t : State} (h : RowsRead l s t) : s.ReadDone t := by
  have mem := h.mem
  have slate := h.slate
  obtain ⟨_, rows, lakes, weir, cnt, group, rfl⟩ := h.frame
  cases mem
  exact ⟨slate, rows, lakes, weir, cnt, group, s.backoff, rfl⟩

/-- The one part of a strided read is performed. -/
theorem partAccess_strided (reads : opWrites op = false) (still : m.alone = false) (view : v = .data → m = .plain) {rs : List RowReq}
    (rows : ∀ r ∈ rs, Strided s v r) (apart : Ungrouped s op rs) (q : Req) (w0 fit : Nat) :
    ∃ t, partAccess s w op q w0 m fit rs = (some (.ok, assemble op q w0 rs (rs.map fun r => r.found s.mem)), t) ∧
      RowsRead (rs.map (·.row)) s t := by
  refine partAccess_performed q w0 fun cnt => ?_
  have counted := RowsRead.counted s cnt
  obtain ⟨t, run, read⟩ := rowsAccess_strided (w := w) reads still view rs { s with cnt := cnt } fit
    (fun r hr => (rows r hr).of_read counted) apart
  refine ⟨t, ?_, counted.append read⟩
  rw [run, List.map_map]
  rfl

theorem assemble_words {q q' : Req} (words : q'.words = q.words) (op : Op) (w0 : Nat) (rs : List RowReq) (got : List (List Word)) :
    assemble op q' w0 rs got = assemble op q w0 rs got := by
  unfold assemble wordsOf
  rw [words]

/-- A strided read of one part, with room at its lake, whose row requests find their rows as its view wants them. -/
theorem present_strided {q : Req} {w0 : Nat} {rs : List RowReq} (reads : opWrites op = false)
    (still : (modeOf s (lakeOf (wordRow w0)) op q v).alone = false) (serves : s.serves op q v w0 = true) (apart : s.apart q = true)
    (room : s.room q v (lakeOf (wordRow w0)) = true) (parts : partsOf op q w0 [] = [rs]) (rows : ∀ r ∈ rs, Strided s v r)
    (alone : opSolo op = true ∨ (rs.map (·.row)).Nodup) :
    ∃ u, present op q [] s = s.answered u op q [] v w0 (assemble op q w0 rs (rs.map fun r => r.found s.mem)) ∧
      (∀ r, u.slate r = s.slate r) ∧
      u = { s with lakes := u.lakes, rows := u.rows, arbs := u.arbs, weir := u.weir, cnt := u.cnt, group := u.group, ps := u.ps
                   inPond := u.inPond, nextId := u.nextId, backoff := u.backoff } := by
  have view : v = .data → modeOf s (lakeOf (wordRow w0)) op q v = .plain := fun data => by rw [data, modeOf_dataView]
  obtain ⟨x, t, ⟨arbs, cnt, ps, nextId, inPond, rfl⟩, ⟨slate, rows, lakes, weir, cnt', group, backoff, rfl⟩, run⟩ :=
    State.present_performed (P := State.ReadDone) (outs := [assemble op q w0 rs (rs.map fun r => r.found s.mem)]) serves apart room
      fun x here fit begun words => by
        obtain ⟨arbs, cnt, ps, nextId, inPond, rfl⟩ := begun
        obtain ⟨t, performed, read⟩ := partAccess_strided (w := s.caller q) reads still view (s := { s with
          arbs := arbs, cnt := cnt, group := [], ps := ps, nextId := nextId, inPond := inPond })
          (fun r hr => ⟨(rows r hr).live, (rows r hr).inRow, (rows r hr).readable⟩)
          (alone.imp_right fun distinct => ⟨distinct, fun _ _ => rfl⟩) here w0 fit
        obtain ⟨slate, rows, lakes, weir, cnt', group, backoff, rfl⟩ := read.done
        rw [assemble_words words] at performed
        rw [parts, partsAccess_performed performed]
        dsimp only [partsAccess]
        split
        · exact ⟨_, rfl, rfl, slate, rows, lakes, weir, cnt', group, backoff, rfl⟩
        · exact ⟨_, rfl, rfl, slate, rows, lakes, weir, cnt', group, _, rfl⟩
  refine ⟨_, run.trans ?_, slate, rfl⟩
  rw [List.flatten_singleton]

/-! ### Transposed blocks and gathered words (R150, R156) -/

theorem found_word (mem : List Host.Cell) (w : Nat) (d : List Word) (masked : Bool) :
    RowReq.found ⟨wordRow w, [wordPlace w], d, masked⟩ mem = [readWord mem w] := by
  rw [RowReq.found, List.map_singleton, row_place]

/-- The source rows of an XREAD. -/
def sourceRows (ws : List Nat) : List RowReq := ws.map fun w => ⟨wordRow w, [wordPlace w], [], false⟩

theorem partsOf_xread (ew : Fin 4) (st : BitVec 16) (q : Req) (w0 : Nat) (d : List Word) :
    partsOf (.xread ew st) q w0 d = [sourceRows (wordsOf (.xread ew st) q w0)] := rfl

/-- An XREAD returns its source words with rows and columns exchanged. -/
theorem assemble_xread (ew : Fin 4) (st : BitVec 16) (q : Req) (w0 : Nat) (mem : List Host.Cell) (ws : List Nat) :
    assemble (.xread ew st) q w0 (sourceRows ws) ((sourceRows ws).map fun r => r.found mem) = transposeBlock ew (ws.map (readWord mem)) := by
  have words : ((sourceRows ws).map fun r => r.found mem).map (fun l => l.headD 0) = ws.map (readWord mem) := by
    rw [sourceRows, List.map_map, List.map_map]
    exact List.map_congr_left fun w _ => by simp [found_word]
  rw [assemble, words]

/-- The row request that reads those of some words that lie in a row. -/
def rowGathered (ws : List Nat) (row : Nat) : RowReq := ⟨row, ((ws.filter (wordRow · = row)).map wordPlace).eraseDups, [], false⟩

/-- The row requests of a GATHER, one to a row. -/
def gatheredRows (ws : List Nat) : List RowReq := (ws.map wordRow).eraseDups.map (rowGathered ws)

theorem partsOf_gather (st : BitVec 16) (q : Req) (w0 : Nat) (d : List Word) :
    partsOf (.gather st) q w0 d = [gatheredRows (wordsOf (.gather st) q w0)] := rfl

theorem mem_rowGathered {ws : List Nat} {row i : Nat} : i ∈ (rowGathered ws row).places ↔ ∃ w ∈ ws, wordRow w = row ∧ wordPlace w = i := by
  simp [rowGathered, List.mem_eraseDups, and_assoc]

theorem mem_gatheredRows {ws : List Nat} {r : RowReq} : r ∈ gatheredRows ws ↔ ∃ w ∈ ws, r = rowGathered ws (wordRow w) := by
  simp [gatheredRows, List.mem_eraseDups, eq_comm]

theorem eraseDups_nodup (l : List Nat) : l.eraseDups.Nodup := by
  induction h : l.length using Nat.strong_induction_on generalizing l with
  | h n ih =>
    cases l with
    | nil => exact List.nodup_nil
    | cons a l =>
      have fewer : (l.filter fun b => !b == a).length < n := by
        rw [← h, List.length_cons]
        exact Nat.lt_succ_of_le (List.length_filter_le _ _)
      rw [List.eraseDups_cons, List.nodup_cons, List.mem_eraseDups]
      exact ⟨by simp, ih _ fewer _ rfl⟩

theorem gatheredRows_distinct (ws : List Nat) : ((gatheredRows ws).map (·.row)).Nodup := by
  have rows : (gatheredRows ws).map (·.row) = (ws.map wordRow).eraseDups := (List.map_map ..).trans (List.map_id _)
  rw [rows]
  exact eraseDups_nodup _

/-- A word that some row request names is found among what they returned. -/
theorem foundWord_found (mem : List Host.Cell) {rs : List RowReq} {r : RowReq} {w : Nat} (hr : r ∈ rs) (row : r.row = wordRow w)
    (place : wordPlace w ∈ r.places) : foundWord rs (rs.map fun r => r.found mem) w = readWord mem w := by
  rw [foundWord, ← List.map_prod_left_eq_zip, List.find?_map]
  cases first : rs.find? ((fun e : RowReq × List Word => e.1.row = wordRow w && e.1.places.contains (wordPlace w)) ∘
      fun r => (r, r.found mem)) with
  | none => exact absurd (List.find?_eq_none.1 first r hr) (by simp [row, place])
  | some x =>
    obtain ⟨row, place⟩ : x.row = wordRow w ∧ wordPlace w ∈ x.places := by simpa using List.find?_some first
    have at_ := List.idxOf_lt_length_iff.2 place
    simp [RowReq.found, List.getElem?_eq_getElem at_, List.getElem_idxOf, row, row_place]

/-- A GATHER returns its words in order. -/
theorem assemble_gather (st : BitVec 16) (q : Req) (w0 : Nat) (mem : List Host.Cell) :
    assemble (.gather st) q w0 (gatheredRows (wordsOf (.gather st) q w0)) ((gatheredRows (wordsOf (.gather st) q w0)).map fun r => r.found mem) =
      (wordsOf (.gather st) q w0).map (readWord mem) := by
  rw [assemble]
  refine List.map_congr_left fun w hw => ?_
  exact foundWord_found mem (mem_gatheredRows.2 ⟨w, hw, rfl⟩) rfl (mem_rowGathered.2 ⟨w, hw, rfl, rfl⟩)

/-! ### The obligation -/

theorem wordPlace_lt (w : Nat) : wordPlace w < 8 := Nat.mod_lt w (by decide)

theorem sourceRows_strided {ws : List Nat} (readable : ∀ w ∈ ws, s.readable v (wordRow w) = true) : ∀ r ∈ sourceRows ws, Strided s v r := by
  intro r hr
  obtain ⟨w, hw, rfl⟩ := List.mem_map.1 hr
  exact ⟨rfl, fun i hi => List.mem_singleton.1 hi ▸ wordPlace_lt w, readable w hw⟩

theorem gatheredRows_strided {ws : List Nat} (readable : ∀ w ∈ ws, s.readable v (wordRow w) = true) :
    ∀ r ∈ gatheredRows ws, Strided s v r := by
  intro r hr
  obtain ⟨w, hw, rfl⟩ := mem_gatheredRows.1 hr
  refine ⟨rfl, fun i hi => ?_, readable w hw⟩
  obtain ⟨x, -, -, rfl⟩ := mem_rowGathered.1 hi
  exact wordPlace_lt x

/-- A request that the produce/consume view does not permit comes in another view (R147). -/
theorem viewPermits_of_gateLate {q : Req} {n w0 : Nat} (h : gateLate s w op q v n w0 = .go) : viewPermits op v = true := by
  by_contra refused
  rw [Bool.not_eq_true] at refused
  simp only [gateLate, refused, Bool.not_false, if_true] at h
  split_ifs at h

/-- Outside the produce/consume view every mode leaves slates alone. -/
theorem modeOf_still (s : State) (n : Nat) (op : Op) (q : Req) (view : v ≠ .pc) : (modeOf s n op q v).alone = false := by
  unfold modeOf
  extract_lets t
  cases v with
  | pc => exact absurd rfl view
  | data | peek => cases op <;> cases t <;> rfl

end

/-- Settles O35: the one part of an XREAD or of a GATHER is performed, and what its row requests return is put together. -/
theorem stridedReadsAnswered : Obligations.StridedReadsAnswered := by
  intro s q v w0 ew st apart room served
  have still {op : Op} (serves : s.serves op q v w0 = true) (permits : viewPermits op .pc = false) :
      (modeOf s (lakeOf (wordRow w0)) op q v).alone = false := by
    refine modeOf_still s _ op q fun view => ?_
    subst view
    exact absurd (viewPermits_of_gateLate (Passed.of_serves serves).1.late) (by simp [permits])
  refine ⟨fun serves readable => ?_, fun serves readable => ?_⟩
  · obtain ⟨u, run, kept⟩ := present_strided rfl (still serves rfl) serves apart room (partsOf_xread ew st q w0 [])
      (sourceRows_strided readable) (.inl rfl)
    refine ⟨u, ?_, kept⟩
    rw [assemble_xread] at run
    exact congrArg _ run
  · obtain ⟨u, run, kept⟩ := present_strided rfl (still serves rfl) serves apart room (partsOf_gather st q w0 [])
      (gatheredRows_strided readable) (.inr (gatheredRows_distinct _))
    refine ⟨u, ?_, kept⟩
    rw [assemble_gather] at run
    exact congrArg _ run

end Sys2Proof.Machine
end

section
/-!
PROOF. The pond cycle of a lake atomic (R158, R160 to R165): on a clean row it applies the operation to each word that the row request names,
stores the results, and leaves every other row and every slate alone.
-/
namespace Sys2Proof.Machine

-- One theorem after another: elaborated side by side, these theorems would each hold a thread and its stack.
set_option Elab.async false

/-! ### The words of a row under an atomic (R160) -/

/-- An operation that raises no flag and takes no draw. -/
def QuietOp (op : Op) : Prop := ∀ env hi draws x y, (atomWord env op hi draws x y).2 = ({}, draws)

theorem quietOp_max (a : Atom) : QuietOp (.max a) := fun _ _ _ _ _ => rfl

theorem quietOp_min (a : Atom) : QuietOp (.min a) := fun _ _ _ _ _ => rfl

theorem quietOp_swap (ty : Fin 4) (k : Fin 8) : QuietOp (.swap ty k) := fun _ _ _ _ _ => rfl

theorem quietOp_cas (ty : Fin 4) (k : Fin 8) : QuietOp (.cas ty k) := fun _ _ _ _ _ => rfl

section
variable (env : AtEnv) (op : Op) (cur data : List Word)

theorem atomWords_places (todo : List (Nat × Nat)) (draws : Nat) :
    (atomWords env op cur data todo draws).1.map (·.1) = todo.map (·.1) := by
  induction todo generalizing draws with
  | nil => rfl
  | cons e todo ih => rw [atomWords, List.map_cons, List.map_cons, ih]

/-- Each word is what the operation makes of it and its operand. -/
theorem atomWords_words (todo : List (Nat × Nat)) (draws : Nat) {i : Nat} (h : i < todo.length) :
    ∃ k, ((atomWords env op cur data todo draws).1.map (·.2)).getD i 0 =
      (atomWord env op (operandAt op data todo[i].2).2 k (cur.getD todo[i].1 0) (operandAt op data todo[i].2).1).1 := by
  induction todo generalizing draws i with
  | nil => exact absurd h (Nat.not_lt_zero i)
  | cons e todo ih =>
    cases i with
    | zero => exact ⟨draws, rfl⟩
    | succ i => exact ih _ (Nat.lt_of_succ_lt_succ h)

theorem atomWords_quiet (quiet : QuietOp op) (todo : List (Nat × Nat)) (draws : Nat) :
    (atomWords env op cur data todo draws).2 = ({}, draws) := by
  induction todo generalizing draws with
  | nil => rfl
  | cons e todo ih =>
    have first := quiet env (operandAt op data e.2).2 draws (cur.getD e.1 0) (operandAt op data e.2).1
    rw [atomWords, first, ih]
    rfl

end

/-! ### One row request of an atomic (R158, R161 to R165) -/

/-- What a lake's atomics work with (R162 to R164). -/
def State.atEnv (s : State) (n : Nat) : AtEnv := ⟨n, (s.lake n).forceRne, (s.lake n).mixes, s.pw.now⟩

/-- What MAX, MIN, SWAP and CAS leave alone in their lake: its flags but `SR_FORCED`, and its generator. -/
def Lake.flags (l : Lake) : Bool × Bool × Bool × Nat := (l.fInvalid, l.fOverflow, l.iOverflow, l.draws)

theorem Work.flags {m : Mode} {l : List Nat} {s t : State} (h : Work m l s t) (n : Nat) : (t.lake n).flags = (s.lake n).flags := by
  rw [h.lake n]
  rfl

theorem SlatesKept.atEnv {l : List Nat} {s t : State} (h : SlatesKept l s t) (n : Nat) : t.atEnv n = s.atEnv n := by
  rw [State.atEnv, h.lake n, h.pw]
  rfl

section
variable (s : State) (w : Who) (op : Op) (r : RowReq)

/-- A lake with other flags and draws. -/
theorem State.modLake_flags (n : Nat) {f : Lake → Lake} (fields : ∀ l, f l = { l with
    fInvalid := (f l).fInvalid, fOverflow := (f l).fOverflow, iOverflow := (f l).iOverflow, srForced := (f l).srForced, draws := (f l).draws }) :
    SlatesKept [] s (s.modLake n f) := by
  have lake (k : Nat) : (s.modLake n f).lake k = { s.lake k with
      fInvalid := ((s.modLake n f).lake k).fInvalid, fOverflow := ((s.modLake n f).lake k).fOverflow
      iOverflow := ((s.modLake n f).lake k).iOverflow, srForced := ((s.modLake n f).lake k).srForced, draws := ((s.modLake n f).lake k).draws } := by
    by_cases own : k = n
    · rw [own, State.modLake_lake_same, fields]
    · rw [State.modLake_lake_other _ _ _ _ own]
  exact {
    frame := ⟨s.mem, s.rows, _, s.weir, s.cnt, s.group, rfl⟩
    lake := fun k => by rw [lake]
    slate := fun x => by
      rw [State.slate, lake]
      rfl
    clean := fun x _ => by
      rw [State.clean, State.marked, lake]
      rfl
    words := fun _ _ => rfl
    group := fun _ _ => rfl }

/-- The flags and draws of an atomic go to its lake alone. -/
theorem State.takeFlags_kept (n : Nat) (f : MsoFlags) (draws : Nat) : SlatesKept [] s (s.takeFlags n f draws w) := by
  have counted (k : Nat) : SlatesKept [] s (s.countLake n 0x23 w.quals (some w.label) k) := (s.count_counted .plain _).slatesKept
  refine (counted (draws - (s.lake n).draws)).trans ?_
  rw [State.takeFlags]
  exact State.modLake_flags _ n fun _ => rfl

theorem State.takeFlags_mem (n : Nat) (f : MsoFlags) (draws : Nat) : (s.takeFlags n f draws w).mem = s.mem := s.count_mem _

theorem State.putWords_mem (row : Nat) (ws : List (Nat × Word)) : (s.putWords row ws).mem = storeAt s.mem row ws := rfl

theorem State.refresh_mem (row : Nat) (ws : List Nat) : (s.refresh row ws).mem = s.mem := rfl

theorem State.takeFlags_tag (n : Nat) (f : MsoFlags) (draws x : Nat) : (s.takeFlags n f draws w).tag x = s.tag x := s.count_tag _ x

theorem State.takeFlags_quiet (n : Nat) : ((s.takeFlags n {} (s.lake n).draws w).lake n).flags = (s.lake n).flags := by
  rw [State.takeFlags, State.modLake_lake_same, State.countLake, State.count_lake]
  simp [Lake.flags]

/-- What a row request of an atomic makes of its words, with flags and draws. -/
def State.atomResult : List (Nat × Word) × MsoFlags × Nat :=
  atomWords (s.atEnv (lakeOf r.row)) op (s.rowWords r.row) r.data (r.places.zip (List.range r.n)) (s.lake (lakeOf r.row)).draws

/-- The row as its pond cycle reads it for an atomic, which is counted. -/
def State.atomRead : State :=
  ((s.spend w r.row none).countLake (lakeOf r.row) 0x05 w.quals (some w.label)).countLake (lakeOf r.row) 0x22 w.quals (some w.label)

theorem State.atomRead_work : Work .plain [r.row] s (s.atomRead w r) :=
  (s.spend_work r.row w none).trans ((State.count_work _ _ _).trans (State.count_work _ _ _))

/-- The row after the results of an atomic have been stored with fresh check bytes. -/
def State.atomStored : State :=
  ((storeWords (s.atomRead w r) w r (s.atomResult op r).1).takeFlags (lakeOf r.row) (s.atomResult op r).2.1 (s.atomResult op r).2.2 w).refresh r.row
    ((s.atomResult op r).1.map (·.1))

variable {s r}

/-- The row after the pond cycle of an atomic: its write-back is scheduled, and it has its part in the group. -/
def State.atomDone (s : State) (w : Who) (op : Op) (r : RowReq) : State :=
  (((s.atomStored w op r).setTag r.row { (s.atomStored w op r).tag r.row with corr := [] }).scheduleWb r.row { s.tag r.row with mark := false }
    ((s.atomResult op r).1.map fun e => (e.1, (s.rowWords r.row).getD e.1 0)) true).joinGroup none r.row (shoreRank w r.row)
    (s.rowWords r.row) { s.tag r.row with mark := false } [] r.places true

theorem atomRow_clean (clean : s.clean r.row = true) (inRow : ∀ i ∈ r.places, i < 8) :
    atomRow s w none op r = (⟨.ok, if opFetches op then r.found s.mem else []⟩, s.atomDone w op r) := by
  obtain ⟨mark, corr, bad⟩ := (s.clean_iff r.row).1 clean
  have read := s.atomRead_work w r
  have stored : ((s.atomStored w op r).tag r.row).bad = [] := by
    rw [State.atomStored, State.refresh_bad, State.takeFlags_tag, storeWords, State.moved_tag, State.putWords_tag, State.atomRead, State.countLake,
      State.count_tag, State.countLake, State.count_tag, State.spend_bad, bad]
    cases State.wMode _ _ <;> rfl
  have result : atomWords ((s.atomRead w r).atEnv (lakeOf r.row)) op (s.rowWords r.row) r.data (r.places.zip (List.range r.n))
      ((s.atomRead w r).lake (lakeOf r.row)).draws = s.atomResult op r := by
    rw [read.slatesKept.atEnv, read.lake]
    rfl
  have good : (r.places.zip (List.range r.n)).filter (fun e => !(unitsOf (s.wMode r.row) e.1).any [].contains) = r.places.zip (List.range r.n) :=
    List.filter_eq_self.2 fun e _ => by simp
  have all : (r.places.zip (List.range r.n)).length = r.n := by simp [RowReq.n]
  have words : r.places.map (fun i => (s.rowWords r.row).getD i 0) = r.found s.mem :=
    List.map_congr_left fun i hi => s.rowWords_getD r.row (inRow i hi)
  rw [State.atomDone, State.atomStored, State.atomRead] at *
  rw [State.atEnv] at result
  simp only [atomRow, State.before, mark, corr, bad, good, all, words, result, stored, Option.any_none, Bool.false_eq_true, if_false, Bool.false_and,
    ne_eq, not_true_eq_false, decide_false, decide_true, lt_irrefl]

theorem State.atomResult_places : (s.atomResult op r).1.map (·.1) = r.places := by
  rw [State.atomResult, atomWords_places, List.map_fst_zip (by simp [RowReq.n])]

theorem State.atomDone_mem : (s.atomDone w op r).mem = storeAt s.mem r.row (s.atomResult op r).1 := by
  have read : (s.atomRead w r).mem = s.mem := by
    rw [State.atomRead, State.countLake, State.count_mem, State.countLake, State.count_mem, State.spend_mem]
  rw [State.atomDone, State.joinGroup_mem, State.scheduleWb_mem, State.setTag_mem, State.atomStored, State.refresh_mem, State.takeFlags_mem,
    storeWords, State.moved_mem, State.putWords_mem, read]

/-- The pond cycle of an atomic up to the flags, and from the flags on. -/
theorem State.atomDone_work (inRow : ∀ i ∈ r.places, i < 8) :
    let u := storeWords (s.atomRead w r) w r (s.atomResult op r).1
    Work .plain [r.row] s u ∧
      Work .plain [r.row] (u.takeFlags (lakeOf r.row) (s.atomResult op r).2.1 (s.atomResult op r).2.2 w) (s.atomDone w op r) := by
  have places : ∀ e ∈ (s.atomResult op r).1, e.1 < 8 := fun e he =>
    inRow e.1 (s.atomResult_places op ▸ List.mem_map_of_mem he)
  have moved : Work .plain [r.row] s (storeWords (s.atomRead w r) w r (s.atomResult op r).1) :=
    (s.atomRead_work w r).trans ((State.putWords_work _ _ places).trans (State.moved_work _ _ w (lakeOf r.row) _))
  refine ⟨moved, ?_⟩
  rw [State.atomDone]
  refine Work.trans (b := s.atomStored w op r) (State.refresh_work _ _ _) ?_
  generalize s.atomStored w op r = u
  exact (State.setTag_work _ _ (t := { u.tag r.row with corr := [] }) rfl).trans
    ((State.scheduleWb_work _ _ _ _ _).trans (State.joinGroup_work _ _ _ _ _ _ _ _))

theorem State.atomDone_kept (inRow : ∀ i ∈ r.places, i < 8) : SlatesKept [r.row] s (s.atomDone w op r) := by
  obtain ⟨before, after⟩ := s.atomDone_work w op inRow
  exact (before.slatesKept.trans ((State.takeFlags_kept _ w _ _ _).mono (List.nil_subset _))).trans after.slatesKept

theorem State.atomDone_flags (inRow : ∀ i ∈ r.places, i < 8) (quiet : QuietOp op) :
    ((s.atomDone w op r).lake (lakeOf r.row)).flags = (s.lake (lakeOf r.row)).flags := by
  obtain ⟨before, after⟩ := s.atomDone_work w op inRow
  have raised : (s.atomResult op r).2 = ({}, (s.lake (lakeOf r.row)).draws) := atomWords_quiet _ op _ _ quiet _ _
  rw [after.flags, raised, ← before.flags]
  have draws : (s.lake (lakeOf r.row)).draws = ((storeWords (s.atomRead w r) w r (s.atomResult op r).1).lake (lakeOf r.row)).draws := by
    rw [before.lake]
  rw [draws]
  exact State.takeFlags_quiet _ w _

theorem placed_unzip (l : List (Nat × Word)) : placed (l.map (·.1)) (l.map (·.2)) = l := by
  induction l with
  | nil => rfl
  | cons e l ih => rw [List.map_cons, List.map_cons, placed, ih]

/-- What a row request of an atomic, of words that follow one another, stores at each word. -/
theorem State.atomDone_words {p n : Nat} (places : r.places = List.range' p n) (small : p + n ≤ 8) (a : Nat) :
    if 8 * r.row + p ≤ a ∧ a < 8 * r.row + p + n then
      ∃ k, readWord (s.atomDone w op r).mem a =
        (atomWord (s.atEnv (lakeOf r.row)) op (operandAt op r.data (a - (8 * r.row + p))).2 k (readWord s.mem a)
          (operandAt op r.data (a - (8 * r.row + p))).1).1
    else readWord (s.atomDone w op r).mem a = readWord s.mem a := by
  have placed : (s.atomResult op r).1 = placed (List.range' p n) ((s.atomResult op r).1.map (·.2)) := by
    rw [← places, ← s.atomResult_places op, placed_unzip]
  rw [State.atomDone_mem, placed, readWord_storeAt_placed]
  split
  · next inside =>
    have count : r.n = n := by rw [RowReq.n, places, List.length_range']
    have named : a - (8 * r.row + p) < (r.places.zip (List.range r.n)).length := by
      rw [List.length_zip, List.length_range, count, places, List.length_range', min_self]
      omega
    obtain ⟨k, h⟩ := atomWords_words (s.atEnv (lakeOf r.row)) op (s.rowWords r.row) r.data _ (s.lake (lakeOf r.row)).draws named
    refine ⟨k, h.trans ?_⟩
    have place : (r.places.zip (List.range r.n))[a - (8 * r.row + p)] = (p + (a - (8 * r.row + p)), a - (8 * r.row + p)) := by
      simp [places]
    rw [place, State.rowWords_getD _ _ (by omega), show 8 * r.row + (p + (a - (8 * r.row + p))) = a by omega]
  · rfl

end

end Sys2Proof.Machine
end

section
/-!
PROOF. Lake atomics (O36): the row requests of an atomic are performed one after another, the second on the words that follow those of the
first, and the old words are returned where the operation fetches (R158, R160).
-/
namespace Sys2Proof.Machine

-- One theorem after another: elaborated side by side, these theorems would each hold a thread and its stack.
set_option Elab.async false

/-! ### A run of words under an atomic -/

/-- From `s` to `t` an atomic has been applied in lake `n` to the `len` words from word `a` on, with operands `o`, in rows of `l`. -/
structure Applied (op : Op) (o : Nat → Word × Bool) (n a len : Nat) (l : List Nat) (s t : State) : Prop extends SlatesKept l s t where
  applied : ∀ i < len, ∃ k, readWord t.mem (a + i) = (atomWord (s.atEnv n) op (o i).2 k (readWord s.mem (a + i)) (o i).1).1
  others : ∀ x, x < a ∨ a + len ≤ x → readWord t.mem x = readWord s.mem x
  raised : QuietOp op → (t.lake n).flags = (s.lake n).flags

section
variable {op : Op} {o : Nat → Word × Bool} {n a k j : Nat} {l l' : List Nat} {s t u : State}

/-- The words of one row, and then those that follow them in the next. -/
theorem Applied.append (h : Applied op o n a k l s t) (h' : Applied op (fun i => o (k + i)) n (a + k) j l' t u) :
    Applied op o n a (k + j) (l ++ l') s u where
  toSlatesKept := h.toSlatesKept.append h'.toSlatesKept
  applied i hi := by
    by_cases first : i < k
    · rw [h'.others (a + i) (by omega)]
      exact h.applied i first
    · obtain ⟨draws, word⟩ := h'.applied (i - k) (by omega)
      rw [h.atEnv, show a + k + (i - k) = a + i by omega, show k + (i - k) = i by omega, h.others (a + i) (by omega)] at word
      exact ⟨draws, word⟩
  others x hx := by rw [h'.others x (by omega), h.others x (by omega)]
  raised quiet := (h'.raised quiet).trans (h.raised quiet)

theorem Applied.congr {o' : Nat → Word × Bool} (h : Applied op o n a k l s t) (same : ∀ i < k, o i = o' i) : Applied op o' n a k l s t :=
  { h with applied := fun i hi => same i hi ▸ h.applied i hi }

/-- What has been counted before changes nothing of it. -/
theorem Applied.counted {cnt : Counters} (h : Applied op o n a k l { s with cnt := cnt } t) : Applied op o n a k l s t :=
  { h with toSlatesKept := (Work.counted (m := .plain) s.weir cnt).slatesKept.append h.toSlatesKept }

end

section
variable {s : State} {w : Who} {op : Op} {r : RowReq} {p len : Nat}

/-- A row request that is not masked, of words that follow one another in a clean row that has no group. -/
structure RowReq.Atomic (s : State) (r : RowReq) (p len : Nat) : Prop where
  live : r.masked = false
  places : r.places = List.range' p len
  small : p + len ≤ 8
  clean : s.clean r.row = true
  ungrouped : s.groupOfRow r.row = none

theorem RowReq.Atomic.inRow (h : r.Atomic s p len) : ∀ i ∈ r.places, i < 8 := fun i hi => by
  have := List.mem_range'_1.1 (h.places ▸ hi)
  have := h.small
  omega

theorem atomDone_applied (h : r.Atomic s p len) :
    Applied op (operandAt op r.data) (lakeOf r.row) (8 * r.row + p) len [r.row] s (s.atomDone w op r) where
  toSlatesKept := s.atomDone_kept w op h.inRow
  applied i hi := by
    have word := s.atomDone_words w op h.places h.small (8 * r.row + p + i)
    rwa [if_pos (by omega), Nat.add_sub_cancel_left] at word
  others x hx := by
    have word := s.atomDone_words w op h.places h.small x
    rwa [if_neg (by omega)] at word
  raised := s.atomDone_flags w op h.inRow

theorem rowAccess_atomic (atomic : opIsAtomic op = true) (h : r.Atomic s p len) (joined : Bool) :
    rowAccess s w op joined .plain r = (.done ⟨.ok, if opFetches op then r.found s.mem else []⟩, s.atomDone w op r) := by
  have solo : opSolo op = false := by
    cases op with
    | xread => cases atomic
    | _ => rfl
  rw [rowAccess, h.live, if_neg Bool.false_ne_true, State.joins_none h.ungrouped]
  simp only [atomic, solo, if_true, Bool.false_eq_true, if_false, atomRow_clean w op h.clean h.inRow]

/-- One row request of an atomic is performed, before those that follow. -/
theorem partsAccess_atomic (atomic : opIsAtomic op = true) (h : r.Atomic s p len) (q : Req) (w0 fit rid i : Nat) :
    ∃ t, (∀ rest, partsAccess w op q w0 .plain rid s i fit ([r] :: rest) =
        (some (.ok, if opFetches op then r.found s.mem else [], 0) :: (partsAccess w op q w0 .plain rid t (i + 1) (fit - 1) rest).1,
          (partsAccess w op q w0 .plain rid t (i + 1) (fit - 1) rest).2)) ∧
      Applied op (operandAt op r.data) (lakeOf r.row) (8 * r.row + p) len [r.row] s t := by
  have one (cnt : Counters) : ∃ t, rowsAccess w op .plain { s with cnt := cnt } fit [r] =
      ([if opFetches op then r.found s.mem else []].map fun ws => .done ⟨.ok, ws⟩, t) ∧
        Applied op (operandAt op r.data) (lakeOf r.row) (8 * r.row + p) len [r.row] s t := by
    have row : r.Atomic { s with cnt := cnt } p len := ⟨h.live, h.places, h.small, h.clean, h.ungrouped⟩
    refine ⟨_, ?_, (atomDone_applied (w := w) row).counted⟩
    rw [rowsAccess, rowAccess_atomic atomic row]
    rfl
  obtain ⟨t, run, applied⟩ := partAccess_performed q w0 one
  refine ⟨t, fun rest => ?_, applied⟩
  have words : assemble op q w0 [r] [if opFetches op then r.found s.mem else []] = if opFetches op then r.found s.mem else [] := by
    cases op with
    | xread | gather => cases atomic
    | _ => exact List.flatten_singleton
  rw [words] at run
  rw [partsAccess_performed run]
  rfl

end

/-! ### The row requests of an atomic (R145, R160) -/

/-- How many operand words act on some destination words, which for ADD_WIDE take half a word each. -/
def operandCount (op : Op) (k : Nat) : Nat := match op with | .addWide _ => k / 2 | _ => k

/-- The row request of the words of an atomic in the row of its first word. -/
def firstAtom (op : Op) (q : Req) (w0 : Nat) (d : List Word) : RowReq :=
  { firstRow q w0 d with data := d.take (operandCount op (firstWords q w0)) }

/-- The row request of the words of an atomic in the next row. -/
def nextAtom (op : Op) (q : Req) (w0 : Nat) (d : List Word) : RowReq :=
  { nextRow q w0 d with data := d.drop (operandCount op (firstWords q w0)) }

section
variable {op : Op} {q : Req} {w0 : Nat} {d : List Word}

theorem getD_take (l : List Word) {i k : Nat} (h : i < k) : (l.take k).getD i 0 = l.getD i 0 := by
  rw [List.getD_eq_getElem?_getD, List.getElem?_take_of_lt h, ← List.getD_eq_getElem?_getD]

theorem getD_drop (l : List Word) (i k : Nat) : (l.drop k).getD i 0 = l.getD (k + i) 0 := by
  rw [List.getD_eq_getElem?_getD, List.getElem?_drop, ← List.getD_eq_getElem?_getD]

theorem operandAt_take {k i : Nat} (even : ∀ a, op = .addWide a → k % 2 = 0) (h : i < k) :
    operandAt op (d.take (operandCount op k)) i = operandAt op d i := by
  cases op with
  | addWide a =>
    have := even a rfl
    exact congrArg (·, decide (i % 2 = 1)) (getD_take (k := k / 2) d (by omega))
  | _ => exact congrArg (·, false) (getD_take d h)

theorem operandAt_drop {k : Nat} (even : ∀ a, op = .addWide a → k % 2 = 0) (i : Nat) :
    operandAt op (d.drop (operandCount op k)) i = operandAt op d (k + i) := by
  cases op with
  | addWide a =>
    have := even a rfl
    change ((d.drop (k / 2)).getD (i / 2) 0, decide (i % 2 = 1)) = (d.getD ((k + i) / 2) 0, decide ((k + i) % 2 = 1))
    rw [getD_drop, show k / 2 + i / 2 = (k + i) / 2 by omega, show (k + i) % 2 = i % 2 by omega]
  | _ => exact congrArg (·, false) (getD_drop d i k)

variable (atomic : opIsAtomic op = true)
include atomic

theorem partsOf_atomic (count : 1 ≤ q.words ∧ q.words ≤ 8) : partsOf op q w0 d =
    if firstWords q w0 < q.words then [[firstAtom op q w0 d], [nextAtom op q w0 d]] else [[firstAtom op q w0 d]] := by
  let ws := wordsOf .write q w0
  let cut := operandCount op (firstWords q w0)
  let v := q.vbit.getD (true, true)
  have stored := partsOf_rowRequests (q := q) (w0 := w0) (d := []) count (op := .write) (.inr rfl)
  have parts : partsOf op q w0 d = if firstWords q w0 < q.words then
      [[⟨wordRow w0, (ws.take (firstWords q w0)).map wordPlace, d.take cut, !v.1⟩],
        [⟨wordRow w0 + 1, (ws.drop (firstWords q w0)).map wordPlace, d.drop cut, !v.2⟩]]
      else [[⟨wordRow w0, (ws.take (firstWords q w0)).map wordPlace, d.take cut, !v.1⟩]] := by
    cases op with
    | read | write | xread | gather | reserved => cases atomic
    | _ => rfl
  have written : partsOf .write q w0 [] = if firstWords q w0 < q.words then
      [[⟨wordRow w0, (ws.take (firstWords q w0)).map wordPlace, [].take (firstWords q w0), !v.1⟩],
        [⟨wordRow w0 + 1, (ws.drop (firstWords q w0)).map wordPlace, [].drop (firstWords q w0), !v.2⟩]]
      else [[⟨wordRow w0, (ws.take (firstWords q w0)).map wordPlace, [].take (firstWords q w0), !v.1⟩]] := rfl
  rw [parts]
  rw [written, rowRequests] at stored
  split at stored
  · next more =>
    simp only [List.map_cons, List.map_nil, List.cons.injEq, and_true, firstRow, nextRow, RowReq.mk.injEq, true_and] at stored
    obtain ⟨⟨first, -⟩, next, -⟩ := stored
    rw [if_pos more, if_pos more, first, next]
    rfl
  · next all =>
    simp only [List.map_cons, List.map_nil, List.cons.injEq, and_true, firstRow, RowReq.mk.injEq, true_and] at stored
    rw [if_neg all, if_neg all, stored.1]
    rfl

/-- A permitted atomic names one word to eight, and masks no row (R145, R146). -/
theorem count_of_atomic (h : opPermitted op q w0 = true) : 1 ≤ q.words ∧ q.words ≤ 8 := by
  cases op with
  | read | write | xread | gather | reserved => cases atomic
  | _ =>
    simp only [opPermitted, Bool.and_eq_true, decide_eq_true_eq] at h
    omega

theorem vbit_of_atomic (h : opPermitted op q w0 = true) : q.vbit = none := by
  cases op with
  | read | write | xread | gather | reserved => cases atomic
  | _ =>
    simp only [opPermitted, Bool.and_eq_true, reduceCtorEq, decide_false, Bool.false_and, Bool.or_false, Option.isNone_iff_eq_none] at h
    exact h.2

/-- The row requests of an ADD_WIDE hold an even number of words each. -/
theorem firstWords_even (h : opPermitted op q w0 = true) (a : Atom) (wide : op = .addWide a) : firstWords q w0 % 2 = 0 := by
  subst wide
  simp only [opPermitted, Bool.and_eq_true, decide_eq_true_eq] at h
  unfold firstWords wordPlace
  omega

theorem lakeOf_atomWord (stays : leavesLake op q w0 = false) {i : Nat} (h : i < q.words) : lakeOf (wordRow (w0 + i)) = lakeOf (wordRow w0) := by
  have write : leavesLake .write q w0 = false := by
    rw [← stays]
    cases op with
    | read | write | xread | gather | reserved => cases atomic
    | _ => rfl
  exact lakeOf_word (.inr rfl) write h

end

/-! ### A request of an atomic -/

/-- What the row requests of an atomic return. -/
def fetched (op : Op) (q : Req) (w0 : Nat) (mem : List Host.Cell) : List (List Word) :=
  (rowRequests q w0 []).map fun r => if opFetches op then r.found mem else []

section
variable {s : State} {op : Op} {q : Req} {w0 : Nat} {d : List Word}

/-- Together they return the old words, or nothing. -/
theorem fetched_words (count : 1 ≤ q.words ∧ q.words ≤ 8) (unmasked : q.vbit = none) (mem : List Host.Cell) :
    (fetched op q w0 mem).flatten = if opFetches op then (List.range q.words).map fun i => readWord mem (w0 + i) else [] := by
  rw [fetched]
  split
  · have old : (List.range q.words).map (fun i => readWord mem (w0 + i)) =
        (List.range q.words).map fun i => if masks q w0 (w0 + i) then 0 else readWord mem (w0 + i) :=
      List.map_congr_left fun i _ => by rw [masks_none unmasked, if_neg Bool.false_ne_true]
    rw [old, ← answers_read (d := []) count mem]
    refine congrArg List.flatten (List.map_congr_left fun r hr => ?_)
    obtain ⟨i, -, -, mask⟩ := exists_word_of_rowRequest count hr
    rw [RowReq.answer, ← mask, masks_none unmasked]
    rfl
  · simp

/-- A request of an atomic whose words lie in clean rows of its lake, which have no group. -/
structure AtomicRequest (s : State) (op : Op) (q : Req) (w0 : Nat) : Prop where
  atomic : opIsAtomic op = true
  permitted : opPermitted op q w0 = true
  lake : ∀ i < q.words, lakeOf (wordRow (w0 + i)) = lakeOf (wordRow w0)
  clean : ∀ i < q.words, s.clean (wordRow (w0 + i)) = true
  ungrouped : ∀ r, s.groupOfRow r = none

theorem AtomicRequest.first (h : AtomicRequest s op q w0) (d : List Word) : (firstAtom op q w0 d).Atomic s (wordPlace w0) (firstWords q w0) := by
  have count := count_of_atomic h.atomic h.permitted
  refine ⟨?_, rfl, ?_, h.clean 0 (by omega), h.ungrouped _⟩
  · simp [firstAtom, firstRow, vbit_of_atomic h.atomic h.permitted]
  · have := firstWords_cases q w0
    omega

theorem AtomicRequest.next (h : AtomicRequest s op q w0) (more : firstWords q w0 < q.words) {t : State}
    (kept : SlatesKept [wordRow w0] s t) (d : List Word) : (nextAtom op q w0 d).Atomic t 0 (q.words - firstWords q w0) := by
  have count := count_of_atomic h.atomic h.permitted
  have row : wordRow (w0 + firstWords q w0) = wordRow w0 + 1 := wordRow_next count more (lt_irrefl _)
  have other : wordRow w0 + 1 ∉ [wordRow w0] := by simp
  refine ⟨?_, rfl, by omega, ?_, (kept.group _ other).trans (h.ungrouped _)⟩
  · simp [nextAtom, nextRow, vbit_of_atomic h.atomic h.permitted]
  · exact (kept.clean _ other).trans (row ▸ h.clean _ more)

/-- The row requests of an atomic are performed one after another. -/
theorem AtomicRequest.performed (h : AtomicRequest s op q w0) (w : Who) (here : Req) (fit rid : Nat) (d : List Word) :
    ∃ l t, partsAccess w op here w0 .plain rid s 0 fit (partsOf op q w0 d) = ((fetched op q w0 s.mem).map fun ws => some (.ok, ws, 0), t) ∧
      Applied op (operandAt op d) (lakeOf (wordRow w0)) w0 q.words l s t := by
  have count := count_of_atomic h.atomic h.permitted
  have even := firstWords_even h.atomic h.permitted
  obtain ⟨t, run, first⟩ := partsAccess_atomic (w := w) h.atomic (h.first d) here w0 fit rid 0
  have first := first.congr fun i hi => operandAt_take even hi
  rw [show 8 * (firstAtom op q w0 d).row + wordPlace w0 = w0 from row_place w0] at first
  rw [partsOf_atomic h.atomic count, fetched, rowRequests]
  obtain ⟨all, -⟩ | ⟨more, ends⟩ := firstWords_cases q w0
  · rw [if_neg (by omega), if_neg (by omega), run, ← all]
    exact ⟨_, t, rfl, first⟩
  · obtain ⟨u, run', next⟩ := partsAccess_atomic (w := w) h.atomic (h.next more first.toSlatesKept d) here w0 (fit - 1) rid 1
    have next := next.congr fun i _ => operandAt_drop even i
    have place := row_place w0
    have follows : 8 * (nextAtom op q w0 d).row + 0 = w0 + firstWords q w0 := by
      rw [show (nextAtom op q w0 d).row = wordRow w0 + 1 from rfl]
      omega
    have lake : lakeOf (nextAtom op q w0 d).row = lakeOf (wordRow w0) := by
      rw [show (nextAtom op q w0 d).row = wordRow w0 + 1 from rfl, ← wordRow_next count more (lt_irrefl _), h.lake _ more]
    have old : (nextAtom op q w0 d).found t.mem = (nextAtom op q w0 d).found s.mem :=
      first.found (by simp [firstAtom, nextAtom, firstRow, nextRow]) (h.next more first.toSlatesKept d).inRow
    rw [follows, lake] at next
    have both := first.append next
    rw [Nat.add_sub_cancel' more.le] at both
    refine ⟨_, u, ?_, both⟩
    rw [if_pos more, if_pos more, run, run', old]
    rfl

end

/-! ### The obligation -/

/-- Settles O36: the row requests of the atomic, each of a clean row, are applied one after another. -/
theorem atomicsApplied : Obligations.AtomicsApplied := by
  intro s q v w0 apart clean room n applied
  have performed {op : Op} {c : Instr} {d : List Word} {quiet : Bool} (atomic : opIsAtomic op = true) (run : exec c s = .next (present op q d s))
      (raises : quiet = true → QuietOp op) : applied op c d quiet := by
    intro serves mode
    obtain ⟨passed, -⟩ := Passed.of_serves serves
    have permitted := opPermitted_of_gateLate passed.late
    have stays := leavesLake_of_gateEarly passed.early
    have count := count_of_atomic atomic permitted
    obtain ⟨x, t, ⟨arbs, cnt, ps, nextId, inPond, rfl⟩, ⟨l, done⟩, answered⟩ := State.present_performed (data := d)
      (outs := fetched op q w0 s.mem) (P := fun x t => ∃ l, Applied op (operandAt op d) n w0 q.words l x t) serves apart room
      fun x here fit begun _ => by
        obtain ⟨arbs, cnt, ps, nextId, inPond, rfl⟩ := begun
        obtain ⟨l, t, performed, done⟩ := AtomicRequest.performed (q := q) (w0 := w0) (s := { s with
          arbs := arbs, cnt := cnt, group := [], ps := ps, nextId := nextId, inPond := inPond })
          ⟨atomic, permitted, fun i hi => lakeOf_atomWord atomic stays hi, clean, fun _ => rfl⟩ (s.caller q) here fit (s.caller q).id d
        rw [mode]
        exact ⟨t, performed, done.pw, l, done⟩
    refine ⟨t, ?_, done.applied, done.others, done.slate, fun h => ?_, ?_⟩
    · rw [run, answered, fetched_words count (vbit_of_atomic atomic permitted)]
    · have flags : (t.lake n).flags = (s.lake n).flags := done.raised (raises h)
      simpa only [Lake.flags, Prod.mk.injEq] using flags
    · obtain ⟨mem, rows, lakes, weir, cnt, group, rfl⟩ := done.frame
      rfl
  refine ⟨fun a d => ?_, fun a d => ?_, fun a d => ?_, fun a d => ?_, fun ty k d => ?_, fun ty k d => ?_⟩
  · exact performed rfl rfl Bool.noConfusion
  · exact performed rfl rfl Bool.noConfusion
  · exact performed rfl rfl fun _ => quietOp_max a
  · exact performed rfl rfl fun _ => quietOp_min a
  · exact performed rfl rfl fun _ => quietOp_swap ty k
  · exact performed rfl rfl fun _ => quietOp_cas ty k

end Sys2Proof.Machine
end

section
/-!
PROOF. Range steps (R220, R222): what a step leaves of each row's slate, and what it leaves unchanged.
-/
namespace Sys2Proof.Machine

-- One theorem after another: elaborated side by side, these theorems would each hold a thread and its stack.
set_option Elab.async false

/-! ### The entry of a step -/

theorem find_paired (rows : List Nat) (sl : Slate) (r : Nat) :
    ((rows.map (·, sl)).find? (·.1 = r)).map (·.2) = if r ∈ rows then some sl else none := by
  induction rows with
  | nil => rfl
  | cons a rows ih =>
    by_cases h : a = r
    · simp [h]
    · simpa [h, Ne.symm h] using ih

theorem stepSlate_append (steps : List RangeStep) (st : RangeStep) (r : Nat) :
    stepSlate (steps ++ [st]) r = ((st.sets.find? (·.1 = r)).map (·.2)).or (stepSlate steps r) := by
  rw [stepSlate, stepSlate, List.reverse_append, List.reverse_singleton, List.singleton_append, List.findSome?_cons]
  cases (st.sets.find? (·.1 = r)).map (·.2) <;> rfl

/-- The rows that a step gives a slate (R220, R238). -/
def State.stepSets (s : State) (range : List Nat) (mine : Nat → Bool) (target : Slate) (release : List Nat) : List (Nat × Slate) :=
  (range.filter fun r => mine r && s.slate r = .reserved).map (·, target) ++ (release.filter fun r => s.slate r = .full).map (·, Slate.empty)

/-- A lake whose range table takes a step, which skips some rows of its range. -/
def Lake.enterStep (l : Lake) (skipped : Nat) (sets : List (Nat × Slate)) : Lake :=
  { l with skipped := satAdd max32 l.skipped skipped, steps := if sets = [] then l.steps else l.steps ++ [⟨sets⟩] }

theorem Lake.enterStep_stepSlate (l : Lake) (skipped : Nat) (sets : List (Nat × Slate)) (r : Nat) :
    stepSlate (l.enterStep skipped sets).steps r = ((sets.find? (·.1 = r)).map (·.2)).or (stepSlate l.steps r) := by
  dsimp only [Lake.enterStep]
  split
  · next none_set => rw [none_set]; rfl
  · exact stepSlate_append l.steps ⟨sets⟩ r

section
variable (s : State) (n : Nat) (range : List Nat) (mine : Nat → Bool) (target : Slate) (release : List Nat)

theorem State.stepSets_find (r : Nat) : ((s.stepSets range mine target release).find? (·.1 = r)).map (·.2) =
    if r ∈ range ∧ mine r = true ∧ s.slate r = .reserved then some target
    else if r ∈ release ∧ s.slate r = .full then some .empty else none := by
  rw [State.stepSets, List.find?_append, Option.map_or, find_paired, find_paired]
  simp only [List.mem_filter, Bool.and_eq_true, decide_eq_true_eq]
  split <;> rfl

theorem State.wakeIdle_frame : ∃ cnt lpow, s.wakeIdle n = { s with cnt := cnt, lpow := lpow } := by
  rw [State.wakeIdle]
  split
  · obtain ⟨cnt, counted⟩ := s.count_frame { set := .lake, inst := n, ev := 0x0E }
    exact ⟨cnt, _, by rw [State.countLake, counted]; rfl⟩
  · exact ⟨s.cnt, s.lpow, rfl⟩

/-- A step changes its lake's range table, with the rows that it skips, wakes the lake, and counts itself. -/
theorem State.rangeStep_frame : ∃ cnt lpow skipped, s.rangeStep n range mine target release =
    ({ s with cnt := cnt, lpow := lpow }).modLake n (·.enterStep skipped (s.stepSets range mine target release)) := by
  obtain ⟨cnt, lpow, woken⟩ := s.wakeIdle_frame n
  obtain ⟨cnt', counted⟩ := ({ s with cnt := cnt, lpow := lpow }).count_frame { set := .lake, inst := n, ev := 0x2C }
  refine ⟨cnt', lpow, range.length - (range.filter fun r => mine r && s.slate r = .reserved).length, ?_⟩
  rw [State.rangeStep, woken, State.countLake, counted]
  rfl

theorem State.rangeStep_mem : (s.rangeStep n range mine target release).mem = s.mem := by
  obtain ⟨cnt, lpow, skipped, h⟩ := s.rangeStep_frame n range mine target release
  rw [h]; rfl

theorem State.rangeStep_lake (k : Nat) : (s.rangeStep n range mine target release).lake k =
    { s.lake k with skipped := ((s.rangeStep n range mine target release).lake k).skipped
                    steps := ((s.rangeStep n range mine target release).lake k).steps } := by
  obtain ⟨cnt, lpow, skipped, h⟩ := s.rangeStep_frame n range mine target release
  rw [h]
  by_cases own : k = n
  · subst own
    rw [State.modLake_lake_same]; rfl
  · rw [State.modLake_lake_other _ _ _ _ own]; rfl

/-- What a range step leaves of a row's slate (R220, R222, R238). -/
theorem State.rangeStep_slate (r : Nat) : (s.rangeStep n range mine target release).slate r =
    if lakeOf r = n ∧ r ∈ range ∧ mine r = true ∧ s.slate r = .reserved then target
    else if lakeOf r = n ∧ r ∈ release ∧ s.slate r = .full then .empty else s.slate r := by
  obtain ⟨cnt, lpow, skipped, h⟩ := s.rangeStep_frame n range mine target release
  by_cases own : lakeOf r = n
  · subst own
    rw [h, State.slate, State.modLake_lake_same, Lake.enterStep_stepSlate, State.stepSets_find]
    simp only [true_and]
    split
    · rfl
    · split <;> rfl
  · rw [h, State.slate, State.modLake_lake_other _ _ _ _ own, if_neg (fun c => own c.1), if_neg (fun c => own c.1)]
    rfl

end

/-! ### A pond cycle that changes no slate (R222) -/

theorem State.pondCycle_frame (s : State) (row : Nat) (quals : List Nat) (label : Option Nat) : ∃ cnt, s.pondCycle row quals label =
    ({ s with cnt := cnt }).modLake (lakeOf row) fun l => { l with idleFrom := s.pw.now } := by
  obtain ⟨cnt, counted⟩ := s.count_frame { set := .lake, inst := lakeOf row, ev := 0x04, quals := quals, label := label }
  exact ⟨cnt, by rw [State.pondCycle, State.countLake, counted]⟩

theorem State.pondCycle_slate (s : State) (row : Nat) (quals : List Nat) (label : Option Nat) (r : Nat) :
    (s.pondCycle row quals label).slate r = s.slate r := by
  obtain ⟨cnt, cycled⟩ := s.pondCycle_frame row quals label
  rw [cycled]
  by_cases own : lakeOf r = lakeOf row
  · rw [State.slate, State.slate, own, State.modLake_lake_same]
    rfl
  · rw [State.slate, State.slate, State.modLake_lake_other _ _ _ _ own]
    rfl

theorem State.count_slate (s : State) (o : Occ) (r : Nat) : (s.count o).slate r = s.slate r := by
  obtain ⟨cnt, counted⟩ := s.count_frame o
  rw [counted]
  rfl

theorem State.setSlate_frame (s : State) (row : Nat) (sl : Slate) :
    ∃ rows lakes, s.setSlate row sl = { s with rows := rows, lakes := lakes } := by
  obtain ⟨rows, lakes, settled⟩ := s.settle_frame row
  rw [State.setSlate, settled]
  exact ⟨_, lakes, rfl⟩

theorem State.setSlate_slate_other (s : State) {row r : Nat} (sl : Slate) (other : r ≠ row) : (s.setSlate row sl).slate r = s.slate r := by
  rw [← s.settle_slate row r, State.setSlate, State.slate, State.setTag_other _ _ _ _ other]
  rfl

theorem State.spend_frame (s : State) (w : Who) (row : Nat) :
    ∃ rows lakes cnt, s.spend w row none = { s with rows := rows, lakes := lakes, cnt := cnt } := by
  obtain ⟨rows, lakes, settled⟩ := s.settle_frame row
  obtain ⟨cnt, cycled⟩ := (s.settle row).pondCycle_frame row w.quals (some w.label)
  have spent : s.spend w row none =
      State.modLake { s with rows := rows, lakes := lakes, cnt := cnt } (lakeOf row) fun l => { l with idleFrom := (s.settle row).pw.now } := by
    rw [State.spend, if_neg (by simp), cycled, settled]
  exact ⟨_, _, _, spent⟩

theorem State.spend_slate (s : State) (w : Who) (row r : Nat) : (s.spend w row none).slate r = s.slate r := by
  rw [State.spend, if_neg (by simp), State.pondCycle_slate, State.settle_slate]

end Sys2Proof.Machine
end

section
/-!
PROOF. The range table (O27): a step that waited for an entry is taken once one is free, with its whole effect; a sweep rewrites one
row's tag bits (R222, R238).
-/
namespace Sys2Proof.Machine

-- One theorem after another: elaborated side by side, these theorems would each hold a thread and its stack.
set_option Elab.async false

/-! ### Command slots seen by a step (R175) -/

theorem State.slotsSeen_frame (f : State → Nat → State)
    (hf : ∀ s r, ∃ springs reels, f s r = { s with springs := springs, reels := reels }) (rows : List Nat) (s : State) :
    ∃ springs reels, rows.foldl (fun s r => if s.slate r = .full then f s r else s) s = { s with springs := springs, reels := reels } := by
  induction rows generalizing s with
  | nil => exact ⟨s.springs, s.reels, rfl⟩
  | cons r rows ih =>
    rw [List.foldl_cons]
    split
    · obtain ⟨springs, reels, seen⟩ := hf s r
      rw [seen]
      obtain ⟨springs', reels', h⟩ := ih { s with springs := springs, reels := reels }
      exact ⟨springs', reels', h⟩
    · exact ih s

theorem State.slotsFull_frame (s : State) (rows : List Nat) (pr : Principal) (priv : Bool) (label : Nat) (segs : List Seg) :
    ∃ springs reels, s.slotsFull rows pr priv label segs = { s with springs := springs, reels := reels } :=
  State.slotsSeen_frame _ (fun s r => s.slotFull_frame r pr priv label segs) rows s

theorem State.takeSlots_frame (s : State) (x : Take) (rows : List Nat) :
    ∃ springs reels, s.takeSlots x rows = { s with springs := springs, reels := reels } := by
  rw [State.takeSlots]
  split
  · exact State.slotsSeen_frame _ (fun s r => s.slotFullBy_frame r _) rows s
  · exact ⟨s.springs, s.reels, rfl⟩

/-! ### The commit step (R238) -/

theorem State.preemptCheck_frame (s : State) : ∃ tm, s.preemptCheck = { s with tm := tm } := by
  rw [State.preemptCheck]
  split
  · exact ⟨_, rfl⟩
  · exact ⟨s.tm, rfl⟩

/-- A take's results and operands as its commit step treats them (R238). -/
def State.commitRange (s : State) (n : Nat) (f : TakeFields) : State :=
  s.rangeStep n (rangeRows f.res n) (fun _ => true) .full (if f.consume then rangeRows f.opa n ++ rangeRows f.opb n else [])

theorem State.commitRange_slate (s : State) (n : Nat) (f : TakeFields) (r : Nat) :
    (s.commitRange n f).slate r = s.takeLeaves n f .full f.consume r := by
  rw [State.commitRange, State.rangeStep_slate, State.takeLeaves]
  cases f.consume <;> simp [and_assoc]

/-- The T-cycle in which a commit step is taken: the step on its rows, the command slots among them, and its count (R175, R238). -/
def State.commitRows (s : State) (x : Take) (n t : Nat) : State :=
  ((s.commitRange n x.f).takeSlots x ((rangeRows x.f.res n).filter fun r => s.slate r = .reserved)).countLake n 0x29 (takeQuals t)

theorem State.commitRows_waited (s : State) (x : Take) (n t : Nat) : Waited (s.commitRange n x.f) (s.commitRows x n t) := by
  rw [State.commitRows]
  generalize s.commitRange n x.f = b
  generalize (rangeRows x.f.res n).filter _ = rows
  obtain ⟨springs, reels, seen⟩ := b.takeSlots_frame x rows
  obtain ⟨cnt, counted⟩ := ({ b with springs := springs, reels := reels }).count_frame
    { set := .lake, inst := n, ev := 0x29, quals := takeQuals t }
  rw [seen, State.countLake, counted]
  exact ⟨rfl, rfl, rfl, rfl, fun _ => rfl⟩

theorem State.commitRows_canonical {s : State} (canonical : s.canonical = true) (x : Take) (n t : Nat) :
    (s.commitRows x n t).canonical = true :=
  (State.countLake_steady (State.takeSlots_steady (State.rangeStep_steady (Steady.refl s) _ _ _ _ _) _ _) _ _ _ _ _).tables canonical

/-- A commit of a take that the pre-emption in progress names is counted (R298). -/
def State.commitSeen (s : State) (n t : Nat) : State :=
  if s.tm.peBusy && (preemptSlots s).contains (n, t) then { s with tm := { s.tm with peCommit := s.tm.peCommit + 1 } } else s

/-- The T-cycle after a commit step (R238): the cue is signalled, the position is FREE, then the response. -/
def State.commitFrees (s : State) (x : Take) (n t : Nat) : State :=
  let s := if x.f.sig then s.signal x.f.cue.toNat 1 else s
  let s := (s.putTake n t { x with state := .free }).commitSeen n t
  (s.emit (.resp (takePort x) x.tag .ok [] (s.pw.now + 1 - x.at_) 0)).preemptCheck

theorem State.commitSeen_frame (s : State) (n t : Nat) : ∃ tm, s.commitSeen n t = { s with tm := tm } := by
  rw [State.commitSeen]
  split
  · exact ⟨_, rfl⟩
  · exact ⟨s.tm, rfl⟩

theorem State.commitFrees_frame (s : State) {x : Take} (silent : x.f.sig = false) (n t : Nat) :
    ∃ tm out, s.commitFrees x n t = { s.putTake n t { x with state := .free } with tm := tm, out := out } := by
  obtain ⟨tm, seen⟩ := (s.putTake n t { x with state := .free }).commitSeen_frame n t
  rw [State.commitFrees, silent, if_neg Bool.false_ne_true]
  dsimp only
  rw [seen]
  obtain ⟨tm', checked⟩ := State.preemptCheck_frame (State.emit { s.putTake n t { x with state := .free } with tm := tm }
    (.resp (takePort x) x.tag .ok [] (s.pw.now + 1 - x.at_) 0))
  exact ⟨tm', _, checked⟩

theorem State.commitStep_eq (s : State) (n t : Nat) : s.commitStep n t =
    (((s.reach (((s.lake n).take t).at_ + 2)).commitRows ((s.lake n).take t) n t).elapse 1).commitFrees ((s.lake n).take t) n t := by
  rw [State.elapse_eq_reach]
  rfl

theorem State.takeLeaves_congr {s t : State} (h : ∀ r, t.slate r = s.slate r) (n : Nat) (f : TakeFields) (target : Slate) (release : Bool) :
    t.takeLeaves n f target release = s.takeLeaves n f target release := by
  funext r
  rw [State.takeLeaves, State.takeLeaves, h r]

theorem State.putTake_slate (s : State) (n t : Nat) (x : Take) (r : Nat) : (s.putTake n t x).slate r = s.slate r := by
  by_cases own : lakeOf r = n
  · rw [State.slate, State.slate, State.putTake, ← own, State.modLake_lake_same]
    rfl
  · rw [State.slate, State.slate, State.putTake, State.modLake_lake_other _ _ _ _ own]
    rfl

/-- What a commit step that signals no cue leaves of its lake, of memory, the cues and the slates (R220, R238). -/
theorem State.commitStep_leaves {s : State} {n t : Nat} {x : Take} (canonical : s.canonical = true) (position : (s.lake n).take t = x)
    (silent : x.f.sig = false) :
    ((s.commitStep n t).lake n).stepWait = (s.lake n).stepWait ∧ (((s.commitStep n t).lake n).take t).state = .free ∧
      (s.commitStep n t).mem = s.mem ∧ (s.commitStep n t).cues = s.cues ∧
      ∀ r, (s.commitStep n t).slate r = s.takeLeaves n x.f .full x.f.consume r := by
  let a := s.reach (x.at_ + 2)
  let e := (a.commitRows x n t).elapse 1
  have waited : Waited s a := State.reach_waited canonical _
  have canonical' : a.canonical = true := (State.reach_steady (Steady.refl s) _).tables canonical
  have passed : Waited (a.commitRange n x.f) e :=
    (a.commitRows_waited x n t).trans (State.elapse_waited (State.commitRows_canonical canonical' x n t) 1)
  have stepped := a.rangeStep_frame n (rangeRows x.f.res n) (fun _ => true) .full
    (if x.f.consume then rangeRows x.f.opa n ++ rangeRows x.f.opb n else [])
  obtain ⟨tm, out, freed⟩ := e.commitFrees_frame silent n t
  rw [State.commitStep_eq, position]
  change ((e.commitFrees x n t).lake n).stepWait = _ ∧ (((e.commitFrees x n t).lake n).take t).state = _ ∧
    (e.commitFrees x n t).mem = _ ∧ (e.commitFrees x n t).cues = _ ∧ ∀ r, (e.commitFrees x n t).slate r = _
  obtain ⟨cnt, lpow, skipped, stepped⟩ := stepped
  have lake : (e.putTake n t { x with state := .free }).lake n = (e.lake n).setTake t { x with state := .free } :=
    State.modLake_lake_same _ _ _
  have entered : ((a.commitRange n x.f).lake n).stepWait = (a.lake n).stepWait := by
    rw [State.commitRange, State.rangeStep_lake]
  rw [freed]
  refine ⟨?_, ?_, ?_, ?_, fun r => ?_⟩
  · change ((e.putTake n t { x with state := .free }).lake n).stepWait = _
    rw [lake, Lake.setTake, passed.lake n, entered, waited.lake n]
  · change (((e.putTake n t { x with state := .free }).lake n).take t).state = _
    rw [lake, Lake.take, Lake.setTake, Tab.get_set_same]
  · exact (passed.mem.trans (a.rangeStep_mem n _ _ _ _)).trans waited.mem
  · exact (passed.cues.trans (congrArg State.cues stepped)).trans waited.cues
  · exact (e.putTake_slate n t { x with state := .free } r).trans ((passed.slate r).trans ((a.commitRange_slate n x.f r).trans
      (congrFun (State.takeLeaves_congr waited.slate n x.f .full x.f.consume) r)))

/-! ### The oldest step that waits (R222) -/

/-- The steps that wait for an entry of a lake's range table replaced. -/
def State.setStepWait (s : State) (n : Nat) (rest : List StepWait) : State := s.modLake n fun l => { l with stepWait := rest }

section
variable (s : State) (n : Nat) (rest : List StepWait)

theorem State.setStepWait_lake_same : (s.setStepWait n rest).lake n = { s.lake n with stepWait := rest } := State.modLake_lake_same _ _ _

theorem State.setStepWait_lake (k : Nat) :
    (s.setStepWait n rest).lake k = { s.lake k with stepWait := ((s.setStepWait n rest).lake k).stepWait } := by
  by_cases own : k = n
  · rw [own, State.setStepWait_lake_same]
  · rw [show (s.setStepWait n rest).lake k = s.lake k from State.modLake_lake_other _ _ _ _ own]

theorem State.setStepWait_slate (r : Nat) : (s.setStepWait n rest).slate r = s.slate r := by
  rw [State.slate, State.setStepWait_lake]
  rfl

theorem State.setStepWait_tableFull (k : Nat) : (s.setStepWait n rest).tableFull k = s.tableFull k := by
  rw [State.tableFull, State.setStepWait_lake]
  rfl

theorem State.setStepWait_modeOf (k : Nat) (op : Op) (q : Req) (v : View) : modeOf (s.setStepWait n rest) k op q v = modeOf s k op q v := by
  unfold modeOf
  rw [State.setStepWait_lake]
  rfl

theorem State.setStepWait_commitWaits (k t : Nat) : commitWaits (s.setStepWait n rest) k t = commitWaits s k t := by
  simp only [commitWaits, State.takePending, State.setStepWait_modeOf]
  rw [State.setStepWait_lake]
  rfl

theorem State.setStepWait_abortReady : abortReady (s.setStepWait n rest) = abortReady s := by
  have waits (k q : Nat) : (s.setStepWait n rest).landWaits k q = s.landWaits k q := by
    rw [State.landWaits, State.setStepWait_lake]
    rfl
  have quiet (k : Nat) : (s.setStepWait n rest).quiet k = s.quiet k := funext fun d => by
    rw [State.quiet, waits]
    rfl
  simp only [abortReady, quiet]
  rfl

end

section
variable {s : State} {n : Fin 24} {w : StepWait} {rest : List StepWait}

/-- What a lake does with a step that waited, once it is taken from those that wait (R222). -/
def State.takeStepOf (s : State) (n : Nat) : StepWait → State
  | .take t => s.takeStep n t
  | .complete q => s.completeStep n q
  | .cut => s.cutEnd n
  | .abort => if s.tm.abBusy && abortReady s then s.abortEnd.takeUp else s

theorem exec_rangeStepEnter (free : s.tableFull n = false) (oldest : (s.lake n).stepWait = w :: rest) :
    exec (.rangeStepEnter n) s = .next ((s.setStepWait n rest).takeStepOf n w) := by
  change Host.Outcome.next (s.takeWaiting n) = _
  rw [State.takeWaiting, oldest]
  dsimp only
  rw [if_neg (by simp [free])]
  cases w <;> rfl

theorem State.takeStep_commits {t : Nat} (free : s.tableFull n = false) (committing : ((s.lake n).take t).state = .committing)
    (ready : commitWaits s n t = false) : s.takeStep n t = s.commitStep n t := by
  rw [State.takeStep, committing, ready, if_neg (by simp), free, if_neg Bool.false_ne_true, if_pos rfl]

/-- A take's commit step that waited for an entry is taken (R222, R238). -/
theorem exec_rangeStepEnter_commits {i : Fin 16} (canonical : s.canonical = true) (free : s.tableFull n = false)
    (oldest : (s.lake n).stepWait = .take i :: rest) (committing : ((s.lake n).take i).state = .committing) (ready : commitWaits s n i = false)
    (silent : ((s.lake n).take i).f.sig = false) :
    ∃ t, exec (.rangeStepEnter n) s = .next t ∧ (t.lake n).stepWait = rest ∧ ((t.lake n).take i).state = .free ∧ t.mem = s.mem ∧
      t.cues = s.cues ∧ ∀ r, t.slate r = s.takeLeaves n ((s.lake n).take i).f .full ((s.lake n).take i).f.consume r := by
  let u := s.setStepWait n rest
  have position : (u.lake n).take i = (s.lake n).take i := by rw [s.setStepWait_lake_same n rest]; rfl
  have canonical' : u.canonical = true := (State.modLake_steady (Steady.refl s) _ _).tables canonical
  obtain ⟨waits, freed, mem, cues, slates⟩ := State.commitStep_leaves canonical' position silent
  have taken : u.takeStep n i = u.commitStep n i := State.takeStep_commits ((s.setStepWait_tableFull n rest n).trans free)
    (position ▸ committing) ((s.setStepWait_commitWaits n rest n i).trans ready)
  refine ⟨u.commitStep n i, ?_, ?_, freed, mem, cues, fun r => ?_⟩
  · rw [exec_rangeStepEnter free oldest]
    exact congrArg _ taken
  · rw [waits, s.setStepWait_lake_same n rest]
  · rw [slates, State.takeLeaves_congr (s.setStepWait_slate n rest)]

end

/-! ### Sweeps (R222) -/

/-- A sweep rewrites the tag bits of one row to the slate that the table gives it. -/
theorem exec_tagSweep {s : State} {row : Nat} {sl : Slate} (due : stepSlate (s.lake (lakeOf row)).steps row = some sl)
    (draining : s.draining = false) (on : (s.lp (lakeOf row)).state = .on) :
    ∃ t, exec (.tagSweep row) s = .next t ∧ (t.tag row).slate = sl ∧ stepSlate (t.lake (lakeOf row)).steps row = none ∧
      (∀ r, t.slate r = s.slate r) ∧ t = { s with rows := t.rows, lakes := t.lakes, cnt := t.cnt } := by
  let u := (s.countLake (lakeOf row) 0x2E).pondCycle row
  have slate (r : Nat) : u.slate r = s.slate r := (State.pondCycle_slate _ row [] none r).trans (s.count_slate _ r)
  obtain ⟨cnt, counted⟩ := s.count_frame { set := .lake, inst := lakeOf row, ev := 0x2E }
  obtain ⟨cnt', cycled⟩ := (s.countLake (lakeOf row) 0x2E).pondCycle_frame row [] none
  have frame : u = ({ s with cnt := cnt' }).modLake (lakeOf row) fun l => { l with idleFrom := s.pw.now } :=
    cycled.trans (by rw [State.countLake, counted])
  obtain ⟨rows, lakes, settled⟩ := u.settle_frame row
  refine ⟨u.settle row, ?_, ?_, ?_, fun r => (u.settle_slate row r).trans (slate r), ?_⟩
  · change execTagSweep row s = _
    dsimp only [execTagSweep]
    rw [due]
    dsimp only
    rw [if_neg (by simp [draining]), if_neg (by simp [on]), if_neg (by simp [on, LkState.down])]
  · rw [u.settle_tag_slate, if_pos rfl, slate, State.slate, due]
    rfl
  · rw [u.settle_stepSlate, if_pos rfl]
  · rw [settled, frame]
    rfl

/-- Settles O27: a step that waited is taken as it would have been, and a sweep writes what the range table already says. -/
theorem rangeTableWorks : Obligations.RangeTableWorks := by
  unfold Obligations.RangeTableWorks
  refine ⟨?_, fun s n w rest free oldest => ⟨?_, ?_, ?_, ?_⟩, fun s row sl due draining on => exec_tagSweep due draining on⟩
  · intro s n i rest canonical free oldest x committing ready silent
    exact exec_rangeStepEnter_commits canonical free oldest committing ready silent
  · rintro i rfl
    exact exec_rangeStepEnter free oldest
  · rintro q rfl
    exact exec_rangeStepEnter free oldest
  · rintro rfl
    exact exec_rangeStepEnter free oldest
  · rintro rfl busy ready
    refine (exec_rangeStepEnter free oldest).trans (congrArg _ (if_pos ?_))
    rw [s.setStepWait_abortReady, ready, Bool.and_true]
    exact busy

end Sys2Proof.Machine
end

section
/-!
PROOF. Requests of the Springs: the pieces of a transfer are numbered in order and lie in one row each (R179, R182), and a read on shore S of a clean
row finds what the row holds, and changes nothing that a later read finds (R48, R170, R182).
-/
namespace Sys2Proof.Machine

-- One theorem after another: elaborated side by side, these theorems would each hold a thread and its stack.
set_option Elab.async false

/-! ### Pieces (R179, R182) -/

theorem cutRun_inRow (wide : Bool) (fuel own : Nat) (other : BitVec 64) (words : Nat) :
    ∀ e ∈ cutRun wide fuel own other words, e.1 % 8 + e.2.1 ≤ 8 := by
  induction fuel generalizing own other words with
  | zero => exact fun _ he => absurd he List.not_mem_nil
  | succ fuel ih =>
    intro e he
    rw [cutRun] at he
    split at he
    · exact absurd he List.not_mem_nil
    · obtain rfl | later := List.mem_cons.1 he
      · dsimp only
        omega
      · exact ih _ _ _ e later

theorem numbered_places (k : Nat) (l : List (Nat × Nat × BitVec 64 × Nat)) :
    (numbered k l).map (fun p => (p.own, p.n, p.other, p.nOther)) = l := by
  induction l generalizing k with
  | nil => rfl
  | cons e l ih => rw [numbered, List.map_cons, ih]

theorem numbered_numbers (k : Nat) (l : List (Nat × Nat × BitVec 64 × Nat)) : (numbered k l).map (·.i) = List.range' k l.length := by
  induction l generalizing k with
  | nil => rfl
  | cons e l ih => rw [numbered, List.map_cons, ih, List.length_cons, List.range'_succ]

theorem piecesOf_eq (w : List (BitVec 64)) : ∃ runs, piecesOf w = numbered 0 runs ∧ ∀ e ∈ runs, e.1 % 8 + e.2.1 ≤ 8 := by
  unfold piecesOf
  extract_lets k wide runs
  split
  · refine ⟨runs.flatten, rfl, fun e he => ?_⟩
    obtain ⟨run, hrun, he⟩ := List.mem_flatten.1 he
    obtain ⟨b, -, rfl⟩ := List.mem_map.1 hrun
    exact cutRun_inRow _ _ _ _ _ e he
  · exact ⟨[], rfl, fun _ he => absurd he List.not_mem_nil⟩

/-- A piece lies in one row of the own lake (R182). -/
theorem piecesOf_inRow {w : List (BitVec 64)} {p : Piece} (h : p ∈ piecesOf w) : p.own % 8 + p.n ≤ 8 := by
  obtain ⟨runs, pieces, inRow⟩ := piecesOf_eq w
  rw [pieces] at h
  exact inRow (p.own, p.n, p.other, p.nOther) (by simpa [numbered_places] using List.mem_map_of_mem (f := fun p => (p.own, p.n, p.other, p.nOther)) h)

theorem piecesOf_numbers (w : List (BitVec 64)) : (piecesOf w).map (·.i) = List.range (piecesOf w).length := by
  obtain ⟨runs, pieces, -⟩ := piecesOf_eq w
  have count : (numbered 0 runs).length = runs.length := by simpa using congrArg List.length (numbered_places 0 runs)
  rw [pieces, numbered_numbers, count, List.range_eq_range']

/-- The number of a piece is how many come before it. -/
theorem piecesOf_number {w : List (BitVec 64)} {l : List Piece} {p : Piece} {rest : List Piece} (h : piecesOf w = l ++ p :: rest) :
    p.i = l.length := by
  have numbers := piecesOf_numbers w
  rw [h] at numbers
  have here := congrArg (·[l.length]?) numbers
  simpa using here

/-! ### One row request (R42, R49) -/

theorem placeRows_one (solo : Bool) {rows : List Nat} (one : rows.length ≤ 1) : (placeRows solo [] rows).2.1 = 0 := by
  obtain _ | ⟨r, _ | ⟨r', rows⟩⟩ := rows
  · rfl
  · simp [placeRows]
  · exact absurd one (by simp)

/-- A row request alone in its PS cycle stalls no other (R42, R50). -/
theorem State.place_one (s : State) (w : Who) (n : Nat) {op : Op} (many : opSolo op = false) (m : Mode) (r : RowReq) :
    ∃ pl ps, s.place w n op m false [r] = (pl, { s with group := [], ps := ps }) := by
  unfold State.place
  extract_lets s1 key lanes used0 used beats solo chunk stalls longest all s2 counted s3
  have used_zero : used = 0 := if_neg (ne_true_of_eq_false many)
  have beats_zero : beats = 0 := by
    dsimp only [beats]
    rw [used_zero]
    exact Nat.zero_div _
  have one (c : Nat) : (chunk c).length ≤ 1 := by
    dsimp only [chunk]
    rw [List.length_map]
    exact List.length_filter_le _ _
  have unstalled : all = 0 := by
    dsimp only [all, stalls]
    rw [beats_zero]
    simpa [show s1.ps.rows = [] from rfl] using placeRows_one solo (one 0)
  exact ⟨_, s2.ps, Prod.ext rfl (if_pos unstalled)⟩

/-- From `s` to `t` requests on shore S have read rows: memory, slates and whether a row is clean are as they were. -/
structure ShoreRead (s t : State) : Prop where
  frame : ∃ rows lakes weir cnt group ps inPond, t = { s with
    rows := rows, lakes := lakes, weir := weir, cnt := cnt, group := group, ps := ps, inPond := inPond }
  slate : ∀ r, t.slate r = s.slate r
  clean : ∀ r, t.clean r = s.clean r
  labels : t.weir.labelMap = s.weir.labelMap

theorem ShoreRead.refl (s : State) : ShoreRead s s :=
  ⟨⟨s.rows, s.lakes, s.weir, s.cnt, s.group, s.ps, s.inPond, rfl⟩, fun _ => rfl, fun _ => rfl, rfl⟩

theorem ShoreRead.count {s t : State} (h : ShoreRead s t) (o : Occ) : ShoreRead s (t.count o) := by
  obtain ⟨cnt, counted⟩ := t.count_frame o
  rw [counted]
  refine ⟨?_, h.slate, h.clean, h.labels⟩
  obtain ⟨rows, lakes, weir, -, group, ps, inPond, rfl⟩ := h.frame
  exact ⟨rows, lakes, weir, cnt, group, ps, inPond, rfl⟩

theorem ShoreRead.same {s t : State} (h : ShoreRead s t) : t.mem = s.mem ∧ t.springs = s.springs ∧ t.variant = s.variant ∧ t.tm = s.tm ∧
    t.lpow = s.lpow := by
  obtain ⟨rows, lakes, weir, cnt, group, ps, inPond, rfl⟩ := h.frame
  exact ⟨rfl, rfl, rfl, rfl, rfl⟩

section
variable (s : State) (n : Nat) (d : Desc) (p : Piece)

theorem pieceRow_inRow {p : Piece} (inRow : p.own % 8 + p.n ≤ 8) (data : List Word) : ∀ i ∈ (pieceRow p data).places, i < 8 := by
  intro i hi
  obtain ⟨j, hj, rfl⟩ := List.mem_map.1 hi
  have := List.mem_range.1 hj
  omega

theorem pieceRow_found (data : List Word) : (pieceRow p data).found s.mem = s.pieceWords p := by
  rw [RowReq.found, pieceRow, List.map_map, State.pieceWords]
  refine List.map_congr_left fun j _ => congrArg (readWord s.mem) ?_
  dsimp only [Function.comp]
  omega

variable {p}

/-- What a response changes of the weir leaves the labels' map as it is (R102, R114). -/
theorem State.deadlines_labels (s : State) (w : Who) (op : Op) (lake : Bool) (dst : Option Nat) (valid : Nat) :
    ∃ weir, s.deadlines w op lake dst valid = { s with weir := weir } ∧ weir.labelMap = s.weir.labelMap := by
  have late : ∃ weir, (if w.dl < valid - w.issued then s.lateOne (s.classOf w.label) w.label w.pos else s) = { s with weir := weir } ∧
      weir.labelMap = s.weir.labelMap := by
    split
    · exact ⟨_, rfl, rfl⟩
    · exact ⟨s.weir, rfl, rfl⟩
  obtain ⟨weir, judged, labels⟩ := late
  rw [State.deadlines]
  dsimp only
  rw [judged]
  split
  · exact ⟨s.weir, rfl, rfl⟩
  · split
    · exact ⟨_, rfl, labels⟩
    · exact ⟨weir, rfl, labels⟩

theorem State.moved_labels (s : State) (w : Who) (m k : Nat) : (s.moved w m k).weir.labelMap = s.weir.labelMap := by
  obtain ⟨cnt, counted⟩ := s.count_frame { set := .lake, inst := m, ev := 0x06, quals := w.quals, label := some w.label, n := k }
  rw [State.moved, State.countLake, counted]
  split <;> rfl

theorem readRow_labels {r : RowReq} (w : Who) (clean : s.clean r.row = true) :
    (readRow s w none r).2.weir.labelMap = s.weir.labelMap := by
  obtain ⟨mark, corr, bad⟩ := (s.clean_iff r.row).1 clean
  obtain ⟨rows, lakes, cnt, spent⟩ := s.spend_frame w r.row
  have found : (s.spend w r.row none).checkRow (some w) r.row 0 { s.tag r.row with mark := s.marked r.row } none = s.spend w r.row none :=
    State.checkRow_clean _ _ corr bad ((s.spend_bad r.row w none r.row).trans bad)
  rw [mark] at found
  simp only [readRow, State.before, mark, found, Bool.false_eq_true, if_false]
  obtain ⟨cnt', counted⟩ := ((s.spend w r.row none).joinGroup none r.row (shoreRank w r.row) (s.rowWords r.row)
    { s.tag r.row with mark := false } [] [] true).count_frame
      { set := .lake, inst := lakeOf r.row, ev := 0x05, quals := w.quals, label := some w.label }
  rw [State.moved_labels, State.countLake, counted]
  exact congrArg (·.weir.labelMap) spent

/-- A row request on shore S, by its place and its pond cycle. -/
theorem State.shoreS_eq {w : Who} {op : Op} {m : Mode} {data : List Word} {pl : Placing} {u v : State} {o : RowOut}
    (placed : (s.countSpring n 0x49 1 (some d.slot.label) d.quals).place w n op m false [pieceRow p data] = (pl, u))
    (access : rowAccess u w op false m (pieceRow p data) = (o, v)) :
    ∃ inPond weir, s.shoreS n d w op m p data = (o, { v with inPond := inPond, weir := weir }) ∧ weir.labelMap = v.weir.labelMap := by
  rw [State.shoreS, placed]
  dsimp only
  rw [access]
  dsimp only
  generalize v.pw.now + opLatency op (v.lake n).wMode (p.own % 8) p.n 16 + pl.late = valid
  obtain ⟨weir, judged, labels⟩ := (v.inPonds w n valid).deadlines_labels w op true none valid
  split
  · exact ⟨(v.inPonds w n valid).inPond, weir, congrArg (Prod.mk o) judged, labels⟩
  · exact ⟨(v.inPonds w n valid).inPond, v.weir, rfl, rfl⟩

/-- A plain read on shore S of a piece whose row is clean (R170, R182). -/
theorem State.shoreS_read (w : Who) (clean : s.clean (p.own / 8) = true) (inRow : p.own % 8 + p.n ≤ 8) :
    ∃ t, s.shoreS n d w .read .plain p [] = (.done ⟨.ok, s.pieceWords p⟩, t) ∧ ShoreRead s t := by
  obtain ⟨cnt, counted⟩ := s.count_frame { set := .spring, inst := n, ev := 0x49, quals := d.quals, label := some d.slot.label }
  obtain ⟨pl, ps, placed⟩ := ({ s with cnt := cnt }).place_one w n (op := .read) rfl .plain (pieceRow p [])
  let u : State := { s with cnt := cnt, group := [], ps := ps }
  obtain ⟨answer, read⟩ := readRow_rowsRead (s := u) (r := pieceRow p []) w clean (pieceRow_inRow inRow [])
  have access : rowAccess u w .read false .plain (pieceRow p []) = (.done ⟨.ok, s.pieceWords p⟩, (readRow u w none (pieceRow p [])).2) :=
    Prod.ext (congrArg RowOut.done (answer.trans (by rw [pieceRow_found]; rfl))) rfl
  obtain ⟨inPond, weir, ran, labels⟩ := s.shoreS_eq n d (by rw [State.countSpring, counted, placed]) access
  have labels' := readRow_labels (s := u) (r := pieceRow p []) w clean
  generalize (readRow u w none (pieceRow p [])).2 = v at read ran labels labels'
  refine ⟨_, ran, ?_, fun r => read.slate r, fun r => read.errors r, labels.trans labels'⟩
  have same := read.mem
  obtain ⟨mem, rows, lakes, weir', cnt', group, rfl⟩ := read.frame
  cases same
  exact ⟨rows, lakes, weir, cnt', group, ps, inPond, rfl⟩

/-- A read of a Spring's own clean row, which is up, finds its words (R170, R182). -/
theorem State.springRead_clean (up : (s.lp n).state.down = false) (clean : s.clean (p.own / 8) = true) (inRow : p.own % 8 + p.n ≤ 8) :
    ∃ t, s.springRead n d p = (⟨.ok, s.pieceWords p⟩, t) ∧ ShoreRead s t := by
  obtain ⟨t, read, kept⟩ := s.shoreS_read n d (springWho s n d true) clean inRow
  exact ⟨t, by rw [State.springRead, if_neg (ne_true_of_eq_false up), read]; rfl, kept⟩

end

end Sys2Proof.Machine
end

section
/-!
PROOF. A Spring's reel and its command slots (O17): a bind takes an idle Spring to the head of a reel, a slot that is read leaves four
descriptors, and one whose descriptors have ended is released (R171 to R176).
-/
namespace Sys2Proof.Machine

-- One theorem after another: elaborated side by side, these theorems would each hold a thread and its stack.
set_option Elab.async false

/-! ### `SPR_REEL` (R171) -/

section
variable {s : State} {src : Src} {n : Fin 24}

theorem ofNat_64_setWidth {a : Nat} (h : a < 2 ^ 32) : BitVec.ofNat 64 a = (BitVec.ofNat 32 a).setWidth 64 := by
  apply BitVec.eq_of_toNat_eq
  rw [BitVec.toNat_setWidth, BitVec.toNat_ofNat, BitVec.toNat_ofNat]
  omega

/-- A write of `SPR_REEL` of a value of 32 bits. -/
theorem ctlCommand_sprReel (open_ : s.opens src (pageOff n 0x4000) 4 = true) {a : Nat} (h : a < 2 ^ 32) :
    ctlCommand src (pageOff n 0x4000) 4 (BitVec.ofNat 64 a) s = .next (sprReelSet (s.ctl src (pageOff n 0x4000)) n (BitVec.ofNat 64 a) s) := by
  rw [ofNat_64_setWidth h]
  exact ctlCommand_4 open_ (regHere_page n.2 (by decide)) _

/-- The value that binds a reel names it, with `BOUND` 1. -/
theorem bindValue_fields : ∀ e : Fin 64, bits (BitVec.ofNat 64 (e + 0x100)) 0 6 = e ∧ bit (BitVec.ofNat 64 (e + 0x100)) 8 = true := by decide

/-- The value that unbinds a reel names it, with `BOUND` 0. -/
theorem unbindValue_fields : ∀ e : BitVec 6, bits (BitVec.ofNat 64 e.toNat) 0 6 = e.toNat ∧ bit (BitVec.ofNat 64 e.toNat) 8 = false := by decide

/-- A bind over rows of which none is FULL takes no slot over (R171). -/
theorem State.bindSlots_none (w : Who) (m : Nat) (bare : ∀ i, s.slate (slotRow (s.reel (s.spring m).reel.toNat) i) ≠ .full) :
    s.bindSlots m w = s := by
  rw [State.bindSlots]
  generalize List.range _ = l
  induction l with
  | nil => rfl
  | cons i l ih => rw [List.foldl_cons, if_neg (bare _), ih]

/-- What a bind leaves of a Spring, which stands at the reel's head (R171). -/
def Spring.bind (x : Spring) (e : Nat) (r : Reel) : Spring :=
  { x with reel := BitVec.ofNat 6 e, bound := true, depth := if x.depthFix then x.depthMax.toNat else 2, run256 := 0
           nextRead := r.head.toNat, slots := [], descs := [] }

/-- What rejects a bind of an unbound Spring, in the order of the conditions (R171). -/
def State.bindFails (s : State) (n e : Nat) : List Bool :=
  let r := s.reel e
  [!s.springIdle n, !(r.enable && r.slated),
   !(Decidable.decide (gRow n 0 ≤ r.base.toNat) && Decidable.decide (r.base.toNat + 2 ^ r.size.toNat ≤ gRow n 0 + Config.rowsPerLake)), r.consumer.toNat != 0x50 + n,
   (List.range Config.lakes).any fun m => m != n && (s.spring m).bound && (s.spring m).reel.toNat = e]

section
variable (open_ : s.opens src (pageOff n 0x4000) 4 = true) (master : s.mastersLake src n = true) {e : Fin 64}
include open_ master

theorem sprReelBind_same (bound : (s.spring n).bound = true) (same : (s.spring n).reel.toNat = e) :
    exec (.sprReelBind src n e) s = .next (s.reply src .ok) := by
  have owns : s.owns (s.ctl src (pageOff n 0x4000)).w n = true := master
  obtain ⟨reel, bind⟩ := bindValue_fields e
  refine (ctlCommand_sprReel open_ (by omega)).trans (congrArg _ ?_)
  rw [sprReelSet, State.ownerOnly, if_pos owns]
  dsimp only
  rw [reel, bind, if_pos (by simp [same, bound])]
  rfl

/-- What a bind of an unbound Spring comes to, but for the conditions it is judged by (R171). -/
theorem sprReelBind_judged (unbound : (s.spring n).bound = false) : exec (.sprReelBind src n e) s =
    .next (s.unless (s.ctl src (pageOff n 0x4000)) (s.bindFails n e) fun t =>
      ((t.modSpring n (·.bind e (s.reel e))).bindSlots n (whoOf s src.port)).reply src .ok) := by
  have owns : s.owns (s.ctl src (pageOff n 0x4000)).w n = true := master
  obtain ⟨reel, bind⟩ := bindValue_fields e
  refine (ctlCommand_sprReel open_ (by omega)).trans (congrArg _ ?_)
  rw [sprReelSet, State.ownerOnly, if_pos owns]
  dsimp only
  rw [reel, bind, if_neg (by simp [unbound]), if_pos (by simp [unbound])]
  rfl

theorem sprReelBind_busy (unbound : (s.spring n).bound = false) (busy : s.springIdle n = false) :
    exec (.sprReelBind src n e) s = .next (s.rejected src (pageOff n 0x4000) 1) := by
  rw [sprReelBind_judged open_ master unbound, State.unless_rejected (k := 0) (by rw [State.bindFails, busy]; rfl)]

/-- An idle Spring is bound at the head of a reel that fits it and holds no FULL row (R171). -/
theorem sprReelBind_binds (unbound : (s.spring n).bound = false) (idle : s.springIdle n = true) (enabled : (s.reel e).enable = true)
    (slated : (s.reel e).slated = true) (consumer : (s.reel e).consumer.toNat = 0x50 + n) (free : reelBound s e = false)
    (above : gRow n 0 ≤ (s.reel e).base.toNat) (below : (s.reel e).base.toNat + 2 ^ (s.reel e).size.toNat ≤ gRow n 0 + 49152)
    (bare : ∀ i, s.slate (slotRow (s.reel e) i) ≠ .full) :
    exec (.sprReelBind src n e) s = .next ((s.modSpring n (·.bind e (s.reel e))).reply src .ok) := by
  have alone : ((List.range Config.lakes).any fun m => m != n && (s.spring m).bound && (s.spring m).reel.toNat = e) = false := by
    rw [List.any_eq_false]
    intro m hm
    have apart := List.any_eq_false.1 free m hm
    simp only [Bool.and_eq_true, not_and] at apart ⊢
    exact fun k => apart k.2
  have passes : firstOf (s.bindFails n e) = 0 := by
    rw [firstOf_eq_zero, State.bindFails]
    simp [idle, enabled, slated, consumer, above, below, alone, Config.rowsPerLake]
  have named : (((s.modSpring n (·.bind e (s.reel e))).spring n).reel).toNat = e := by
    rw [State.modSpring_spring_same, Spring.bind, BitVec.toNat_ofNat]
    exact Nat.mod_eq_of_lt e.2
  rw [sprReelBind_judged open_ master unbound, State.unless_pass passes, State.bindSlots_none]
  rw [named]
  exact bare

variable (bound : (s.spring n).bound = true)
include bound

/-- What an unbind of a Spring comes to, but for the condition it is judged by (R171). -/
theorem sprReelUnbind_judged : exec (.sprReelUnbind src n) s =
    .next (s.unless (s.ctl src (pageOff n 0x4000)) [!s.springIdle n] fun t =>
      (t.modSpring n fun x => { x with reel := BitVec.ofNat 6 (s.spring n).reel.toNat, bound := false, slots := [], descs := [] }).reply src .ok) := by
  have owns : s.owns (s.ctl src (pageOff n 0x4000)).w n = true := master
  obtain ⟨reel, bind⟩ := unbindValue_fields (s.spring n).reel
  refine (ctlCommand_sprReel open_ (by omega)).trans (congrArg _ ?_)
  rw [sprReelSet, State.ownerOnly, if_pos owns]
  dsimp only
  rw [reel, bind, if_neg (by simp [bound]), if_neg (by simp), if_pos (by simp [bound])]
  rfl

theorem sprReelUnbind_busy (busy : s.springIdle n = false) :
    exec (.sprReelUnbind src n) s = .next (s.rejected src (pageOff n 0x4000) 1) := by
  rw [sprReelUnbind_judged open_ master bound, State.unless_rejected (k := 0) (by rw [busy]; rfl)]

theorem sprReelUnbind_unbinds (idle : s.springIdle n = true) : exec (.sprReelUnbind src n) s =
    .next ((s.modSpring n fun x => { x with bound := false, slots := [], descs := [] }).reply src .ok) := by
  have named : (s.modSpring n fun x => { x with reel := BitVec.ofNat 6 (s.spring n).reel.toNat, bound := false, slots := [], descs := [] }) =
      s.modSpring n fun x => { x with bound := false, slots := [], descs := [] } := by
    rw [State.modSpring, State.modSpring, BitVec.ofNat_toNat, BitVec.setWidth_eq]
  rw [sprReelUnbind_judged open_ master bound, State.unless_pass (by rw [idle]; rfl), named]

end

end

/-! ### Slots that are read (R173, R174, R180) -/

/-- The check of a descriptor depends on the part and on the die's place alone (R180). -/
theorem descCheck_congr {s t : State} (variant : t.variant = s.variant) (tm : t.tm = s.tm) (n : Nat) (slot : Slot) (w : List (BitVec 64)) :
    descCheck t n slot w = descCheck s n slot w := by
  have place : placeFault t n slot = placeFault s n slot := by
    funext p rd wr a len
    unfold placeFault
    rw [variant, tm]
  have series : seriesFault t n slot = seriesFault s n slot := by
    funext p rd wr base stride count len st
    rw [seriesFault, seriesFault, place]
  unfold descCheck
  rw [series]

theorem checkDescs_sound {s : State} {n : Nat} {ds : List Desc} (sound : ∀ d ∈ ds, d.cut = true ∨ descCheck s n d.slot d.w = none) :
    ds.foldl (State.checkDesc n) s = s := by
  induction ds with
  | nil => rfl
  | cons d ds ih =>
    have unchanged : State.checkDesc n s d = s := by
      rw [State.checkDesc]
      obtain cut | passes := sound d List.mem_cons_self
      · exact if_pos cut
      · rw [passes]
        exact ite_self _
    rw [List.foldl_cons, unchanged]
    exact ih fun e he => sound e (List.mem_cons_of_mem d he)

section
variable {s : State} {n : Fin 24} {y : Slot}

/-- A slot that has been read is passed over, and so is the next one's place. -/
def Spring.passSlot (x : Spring) (y : Slot) : Spring :=
  { x with slots := x.slots.map (fun z => if z.pos = y.pos then { z with read := true } else z), nextRead := (y.pos + 1) % 2 ^ 32 }

/-- The next slot, FULL and with a clean row, is read into its descriptors (R173, R174). -/
theorem State.readSlot_reads (up : (s.lp n).state.down = false) (right : y.priv = true ∨ y.pr = (s.lake n).owner)
    (clean : s.clean (slotRow (s.reel (s.spring n).reel.toNat) y.pos) = true)
    (sound : ∀ d ∈ slotDescs { y with read := true } (s.rowWords (slotRow (s.reel (s.spring n).reel.toNat) y.pos)),
      d.cut = true ∨ descCheck s n d.slot d.w = none) :
    ∃ v, ShoreRead s v ∧ s.readSlot n y = (v.modSpring n (·.passSlot y)).modSpring n fun x =>
      { x with descs := x.descs ++ slotDescs { y with read := true } (s.rowWords (slotRow (s.reel (s.spring n).reel.toNat) y.pos)) } := by
  let row := slotRow (s.reel (s.spring n).reel.toNat) y.pos
  have place : 8 * row / 8 = row := Nat.mul_div_cancel_left row (by decide)
  obtain ⟨t, read, kept⟩ := s.springRead_clean n (newDesc (4 * y.pos % 2 ^ 32) [] y false) (p := ⟨0, 8 * row, 8, 0, 8⟩) up
    (by rw [place]; exact clean) (by dsimp only; omega)
  let v := t.countSpring n 0x40 1 (some y.label) [1]
  have counted : ShoreRead s v := kept.count _
  obtain ⟨-, -, variant, tm, -⟩ := counted.same
  refine ⟨v, counted, ?_⟩
  rw [State.readSlot, if_neg (by obtain priv | owner := right <;> simp [*])]
  dsimp only
  rw [read]
  dsimp only
  rw [if_neg (by decide)]
  exact checkDescs_sound fun d hd => (sound d hd).imp_right fun passes => (descCheck_congr variant tm n d.slot d.w).trans passes

theorem exec_slotRead (running : s.running = true) (on : (s.lp n).state = .on) (room : s.tm.abQueue.length < 64)
    (bound : (s.spring n).bound = true)
    (next : (s.spring n).slots.find? (fun z => z.pos = nextPos (s.spring n).slots 32769 (s.spring n).nextRead && !z.read) = some y)
    (full : s.slate (slotRow (s.reel (s.spring n).reel.toNat) y.pos) = .full) :
    exec (.slotRead n) s = .next (s.readSlot n y).takeUp := by
  obtain ⟨deep, draining, ready, -⟩ := s.running_iff.1 running
  have pos : nextPos (s.spring n).slots 32769 (s.spring n).nextRead = y.pos := by
    have found := List.find?_some next
    simp only [Bool.and_eq_true, decide_eq_true_eq] at found
    exact found.1.symm
  change execSlotRead n s = _
  dsimp only [execSlotRead]
  rw [next]
  dsimp only
  rw [pos, if_neg (by simp [bound, full, on, LkState.down, ready, deep, draining]; omega), if_neg (by simp [on])]

end

/-! ### The slot at the head released (R176) -/

section
variable {s : State} {n : Fin 24}

/-- What the release of the slot at a position leaves of a Spring (R176). -/
def Spring.release (x : Spring) (h : Nat) : Spring :=
  { x with slots := x.slots.filter (·.pos != h), descs := x.descs.filter (·.slot.pos != h), nextRead := nextPos x.slots 32769 x.nextRead }

theorem exec_slotRelease (bound : (s.spring n).bound = true) (on : (s.lp n).state = .on) (draining : s.draining = false)
    (read : ((s.spring n).slots.any fun y => y.pos = (s.reel (s.spring n).reel.toNat).head.toNat && y.read) = true)
    (ended : slotEnded (s.spring n) (s.reel (s.spring n).reel.toNat).head.toNat = true)
    (full : s.slate (slotRow (s.reel (s.spring n).reel.toNat) (s.reel (s.spring n).reel.toNat).head.toNat) = .full) :
    ∃ v, (∃ rows lakes cnt, v = { s with rows := rows, lakes := lakes, cnt := cnt }) ∧
      v.slate (slotRow (s.reel (s.spring n).reel.toNat) (s.reel (s.spring n).reel.toNat).head.toNat) = .empty ∧
      (∀ a, a ≠ slotRow (s.reel (s.spring n).reel.toNat) (s.reel (s.spring n).reel.toNat).head.toNat → v.slate a = s.slate a) ∧
      exec (.slotRelease n) s = .next ((v.modReel (s.spring n).reel.toNat fun r => { r with head := r.head + 1 }).modSpring n
        (·.release (s.reel (s.spring n).reel.toNat).head.toNat)) := by
  let x := s.spring n
  let r := s.reel x.reel.toNat
  let row := slotRow r r.head.toNat
  let u := (s.countSpring n 0x49 1 none [1]).pondCycle row [8]
  have slate (a : Nat) : u.slate a = s.slate a := (State.pondCycle_slate _ row [8] none a).trans (s.count_slate _ a)
  have frame : ∃ rows lakes cnt, u.setSlate row .empty = { s with rows := rows, lakes := lakes, cnt := cnt } := by
    obtain ⟨cnt, counted⟩ := s.count_frame { set := .spring, inst := n, ev := 0x49, quals := [1] }
    obtain ⟨cnt', cycled⟩ := (s.countSpring n 0x49 1 none [1]).pondCycle_frame row [8] none
    obtain ⟨rows, lakes, set⟩ := u.setSlate_frame row .empty
    have whole : u = ({ s with cnt := cnt' }).modLake (lakeOf row) fun l => { l with idleFrom := s.pw.now } :=
      cycled.trans (by rw [State.countSpring, counted])
    exact ⟨rows, lakes, cnt', by rw [set, whole]; rfl⟩
  refine ⟨u.setSlate row .empty, frame, State.setSlate_slate row u .empty, fun a other => (u.setSlate_slate_other _ other).trans (slate a), ?_⟩
  change Host.Outcome.next (if s.draining then s else s.releaseSlot n) = _
  rw [if_neg (ne_true_of_eq_false draining), State.releaseSlot]
  dsimp only
  rw [if_neg (by simp [bound, read, ended, on, LkState.down]), if_neg (by simp [on]), if_pos ((slate row).trans full)]
  obtain ⟨rows, lakes, cnt, frame⟩ := frame
  have head : ((u.setSlate row .empty).modReel x.reel.toNat fun r => { r with head := BitVec.ofNat 32 ((s.reel x.reel.toNat).head.toNat + 1) }) =
      (u.setSlate row .empty).modReel x.reel.toNat fun r => { r with head := r.head + 1 } := by
    have same : (u.setSlate row .empty).reel x.reel.toNat = r := by rw [frame]; rfl
    rw [State.modReel, State.modReel, same, BitVec.ofNat_add, BitVec.ofNat_toNat, BitVec.setWidth_eq]
    rfl
  exact congrArg (fun t : State => Host.Outcome.next (t.modSpring n (·.release r.head.toNat))) head

end

/-- Settles O17: a bind and an unbind by their conditions, a slot read into its descriptors, and a slot released. -/
theorem springsBoundAndSlotsRead : Obligations.SpringsBoundAndSlotsRead := by
  unfold Obligations.SpringsBoundAndSlotsRead
  refine ⟨fun s src n open_ master => ⟨fun e => ?_, fun bound => ⟨?_, ?_⟩⟩, ?_, ?_⟩
  · exact ⟨sprReelBind_same open_ master, sprReelBind_binds open_ master, sprReelBind_busy open_ master⟩
  · exact sprReelUnbind_unbinds open_ master bound
  · exact sprReelUnbind_busy open_ master bound
  · intro s n y running on room x row ds bound next full clean right sound
    obtain ⟨v, kept, read⟩ := State.readSlot_reads (by rw [on]; rfl) right clean sound
    obtain ⟨-, springs, -⟩ := kept.same
    obtain ⟨rows, lakes, weir, cnt, group, ps, inPond, frame⟩ := kept.frame
    refine ⟨_, (exec_slotRead running on room bound next full).trans (by rw [read]), ?_, ?_, ?_⟩
    · rw [State.modSpring_spring_same, State.modSpring_spring_same, State.spring, springs]
      rfl
    · rw [State.modSpring_spring_same, State.modSpring_spring_same]
      rfl
    · rw [frame]
      rfl
  · intro s n bound on draining x r h read ended full
    obtain ⟨v, ⟨rows, lakes, cnt, frame⟩, empty, others, released⟩ := exec_slotRelease bound on draining read ended full
    refine ⟨_, released, empty, ?_, ?_, ?_, others, ?_⟩
    · rw [State.modSpring_reel, State.modReel_reel_same, frame]
      rfl
    · rw [State.modSpring_spring_same, frame]
      rfl
    · rw [State.modSpring_spring_same, frame]
      rfl
    · rw [frame]
      rfl

end Sys2Proof.Machine
end

section
/-!
PROOF. Descriptors of a Spring: one that is the only one of its number, what a change of it leaves of the Spring, how one starts (R181), and
what it changes that waits are met (R185, R231).
-/
namespace Sys2Proof.Machine

-- One theorem after another: elaborated side by side, these theorems would each hold a thread and its stack.
set_option Elab.async false

/-! ### A descriptor that alone has its number -/

/-- The descriptor is the only one of its Spring with its number. -/
def State.sole (s : State) (n : Nat) (d : Desc) : Prop := ((s.spring n).descs.filter fun e => e.seq = d.seq) = [d]

section
variable {s t : State} {n : Nat} {d : Desc}

theorem State.sole.desc (h : s.sole n d) : s.desc n d.seq = some d := by
  rw [State.desc, ← List.head?_filter, h]
  rfl

theorem State.sole.eq {e : Desc} (h : s.sole n d) (mem : e ∈ (s.spring n).descs) (seq : e.seq = d.seq) : e = d := by
  have found : e ∈ (s.spring n).descs.filter fun e => e.seq = d.seq := List.mem_filter.2 ⟨mem, by simpa using seq⟩
  rw [h] at found
  exact List.mem_singleton.1 found

theorem State.sole.congr (h : s.sole n d) (same : (t.spring n).descs = (s.spring n).descs) : t.sole n d := by
  rw [State.sole, same]
  exact h

/-- A change of all descriptors that keeps their numbers. -/
theorem State.sole.map {f : Desc → Desc} (h : s.sole n d) (changed : (t.spring n).descs = (s.spring n).descs.map f)
    (seq : ∀ e, (f e).seq = e.seq) : t.sole n (f d) := by
  rw [State.sole, changed, List.filter_map, show ((fun e : Desc => (Decidable.decide (e.seq = (f d).seq) : Bool)) ∘ f) =
    fun e => Decidable.decide (e.seq = d.seq) from funext fun e => by simp [seq], h]
  rfl

theorem State.sole.modSpring {f : Spring → Spring} {m : Nat} (h : s.sole n d) (kept : ∀ x, (f x).descs = x.descs) : (s.modSpring m f).sole n d := by
  refine h.congr ?_
  by_cases own : n = m
  · rw [own, State.modSpring_spring_same, kept]
  · rw [State.modSpring_spring_other _ _ _ _ own]

theorem State.modDesc_descs (s : State) (n q : Nat) (f : Desc → Desc) :
    ((s.modDesc n q f).spring n).descs = (s.spring n).descs.map fun d => if d.seq = q then f d else d := by
  rw [State.modDesc, State.modSpring_spring_same]

theorem State.modDesc_spring_other (s : State) {n m : Nat} (q : Nat) (f : Desc → Desc) (other : m ≠ n) :
    (s.modDesc n q f).spring m = s.spring m := State.modSpring_spring_other _ _ _ _ other

theorem State.sole.modDesc (h : s.sole n d) {f : Desc → Desc} (seq : ∀ e, (f e).seq = e.seq) : (s.modDesc n d.seq f).sole n (f d) := by
  have changed := h.map (s.modDesc_descs n d.seq f) fun e => by split <;> simp [seq]
  rwa [if_pos rfl] at changed

/-- The descriptors before one are as they were when it has changed. -/
theorem State.modDesc_earlier (s : State) (n : Nat) {q : Nat} {f : Desc → Desc} (seq : ∀ e, (f e).seq = e.seq) {e e' : Desc} (he : e.seq = q)
    (he' : e'.seq = q) : ((s.modDesc n q f).spring n).earlier e' = (s.spring n).earlier e := by
  rw [Spring.earlier, Spring.earlier, State.modDesc_descs, he, he']
  induction (s.spring n).descs with
  | nil => rfl
  | cons a l ih =>
    by_cases own : a.seq = q
    · simp [own, seq]
    · simp [own, ih]

end

/-! ### Start (R181) -/

/-- What a descriptor that begins finds (R181, R210). -/
structure State.Begins (s : State) (n kind : Nat) (d : Desc) : Prop where
  next : startable s n kind = some d
  sole : s.sole n d
  issued : d.issued = false
  asked : d.asked = []
  returned : d.returned = []
  ready : d.ready = []
  written : d.written = []
  landed : d.landed = []
  removed : d.removed = false
  cut : d.cut = false
  met : d.met = false
  waits : trickleWaits (s.spring n) d = false

theorem State.begins_iff {s : State} {n kind : Nat} {d : Desc} : s.begins n kind d = true ↔ s.Begins n kind d := by
  simp only [State.begins, Bool.and_eq_true, decide_eq_true_eq, Bool.not_eq_true']
  constructor
  · rintro ⟨⟨⟨⟨⟨⟨⟨⟨⟨⟨⟨next, sole⟩, issued⟩, asked⟩, returned⟩, ready⟩, written⟩, landed⟩, removed⟩, cut⟩, met⟩, waits⟩
    exact ⟨next, sole, issued, asked, returned, ready, written, landed, removed, cut, met, waits⟩
  · rintro ⟨next, sole, issued, asked, returned, ready, written, landed, removed, cut, met, waits⟩
    exact ⟨⟨⟨⟨⟨⟨⟨⟨⟨⟨⟨next, sole⟩, issued⟩, asked⟩, returned⟩, ready⟩, written⟩, landed⟩, removed⟩, cut⟩, met⟩, waits⟩

/-- The start conditions of a descriptor that starts next (R181, R194, R342). -/
theorem startable_eq_some {s : State} {n kind : Nat} {d : Desc} (h : startable s n kind = some d) :
    dKind d.w = kind ∧ d.failed = false ∧ s.draining = false := by
  rw [startable] at h
  split at h
  · split at h
    · next begun =>
      obtain rfl := Option.some.inj h
      simp only [Bool.and_eq_true, decide_eq_true_eq, Bool.not_eq_true', Machine.starts, startsBut] at begun
      obtain ⟨⟨⟨⟨⟨⟨kind, ⟨⟨⟨⟨⟨⟨⟨failed, -⟩, -⟩, -⟩, -⟩, -⟩, -⟩, -⟩⟩, draining⟩, -⟩, -⟩, -⟩, -⟩ := begun
      exact ⟨kind, failed, draining⟩
    · exact absurd h nofun
  · exact absurd h nofun

/-- A descriptor that has started: in flight, with nothing asked for yet. -/
def Desc.begun (d : Desc) : Desc := { d with stage := .flight }

/-- A descriptor that has asked for what it needs. -/
def Desc.asks (d : Desc) : Desc := { d with issued := true }

/-- The start of a descriptor is counted, and it is in flight (R181). -/
def State.beginDesc (s : State) (n : Nat) (d : Desc) : State :=
  (s.countSpring n 0x42 1 (some d.slot.label) d.quals).modDesc n d.seq Desc.begun

section
variable {s : State} {n k : Nat} {d : Desc} (h : s.Begins n k d)
include h

theorem State.Begins.kind : dKind d.w = k := (startable_eq_some h.next).1

theorem State.Begins.failed : d.failed = false := (startable_eq_some h.next).2.1

theorem State.Begins.draining : s.draining = false := (startable_eq_some h.next).2.2

end

theorem State.beginDesc_counted (s : State) (n : Nat) (d : Desc) :
    ∃ cnt, s.beginDesc n d = ({ s with cnt := cnt }).modDesc n d.seq Desc.begun := by
  obtain ⟨cnt, counted⟩ := s.count_frame { set := .spring, inst := n, ev := 0x42, quals := d.quals, label := some d.slot.label }
  exact ⟨cnt, by rw [State.beginDesc, State.countSpring, counted]⟩

theorem State.beginDesc_frame (s : State) (n : Nat) (d : Desc) :
    ∃ springs cnt, s.beginDesc n d = { s with springs := springs, cnt := cnt } := by
  obtain ⟨cnt, counted⟩ := s.beginDesc_counted n d
  exact ⟨_, cnt, counted⟩

theorem State.beginDesc_spring_other (s : State) {n m : Nat} (d : Desc) (other : m ≠ n) : (s.beginDesc n d).spring m = s.spring m := by
  obtain ⟨cnt, counted⟩ := s.beginDesc_counted n d
  rw [counted, State.modDesc_spring_other _ _ _ other]
  rfl

theorem State.Begins.launched {s : State} {n k : Nat} {d : Desc} (h : s.Begins n k d) : (s.beginDesc n d).sole n d.begun := by
  obtain ⟨cnt, launched⟩ := s.beginDesc_counted n d
  rw [launched]
  exact State.sole.modDesc (State.sole.congr h.sole rfl) fun _ => rfl

/-! ### MARKs that are met (R185) -/

/-- From `s` to `t` some MARKs have been met, and nothing else has changed. -/
structure MarksMet (s t : State) : Prop where
  frame : ∃ springs, t = { s with springs := springs }
  spring : ∀ m, ∃ f : Desc → Desc, t.spring m = { s.spring m with descs := (s.spring m).descs.map f } ∧
    ∀ d, f d = d ∨ dKind d.w = 9 ∧ f d = { d with met := true }

theorem MarksMet.refl (s : State) : MarksMet s s := by
  refine ⟨⟨s.springs, rfl⟩, fun m => ⟨id, ?_, fun _ => .inl rfl⟩⟩
  rw [List.map_id]

theorem MarksMet.trans {a b c : State} (h : MarksMet a b) (k : MarksMet b c) : MarksMet a c := by
  refine ⟨?_, fun m => ?_⟩
  · obtain ⟨springs, rfl⟩ := h.frame
    obtain ⟨springs', rfl⟩ := k.frame
    exact ⟨springs', rfl⟩
  · obtain ⟨f, changed, met⟩ := h.spring m
    obtain ⟨g, changed', met'⟩ := k.spring m
    refine ⟨g ∘ f, by rw [changed', changed, List.map_map], fun d => ?_⟩
    obtain same | ⟨kind, set⟩ := met d
    · rw [Function.comp, same]
      exact met' d
    · obtain same' | ⟨-, set'⟩ := met' (f d)
      · exact .inr ⟨kind, same'.trans set⟩
      · exact .inr ⟨kind, set'.trans (by rw [set])⟩

theorem MarksMet.foldl {α : Type} {f : State → α → State} (hf : ∀ s x, MarksMet s (f s x)) (l : List α) (s : State) :
    MarksMet s (l.foldl f s) := by
  induction l generalizing s with
  | nil => exact .refl s
  | cons x l ih => exact (hf s x).trans (ih _)

/-- MARKs of one Spring are met. -/
theorem State.modSpring_marksMet (s : State) (n : Nat) {p : Desc → Bool} (marks : ∀ d, p d = true → dKind d.w = 9) :
    MarksMet s (s.modSpring n fun x => { x with descs := x.descs.map fun d => if p d then { d with met := true } else d }) := by
  refine ⟨⟨_, rfl⟩, fun m => ?_⟩
  by_cases own : m = n
  · subst own
    refine ⟨_, State.modSpring_spring_same _ _ _, fun d => ?_⟩
    cases h : p d
    · exact .inl rfl
    · exact .inr ⟨marks d h, rfl⟩
  · obtain ⟨f, kept⟩ := (MarksMet.refl s).spring m
    rw [State.modSpring_spring_other _ _ _ _ own]
    exact ⟨f, kept⟩

theorem State.meetMarks_marksMet (s : State) (k : Nat) : MarksMet s (s.meetMarks k) := by
  refine MarksMet.foldl (fun s n => ?_) _ s
  split
  · refine s.modSpring_marksMet n (p := fun d => d.watches k 9 && dN d.w ≤ (s.cue k).count) fun d h => ?_
    simp only [Desc.watches, Bool.and_eq_true, decide_eq_true_eq] at h
    obtain ⟨⟨⟨⟨-, kind⟩, -⟩, -⟩, -⟩ := h
    exact kind
  · exact .refl s

theorem State.meetOrder_marksMet (s : State) (n : Nat) : MarksMet s (s.meetOrder n) := by
  refine s.modSpring_marksMet n (p := fun d => d.stage = .flight && dKind d.w = 9 && dCond d.w = 3 && ((s.spring n).earlier d).all (·.stage = .ended))
    fun d h => ?_
  simp only [Bool.and_eq_true, decide_eq_true_eq] at h
  obtain ⟨⟨⟨-, kind⟩, -⟩, -⟩ := h
  exact kind

section
variable {s t : State} (h : MarksMet s t)
include h

theorem MarksMet.sole {n : Nat} {d : Desc} (sole : s.sole n d) (kind : dKind d.w ≠ 9) : t.sole n d := by
  obtain ⟨f, changed, met⟩ := h.spring n
  have same : f d = d := (met d).resolve_right fun k => kind k.1
  rw [← same]
  refine sole.map (congrArg Spring.descs changed) fun e => ?_
  obtain kept | ⟨-, set⟩ := met e
  · rw [kept]
  · rw [set]

theorem MarksMet.lake (m : Nat) : t.lake m = s.lake m := by
  obtain ⟨springs, rfl⟩ := h.frame
  rfl

theorem MarksMet.cue (k : Nat) : t.cue k = s.cue k := by
  obtain ⟨springs, rfl⟩ := h.frame
  rfl

/-- MARKs that are met hold no cue wait (R231, R234). -/
theorem MarksMet.heldWaits (k : Nat) (none_held : heldWaits s k = []) : heldWaits t k = [] := by
  rw [heldWaits_eq_nil_iff] at none_held ⊢
  obtain ⟨entries, descs⟩ := none_held
  refine ⟨by rw [State.homeOf, h.cue, h.lake]; exact entries, fun m hm => ?_⟩
  obtain ⟨f, changed, met⟩ := h.spring m
  rw [changed, List.filter_eq_nil_iff]
  intro e he
  obtain ⟨d, hd, rfl⟩ := List.mem_map.1 he
  obtain same | ⟨kind, set⟩ := met d
  · rw [same]
    exact List.filter_eq_nil_iff.1 (descs m hm) d hd
  · rw [set]
    simp [Desc.watches]

end

theorem State.cueChanged_eq {s : State} {k : Nat} (none_held : heldWaits s k = []) : s.cueChanged k = s.meetMarks k := by
  rw [State.cueChanged, (s.meetMarks_marksMet k).heldWaits k none_held]
  rfl

/-- A signal of a cue that no one waits on (R230). -/
theorem State.signal_marksMet {s : State} {k : Nat} (none_held : heldWaits s k = []) (a : Nat) :
    MarksMet (s.modCue k (·.signalled a)) (s.signal k a) := by
  have counted : s.signal k a = (s.modCue k (·.signalled a)).cueChanged k := by
    have same : (s.modCue k fun c => { c with
        count := min (c.count + a) 65535, ovf := c.ovf || Decidable.decide ((s.cue k).count + a - 65535 ≠ 0)
        lost := satAdd max32 c.lost ((s.cue k).count + a - 65535) }) = s.modCue k (·.signalled a) := by
      have lost (x y : Nat) : satAdd max32 x y = min max32 (x + y) := by
        rw [satAdd]
        split <;> omega
      have passed : (Decidable.decide ((s.cue k).count + a - 65535 ≠ 0) : Bool) = Decidable.decide (65535 < (s.cue k).count + a) := by
        rw [decide_eq_decide]
        omega
      rw [State.modCue, State.modCue, passed, lost]
      rfl
    rw [← same]
    rfl
  have idle : heldWaits (s.modCue k (·.signalled a)) k = [] := by
    rw [heldWaits_eq_nil_iff] at none_held ⊢
    rw [State.homeOf, State.modCue_cue_same]
    exact none_held
  rw [counted, State.cueChanged_eq idle]
  exact State.meetMarks_marksMet _ k

end Sys2Proof.Machine
end

section
/-!
PROOF. Descriptors on cues and MARKs (O19): what each finds as it starts, and what it leaves of its cue, of the slates and of itself (R184, R185,
R230, R232).
-/
namespace Sys2Proof.Machine

-- One theorem after another: elaborated side by side, these theorems would each hold a thread and its stack.
set_option Elab.async false

/-! ### Waits held on a cue (R231, R234) -/

section
variable {s : State} {n k : Nat}

/-- A change of a descriptor of a Spring makes no other wait on a cue. -/
theorem heldWaits_modDesc {q : Nat} {f : Desc → Desc} (seq : ∀ e, (f e).seq = e.seq) (none_held : heldWaits s k = []) {h : HeldWait}
    (held : h ∈ heldWaits (s.modDesc n q f) k) : ∃ e ∈ (s.spring n).descs, e.seq = q ∧ (f e).watches k 8 = true ∧ h.who = .desc n q := by
  rw [heldWaits_eq_nil_iff] at none_held
  obtain ⟨entries, descs⟩ := none_held
  obtain entry | watch := List.mem_append.1 held
  · exact absurd (entries ▸ entry : h ∈ []) List.not_mem_nil
  · obtain ⟨l, hl, hh⟩ := List.mem_flatten.1 watch
    obtain ⟨m, hm, rfl⟩ := List.mem_map.1 hl
    obtain ⟨e, he, rfl⟩ := List.mem_map.1 hh
    obtain ⟨he, watches⟩ := List.mem_filter.1 he
    have none_watches := List.filter_eq_nil_iff.1 (descs m (List.mem_range.1 hm))
    by_cases own : m = n
    · subst own
      rw [State.modDesc_descs] at he
      obtain ⟨d, hd, rfl⟩ := List.mem_map.1 he
      by_cases named : d.seq = q
      · rw [if_pos named] at watches ⊢
        exact ⟨d, hd, named, watches, by rw [seq, named]⟩
      · rw [if_neg named] at watches
        exact absurd watches (none_watches d hd)
    · rw [s.modDesc_spring_other q f own] at he
      exact absurd watches (none_watches e he)

/-- A descriptor that a change leaves watching no cue. -/
theorem heldWaits_modDesc_nil {d : Desc} {f : Desc → Desc} (seq : ∀ e, (f e).seq = e.seq) (sole : s.sole n d) (quiet : (f d).watches k 8 = false)
    (none_held : heldWaits s k = []) : heldWaits (s.modDesc n d.seq f) k = [] := by
  refine List.eq_nil_iff_forall_not_mem.2 fun h held => ?_
  obtain ⟨e, he, named, watches, -⟩ := heldWaits_modDesc seq none_held held
  rw [sole.eq he named, quiet] at watches
  exact Bool.false_ne_true watches

end

/-! ### SIGNAL_CUE and WAIT_CUE (R184, R185) -/

section
variable {s : State} {n : Fin 24} {d : Desc}

theorem State.Begins.start_signal (h : s.Begins n 7 d) : startDesc 7 n s = (s.beginDesc n d).startSignal n d := by
  rw [startDesc, h.next]
  rfl

theorem State.Begins.start_wait (h : s.Begins n 8 d) : startDesc 8 n s = (s.beginDesc n d).startWait n d := by
  rw [startDesc, h.next]
  rfl

theorem State.Begins.start_mark (h : s.Begins n 9 d) : startDesc 9 n s = (s.beginDesc n d).startMark n d := by
  rw [startDesc, h.next]
  rfl

/-- A descriptor that starts and waits for no cue leaves the waits on a cue as they are. -/
theorem State.Begins.heldWaits {k kind : Nat} (h : s.Begins n kind d) (other : kind ≠ 8) (none_held : heldWaits s k = []) :
    Machine.heldWaits (s.beginDesc n d) k = [] := by
  obtain ⟨cnt, counted⟩ := s.beginDesc_counted n d
  rw [counted]
  exact heldWaits_modDesc_nil (f := Desc.begun) (fun _ => rfl) (h.sole.congr rfl) (by simp [Desc.watches, Desc.begun, h.kind, other]) none_held

/-- A cue from which a met wait has taken its amount (R231). -/
def Cue.taken (a : Nat) (x : Cue) : Cue := { x with count := x.count - a }

/-- A SIGNAL_CUE signals its cue, and is met (R184, R230, R232). -/
theorem exec_signalCue (h : s.Begins n 7 d) (none_held : heldWaits s (dCue d.w) = [])
    (may : s.maySignal d.slot.priv d.slot.pr (dCue d.w) = true) :
    ∃ u : State, exec (.signalCue n) s = .next u.takeUp ∧ u.desc n d.seq = some { d with stage := .flight, met := true } ∧
      u.cue (dCue d.w) = (s.cue (dCue d.w)).signalled (dN d.w) ∧ (∀ j, j ≠ dCue d.w → u.cue j = s.cue j) ∧
      u = { s with springs := u.springs, cues := u.cues, cnt := u.cnt } := by
  have ran : exec (.signalCue n) s = .next (startDesc 7 n s).takeUp := rfl
  obtain ⟨springs, cnt, frame⟩ := s.beginDesc_frame n d
  have sole := h.launched
  have idle := h.heldWaits (by decide) none_held
  have kind := h.kind
  rw [h.start_signal] at ran
  generalize s.beginDesc n d = v at ran sole idle frame
  have cue (j : Nat) : v.cue j = s.cue j := by rw [frame]; rfl
  have may' : v.maySignal d.slot.priv d.slot.pr (dCue d.w) = true := by rw [State.maySignal, cue]; exact may
  have met : (v.met n d.seq).sole n { d with stage := .flight, met := true } := State.sole.modDesc sole fun _ => rfl
  have idle' : heldWaits (v.met n d.seq) (dCue d.w) = [] :=
    heldWaits_modDesc_nil (d := d.begun) (f := fun d => { d with met := true }) (fun _ => rfl) sole (by simp [Desc.watches]) idle
  have marks := State.signal_marksMet idle' (dN d.w)
  rw [State.startSignal, if_pos may'] at ran
  refine ⟨_, ran, State.sole.desc (marks.sole (met.congr rfl) (by simp [kind])), ?_, fun j other => ?_, ?_⟩
  · exact (marks.cue _).trans ((State.modCue_cue_same _ _ _).trans (congrArg (Cue.signalled · (dN d.w)) (cue _)))
  · exact (marks.cue j).trans ((State.modCue_cue_other _ _ _ _ other).trans (cue j))
  · obtain ⟨springs', signalled⟩ := marks.frame
    rw [signalled, frame]
    rfl

/-- The wait is another one than that of a descriptor (R231). -/
def HeldWait.other (n q : Nat) (h : HeldWait) : Bool := match h.who with | .desc m r => !(m = n && r = q) | _ => true

/-- A WAIT_CUE that starts finds no wait older than itself on a cue that no one waits on. -/
theorem State.beginDesc_older (s : State) (n : Nat) (d : Desc) {k : Nat} (none_held : Machine.heldWaits s k = []) :
    (Machine.heldWaits (s.beginDesc n d) k).any (HeldWait.other n d.seq) = false := by
  refine List.any_eq_false.2 fun h held => ?_
  have who : h.who = .desc n d.seq := by
    obtain ⟨cnt, begun⟩ := s.beginDesc_counted n d
    have idle : Machine.heldWaits { s with cnt := cnt } k = [] := none_held
    rw [begun] at held
    obtain ⟨-, -, -, -, who⟩ := heldWaits_modDesc (f := Desc.begun) (fun _ => rfl) idle held
    exact who
  rw [HeldWait.other, who]
  simp

/-- What a WAIT_CUE does that starts on a cue that no one waits on (R185). -/
theorem State.Begins.start_wait_eq (h : s.Begins n 8 d) (none_held : Machine.heldWaits s (dCue d.w) = [])
    (may : s.mayWait d.slot.priv d.slot.pr (dCue d.w) = true) : startDesc 8 n s =
    if dN d.w ≤ (s.cue (dCue d.w)).count then
      ((s.beginDesc n d).modCue (dCue d.w) fun c => { c with count := c.count - dN d.w }).met n d.seq
    else State.modDesc { s.beginDesc n d with nextId := s.nextId + 1 } n d.seq fun d => { d with watch := s.nextId } := by
  have older := s.beginDesc_older n d none_held
  obtain ⟨springs, cnt, frame⟩ := s.beginDesc_frame n d
  rw [h.start_wait]
  generalize s.beginDesc n d = v at older frame
  have cue (j : Nat) : v.cue j = s.cue j := by rw [frame]; rfl
  have id : v.nextId = s.nextId := by rw [frame]
  have may' : v.mayWait d.slot.priv d.slot.pr (dCue d.w) = true := by rw [State.mayWait, cue]; exact may
  have judged : v.startWait n d = if !v.mayWait d.slot.priv d.slot.pr (dCue d.w) then v.descFault n d .nackOwner 0
      else if dN d.w ≤ (v.cue (dCue d.w)).count && !(Machine.heldWaits v (dCue d.w)).any (HeldWait.other n d.seq) then
        (v.modCue (dCue d.w) fun c => { c with count := c.count - dN d.w }).met n d.seq
      else State.modDesc { v with nextId := v.nextId + 1 } n d.seq fun d => { d with watch := v.nextId } := rfl
  rw [judged, may', older, ← cue, ← id]
  simp only [Bool.not_true, Bool.false_eq_true, if_false, Bool.not_false, Bool.and_true, decide_eq_true_eq]

/-- A WAIT_CUE takes its amount from a count that reaches it, and is met (R185). -/
theorem exec_waitCue_takes (h : s.Begins n 8 d) (none_held : heldWaits s (dCue d.w) = [])
    (may : s.mayWait d.slot.priv d.slot.pr (dCue d.w) = true) (reached : dN d.w ≤ (s.cue (dCue d.w)).count) :
    ∃ u : State, exec (.waitCue n) s = .next u.takeUp ∧ u.desc n d.seq = some { d with stage := .flight, met := true } ∧
      u.cue (dCue d.w) = { s.cue (dCue d.w) with count := (s.cue (dCue d.w)).count - dN d.w } ∧
      (∀ j, j ≠ dCue d.w → u.cue j = s.cue j) ∧ u = { s with springs := u.springs, cues := u.cues, cnt := u.cnt } := by
  have ran : exec (.waitCue n) s = .next (startDesc 8 n s).takeUp := rfl
  obtain ⟨springs, cnt, frame⟩ := s.beginDesc_frame n d
  have sole := h.launched
  rw [h.start_wait_eq none_held may, if_pos reached] at ran
  generalize s.beginDesc n d = v at ran sole frame
  have cue (j : Nat) : v.cue j = s.cue j := by rw [frame]; rfl
  refine ⟨_, ran, State.sole.desc (State.sole.modDesc (d := d.begun) (f := fun d => { d with met := true }) (sole.congr rfl) fun _ => rfl), ?_,
    fun j other => ?_, ?_⟩
  · exact (State.modCue_cue_same v _ _).trans (congrArg (Cue.taken (dN d.w)) (cue _))
  · exact (State.modCue_cue_other v _ (Cue.taken (dN d.w)) _ other).trans (cue j)
  · rw [frame]
    rfl

/-- A WAIT_CUE watches a cue whose count does not reach its amount (R185, R231). -/
theorem exec_waitCue_watches (h : s.Begins n 8 d) (none_held : heldWaits s (dCue d.w) = [])
    (may : s.mayWait d.slot.priv d.slot.pr (dCue d.w) = true) (short : (s.cue (dCue d.w)).count < dN d.w) :
    ∃ u : State, exec (.waitCue n) s = .next u.takeUp ∧ u.desc n d.seq = some { d with stage := .flight, watch := s.nextId } ∧
      u = { s with springs := u.springs, cnt := u.cnt, nextId := s.nextId + 1 } := by
  have ran : exec (.waitCue n) s = .next (startDesc 8 n s).takeUp := rfl
  obtain ⟨springs, cnt, frame⟩ := s.beginDesc_frame n d
  have sole := h.launched
  rw [h.start_wait_eq none_held may, if_neg (Nat.not_le.2 short)] at ran
  generalize s.beginDesc n d = v at ran sole frame
  refine ⟨_, ran, State.sole.desc (State.sole.modDesc (d := d.begun) (f := fun d => { d with watch := s.nextId }) (sole.congr rfl) fun _ => rfl), ?_⟩
  rw [frame]
  rfl

end

/-! ### MARK (R185) -/

/-- From `s` to `t` a MARK has been tested: nothing has changed but the Spring, and what the pond cycle of its test changes; every slate is as
it was. -/
structure MarkTested (s t : State) : Prop where
  frame : ∃ springs lakes rows cnt group ps, t = { s with
    springs := springs, lakes := lakes, rows := rows, cnt := cnt, group := group, ps := ps }
  slate : ∀ r, t.slate r = s.slate r

section
variable {s : State} {n : Fin 24} {d : Desc}

/-- A MARK on a cue is met where the count reaches its amount (R185). -/
theorem exec_mark_cue (h : s.Begins n 9 d) (cond : dCond d.w = 0) (may : s.mayWait d.slot.priv d.slot.pr (dCue d.w) = true) :
    ∃ u : State, exec (.mark n) s = .next u.takeUp ∧ MarkTested s u ∧
      u.desc n d.seq = some { d with stage := .flight, met := Decidable.decide (dN d.w ≤ (s.cue (dCue d.w)).count) } := by
  have ran : exec (.mark n) s = .next (startDesc 9 n s).takeUp := rfl
  obtain ⟨springs, cnt, frame⟩ := s.beginDesc_frame n d
  have sole := h.launched
  rw [h.start_mark] at ran
  generalize s.beginDesc n d = v at ran sole frame
  have cue (j : Nat) : v.cue j = s.cue j := by rw [frame]; rfl
  have may' : v.mayWait d.slot.priv d.slot.pr (dCue d.w) = true := by rw [State.mayWait, cue]; exact may
  have slate (r : Nat) : v.slate r = s.slate r := by rw [frame]; rfl
  rw [State.startMark, cond, may'] at ran
  rw [if_neg (by decide), cue] at ran
  by_cases reached : dN d.w ≤ (s.cue (dCue d.w)).count
  · rw [if_pos reached] at ran
    refine ⟨_, ran, ⟨⟨_, _, _, _, _, _, by rw [frame]; rfl⟩, slate⟩, ?_⟩
    rw [decide_eq_true reached]
    exact State.sole.desc (State.sole.modDesc (d := d.begun) (f := fun d => { d with met := true }) sole fun _ => rfl)
  · rw [if_neg reached] at ran
    refine ⟨_, ran, ⟨⟨_, _, _, _, _, _, frame⟩, slate⟩, ?_⟩
    rw [decide_eq_false reached, ← h.met]
    exact sole.desc

/-- A descriptor of a Spring, met where it is a MARK that waits for the descriptors before it, and all of them have ended (R185). -/
def State.ordered (s : State) (n : Nat) (e : Desc) : Desc :=
  if e.stage = .flight && dKind e.w = 9 && dCond e.w = 3 && ((s.spring n).earlier e).all (·.stage = .ended) then { e with met := true } else e

theorem State.startMark_order {v : State} {m : Nat} (cond : dCond d.w = 3) : v.startMark m d = v.meetOrder m := by
  rw [State.startMark, cond]
  rfl

theorem State.startMark_row {v : State} {m : Nat} (cond : dCond d.w = 1 ∨ dCond d.w = 2) : v.startMark m d = v.testMark m d := by
  rw [State.startMark]
  obtain cond | cond := cond <;> rw [cond] <;> rfl

/-- A MARK of order is met where every descriptor before it has ended (R185). -/
theorem exec_mark_order (h : s.Begins n 9 d) (cond : dCond d.w = 3) :
    ∃ u : State, exec (.mark n) s = .next u.takeUp ∧ MarkTested s u ∧
      u.desc n d.seq = some { d with stage := .flight, met := ((s.spring n).earlier d).all (·.stage = .ended) } := by
  have ran : exec (.mark n) s = .next (startDesc 9 n s).takeUp := rfl
  obtain ⟨springs, cnt, frame⟩ := s.beginDesc_frame n d
  have sole := h.launched
  have earlier : ((s.beginDesc n d).spring n).earlier d.begun = (s.spring n).earlier d := by
    obtain ⟨cnt, counted⟩ := s.beginDesc_counted n d
    rw [counted]
    exact State.modDesc_earlier { s with cnt := cnt } n (f := Desc.begun) (fun _ => rfl) rfl rfl
  rw [h.start_mark] at ran
  generalize s.beginDesc n d = v at ran sole frame earlier
  rw [State.startMark_order cond] at ran
  have marks := v.meetOrder_marksMet n
  refine ⟨_, ran, ⟨?_, ?_⟩, ?_⟩
  · obtain ⟨springs', ordered⟩ := marks.frame
    exact ⟨springs', _, _, _, _, _, by rw [ordered, frame]⟩
  · intro r
    obtain ⟨springs', ordered⟩ := marks.frame
    rw [ordered, frame]
    rfl
  · have changed := State.modSpring_spring_same v n fun x => { x with descs := x.descs.map (v.ordered n) }
    have ordered := sole.map (t := v.meetOrder n) (congrArg Spring.descs changed) fun e => by rw [State.ordered]; split <;> rfl
    have kind := h.kind
    have unmet := h.met
    have same : v.ordered n d.begun = { d with stage := .flight, met := ((s.spring n).earlier d).all (·.stage = .ended) } := by
      rw [State.ordered, earlier]
      by_cases all : ((s.spring n).earlier d).all (·.stage = .ended) = true
      · rw [if_pos (by simp [Desc.begun, kind, cond, all]), all]
        rfl
      · rw [if_neg (by simp [all]), Bool.eq_false_iff.2 all, ← unmet]
        rfl
    rw [same] at ordered
    exact ordered.desc

end

/-! ### Tests of a MARK on a row (R185) -/

/-- The row that a MARK tests, and the slate that meets it (R185). -/
def Desc.markRow (d : Desc) : Nat := bits (dDst d.w) 0 44 / 256
def Desc.markSlate (d : Desc) : Slate := if dCond d.w = 1 then .full else .empty

/-- A MARK's test goes to the pond of its row (R185). -/
def State.markPlaced (s : State) (n : Nat) (d : Desc) : State :=
  (((s.countSpring n 0x49 1 (some d.slot.label) d.quals).modDesc n d.seq Desc.asks).place (springWho s n d true) n .read .peek false
    [⟨d.markRow, [], [], false⟩]).2

theorem State.markPlaced_eq (s : State) (n : Nat) (d : Desc) : ∃ cnt ps, s.markPlaced n d =
    { ({ s with cnt := cnt }).modDesc n d.seq Desc.asks with group := [], ps := ps } := by
  obtain ⟨cnt, counted⟩ := s.count_frame { set := .spring, inst := n, ev := 0x49, quals := d.quals, label := some d.slot.label }
  obtain ⟨pl, ps, placed⟩ := (({ s with cnt := cnt }).modDesc n d.seq Desc.asks).place_one (springWho s n d true) n (op := .read) rfl .peek
    ⟨d.markRow, [], [], false⟩
  exact ⟨cnt, ps, by rw [State.markPlaced, State.countSpring, counted, placed]⟩

/-- The pond cycle of a MARK's test, and what the row's check finds (R185, R309). -/
def State.markChecked (s : State) (w : Who) (d : Desc) : State :=
  (s.spend w d.markRow none).checkRow (some w) d.markRow 0 { s.tag d.markRow with mark := s.marked d.markRow } none

section
variable {s : State} {n : Nat} {d e : Desc}

theorem State.testMark_eq (draining : s.draining = false) (on : (s.lp n).state = .on) : s.testMark n d =
    let b := s.markPlaced n d
    let c := b.markChecked (springWho s n d true) d
    if !b.marked d.markRow && tagsBad (c.wMode d.markRow) (b.tag d.markRow).bad then c.badStatus n d .uncorrectable (dDst d.w)
    else if b.slate d.markRow = d.markSlate then c.met n d.seq else c := by
  rw [State.testMark, if_neg (ne_true_of_eq_false draining), if_neg (by simp [on])]
  rfl

/-- The test of a MARK on a clean row of a lake that is ON finds the row's slate (R185). -/
theorem State.testMark_clean (sole : s.sole n e) (seq : e.seq = d.seq) (unmet : e.met = false) (draining : s.draining = false)
    (on : (s.lp n).state = .on) (clean : s.clean d.markRow = true) : MarkTested s (s.testMark n d) ∧
      (s.testMark n d).sole n { e with issued := true, met := Decidable.decide (s.slate d.markRow = d.markSlate) } := by
  obtain ⟨cnt, ps, placed⟩ := s.markPlaced_eq n d
  have asked : (s.markPlaced n d).sole n e.asks := by
    rw [placed, ← seq]
    exact State.sole.modDesc (s := { s with cnt := cnt }) (f := Desc.asks) sole fun _ => rfl
  have clean' : (s.markPlaced n d).clean d.markRow = true := by rw [placed]; exact clean
  have slate (r : Nat) : (s.markPlaced n d).slate r = s.slate r := by rw [placed]; rfl
  rw [State.testMark_eq draining on]
  dsimp only
  generalize springWho s n d true = w
  generalize s.markPlaced n d = b at placed asked clean' slate
  obtain ⟨mark, corr, bad⟩ := (b.clean_iff d.markRow).1 clean'
  have found : b.markChecked w d = b.spend w d.markRow none :=
    State.checkRow_clean _ _ corr bad ((b.spend_bad d.markRow w none d.markRow).trans bad)
  have sound (t : State) : tagsBad (t.wMode d.markRow) (b.tag d.markRow).bad = false := by
    rw [bad, tagsBad]
    split <;> rfl
  rw [found, sound, Bool.and_false, if_neg Bool.false_ne_true, slate]
  obtain ⟨rows, lakes, cnt', spent⟩ := b.spend_frame w d.markRow
  have slate' (r : Nat) : (b.spend w d.markRow none).slate r = s.slate r := (b.spend_slate w d.markRow r).trans (slate r)
  have kept : (b.spend w d.markRow none).sole n e.asks := asked.congr (by rw [spent]; rfl)
  generalize b.spend w d.markRow none = v at spent slate' kept
  by_cases finds : s.slate d.markRow = d.markSlate
  · rw [if_pos finds, decide_eq_true finds, ← seq]
    exact ⟨⟨⟨_, _, _, _, _, _, by rw [spent, placed]; rfl⟩, slate'⟩, State.sole.modDesc (f := fun d => { d with met := true }) kept fun _ => rfl⟩
  · rw [if_neg finds, decide_eq_false finds, ← unmet]
    exact ⟨⟨⟨_, _, _, _, _, _, by rw [spent, placed]; rfl⟩, slate'⟩, kept⟩

end

section
variable {s : State} {n : Fin 24} {d : Desc}

/-- A MARK on a row tests it as it starts (R185). -/
theorem exec_mark_row (h : s.Begins n 9 d) (cond : dCond d.w = 1 ∨ dCond d.w = 2) (clean : s.clean d.markRow = true)
    (on : (s.lp n).state = .on) :
    ∃ u : State, exec (.mark n) s = .next u.takeUp ∧ MarkTested s u ∧
      u.desc n d.seq = some { d with stage := .flight, issued := true, met := Decidable.decide (s.slate d.markRow = d.markSlate) } := by
  have ran : exec (.mark n) s = .next (startDesc 9 n s).takeUp := rfl
  obtain ⟨springs, cnt, frame⟩ := s.beginDesc_frame n d
  have sole := h.launched
  rw [h.start_mark, State.startMark_row cond] at ran
  generalize s.beginDesc n d = v at ran sole frame
  have slate (r : Nat) : v.slate r = s.slate r := by rw [frame]; rfl
  obtain ⟨tested, sole'⟩ := State.testMark_clean (s := v) (d := d) sole rfl h.met (by rw [frame]; exact h.draining) (by rw [frame]; exact on)
    (by rw [frame]; exact clean)
  refine ⟨_, ran, ⟨?_, fun r => (tested.slate r).trans (slate r)⟩, ?_⟩
  · obtain ⟨_, _, _, _, _, _, changed⟩ := tested.frame
    exact ⟨_, _, _, _, _, _, by rw [changed, frame]⟩
  · rw [← slate]
    exact sole'.desc

/-- A MARK that waits is tested again (R185). -/
theorem exec_markRetest (sole : s.sole n d) (clean : s.clean d.markRow = true) (on : (s.lp n).state = .on) (draining : s.draining = false)
    (waits : ((s.spring n).descs.filter fun e => e.holding && !e.failed && dKind e.w = 9 && (dCond e.w = 1 || dCond e.w = 2)) = [d]) :
    ∃ t, exec (.markRetest n) s = .next t ∧ MarkTested s t ∧
      t.desc n d.seq = some { d with issued := true, met := Decidable.decide (s.slate d.markRow = d.markSlate) } := by
  have unmet : d.met = false := by
    have holds := (List.mem_filter.1 (waits.symm ▸ List.mem_singleton.2 rfl : d ∈ _)).2
    simp only [Bool.and_eq_true, Desc.holding, Bool.not_eq_true'] at holds
    obtain ⟨⟨⟨⟨-, unmet⟩, -⟩, -⟩, -⟩ := holds
    exact unmet
  obtain ⟨tested, sole'⟩ := State.testMark_clean sole rfl unmet draining on clean
  refine ⟨_, ?_, tested, sole'.desc⟩
  change Host.Outcome.next (((s.spring n).descs.filter fun e => _).foldl (fun s d => s.testMark n d) s) = _
  rw [waits]
  rfl

end

/-- Settles O19: each descriptor on a cue, and each MARK, by what it finds as it starts; a MARK that waits, as it is tested again. -/
theorem cueDescriptorsAndMarksMet : Obligations.CueDescriptorsAndMarksMet := by
  unfold Obligations.CueDescriptorsAndMarksMet
  have same {s u : State} (h : MarkTested s u) : (∀ r, u.slate r = s.slate r) ∧
      u = { s with springs := u.springs, lakes := u.lakes, rows := u.rows, cnt := u.cnt, group := u.group, ps := u.ps } := by
    obtain ⟨_, _, _, _, _, _, frame⟩ := h.frame
    exact ⟨h.slate, by rw [frame]⟩
  constructor
  · intro s n d k none_held
    refine ⟨fun begins may => ?_, fun begins may => ⟨fun reached => ?_, fun short => ?_⟩⟩
    · exact exec_signalCue (State.begins_iff.1 begins) none_held may
    · exact exec_waitCue_takes (State.begins_iff.1 begins) none_held may reached
    · exact exec_waitCue_watches (State.begins_iff.1 begins) none_held may short
  · intro s n d row found same'
    refine ⟨fun begins => ⟨fun cond may => ?_, fun cond => ?_, fun cond clean on => ?_⟩, fun sole cond clean on draining waits => ?_⟩
    · obtain ⟨u, ran, tested, desc⟩ := exec_mark_cue (State.begins_iff.1 begins) cond may
      exact ⟨u, ran, same tested, desc⟩
    · obtain ⟨u, ran, tested, desc⟩ := exec_mark_order (State.begins_iff.1 begins) cond
      exact ⟨u, ran, same tested, desc⟩
    · obtain ⟨u, ran, tested, desc⟩ := exec_mark_row (State.begins_iff.1 begins) cond clean on
      exact ⟨u, ran, same tested, desc⟩
    · obtain ⟨u, ran, tested, desc⟩ := exec_markRetest sole clean on draining waits
      exact ⟨u, ran, same tested, desc⟩

end Sys2Proof.Machine
end

section
/-!
PROOF. Transfers (O18): a transfer that starts asks for its pieces one after another, and what is asked so far, and no more, has changed (R178, R181,
R182).
-/
namespace Sys2Proof.Machine

-- One theorem after another: elaborated side by side, these theorems would each hold a thread and its stack.
set_option Elab.async false

/-- What holds of what the members of a list have done so far, one after another, holds in the end. -/
theorem foldl_invariant {α β : Type} {f : β → α → β} {P : List α → β → Prop} {l : List α} {b : β} (base : P [] b)
    (step : ∀ done x rest, l = done ++ x :: rest → ∀ t, P done t → P (done ++ [x]) (f t x)) : P l (l.foldl f b) := by
  have along (done rest : List α) (t : β) (h : P done t) (whole : l = done ++ rest) : P l (rest.foldl f t) := by
    induction rest generalizing done t with
    | nil => rwa [whole, List.append_nil]
    | cons x rest ih => exact ih (done ++ [x]) (f t x) (step done x rest whole t h) (by rw [whole, List.append_assoc]; rfl)
  exact along [] l b base rfl

/-! ### A transfer under way -/

/-- A descriptor in flight that has asked for some of its pieces. -/
def Desc.askedFor (d : Desc) (done : List Piece) : Desc := { d with stage := .flight, issued := true, asked := done.map (·.i) }

/-- From `s` to `t` a descriptor that started has asked for some of its pieces, and no other Spring has changed. -/
structure State.Issued (s : State) (n : Nat) (d : Desc) (done : List Piece) (t : State) : Prop where
  sole : t.sole n (d.askedFor done)
  others : ∀ m, m ≠ n → t.spring m = s.spring m

section
variable {s t u : State} {n : Nat} {d : Desc} {done : List Piece}

theorem State.Issued.desc (h : s.Issued n d done t) : t.desc n d.seq = some (d.askedFor done) := h.sole.desc

theorem State.Issued.congr (h : s.Issued n d done t) (springs : u.springs = t.springs) : s.Issued n d done u where
  sole := h.sole.congr (by rw [State.spring, springs]; rfl)
  others m hm := by rw [State.spring, springs]; exact h.others m hm

theorem State.Issued.ask (h : s.Issued n d done t) (p : Piece) : s.Issued n d (done ++ [p]) (t.ask n d.seq p.i) where
  sole := by
    have asked : (d.askedFor (done ++ [p])) = { d.askedFor done with asked := (d.askedFor done).asked ++ [p.i] } := by
      rw [Desc.askedFor, List.map_append]
      rfl
    rw [asked]
    exact State.sole.modDesc (d := d.askedFor done) (f := fun d => { d with asked := d.asked ++ [p.i] }) h.sole fun _ => rfl
  others m hm := (t.modDesc_spring_other _ _ hm).trans (h.others m hm)

end

/-! ### The start of a transfer (R181, R210) -/

section
variable {s : State} {n k : Nat} {d : Desc}

theorem State.Begins.start_moves (h : s.Begins n k d) (moves : kMoves k = true) : startDesc k n s = (s.beginDesc n d).issue n d.seq := by
  have range : 1 ≤ k ∧ k ≤ 6 := by simpa [kMoves] using moves
  obtain ⟨low, high⟩ := range
  rw [startDesc, h.next]
  interval_cases k <;> rfl

/-- A descriptor that starts holds no queue entry of the trickle path yet (R210). -/
theorem State.Begins.trickleWaits (h : s.Begins n k d) : Machine.trickleWaits ((s.beginDesc n d).spring n) d.begun = false := by
  obtain ⟨cnt, counted⟩ := s.beginDesc_counted n d
  have used : trickleUsed ((s.beginDesc n d).spring n) = trickleUsed (s.spring n) := by
    have descs : ((s.beginDesc n d).spring n).descs = (s.spring n).descs.map fun e => if e.seq = d.seq then e.begun else e := by
      rw [counted]
      exact State.modDesc_descs { s with cnt := cnt } n d.seq Desc.begun
    rw [trickleUsed, trickleUsed, descs, countTrue, countTrue, List.filter_map, List.length_map]
    refine congrArg List.length (List.filter_congr fun e he => ?_)
    dsimp only [Function.comp]
    split
    · next named =>
      rw [h.sole.eq he named]
      simp [Desc.begun, h.issued]
    · rfl
  have earlier : ((s.beginDesc n d).spring n).earlier d.begun = (s.spring n).earlier d := by
    rw [counted]
    exact State.modDesc_earlier { s with cnt := cnt } n (f := Desc.begun) (fun _ => rfl) rfl rfl
  have waits := h.waits
  rw [Machine.trickleWaits] at waits ⊢
  rw [used, earlier]
  exact waits

/-- A descriptor that starts is issued: its pieces are asked for one after another (R178, R182). -/
theorem State.Begins.issue (h : s.Begins n k d) (awake : ownIsSrc k = true → (s.lp n).state = .on) :
    (s.beginDesc n d).issue n d.seq = if k = 6 then
        (((s.beginDesc n d).modDesc n d.seq Desc.asks).modDesc n d.seq fun e =>
          { e with ready := (piecesOf e.w).map fun p => (p.i, List.replicate p.n (fillWord (dSrc e.w))) }).landAll n d.seq
      else (piecesOf d.w).foldl (State.issuePiece n d.seq) ((s.beginDesc n d).modDesc n d.seq Desc.asks) := by
  have desc : (s.beginDesc n d).desc n d.seq = some d.begun := h.launched.desc
  have waits := h.trickleWaits
  have live : d.begun.live = true := by simp [Desc.live, Desc.begun, h.cut, h.removed, h.failed]
  obtain ⟨springs, cnt, frame⟩ := s.beginDesc_frame n d
  have draining : (s.beginDesc n d).draining = false := by rw [frame]; exact h.draining
  have lp : (s.beginDesc n d).lp n = s.lp n := by rw [frame]; rfl
  have asleep : ¬ (ownIsSrc (dKind d.begun.w) && Decidable.decide (((s.beginDesc n d).lp n).state = .idle)) = true := by
    rw [show dKind d.begun.w = k from h.kind, lp]
    intro sleeps
    obtain ⟨own, idle⟩ := Bool.and_eq_true_iff.1 sleeps
    rw [awake own] at idle
    exact absurd idle (by decide)
  rw [State.issue, desc]
  dsimp only
  rw [if_neg (by rw [live, draining, waits, show d.begun.issued = false from h.issued]; decide), if_neg asleep, ← h.kind]
  rfl

/-- A transfer's pieces are asked for one after another, and what holds of those asked for so far holds of all in the end (R178, R182). -/
theorem State.Begins.transfers (h : s.Begins n k d) (moves : kMoves k = true) (data : k ≠ 6) (awake : ownIsSrc k = true → (s.lp n).state = .on)
    {P : List Piece → State → Prop} (base : ∀ springs cnt, P [] { s with springs := springs, cnt := cnt })
    (step : ∀ done p rest, piecesOf d.w = done ++ p :: rest → ∀ t, s.Issued n d done t → P done t →
      s.Issued n d (done ++ [p]) (State.issuePiece n d.seq t p) ∧ P (done ++ [p]) (State.issuePiece n d.seq t p)) :
    (startDesc k n s).desc n d.seq = some d.started ∧ (∀ m, m ≠ n → (startDesc k n s).spring m = s.spring m) ∧ P (piecesOf d.w) (startDesc k n s) := by
  let b := (s.beginDesc n d).modDesc n d.seq Desc.asks
  have begun : s.Issued n d [] b := by
    refine ⟨?_, fun m hm => (State.modDesc_spring_other _ _ _ hm).trans (s.beginDesc_spring_other d hm)⟩
    have asked : d.askedFor [] = d.begun.asks := by
      rw [Desc.askedFor, List.map_nil, ← h.asked]
      rfl
    rw [asked]
    exact State.sole.modDesc (f := Desc.asks) h.launched fun _ => rfl
  have based : P [] b := by
    obtain ⟨springs, cnt, frame⟩ := s.beginDesc_frame n d
    rw [show b = (s.beginDesc n d).modDesc n d.seq Desc.asks from rfl, frame]
    exact base _ cnt
  have all : startDesc k n s = (piecesOf d.w).foldl (State.issuePiece n d.seq) b := by
    rw [h.start_moves moves, h.issue awake, if_neg data]
  have ends := foldl_invariant (f := State.issuePiece n d.seq) (P := fun done t => s.Issued n d done t ∧ P done t) ⟨begun, based⟩
    fun done p rest whole t inv => step done p rest whole t inv.1 inv.2
  rw [all]
  exact ⟨ends.1.desc, ends.1.others, ends.2⟩

end

/-! ### One piece (R178, R182) -/

/-- A descriptor whose pieces may be asked for: it is neither at fault nor removed. -/
def Desc.sound (d : Desc) : Prop := d.failed = false ∧ d.removed = false

section
variable {t v : State} {n q : Nat} {e : Desc} {p : Piece} {ws : List Word} (desc : t.desc n q = some e) (sound : e.sound)
include desc sound

theorem issuePiece_load (kind : dKind e.w = 1) : State.issuePiece n q t p =
    if dShared e.w then t.ask n q p.i
    else (t.ask n q p.i).emit (.stackRead n q p.i (stackOf t p.other).1 (stackOf t p.other).2 p.n e.slot.label) := by
  rw [State.issuePiece, desc]
  dsimp only
  rw [sound.1, sound.2, kind]
  rfl

theorem issuePiece_store (kind : dKind e.w = 2) (read : t.springRead n e p = (⟨.ok, ws⟩, v)) : State.issuePiece n q t p =
    (((v.ask n q p.i).emit (.stackWrite n q p.i (stackOf t p.other).1 (stackOf t p.other).2 ws e.slot.label)).countSpring n 0x48 (32 * p.n)
      (some e.slot.label) e.quals).basinStore (stackOf t p.other).1 (stackOf t p.other).2 (32 * p.n) := by
  rw [State.issuePiece, desc]
  dsimp only
  rw [sound.1, sound.2, kind, read]
  rfl

theorem issuePiece_pull (kind : dKind e.w = 3) :
    State.issuePiece n q t p = (t.ask n q p.i).springRemote n e p.i .read p.other p.n [] := by
  rw [State.issuePiece, desc]
  dsimp only
  rw [sound.1, sound.2, kind]
  rfl

theorem issuePiece_push (kind : dKind e.w = 4) (read : t.springRead n e p = (⟨.ok, ws⟩, v)) (far : bits p.other 44 16 ≠ v.tm.epId.toNat) :
    State.issuePiece n q t p = (v.ask n q p.i).springRemote n e p.i (pushOp e.w) p.other p.nOther ws := by
  rw [State.issuePiece, desc]
  dsimp only
  rw [sound.1, sound.2, kind, read]
  exact if_neg far

theorem issuePiece_copy (kind : dKind e.w = 5) :
    State.issuePiece n q t p = (t.ask n q p.i).springCanal n e p.i .read p.other p.n [] false := by
  rw [State.issuePiece, desc]
  dsimp only
  rw [sound.1, sound.2, kind]
  rfl

end

/-- The requests of a Spring that leave the die with a piece (R34, R250). -/
theorem State.springRemote_eq (t : State) (n : Nat) (e : Desc) (i : Nat) (op : Op) (a : BitVec 64) (words : Nat) (data : List Word) :
    ∃ cnt, t.springRemote n e i op a words data = { t with
      remotes := t.remotes ++ [⟨t.nextId, { springWho t n e false with id := t.nextId }, t.farStop a, op,
        bits a 44 16 = (t.tm.epId.toNat ^^^ 1), none, some (n, e.seq, i)⟩]
      nextId := t.nextId + 1, cnt := cnt, out := .remote t.nextId (t.farStop a) op a words data e.slot.label :: t.out } := by
  obtain ⟨cnt, counted⟩ := ({ t with nextId := t.nextId + 1 }).count_frame
    { set := .spring, inst := n, ev := 0x4A, quals := e.quals, label := some e.slot.label }
  refine ⟨cnt, ?_⟩
  rw [State.springRemote, State.fresh1]
  dsimp only
  rw [State.countSpring, counted]
  simp only [decide_eq_true_eq]
  rfl

theorem State.basinStore_frame (t : State) (sib : Bool) (off len : Nat) : ∃ cnt basin, t.basinStore sib off len = { t with cnt := cnt, basin := basin } := by
  rw [State.basinStore]
  dsimp only
  generalize countTrue _ _ = gone
  obtain ⟨cnt, counted⟩ := t.count_frame { set := .basin, inst := 0, ev := 0x76, n := gone }
  rw [counted]
  exact ⟨cnt, _, rfl⟩

end Sys2Proof.Machine
end

section
/-!
PROOF. Loads, stores, pulls and pushes that start (O18): what each asks for, in the order of its pieces, and what stays (R178, R181, R182).
-/
namespace Sys2Proof.Machine

-- One theorem after another: elaborated side by side, these theorems would each hold a thread and its stack.
set_option Elab.async false

section
variable {s : State} {n : Fin 24} {d : Desc}

theorem State.Begins.sound {k : Nat} (h : s.Begins n k d) (done : List Piece) : (d.askedFor done).sound := ⟨h.failed, h.removed⟩

theorem map_reverse_snoc {α β : Type} (f : α → β) (l : List α) (x : α) : ((l ++ [x]).map f).reverse = f x :: (l.map f).reverse := by
  rw [List.map_append, List.reverse_append]
  rfl

/-- What a LOAD has asked of the stack for some of its pieces (R178, R205). -/
def State.stackReads (s : State) (n : Nat) (d : Desc) (done : List Piece) : List Out :=
  if dShared d.w then [] else (done.map fun p =>
    Out.stackRead n d.seq p.i (stackOf s p.other).1 (stackOf s p.other).2 p.n d.slot.label).reverse

theorem exec_load (h : s.Begins n 1 d) :
    ∃ u : State, exec (.load n) s = .next u.takeUp ∧ u.desc n d.seq = some d.started ∧ (∀ m, m ≠ n.val → u.spring m = s.spring m) ∧
      ∃ springs cnt, u = { s with springs := springs, cnt := cnt, out := s.stackReads n d (piecesOf d.w) ++ s.out } := by
  have ends := h.transfers (P := fun done t => ∃ springs cnt, t = { s with springs := springs, cnt := cnt, out := s.stackReads n d done ++ s.out })
    rfl (by decide) (fun own => absurd own (by decide)) (fun springs cnt => ⟨springs, cnt, ?_⟩) ?_
  · exact ⟨_, rfl, ends⟩
  · rw [State.stackReads]
    split <;> rfl
  · rintro done p rest whole t issued ⟨springs, cnt, frame⟩
    have asked := issuePiece_load (p := p) issued.desc (h.sound done) h.kind
    have stack : stackOf t p.other = stackOf s p.other := by rw [frame]; rfl
    by_cases shared : dShared d.w = true
    · have piece : State.issuePiece n d.seq t p = t.ask n d.seq p.i := asked.trans (if_pos shared)
      rw [piece]
      refine ⟨issued.ask p, (t.ask n d.seq p.i).springs, cnt, ?_⟩
      rw [frame, State.stackReads, State.stackReads, if_pos shared, if_pos shared]
      rfl
    · have piece : State.issuePiece n d.seq t p = (t.ask n d.seq p.i).emit (.stackRead n d.seq p.i (stackOf s p.other).1 (stackOf s p.other).2 p.n
          d.slot.label) := asked.trans ((if_neg shared).trans (by rw [stack]; rfl))
      rw [piece]
      refine ⟨(issued.ask p).congr rfl, (t.ask n d.seq p.i).springs, cnt, ?_⟩
      rw [frame, State.stackReads, State.stackReads, if_neg shared, if_neg shared, map_reverse_snoc]
      rfl

/-! ### Transfers that read their own lake (R182) -/

/-- What a Spring finds at the rows of its pieces (R170, R182). -/
theorem State.ownClean_iff {s : State} {n : Nat} {d : Desc} : s.ownClean n d = true ↔ (s.lp n).state = .on ∧
    ∀ p ∈ piecesOf d.w, s.clean (p.own / 8) = true ∧ lakeOf (p.own / 8) = n := by
  simp only [State.ownClean, Bool.and_eq_true, decide_eq_true_eq, List.all_eq_true]

/-- The word of a piece's read, where nothing that a read finds has changed. -/
theorem State.springRead_piece {t : State} {p : Piece} {e : Desc} {rest done : List Piece} (own : s.ownClean n d = true)
    (whole : piecesOf d.w = done ++ p :: rest) (mem : t.mem = s.mem) (lpow : t.lpow = s.lpow) (clean : ∀ r, t.clean r = s.clean r) :
    ∃ v, t.springRead n e p = (⟨.ok, s.pieceWords p⟩, v) ∧ ShoreRead t v := by
  obtain ⟨on, pieces⟩ := State.ownClean_iff.1 own
  have member : p ∈ piecesOf d.w := by rw [whole]; simp
  have up : (t.lp n).state.down = false := by rw [State.lp, lpow]; exact on ▸ rfl
  have words : t.pieceWords p = s.pieceWords p := by rw [State.pieceWords, mem]; rfl
  rw [← words]
  exact t.springRead_clean n e up ((clean _).trans (pieces p member).1) (piecesOf_inRow member)

/-- What a STORE has written to the stack for some of its pieces (R178). -/
def State.stackWrites (s : State) (n : Nat) (d : Desc) (done : List Piece) : List Out :=
  (done.map fun p => Out.stackWrite n d.seq p.i (stackOf s p.other).1 (stackOf s p.other).2 (s.pieceWords p) d.slot.label).reverse

/-- From `s` to `t` some pieces of a STORE have been asked for. -/
structure State.Stored (s : State) (n : Nat) (d : Desc) (done : List Piece) (t : State) : Prop where
  frame : ∃ springs lakes rows weir basin cnt group ps inPond, t = { s with
    springs := springs, lakes := lakes, rows := rows, weir := weir, basin := basin, cnt := cnt, group := group, ps := ps, inPond := inPond
    out := s.stackWrites n d done ++ s.out }
  clean : ∀ r, t.clean r = s.clean r

theorem exec_store (h : s.Begins n 2 d) (own : s.ownClean n d = true) :
    ∃ u : State, exec (.store n) s = .next u.takeUp ∧ u.desc n d.seq = some d.started ∧ (∀ m, m ≠ n.val → u.spring m = s.spring m) ∧
      s.Stored n d (piecesOf d.w) u := by
  have ends := h.transfers (P := s.Stored n d) rfl (by decide) (fun _ => (State.ownClean_iff.1 own).1)
    (fun springs cnt => ⟨⟨springs, _, _, _, _, cnt, _, _, _, rfl⟩, fun _ => rfl⟩) ?_
  · exact ⟨_, rfl, ends⟩
  · rintro done p rest whole t issued ⟨⟨springs, lakes, rows, weir, basin, cnt, group, ps, inPond, frame⟩, clean⟩
    obtain ⟨v, read, kept⟩ := State.springRead_piece (e := d.askedFor done) own whole (by rw [frame]) (by rw [frame]) clean
    have stack : stackOf t p.other = stackOf s p.other := by rw [frame]; rfl
    let w := (v.ask n d.seq p.i).emit (.stackWrite n d.seq p.i (stackOf s p.other).1 (stackOf s p.other).2 (s.pieceWords p) d.slot.label)
    obtain ⟨cnt', counted⟩ := w.count_frame { set := .spring, inst := n, ev := 0x48, quals := d.quals, label := some d.slot.label, n := 32 * p.n }
    obtain ⟨cnt'', basin', invalidated⟩ := State.basinStore_frame { w with cnt := cnt' } (stackOf s p.other).1 (stackOf s p.other).2 (32 * p.n)
    have piece : State.issuePiece n d.seq t p = { w with cnt := cnt'', basin := basin' } := by
      rw [issuePiece_store issued.desc (h.sound done) h.kind read, stack]
      exact (congrArg (State.basinStore · (stackOf s p.other).1 (stackOf s p.other).2 (32 * p.n)) counted).trans invalidated
    obtain ⟨-, springs', -⟩ := kept.same
    obtain ⟨rows', lakes', weir', cnt0, group', ps', inPond', changed⟩ := kept.frame
    rw [piece]
    refine ⟨((issued.congr springs').ask p).congr rfl, ⟨(v.ask n d.seq p.i).springs, lakes', rows', weir', basin', cnt'', group', ps', inPond', ?_⟩,
      fun r => (kept.clean r).trans (clean r)⟩
    rw [show w = (v.ask n d.seq p.i).emit _ from rfl, State.stackWrites, map_reverse_snoc, changed, frame]
    rfl

/-! ### Requests for other dies (R178, R250) -/

/-- What a Spring's request for another die carries of its Spring, whatever has been asked for before (R122, R250). -/
theorem springWho_congr {t : State} {done : List Piece} (labels : t.weir.labelMap = s.weir.labelMap) (now : t.pw.now = s.pw.now) (id : Nat) :
    { springWho t n (d.askedFor done) false with id := id } = { springWho s n d false with id := id } := by
  have dl : t.defDl d.slot.label = s.defDl d.slot.label := by rw [State.defDl, State.defDl, labels]
  rw [springWho, springWho, now]
  simp only [Desc.askedFor, dl, Bool.false_eq_true, if_false]

/-- From `s` to `t` some pieces have been asked of other dies. -/
structure State.AskedFar (s : State) (n : Nat) (d : Desc) (op : Op) (words : Piece → Nat) (data : Piece → List Word) (done : List Piece) (t : State) :
    Prop where
  remotes : t.remotes = s.remotes ++ done.map (s.farWaits n d op)
  out : t.out = (done.map fun p => s.farRequest d op (words p) (data p) p).reverse ++ s.out
  nextId : t.nextId = s.nextId + done.length

/-- One more piece is asked of another die, and nothing else changes but what is counted. -/
theorem State.AskedFar.send {t : State} {op : Op} {words : Piece → Nat} {data : Piece → List Word} {done rest : List Piece} {p : Piece}
    (h : s.AskedFar n d op words data done t) (whole : piecesOf d.w = done ++ p :: rest) (labels : t.weir.labelMap = s.weir.labelMap)
    (now : t.pw.now = s.pw.now) (ep : t.tm.epId = s.tm.epId) :
    ∃ cnt remotes nextId out, t.springRemote n (d.askedFor done) p.i op p.other (words p) (data p) =
      { t with cnt := cnt, remotes := remotes, nextId := nextId, out := out } ∧
      s.AskedFar n d op words data (done ++ [p]) { t with cnt := cnt, remotes := remotes, nextId := nextId, out := out } := by
  obtain ⟨cnt, sent⟩ := t.springRemote_eq n (d.askedFor done) p.i op p.other (words p) (data p)
  have number : t.nextId = s.nextId + p.i := by rw [h.nextId, piecesOf_number whole]
  have stop : t.farStop p.other = s.farStop p.other := by rw [State.farStop, State.farStop, ep]
  refine ⟨cnt, _, _, _, sent, ?_, ?_, ?_⟩
  · dsimp only
    rw [List.map_append, ← List.append_assoc, ← h.remotes, List.map_singleton, State.farWaits, ← number, ← stop, ← springWho_congr labels now, ep]
    rfl
  · dsimp only
    rw [map_reverse_snoc, State.farRequest, ← number, ← stop, List.cons_append, ← h.out]
    rfl
  · dsimp only
    rw [h.nextId, List.length_append]
    rfl

theorem exec_pull (h : s.Begins n 3 d) :
    ∃ u : State, exec (.pull n) s = .next u.takeUp ∧ u.desc n d.seq = some d.started ∧ (∀ m, m ≠ n.val → u.spring m = s.spring m) ∧
      s.AskedFar n d .read (·.n) (fun _ => []) (piecesOf d.w) u ∧
      ∃ springs remotes nextId cnt out, u = { s with springs := springs, remotes := remotes, nextId := nextId, cnt := cnt, out := out } := by
  have ends := h.transfers (P := fun done t => s.AskedFar n d .read (·.n) (fun _ => []) done t ∧
    ∃ springs remotes nextId cnt out, t = { s with springs := springs, remotes := remotes, nextId := nextId, cnt := cnt, out := out })
    rfl (by decide) (fun own => absurd own (by decide))
    (fun springs cnt => ⟨⟨(List.append_nil _).symm, rfl, rfl⟩, springs, _, _, cnt, _, rfl⟩) ?_
  · exact ⟨_, rfl, ends⟩
  · rintro done p rest whole t issued ⟨asked, springs, remotes, nextId, cnt, out, frame⟩
    have askedFor : s.AskedFar n d .read (·.n) (fun _ => []) done (t.ask n d.seq p.i) := ⟨asked.remotes, asked.out, asked.nextId⟩
    obtain ⟨cnt', remotes', nextId', out', sent, asked'⟩ := askedFor.send whole (by rw [frame]; rfl) (by rw [frame]; rfl) (by rw [frame]; rfl)
    have piece := (issuePiece_pull (p := p) issued.desc (h.sound done) h.kind).trans sent
    rw [piece]
    refine ⟨(issued.ask p).congr rfl, asked', (t.ask n d.seq p.i).springs, remotes', nextId', cnt', out', ?_⟩
    rw [frame]
    rfl

/-- From `s` to `t` a PUSH has read rows of its own lake and asked other dies, which leaves what a later read finds. -/
structure State.Pushed (s t : State) : Prop where
  frame : ∃ springs remotes nextId lakes rows weir cnt group ps inPond out, t = { s with
    springs := springs, remotes := remotes, nextId := nextId, lakes := lakes, rows := rows, weir := weir, cnt := cnt, group := group, ps := ps
    inPond := inPond, out := out }
  clean : ∀ r, t.clean r = s.clean r
  labels : t.weir.labelMap = s.weir.labelMap

theorem exec_push (h : s.Begins n 4 d) (own : s.ownClean n d = true) (far : ∀ p ∈ piecesOf d.w, bits p.other 44 16 ≠ s.tm.epId.toNat) :
    ∃ u : State, exec (.push n) s = .next u.takeUp ∧ u.desc n d.seq = some d.started ∧ (∀ m, m ≠ n.val → u.spring m = s.spring m) ∧
      s.AskedFar n d (pushOp d.w) (·.nOther) s.pieceWords (piecesOf d.w) u ∧ s.Pushed u := by
  have ends := h.transfers (P := fun done t => s.AskedFar n d (pushOp d.w) (·.nOther) s.pieceWords done t ∧ s.Pushed t)
    rfl (by decide) (fun _ => (State.ownClean_iff.1 own).1)
    (fun springs cnt => ⟨⟨(List.append_nil _).symm, rfl, rfl⟩, ⟨springs, _, _, _, _, _, cnt, _, _, _, _, rfl⟩, fun _ => rfl, rfl⟩) ?_
  · exact ⟨_, rfl, ends⟩
  · rintro done p rest whole t issued ⟨asked, ⟨springs, remotes, nextId, lakes, rows, weir, cnt, group, ps, inPond, out, frame⟩, clean, labels⟩
    obtain ⟨v, read, kept⟩ := State.springRead_piece (e := d.askedFor done) own whole (by rw [frame]) (by rw [frame]) clean
    obtain ⟨-, springs', -, tm, -⟩ := kept.same
    obtain ⟨rows', lakes', weir', cnt0, group', ps', inPond', changed⟩ := kept.frame
    have asked' : s.AskedFar n d (pushOp d.w) (·.nOther) s.pieceWords done (v.ask n d.seq p.i) :=
      ⟨by rw [changed]; exact asked.remotes, by rw [changed]; exact asked.out, by rw [changed]; exact asked.nextId⟩
    have ep : v.tm = s.tm := tm.trans (by rw [frame])
    have away : bits p.other 44 16 ≠ v.tm.epId.toNat := by
      rw [ep]
      exact far p (by rw [whole]; simp)
    obtain ⟨cnt', remotes', nextId', out', sent, asked''⟩ := asked'.send whole (kept.labels.trans labels) (by rw [changed, frame]; rfl)
      (by rw [show (v.ask n d.seq p.i).tm = v.tm from rfl, ep])
    have piece := (issuePiece_push (p := p) issued.desc (h.sound done) h.kind read away).trans sent
    rw [piece]
    refine ⟨((issued.congr springs').ask p).congr rfl, asked'',
      ⟨(v.ask n d.seq p.i).springs, remotes', nextId', lakes', rows', weir', cnt', group', ps', inPond', out', ?_⟩,
      fun r => (kept.clean r).trans (clean r), kept.labels.trans labels⟩
    rw [changed, frame]
    rfl

end

end Sys2Proof.Machine
end

section
/-!
PROOF. A plain write on shore S of a clean row (R44, R45, R170, R183): its words are stored and no other, every slate stays, and the row stays without
an error while no error waits to be injected (R324).
-/
namespace Sys2Proof.Machine

-- One theorem after another: elaborated side by side, these theorems would each hold a thread and its stack.
set_option Elab.async false

/-! ### Writes that leave a row without an error -/

/-- From `s` to `t` a row that was clean stays clean, and no lake's armed error has changed. -/
structure KeptSound (row : Nat) (s t : State) : Prop where
  clean : s.clean row = true → t.clean row = true
  armed : ∀ n, (t.lake n).injArm = (s.lake n).injArm

theorem KeptSound.trans {row : Nat} {a b c : State} (h : KeptSound row a b) (k : KeptSound row b c) : KeptSound row a c :=
  ⟨fun clean => k.clean (h.clean clean), fun n => (k.armed n).trans (h.armed n)⟩

theorem KeptSound.of_same {row : Nat} {s t : State} (rows : t.rows = s.rows) (lakes : t.lakes = s.lakes) : KeptSound row s t where
  clean clean := by
    rw [State.clean, State.marked, State.tag, State.lake, rows, lakes]
    exact clean
  armed n := by rw [State.lake, lakes]; rfl

section
variable (s : State) (row : Nat)

theorem State.count_sound (o : Occ) : KeptSound row s (s.count o) := by
  obtain ⟨cnt, counted⟩ := s.count_frame o
  rw [counted]
  exact .of_same rfl rfl

/-- A change of a lake that leaves its queued marks and its armed error. -/
theorem State.modLake_sound (n : Nat) {f : Lake → Lake} (marks : ∀ l, (f l).marks = l.marks) (armed : ∀ l, (f l).injArm = l.injArm) :
    KeptSound row s (s.modLake n f) where
  clean clean := by
    by_cases own : lakeOf row = n
    · subst own
      rw [State.clean, State.marked, State.modLake_lake_same, marks]
      exact clean
    · rw [State.clean, State.marked, State.modLake_lake_other _ _ _ _ own]
      exact clean
  armed m := by
    by_cases own : m = n
    · rw [own, State.modLake_lake_same, armed]
    · rw [State.modLake_lake_other _ _ _ _ own]

theorem State.spend_sound (w : Who) : KeptSound row s (s.spend w row none) where
  clean clean := (s.spend_clean w row).trans clean
  armed n := by
    rw [State.spend, if_neg (by simp), State.pondCycle]
    refine (State.modLake_sound _ row (lakeOf row) (f := fun l => { l with idleFrom := (s.settle row).pw.now }) (fun _ => rfl) fun _ => rfl).armed n
      |>.trans ?_
    rw [State.countLake, State.count_lake, s.settle_lake]

theorem State.moved_sound (w : Who) (n k : Nat) : KeptSound row s (s.moved w n k) := by
  rw [State.moved]
  split
  · exact s.count_sound row _
  · exact (s.count_sound row _).trans (.of_same rfl rfl)

theorem refreshed_nil (wMode : Bool) (ws : List Nat) : refreshed wMode ws [] = [] := by cases wMode <;> rfl

/-- Words written into a clean row leave it clean (R45). -/
theorem State.refresh_sound (ws : List Nat) : KeptSound row s (s.refresh row ws) where
  clean clean := by
    obtain ⟨mark, corr, bad⟩ := (s.clean_iff row).1 clean
    obtain ⟨unmarked, unqueued⟩ := Bool.or_eq_false_iff.1 mark
    have tag : (s.refresh row ws).tag row = { s.tag row with
        corr := refreshed (s.wMode row) ws (s.tag row).corr, bad := refreshed (s.wMode row) ws (s.tag row).bad
        mark := (s.tag row).mark && !(List.range 8).all ws.contains } := s.setTag_same row _
    rw [State.clean_iff, State.marked, tag, corr, bad, unmarked, refreshed_nil]
    refine ⟨?_, rfl, rfl⟩
    rw [Bool.false_and, Bool.false_or, State.refresh, State.modLake_lake_same]
    dsimp only
    split
    · rw [List.any_eq_false] at unqueued ⊢
      exact fun m hm => unqueued m (List.mem_filter.1 hm).1
    · exact unqueued
  armed n := by
    rw [State.refresh]
    by_cases own : n = lakeOf row
    · rw [own, State.modLake_lake_same]
      rfl
    · rw [State.modLake_lake_other _ _ _ _ own]
      rfl

end

theorem State.scheduleWb_sound (s : State) (row : Nat) (old : RowTag) (undo : List (Nat × Word)) (fresh : Bool) :
    KeptSound row s (s.scheduleWb row old undo fresh) := by
  rw [State.scheduleWb]
  refine s.modLake_sound row (lakeOf row) (fun l => ?_) fun l => ?_ <;> split <;> rfl

theorem State.mergeWbs_sound (s : State) (row : Nat) (ws : List Nat) : KeptSound row s (s.mergeWbs row ws) := by
  rw [State.mergeWbs]
  exact s.modLake_sound row (lakeOf row) (fun _ => rfl) fun _ => rfl

theorem State.joinGroup_sound (s : State) (row k : Nat) (old : List Word) (tag : RowTag) (ws : List Nat) (checked : Bool) :
    KeptSound row s (s.joinGroup none row k old tag ws [] checked) := .of_same rfl rfl

theorem State.stored_sound (s : State) (r : RowReq) (w : Who) : KeptSound r.row s (s.stored w r) := by
  let a := (s.spend w r.row none).countLake (lakeOf r.row) 0x05 w.quals (some w.label)
  let b := a.putWords r.row (placed r.places r.data)
  have counted : KeptSound r.row s a := (s.spend_sound r.row w).trans (State.count_sound _ r.row _)
  have put : KeptSound r.row a b := .of_same rfl rfl
  exact (counted.trans put).trans ((State.moved_sound b r.row w _ _).trans (State.refresh_sound _ r.row _))

/-- A plain write of a clean row leaves it clean, while no error waits to be injected (R45, R324). -/
theorem writeRow_sound {s : State} {r : RowReq} (w : Who) (whole : Bool) (clean : s.clean r.row = true)
    (unarmed : (s.lake (lakeOf r.row)).injArm = false) : KeptSound r.row s (writeRow s w none whole r).2 := by
  obtain ⟨mark, corr, bad⟩ := (s.clean_iff r.row).1 clean
  have stored := State.stored_bad w clean
  have sound := s.stored_sound r w
  let old := s.rowWords r.row
  let t : RowTag := { s.tag r.row with mark := false }
  let ws := placed r.places r.data
  by_cases rmw : (s.wMode r.row && r.splitsCodeword) = true
  · have performed : writeRow s w none whole r = (⟨.ok, []⟩,
        (((s.stored w r).setTag r.row { (s.stored w r).tag r.row with corr := [] }).scheduleWb r.row t (ws.map fun e => (e.1, old.getD e.1 0))
          true).joinGroup none r.row (shoreRank w r.row) old t (ws.map (·.1)) [] true) := by
      rw [State.stored] at stored ⊢
      simp [writeRow, State.before, mark, corr, bad, rmw, stored, t, ws, old]
    have cleared : KeptSound r.row (s.stored w r) ((s.stored w r).setTag r.row { (s.stored w r).tag r.row with corr := [] }) := by
      refine ⟨fun was => ?_, fun _ => rfl⟩
      obtain ⟨mark', -, bad'⟩ := (State.clean_iff _ r.row).1 was
      rw [State.clean_iff, State.marked, State.setTag_same]
      exact ⟨mark', rfl, bad'⟩
    rw [performed]
    exact (sound.trans cleared).trans ((State.scheduleWb_sound _ _ _ _ _).trans (State.joinGroup_sound _ _ _ _ _ _ _))
  · have performed : writeRow s w none whole r = (⟨.ok, []⟩,
        (((s.stored w r).mergeWbs r.row (ws.map (·.1))).inject r.row).joinGroup none r.row (shoreRank w r.row) old t (ws.map (·.1)) [] false) := by
      rw [State.stored]
      simp [writeRow, State.before, mark, rmw, t, ws, old]
    have merged := (s.stored w r).mergeWbs_sound r.row (ws.map (·.1))
    have still : (((s.stored w r).mergeWbs r.row (ws.map (·.1))).lake (lakeOf r.row)).injArm = false :=
      ((sound.trans merged).armed _).trans unarmed
    rw [performed, State.inject_unarmed _ _ still]
    exact (sound.trans merged).trans (State.joinGroup_sound _ _ _ _ _ _ _)

/-! ### The write on shore S (R170) -/

/-- From `s` to `t` a request on shore S has written the words of a piece, and no other; no slate has changed. -/
structure ShoreWrite (p : Piece) (data : List Word) (s t : State) : Prop where
  frame : ∃ mem rows lakes weir cnt group ps inPond, t = { s with
    mem := mem, rows := rows, lakes := lakes, weir := weir, cnt := cnt, group := group, ps := ps, inPond := inPond }
  words : ∀ a, readWord t.mem a = if p.own ≤ a ∧ a < p.own + p.n then data.getD (a - p.own) 0 else readWord s.mem a
  slate : ∀ r, t.slate r = s.slate r
  clean : ∀ r, s.clean r = true → t.clean r = true
  waiters : ∀ k, (t.lake k).waiters = (s.lake k).waiters
  armed : ∀ k, (t.lake k).injArm = (s.lake k).injArm

/-- The words that a write of a piece stores. -/
theorem pieceRow_written (mem : List Host.Cell) (p : Piece) (data : List Word) (a : Nat) :
    readWord (storeAt mem (pieceRow p data).row (placed (pieceRow p data).places (pieceRow p data).data)) a =
      if p.own ≤ a ∧ a < p.own + p.n then data.getD (a - p.own) 0 else readWord mem a := by
  have places : (pieceRow p data).places = List.range' (p.own % 8) p.n := by rw [pieceRow, List.range'_eq_map_range]
  have whole : 8 * (p.own / 8) + p.own % 8 = p.own := Nat.div_add_mod p.own 8
  rw [places, readWord_storeAt_placed]
  simp only [pieceRow, whole]

theorem State.shoreS_write (s : State) (n : Nat) (d : Desc) {p : Piece} (w : Who) (data : List Word) (clean : s.clean (p.own / 8) = true)
    (inRow : p.own % 8 + p.n ≤ 8) (unarmed : (s.lake (lakeOf (p.own / 8))).injArm = false) :
    ∃ t, s.shoreS n d w .write .plain p data = (.done ⟨.ok, []⟩, t) ∧ ShoreWrite p data s t := by
  obtain ⟨cnt, counted⟩ := s.count_frame { set := .spring, inst := n, ev := 0x49, quals := d.quals, label := some d.slot.label }
  obtain ⟨pl, ps, placed_⟩ := ({ s with cnt := cnt }).place_one w n (op := .write) rfl .plain (pieceRow p data)
  let u : State := { s with cnt := cnt, group := [], ps := ps }
  obtain ⟨v, written, work, mem⟩ := writeRow_clean (s := u) (r := pieceRow p data) w false clean (pieceRow_inRow inRow data)
  have sound := writeRow_sound (s := u) (r := pieceRow p data) w false clean unarmed
  rw [written] at sound
  have access : rowAccess u w .write false .plain (pieceRow p data) = (.done ⟨.ok, []⟩, v) :=
    (show rowAccess u w .write false .plain (pieceRow p data) =
      (.done (writeRow u w none false (pieceRow p data)).1, (writeRow u w none false (pieceRow p data)).2) from rfl).trans (by rw [written])
  obtain ⟨inPond, weir, ran, -⟩ := s.shoreS_eq n d (by rw [State.countSpring, counted, placed_]) access
  refine ⟨_, ran, ?_, fun a => ?_, fun r => ?_, fun r was => ?_, fun k => ?_, fun k => sound.armed k⟩
  · obtain ⟨springs, reels⟩ := work.slots Mode.noConfusion
    have backoff := work.accepted rfl
    obtain ⟨mem', rows, lakes, weir', cnt', group, springs', reels', backoff', rfl⟩ := work.frame
    cases springs
    cases reels
    cases backoff
    exact ⟨mem', rows, lakes, weir, cnt', group, ps, inPond, rfl⟩
  · exact (congrArg (readWord · a) mem).trans (pieceRow_written s.mem p data a)
  · exact (work.slate r).trans (ite_self _)
  · by_cases own : r = p.own / 8
    · rw [own]
      exact sound.clean clean
    · exact (work.clean r fun k => own (List.mem_singleton.1 k)).trans was
  · have same : (v.lake k).waiters = (u.lake k).waiters := by rw [work.lake k]
    exact same

end Sys2Proof.Machine
end

section
/-!
PROOF. Fills that start (O18): each piece of the pattern is landed in turn, and no word but theirs changes (R178, R182).
-/
namespace Sys2Proof.Machine

-- One theorem after another: elaborated side by side, these theorems would each hold a thread and its stack.
set_option Elab.async false

/-! ### Plain landings (R182) -/

theorem piecesOf_apart {w : List (BitVec 64)} {done rest : List Piece} {p x : Piece} (whole : piecesOf w = done ++ p :: rest)
    (other : x ∈ done ∨ x ∈ rest) : x.i ≠ p.i := by
  have number := piecesOf_number whole
  obtain before | after := other
  · obtain ⟨a, b, rfl⟩ := List.append_of_mem before
    have earlier := piecesOf_number (l := a) (p := x) (rest := b ++ p :: rest) (by rw [whole]; simp)
    rw [earlier, number]
    simp
  · obtain ⟨a, b, rfl⟩ := List.append_of_mem after
    have later := piecesOf_number (l := done ++ p :: a) (p := x) (rest := b) (by rw [whole]; simp)
    rw [later, number]
    simp

theorem pieceOf_piece {d : Desc} {done rest : List Piece} {p : Piece} (whole : piecesOf d.w = done ++ p :: rest) : pieceOf d p.i = some p := by
  have before : done.find? (fun x => x.i = p.i) = none :=
    List.find?_eq_none.2 fun x hx => by simpa using piecesOf_apart whole (.inl hx)
  rw [pieceOf, whole, List.find?_append, before]
  simp

/-- A landing write of a descriptor that lands no slates is performed, where its lake is ON and its row is clean (R182, R183). -/
theorem State.landOne_plain {s : State} {n i : Nat} {d : Desc} {p : Piece} (data : List Word) (piece : pieceOf d i = some p)
    (unslated : dSlate d.w = false) (on : (s.lp n).state = .on) (draining : s.draining = false) (clean : s.clean (p.own / 8) = true)
    (inRow : p.own % 8 + p.n ≤ 8) (unarmed : (s.lake (lakeOf (p.own / 8))).injArm = false) :
    ∃ t, ShoreWrite p data s t ∧ s.landOne n d i data none = (true, t.landed n d.seq i (p.own / 8)) := by
  obtain ⟨t, ran, written⟩ := s.shoreS_write n d { springWho s n d true with issued := s.pw.now } data clean inRow unarmed
  refine ⟨t, written, ?_⟩
  rw [State.landOne, piece]
  dsimp only
  rw [unslated, if_neg (by rw [on]; decide), if_neg (by rw [on]; decide), if_neg (by rw [draining]; simp), if_neg (by simp)]
  simp only [Bool.false_eq_true, if_false, Option.getD_none, ran, if_true]

/-! ### A FILL (R178, R182) -/

/-- The words of the pattern that a piece takes. -/
def Desc.fillPiece (d : Desc) (p : Piece) : Nat × List Word := (p.i, List.replicate p.n (fillWord (dSrc d.w)))

/-- The word is one of a piece's. -/
def Piece.holds (a : Nat) (p : Piece) : Bool := p.own ≤ a && a < p.own + p.n

/-- A FILL that has written some of its pieces and has others to write. -/
def Desc.filling (d : Desc) (done rest : List Piece) (landed : List Nat) : Desc :=
  { d with stage := .flight, issued := true, ready := rest.map d.fillPiece, written := done.map (·.i), landed := landed }

/-- From `s` to `t` a FILL has written some of its pieces, and nothing else. -/
structure State.Filled (s : State) (n : Nat) (d : Desc) (done rest : List Piece) (t : State) : Prop where
  desc : ∃ landed, t.sole n (d.filling done rest landed)
  others : ∀ m, m ≠ n → t.spring m = s.spring m
  frame : ∃ springs mem rows lakes weir cnt group ps inPond, t = { s with
    springs := springs, mem := mem, rows := rows, lakes := lakes, weir := weir, cnt := cnt, group := group, ps := ps, inPond := inPond }
  clean : ∀ r, s.clean r = true → t.clean r = true
  armed : (t.lake n).injArm = (s.lake n).injArm
  waiters : (t.lake n).waiters = (s.lake n).waiters
  words : ∀ a, readWord t.mem a = if done.any (·.holds a) then fillWord (dSrc d.w) else readWord s.mem a

section
variable {s : State} {n : Nat} {d : Desc}

/-- The state in which a landing write of the FILL is performed lets the next follow. -/
theorem State.Filled.next {t v : State} {done rest : List Piece} {p : Piece} (h : s.Filled n d done (p :: rest) t)
    (whole : piecesOf d.w = done ++ p :: rest) (written : ShoreWrite p (d.fillPiece p).2 t v) :
    s.Filled n d (done ++ [p]) rest (v.landed n d.seq p.i (p.own / 8)) where
  desc := by
    obtain ⟨landed, sole⟩ := h.desc
    obtain ⟨_, _, _, _, _, _, _, _, changed⟩ := written.frame
    have kept : v.sole n (d.filling done (p :: rest) landed) := sole.congr (by rw [changed]; rfl)
    have left : ((p :: rest).map d.fillPiece).filter (fun e => e.1 != p.i) = rest.map d.fillPiece := by
      rw [List.map_cons, List.filter_cons_of_neg (by simp [Desc.fillPiece]), List.filter_eq_self]
      intro e he
      obtain ⟨x, hx, rfl⟩ := List.mem_map.1 he
      simpa [Desc.fillPiece] using piecesOf_apart whole (.inr hx)
    refine ⟨if landed.contains (p.own / 8) then landed else landed ++ [p.own / 8], ?_⟩
    rw [Desc.filling, ← left, List.map_append]
    exact State.sole.modDesc (d := d.filling done (p :: rest) landed) (f := fun e => { e with
      written := e.written ++ [p.i], ready := e.ready.filter (·.1 != p.i)
      landed := if e.landed.contains (p.own / 8) then e.landed else e.landed ++ [p.own / 8] }) kept fun _ => rfl
  others m hm := by
    obtain ⟨_, _, _, _, _, _, _, _, changed⟩ := written.frame
    refine (v.modDesc_spring_other _ _ hm).trans ?_
    rw [changed]
    exact h.others m hm
  frame := by
    obtain ⟨springs, _, _, _, _, _, _, _, _, frame⟩ := h.frame
    obtain ⟨mem, rows, lakes, weir, cnt, group, ps, inPond, changed⟩ := written.frame
    refine ⟨(v.landed n d.seq p.i (p.own / 8)).springs, mem, rows, lakes, weir, cnt, group, ps, inPond, ?_⟩
    rw [changed, frame]
    rfl
  clean r was := written.clean r (h.clean r was)
  armed := (written.armed n).trans h.armed
  waiters := (written.waiters n).trans h.waiters
  words a := by
    refine (written.words a).trans ?_
    rw [h.words, List.any_append, List.any_cons, List.any_nil, Bool.or_false, Piece.holds]
    by_cases inside : p.own ≤ a ∧ a < p.own + p.n
    · rw [if_pos inside, if_pos (by simp [inside]), Desc.fillPiece, List.getD_replicate _ (by omega)]
    · rw [if_neg inside]
      simp only [← Bool.decide_and, decide_eq_false inside, Bool.or_false]

/-- A FILL lands every piece that is left (R182). -/
theorem State.Filled.lands (unslated : dSlate d.w = false) (own : s.ownClean n d = true) (unarmed : (s.lake n).injArm = false)
    (idle : s.landWaits n d.seq = false) (draining : s.draining = false) (sound : d.removed = false ∧ d.cut = false ∧ d.failed = false)
    (rest : List Piece) : ∀ (done : List Piece) (t : State) (fuel : Nat), piecesOf d.w = done ++ rest → s.Filled n d done rest t → rest.length < fuel →
      s.Filled n d (piecesOf d.w) [] (State.land n d.seq fuel t) := by
  induction rest with
  | nil =>
    intro done t fuel whole inv enough
    obtain ⟨fuel, rfl⟩ := Nat.exists_eq_succ_of_ne_zero (Nat.ne_of_gt enough)
    obtain ⟨landed, sole⟩ := inv.desc
    have desc : t.desc n d.seq = some (d.filling done [] landed) := sole.desc
    have ends : State.land n d.seq (fuel + 1) t = t := by
      rw [State.land, desc]
      dsimp only
      split <;> rfl
    rw [ends, whole, List.append_nil]
    exact inv
  | cons p rest ih =>
    intro done t fuel whole inv enough
    obtain ⟨fuel, rfl⟩ := Nat.exists_eq_succ_of_ne_zero (Nat.ne_of_gt (Nat.zero_lt_of_lt enough))
    obtain ⟨landed, sole⟩ := inv.desc
    obtain ⟨_, _, _, _, _, _, _, _, _, frame⟩ := inv.frame
    have desc : t.desc n d.seq = some (d.filling done (p :: rest) landed) := sole.desc
    have member : p ∈ piecesOf d.w := by rw [whole]; simp
    obtain ⟨on, pieces⟩ := State.ownClean_iff.1 own
    obtain ⟨clean, lake⟩ := pieces p member
    have waits : t.landWaits n d.seq = false := by rw [State.landWaits, inv.waiters]; exact idle
    have next : (d.filling done (p :: rest) landed).nextLanding = some (d.fillPiece p) := by
      rw [Desc.nextLanding, Desc.filling, List.map_cons, List.find?_cons_of_pos]
      simp [Desc.fillPiece, piecesOf_number whole]
    obtain ⟨v, written, landedOne⟩ := State.landOne_plain (s := t) (n := n) (d := d.filling done (p :: rest) landed) (d.fillPiece p).2
      (pieceOf_piece (d := d) whole) unslated (by rw [frame]; exact on) (by rw [frame]; exact draining) (inv.clean _ clean) (piecesOf_inRow member)
      (by rw [lake]; exact inv.armed.trans unarmed)
    have goes : State.land n d.seq (fuel + 1) t = State.land n d.seq fuel (v.landed n d.seq p.i (p.own / 8)) := by
      rw [State.land, desc]
      dsimp only
      rw [if_neg (by simp [Desc.filling, sound, waits]), next]
      dsimp only
      rw [show (d.fillPiece p).1 = p.i from rfl, landedOne]
      rfl
    rw [goes]
    exact ih (done ++ [p]) _ fuel (by rw [whole, List.append_assoc]; rfl) (inv.next whole written) (Nat.lt_of_succ_lt_succ enough)

end

section
variable {s : State} {n : Fin 24} {d : Desc}

/-- A FILL writes its pattern into every word of its destination at once (R178, R182). -/
theorem exec_fill (h : s.Begins n 6 d) (own : s.ownClean n d = true) (unslated : dSlate d.w = false) (unarmed : (s.lake n).injArm = false)
    (idle : s.landWaits n d.seq = false) :
    ∃ u : State, exec (.fill n) s = .next u.takeUp ∧ s.Filled n d (piecesOf d.w) [] u := by
  have ran : exec (.fill n) s = .next (startDesc 6 n s).takeUp := rfl
  refine ⟨_, ran, ?_⟩
  let b := ((s.beginDesc n d).modDesc n d.seq Desc.asks).modDesc n d.seq fun e =>
    { e with ready := (piecesOf e.w).map fun p => (p.i, List.replicate p.n (fillWord (dSrc e.w))) }
  have desc : b.sole n (d.filling [] (piecesOf d.w) d.landed) := by
    have asked := State.sole.modDesc (f := Desc.asks) h.launched fun _ => rfl
    have given := State.sole.modDesc (d := d.begun.asks) (f := fun e => { e with
      ready := (piecesOf e.w).map fun p => (p.i, List.replicate p.n (fillWord (dSrc e.w))) }) asked fun _ => rfl
    have start : d.filling [] (piecesOf d.w) d.landed = { d.begun.asks with ready := (piecesOf d.w).map fun p => (p.i, List.replicate p.n (fillWord (dSrc d.w))) } := by
      rw [Desc.filling, List.map_nil, ← h.written]
      rfl
    rw [start]
    exact given
  have begun : s.Filled n d [] (piecesOf d.w) b := by
    obtain ⟨springs, cnt, frame⟩ := s.beginDesc_frame n d
    have whole : ∃ springs, b = { s with springs := springs, cnt := cnt } :=
      ⟨b.springs, by rw [show b = ((s.beginDesc n d).modDesc n d.seq Desc.asks).modDesc n d.seq _ from rfl, frame]; rfl⟩
    have others (m : Nat) (hm : m ≠ n) : b.spring m = s.spring m :=
      (State.modDesc_spring_other _ _ _ hm).trans ((State.modDesc_spring_other _ _ _ hm).trans (s.beginDesc_spring_other d hm))
    obtain ⟨springs, whole⟩ := whole
    rw [whole] at desc others ⊢
    exact ⟨⟨d.landed, desc⟩, others, ⟨springs, _, _, _, _, cnt, _, _, _, rfl⟩, fun _ was => was, rfl, rfl, fun _ => rfl⟩
  rw [h.start_moves rfl, h.issue (fun awake => absurd awake (by decide)), if_pos rfl]
  change s.Filled n d (piecesOf d.w) [] (b.landAll n d.seq)
  have found : b.desc n d.seq = some (d.filling [] (piecesOf d.w) d.landed) := desc.desc
  rw [State.landAll, found]
  exact State.Filled.lands unslated own unarmed idle h.draining ⟨h.removed, h.cut, h.failed⟩ (piecesOf d.w) [] b _ rfl begun
    (by rw [Desc.filling, List.length_map]; exact Nat.lt_succ_self _)

end

end Sys2Proof.Machine
end

section
/-!
PROOF. What goes on beside the stored bytes, the Springs, the cues and the context slots (O18, O21): pond cycles that read, checks, counts,
responses and waits change none of them, and take back nothing that was sent.
-/
namespace Sys2Proof.Machine

-- One theorem after another: elaborated side by side, these theorems would each hold a thread and its stack.
set_option Elab.async false

/-- From `s` to `t` no byte, Spring, cue or context slot has changed, no time has passed, and nothing that was sent is taken back. -/
structure Undisturbed (s t : State) : Prop where
  mem : t.mem = s.mem
  springs : t.springs = s.springs
  cues : t.cues = s.cues
  ctxs : t.ctxs = s.ctxs
  pw : t.pw = s.pw
  tm : t.tm = s.tm
  variant : t.variant = s.variant
  out : s.out ⊆ t.out

/-- What every step of an access keeps (`R`) is kept where nothing is disturbed, and from step to step. -/
structure Absorbs (R : State → State → Prop) : Prop where
  undisturbed : ∀ {s t}, Undisturbed s t → R s t
  trans : ∀ {a b c}, R a b → R b c → R a c

theorem Undisturbed.refl (s : State) : Undisturbed s s := ⟨rfl, rfl, rfl, rfl, rfl, rfl, rfl, List.Subset.refl _⟩

theorem Undisturbed.trans {a b c : State} (h : Undisturbed a b) (k : Undisturbed b c) : Undisturbed a c :=
  ⟨k.mem.trans h.mem, k.springs.trans h.springs, k.cues.trans h.cues, k.ctxs.trans h.ctxs, k.pw.trans h.pw, k.tm.trans h.tm,
    k.variant.trans h.variant, fun _ ho => k.out (h.out ho)⟩

theorem Undisturbed.absorbs : Absorbs Undisturbed := ⟨id, Undisturbed.trans⟩

theorem Undisturbed.either {r s t : State} {c : Prop} [Decidable c] (h : Undisturbed r s) (k : Undisturbed r t) : Undisturbed r (if c then s else t) := by
  split
  · exact h
  · exact k

section
variable {r s t : State} (h : Undisturbed r s)
include h

/-- A change of none of what is kept. -/
theorem Undisturbed.set (mem : t.mem = s.mem := by rfl) (springs : t.springs = s.springs := by rfl) (cues : t.cues = s.cues := by rfl)
    (ctxs : t.ctxs = s.ctxs := by rfl) (pw : t.pw = s.pw := by rfl) (tm : t.tm = s.tm := by rfl) (variant : t.variant = s.variant := by rfl)
    (out : t.out = s.out := by rfl) : Undisturbed r t :=
  h.trans ⟨mem, springs, cues, ctxs, pw, tm, variant, by rw [out]; exact List.Subset.refl _⟩

theorem Undisturbed.emit (o : Out) : Undisturbed r (s.emit o) :=
  h.trans ⟨rfl, rfl, rfl, rfl, rfl, rfl, rfl, List.subset_cons_self o s.out⟩

theorem Undisturbed.foldl {α : Type} {f : State → α → State} (hf : ∀ s, Undisturbed r s → ∀ x, Undisturbed r (f s x)) (l : List α) :
    Undisturbed r (l.foldl f s) := by
  induction l generalizing s with
  | nil => exact h
  | cons x l ih => exact ih (hf s h x)

/-! ### Counts and records -/

theorem Undisturbed.count (o : Occ) : Undisturbed r (s.count o) := by
  obtain ⟨cnt, counted⟩ := s.count_frame o
  rw [counted]
  exact h.set

theorem Undisturbed.countLake (n ev : Nat) (quals : List Nat) (label : Option Nat) (k : Nat) : Undisturbed r (s.countLake n ev quals label k) :=
  h.count _

theorem Undisturbed.log (cls : Nat) (st : Status) (source : Nat) (pr : Principal) (detail addr : Nat) :
    Undisturbed r (s.log cls st source pr detail addr) := by
  obtain ⟨err, reported⟩ := s.report_frame ⟨s.pw.ns, 0, cls, st.code, source, pr.engine.toNat, pr.tid.toNat, detail, 1, addr⟩
  rw [State.log, reported]
  exact h.set

theorem Undisturbed.deadlines (w : Who) (op : Op) (lake : Bool) (dst : Option Nat) (valid : Nat) : Undisturbed r (s.deadlines w op lake dst valid) := by
  obtain ⟨weir, judged⟩ := s.deadlines_frame w op lake dst valid
  rw [judged]
  exact h.set

/-! ### Rows and their checks (R43, R306 to R312) -/

theorem Undisturbed.setSlate (row : Nat) (sl : Slate) : Undisturbed r (s.setSlate row sl) := by
  obtain ⟨rows, lakes, set⟩ := s.setSlate_frame row sl
  rw [set]
  exact h.set

theorem Undisturbed.spend (w : Who) (row : Nat) (grp : Option Grp) : Undisturbed r (s.spend w row grp) := by
  cases grp with
  | none =>
    obtain ⟨rows, lakes, cnt, spent⟩ := s.spend_frame w row
    rw [spent]
    exact h.set
  | some g => exact h

theorem Undisturbed.moved (w : Who) (n k : Nat) : Undisturbed r (s.moved w n k) := by
  rw [State.moved]
  dsimp only
  split
  · exact h.countLake ..
  · exact (h.countLake n 0x06 w.quals (some w.label) k).set

theorem Undisturbed.poisonHit (w : Who) (row : Nat) : Undisturbed r (s.poisonHit w row) :=
  (h.countLake (lakeOf row) 0x0C w.quals (some w.label) 1).set

theorem Undisturbed.foundBad (w : Option Who) (row : Nat) (us : List Nat) (finder : Nat) : Undisturbed r (s.foundBad w row us finder) := by
  obtain ⟨err, found⟩ := State.foundBad_frame (s := s) (row := row) (us := us) (finder := finder) w
  rw [found]
  exact h.set

theorem Undisturbed.foundCorr (row : Nat) (us : List Nat) (finder : Nat) : Undisturbed r (s.foundCorr row us finder) := by
  obtain ⟨cnt, err, found⟩ := State.foundCorr_frame (s := s) (row := row) (us := us) (finder := finder)
  rw [found]
  exact h.set

theorem Undisturbed.mark (row : Nat) (stale : Bool) : Undisturbed r (s.mark row stale) := by
  cases stale with
  | false => exact h.set
  | true => exact (h.setSlate row .stale).set

theorem Undisturbed.checkRow (w : Option Who) (row finder : Nat) (t : RowTag) (grp : Option Grp) : Undisturbed r (s.checkRow w row finder t grp) := by
  rw [State.checkRow]
  split
  · exact h
  · extract_lets corrected found u
    have hc : Undisturbed r corrected := by
      dsimp only [corrected]
      split
      · exact h.foundCorr ..
      · exact h
    have hf : Undisturbed r found := by
      dsimp only [found]
      split
      · exact hc.foundBad ..
      · exact hc
    split
    · refine Undisturbed.set (s := if u.bad ≠ [] then _ else _) ?_
      split
      · exact (hf.set (t := found.setTag row { u with corr := [] })).mark ..
      · exact hf.set
    · split
      · exact hf.set
      · exact hf

theorem Undisturbed.alone (row : Nat) : Undisturbed r (s.alone row) := h.set

theorem Undisturbed.joinGroup (grp : Option Grp) (row k : Nat) (old : List Word) (tag : RowTag) (ws atoms : List Nat) (checked : Bool) :
    Undisturbed r (s.joinGroup grp row k old tag ws atoms checked) := h.set

theorem Undisturbed.readRow (w : Who) (grp : Option Grp) (x : RowReq) : Undisturbed r (readRow s w grp x).2 := by
  rw [Machine.readRow]
  dsimp only
  refine (Undisturbed.countLake (Undisturbed.joinGroup ?_ ..) ..).moved ..
  split
  · exact ((h.spend ..).checkRow ..).poisonHit ..
  · exact (h.spend ..).checkRow ..

/-! ### Responses and what ends (R216, R225, R239) -/

theorem Undisturbed.hostCpl (tag w : Nat) (c : Cpl) : Undisturbed r (s.hostCpl tag w c) := by
  rw [State.hostCpl]
  dsimp only
  split
  · exact h.emit _
  · exact h.set.foldl (fun s hs c => hs.emit _) _

theorem Undisturbed.respond (w : Who) (dst : Option Nat) (op : Op) (q : Req) (opnd : List Word) (st : Status) (data : List Word)
    (from_ lat backoff : Nat) : Undisturbed r (s.respond w dst op q opnd st data from_ lat backoff) := by
  have judged := h.deadlines w op true (dst.map Config.lakePos) (from_ + lat)
  rw [State.respond]
  dsimp only
  split
  · exact h.set
  · split
    · split
      · exact judged
      · exact judged.hostCpl ..
    · exact judged.set
    · exact judged.emit _

theorem Undisturbed.refuse (w : Who) (op : Op) (q : Req) (st : Status) (rec : Option (Nat × Nat × Nat)) (addr : Nat) (dst : Option Nat) (lat : Nat) :
    Undisturbed r (s.refuse w op q st rec addr dst lat) := by
  unfold State.refuse
  refine Undisturbed.respond ?_ ..
  split
  · exact h.log ..
  · exact h

theorem Undisturbed.finishPart (rid part : Nat) (st : Status) (data : List Word) (backoff : Nat) :
    Undisturbed r (s.finishPart rid part st data backoff) := by
  rw [State.finishPart]
  split
  · exact h
  · dsimp only
    split
    · exact h.set.respond ..
    · exact h.set

theorem Undisturbed.reply (src : Src) (st : Status) (v : BitVec 64) : Undisturbed r (s.reply src st v) := h.emit _

theorem Undisturbed.dropWaiter (n : Nat) (e : Waiter) (st : Status) (backoff : Nat) : Undisturbed r (s.dropWaiter n e st backoff) := by
  rw [State.dropWaiter]
  split
  · exact h.set.finishPart ..
  · exact (h.set.deadlines ..).reply ..
  · exact h.set

theorem Undisturbed.releaseWaiters (n : Nat) (p : Waiter → Bool) (st : Status) (backoff : Nat) :
    Undisturbed r (s.releaseWaiters n p st backoff) := h.foldl (fun _ hs _ => hs.dropWaiter ..) _

theorem Undisturbed.endTake (n t cause : Nat) (st : Status) : Undisturbed r (s.endTake n t cause st) := by
  rw [State.endTake]
  dsimp only
  split
  · exact h.set.releaseWaiters ..
  · exact h

theorem Undisturbed.takeOutcome (n : Nat) (m : Mode) (st : Status) : Undisturbed r (s.takeOutcome n m st) := by
  rw [State.takeOutcome]
  split
  · split
    · exact h.endTake ..
    · exact h
  · exact h

/-! ### Waits, wakes and places in the ponds (R38, R58, R223, R341) -/

theorem Undisturbed.place (w : Who) (n : Nat) (op : Op) (m : Mode) (joins : Bool) (rows : List RowReq) :
    Undisturbed r (s.place w n op m joins rows).2 := by
  have begun : Undisturbed r (if joins = true then s else { s with group := [], ps := ⟨[], []⟩ }) := by
    cases joins
    · exact h.set
    · exact h
  rw [State.place]
  generalize (if joins = true then s else { s with group := [], ps := ⟨[], []⟩ }) = b at begun ⊢
  refine Undisturbed.either begun.set ?_
  exact ((begun.set.countLake ..).countLake ..).foldl (fun _ hs _ => hs.set) _

theorem Undisturbed.inPonds (w : Who) (n t : Nat) : Undisturbed r (s.inPonds w n t) := h.set

theorem Undisturbed.claim (w : Who) : Undisturbed r (s.claim w) := h.set

theorem Undisturbed.backoffClear (pt : RetryPt) (i : Ident) : Undisturbed r (s.backoffClear pt i) := h.set

theorem Undisturbed.turnAway (pt : RetryPt) (i : Ident) : Undisturbed r (s.turnAway pt i).2 := h.set

theorem Undisturbed.wait (n : Nat) (w : Who) (what : Waiting) (rows : List Nat) : Undisturbed r (s.wait n w what rows).2 := by
  rw [State.wait]
  split
  · exact (h.turnAway ..).countLake ..
  · exact (((h.set (t := s.fresh1.2)).backoffClear ..).countLake (n := n) (ev := 0x18) (quals := w.quals) (label := some w.label) (k := 1)).set

theorem Undisturbed.wakeIdle (n : Nat) : Undisturbed r (s.wakeIdle n) := by
  obtain ⟨cnt, lpow, woken⟩ := s.wakeIdle_frame n
  rw [woken]
  exact h.set

theorem Undisturbed.wakeDown (n : Nat) (setOn : Bool) : Undisturbed r (s.wakeDown n setOn) := by
  rw [State.wakeDown]
  split <;> exact h.set

theorem Undisturbed.holdAt (w : Who) (op : Op) (q : Req) (data : List Word) (v : View) (n w0 : Nat) :
    Undisturbed r (s.holdAt w op q data v n w0) := by
  have woken : Undisturbed r (if (s.lp n).state = .ret then s.wakeDown n true else s.wakeIdle n) := by
    split
    · exact h.wakeDown ..
    · exact h.wakeIdle _
  rw [State.holdAt]
  generalize (if (s.lp n).state = .ret then s.wakeDown n true else s.wakeIdle n) = b at woken ⊢
  split
  · exact (woken.claim w).set
  · exact ((woken.countLake n 0x11 w.quals (some w.label) 1).claim w).set

theorem Undisturbed.refuseAt (w : Who) (op : Op) (q : Req) (v : View) (n w0 : Nat) (st : Status) (rec : Option (Nat × Nat)) :
    Undisturbed r (s.refuseAt w op q v n w0 st rec) := by
  rw [State.refuseAt]
  refine Undisturbed.refuse ?_ ..
  split
  · exact (h.countLake n 0x0D w.quals (some w.label) 1).set
  · exact h

theorem Undisturbed.modWin (k : Nat) (f : Win → Win) : Undisturbed r (s.modWin k f) := h.set

theorem Undisturbed.windowCheck (w : Who) (op : Op) (q : Req) (n w0 addr : Nat) : Undisturbed r (windowCheck s w op q n w0 addr).2 := by
  rw [Machine.windowCheck]
  dsimp only
  split
  · split
    · exact h.log ..
    · split
      · exact h.log ..
      · split
        · exact h.log ..
        · split
          · exact h.log ..
          · exact h.set.countLake ..
  · split
    · dsimp only
      refine Undisturbed.modWin ?_ ..
      split
      · exact h.countLake ..
      · exact (h.countLake ..).log ..
    · exact h.log ..

end

end Sys2Proof.Machine
end

section
/-!
PROOF. A request at its lake (O18, O20): what each of its row requests keeps, the whole request keeps, and one that reads disturbs nothing (R146,
R216).
-/
namespace Sys2Proof.Machine

-- One theorem after another: elaborated side by side, these theorems would each hold a thread and its stack.
set_option Elab.async false

/-! ### Row requests that read (R24, R217) -/

section
variable {r s : State} (h : Undisturbed r s)
include h

theorem Undisturbed.slatedRow (w : Who) (grp : Option Grp) {m : Mode} (reads : m.reads = true) (x : RowReq) :
    Undisturbed r (slatedRow s w grp m x).2 := by
  have spent := h.spend w x.row grp
  have closes {t : State} (ht : Undisturbed r t) (old : List Word) (tag : RowTag) :
      Undisturbed r (if m.alone = true then t.alone x.row else t.joinGroup grp x.row (shoreRank w x.row) old tag [] [] true) :=
    (ht.alone _).either (ht.joinGroup ..)
  have checked (tag : RowTag) := spent.checkRow (some w) x.row 0 tag grp
  have notProduce : m ≠ .produce := by
    rintro rfl
    exact absurd reads (by decide)
  rw [Machine.slatedRow]
  simp only [reads, Bool.true_or, if_true]
  split
  · exact closes (checked _) _ _
  · split
    · exact closes (checked _) _ _
    · split
      · exact closes ((checked _).poisonHit ..) _ _
      · split
        · exact closes (checked _) _ _
        · split
          · exact closes (checked _) _ _
          · simp only [notProduce, decide_false, Bool.and_false, Bool.false_eq_true, if_false]
            refine Undisturbed.either (Undisturbed.alone ?_ _) ?_
            all_goals exact ((h.readRow ..).setSlate ..).either (h.readRow ..)

theorem Undisturbed.rowAccess (w : Who) (joined : Bool) {m : Mode} (reads : m.reads = true) (x : RowReq) :
    Undisturbed r (rowAccess s w .read joined m x).2 := by
  rw [Machine.rowAccess]
  split
  · exact h.countLake ..
  · dsimp only
    refine Undisturbed.either (Undisturbed.alone ?_ _) ?_
    all_goals
      split
      · exact h.readRow ..
      · exact h.slatedRow _ _ reads _

end

/-! ### The parts of a request, and the whole (R38, R216) -/

/-- What is answered of a request's parts: its response, where each has completed, or else they wait; and what a row found spoilt ends (R216,
R239). -/
def State.answerParts (s : State) (w : Who) (op : Op) (m : Mode) (q here : Req) (n : Nat) (data : List Word) (lat : Nat)
    (os : List (Option (Status × List Word × Nat))) : State :=
  let done := os.filterMap id
  let s := if os.all Option.isSome then
      s.respond w (some n) op q data (firstStatus (done.map (·.1))) ((done.map (·.2.1)).flatten) s.pw.now lat (done.foldl (fun b o => max b o.2.2) 0)
    else { s with flights := s.flights ++ [⟨w.id, w, op, here, q.addr, data, os, lat, s.pw.now⟩] }
  done.foldl (fun s o => s.takeOutcome n m o.1) s

theorem State.answerParts_undisturbed (s : State) (w : Who) (op : Op) (m : Mode) (q here : Req) (n : Nat) (data : List Word) (lat : Nat)
    (os : List (Option (Status × List Word × Nat))) : Undisturbed s (s.answerParts w op m q here n data lat os) := by
  have h := Undisturbed.refl s
  exact ((h.respond ..).either h.set).foldl (fun _ hs _ => hs.takeOutcome ..) _

theorem State.perform_parts (s : State) (w : Who) (op : Op) (m : Mode) (q : Req) (data : List Word) (w0 : Nat) : ∃ here lat fit t,
    s.perform w op q data w0 m =
      let n := lakeOf (wordRow w0)
      let b := ((s.place w n op m q.joins (partsOf op q w0 data).flatten).2.claim w).inPonds w n t
      let x := partsAccess w op here w0 m w.id b 0 fit (partsOf op q w0 data)
      x.2.answerParts w op m q here n data lat x.1 := ⟨_, _, _, _, rfl⟩

section
variable {R : State → State → Prop} (a : Absorbs R) {w : Who} {op : Op} {m : Mode} (rows : ∀ s joined r, R s (rowAccess s w op joined m r).2)
include a rows

theorem rowsAccess_absorbed (rs : List RowReq) (s : State) (fit : Nat) : R s (rowsAccess w op m s fit rs).2 := by
  induction rs generalizing s fit with
  | nil => exact a.undisturbed (.refl s)
  | cons x rs ih => exact a.trans (rows s _ x) (ih _ _)

theorem partAccess_absorbed (q : Req) (w0 fit : Nat) (rs : List RowReq) (s : State) : R s (partAccess s w op q w0 m fit rs).2 := by
  have counted (ev k : Nat) : R s (rowsAccess w op m (s.countLake (lakeOf (wordRow w0)) ev w.quals (some w.label) k) fit rs).2 :=
    a.trans (a.undisturbed ((Undisturbed.refl s).countLake ..)) (rowsAccess_absorbed a rows rs _ fit)
  unfold partAccess
  split <;> dsimp only <;> rw [apply_ite Prod.snd, ite_self]
  · exact counted ..
  · exact counted ..
  · exact rowsAccess_absorbed a rows rs s fit

theorem partsAccess_absorbed (q : Req) (w0 rid : Nat) (parts : List (List RowReq)) (s : State) (i fit : Nat) :
    R s (partsAccess w op q w0 m rid s i fit parts).2 := by
  induction parts generalizing s i fit with
  | nil => exact a.undisturbed (.refl s)
  | cons x parts ih =>
    have part := partAccess_absorbed a rows q w0 fit x s
    rw [partsAccess]
    dsimp only
    refine a.trans (a.trans part (a.undisturbed ?_)) (ih _ _ _)
    split
    · exact (Undisturbed.refl _).either ((Undisturbed.refl _).backoffClear ..)
    · exact (Undisturbed.refl _).wait ..

theorem State.perform_absorbed (s : State) (q : Req) (data : List Word) (w0 : Nat) : R s (s.perform w op q data w0 m) := by
  obtain ⟨here, lat, fit, t, parts⟩ := s.perform_parts w op m q data w0
  rw [parts]
  exact a.trans (a.undisturbed ((((Undisturbed.refl s).place ..).claim w).inPonds ..))
    (a.trans (partsAccess_absorbed a rows ..) (a.undisturbed (State.answerParts_undisturbed ..)))

theorem State.startAccess_absorbed (s : State) (q : Req) (data : List Word) (n w0 : Nat) : R s (s.startAccess w op q data n w0 m) := by
  rw [State.startAccess]
  dsimp only
  split
  · exact s.perform_absorbed a rows q data w0
  · split
    · exact a.undisturbed (((Undisturbed.refl s).countLake ..).respond ..)
    · split
      · exact a.undisturbed ((((Undisturbed.refl s).turnAway ..).countLake ..).respond ..)
      · exact s.perform_absorbed a rows q data w0

end

section
variable {R : State → State → Prop} (a : Absorbs R) {w : Who} {op : Op} {q : Req} {v : View}
  (rows : ∀ t n s joined r, R s (rowAccess s w op joined (modeOf t n op q v) r).2)
include a rows

theorem State.atLake_absorbed (s : State) (data : List Word) (w0 : Nat) (woken : Bool) : R s (s.atLake w op q data v w0 woken) := by
  rw [State.atLake]
  dsimp only
  split
  · exact a.undisturbed ((Undisturbed.refl s).refuseAt ..)
  · exact a.undisturbed ((Undisturbed.refl s).holdAt ..)
  · have checked : Undisturbed s (if (w.arrival.isSome && opWrites op && !woken) = true then
        Machine.windowCheck s w op q (lakeOf (wordRow w0)) w0 (wordAddr v w0) else (none, s)).2 := by
      split
      · exact (Undisturbed.refl s).windowCheck ..
      · exact .refl s
    generalize (if (w.arrival.isSome && opWrites op && !woken) = true then
        Machine.windowCheck s w op q (lakeOf (wordRow w0)) w0 (wordAddr v w0) else (none, s)) = verdict at checked ⊢
    split
    · exact a.undisturbed (checked.refuseAt ..)
    · split
      · exact a.undisturbed (checked.holdAt ..)
      · split
        · exact a.undisturbed (checked.refuseAt ..)
        · exact a.undisturbed checked
        · exact a.trans (a.undisturbed checked) (State.startAccess_absorbed a (rows _ _) _ q data _ w0)

end

/-! ### A Spring's canal request (R178) -/

/-- A read that names no take slot is performed as one that reads. -/
theorem modeOf_reads (s : State) (n : Nat) {q : Req} (v : View) (unslotted : slotNamed q = none) : (modeOf s n .read q v).reads = true := by
  unfold modeOf
  rw [unslotted]
  cases v <;> rfl

theorem State.springCanal_absorbed {R : State → State → Prop} (a : Absorbs R) (s : State) (n : Nat) (d : Desc) (i : Nat) (op : Op) (x : BitVec 64)
    (words : Nat) (data : List Word) (global : Bool)
    (rows : ∀ w q v t n s joined r, slotNamed q = none → R s (rowAccess s w op joined (modeOf t n op q v) r).2) :
    R s (s.springCanal n d i op x words data global) := by
  rw [State.springCanal]
  split
  · exact a.trans (a.undisturbed ((Undisturbed.refl s).count _))
      (State.atLake_absorbed a (fun t n s joined r => rows _ _ _ t n s joined r rfl) _ data _ false)
  · exact a.undisturbed (((Undisturbed.refl s).count _).refuse ..)
  · exact a.undisturbed (((Undisturbed.refl s).count _).refuse ..)

/-- A Spring's read of a lake of its die disturbs nothing but what a request leaves behind it (R178). -/
theorem State.springCanal_read (s : State) (n : Nat) (d : Desc) (i : Nat) (x : BitVec 64) (words : Nat) (global : Bool) :
    Undisturbed s (s.springCanal n d i .read x words [] global) :=
  s.springCanal_absorbed Undisturbed.absorbs n d i .read x words [] global
    fun _ _ v t n s _ _ unslotted => (Undisturbed.refl s).rowAccess _ _ (modeOf_reads t n v unslotted) _

end Sys2Proof.Machine
end

section
/-!
PROOF. Copies and no-operations that start (O18), and what each kind of transfer asks for, settled (R178, R181, R182, R205).
-/
namespace Sys2Proof.Machine

-- One theorem after another: elaborated side by side, these theorems would each hold a thread and its stack.
set_option Elab.async false

section
variable {s : State} {n : Fin 24} {d : Desc}

/-! ### A COPY (R178) -/

/-- From `s` to `t` no byte, cue or context slot has changed. -/
structure State.DataKept (s t : State) : Prop where
  mem : t.mem = s.mem
  cues : t.cues = s.cues
  ctxs : t.ctxs = s.ctxs

theorem exec_copy (h : s.Begins n 5 d) :
    ∃ u : State, exec (.copy n) s = .next u.takeUp ∧ u.desc n d.seq = some d.started ∧ (∀ m, m ≠ n.val → u.spring m = s.spring m) ∧ s.DataKept u := by
  have ends := h.transfers (P := fun _ t => s.DataKept t) rfl (by decide) (fun own => absurd own (by decide)) (fun _ _ => ⟨rfl, rfl, rfl⟩) ?_
  · exact ⟨_, rfl, ends⟩
  · intro done p rest whole t issued kept
    rw [issuePiece_copy (p := p) issued.desc (h.sound done) h.kind]
    have asked := (t.ask n d.seq p.i).springCanal_read n (d.askedFor done) p.i p.other p.n false
    exact ⟨(issued.ask p).congr asked.springs, asked.mem.trans kept.mem, asked.cues.trans kept.cues, asked.ctxs.trans kept.ctxs⟩

/-! ### A NOP (R178) -/

/-- A NOP that has ended in its start. -/
def Desc.ends (d : Desc) : Desc := { d with stage := .ended }

/-- The depth of a Spring follows a descriptor that ends, which touches no descriptor (R186). -/
theorem Spring.adjust_descs (x : Spring) (d : Desc) : (x.adjust d).descs = x.descs := by
  simp only [Spring.adjust, apply_ite Spring.descs, ite_self]

/-- A NOP that starts has ended, and the Spring's depth follows it (R178, R186). -/
theorem State.Begins.start_nop (h : s.Begins n 0 d) : ∃ springs cnt t, startDesc 0 n s = t ∧ t = { s with springs := springs, cnt := cnt } ∧
    t.sole n d.ends ∧ ∀ m, m ≠ n.val → t.spring m = s.spring m := by
  obtain ⟨cnt, counted⟩ := s.count_frame { set := .spring, inst := n, ev := 0x42, quals := d.quals, label := some d.slot.label }
  let b := ({ s with cnt := cnt }).modDesc n d.seq Desc.ends
  obtain ⟨cnt', counted'⟩ := b.count_frame { set := .spring, inst := n, ev := 0x43, quals := d.quals, label := some d.slot.label }
  let u := ({ b with cnt := cnt' }).modSpring n fun x => x.adjust d
  have start : startDesc 0 n s = u.meetOrder n := by
    calc startDesc 0 n s
      _ = ((((s.countSpring n 0x42 1 (some d.slot.label) d.quals).modDesc n d.seq Desc.ends).countSpring n 0x43 1 (some d.slot.label)
          d.quals).modSpring n fun x => x.adjust d).meetOrder n := by rw [startDesc, h.next]; rfl
      _ = u.meetOrder n := by
        rw [show s.countSpring n 0x42 1 (some d.slot.label) d.quals = { s with cnt := cnt } from counted,
          show b.countSpring n 0x43 1 (some d.slot.label) d.quals = { b with cnt := cnt' } from counted']
  have ended : b.sole n d.ends := State.sole.modDesc (f := Desc.ends) (State.sole.congr h.sole rfl) fun _ => rfl
  have adjusted : u.sole n d.ends := State.sole.modSpring (State.sole.congr ended rfl) fun x => x.adjust_descs d
  have met := u.meetOrder_marksMet n
  obtain ⟨springs, frame⟩ := met.frame
  refine ⟨springs, cnt', _, start, frame, met.sole adjusted ?_, fun m hm => ?_⟩
  · rw [show dKind d.ends.w = 0 from h.kind]
    decide
  · rw [State.meetOrder, State.modSpring_spring_other _ _ _ _ hm]
    exact (State.modSpring_spring_other _ _ _ _ hm).trans (State.modDesc_spring_other _ _ _ hm)

theorem exec_nop (h : s.Begins n 0 d) :
    ∃ u : State, exec (.nop n) s = .next u.takeUp ∧ u.desc n d.seq = some { d with stage := .ended } ∧
      (∀ m, m ≠ n.val → u.spring m = s.spring m) ∧ ∃ springs cnt, u = { s with springs := springs, cnt := cnt } := by
  obtain ⟨springs, cnt, t, start, frame, sole, others⟩ := h.start_nop
  exact ⟨t, by rw [← start]; rfl, sole.desc, others, springs, cnt, frame⟩

end

/-! ### Transfers, settled -/

/-- Settles O18: what holds of the pieces asked for so far, or landed so far, holds of all of them in the end. -/
theorem transfersAskCopyAndFill : Obligations.TransfersAskCopyAndFill := by
  refine ⟨fun s n d => ⟨fun load => ?_, fun store own => ?_, fun pull => ?_, fun push own far => ?_⟩,
    fun s n d => ⟨fun copy => ?_, fun fill own unslated unarmed idle => ?_, fun nop => ?_⟩⟩
  · obtain ⟨u, ran, desc, others, springs, cnt, frame⟩ := exec_load (State.begins_iff.1 load)
    exact ⟨u, ran, desc, by rw [frame]; rfl, others, by rw [frame]⟩
  · obtain ⟨u, ran, desc, others, ⟨springs, lakes, rows, weir, basin, cnt, group, ps, inPond, frame⟩, -⟩ := exec_store (State.begins_iff.1 store) own
    exact ⟨u, ran, desc, by rw [frame]; rfl, others, by rw [frame]⟩
  · obtain ⟨u, ran, desc, others, asked, springs, remotes, nextId, cnt, out, frame⟩ := exec_pull (State.begins_iff.1 pull)
    exact ⟨u, ran, desc, asked.out, asked.remotes, others, by rw [frame]⟩
  · obtain ⟨u, ran, desc, others, asked, ⟨springs, remotes, nextId, lakes, rows, weir, cnt, group, ps, inPond, out, frame⟩, -, -⟩ :=
      exec_push (State.begins_iff.1 push) own far
    exact ⟨u, ran, desc, asked.out, asked.remotes, others, by rw [frame]⟩
  · obtain ⟨u, ran, desc, others, kept⟩ := exec_copy (State.begins_iff.1 copy)
    exact ⟨u, ran, desc, kept.mem, kept.cues, kept.ctxs, others⟩
  · obtain ⟨u, ran, filled⟩ := exec_fill (State.begins_iff.1 fill) own unslated unarmed idle
    obtain ⟨landed, sole⟩ := filled.desc
    obtain ⟨springs, mem, rows, lakes, weir, cnt, group, ps, inPond, frame⟩ := filled.frame
    exact ⟨u, ran, ⟨_, sole.desc, rfl, rfl, rfl⟩, filled.words, filled.others, by rw [frame]⟩
  · obtain ⟨u, ran, desc, others, springs, cnt, frame⟩ := exec_nop (State.begins_iff.1 nop)
    exact ⟨u, ran, desc, others, by rw [frame]⟩

end Sys2Proof.Machine
end

section
/-!
PROOF. A cut of a Spring (O21): the write cancels the descriptors at or after its number, and the cut ends once what they issued has ended (R187,
R188, R190).
-/
namespace Sys2Proof.Machine

-- One theorem after another: elaborated side by side, these theorems would each hold a thread and its stack.
set_option Elab.async false

/-! ### `SPR_CUT` (R187) -/

/-- A cut at `a` cancels the descriptor. -/
def Desc.cutBy (a : Nat) (d : Desc) : Bool := d.stage != .ended && !d.removed && seqAtOrAfter d.seq a

/-- The sequence numbers that a cut at `a` cancels, in slots that have been read and in those that have not. -/
def Spring.cutSeqs (x : Spring) (a : Nat) : List Nat :=
  (x.descs.filter (Desc.cutBy a)).map (·.seq) ++ ((x.slots.filter (!·.read)).map (Slot.cuts a)).flatten

/-- What a cut at `a` leaves of a Spring, where `waits` tells the descriptors with a landing write under way. -/
def Spring.cutAt (x : Spring) (a : Nat) (seqs : List Nat) (waits : Desc → Bool) (hit : Desc → Bool) : Spring :=
  { x with
    cutSeq := BitVec.ofNat 32 a, cancelled := seqs.length, firstSeq := seqs.headD a, cutBusy := seqs != []
    cutDone := x.cutDone || Decidable.decide (seqs = [])
    slots := x.slots.map (Slot.cut a)
    descs := x.descs.map fun d => if hit d then d.cancel (waits d) else d }

/-- How many pieces of read data a cut lets a descriptor keep: the one whose landing write is under way. -/
def State.cutKeeps (s : State) (n : Nat) (d : Desc) : Nat := if s.landWaits n d.seq then 1 else 0

/-- The bytes of read data that a cut at `a` drops. -/
def State.cutDrops (s : State) (n a : Nat) : Nat :=
  (((s.spring n).descs.filter (Desc.cutBy a)).map fun d => unlanded d (d.ready.drop (s.cutKeeps n d))).sum

/-- A cut at `a` is judged: what it cancels is counted, and what it drops. -/
def State.cutSpring (s : State) (n a : Nat) : State :=
  ((s.countSpring n 0x4B ((s.spring n).cutSeqs a).length none).discard n (s.cutDrops n a) none).modSpring n fun x =>
    x.cutAt a ((s.spring n).cutSeqs a) (fun d => s.cutKeeps n d != 0) (Desc.cutBy a)

section
variable {s : State} {src : Src} {n : Fin 24} {v : BitVec 32} (open_ : s.opens src (pageOff n 0x4020) 4 = true) (master : s.mastersLake src n = true)
include open_ master

theorem exec_sprCut : exec (.sprCut src n v) s =
    .next (s.unless0 (s.ctl src (pageOff n 0x4020)) (s.spring n).cutBusy fun s => (s.cutSpring n v.toNat).takeUp.reply src .ok) := by
  have owns : s.owns (s.ctl src (pageOff n 0x4020)).w n = true := master
  have value : bits (v.setWidth 64) 0 32 = v.toNat := by
    rw [bits_setWidth_64, bits, Nat.shiftRight_zero]
    exact Nat.mod_eq_of_lt v.isLt
  refine (ctlCommand_4 open_ (regHere_page n.2 (by decide)) v).trans (congrArg _ ?_)
  show sprCutSet (s.ctl src (pageOff n 0x4020)) n (v.setWidth 64) s = _
  rw [sprCutSet, State.ownerOnly, if_pos owns]
  dsimp only
  rw [value]
  rfl

end

theorem Spring.cutSeqs_length (x : Spring) (a : Nat) : (x.cutSeqs a).length =
    countTrue (Desc.cutBy a) x.descs + ((x.slots.filter (!·.read)).map fun y => (y.cuts a).length).sum := by
  rw [Spring.cutSeqs, List.length_append, List.length_map, List.length_flatten, List.map_map]
  rfl

/-- A cut is busy where it cancels something. -/
theorem Spring.cutSeqs_busy (x : Spring) (a : Nat) : (x.cutSeqs a != []) =
    Decidable.decide (countTrue (Desc.cutBy a) x.descs + ((x.slots.filter (!·.read)).map fun y => (y.cuts a).length).sum ≠ 0) := by
  rw [← Spring.cutSeqs_length, Bool.eq_iff_iff, bne_iff_ne, decide_eq_true_eq, ne_eq, ne_eq, List.length_eq_zero_iff]

theorem State.modSpring_modSpring (s : State) (n : Nat) (f g : Spring → Spring) : (s.modSpring n f).modSpring n g = s.modSpring n fun x => g (f x) := by
  rw [State.modSpring, State.modSpring_spring_same, State.modSpring, State.modSpring, Tab.set_set]

/-- What a cut at `a` changes: its Spring, and what is counted. -/
theorem State.cutSpring_eq (s : State) (n a : Nat) : ∃ cnt, s.cutSpring n a = ({ s with cnt := cnt }).modSpring n fun x =>
    ({ x with discard := (x.discard + s.cutDrops n a) % 2 ^ 64 }).cutAt a ((s.spring n).cutSeqs a) (fun d => s.cutKeeps n d != 0) (Desc.cutBy a) := by
  obtain ⟨cnt, counted⟩ := s.count_frame { set := .spring, inst := n, ev := 0x4B, n := ((s.spring n).cutSeqs a).length }
  obtain ⟨cnt', counted'⟩ := ({ s with cnt := cnt }).count_frame { set := .spring, inst := n, ev := 0x4D, n := s.cutDrops n a }
  refine ⟨cnt', ?_⟩
  calc s.cutSpring n a
    _ = ((State.countSpring { s with cnt := cnt } n 0x4D (s.cutDrops n a) none).modSpring n fun x =>
          { x with discard := (x.discard + s.cutDrops n a) % 2 ^ 64 }).modSpring n fun x =>
          x.cutAt a ((s.spring n).cutSeqs a) (fun d => s.cutKeeps n d != 0) (Desc.cutBy a) := by
      rw [State.cutSpring, State.discard, show s.countSpring n 0x4B ((s.spring n).cutSeqs a).length none = { s with cnt := cnt } from counted]
    _ = _ := by
      rw [show State.countSpring { s with cnt := cnt } n 0x4D (s.cutDrops n a) none = { s with cnt := cnt' } from counted', State.modSpring_modSpring]

section
variable {s : State} {n a : Nat}

theorem State.cutSpring_other {m : Nat} (other : m ≠ n) : (s.cutSpring n a).spring m = s.spring m := by
  obtain ⟨cnt, cut⟩ := s.cutSpring_eq n a
  rw [cut, State.modSpring_spring_other _ _ _ _ other]
  rfl

/-- A descriptor at or after the number of the cut has ended, is cut, or is the abort's (R187, R188). -/
theorem State.cutSpring_cancels {e : Desc} (mem : e ∈ ((s.cutSpring n a).spring n).descs) (after : seqAtOrAfter e.seq a = true) :
    e.stage = .ended ∨ e.cut = true ∨ e.removed = true := by
  obtain ⟨cnt, cut⟩ := s.cutSpring_eq n a
  rw [cut, State.modSpring_spring_same] at mem
  obtain ⟨d, hd, rfl⟩ := List.mem_map.1 mem
  by_cases hit : d.cutBy a = true
  · rw [if_pos hit]
    exact .inr (.inl rfl)
  · rw [if_neg hit] at after ⊢
    simp only [Desc.cutBy, Bool.and_eq_true, bne_iff_ne, Bool.not_eq_true', after, and_true, not_and, Bool.not_eq_false] at hit
    by_cases ended : d.stage = .ended
    · exact .inl ended
    · exact .inr (.inr (hit ended))

end

/-! ### The step that ends what descriptors have landed (R184, R187, R190) -/

/-- The row is one that some descriptors have landed, and that is still RESERVED by them. -/
def State.stepTakes (s : State) (n : Nat) (ds : List Desc) (r : Nat) : Bool :=
  lakeOf r = n && ds.any (fun d => dSlate d.w && (s.spanRows n d).contains r) && ds.any (fun d => dSlate d.w && d.landed.contains r) &&
    ((s.lake n).resTake (lRow r)).isNone && s.slate r = .reserved

section
variable (s : State) (n : Nat) (ds : List Desc) (target : Slate)

theorem State.descStep_slate (r : Nat) : (s.descStep n ds target).slate r = if s.stepTakes n ds r = true then target else s.slate r := by
  rw [State.descStep]
  split
  · next unslated =>
    rw [if_neg]
    intro takes
    simp only [State.stepTakes, Bool.and_eq_true, List.any_eq_true] at takes
    obtain ⟨⟨⟨⟨-, d, hd, slated, -⟩, -⟩, -⟩, -⟩ := takes
    exact absurd slated (by simpa using List.filter_eq_nil_iff.1 unslated d hd)
  · rw [State.rangeStep_slate]
    simp [State.stepTakes, and_assoc, and_left_comm]

theorem State.descStep_frame : ∃ lakes lpow cnt, s.descStep n ds target = { s with lakes := lakes, lpow := lpow, cnt := cnt } := by
  rw [State.descStep]
  split
  · exact ⟨_, _, _, rfl⟩
  · obtain ⟨cnt, lpow, skipped, stepped⟩ := s.rangeStep_frame n (((ds.filter fun d => dSlate d.w).map (s.spanRows n)).flatten)
      (fun r => (ds.filter fun d => dSlate d.w).any (·.landed.contains r) && ((s.lake n).resTake (lRow r)).isNone) target []
    exact ⟨_, lpow, cnt, stepped⟩

variable {s n ds}

theorem State.stepTakes_of_landedBy {d : Desc} {r : Nat} (mem : d ∈ ds) (landed : s.landedBy n d r = true) : s.stepTakes n ds r = true := by
  simp only [State.landedBy, State.stepTakes, Bool.and_eq_true, decide_eq_true_eq, List.any_eq_true] at landed ⊢
  obtain ⟨⟨⟨⟨⟨slated, lake⟩, lands⟩, span⟩, reserved⟩, free⟩ := landed
  exact ⟨⟨⟨⟨lake, d, mem, slated, span⟩, d, mem, slated, lands⟩, free⟩, reserved⟩

theorem State.stepTakes_none {r : Nat} (none_landed : ∀ d ∈ ds, d.landed.contains r = false) : s.stepTakes n ds r = false := by
  have none_any : ds.any (fun d => dSlate d.w && d.landed.contains r) = false :=
    List.any_eq_false.2 fun d hd => by rw [none_landed d hd, Bool.and_false]; exact Bool.false_ne_true
  rw [State.stepTakes, none_any]
  simp

/-- The step of one descriptor takes just the rows that it landed. -/
theorem State.stepTakes_singleton (d : Desc) (r : Nat) : s.stepTakes n [d] r = s.landedBy n d r := by
  rw [Bool.eq_iff_iff]
  simp only [State.stepTakes, State.landedBy, List.any_cons, List.any_nil, Bool.or_false, Bool.and_eq_true]
  tauto

end

/-! ### The end of a cut (R187, R188, R190) -/

/-- A Spring whose cut has ended. -/
def Spring.cutEnds (x : Spring) : Spring :=
  { x with cutBusy := false, cutDone := true
           descs := x.descs.map fun d => if d.cut && !d.removed && d.stage = .flight then { d with stage := .ended } else d }

/-- What is still in flight of a cut that has ended is what an abort has removed since. -/
theorem cutOf_cutEnds (x : Spring) : (cutOf x.cutEnds).all (·.removed) = true := by
  rw [List.all_eq_true]
  intro e he
  obtain ⟨mem, cut⟩ := List.mem_filter.1 he
  obtain ⟨d, -, rfl⟩ := List.mem_map.1 mem
  by_cases ends : (d.cut && !d.removed && Decidable.decide (d.stage = .flight)) = true
  · rw [if_pos ends] at cut
    simp at cut
  · rw [if_neg ends] at cut ⊢
    revert ends cut
    cases d.cut <;> cases d.removed <;> simp

section
variable {s : State} {n : Nat}

theorem State.cutEnd_quiet (busy : (s.spring n).cutBusy = true) (quiet : (cutOf (s.spring n)).all (s.quiet n) = true) (room : s.tableFull n = false) :
    s.cutEnd n = ((s.descStep n ((cutOf (s.spring n)).filter (!·.removed)) .empty).modSpring n Spring.cutEnds).takeUp := by
  rw [State.cutEnd]
  dsimp only
  rw [if_neg (by rw [busy, quiet]; decide), if_neg (by rw [room]; simp)]
  rfl

end

/-! ### A cut, settled -/

section
variable {s : State} {n : Fin 24}

/-- A cut whose descriptors are quiet ends, with the rows that they landed EMPTY. -/
theorem exec_cutComplete (busy : (s.spring n).cutBusy = true) (quiet : (cutOf (s.spring n)).all (s.quiet n) = true) (room : s.tableFull n = false) :
    let ds := (cutOf (s.spring n)).filter (!·.removed)
    ∃ u : State, exec (.cutComplete n) s = .next u.takeUp ∧ (u.spring n).cutBusy = false ∧ (u.spring n).cutDone = true ∧
      (cutOf (u.spring n)).all (·.removed) = true ∧ (∀ r, u.slate r = if s.stepTakes n ds r = true then .empty else s.slate r) ∧
      (∀ m, m ≠ n.val → u.spring m = s.spring m) ∧
      ∃ springs lakes lpow cnt, u = { s with springs := springs, lakes := lakes, lpow := lpow, cnt := cnt } := by
  intro ds
  have slates := s.descStep_slate n ds .empty
  have ran : exec (.cutComplete n) s = .next ((s.descStep n ds .empty).modSpring n Spring.cutEnds).takeUp :=
    congrArg Host.Outcome.next (State.cutEnd_quiet busy quiet room)
  obtain ⟨lakes, lpow, cnt, stepped⟩ := s.descStep_frame n ds .empty
  rw [stepped] at ran slates
  refine ⟨_, ran, ?_, ?_, ?_, slates, fun m hm => State.modSpring_spring_other _ _ _ _ hm, _, lakes, lpow, cnt, rfl⟩
  · rw [State.modSpring_spring_same]; rfl
  · rw [State.modSpring_spring_same]; rfl
  · rw [State.modSpring_spring_same]
    exact cutOf_cutEnds _

end

end Sys2Proof.Machine
end

section
/-!
PROOF. Task aborts (O21): what the start of one removes, what its end leaves of rows and descriptors, and the next that starts (R190, R191, R192,
R319).
-/
namespace Sys2Proof.Machine

-- One theorem after another: elaborated side by side, these theorems would each hold a thread and its stack.
set_option Elab.async false

/-! ### The start of an abort (R190) -/

/-- Every descriptor of a principal in a Spring has ended, or is removed. -/
def Spring.cleared (x : Spring) (p : Principal) : Prop := ∀ e ∈ x.descs, e.slot.pr = p → e.stage = .ended ∨ e.removed = true

theorem Spring.remove_cleared (x : Spring) (p : Principal) : (x.remove p).cleared p := by
  intro e he own
  obtain ⟨d, -, rfl⟩ := List.mem_map.1 he
  by_cases hit : (Decidable.decide (d.slot.pr = p) && d.stage != .ended) = true
  · rw [if_pos hit]
    exact .inr rfl
  · rw [if_neg hit] at own ⊢
    simp only [own, decide_true, Bool.true_and, bne_iff_ne, not_not] at hit
    exact .inl hit

/-- From `s` to `t` descriptors of a principal have been removed in one Spring, no byte and no register of the abort has changed, no time has passed,
and nothing that was sent is taken back. -/
structure State.Removed (s : State) (p : Principal) (n : Nat) (t : State) : Prop where
  mem : t.mem = s.mem
  pw : t.pw = s.pw
  tm : t.tm = s.tm
  out : s.out ⊆ t.out
  others : ∀ m, m ≠ n → t.spring m = s.spring m
  cleared : (t.spring n).cleared p

section
variable {s t u : State} {p : Principal} {n : Nat} (h : s.Removed p n t)
include h

theorem State.Removed.undisturbed (k : Undisturbed t u) : s.Removed p n u where
  mem := k.mem.trans h.mem
  pw := k.pw.trans h.pw
  tm := k.tm.trans h.tm
  out _ ho := k.out (h.out ho)
  others m hm := by rw [State.spring, k.springs]; exact h.others m hm
  cleared := by rw [State.spring, k.springs]; exact h.cleared

/-- A register of the Spring changes. -/
theorem State.Removed.modSpring {f : Spring → Spring} (kept : ∀ x, (f x).descs = x.descs) : s.Removed p n (t.modSpring n f) where
  mem := h.mem
  pw := h.pw
  tm := h.tm
  out := h.out
  others m hm := (State.modSpring_spring_other _ _ _ _ hm).trans (h.others m hm)
  cleared := by
    rw [State.modSpring_spring_same, Spring.cleared, kept]
    exact h.cleared

theorem State.Removed.followOn (label : Option Nat) : s.Removed p n (t.followOn n label) :=
  (h.undisturbed ((Undisturbed.refl t).count _)).modSpring fun _ => rfl

end

/-- What an abort does in one lake removes the principal's descriptors of its Spring (R190). -/
theorem State.abortLake_removed (s : State) (p : Principal) (n : Nat) : s.Removed p n (State.abortLake p s n) := by
  have along {α : Type} (l : List α) {f : State → α → State} (hf : ∀ t x, s.Removed p n t → s.Removed p n (f t x)) (t : State)
      (h : s.Removed p n t) : s.Removed p n (l.foldl f t) := by
    induction l generalizing t with
    | nil => exact h
    | cons x l ih => exact ih _ (hf t x h)
  rw [State.abortLake]
  refine State.Removed.undisturbed (along _ (fun t x h => ?_) _ (along _ (fun t _ h => h.followOn none) _ ?_)) ((Undisturbed.refl _).releaseWaiters ..)
  · exact h.undisturbed (((Undisturbed.refl t).endTake ..).either (.refl t))
  · refine State.Removed.modSpring (State.Removed.undisturbed ?_ ((Undisturbed.refl _).count _)) fun _ => rfl
    obtain ⟨cnt, counted⟩ := s.count_frame { set := .spring, inst := n, ev := 0x4C, n := (s.spring n).removes p }
    rw [State.countSpring, counted]
    exact ⟨rfl, rfl, rfl, List.Subset.refl _, fun m hm => State.modSpring_spring_other _ _ _ _ hm,
      by rw [State.modSpring_spring_same]; exact Spring.remove_cleared _ p⟩

/-- The abort's registers as its start sets them (R191). -/
def Global.abortStarts (g : Global) (f : Faulted) (byFault : Bool) (now : Nat) : Global :=
  { g with abBusy := true, abFault := byFault, abCur := f.pr, abFirst := some f, abAt := now }

/-- From `s` to `t` an abort of a principal has started (R190, R191). -/
structure State.Aborts (s : State) (f : Faulted) (byFault : Bool) (t : State) : Prop where
  mem : t.mem = s.mem
  pw : t.pw = s.pw
  tm : t.tm = s.tm.abortStarts f byFault s.pw.now
  out : s.out ⊆ t.out
  cleared : ∀ n < 24, (t.spring n).cleared f.pr

theorem State.startAbort_aborts (s : State) (f : Faulted) (byFault : Bool) : s.Aborts f byFault (s.startAbort f byFault) := by
  let b : State := { s with tm := s.tm.abortStarts f byFault s.pw.now }
  have ends := foldl_invariant (f := State.abortLake f.pr) (l := List.range Config.lakes) (b := b)
    (P := fun done t => t.mem = s.mem ∧ t.pw = s.pw ∧ t.tm = b.tm ∧ s.out ⊆ t.out ∧ ∀ n ∈ done, (t.spring n).cleared f.pr)
    ⟨rfl, rfl, rfl, List.Subset.refl _, nofun⟩ ?_
  · obtain ⟨mem, pw, tm, out, cleared⟩ := ends
    exact ⟨mem, pw, tm, out, fun n hn => cleared n (List.mem_range.2 hn)⟩
  · rintro done n rest - t ⟨mem, pw, tm, out, cleared⟩
    have removed := t.abortLake_removed f.pr n
    refine ⟨removed.mem.trans mem, removed.pw.trans pw, removed.tm.trans tm, fun _ ho => removed.out (out ho), fun m hm => ?_⟩
    by_cases here : m = n
    · rw [here]
      exact removed.cleared
    · rw [removed.others m here]
      exact cleared m ((List.mem_append.1 hm).resolve_right (by simpa using here))

/-! ### `TM_TASK_ABORT` (R191) -/

/-- The principal that a write of `TM_TASK_ABORT` names. -/
def abortNamed (v : BitVec 32) : Principal := ⟨BitVec.ofNat 8 (bits v 0 8), BitVec.ofNat 12 (bits v 8 12)⟩

/-- A write of `TM_TASK_ABORT` is remembered and answered (R191). -/
def State.abortAsked (s : State) (src : Src) (w : Who) (p : Principal) : State :=
  { s with tm := { s.tm with abEngine := p.engine, abTid := p.tid, abSrcPos := w.pos } }.reply src .ok

section
variable {s : State} {src : Src} {v : BitVec 32} (open_ : s.opens src 0x120 4 = true) (privileged : s.privileged src = true)
include open_ privileged

/-- What a write of `TM_TASK_ABORT` comes to, but for the conditions it is judged by (R191). -/
theorem taskAbort_judged : exec (.taskAbort src v) s = .next (s.unless (s.ctl src 0x120) [s.tm.abBusy, s.tm.abQueue != []] fun t =>
    let b := (t.abortAsked src (whoOf s src.port) (abortNamed v)).elapse 1
    (b.startAbort ⟨abortNamed v, 0, 0, 0, 0, .ok, b.pw.now⟩ false).takeUp) := by
  refine (ctlCommand_4 open_ rfl v).trans (congrArg _ ?_)
  show taskAbortSet (s.ctl src 0x120) (v.setWidth 64) s = _
  rw [taskAbortSet, State.privOnly_privileged privileged]
  simp only [bits_setWidth_64]
  rfl

theorem taskAbort_busy (busy : s.tm.abBusy = true) : exec (.taskAbort src v) s = .next (s.rejected src 0x120 1) := by
  rw [taskAbort_judged open_ privileged, State.unless_rejected (k := 0) (by rw [busy]; rfl)]

theorem taskAbort_waits (idle : s.tm.abBusy = false) (waiting : s.tm.abQueue ≠ []) : exec (.taskAbort src v) s = .next (s.rejected src 0x120 2) := by
  have queued : (s.tm.abQueue != []) = true := bne_iff_ne.2 waiting
  rw [taskAbort_judged open_ privileged, State.unless_rejected (k := 1) (by rw [idle, queued]; rfl)]

theorem taskAbort_starts (idle : s.tm.abBusy = false) (none_waits : s.tm.abQueue = []) :
    ∃ u : State, exec (.taskAbort src v) s = .next u.takeUp ∧ u.pw.now = s.pw.now + 1 ∧ u.tm.abBusy = true ∧ u.tm.abFault = false ∧
      u.tm.abCur = abortNamed v ∧ (∀ n < 24, (u.spring n).cleared (abortNamed v)) ∧ u.mem = s.mem ∧ .reg src.port src.tag .ok 0 ∈ u.out := by
  have ran := taskAbort_judged (v := v) open_ privileged
  rw [State.unless_pass (by rw [idle, none_waits]; rfl)] at ran
  obtain ⟨cnt, lakes, springs, passed⟩ := (s.abortAsked src (whoOf s src.port) (abortNamed v)).elapse_frame 1
  rw [passed] at ran
  have aborts (b : State) := b.startAbort_aborts ⟨abortNamed v, 0, 0, 0, 0, .ok, b.pw.now⟩ false
  exact ⟨_, ran, by rw [(aborts _).pw]; rfl, by rw [(aborts _).tm]; rfl, by rw [(aborts _).tm]; rfl, by rw [(aborts _).tm]; rfl,
    (aborts _).cleared, (aborts _).mem, (aborts _).out List.mem_cons_self⟩

end

end Sys2Proof.Machine
end

section
/-!
PROOF. The end of a task abort (O21): its rows go STALE lake by lake, its descriptors have ended, it is recorded, and the oldest that waits starts
(R190, R192, R319).
-/
namespace Sys2Proof.Machine

-- One theorem after another: elaborated side by side, these theorems would each hold a thread and its stack.
set_option Elab.async false

/-! ### The step of each lake (R190) -/

theorem State.descStep_lake_other (s : State) (n : Nat) (ds : List Desc) (target : Slate) {m : Nat} (other : m ≠ n) :
    (s.descStep n ds target).lake m = s.lake m := by
  rw [State.descStep]
  split
  · rfl
  · obtain ⟨cnt, lpow, skipped, stepped⟩ := s.rangeStep_frame n (((ds.filter fun d => dSlate d.w).map (s.spanRows n)).flatten)
      (fun r => (ds.filter fun d => dSlate d.w).any (·.landed.contains r) && ((s.lake n).resTake (lRow r)).isNone) target []
    rw [stepped, State.modLake_lake_other _ _ _ _ other]
    rfl

/-- A Spring whose removed descriptors have ended. -/
def Spring.abortEnds (x : Spring) : Spring := { x with descs := x.descs.map fun d => if d.removed then { d with stage := .ended } else d }

theorem State.abortStep_eq (s : State) (n : Nat) : s.abortStep n = (s.descStep n (s.removedOf n) .stale).modSpring n Spring.abortEnds := rfl

/-- From `s` to `t` some lakes have made the step of an abort. -/
structure State.AbortStepped (s : State) (done : List Nat) (t : State) : Prop where
  frame : ∃ springs lakes lpow cnt, t = { s with springs := springs, lakes := lakes, lpow := lpow, cnt := cnt }
  spring : ∀ m, m ∉ done → t.spring m = s.spring m
  lake : ∀ m, m ∉ done → t.lake m = s.lake m
  ended : ∀ n ∈ done, ∀ e ∈ (t.spring n).descs, e.removed = true → e.stage = .ended
  stale : ∀ n ∈ done, ∀ d ∈ s.removedOf n, ∀ r, s.landedBy n d r = true → t.slate r = .stale

theorem State.landedBy_lake {s : State} {n r : Nat} {d : Desc} (landed : s.landedBy n d r = true) : lakeOf r = n := by
  simp only [State.landedBy, Bool.and_eq_true, decide_eq_true_eq] at landed
  obtain ⟨⟨⟨⟨⟨-, lake⟩, -⟩, -⟩, -⟩, -⟩ := landed
  exact lake

section
variable {s t : State} {done : List Nat} {n : Nat} (h : s.AbortStepped done t) (fresh : n ∉ done)
include h fresh

/-- A lake that has not made its step still finds its rows as the abort left them. -/
theorem State.AbortStepped.landedBy {d : Desc} {r : Nat} (landed : s.landedBy n d r = true) : t.landedBy n d r = true := by
  have here := State.landedBy_lake landed
  have lake := h.lake n fresh
  obtain ⟨springs, lakes, lpow, cnt, frame⟩ := h.frame
  have tag : t.tag r = s.tag r := by rw [frame]; rfl
  have span : t.spanRows n d = s.spanRows n d := by rw [frame]; rfl
  have slate : t.slate r = s.slate r := by rw [State.slate, State.slate, here, lake, tag]
  rw [State.landedBy, slate, span, lake]
  exact landed

theorem State.AbortStepped.next : s.AbortStepped (done ++ [n]) (t.abortStep n) := by
  obtain ⟨lakes', lpow', cnt', stepped⟩ := t.descStep_frame n (t.removedOf n) .stale
  have slate := t.descStep_slate n (t.removedOf n) .stale
  have same : t.removedOf n = s.removedOf n := by rw [State.removedOf, h.spring n fresh]; rfl
  have apart {m : Nat} (hm : m ∉ done ++ [n]) : m ∉ done ∧ m ≠ n := by simpa using hm
  have spring (m : Nat) : (t.descStep n (t.removedOf n) .stale).spring m = t.spring m := by rw [stepped]; rfl
  rw [State.abortStep_eq]
  refine ⟨?_, fun m hm => ?_, fun m hm => ?_, fun m hm e he removed => ?_, fun m hm d hd r landed => ?_⟩
  · obtain ⟨springs, lakes, lpow, cnt, frame⟩ := h.frame
    rw [stepped, frame]
    exact ⟨_, lakes', lpow', cnt', rfl⟩
  · rw [State.modSpring_spring_other _ _ _ _ (apart hm).2, spring]
    exact h.spring m (apart hm).1
  · exact (t.descStep_lake_other n _ _ (apart hm).2).trans (h.lake m (apart hm).1)
  · by_cases here : m = n
    · subst here
      rw [State.modSpring_spring_same] at he
      obtain ⟨d, -, rfl⟩ := List.mem_map.1 he
      by_cases gone : d.removed = true
      · rw [if_pos gone]
      · rw [if_neg gone] at removed
        exact absurd removed gone
    · rw [State.modSpring_spring_other _ _ _ _ here, spring] at he
      exact h.ended m ((List.mem_append.1 hm).resolve_right (by simpa using here)) e he removed
  · refine (slate r).trans ?_
    by_cases here : m = n
    · subst here
      rw [if_pos (State.stepTakes_of_landedBy (same ▸ hd) (h.landedBy fresh landed))]
    · rw [if_neg]
      · exact h.stale m ((List.mem_append.1 hm).resolve_right (by simpa using here)) d hd r landed
      · intro takes
        simp only [State.stepTakes, Bool.and_eq_true, decide_eq_true_eq] at takes
        obtain ⟨⟨⟨⟨lake, -⟩, -⟩, -⟩, -⟩ := takes
        exact here ((State.landedBy_lake landed).symm.trans lake)

end

/-- Every lake makes its step of an abort. -/
theorem State.abortSteps (s : State) : s.AbortStepped (List.range Config.lakes) ((List.range Config.lakes).foldl State.abortStep s) := by
  refine foldl_invariant (f := State.abortStep) (P := fun done t => s.AbortStepped done t)
    ⟨⟨_, _, _, _, rfl⟩, fun _ _ => rfl, fun _ _ => rfl, nofun, nofun⟩ fun done n rest whole t h => h.next ?_
  have distinct : (done ++ n :: rest).Nodup := whole ▸ List.nodup_range
  obtain ⟨-, -, apart⟩ := List.nodup_append.1 distinct
  exact fun mem => apart n mem n List.mem_cons_self rfl

/-! ### The end (R190, R192, R319) -/

theorem State.abortRecord_frame (s : State) : ∃ err, s.abortRecord = { s with err := err } := by
  have logged (cls : Nat) (st : Status) (source : Nat) (pr : Principal) (detail addr : Nat) :
      ∃ err, s.log cls st source pr detail addr = { s with err := err } := s.report_frame _
  rw [State.abortRecord]
  split
  · split
    · exact logged ..
    · exact logged ..
  · exact ⟨_, rfl⟩

theorem State.report_err {s t : State} (err : t.err = s.err) (r : Rec) : (t.report r).err = (s.report r).err := by
  rw [State.report, State.report, err]
  split
  · exact err
  · split <;> rfl

/-- The record of an abort is that of the abort's registers, the time and the log. -/
theorem State.abortRecord_err {s t : State} (tm : t.tm = s.tm) (pw : t.pw = s.pw) (err : t.err = s.err) : t.abortRecord.err = s.abortRecord.err := by
  rw [State.abortRecord, State.abortRecord, tm]
  split
  · split <;> rw [State.log, State.log, pw] <;> exact State.report_err err _
  · exact err

/-- The lakes have made their steps, and the abort is recorded and has ended (R190, R191). -/
def State.abortDone (s : State) : State :=
  let t := ((List.range Config.lakes).foldl State.abortStep s).abortRecord
  { t with tm := { t.tm with abBusy := false, abDone := true } }

section
variable {s : State} (room : ∀ n < 24, s.tableFull n = false)
include room

theorem State.none_tableFull : (List.range Config.lakes).filter (fun n => s.tableFull n && (s.removedOf n).any fun d => dSlate d.w) = [] :=
  List.filter_eq_nil_iff.2 fun n hn => by rw [room n (List.mem_range.1 hn)]; exact Bool.false_ne_true

theorem State.abortEnd_last (queue : s.abortDone.tm.abQueue = []) : s.abortEnd = s.abortDone := by
  rw [State.abortDone] at queue ⊢
  rw [State.abortEnd, State.none_tableFull room, if_neg (not_not.2 rfl)]
  dsimp only at queue ⊢
  rw [queue]

/-- The oldest abort that waits starts in the next T-cycle (R192). -/
theorem State.abortEnd_next {f : Faulted} {rest : List Faulted} (queue : s.abortDone.tm.abQueue = f :: rest) : s.abortEnd =
    State.enterDeferred 1536 (({ s.abortDone.elapse 1 with tm := { (s.abortDone.elapse 1).tm with abQueue := rest } }).startAbort f true) := by
  rw [State.abortDone] at queue ⊢
  rw [State.abortEnd, State.none_tableFull room, if_neg (not_not.2 rfl)]
  dsimp only at queue ⊢
  rw [queue]

end

/-- What an abort that has ended leaves: its registers, its record, its descriptors ended and its rows STALE (R190, R319). -/
structure State.AbortEnded (s t : State) : Prop where
  mem : t.mem = s.mem
  out : t.out = s.out
  pw : t.pw = s.pw
  tm : t.tm = { s.tm with abBusy := false, abDone := true }
  err : t.err = s.abortRecord.err
  ended : ∀ n < 24, ∀ e ∈ (t.spring n).descs, e.removed = true → e.stage = .ended
  stale : ∀ n < 24, ∀ d ∈ s.removedOf n, ∀ r, s.landedBy n d r = true → t.slate r = .stale

theorem State.abortDone_ended (s : State) : s.AbortEnded s.abortDone := by
  have steps := s.abortSteps
  rw [State.abortDone]
  generalize (List.range Config.lakes).foldl State.abortStep s = t at steps
  obtain ⟨springs, lakes, lpow, cnt, frame⟩ := steps.frame
  have record : t.abortRecord.err = s.abortRecord.err := State.abortRecord_err (by rw [frame]) (by rw [frame]) (by rw [frame])
  obtain ⟨err, recorded⟩ := t.abortRecord_frame
  rw [recorded] at record ⊢
  exact ⟨by rw [frame], by rw [frame], by rw [frame], by rw [frame], record, fun n hn => steps.ended n (List.mem_range.2 hn),
    fun n hn => steps.stale n (List.mem_range.2 hn)⟩

/-- From `s` to `t` deferred faults have entered the pending queue, and no more (R192). -/
structure State.Entered (s t : State) : Prop where
  mem : t.mem = s.mem
  pw : t.pw = s.pw
  tm : ∃ queue, t.tm = { s.tm with abQueue := queue }

theorem State.enterDeferred_entered (k : Nat) (s : State) : s.Entered (State.enterDeferred k s) := by
  induction k generalizing s with
  | zero => exact ⟨rfl, rfl, _, rfl⟩
  | succ k ih =>
    rw [State.enterDeferred]
    split
    · exact ⟨rfl, rfl, _, rfl⟩
    · split
      · exact ⟨rfl, rfl, _, rfl⟩
      · next f _ =>
        dsimp only
        let x := s.modSpring f.lake fun x => { x with deferred := x.deferred.erase f }
        have entered : s.Entered (if x.tm.abQueue.any (·.pr = f.pr) = true then x.followOn f.lake none
            else { x with tm := { x.tm with abQueue := x.tm.abQueue ++ [f] } }) := by
          obtain ⟨cnt, counted⟩ := x.count_frame { set := .spring, inst := f.lake, ev := 0x4F }
          split
          · rw [State.followOn, State.countSpring, counted]
            exact ⟨rfl, rfl, _, rfl⟩
          · exact ⟨rfl, rfl, _, rfl⟩
        obtain ⟨mem, pw, queue, tm⟩ := ih _
        obtain ⟨mem', pw', queue', tm'⟩ := entered
        exact ⟨mem.trans mem', pw.trans pw', queue, by rw [tm, tm']⟩

section
variable {s : State} (busy : s.tm.abBusy = true) (ready : abortReady s = true)
include busy ready

theorem exec_taskAbortComplete : exec .taskAbortComplete s = .next s.abortEnd.takeUp :=
  congrArg Host.Outcome.next (if_pos (by rw [busy, ready]; rfl))

variable (room : ∀ n < 24, s.tableFull n = false)
include room

theorem taskAbortComplete_ends (none_waits : s.tm.abQueue = []) :
    exec .taskAbortComplete s = .next s.abortDone.takeUp ∧ s.AbortEnded s.abortDone := by
  have ended := s.abortDone_ended
  have queue : s.abortDone.tm.abQueue = [] := by rw [ended.tm]; exact none_waits
  refine ⟨?_, ended⟩
  rw [exec_taskAbortComplete busy ready, State.abortEnd_last room queue]

theorem taskAbortComplete_next {f : Faulted} {rest : List Faulted} (waiting : s.tm.abQueue = f :: rest) :
    ∃ u : State, exec .taskAbortComplete s = .next u.takeUp ∧ u.pw.now = s.pw.now + 1 ∧ u.tm.abBusy = true ∧ u.tm.abDone = true ∧
      u.tm.abCur = f.pr ∧ u.mem = s.mem := by
  have ended := s.abortDone_ended
  have queue : s.abortDone.tm.abQueue = f :: rest := by rw [ended.tm]; exact waiting
  have ran := exec_taskAbortComplete busy ready
  rw [State.abortEnd_next room queue] at ran
  obtain ⟨cnt, lakes, springs, passed⟩ := s.abortDone.elapse_frame 1
  rw [passed] at ran
  obtain ⟨mem, pw, queue', tm⟩ := State.enterDeferred_entered 1536 _
  have aborts (b : State) := b.startAbort_aborts f true
  refine ⟨_, ran, ?_, ?_, ?_, ?_, ?_⟩
  · rw [pw, (aborts _).pw, ended.pw]
  · rw [tm, (aborts _).tm]; rfl
  · rw [tm, (aborts _).tm, ended.tm]; rfl
  · rw [tm, (aborts _).tm]; rfl
  · rw [mem, (aborts _).mem, ended.mem]

end

/-! ### Cuts and aborts, settled -/

/-- Settles O21: a cut and an abort each leave every descriptor that they name ended, cut or removed, and their end leaves the rows landed in one
step. -/
theorem cutsAndTaskAbortsRun : Obligations.CutsAndTaskAbortsRun := by
  refine ⟨⟨fun s src n v open_ master => ⟨fun busy => ?_, fun idle => ?_⟩, fun s n busy quiet room => ?_⟩,
    fun s src v open_ privileged => ⟨fun idle none_waits => ?_, taskAbort_busy open_ privileged, taskAbort_waits open_ privileged⟩,
    fun s busy ready room => ⟨fun none_waits => ?_, fun f rest waiting => taskAbortComplete_next busy ready room waiting⟩⟩
  · rw [exec_sprCut open_ master, State.unless0_rejected busy]
  · obtain ⟨cnt, cut⟩ := s.cutSpring_eq n v.toNat
    refine ⟨s.cutSpring n v.toNat, ?_, ?_, ?_, ?_, fun e he after => State.cutSpring_cancels he after, fun m hm => State.cutSpring_other hm, ?_⟩
    · rw [exec_sprCut open_ master, State.unless0_pass idle]
    · rw [cut, State.modSpring_spring_same]; exact (BitVec.ofNat_toNat 32 v).trans (BitVec.setWidth_eq v)
    · rw [cut, State.modSpring_spring_same]; exact Spring.cutSeqs_length _ _
    · rw [cut, State.modSpring_spring_same]
      exact Spring.cutSeqs_busy _ _
    · rw [cut]; rfl
  · obtain ⟨u, ran, cutBusy, cutDone, left, slates, others, springs, lakes, lpow, cnt, frame⟩ := exec_cutComplete busy quiet room
    refine ⟨u, ran, cutBusy, cutDone, left, fun r ⟨d, hd, landed⟩ => ?_, fun r none_landed => ?_, others, by rw [frame]⟩
    · rw [slates, if_pos (State.stepTakes_of_landedBy hd landed)]
    · rw [slates, State.stepTakes_none none_landed]
      rfl
  · exact taskAbort_starts open_ privileged idle none_waits
  · obtain ⟨ran, ended⟩ := taskAbortComplete_ends busy ready room none_waits
    exact ⟨_, ran, by rw [ended.tm], by rw [ended.tm], ended.err, ended.ended, ended.stale, ended.mem, ended.out⟩

end Sys2Proof.Machine
end

section
/-!
PROOF. What the stack answers (O20): the next piece of a LOAD is landed, with its row RESERVED where it lands slates, and a STORE's acknowledgement is
noted (R182, R183, R184).
-/
namespace Sys2Proof.Machine

-- One theorem after another: elaborated side by side, these theorems would each hold a thread and its stack.
set_option Elab.async false

/-! ### A landing write (R183, R215, R219) -/

/-- From `s` to `t` a descriptor has written the words of a piece, and no other; the row is RESERVED where the piece lands a slate, and no other slate
has changed. -/
structure Landing (slated : Bool) (p : Piece) (data : List Word) (s t : State) : Prop where
  frame : ∃ mem rows lakes weir cnt backoff group ps inPond, t = { s with
    mem := mem, rows := rows, lakes := lakes, weir := weir, cnt := cnt, backoff := backoff, group := group, ps := ps, inPond := inPond }
  words : ∀ a, readWord t.mem a = if p.own ≤ a ∧ a < p.own + p.n then data.getD (a - p.own) 0 else readWord s.mem a
  slate : ∀ r, t.slate r = if slated = true ∧ r = p.own / 8 then .reserved else s.slate r

theorem ShoreWrite.landing {s t : State} {slated : Bool} {p : Piece} {data : List Word} (h : ShoreWrite p data s t) (unslated : slated = false) :
    Landing slated p data s t where
  frame := by
    obtain ⟨mem, rows, lakes, weir, cnt, group, ps, inPond, frame⟩ := h.frame
    exact ⟨mem, rows, lakes, weir, cnt, s.backoff, group, ps, inPond, frame⟩
  words := h.words
  slate r := by rw [unslated, if_neg (fun k => absurd k.1 Bool.false_ne_true), h.slate]

/-- A landing write meets a row that is EMPTY or RESERVED, which no take holds (R215, R219). -/
theorem slateMeets_land {l : Lake} {r q : Nat} {sl : Slate} : slateMeets l r (.land q) sl = true ↔ (sl = .empty ∨ sl = .reserved) ∧ l.resTake r = none := by
  simp only [slateMeets, Bool.and_eq_true, Bool.or_eq_true, decide_eq_true_eq]

/-- A landing write of a clean row that meets its slate is performed, and leaves the row RESERVED (R219). -/
theorem slatedRow_land {s : State} {r : RowReq} (w : Who) (q : Nat) (clean : s.clean r.row = true) (inRow : ∀ i ∈ r.places, i < 8)
    (maint : (s.lake (lakeOf r.row)).inMaint (lRow r.row) = false) (meets : slateMeets (s.lake (lakeOf r.row)) (lRow r.row) (.land q) (s.slate r.row) = true) :
    slatedRow s w none (.land q) r = (.done ⟨.ok, []⟩, ((writeRow s w none true r).2.setSlate r.row .reserved).alone r.row) := by
  obtain ⟨mark, -, bad⟩ := (s.clean_iff r.row).1 clean
  obtain ⟨t, written, -, -⟩ := writeRow_clean w true clean inRow
  obtain ⟨slate, untaken⟩ := slateMeets_land.1 meets
  have fresh : s.slate r.row ≠ .stale := by
    obtain slate | slate := slate <;> rw [slate] <;> decide
  have tags : tagsBad (s.wMode r.row) [] = false := by cases s.wMode r.row <;> rfl
  have foreign : foreignLand (s.lake (lakeOf r.row)) (lRow r.row) (.land q) = false := by rw [foreignLand, untaken]; rfl
  have writes : Mode.reads (.land q) = false := rfl
  have alone : Mode.alone (.land q) = true := rfl
  have after : slateAfter (.land q) (s.slate r.row) = .reserved := rfl
  unfold slatedRow
  simp only [State.before, maint, foreign, mark, bad, tags, writes, Bool.or_self, Bool.and_false, Bool.false_and, Bool.false_eq_true, if_false, fresh,
    meets, Bool.not_true, written, alone, after, decide_true, Bool.and_true, Bool.not_false, if_true, reduceCtorEq, decide_false]

theorem State.shoreS_land (s : State) (n : Nat) (d : Desc) {p : Piece} (w : Who) (data : List Word) (clean : s.clean (p.own / 8) = true)
    (inRow : p.own % 8 + p.n ≤ 8) (maint : (s.lake (lakeOf (p.own / 8))).inMaint (lRow (p.own / 8)) = false)
    (meets : slateMeets (s.lake (lakeOf (p.own / 8))) (lRow (p.own / 8)) (.land d.seq) (s.slate (p.own / 8)) = true) (slated : dSlate d.w = true) :
    ∃ t, s.shoreS n d w .write (.land d.seq) p data = (.done ⟨.ok, []⟩, t) ∧ Landing (dSlate d.w) p data s t := by
  obtain ⟨cnt, counted⟩ := s.count_frame { set := .spring, inst := n, ev := 0x49, quals := d.quals, label := some d.slot.label }
  obtain ⟨pl, ps, placed_⟩ := ({ s with cnt := cnt }).place_one w n (op := .write) rfl (.land d.seq) (pieceRow p data)
  let u : State := { s with cnt := cnt, group := [], ps := ps }
  obtain ⟨v, written, work, mem⟩ := writeRow_clean (s := u) (r := pieceRow p data) w true clean (pieceRow_inRow inRow data)
  have landed := slatedRow_land (s := u) (r := pieceRow p data) w d.seq clean (pieceRow_inRow inRow data) maint meets
  rw [written] at landed
  have access : rowAccess u w .write false (.land d.seq) (pieceRow p data) = (.done ⟨.ok, []⟩, (v.setSlate (p.own / 8) .reserved).alone (p.own / 8)) :=
    (show rowAccess u w .write false (.land d.seq) (pieceRow p data) = ((slatedRow u w none (.land d.seq) (pieceRow p data)).1,
      (slatedRow u w none (.land d.seq) (pieceRow p data)).2) from rfl).trans (by rw [landed]; rfl)
  obtain ⟨inPond, weir, ran, -⟩ := s.shoreS_eq n d (by rw [State.countSpring, counted, placed_]) access
  have reserved := v.setSlate_slate (p.own / 8) .reserved
  have kept {r : Nat} (other : r ≠ p.own / 8) := v.setSlate_slate_other .reserved other
  obtain ⟨rows, lakes, set⟩ := v.setSlate_frame (p.own / 8) .reserved
  rw [set] at ran reserved kept
  refine ⟨_, ran, ?_, fun a => ?_, fun r => ?_⟩
  · obtain ⟨springs, reels⟩ := work.slots Mode.noConfusion
    obtain ⟨mem', rows', lakes', weir', cnt', group, springs', reels', backoff', rfl⟩ := work.frame
    cases springs
    cases reels
    exact ⟨mem', rows, lakes, weir, cnt', backoff', _, ps, inPond, rfl⟩
  · exact (congrArg (readWord · a) mem).trans (pieceRow_written s.mem p data a)
  · by_cases own : r = p.own / 8
    · rw [if_pos ⟨slated, own⟩, own]
      exact reserved
    · rw [if_neg (fun k => own k.2)]
      exact (kept own).trans ((work.slate r).trans (ite_self _))

/-- What lets the next piece of a descriptor land at once (R182, R183, R223). -/
structure State.Lands (s : State) (n : Nat) (d : Desc) (p : Piece) : Prop where
  on : (s.lp n).state = .on
  draining : s.draining = false
  clean : s.clean (p.own / 8) = true
  own : lakeOf (p.own / 8) = n
  inRow : p.own % 8 + p.n ≤ 8
  unarmed : (s.lake n).injArm = false
  maint : (s.lake n).inMaint (lRow (p.own / 8)) = false
  slated : dSlate d.w = true → slateMeets (s.lake n) (lRow (p.own / 8)) (.land d.seq) (s.slate (p.own / 8)) = true ∧
    s.early (.waiters (Fin.ofNat 24 n)) (.wired (if d.trickle then 9 else 8)) = none ∧ (s.lake n).waiters.length < 64

theorem State.Lands.landOne {s : State} {n i : Nat} {d : Desc} {p : Piece} (h : s.Lands n d p) (data : List Word) (piece : pieceOf d i = some p) :
    ∃ t, Landing (dSlate d.w) p data s t ∧ s.landOne n d i data none = (true, t.landed n d.seq i (p.own / 8)) := by
  have own := h.own
  by_cases slated : dSlate d.w = true
  · obtain ⟨meets, early, room⟩ := h.slated slated
    obtain ⟨t, ran, landing⟩ := s.shoreS_land n d { springWho s n d true with issued := s.pw.now } data h.clean h.inRow (own ▸ h.maint) (own ▸ meets) slated
    refine ⟨t.backoffClear (.waiters (Fin.ofNat 24 n)) (.wired (if d.trickle then 9 else 8)), ⟨?_, landing.words, landing.slate⟩, ?_⟩
    · obtain ⟨mem, rows, lakes, weir, cnt, backoff, group, ps, inPond, frame⟩ := landing.frame
      rw [frame]
      exact ⟨mem, rows, lakes, weir, cnt, _, group, ps, inPond, rfl⟩
    · have retry : s.early (.waiters (Fin.ofNat 24 n)) (springWho s n d true).ident = none := early
      rw [State.landOne, piece]
      dsimp only
      rw [slated, if_neg (by rw [h.on]; decide), if_neg (by rw [h.on]; decide), if_neg (by rw [h.draining, retry]; simp), if_neg (by simpa using room)]
      simp only [if_true, Option.getD_none, ran]
      rfl
  · obtain ⟨t, written, landed⟩ := State.landOne_plain data piece (by simpa using slated) h.on h.draining h.clean h.inRow (own ▸ h.unarmed)
    exact ⟨t, written.landing (by simpa using slated), landed⟩

/-! ### Data that comes back (R182, R183) -/

/-- An answer to a request of a descriptor is noted. -/
def Desc.answered (i : Nat) (d : Desc) : Desc := { d with returned := d.returned ++ [i] }

/-- A descriptor that has one piece of data to land, the next in block order. -/
def Desc.holdsNext (d : Desc) (i : Nat) (data : List Word) : Desc := { d with returned := d.returned ++ [i], ready := [(i, data)] }

/-- A descriptor that has landed its next piece, which lies in a row. -/
def Desc.landsNext (d : Desc) (i row : Nat) : Desc :=
  { d with returned := d.returned ++ [i], written := d.written ++ [i], landed := if d.landed.contains row then d.landed else d.landed ++ [row] }

section
variable {s t : State} {n : Nat} {d : Desc} {p : Piece} {ws : List Word}

/-- The one piece of data that a descriptor in flight holds is landed (R182). -/
theorem State.Lands.landAll (sole : s.sole n (d.holdsNext p.i ws)) (h : s.Lands n (d.holdsNext p.i ws) p) (piece : pieceOf d p.i = some p)
    (flight : d.stage = .flight) (removed : d.removed = false) (cut : d.cut = false) (failed : d.failed = false) (ready : d.ready = [])
    (next : d.written.length = p.i) (idle : s.landWaits n d.seq = false) :
    ∃ t, Landing (dSlate d.w) p ws s t ∧ s.landAll n d.seq = t.landed n d.seq p.i (p.own / 8) ∧
      (t.landed n d.seq p.i (p.own / 8)).sole n (d.landsNext p.i (p.own / 8)) := by
  have desc : s.desc n d.seq = some (d.holdsNext p.i ws) := sole.desc
  obtain ⟨t, landing, ran⟩ := h.landOne (i := p.i) ws piece
  let u := t.landed n d.seq p.i (p.own / 8)
  have landed : u.sole n (d.landsNext p.i (p.own / 8)) := by
    obtain ⟨_, _, _, _, _, _, _, _, _, frame⟩ := landing.frame
    have kept : t.sole n (d.holdsNext p.i ws) := sole.congr (by rw [frame]; rfl)
    have ends : d.landsNext p.i (p.own / 8) = { d.holdsNext p.i ws with
        written := (d.holdsNext p.i ws).written ++ [p.i], ready := (d.holdsNext p.i ws).ready.filter (·.1 != p.i)
        landed := if (d.holdsNext p.i ws).landed.contains (p.own / 8) then (d.holdsNext p.i ws).landed else (d.holdsNext p.i ws).landed ++ [p.own / 8] } := by
      simp [Desc.landsNext, Desc.holdsNext, ready]
    rw [ends]
    exact State.sole.modDesc (d := d.holdsNext p.i ws) (f := fun d => { d with
      written := d.written ++ [p.i], ready := d.ready.filter (·.1 != p.i)
      landed := if d.landed.contains (p.own / 8) then d.landed else d.landed ++ [p.own / 8] }) kept fun _ => rfl
  have done : State.land n d.seq 1 u = u := by
    have found : u.desc n d.seq = some (d.landsNext p.i (p.own / 8)) := landed.desc
    have nothing : (d.landsNext p.i (p.own / 8)).nextLanding = none := by
      rw [Desc.nextLanding, Desc.landsNext, ready]
      rfl
    rw [State.land, found]
    dsimp only
    rw [nothing]
    exact ite_self _
  have one : (d.holdsNext p.i ws).nextLanding = some (p.i, ws) := by simp [Desc.nextLanding, Desc.holdsNext, next]
  refine ⟨t, landing, ?_, landed⟩
  rw [State.landAll, desc]
  show State.land n d.seq 2 s = u
  rw [State.land, desc]
  dsimp only
  rw [if_neg (by simp [Desc.holdsNext, flight, removed, cut, failed, idle]), one]
  dsimp only
  rw [show s.landOne n (d.holdsNext p.i ws) p.i ws none = (true, u) from ran]
  exact done

end

section
variable {s : State} {n : Fin 24} {d : Desc} {i : Nat} (sole : s.sole n d) (asked : d.asked.contains i = true) (waits : d.returned.contains i = false)
include sole asked waits

/-- An acknowledgement of a STORE is noted (R184). -/
theorem exec_stackWriteAck (kind : dKind d.w = 2) :
    ∃ u : State, exec (.stackWriteAck n d.seq i .ok) s = .next u.takeUp ∧ u.desc n d.seq = some (d.answered i) ∧
      ∃ springs, u = { s with springs := springs } := by
  have returned : s.springReturn n d.seq i .ok [] = s.modDesc n d.seq (Desc.answered i) := by
    rw [State.springReturn, sole.desc]
    dsimp only
    rw [if_neg (by rw [asked, waits]; decide), if_neg (by decide), if_pos (by rw [kind]; rfl)]
    rfl
  have noted := State.sole.modDesc (f := Desc.answered i) sole fun _ => rfl
  have ran : exec (.stackWriteAck n d.seq i .ok) s = .next (s.springReturn n d.seq i .ok []).takeUp := by
    show execStackWriteAck n d.seq i .ok s = _
    rw [execStackWriteAck, sole.desc]
    dsimp only
    rw [kind]
    rfl
  exact ⟨_, by rw [ran, returned], noted.desc, _, rfl⟩

/-- Data of a LOAD that is neither cut nor removed is held for its landing (R182). -/
theorem State.springReturn_load {ws : List Word} (kind : dKind d.w = 1) (removed : d.removed = false) (cut : d.cut = false) :
    s.springReturn n d.seq i .ok ws = ((s.modDesc n d.seq (Desc.answered i)).modDesc n d.seq (·.give i ws)).landAll n d.seq := by
  rw [State.springReturn, sole.desc]
  dsimp only
  rw [if_neg (by rw [asked, waits]; decide), if_neg (by decide), if_neg (by rw [kind]; decide), if_neg (by rw [removed, cut]; decide)]
  rfl

end

theorem State.Lands.congr {s : State} {n : Nat} {d : Desc} {p : Piece} (h : s.Lands n d p) (springs : Tab Spring) (cnt : Counters) (ws : List Word) :
    ({ s with springs := springs, cnt := cnt }).Lands n (d.holdsNext p.i ws) p :=
  ⟨h.on, h.draining, h.clean, h.own, h.inRow, h.unarmed, h.maint, h.slated⟩

/-- The next piece of a LOAD is landed as its data comes back (R182, R183). -/
theorem exec_stackReadReturn {s : State} {n : Fin 24} {d : Desc} {p : Piece} {ws : List Word} (sole : s.sole n d) (asked : d.asked.contains p.i = true)
    (waits : d.returned.contains p.i = false) (piece : pieceOf d p.i = some p) (kind : dKind d.w = 1) (unshared : dShared d.w = false)
    (flight : d.stage = .flight) (removed : d.removed = false) (cut : d.cut = false) (failed : d.failed = false) (ready : d.ready = [])
    (next : d.written.length = p.i) (idle : s.landWaits n d.seq = false) (lands : s.Lands n d p) :
    ∃ springs cnt t, exec (.stackReadReturn n d.seq p.i .ok ws) s = .next (t.landed n d.seq p.i (p.own / 8)).takeUp ∧
      (t.landed n d.seq p.i (p.own / 8)).desc n d.seq = some (d.landsNext p.i (p.own / 8)) ∧
      Landing (dSlate d.w) p ws { s with springs := springs, cnt := cnt } t := by
  obtain ⟨cnt, counted⟩ := s.count_frame { set := .spring, inst := n, ev := 0x47, quals := d.quals, label := some d.slot.label, n := 32 * ws.length }
  let b : State := { s with cnt := cnt }
  have begun : b.sole n d := State.sole.congr sole rfl
  let c := (b.modDesc n d.seq (Desc.answered p.i)).modDesc n d.seq (·.give p.i ws)
  have held : c.sole n (d.holdsNext p.i ws) := by
    have holds : d.holdsNext p.i ws = (d.answered p.i).give p.i ws := by
      rw [Desc.holdsNext, Desc.give, Desc.answered, ready]
      rfl
    rw [holds]
    exact State.sole.modDesc (d := d.answered p.i) (f := (·.give p.i ws))
      (State.sole.modDesc (f := Desc.answered p.i) begun fun _ => rfl) fun _ => rfl
  obtain ⟨t, landing, landed, ends⟩ := State.Lands.landAll held (lands.congr c.springs cnt ws) piece flight removed cut failed ready next idle
  have ran : exec (.stackReadReturn n d.seq p.i .ok ws) s = .next (b.springReturn n d.seq p.i .ok ws).takeUp := by
    show execStackReadReturn n d.seq p.i .ok ws s = _
    rw [execStackReadReturn, sole.desc]
    dsimp only
    rw [kind, unshared]
    exact congrArg (fun t => Host.Outcome.next (State.springBack t n d.seq p.i .ok ws)) counted
  refine ⟨c.springs, cnt, t, ?_, ends.desc, landing⟩
  rw [ran, State.springReturn_load begun asked waits kind removed cut]
  exact congrArg (fun t => Host.Outcome.next (State.takeUp t)) landed

end Sys2Proof.Machine
end

section
/-!
PROOF. What a completion leaves behind (O20): requests that write, and landing writes, pass no time and change no cue (R216, R230).
-/
namespace Sys2Proof.Machine

-- One theorem after another: elaborated side by side, these theorems would each hold a thread and its stack.
set_option Elab.async false

/-- From `s` to `t` no time has passed and no cue has changed. -/
structure CuesKept (s t : State) : Prop where
  pw : t.pw = s.pw
  variant : t.variant = s.variant
  cues : t.cues = s.cues

theorem CuesKept.refl (s : State) : CuesKept s s := ⟨rfl, rfl, rfl⟩

theorem CuesKept.trans {a b c : State} (h : CuesKept a b) (k : CuesKept b c) : CuesKept a c :=
  ⟨k.pw.trans h.pw, k.variant.trans h.variant, k.cues.trans h.cues⟩

theorem Undisturbed.cuesKept {s t : State} (h : Undisturbed s t) : CuesKept s t := ⟨h.pw, h.variant, h.cues⟩

theorem CuesKept.absorbs : Absorbs CuesKept := ⟨Undisturbed.cuesKept, CuesKept.trans⟩

theorem CuesKept.either {r s t : State} {c : Prop} [Decidable c] (h : CuesKept r s) (k : CuesKept r t) : CuesKept r (if c then s else t) := by
  split
  · exact h
  · exact k

theorem CuesKept.eitherSnd {α : Type} {r : State} {x y : α × State} {c : Prop} [Decidable c] (h : CuesKept r x.2) (k : CuesKept r y.2) :
    CuesKept r (if c then x else y).2 := by
  split
  · exact h
  · exact k

section
variable {r s t : State} (h : CuesKept r s)
include h

theorem CuesKept.still (k : Undisturbed s t) : CuesKept r t := h.trans k.cuesKept

/-- A change of neither time nor cues. -/
theorem CuesKept.set (pw : t.pw = s.pw := by rfl) (variant : t.variant = s.variant := by rfl) (cues : t.cues = s.cues := by rfl) : CuesKept r t :=
  h.trans ⟨pw, variant, cues⟩

theorem CuesKept.foldl {α : Type} {f : State → α → State} (hf : ∀ s, CuesKept r s → ∀ x, CuesKept r (f s x)) (l : List α) :
    CuesKept r (l.foldl f s) := by
  induction l generalizing s with
  | nil => exact h
  | cons x l ih => exact ih (hf s h x)

/-! ### Row requests that write (R45, R46, R158 to R165) -/

theorem CuesKept.storeWords (w : Who) (x : RowReq) (ws : List (Nat × Word)) : CuesKept r (storeWords s w x ws) :=
  (h.set (t := s.putWords x.row ws)).still ((Undisturbed.refl _).moved ..)

theorem CuesKept.joinGroup (grp : Option Grp) (row k : Nat) (old : List Word) (tag : RowTag) (ws atoms : List Nat) (checked : Bool) :
    CuesKept r (s.joinGroup grp row k old tag ws atoms checked) := h.set

theorem CuesKept.refresh (row : Nat) (ws : List Nat) : CuesKept r (s.refresh row ws) := h.set

theorem CuesKept.mergeWbs (row : Nat) (ws : List Nat) : CuesKept r (s.mergeWbs row ws) := h.set

theorem CuesKept.takeFlags (n : Nat) (f : MsoFlags) (draws : Nat) (w : Who) : CuesKept r (s.takeFlags n f draws w) :=
  (h.still ((Undisturbed.refl s).countLake n 0x23 w.quals (some w.label) (draws - (s.lake n).draws))).set

theorem CuesKept.inject (row : Nat) : CuesKept r (s.inject row) := by
  rw [State.inject]
  dsimp only
  split
  · exact h
  · exact h.set

/-- Words stored by a write-back that is to come: their row is read, and written whole (R45). -/
theorem CuesKept.writesBack (row : Nat) (u t : RowTag) (stale : Bool) (undo : List (Nat × Word)) (fresh : Bool) {c : Prop} [Decidable c] :
    CuesKept r ((if c then (s.setTag row u).mark row stale else s.setTag row u).scheduleWb row t undo fresh) := by
  have tagged : CuesKept r (s.setTag row u) := h.set
  refine CuesKept.set (s := if c then (s.setTag row u).mark row stale else s.setTag row u) ?_
  exact (tagged.still ((Undisturbed.refl _).mark ..)).either tagged

/-- What a row is found to hold is counted and recorded, where it has not been yet (R308, R309). -/
theorem CuesKept.found (w : Option Who) (row : Nat) (corr bad : List Nat) {c c' : Prop} [Decidable c] [Decidable c'] :
    CuesKept r (if c then (if c' then s.foundCorr row corr 0 else s).foundBad w row bad 0 else if c' then s.foundCorr row corr 0 else s) := by
  have corrected : CuesKept r (if c' then s.foundCorr row corr 0 else s) := (h.still ((Undisturbed.refl _).foundCorr ..)).either h
  exact (corrected.still ((Undisturbed.refl _).foundBad ..)).either corrected

theorem CuesKept.writeRow (w : Who) (grp : Option Grp) (whole : Bool) (x : RowReq) : CuesKept r (writeRow s w grp whole x).2 := by
  have spent := (h.still ((Undisturbed.refl s).spend w x.row grp)).still ((Undisturbed.refl _).countLake (lakeOf x.row) 0x05 w.quals (some w.label) 1)
  unfold Machine.writeRow
  generalize s.before x.row grp = before
  obtain ⟨old, t⟩ := before
  dsimp only
  refine CuesKept.eitherSnd ?_ (CuesKept.eitherSnd ?_ (CuesKept.eitherSnd ?_ (CuesKept.eitherSnd ?_ ?_)))
  · exact CuesKept.joinGroup (spent.still ((Undisturbed.refl _).poisonHit ..)) ..
  · exact CuesKept.joinGroup (spent.still ((Undisturbed.refl _).checkRow ..)) ..
  · exact CuesKept.joinGroup (spent.still ((Undisturbed.refl _).countLake ..)) ..
  · exact CuesKept.joinGroup (CuesKept.writesBack (CuesKept.refresh (CuesKept.storeWords (CuesKept.found spent ..) ..) ..) ..) ..
  · exact CuesKept.joinGroup (CuesKept.inject (CuesKept.mergeWbs (CuesKept.refresh (CuesKept.storeWords spent ..) ..) ..) ..) ..

theorem CuesKept.atomRow (w : Who) (grp : Option Grp) (op : Op) (x : RowReq) : CuesKept r (atomRow s w grp op x).2 := by
  have spent := (h.still ((Undisturbed.refl s).spend w x.row grp)).still
    (((Undisturbed.refl _).countLake (lakeOf x.row) 0x05 w.quals (some w.label) 1).countLake (lakeOf x.row) 0x22 w.quals (some w.label) 1)
  unfold Machine.atomRow
  generalize s.before x.row grp = before
  obtain ⟨old, t⟩ := before
  dsimp only
  refine CuesKept.eitherSnd ?_ (CuesKept.eitherSnd ?_ (CuesKept.eitherSnd ?_ ?_))
  · exact CuesKept.joinGroup (spent.still ((Undisturbed.refl _).poisonHit ..)) ..
  · exact CuesKept.joinGroup (spent.still ((Undisturbed.refl _).countLake ..)) ..
  · exact CuesKept.joinGroup (spent.still ((Undisturbed.refl _).checkRow ..)) ..
  · exact CuesKept.joinGroup (CuesKept.writesBack (CuesKept.refresh (CuesKept.takeFlags (CuesKept.storeWords (CuesKept.found spent ..) ..) ..) ..) ..) ..

theorem CuesKept.slotFullBy (row : Nat) (w : Who) : CuesKept r (s.slotFullBy row w) := by
  obtain ⟨springs, reels, seen⟩ := s.slotFullBy_frame row w
  rw [seen]
  exact h.set

theorem CuesKept.slatedRow (w : Who) (grp : Option Grp) (m : Mode) (x : RowReq) : CuesKept r (slatedRow s w grp m x).2 := by
  have spent := (Undisturbed.refl s).spend w x.row grp
  have closes {t : State} (ht : CuesKept r t) (old : List Word) (tag : RowTag) :
      CuesKept r (if m.alone = true then t.alone x.row else t.joinGroup grp x.row (shoreRank w x.row) old tag [] [] true) :=
    CuesKept.either ht.set (ht.joinGroup ..)
  have checked (c : Bool) (tag : RowTag) : CuesKept r (if c = true then (s.spend w x.row grp).checkRow (some w) x.row 0 tag grp else s.spend w x.row grp) :=
    CuesKept.either (h.still (spent.checkRow ..)) (h.still spent)
  have performed (c c' : Bool) : CuesKept r (if c' = true then
      (if c = true then (if m.reads = true then Machine.readRow s w grp x else Machine.writeRow s w grp true x).2.setSlate x.row (slateAfter m (s.slate x.row))
        else (if m.reads = true then Machine.readRow s w grp x else Machine.writeRow s w grp true x).2).slotFullBy x.row w
      else if c = true then (if m.reads = true then Machine.readRow s w grp x else Machine.writeRow s w grp true x).2.setSlate x.row (slateAfter m (s.slate x.row))
        else (if m.reads = true then Machine.readRow s w grp x else Machine.writeRow s w grp true x).2) := by
    have row : CuesKept r (if m.reads = true then Machine.readRow s w grp x else Machine.writeRow s w grp true x).2 :=
      CuesKept.eitherSnd (h.still ((Undisturbed.refl s).readRow ..)) (h.writeRow ..)
    have slated := CuesKept.either (c := c = true) (row.still ((Undisturbed.refl _).setSlate x.row (slateAfter m (s.slate x.row)))) row
    exact CuesKept.either (slated.slotFullBy ..) slated
  unfold Machine.slatedRow
  generalize s.before x.row grp = before
  obtain ⟨old, tag⟩ := before
  dsimp only
  refine CuesKept.eitherSnd (closes (checked _ _) _ _) (CuesKept.eitherSnd (closes (checked _ _) _ _) (CuesKept.eitherSnd
    (closes ((checked _ _).still ((Undisturbed.refl _).poisonHit ..)) _ _) (CuesKept.eitherSnd (closes (checked _ _) _ _)
      (CuesKept.eitherSnd (closes (checked _ _) _ _) ?_))))
  exact CuesKept.either (CuesKept.set (performed _ _)) (performed _ _)

theorem CuesKept.rowAccess (w : Who) (op : Op) (joined : Bool) (m : Mode) (x : RowReq) : CuesKept r (rowAccess s w op joined m x).2 := by
  rw [Machine.rowAccess]
  split
  · exact h.still ((Undisturbed.refl s).countLake ..)
  · dsimp only
    refine CuesKept.either (CuesKept.set (s := Prod.snd (α := RowOut) _) ?_) ?_
    all_goals
      split
      · exact CuesKept.eitherSnd (h.atomRow ..) (CuesKept.eitherSnd (h.writeRow ..) (h.still ((Undisturbed.refl s).readRow ..)))
      · exact h.slatedRow ..

/-! ### Requests of a Spring (R170, R178) -/

theorem CuesKept.springCanal (n : Nat) (d : Desc) (i : Nat) (op : Op) (x : BitVec 64) (words : Nat) (data : List Word) (global : Bool) :
    CuesKept r (s.springCanal n d i op x words data global) :=
  h.trans (s.springCanal_absorbed CuesKept.absorbs n d i op x words data global fun _ _ _ _ _ s _ _ _ => (CuesKept.refl s).rowAccess ..)

theorem CuesKept.count (o : Occ) : CuesKept r (s.count o) := h.still ((Undisturbed.refl s).count o)

theorem CuesKept.springRemote (n : Nat) (d : Desc) (i : Nat) (op : Op) (x : BitVec 64) (words : Nat) (data : List Word) :
    CuesKept r (s.springRemote n d i op x words data) := by
  obtain ⟨cnt, sent⟩ := s.springRemote_eq n d i op x words data
  rw [sent]
  exact h.set

theorem CuesKept.refuseSpring (n : Nat) (w : Who) (addr : Nat) : CuesKept r (s.refuseSpring n w addr) :=
  (h.still ((Undisturbed.refl s).countLake n 0x0D w.quals (some w.label) 1)).set.still ((Undisturbed.refl _).log ..)

theorem CuesKept.shoreS (n : Nat) (d : Desc) (w : Who) (op : Op) (m : Mode) (p : Piece) (data : List Word) :
    CuesKept r (s.shoreS n d w op m p data).2 := by
  have placed := (h.count { set := .spring, inst := n, ev := 0x49, quals := d.quals, label := some d.slot.label }).still
    ((Undisturbed.refl _).place w n op m false [pieceRow p data])
  have accessed := placed.rowAccess w op false m (pieceRow p data)
  rw [State.shoreS]
  exact CuesKept.either (CuesKept.still (CuesKept.set accessed) ((Undisturbed.refl _).deadlines ..)) (CuesKept.set accessed)

theorem CuesKept.springRead (n : Nat) (d : Desc) (p : Piece) : CuesKept r (s.springRead n d p).2 := by
  rw [State.springRead]
  refine CuesKept.eitherSnd (h.refuseSpring ..) ?_
  exact h.shoreS n d (springWho s n d true) .read .plain p []

/-! ### Faults and what an abort does (R189, R190, R192) -/

theorem CuesKept.modDesc (n q : Nat) (f : Desc → Desc) : CuesKept r (s.modDesc n q f) := h.set

theorem CuesKept.modSpring (n : Nat) (f : Spring → Spring) : CuesKept r (s.modSpring n f) := h.set

theorem CuesKept.discard (n bytes : Nat) (label : Option Nat) : CuesKept r (s.discard n bytes label) :=
  (h.count { set := .spring, inst := n, ev := 0x4D, label := label, n := bytes }).modSpring ..

theorem CuesKept.followOn (n : Nat) (label : Option Nat) : CuesKept r (s.followOn n label) :=
  (h.count { set := .spring, inst := n, ev := 0x4F, label := label }).set

theorem CuesKept.abortLake (p : Principal) (n : Nat) : CuesKept r (State.abortLake p s n) := by
  rw [State.abortLake]
  refine CuesKept.still ?_ ((Undisturbed.refl _).releaseWaiters ..)
  refine CuesKept.foldl (CuesKept.foldl ?_ (fun _ hs _ => hs.followOn ..) _) (fun t ht x => ?_) _
  · exact CuesKept.discard (CuesKept.modSpring (CuesKept.count h _) ..) ..
  · exact CuesKept.either (ht.still ((Undisturbed.refl t).endTake ..)) ht

theorem CuesKept.startAbort (f : Faulted) (byFault : Bool) : CuesKept r (s.startAbort f byFault) :=
  CuesKept.foldl h.set (fun _ hs _ => hs.abortLake ..) _

theorem CuesKept.fault (f : Faulted) (addr : BitVec 64) : CuesKept r (s.fault f addr) := by
  have recorded : CuesKept r (s.recordFault f.lake f addr) := (h.count { set := .spring, inst := f.lake, ev := 0x4E }).set
  rw [State.fault]
  split
  · exact (h.followOn ..).modDesc ..
  · split
    · exact h.followOn ..
    · dsimp only
      split
      · exact recorded.startAbort ..
      · split
        · exact recorded.set
        · exact recorded.set

theorem CuesKept.badStatus (n : Nat) (d : Desc) (st : Status) (addr : BitVec 64) : CuesKept r (s.badStatus n d st addr) := by
  rw [State.badStatus]
  split
  · exact h.followOn ..
  · exact (h.modDesc n d.seq _).fault ..

/-! ### Landings and issues (R178, R182, R183, R210) -/

theorem CuesKept.landOne (n : Nat) (d : Desc) (i : Nat) (data : List Word) (since : Option Nat) : CuesKept r (s.landOne n d i data since).2 := by
  unfold State.landOne
  split
  · exact h
  · next p _ =>
    dsimp only
    refine CuesKept.eitherSnd ((h.refuseSpring ..).badStatus ..) (CuesKept.eitherSnd (h.still ((Undisturbed.refl s).wakeIdle n))
      (CuesKept.eitherSnd h (CuesKept.eitherSnd ?_ ?_)))
    · exact ((h.count _).still ((Undisturbed.refl _).turnAway ..)).still ((Undisturbed.refl _).countLake ..)
    · have written := h.shoreS n d { springWho s n d true with issued := since.getD s.pw.now } .write (if dSlate d.w = true then .land d.seq else .plain) p data
      split
      · next ran =>
        rw [ran] at written
        exact written.still ((Undisturbed.refl _).wait ..)
      · next ran =>
        rw [ran] at written
        have cleared := CuesKept.either (c := (if dSlate d.w = true then Mode.land d.seq else Mode.plain) = Mode.plain) written
          (written.still ((Undisturbed.refl _).backoffClear (.waiters (Fin.ofNat 24 n)) (springWho s n d true).ident))
        exact CuesKept.eitherSnd (CuesKept.modDesc cleared ..) (cleared.badStatus ..)

theorem CuesKept.land (n q fuel : Nat) : CuesKept r (State.land n q fuel s) := by
  induction fuel generalizing s with
  | zero => exact h
  | succ fuel ih =>
    rw [State.land]
    split
    · exact h
    · split
      · exact h
      · split
        · exact h
        · next d _ _ _ i data _ =>
          have landed := h.landOne n d i data none
          split
          · next ran =>
            rw [ran] at landed
            exact ih landed
          · next ran =>
            rw [ran] at landed
            exact landed

theorem CuesKept.landAll (n q : Nat) : CuesKept r (s.landAll n q) := by
  rw [State.landAll]
  split
  · exact h.land ..
  · exact h

theorem CuesKept.ask (n q i : Nat) : CuesKept r (s.ask n q i) := h.set

theorem CuesKept.emit (o : Out) : CuesKept r (s.emit o) := h.set

theorem CuesKept.issuePiece (n q : Nat) (p : Piece) : CuesKept r (State.issuePiece n q s p) := by
  unfold State.issuePiece
  split
  · exact h
  · next d _ =>
    have read := h.springRead n d p
    split
    · exact h
    · dsimp only
      split
      · exact CuesKept.either (h.ask ..) ((h.ask ..).emit _)
      · generalize s.springRead n d p = x at read
        refine CuesKept.either ?_ (read.badStatus ..)
        obtain ⟨cnt, basin, stored⟩ := State.basinStore_frame (State.countSpring ((x.2.ask n q p.i).emit (.stackWrite n q p.i (stackOf s p.other).1
          (stackOf s p.other).2 x.1.words d.slot.label)) n 0x48 (32 * p.n) (some d.slot.label) d.quals) (stackOf s p.other).1 (stackOf s p.other).2
          (32 * p.n)
        have counted := CuesKept.count (s := (x.2.ask n q p.i).emit (.stackWrite n q p.i (stackOf s p.other).1 (stackOf s p.other).2 x.1.words
          d.slot.label)) ((read.ask ..).emit _) { set := .spring, inst := n, ev := 0x48, quals := d.quals, label := some d.slot.label, n := 32 * p.n }
        rw [stored]
        exact counted.set
      · exact (h.ask ..).springRemote ..
      · generalize s.springRead n d p = x at read
        exact CuesKept.either (CuesKept.either ((read.ask ..).springCanal ..) ((read.ask ..).springRemote ..)) (read.badStatus ..)
      · exact (h.ask ..).springCanal ..
      · exact h

theorem CuesKept.issue (n q : Nat) : CuesKept r (s.issue n q) := by
  rw [State.issue]
  split
  · exact h
  · split
    · exact h
    · split
      · exact h.still ((Undisturbed.refl s).wakeIdle n)
      · exact CuesKept.either (((h.modDesc n q _).modDesc n q _).landAll ..) ((h.modDesc n q _).foldl (fun _ hs _ => hs.issuePiece ..) _)

theorem CuesKept.issueWaiting (n : Nat) : CuesKept r (s.issueWaiting n) := h.foldl (fun _ hs _ => hs.issue ..) _

theorem CuesKept.meetOrder (n : Nat) : CuesKept r (s.meetOrder n) := h.set

end

end Sys2Proof.Machine
end

section
/-!
PROOF. Completion (O20): a finished descriptor ends with its rows FULL, what waits goes on, and its cue is signalled a T-cycle later (R184, R221).
-/
namespace Sys2Proof.Machine

-- One theorem after another: elaborated side by side, these theorems would each hold a thread and its stack.
set_option Elab.async false

/-! ### Cues that are served (R231, R232) -/

/-- From `s` to `t` no time has passed, and every cue may be signalled by whom it could. -/
structure CuesServed (s t : State) : Prop where
  pw : t.pw = s.pw
  variant : t.variant = s.variant
  rights : ∀ k, (t.cue k).owner = (s.cue k).owner ∧ (t.cue k).sigOpen = (s.cue k).sigOpen

theorem CuesServed.refl (s : State) : CuesServed s s := ⟨rfl, rfl, fun _ => ⟨rfl, rfl⟩⟩

theorem CuesServed.trans {a b c : State} (h : CuesServed a b) (k : CuesServed b c) : CuesServed a c :=
  ⟨k.pw.trans h.pw, k.variant.trans h.variant, fun i => ⟨(k.rights i).1.trans (h.rights i).1, (k.rights i).2.trans (h.rights i).2⟩⟩

theorem CuesKept.served {s t : State} (h : CuesKept s t) : CuesServed s t :=
  ⟨h.pw, h.variant, fun k => by rw [State.cue, h.cues, h.variant]; exact ⟨rfl, rfl⟩⟩

theorem CuesServed.maySignal {s t : State} (h : CuesServed s t) (priv : Bool) (pr : Principal) (k : Nat) :
    t.maySignal priv pr k = s.maySignal priv pr k := by
  rw [State.maySignal, State.maySignal, (h.rights k).1, (h.rights k).2]

/-- A cue's count changes. -/
theorem State.modCue_served (s : State) (k : Nat) {f : Cue → Cue} (owner : ∀ x, (f x).owner = x.owner) (sigOpen : ∀ x, (f x).sigOpen = x.sigOpen) :
    CuesServed s (s.modCue k f) := by
  refine ⟨rfl, rfl, fun j => ?_⟩
  by_cases own : j = k
  · rw [own, State.modCue_cue_same, owner, sigOpen]
    exact ⟨rfl, rfl⟩
  · rw [State.modCue_cue_other _ _ _ _ own]
    exact ⟨rfl, rfl⟩

theorem State.meet_served (s : State) (k : Nat) (x : HeldWait) : CuesServed s (s.meet k x) := by
  have taken := s.modCue_served k (f := fun c => { c with count := c.count - x.n }) (fun _ => rfl) fun _ => rfl
  rw [State.meet]
  split
  · exact taken.trans (((Undisturbed.refl _).set.deadlines ..).reply ..).cuesKept.served
  · exact taken.trans ((CuesKept.refl _).modDesc ..).served

theorem State.serveCue_served (s : State) (k fuel : Nat) : CuesServed s (State.serveCue k fuel s) := by
  induction fuel generalizing s with
  | zero => exact .refl s
  | succ fuel ih =>
    rw [State.serveCue]
    split
    · exact .refl s
    · split
      · exact (s.meet_served ..).trans (ih _)
      · exact .refl s

theorem State.serveCues_served (s : State) : CuesServed s s.serveCues := by
  rw [State.serveCues]
  generalize s.cues = l
  induction l generalizing s with
  | nil => exact .refl s
  | cons e l ih => exact (s.serveCue_served ..).trans (ih _)

/-- What waits for others goes on without time, and changes no cue but its count. -/
theorem State.takeUp_served (s : State) : CuesServed s s.takeUp :=
  s.serveCues_served.trans (((CuesKept.refl _).foldl (fun _ hs _ => (hs.issueWaiting _).meetOrder _) _).served)

theorem MarksMet.cuesKept {s t : State} (h : MarksMet s t) : CuesKept s t := by
  obtain ⟨springs, rfl⟩ := h.frame
  exact (CuesKept.refl s).set

theorem State.signal_served (s : State) (k n : Nat) : CuesServed s (s.signal k n) := by
  rw [State.signal, State.cueChanged]
  refine CuesServed.trans (CuesServed.trans (s.modCue_served k ?_ ?_) (State.meetMarks_marksMet _ k).cuesKept.served) (State.serveCue_served ..)
  · exact fun _ => rfl
  · exact fun _ => rfl

/-! ### The next T-cycle (R184) -/

/-- The next T-cycle is reached, and no cue has changed. -/
theorem State.reach_next (s : State) : (s.reach (s.pw.now + 1)).pw.now = s.pw.now + 1 ∧ ∀ k, (s.reach (s.pw.now + 1)).cue k = s.cue k := by
  obtain ⟨cnt, lakes, springs, passed⟩ := s.elapse_frame 1
  rw [← s.elapse_eq_reach, passed]
  exact ⟨rfl, fun _ => rfl⟩

/-! ### The completion step (R184, R221) -/

theorem State.sole.modReel {s : State} {n : Nat} {d : Desc} (h : s.sole n d) (e : Nat) (f : Reel → Reel) : (s.modReel e f).sole n d := h.congr rfl

theorem State.slotFull_sole {s : State} {n : Nat} {d : Desc} (h : s.sole n d) (row : Nat) (pr : Principal) (priv : Bool) (label : Nat) (segs : List Seg) :
    (s.slotFull row pr priv label segs).sole n d := by
  unfold State.slotFull
  extract_lets
  split
  · exact h
  · refine State.sole.modReel (State.sole.modSpring h ?_) ..
    exact fun _ => rfl

theorem State.slotsFull_sole {s : State} {n : Nat} {d : Desc} (h : s.sole n d) (rows : List Nat) (pr : Principal) (priv : Bool) (label : Nat)
    (segs : List Seg) : (s.slotsFull rows pr priv label segs).sole n d := by
  rw [State.slotsFull]
  induction rows generalizing s with
  | nil => exact h
  | cons x rows ih =>
    refine ih ?_
    dsimp only
    split
    · exact State.slotFull_sole h ..
    · exact h

/-- The rows that a descriptor landed are FULL, and it has ended, which its Spring's depth follows (R184, R186, R210, R221). -/
def State.completed (s : State) (n : Nat) (d : Desc) : State :=
  ((((s.descStep n [d] .full).slotsFull (s.stepRows n d) d.slot.pr d.slot.priv d.slot.label d.slot.segs).countSpring n 0x43 1 (some d.slot.label)
    d.quals).modDesc n d.seq fun d => { d with stage := .ended }).modSpring n fun x => { x.adjust d with trkDesc := x.trkDesc + b2n d.trickle }

/-- With `SIG_DONE` the cue of a descriptor that has completed is signalled in the next T-cycle (R184). -/
def State.signalsDone (s : State) (n : Nat) (d : Desc) : State :=
  if !dSigDone d.w then s
  else
    let v := s.reach (s.pw.now + 1)
    if v.maySignal d.slot.priv d.slot.pr (dCue d.w) then v.signal (dCue d.w) 1 else (v.descFault n d .nackOwner 0).takeUp

theorem State.complete_eq (s : State) (n : Nat) (d : Desc) : s.complete n d = (s.completed n d).takeUp.signalsDone n d := by
  rw [State.complete, State.signalsDone, State.completed]

section
variable {s : State} {n : Nat} {d : Desc}

theorem State.completed_frame : ∃ springs reels lakes lpow cnt, s.completed n d =
    { s with springs := springs, reels := reels, lakes := lakes, lpow := lpow, cnt := cnt } ∧
    ∀ r, (s.completed n d).slate r = if s.landedBy n d r then .full else s.slate r := by
  obtain ⟨lakes, lpow, cnt, stepped⟩ := s.descStep_frame n [d] .full
  have slate := s.descStep_slate n [d] .full
  obtain ⟨springs, reels, seen⟩ := (s.descStep n [d] .full).slotsFull_frame (s.stepRows n d) d.slot.pr d.slot.priv d.slot.label d.slot.segs
  obtain ⟨cnt', counted⟩ := (State.slotsFull (s.descStep n [d] .full) (s.stepRows n d) d.slot.pr d.slot.priv d.slot.label d.slot.segs).count_frame
    { set := .spring, inst := n, ev := 0x43, quals := d.quals, label := some d.slot.label }
  have whole : s.completed n d = (State.modDesc { s with springs := springs, reels := reels, lakes := lakes, lpow := lpow, cnt := cnt' } n d.seq
      Desc.ends).modSpring n fun x => { x.adjust d with trkDesc := x.trkDesc + b2n d.trickle } := by
    rw [State.completed, State.countSpring, counted, seen, stepped]
    rfl
  refine ⟨_, reels, lakes, lpow, cnt', whole, fun r => ?_⟩
  rw [whole, ← s.stepTakes_singleton, ← slate, stepped]
  rfl

theorem State.completed_sole (h : s.sole n d) : (s.completed n d).sole n d.ends := by
  obtain ⟨lakes, lpow, cnt, stepped⟩ := s.descStep_frame n [d] .full
  have step : (s.descStep n [d] .full).sole n d := State.sole.congr h (by rw [stepped]; rfl)
  have seen := State.slotsFull_sole step (s.stepRows n d) d.slot.pr d.slot.priv d.slot.label d.slot.segs
  obtain ⟨cnt', counted⟩ := (State.slotsFull (s.descStep n [d] .full) (s.stepRows n d) d.slot.pr d.slot.priv d.slot.label d.slot.segs).count_frame
    { set := .spring, inst := n, ev := 0x43, quals := d.quals, label := some d.slot.label }
  rw [State.completed, State.countSpring, counted]
  exact State.sole.modSpring (State.sole.modDesc (f := Desc.ends) (State.sole.congr seen rfl) fun _ => rfl) fun x => x.adjust_descs d

/-- A descriptor without data to land lands nothing. -/
theorem State.landAll_none (h : s.sole n d) (ready : d.ready = []) : s.landAll n d.seq = s := by
  have nothing : d.nextLanding = none := by rw [Desc.nextLanding, ready]; rfl
  rw [State.landAll, h.desc]
  dsimp only
  rw [ready, State.land, h.desc]
  dsimp only
  rw [nothing]
  exact ite_self _

theorem exec_descriptorComplete {n : Fin 24} (h : s.sole n d) (finished : d.finished = true) (ready : d.ready = [])
    (room : dSlate d.w = true → s.tableFull n = false) : exec (.descriptorComplete n d.seq) s = .next (s.complete n d) := by
  have waits : (dSlate d.w && s.tableFull n) = false := by
    cases slated : dSlate d.w
    · rfl
    · exact room slated
  refine congrArg Host.Outcome.next ?_
  rw [State.completeStep, State.landAll_none h ready, h.desc]
  dsimp only
  rw [if_neg (by rw [finished]; decide), if_neg (by rw [waits]; decide)]

end

/-! ### The signal of a completion (R184, R230) -/

section
variable {s : State} {n : Nat} {d : Desc}

theorem State.signalsDone_unsignalled (unsignalled : dSigDone d.w = false) : s.signalsDone n d = s :=
  if_pos (by rw [unsignalled]; rfl)

/-- A completion whose cue may be signalled signals it in the next T-cycle. -/
theorem State.signalsDone_signals (signals : dSigDone d.w = true) (may : s.maySignal d.slot.priv d.slot.pr (dCue d.w) = true) :
    s.signalsDone n d = (s.reach (s.pw.now + 1)).signal (dCue d.w) 1 ∧
      ((s.reach (s.pw.now + 1)).signal (dCue d.w) 1).pw.now = s.pw.now + 1 := by
  obtain ⟨now, cues⟩ := s.reach_next
  have still : (s.reach (s.pw.now + 1)).maySignal d.slot.priv d.slot.pr (dCue d.w) = true := by
    rw [State.maySignal, cues]
    exact may
  refine ⟨?_, (congrArg Power.now (State.signal_served _ _ _).pw).trans now⟩
  rw [State.signalsDone, signals, if_neg (by decide)]
  exact if_pos still

/-- A signal of 1 of a cue that no one waits on raises its count, and changes no other cue (R230). -/
theorem State.signal_counts {k : Nat} (none_held : heldWaits s k = []) :
    ((s.signal k 1).cue k).count = min ((s.cue k).count + 1) 65535 ∧ ∀ j, j ≠ k → (s.signal k 1).cue j = s.cue j := by
  have met := State.signal_marksMet none_held 1
  refine ⟨?_, fun j other => ?_⟩
  · rw [met.cue, State.modCue_cue_same]
    rfl
  · rw [met.cue, State.modCue_cue_other _ _ _ _ other]

/-- Nothing goes on where no cue wait is held, no transfer has still to be issued, and no MARK waits for the descriptors before it (R185, R210,
R231). -/
theorem State.takeUp_idle (canonical : s.canonical = true) (waits : ∀ k, heldWaits s k = []) (issued : ∀ n < 24, s.allIssued n = true)
    (ordered : ∀ n < 24, s.noneOrdered n = true) : s.takeUp = s := by
  have springs := (State.canonical_iff.1 canonical).springs
  rw [State.takeUp, State.serveCues_eq_self waits]
  refine foldl_invariant (f := fun (s : State) n => (s.issueWaiting n).meetOrder n) (l := List.range Config.lakes) (P := fun _ t => t = s) rfl fun done n rest whole t same => ?_
  have present : n < 24 := List.mem_range.1 (show n ∈ List.range Config.lakes by rw [whole]; simp)
  rw [same, State.issueWaiting_eq_self (issued n present), State.meetOrder_eq_self springs (ordered n present)]

end

/-! ### Answers and completion, settled -/

theorem pieceOf_mem {d : Desc} {i : Nat} {p : Piece} (piece : pieceOf d i = some p) : p ∈ piecesOf d.w := List.mem_of_find?_eq_some piece

/-- Settles O20: the next piece is landed by the one write that a clean row takes, and a completion is the step of its rows and the signal that
follows it. -/
theorem stackAnswersAndCompletion : Obligations.StackAnswersAndCompletion := by
  refine ⟨fun s n d p ws sole asked waits piece => ⟨?_, fun kind => ?_⟩,
    fun s n d _ sole finished ready room => ⟨s.completed n d, ⟨d.ends, (State.completed_sole sole).desc, rfl, rfl, rfl⟩, ?_⟩,
    fun s canonical held issued ordered => State.takeUp_idle canonical held issued ordered⟩
  · intro kind unshared flight removed cut failed ready next _ idle own unarmed maint draining slated
    obtain ⟨on, rows⟩ := State.ownClean_iff.1 own
    obtain ⟨clean, lake⟩ := rows p (pieceOf_mem piece)
    have same : Fin.ofNat 24 n = n := Fin.ext (Nat.mod_eq_of_lt n.2)
    have lands : s.Lands n d p := ⟨on, draining, clean, lake, piecesOf_inRow (pieceOf_mem piece), unarmed, maint, by rw [same]; exact slated⟩
    obtain ⟨springs, cnt, t, ran, desc, landing⟩ :=
      exec_stackReadReturn (ws := ws) sole asked waits piece kind unshared flight removed cut failed ready next idle lands
    refine ⟨_, ran, ?_, landing.words, landing.slate, ?_⟩
    · rw [desc, Desc.landsNext, ready]
    · obtain ⟨mem, rows, lakes, weir, cnt', backoff, group, ps, inPond, frame⟩ := landing.frame
      rw [frame]
      rfl
  · obtain ⟨u, ran, desc, springs, frame⟩ := exec_stackWriteAck sole asked waits kind
    exact ⟨u, ran, desc, by rw [frame]⟩
  · obtain ⟨springs, reels, lakes, lpow, cnt, frame, slates⟩ := State.completed_frame (s := s) (n := n) (d := d)
    have served := (s.completed n d).takeUp_served
    have pw : (s.completed n d).pw = s.pw := by rw [frame]
    have now : (s.completed n d).takeUp.pw.now = s.pw.now := congrArg Power.now (served.pw.trans pw)
    have ran := exec_descriptorComplete sole finished ready room
    rw [State.complete_eq] at ran
    refine ⟨slates, by rw [frame], by rw [frame], by rw [frame], pw, fun unsignalled => ?_, fun signals may => ?_⟩
    · rw [ran, State.signalsDone_unsignalled unsignalled]
    · have still : (s.completed n d).takeUp.maySignal d.slot.priv d.slot.pr (dCue d.w) = true := by
        rw [served.maySignal, frame]
        exact may
      obtain ⟨signalled, later⟩ := State.signalsDone_signals (n := n) signals still
      rw [now] at signalled later
      exact ⟨_, by rw [ran, signalled], rfl, later, fun none_held => State.signal_counts none_held⟩

end Sys2Proof.Machine
end

section
/-!
PROOF. What a Spring's descriptors keep (O31): as accesses are performed, data is landed and what waits goes on, no descriptor loses its number,
its words, what it has asked for or what has come back for it (R182, R184, R187, R190).
-/
namespace Sys2Proof.Machine

-- One theorem after another: elaborated side by side, these theorems would each hold a thread and its stack.
set_option Elab.async false

/-! ### Descriptors that go on -/

/-- A descriptor has gone on: it keeps its number and its words, and nothing that it asked for, or that came back, is forgotten. -/
structure Desc.Goes (d e : Desc) : Prop where
  seq : e.seq = d.seq := by rfl
  w : e.w = d.w := by rfl
  asked : d.asked ⊆ e.asked := by exact List.Subset.refl _
  returned : d.returned ⊆ e.returned := by exact List.Subset.refl _

theorem Desc.Goes.refl (d : Desc) : d.Goes d := {}

theorem Desc.Goes.trans {a b c : Desc} (h : a.Goes b) (k : b.Goes c) : a.Goes c :=
  ⟨k.seq.trans h.seq, k.w.trans h.w, List.Subset.trans h.asked k.asked, List.Subset.trans h.returned k.returned⟩

theorem Desc.Goes.pieceOf {d e : Desc} (h : d.Goes e) (i : Nat) : pieceOf e i = pieceOf d i := by rw [Machine.pieceOf, Machine.pieceOf, h.w]

theorem Desc.Goes.asks {d e : Desc} (h : d.Goes e) {i : Nat} (asked : d.asked.contains i = true) : e.asked.contains i = true :=
  List.contains_iff_mem.2 (h.asked (List.contains_iff_mem.1 asked))

theorem Desc.Goes.has {d e : Desc} (h : d.Goes e) {i : Nat} (returned : d.returned.contains i = true) : e.returned.contains i = true :=
  List.contains_iff_mem.2 (h.returned (List.contains_iff_mem.1 returned))

theorem Desc.Goes.answered (d : Desc) (i : Nat) : d.Goes (d.answered i) := { returned := List.subset_append_left _ _ }

/-- From `s` to `t` every descriptor is still there, and has gone on. -/
structure DescsKept (s t : State) : Prop where
  goes : ∀ {n q d}, s.desc n q = some d → ∃ e, t.desc n q = some e ∧ d.Goes e

theorem DescsKept.refl (s : State) : DescsKept s s := ⟨fun {_ _ d} found => ⟨d, found, .refl d⟩⟩

theorem DescsKept.trans {a b c : State} (h : DescsKept a b) (k : DescsKept b c) : DescsKept a c := by
  refine ⟨fun found => ?_⟩
  obtain ⟨e, found, goes⟩ := h.goes found
  obtain ⟨e', found, goes'⟩ := k.goes found
  exact ⟨e', found, goes.trans goes'⟩

/-- Springs that are as they were. -/
theorem DescsKept.of_springs {s t : State} (springs : t.springs = s.springs) : DescsKept s t := by
  refine ⟨fun {n q d} found => ⟨d, ?_, .refl d⟩⟩
  rw [State.desc, State.spring, springs]
  exact found

theorem DescsKept.absorbs : Absorbs DescsKept := ⟨fun h => .of_springs h.springs, DescsKept.trans⟩

/-- Descriptors that all go on are found by their numbers as before. -/
theorem State.desc_map {s t : State} {n q : Nat} {d : Desc} {g : Desc → Desc} (changed : (t.spring n).descs = (s.spring n).descs.map g)
    (goes : ∀ d : Desc, d.Goes (g d)) (found : s.desc n q = some d) : t.desc n q = some (g d) := by
  have number : ((fun e : Desc => (Decidable.decide (e.seq = q) : Bool)) ∘ g) = fun e => Decidable.decide (e.seq = q) :=
    funext fun e => by simp [(goes e).seq]
  rw [State.desc, changed, List.find?_map, number, ← State.desc, found]
  rfl

theorem State.modSpring_descsKept (s : State) (n : Nat) {f : Spring → Spring}
    (each : ∀ x, ∃ g : Desc → Desc, (f x).descs = x.descs.map g ∧ ∀ d : Desc, d.Goes (g d)) : DescsKept s (s.modSpring n f) := by
  refine ⟨fun {m q d} found => ?_⟩
  by_cases own : m = n
  · subst own
    obtain ⟨g, changed, goes⟩ := each (s.spring m)
    exact ⟨g d, State.desc_map (by rw [State.modSpring_spring_same, changed]) goes found, goes d⟩
  · refine ⟨d, ?_, .refl d⟩
    rw [State.desc, State.modSpring_spring_other _ _ _ _ own]
    exact found

section
variable {r s t : State} (h : DescsKept r s)
include h

theorem DescsKept.still (k : Undisturbed s t) : DescsKept r t := h.trans (.of_springs k.springs)

/-- A change of no Spring. -/
theorem DescsKept.set (springs : t.springs = s.springs := by rfl) : DescsKept r t := h.trans (.of_springs springs)

theorem DescsKept.either {c : Prop} [Decidable c] (k : DescsKept r t) : DescsKept r (if c then s else t) := by
  split
  · exact h
  · exact k

theorem DescsKept.foldl {α : Type} {f : State → α → State} (hf : ∀ s, DescsKept r s → ∀ x, DescsKept r (f s x)) (l : List α) :
    DescsKept r (l.foldl f s) := by
  induction l generalizing s with
  | nil => exact h
  | cons x l ih => exact ih (hf s h x)

/-- A change of a Spring beside its descriptors. -/
theorem DescsKept.modSpring (n : Nat) {f : Spring → Spring} (kept : ∀ x, (f x).descs = x.descs := by exact fun _ => rfl) :
    DescsKept r (s.modSpring n f) :=
  h.trans (s.modSpring_descsKept n fun x => ⟨id, by rw [kept, List.map_id], .refl⟩)

theorem DescsKept.modDesc (n q : Nat) {f : Desc → Desc} (goes : ∀ d : Desc, d.Goes (f d) := by exact fun _ => {}) : DescsKept r (s.modDesc n q f) := by
  refine h.trans (s.modSpring_descsKept n fun x => ⟨_, rfl, fun d => ?_⟩)
  split
  · exact goes d
  · exact .refl d

theorem DescsKept.count (o : Occ) : DescsKept r (s.count o) := h.still ((Undisturbed.refl s).count o)

end

theorem DescsKept.eitherSnd {α : Type} {r : State} {x y : α × State} {c : Prop} [Decidable c] (h : DescsKept r x.2) (k : DescsKept r y.2) :
    DescsKept r (if c then x else y).2 := by
  split
  · exact h
  · exact k

theorem MarksMet.descsKept {s t : State} (h : MarksMet s t) : DescsKept s t := by
  refine ⟨fun {n q d} found => ?_⟩
  obtain ⟨f, changed, met⟩ := h.spring n
  have goes (e : Desc) : e.Goes (f e) := by
    obtain same | ⟨-, set⟩ := met e
    · exact same.symm ▸ .refl e
    · exact set.symm ▸ {}
  exact ⟨f d, State.desc_map (by rw [changed]) goes found, goes d⟩

/-! ### Time that passes (R186, R330) -/

/-- What a key reads as changes with its table where it does not become what an unlisted key reads as. -/
theorem get_mapTab_of_ne {α : Type} [DecidableEq α] {d : Nat → α} {t : Tab α} {f : Nat → α → α} {k : Nat} (unlisted : f k (d k) = d k)
    (ne : f k (Tab.get d t k) ≠ d k) : Tab.get d (mapTab d f t) k = f k (Tab.get d t k) := by
  induction t with
  | nil => exact absurd unlisted ne
  | cons e t ih =>
    rw [mapTab] at ih ⊢
    rw [List.map_cons, List.filter_cons]
    by_cases own : e.1 = k
    · rw [Tab.get, if_pos own] at ne ⊢
      subst own
      rw [if_pos (by simpa using ne), Tab.get, if_pos rfl]
    · rw [Tab.get, if_neg own] at ne ⊢
      split
      · rw [Tab.get, if_neg own, ih ne]
      · exact ih ne

/-- The flags that a descriptor in flight takes of the T-cycles that pass (R186). -/
def Desc.flagged (stalls : Bool) (d : Desc) : Desc :=
  if d.stage = .flight then { d with depthLim := true, stalled := d.stalled || stalls } else d

theorem Desc.Goes.flagged (stalls : Bool) (d : Desc) : d.Goes (d.flagged stalls) := by
  rw [Desc.flagged]
  split
  · exact {}
  · exact .refl d

/-- A Spring after T-cycles that pass (R186). -/
def State.flagSpring (s : State) (n : Nat) (x : Spring) : Spring :=
  if depthLimited s n then { x with descs := x.descs.map (Desc.flagged (consumerStalled s n)) } else x

theorem State.flagSpring_descs (s : State) (n : Nat) (x : Spring) :
    ∃ g : Desc → Desc, (s.flagSpring n x).descs = x.descs.map g ∧ ∀ d : Desc, d.Goes (g d) := by
  rw [State.flagSpring]
  split
  · exact ⟨_, rfl, .flagged _⟩
  · exact ⟨id, (List.map_id _).symm, .refl⟩

/-- A Spring with descriptors takes the flags, whatever the form of its table. -/
theorem State.flagDepth_spring {s : State} {n : Nat} (some_ : (s.spring n).descs ≠ []) : s.flagDepth.spring n = s.flagSpring n (s.spring n) := by
  have unlisted : s.flagSpring n Spring.reset = Spring.reset := by
    rw [State.flagSpring]
    split <;> rfl
  refine get_mapTab_of_ne (d := fun _ => Spring.reset) (f := s.flagSpring) unlisted fun same => some_ ?_
  obtain ⟨g, flags, -⟩ := s.flagSpring_descs n (s.spring n)
  rw [show s.flagSpring n (s.spring n) = Spring.reset from same] at flags
  exact List.map_eq_nil_iff.1 flags.symm

theorem State.flagDepth_descsKept (s : State) : DescsKept s s.flagDepth := by
  refine ⟨fun {n q d} found => ?_⟩
  have some_ : (s.spring n).descs ≠ [] := by
    intro none_
    rw [State.desc, none_] at found
    exact absurd found (by simp)
  obtain ⟨g, flags, goes⟩ := s.flagSpring_descs n (s.spring n)
  exact ⟨g d, State.desc_map (by rw [State.flagDepth_spring some_, flags]) goes found, goes d⟩

theorem State.elapse_descsKept (s : State) (dt : Nat) : DescsKept s (s.elapse dt) := by
  have counted : (s.countLevels dt).springs = s.springs := by
    rw [State.countLevels]
    split <;> rfl
  have filled : ((s.countLevels dt).refill dt).springs = s.springs := by
    rw [State.refill]
    split <;> exact counted
  exact ((DescsKept.of_springs filled).trans (State.flagDepth_descsKept _)).set

end Sys2Proof.Machine
end

section
/-!
PROOF. Row requests, landings, faults and issues leave every descriptor what it has (O31): walks of the Springs' operations (R170 to R194).
-/
namespace Sys2Proof.Machine

-- One theorem after another: elaborated side by side, these theorems would each hold a thread and its stack.
set_option Elab.async false

/-! ### Row requests (R45, R158 to R165, R219) -/

section
variable (s : State) (w : Who) (grp : Option Grp) (x : RowReq)

theorem State.countLake_springs (n ev : Nat) (quals : List Nat) (label : Option Nat) (k : Nat) : (s.countLake n ev quals label k).springs = s.springs :=
  ((Undisturbed.refl s).countLake ..).springs

theorem State.spend_springs (row : Nat) : (s.spend w row grp).springs = s.springs := ((Undisturbed.refl s).spend ..).springs

theorem State.poisonHit_springs (row : Nat) : (s.poisonHit w row).springs = s.springs := ((Undisturbed.refl s).poisonHit ..).springs

theorem State.checkRow_springs (w : Option Who) (row finder : Nat) (t : RowTag) : (s.checkRow w row finder t grp).springs = s.springs :=
  ((Undisturbed.refl s).checkRow ..).springs

theorem State.foundCorr_springs (row : Nat) (us : List Nat) (finder : Nat) : (s.foundCorr row us finder).springs = s.springs :=
  ((Undisturbed.refl s).foundCorr ..).springs

theorem State.foundBad_springs (w : Option Who) (row : Nat) (us : List Nat) (finder : Nat) : (s.foundBad w row us finder).springs = s.springs :=
  ((Undisturbed.refl s).foundBad ..).springs

theorem State.mark_springs (row : Nat) (stale : Bool) : (s.mark row stale).springs = s.springs := ((Undisturbed.refl s).mark ..).springs

theorem storeWords_springs (ws : List (Nat × Word)) : (storeWords s w x ws).springs = s.springs :=
  ((Undisturbed.refl (s.putWords x.row ws)).moved ..).springs

theorem State.takeFlags_springs (n : Nat) (f : MsoFlags) (draws : Nat) : (s.takeFlags n f draws w).springs = s.springs :=
  s.countLake_springs ..

theorem State.inject_springs (row : Nat) : (s.inject row).springs = s.springs := by
  unfold State.inject
  dsimp only
  split <;> rfl

theorem State.refresh_springs (row : Nat) (ws : List Nat) : (s.refresh row ws).springs = s.springs := rfl

theorem State.mergeWbs_springs (row : Nat) (ws : List Nat) : (s.mergeWbs row ws).springs = s.springs := rfl

theorem State.scheduleWb_springs (row : Nat) (t : RowTag) (undo : List (Nat × Word)) (fresh : Bool) :
    (s.scheduleWb row t undo fresh).springs = s.springs := rfl

theorem State.joinGroup_springs (row k : Nat) (old : List Word) (tag : RowTag) (ws atoms : List Nat) (checked : Bool) :
    (s.joinGroup grp row k old tag ws atoms checked).springs = s.springs := rfl

/-- No branch of a plain write touches a Spring. -/
theorem writeRow_springs (whole : Bool) : (writeRow s w grp whole x).2.springs = s.springs := by
  unfold writeRow
  generalize s.before x.row grp = before
  dsimp only
  simp only [apply_ite Prod.snd, apply_ite State.springs, State.countLake_springs, State.spend_springs, State.poisonHit_springs, State.checkRow_springs,
    State.foundCorr_springs, State.foundBad_springs, State.mark_springs, storeWords_springs, State.inject_springs, State.refresh_springs,
    State.mergeWbs_springs, State.scheduleWb_springs, State.joinGroup_springs, State.setTag_springs, ite_self]

/-- No branch of an atomic touches a Spring. -/
theorem atomRow_springs (op : Op) : (atomRow s w grp op x).2.springs = s.springs := by
  unfold atomRow
  generalize s.before x.row grp = before
  dsimp only
  simp only [apply_ite Prod.snd, apply_ite State.springs, State.countLake_springs, State.spend_springs, State.poisonHit_springs, State.checkRow_springs,
    State.foundCorr_springs, State.foundBad_springs, State.mark_springs, storeWords_springs, State.takeFlags_springs, State.refresh_springs,
    State.scheduleWb_springs, State.joinGroup_springs, State.setTag_springs, ite_self]

end

section
variable {r s t : State} (h : DescsKept r s)
include h

theorem DescsKept.modReel (e : Nat) (f : Reel → Reel) : DescsKept r (s.modReel e f) := h.set

/-- A command slot that has become FULL is recorded beside the descriptors (R175). -/
theorem DescsKept.slotFull (row : Nat) (pr : Principal) (priv : Bool) (label : Nat) (segs : List Seg) :
    DescsKept r (s.slotFull row pr priv label segs) := by
  unfold State.slotFull
  extract_lets
  exact h.either (DescsKept.modReel (h.modSpring _) ..)

theorem DescsKept.slotFullBy (row : Nat) (w : Who) : DescsKept r (s.slotFullBy row w) := by
  rw [State.slotFullBy]
  split
  · exact (h.slotFull ..).either (h.slotFull ..)
  · exact h.slotFull ..

theorem DescsKept.slatedRow (w : Who) (grp : Option Grp) (m : Mode) (x : RowReq) : DescsKept r (slatedRow s w grp m x).2 := by
  have closes {t : State} (ht : DescsKept r t) (old : List Word) (tag : RowTag) :
      DescsKept r (if m.alone = true then t.alone x.row else t.joinGroup grp x.row (shoreRank w x.row) old tag [] [] true) :=
    ht.set.either ht.set
  have spent := h.still ((Undisturbed.refl s).spend w x.row grp)
  have checked (c : Bool) (tag : RowTag) : DescsKept r (if c = true then (s.spend w x.row grp).checkRow (some w) x.row 0 tag grp else s.spend w x.row grp) :=
    (spent.still ((Undisturbed.refl _).checkRow ..)).either spent
  have row : DescsKept r (if m.reads = true then Machine.readRow s w grp x else Machine.writeRow s w grp true x).2 :=
    .eitherSnd (h.still ((Undisturbed.refl s).readRow ..)) (h.set (writeRow_springs ..))
  unfold Machine.slatedRow
  generalize s.before x.row grp = before
  obtain ⟨old, tag⟩ := before
  dsimp only
  generalize (if m.reads = true then Machine.readRow s w grp x else Machine.writeRow s w grp true x) = res at row ⊢
  have slated (c : Bool) : DescsKept r (if c = true then res.2.setSlate x.row (slateAfter m (s.slate x.row)) else res.2) :=
    (row.still ((Undisturbed.refl _).setSlate ..)).either row
  have performed (c c' : Bool) : DescsKept r (if c' = true then
      (if c = true then res.2.setSlate x.row (slateAfter m (s.slate x.row)) else res.2).slotFullBy x.row w
      else if c = true then res.2.setSlate x.row (slateAfter m (s.slate x.row)) else res.2) := ((slated c).slotFullBy ..).either (slated c)
  exact .eitherSnd (closes (checked _ _) _ _) (.eitherSnd (closes (checked _ _) _ _)
    (.eitherSnd (closes ((checked _ _).still ((Undisturbed.refl _).poisonHit ..)) _ _) (.eitherSnd (closes (checked _ _) _ _)
      (.eitherSnd (closes (checked _ _) _ _) ((performed _ _).set.either (performed _ _))))))

theorem DescsKept.rowAccess (w : Who) (op : Op) (joined : Bool) (m : Mode) (x : RowReq) : DescsKept r (rowAccess s w op joined m x).2 := by
  have plain (grp : Option Grp) : DescsKept r (if opIsAtomic op = true then Machine.atomRow s w grp op x
      else if op = Op.write then Machine.writeRow s w grp false x else Machine.readRow s w grp x).2 :=
    .eitherSnd (h.set (atomRow_springs ..)) (.eitherSnd (h.set (writeRow_springs ..)) (h.still ((Undisturbed.refl s).readRow ..)))
  rw [Machine.rowAccess]
  split
  · exact h.still ((Undisturbed.refl s).countLake ..)
  · dsimp only
    cases m with
    | plain => exact (plain _).set.either (plain _)
    | _ => exact (h.slatedRow ..).set.either (h.slatedRow ..)

/-! ### Requests of a Spring (R170, R178) -/

theorem DescsKept.springCanal (n : Nat) (d : Desc) (i : Nat) (op : Op) (a : BitVec 64) (words : Nat) (data : List Word) (global : Bool) :
    DescsKept r (s.springCanal n d i op a words data global) :=
  h.trans (s.springCanal_absorbed DescsKept.absorbs n d i op a words data global fun _ _ _ _ _ s _ _ _ => (DescsKept.refl s).rowAccess ..)

theorem DescsKept.springRemote (n : Nat) (d : Desc) (i : Nat) (op : Op) (a : BitVec 64) (words : Nat) (data : List Word) :
    DescsKept r (s.springRemote n d i op a words data) := by
  obtain ⟨cnt, sent⟩ := s.springRemote_eq n d i op a words data
  exact h.set (by rw [sent])

theorem DescsKept.refuseSpring (n : Nat) (w : Who) (addr : Nat) : DescsKept r (s.refuseSpring n w addr) :=
  DescsKept.still (h.still ((Undisturbed.refl s).countLake n 0x0D w.quals (some w.label) 1)).set ((Undisturbed.refl _).log ..)

theorem DescsKept.shoreS (n : Nat) (d : Desc) (w : Who) (op : Op) (m : Mode) (p : Piece) (data : List Word) :
    DescsKept r (s.shoreS n d w op m p data).2 := by
  have placed := (h.count { set := .spring, inst := n, ev := 0x49, quals := d.quals, label := some d.slot.label }).still
    ((Undisturbed.refl _).place w n op m false [pieceRow p data])
  have accessed := placed.rowAccess w op false m (pieceRow p data)
  exact (DescsKept.still accessed.set ((Undisturbed.refl _).deadlines ..)).either accessed.set

theorem DescsKept.springRead (n : Nat) (d : Desc) (p : Piece) : DescsKept r (s.springRead n d p).2 :=
  .eitherSnd (h.refuseSpring ..) (h.shoreS n d (springWho s n d true) .read .plain p [])

/-! ### Faults and what an abort does (R189, R190, R192) -/

theorem DescsKept.discard (n bytes : Nat) (label : Option Nat) : DescsKept r (s.discard n bytes label) :=
  (h.count { set := .spring, inst := n, ev := 0x4D, label := label, n := bytes }).modSpring n

theorem DescsKept.followOn (n : Nat) (label : Option Nat) : DescsKept r (s.followOn n label) :=
  (h.count { set := .spring, inst := n, ev := 0x4F, label := label }).modSpring n

/-- Descriptors that are removed keep what has come back for them (R190). -/
theorem DescsKept.remove (n : Nat) (p : Principal) : DescsKept r (s.modSpring n (·.remove p)) := by
  refine h.trans (s.modSpring_descsKept n fun x => ⟨_, rfl, fun d => ?_⟩)
  split
  · exact {}
  · exact .refl d

theorem DescsKept.abortLake (p : Principal) (n : Nat) : DescsKept r (State.abortLake p s n) := by
  have removed := (h.count { set := .spring, inst := n, ev := 0x4C, n := (s.spring n).removes p }).remove n p
  rw [State.abortLake]
  refine DescsKept.still ?_ ((Undisturbed.refl _).releaseWaiters ..)
  refine DescsKept.foldl (DescsKept.foldl (removed.discard ..) (fun _ ht _ => ht.followOn ..) _) (fun t ht x => ?_) _
  exact (ht.still ((Undisturbed.refl t).endTake ..)).either ht

theorem DescsKept.startAbort (f : Faulted) (byFault : Bool) : DescsKept r (s.startAbort f byFault) :=
  DescsKept.foldl h.set (fun _ ht _ => ht.abortLake ..) _

theorem DescsKept.recordFault (n : Nat) (f : Faulted) (addr : BitVec 64) : DescsKept r (s.recordFault n f addr) := by
  refine (h.count { set := .spring, inst := n, ev := 0x4E }).modSpring n fun x => ?_
  split <;> rfl

theorem DescsKept.fault (f : Faulted) (addr : BitVec 64) : DescsKept r (s.fault f addr) := by
  have recorded := h.recordFault f.lake f addr
  exact ((h.followOn ..).modDesc ..).either ((h.followOn ..).either ((recorded.startAbort ..).either (recorded.set.either (recorded.modSpring _))))

theorem DescsKept.badStatus (n : Nat) (d : Desc) (st : Status) (addr : BitVec 64) : DescsKept r (s.badStatus n d st addr) :=
  (h.followOn ..).either ((h.modDesc n d.seq).fault ..)

/-! ### Landings (R182, R183) -/

theorem DescsKept.landed (n q i row : Nat) : DescsKept r (s.landed n q i row) := h.modDesc n q

theorem DescsKept.landOne (n : Nat) (d : Desc) (i : Nat) (data : List Word) (since : Option Nat) : DescsKept r (s.landOne n d i data since).2 := by
  unfold State.landOne
  split
  · exact h
  · next p _ =>
    dsimp only
    refine .eitherSnd ((h.refuseSpring ..).badStatus ..) (.eitherSnd (h.still ((Undisturbed.refl s).wakeIdle n)) (.eitherSnd h (.eitherSnd ?_ ?_)))
    · exact ((h.count _).still ((Undisturbed.refl _).turnAway ..)).still ((Undisturbed.refl _).countLake ..)
    · have written := h.shoreS n d { springWho s n d true with issued := since.getD s.pw.now } .write (if dSlate d.w = true then .land d.seq else .plain) p data
      split
      · next ran =>
        rw [ran] at written
        exact written.still ((Undisturbed.refl _).wait ..)
      · next ran =>
        rw [ran] at written
        have cleared := DescsKept.either (c := (if dSlate d.w = true then Mode.land d.seq else Mode.plain) = Mode.plain) written
          (written.still ((Undisturbed.refl _).backoffClear (.waiters (Fin.ofNat 24 n)) (springWho s n d true).ident))
        exact .eitherSnd (cleared.landed ..) (cleared.badStatus ..)

theorem DescsKept.land (n q fuel : Nat) : DescsKept r (State.land n q fuel s) := by
  induction fuel generalizing s with
  | zero => exact h
  | succ fuel ih =>
    rw [State.land]
    split
    · exact h
    · split
      · exact h
      · split
        · exact h
        · next d _ _ _ i data _ =>
          have landed := h.landOne n d i data none
          split
          · next ran =>
            rw [ran] at landed
            exact ih landed
          · next ran =>
            rw [ran] at landed
            exact landed

theorem DescsKept.landAll (n q : Nat) : DescsKept r (s.landAll n q) := by
  rw [State.landAll]
  split
  · exact h.land ..
  · exact h

/-! ### Issues (R178, R182, R194, R210) -/

theorem DescsKept.ask (n q i : Nat) : DescsKept r (s.ask n q i) := h.modDesc n q fun _ => { asked := List.subset_append_left _ _ }

theorem DescsKept.basinStore (sib : Bool) (off len : Nat) : DescsKept r (s.basinStore sib off len) := by
  obtain ⟨cnt, basin, stored⟩ := s.basinStore_frame sib off len
  exact h.set (by rw [stored])

theorem DescsKept.issuePiece (n q : Nat) (p : Piece) : DescsKept r (State.issuePiece n q s p) := by
  unfold State.issuePiece
  split
  · exact h
  · next d _ =>
    have read := h.springRead n d p
    split
    · exact h
    · dsimp only
      split
      · exact (h.ask ..).either (h.ask ..).set
      · generalize s.springRead n d p = x at read
        exact DescsKept.either (((DescsKept.set (read.ask ..)).count _).basinStore ..) (read.badStatus ..)
      · exact (h.ask ..).springRemote ..
      · generalize s.springRead n d p = x at read
        exact DescsKept.either (((read.ask ..).springCanal ..).either ((read.ask ..).springRemote ..)) (read.badStatus ..)
      · exact (h.ask ..).springCanal ..
      · exact h

theorem DescsKept.issue (n q : Nat) : DescsKept r (s.issue n q) := by
  rw [State.issue]
  split
  · exact h
  · have issued : DescsKept r (s.modDesc n q fun d => { d with issued := true }) := h.modDesc n q
    exact h.either ((h.still ((Undisturbed.refl s).wakeIdle n)).either
      (DescsKept.either ((issued.modDesc n q).landAll ..) (issued.foldl (fun _ ht _ => ht.issuePiece ..) _)))

theorem DescsKept.issueWaiting (n : Nat) : DescsKept r (s.issueWaiting n) := h.foldl (fun _ ht _ => ht.issue ..) _

/-! ### What waits and may go on (R185, R210, R231) -/

theorem DescsKept.meet (k : Nat) (x : HeldWait) : DescsKept r (s.meet k x) := by
  have taken : DescsKept r (s.modCue k fun c => { c with count := c.count - x.n }) := h.set
  rw [State.meet]
  split
  · exact taken.set.still (((Undisturbed.refl _).deadlines ..).reply ..)
  · exact taken.modDesc ..

theorem DescsKept.serveCue (k fuel : Nat) : DescsKept r (State.serveCue k fuel s) := by
  induction fuel generalizing s with
  | zero => exact h
  | succ fuel ih =>
    rw [State.serveCue]
    split
    · exact h
    · exact (ih (h.meet ..)).either h

theorem DescsKept.takeUp : DescsKept r s.takeUp :=
  DescsKept.foldl (h.foldl (fun _ ht _ => ht.serveCue ..) _) (fun _ ht _ => (ht.issueWaiting _).trans (State.meetOrder_marksMet _ _).descsKept) _

end

/-! ### Answers (R184, R187, R189, R190) -/

section
variable {s : State} {n q i : Nat} {d : Desc} (found : s.desc n q = some d) (st : Status) (data : List Word)
include found

theorem State.modDesc_desc {f : Desc → Desc} (goes : ∀ d : Desc, d.Goes (f d)) : (s.modDesc n q f).desc n q = some (f d) := by
  have number : d.seq = q := by simpa using List.find?_some found
  have changed := State.desc_map (s.modDesc_descs n q f) (fun d => by
    split
    · exact goes d
    · exact .refl d) found
  rwa [if_pos number] at changed

/-- An answer to no request, or to one that has been answered, changes nothing. -/
theorem State.springReturn_known (known : (!d.asked.contains i || d.returned.contains i) = true) : s.springReturn n q i st data = s := by
  rw [State.springReturn, found]
  exact if_pos known

/-- An answer that is awaited is noted before its data is landed, or dropped, or its status is a fault. -/
theorem State.springReturn_awaited (awaited : (!d.asked.contains i || d.returned.contains i) = false) :
    DescsKept (s.modDesc n q (Desc.answered i)) (s.springReturn n q i st data) := by
  have noted := DescsKept.refl (s.modDesc n q (Desc.answered i))
  rw [State.springReturn, found]
  dsimp only
  rw [if_neg (ne_true_of_eq_false awaited)]
  exact (noted.badStatus ..).either (noted.either ((noted.discard ..).either ((noted.modDesc n q).landAll ..)))

/-- Once the answer has come to a request of a descriptor, it has been answered (R184). -/
theorem State.springReturn_returned (asked : d.asked.contains i = true) :
    ∃ e, (s.springReturn n q i st data).desc n q = some e ∧ e.returned.contains i = true := by
  cases known : !d.asked.contains i || d.returned.contains i with
  | true =>
    rw [State.springReturn_known found st data known]
    rw [asked] at known
    exact ⟨d, found, by simpa using known⟩
  | false =>
    obtain ⟨e, kept, goes⟩ := (State.springReturn_awaited found st data known).goes (State.modDesc_desc found (Desc.Goes.answered · i))
    exact ⟨e, kept, goes.has (List.contains_iff_mem.2 (List.mem_append_right _ List.mem_cons_self))⟩

end

theorem State.springReturn_descsKept (s : State) (n q i : Nat) (st : Status) (data : List Word) : DescsKept s (s.springReturn n q i st data) := by
  cases found : s.desc n q with
  | none =>
    rw [State.springReturn, found]
    exact .refl s
  | some d =>
    cases known : !d.asked.contains i || d.returned.contains i with
    | true => exact .of_springs (by rw [State.springReturn_known found st data known])
    | false => exact ((DescsKept.refl s).modDesc n q (Desc.Goes.answered · i)).trans (State.springReturn_awaited found st data known)

end Sys2Proof.Machine
end

section
/-!
PROOF. Lookups of the basin (O31): a line that is found is served or dropped, and a read that finds none joins a fill, reserves a way for one, or
goes to its stack (R199 to R204).
-/
namespace Sys2Proof.Machine

-- One theorem after another: elaborated side by side, these theorems would each hold a thread and its stack.
set_option Elab.async false

/-! ### The turn of a lookup, and the walk (R200, R208) -/

theorem State.countBasin_frame (s : State) (ev label : Nat) : ∃ cnt, s.countBasin ev label = { s with cnt := cnt } := s.count_frame _

theorem State.log_frame (s : State) (cls : Nat) (st : Status) (source : Nat) (pr : Principal) (detail addr : Nat) :
    ∃ err, s.log cls st source pr detail addr = { s with err := err } := s.report_frame _

/-- From `s` to `t` no descriptor has lost what it has, and nothing has been driven. -/
structure TurnTaken (s t : State) : Prop where
  descs : DescsKept s t
  out : t.out = s.out

theorem TurnTaken.refl (s : State) : TurnTaken s s := ⟨.refl s, rfl⟩

section
variable {r s t : State} (h : TurnTaken r s)
include h

theorem TurnTaken.either {c : Prop} [Decidable c] (k : TurnTaken r t) : TurnTaken r (if c then s else t) := by
  split
  · exact h
  · exact k

theorem TurnTaken.countBasin (ev label : Nat) : TurnTaken r (s.countBasin ev label) := by
  refine ⟨h.descs.count _, ?_⟩
  obtain ⟨cnt, counted⟩ := s.countBasin_frame ev label
  rw [counted]
  exact h.out

theorem TurnTaken.elapse (dt : Nat) : TurnTaken r (s.elapse dt) := by
  refine ⟨h.descs.trans (s.elapse_descsKept dt), ?_⟩
  obtain ⟨cnt, lakes, springs, passed⟩ := s.elapse_frame dt
  rw [passed]
  exact h.out

theorem TurnTaken.withBasin (b : Basin) : TurnTaken r { s with basin := b } := ⟨h.descs.set, h.out⟩

end

theorem State.sliceTurn_taken (s : State) (label : Nat) (sib : Bool) (line : Nat) : TurnTaken s (s.sliceTurn label sib line) :=
  have h := TurnTaken.refl s
  h.either ((((h.countBasin 0x79 label).elapse 1).either h).countBasin 0x70 label |>.withBasin _)

theorem State.walk_frame (s : State) : ∃ lines, s.walk = { s with basin := { s.basin with lines := lines } } := by
  rw [State.walk]
  dsimp only
  split <;> exact ⟨_, rfl⟩

theorem TurnTaken.walk {r s : State} (h : TurnTaken r s) : TurnTaken r s.walk := by
  obtain ⟨lines, walked⟩ := s.walk_frame
  rw [walked]
  exact h.withBasin _

/-! ### A line that is found (R201, R204) -/

section
variable {u : State} {n : Nat} {d : Desc} {p : Piece} {set w : Nat} {l : Line}

/-- A line without an error that cannot be corrected is served: its way is marked as referenced, and its errors are corrected. -/
theorem State.lineFound_served (sound : l.bad = []) : ∃ v : State,
    u.lineFound n d p set w l = (v.springReturn n d.seq p.i .ok (Machine.pieceWords p l.data)).takeUp ∧
    v.basin = u.basin.setWay set w { l with ref := true, corr := [] } ∧ (l.corr = [] → v.err = u.err) ∧
    v = { u with basin := v.basin, cnt := v.cnt, err := v.err, fresh := v.fresh } := by
  have corrected : ∃ err fresh, (if l.corr = [] then u else
      { u.correction 24 (lineDetail u l.corr) (lineAddr u l.sib l.line) with fresh := u.fresh + 1 }) = { u with err := err, fresh := fresh } ∧
      (l.corr = [] → err = u.err) := by
    split
    · exact ⟨u.err, u.fresh, rfl, fun _ => rfl⟩
    · next errors =>
      obtain ⟨err, reported⟩ := u.correction_frame 24 (lineDetail u l.corr) (lineAddr u l.sib l.line)
      exact ⟨err, u.fresh + 1, by rw [reported], fun none_ => absurd none_ errors⟩
  obtain ⟨err, fresh, corrected, quiet⟩ := corrected
  obtain ⟨cnt, counted⟩ := State.countBasin_frame { u with err := err, fresh := fresh } 0x71 d.slot.label
  refine ⟨{ u with basin := u.basin.setWay set w { l with ref := true, corr := [] }, cnt := cnt, err := err, fresh := fresh }, ?_, rfl, quiet, rfl⟩
  rw [State.lineFound, if_neg (by simp [sound])]
  dsimp only
  rw [corrected, counted]
  rfl

/-- A line with an error that cannot be corrected is dropped and recorded, and the read goes on as one that finds none. -/
theorem State.lineFound_dropped (spoilt : l.bad ≠ []) : ∃ v : State,
    u.lineFound n d p set w l = v.basinMiss n d p l.sib l.line set ∧ v.basin = { u.basin.setWay set w Line.reset with eccDrop := true } ∧
    v = { u with basin := v.basin, cnt := v.cnt, err := v.err, fresh := v.fresh } := by
  obtain ⟨cnt, counted⟩ := u.countBasin_frame 0x77 d.slot.label
  obtain ⟨err, recorded⟩ := State.log_frame { u with cnt := cnt } 1 .uncorrectable 0x30 d.slot.pr (lineDetail u l.bad) (lineAddr u l.sib l.line)
  refine ⟨{ u with basin := { u.basin.setWay set w Line.reset with eccDrop := true }, cnt := cnt, err := err, fresh := u.fresh + 1 }, ?_, rfl, rfl⟩
  rw [State.lineFound, if_pos spoilt]
  dsimp only
  rw [counted, recorded]

end

/-! ### A line that is not held (R201 to R203, R205) -/

/-- The fill of a line that a read issued now may join (R205). -/
def State.fillRuns (s : State) (sib : Bool) (line : Nat) (f : Fill) : Bool := f.sib = sib && f.line = line && !s.barred f

/-- The ways of a set that a label may allocate and no fill has reserved (R109, R203). -/
def State.openWays (s : State) (label set : Nat) : List Nat :=
  (List.range 16).filter fun w => (waysOf s (s.groupOf label)).testBit w && !s.basin.fills.any fun f => f.set = set && f.way = w

section
variable {u : State} {n : Nat} {d : Desc} {p : Piece} {sib : Bool} {line set : Nat}

theorem State.basinMiss_joins (runs : u.basin.fills.any (u.fillRuns sib line) = true) : ∃ cnt, u.basinMiss n d p sib line set =
    { u with cnt := cnt, basin := { u.basin with
        fills := u.basin.fills.map fun f => if u.fillRuns sib line f then { f with reqs := f.reqs ++ [(n, d.seq, p.i)] } else f } } := by
  obtain ⟨cnt, counted⟩ := u.countBasin_frame 0x72 d.slot.label
  refine ⟨cnt, (if_pos runs).trans ?_⟩
  rw [counted]
  rfl

section
variable (idle : u.basin.fills.any (u.fillRuns sib line) = false)
include idle

theorem State.basinMiss_fills (room : sliceFills u set < 16) {w : Nat} {b : Basin} (chosen : victim u.basin set (u.openWays d.slot.label set) = some (w, b)) :
    ∃ cnt, u.basinMiss n d p sib line set =
      { u with
        cnt := cnt, out := .basinRead sib line d.slot.label d.slot.pr :: u.out
        basin := { b.setWay set w Line.reset with fills := b.fills ++ [⟨sib, line, set, w, false, [(n, d.seq, p.i)], u.pw.now⟩] } } := by
  obtain ⟨cnt, counted⟩ := u.countBasin_frame 0x73 d.slot.label
  have way : (if 16 ≤ sliceFills u set then none else victim u.basin set (u.openWays d.slot.label set)) = some (w, b) := by
    rw [if_neg (Nat.not_le.2 room), chosen]
  refine ⟨cnt, (if_neg (ne_true_of_eq_false idle)).trans ?_⟩
  dsimp only
  rw [State.openWays] at way
  rw [way, counted]
  rfl

theorem State.basinMiss_passes (full : 16 ≤ sliceFills u set ∨ victim u.basin set (u.openWays d.slot.label set) = none) : ∃ cnt,
    u.basinMiss n d p sib line set =
      (State.modDesc { u with cnt := cnt } n d.seq fun d => { d with looked := d.looked ++ [p.i] }).emit
        (.stackRead n d.seq p.i sib (bits p.other 0 44) p.n d.slot.label) := by
  obtain ⟨cnt, counted⟩ := u.countBasin_frame 0x74 d.slot.label
  have none_ : (if 16 ≤ sliceFills u set then none else victim u.basin set (u.openWays d.slot.label set)) = none := by
    split
    · rfl
    · next room => exact full.resolve_left room
  refine ⟨cnt, (if_neg (ne_true_of_eq_false idle)).trans ?_⟩
  dsimp only
  rw [State.openWays] at none_
  rw [none_, counted]

end

end

/-! ### BASIN_LOOKUP (R200, R201) -/

/-- What the lookup of a piece finds once its turn has come (R200, R208). -/
def State.turned (s : State) (d : Desc) (p : Piece) : State :=
  (s.sliceTurn d.slot.label (stackOf s p.other).1 ((stackOf s p.other).2 / 256)).walk

theorem State.turned_taken (s : State) (d : Desc) (p : Piece) : TurnTaken s (s.turned d p) := (s.sliceTurn_taken ..).walk

/-- A line with the errors that have struck it since it was last read. -/
def Line.struckBy (l : Line) (struck : List (Fin 32 × Bool)) : Line :=
  { l with
    corr := l.corr ++ (struck.filter (·.2 = false)).map (·.1.val)
    bad := l.bad ++ (struck.filter (·.2 = true)).map (·.1.val) }

/-- A way that matches holds the line looked up (R199). -/
theorem Basin.match_holds {b : Basin} {set line w : Nat} {sib : Bool} (held : b.match set sib line = some w) :
    (b.way set w).sib = sib ∧ (b.way set w).line = line := by
  have holds := List.find?_some held
  simp only [Bool.and_eq_true, decide_eq_true_eq] at holds
  exact ⟨holds.1.2, holds.2⟩

/-- The line of a piece's stack data, and its set (R199). -/
def State.lineOf (s : State) (p : Piece) : Nat := (stackOf s p.other).2 / 256
def State.setOf (s : State) (p : Piece) : Nat := basinSet s.variant (s.lineOf p)

/-- What lets a piece of a SHARED LOAD be looked up: it has been asked for, and has neither come back, nor been looked up, nor waits for a fill (R201). -/
structure State.Looks (s : State) (n : Fin 24) (d : Desc) (p : Piece) : Prop where
  found : s.desc n d.seq = some d
  kind : dKind d.w = 1
  shared : dShared d.w = true
  asked : d.asked.contains p.i = true
  waits : d.returned.contains p.i = false
  unlooked : d.looked.contains p.i = false
  piece : pieceOf d p.i = some p
  unfilled : (s.basin.fills.all fun f => !f.reqs.contains (n.val, d.seq, p.i)) = true

section
variable {s : State} {n : Fin 24} {d : Desc} {p : Piece} (h : s.Looks n d p) (struck : List (Fin 32 × Bool))
include h

theorem State.Looks.exec_basinLookup : exec (.basinLookup n d.seq p.i struck) s = .next (s.lookup n d p struck) := by
  have none_waits : (s.basin.fills.any fun f => f.reqs.contains (n.val, d.seq, p.i)) = false := by
    rw [List.any_eq_not_all_not, h.unfilled]
    rfl
  show execBasinLookup n d.seq p.i struck s = _
  rw [execBasinLookup, h.found]
  dsimp only
  rw [if_neg (by rw [h.kind, h.shared, h.asked, h.waits, h.unlooked, none_waits]; decide), h.piece]

section
variable {w : Nat} (held : (s.turned d p).basin.match (s.setOf p) (stackOf s p.other).1 (s.lineOf p) = some w)
include held

theorem State.Looks.finds : exec (.basinLookup n d.seq p.i struck) s =
    .next ((s.turned d p).lineFound n d p (s.setOf p) w (((s.turned d p).basin.way (s.setOf p) w).struckBy struck)) := by
  refine (h.exec_basinLookup struck).trans (congrArg _ ?_)
  unfold State.turned State.setOf State.lineOf at *
  rw [State.lookup]
  dsimp only
  rw [held]
  rfl

/-- A line that can be served answers the read (R201, R204). -/
theorem State.Looks.serves (sound : (((s.turned d p).basin.way (s.setOf p) w).struckBy struck).bad = []) :
    let l := (s.turned d p).basin.way (s.setOf p) w
    ∃ v x : State, exec (.basinLookup n d.seq p.i struck) s = .next x.takeUp ∧
      x = v.springReturn n d.seq p.i .ok (Machine.pieceWords p l.data) ∧ (∃ y, x.desc n d.seq = some y ∧ y.returned.contains p.i = true) ∧
      v.basin = (s.turned d p).basin.setWay (s.setOf p) w { l with ref := true, corr := [], bad := [] } ∧
      ((l.struckBy struck).corr = [] → v.err = (s.turned d p).err) ∧
      v = { s.turned d p with basin := v.basin, cnt := v.cnt, err := v.err, fresh := v.fresh } := by
  intro l
  obtain ⟨d', found, goes⟩ := (s.turned_taken d p).descs.goes h.found
  obtain ⟨v, served, basin, quiet, frame⟩ := State.lineFound_served (n := n) (d := d) (p := p) (set := s.setOf p) (w := w) sound
  have here : v.desc n d.seq = some d' := by
    rw [frame]
    exact found
  refine ⟨v, _, (h.finds struck held).trans (congrArg _ served), rfl, State.springReturn_returned here _ _ (goes.asks h.asked), ?_, quiet, frame⟩
  rw [basin]
  exact congrArg (fun bad => (s.turned d p).basin.setWay (s.setOf p) w { l with ref := true, corr := [], bad := bad }) sound

/-- A line that cannot be corrected is dropped, and the read goes on as one that finds none (R204). -/
theorem State.Looks.drops (spoilt : (((s.turned d p).basin.way (s.setOf p) w).struckBy struck).bad ≠ []) :
    ∃ v : State, exec (.basinLookup n d.seq p.i struck) s = .next (v.basinMiss n d p (stackOf s p.other).1 (s.lineOf p) (s.setOf p)) ∧
      v.basin = { (s.turned d p).basin.setWay (s.setOf p) w Line.reset with eccDrop := true } ∧
      v = { s.turned d p with basin := v.basin, cnt := v.cnt, err := v.err, fresh := v.fresh } := by
  obtain ⟨v, dropped, basin, frame⟩ := State.lineFound_dropped (n := n) (d := d) (p := p) (set := s.setOf p) (w := w) spoilt
  obtain ⟨sib, line⟩ := Basin.match_holds held
  refine ⟨v, (h.finds struck held).trans (congrArg _ (dropped.trans ?_)), basin, frame⟩
  exact congrArg₂ (fun sib line => v.basinMiss n d p sib line (s.setOf p)) sib line

end

section
variable (unheld : (s.turned d p).basin.match (s.setOf p) (stackOf s p.other).1 (s.lineOf p) = none)
include unheld

theorem State.Looks.misses : exec (.basinLookup n d.seq p.i struck) s =
    .next ((s.turned d p).basinMiss n d p (stackOf s p.other).1 (s.lineOf p) (s.setOf p)) := by
  refine (h.exec_basinLookup struck).trans (congrArg _ ?_)
  unfold State.turned State.setOf State.lineOf at *
  rw [State.lookup]
  dsimp only
  rw [unheld]

/-- The read goes to its stack itself, and is not looked up again (R201, R203). -/
theorem State.Looks.passes (idle : (s.turned d p).basin.fills.any ((s.turned d p).fillRuns (stackOf s p.other).1 (s.lineOf p)) = false)
    (full : 16 ≤ sliceFills (s.turned d p) (s.setOf p) ∨
      victim (s.turned d p).basin (s.setOf p) ((s.turned d p).openWays d.slot.label (s.setOf p)) = none) :
    ∃ t, exec (.basinLookup n d.seq p.i struck) s = .next t ∧ (∃ y, t.desc n d.seq = some y ∧ y.looked.contains p.i = true) ∧
      t.out = .stackRead n d.seq p.i (stackOf s p.other).1 (stackOf s p.other).2 p.n d.slot.label :: s.out ∧
      t = { s.turned d p with springs := t.springs, cnt := t.cnt, out := t.out } := by
  obtain ⟨d', found, -⟩ := (s.turned_taken d p).descs.goes h.found
  obtain ⟨cnt, passed⟩ := State.basinMiss_passes (n := n) (d := d) (p := p) idle full
  have looked := State.modDesc_desc (s := { s.turned d p with cnt := cnt }) (f := fun d => { d with looked := d.looked ++ [p.i] }) found fun _ => {}
  refine ⟨_, (h.misses struck unheld).trans (congrArg _ passed), ⟨_, looked, ?_⟩, congrArg _ (s.turned_taken d p).out, rfl⟩
  exact List.contains_iff_mem.2 (List.mem_append_right _ List.mem_cons_self)

end

end

end Sys2Proof.Machine
end

section
/-!
PROOF. Fills that come back and invalidations (O31), and the basin settled (R199 to R208).
-/
namespace Sys2Proof.Machine

-- One theorem after another: elaborated side by side, these theorems would each hold a thread and its stack.
set_option Elab.async false

/-! ### BASIN_FILL_RETURN (R204, R205) -/

/-- The line that a fill's data makes. -/
def Fill.lineOf (f : Fill) (data : List Word) : Line := ⟨true, f.sib, f.line, true, (data ++ zeros 8).take 8, [], [], f.at_⟩

/-- The fill has ended, and its data is installed unless it failed or was barred. -/
def State.fillEnded (s : State) (f : Fill) (st : Status) (data : List Word) : State :=
  let u := { s.walk with basin := { s.walk.basin with fills := s.walk.basin.fills.erase f } }
  if st = .ok && !s.walk.barred f then
    { u.count { set := .basin, inst := 0, ev := 0x75 } with basin := u.basin.setWay f.set f.way (f.lineOf data) }
  else u

theorem State.fillReturn_eq (s : State) (f : Fill) (st : Status) (data : List Word) :
    s.fillReturn f st data = f.reqs.foldl (State.fillGive st ((data ++ zeros 8).take 8)) (s.fillEnded f st data) := rfl

theorem State.walk_barred (s : State) (f : Fill) : s.walk.barred f = s.barred f := by
  obtain ⟨lines, walked⟩ := s.walk_frame
  rw [walked]
  rfl

/-- A fill that ends leaves the fills that have not, and changes no way but its own. -/
theorem State.fillEnded_frame (s : State) (f : Fill) (st : Status) (data : List Word) : ∃ lines cnt,
    s.fillEnded f st data = { s with cnt := cnt, basin := { s.basin with lines := lines, fills := s.basin.fills.erase f } } ∧
    Tab.get basinDefault lines (16 * f.set + f.way) =
      (if st = .ok ∧ s.barred f = false then f.lineOf data else s.walk.basin.way f.set f.way) ∧
    ∀ k, k ≠ 16 * f.set + f.way → Tab.get basinDefault lines k = Tab.get basinDefault s.walk.basin.lines k := by
  obtain ⟨lines, walked⟩ := s.walk_frame
  rw [State.fillEnded, s.walk_barred]
  dsimp only
  split
  · next installs =>
    have installs : st = .ok ∧ s.barred f = false := by simpa using installs
    obtain ⟨cnt, counted⟩ := State.count_frame { s.walk with basin := { s.walk.basin with fills := s.walk.basin.fills.erase f } }
      { set := .basin, inst := 0, ev := 0x75 }
    rw [counted, if_pos installs, walked]
    exact ⟨_, cnt, rfl, Tab.get_set_same _ _ _, fun k other => Tab.get_set_other other _⟩
  · next barred =>
    have barred : ¬(st = .ok ∧ s.barred f = false) := by simpa using barred
    rw [if_neg barred, walked]
    exact ⟨lines, s.cnt, rfl, rfl, fun _ _ => rfl⟩

theorem State.deepTimer_frame (s : State) : ∃ pw : Power, s.deepTimer = { s with pw := pw } ∧ pw.now = s.pw.now := by
  rw [State.deepTimer]
  dsimp only
  split
  · exact ⟨_, rfl, rfl⟩
  · exact ⟨s.pw, rfl, rfl⟩

section
variable (st : Status) (data : List Word)

/-- What is given to one read that waits takes nothing from any descriptor. -/
theorem State.fillGive_descsKept (s : State) (q : Nat × Nat × Nat) : DescsKept s (State.fillGive st data s q) := by
  rw [State.fillGive]
  split
  · exact .refl s
  · split
    · exact .refl s
    · exact (((DescsKept.refl s).count _).trans (State.springReturn_descsKept ..)).takeUp

/-- A read that waits for a fill has been answered once the fill's answer is given to it (R204). -/
theorem State.fillGive_returned {s : State} {q : Nat × Nat × Nat} {d : Desc} {p : Piece} (found : s.desc q.1 q.2.1 = some d)
    (piece : pieceOf d q.2.2 = some p) (asked : d.asked.contains q.2.2 = true) :
    ∃ e, (State.fillGive st data s q).desc q.1 q.2.1 = some e ∧ e.returned.contains q.2.2 = true := by
  rw [State.fillGive, found]
  dsimp only
  rw [piece]
  dsimp only
  have counted := (DescsKept.refl s).count
    { set := .spring, inst := q.1, ev := 0x47, quals := d.quals, label := some d.slot.label, n := 32 * (Machine.pieceWords p data).length }
  obtain ⟨d', found', goes⟩ := counted.goes found
  obtain ⟨e, back, returned⟩ := State.springReturn_returned found' st (if st = .ok then Machine.pieceWords p data else []) (goes.asks asked)
  obtain ⟨e', kept, goes'⟩ := (DescsKept.refl _).takeUp.goes back
  exact ⟨e', kept, goes'.has returned⟩

theorem State.fillGives_descsKept (s : State) (reqs : List (Nat × Nat × Nat)) : DescsKept s (reqs.foldl (State.fillGive st data) s) :=
  (DescsKept.refl s).foldl (fun t ht q => ht.trans (t.fillGive_descsKept st data q)) reqs

/-- Every read that waits for a fill has been answered once all have been given its answer (R204). -/
theorem State.fillGives_returned {s : State} {reqs : List (Nat × Nat × Nat)} {q : Nat × Nat × Nat} (waits : q ∈ reqs) {d : Desc} {p : Piece}
    (found : s.desc q.1 q.2.1 = some d) (piece : pieceOf d q.2.2 = some p) (asked : d.asked.contains q.2.2 = true) :
    ∃ e, (reqs.foldl (State.fillGive st data) s).desc q.1 q.2.1 = some e ∧ e.returned.contains q.2.2 = true := by
  induction reqs generalizing s d with
  | nil => exact absurd waits List.not_mem_nil
  | cons q' reqs ih =>
    obtain rfl | later := List.mem_cons.1 waits
    · obtain ⟨e, given, returned⟩ := State.fillGive_returned st data found piece asked
      obtain ⟨e', kept, goes⟩ := (State.fillGives_descsKept st data (State.fillGive st data s q) reqs).goes given
      exact ⟨e', kept, goes.has returned⟩
    · obtain ⟨e, kept, goes⟩ := (s.fillGive_descsKept st data q').goes found
      exact ih later kept ((goes.pieceOf _).trans piece) (goes.asks asked)

end

/-- A fill is found by the line it is of. -/
theorem exec_basinFillReturn {s : State} {f : Fill} (runs : s.basin.fills.find? (fun g => g.sib = f.sib && g.line = f.line) = some f) (st : Status)
    (ws : List Word) : exec (.basinFillReturn f.sib f.line st ws) s =
      .next (f.reqs.foldl (State.fillGive st ((ws ++ zeros 8).take 8)) (s.fillEnded f st ws)).deepTimer := by
  show execBasinFillReturn f.sib f.line st ws s = _
  rw [execBasinFillReturn, runs, ← State.fillReturn_eq]

/-! ### BASIN_INV_ALL, BASIN_INV_RANGE (R206 to R208) -/

/-- An invalidation of everything, or of a range of lines, that a write of `TM_BASIN_INV` has started. -/
def State.invStarted (s : State) (all : Bool) (v : BitVec 64) : State :=
  { s with basin := { s.basin with
    invAll := all, invSib := bit v 1, invAddr := BitVec.ofNat 36 (bits v 8 36), busy := true, start := s.pw.now, walkLen := s.basin.invLen.toNat
    due := s.pw.now + invCycles s.variant all s.basin.invLen.toNat } }

/-- The conditions under which an invalidation is rejected (R207). -/
def State.invFails (s : State) (all : Bool) (v : BitVec 64) : List Bool :=
  [s.basin.busy, !all && (s.basin.invLen.toNat = 0 || 2 ^ 36 < bits v 8 36 + s.basin.invLen.toNat)]

theorem bits_congr {v w : BitVec 64} {lo n : Nat} (same : ∀ i, lo ≤ i → w.getLsbD i = v.getLsbD i) : bits w lo n = bits v lo n := by
  refine Nat.eq_of_testBit_eq fun i => ?_
  rw [bits, bits, Nat.testBit_mod_two_pow, Nat.testBit_mod_two_pow, Nat.testBit_shiftRight, Nat.testBit_shiftRight]
  exact congrArg _ (same (lo + i) (Nat.le_add_right lo i))

section
variable {s : State} {src : Src} (open_ : s.opens src 0x400 8 = true) (privileged : s.privileged src = true) (v : BitVec 64)
include open_ privileged

/-- A write of `TM_BASIN_INV` whose bits above `ALL` are those of `v`. -/
theorem ctlCommand_basinInv {all : Bool} {x : BitVec 64} (first : bit x 0 = all) (rest : ∀ i, 1 ≤ i → x.getLsbD i = v.getLsbD i) :
    ctlCommand src 0x400 8 x s = .next (s.unless (s.ctl src 0x400) (s.invFails all v) fun s => (s.invStarted all v).reply src .ok) := by
  have range : bits x 8 36 = bits v 8 36 := bits_congr fun i hi => rest i (by omega)
  have sib : bit x 1 = bit v 1 := rest 1 (Nat.le_refl 1)
  refine (ctlCommand_8 open_ rfl x).trans (congrArg _ ?_)
  show basinInvSet (s.ctl src 0x400) x s = _
  rw [basinInvSet, State.privOnly_privileged privileged]
  simp only [first, range, sib]
  rfl

theorem exec_basinInvAll : exec (.basinInvAll src v) s =
    .next (s.unless (s.ctl src 0x400) (s.invFails true v) fun s => (s.invStarted true v).reply src .ok) := by
  refine ctlCommand_basinInv open_ privileged v (x := v ||| 1) (by simp [bit]) fun i hi => ?_
  have above : i ≠ 0 := by omega
  simp [above]

theorem exec_basinInvRange : exec (.basinInvRange src v) s =
    .next (s.unless (s.ctl src 0x400) (s.invFails false v) fun s => (s.invStarted false v).reply src .ok) := by
  have mask : ∀ i : Fin 64, 1 ≤ i.val → (0xFFFFFFFFFFFFFFFE : BitVec 64).getLsbD i = true := by decide
  refine ctlCommand_basinInv open_ privileged v (x := v &&& 0xFFFFFFFFFFFFFFFE) (by simp [bit]) fun i hi => ?_
  rw [BitVec.getLsbD_and]
  by_cases inside : i < 64
  · rw [mask ⟨i, inside⟩ hi, Bool.and_true]
  · rw [BitVec.getLsbD_of_ge v i (by omega), Bool.false_and]

theorem basinInvAll_starts (idle : s.basin.busy = false) : exec (.basinInvAll src v) s = .next ((s.invStarted true v).reply src .ok) := by
  rw [exec_basinInvAll open_ privileged v, State.unless_pass (by rw [State.invFails, idle]; rfl)]

theorem basinInvAll_busy (busy : s.basin.busy = true) : exec (.basinInvAll src v) s = .next (s.rejected src 0x400 1) := by
  rw [exec_basinInvAll open_ privileged v, State.unless_rejected (k := 0) (by rw [State.invFails, busy]; rfl)]

theorem basinInvRange_starts (idle : s.basin.busy = false) (some_ : s.basin.invLen.toNat ≠ 0) (fits : bits v 8 36 + s.basin.invLen.toNat ≤ 2 ^ 36) :
    exec (.basinInvRange src v) s = .next ((s.invStarted false v).reply src .ok) := by
  have passes : s.invFails false v = [false, false] := by
    rw [State.invFails, idle, decide_eq_false some_, decide_eq_false (Nat.not_lt.2 fits)]
    rfl
  rw [exec_basinInvRange open_ privileged v, State.unless_pass (by rw [passes]; rfl)]

theorem basinInvRange_rejected (idle : s.basin.busy = false) (unfit : s.basin.invLen.toNat = 0 ∨ 2 ^ 36 < bits v 8 36 + s.basin.invLen.toNat) :
    exec (.basinInvRange src v) s = .next (s.rejected src 0x400 2) := by
  have fails : s.invFails false v = [false, true] := by
    rw [State.invFails, idle, ← Bool.decide_or, decide_eq_true unfit]
    rfl
  rw [exec_basinInvRange open_ privileged v, State.unless_rejected (k := 1) (by rw [fails]; rfl)]

theorem basinInvRange_busy (busy : s.basin.busy = true) : exec (.basinInvRange src v) s = .next (s.rejected src 0x400 1) := by
  rw [exec_basinInvRange open_ privileged v, State.unless_rejected (k := 0) (by rw [State.invFails, busy]; rfl)]

end

/-! ### BASIN_INV_DONE (R208) -/

/-- At the end of an invalidation no line of its range is left, nor a fill to be installed, but those read after the T-cycle that follows its
write. -/
def State.invEnded (s : State) : State :=
  { s with basin := { s.basin with
    busy := false, done := true
    lines := s.basin.lines.filter fun e => !s.basin.swept e.2.sib e.2.line e.2.at_
    fills := s.basin.fills.map fun (f : Fill) => if s.barred f then { f with noInstall := true } else f } }

theorem exec_basinInvDone {s : State} (busy : s.basin.busy = true) : exec .basinInvDone s = .next (s.reach s.basin.due).invEnded.deepTimer := by
  show execBasinInvDone s = _
  rw [execBasinInvDone, busy]
  rfl

/-- A fill of the range is not to be installed once the invalidation has ended (R208). -/
theorem State.invEnded_noInstall {s : State} {f : Fill} (left : f ∈ s.invEnded.basin.fills) (swept : s.basin.swept f.sib f.line f.at_ = true)
    (started : s.basin.start < s.pw.now) : f.noInstall = true := by
  obtain ⟨g, -, rfl⟩ := List.mem_map.1 left
  split
  · rfl
  · next unbarred =>
    rw [if_neg unbarred] at swept
    exact absurd (by rw [State.barred, swept, decide_eq_true started]; simp) unbarred

/-! ### The basin, settled -/

/-- Settles O31: a lookup ends as its way, the fills and the room of its group say; a fill's answer reaches every read that waits; and an invalidation
leaves what was read after the T-cycle that follows its write. -/
theorem basinServesAndForgets : Obligations.BasinServesAndForgets := by
  refine ⟨fun s n d p struck found kind shared asked waits unlooked piece unfilled => ?_, fun s f st ws runs => ?_, fun s src v open_ privileged => ?_,
    fun s busy => ?_⟩
  · have looks : s.Looks n d p := ⟨found, kind, shared, asked, waits, unlooked, piece, unfilled⟩
    refine ⟨fun w held => ⟨looks.serves struck held, looks.drops struck held⟩, fun unheld => ⟨fun runs => ?_, fun idle room w b chosen => ?_,
      looks.passes struck unheld⟩⟩
    · obtain ⟨cnt, joined⟩ := State.basinMiss_joins (n := n) (d := d) (p := p) (set := s.setOf p) runs
      exact ⟨_, (looks.misses struck unheld).trans (congrArg _ joined), rfl, rfl, rfl⟩
    · obtain ⟨cnt, filled⟩ := State.basinMiss_fills (n := n) (d := d) (p := p) idle room chosen
      exact ⟨_, (looks.misses struck unheld).trans (congrArg _ filled), rfl, congrArg _ (s.turned_taken d p).out, rfl⟩
  · intro data
    obtain ⟨lines, cnt, ended, own, others⟩ := s.fillEnded_frame f st ws
    have ran := exec_basinFillReturn runs st ws
    refine ⟨s.fillEnded f st ws, ran, ?_, ?_, ?_, by rw [ended], fun q waits d p found piece asked => ?_⟩
    · rw [ended]
    · rw [ended]
      exact own
    · rw [ended]
      exact others
    · have there : (s.fillEnded f st ws).desc q.1 q.2.1 = some d := by
        rw [ended]
        exact found
      obtain ⟨pw, timed, -⟩ := State.deepTimer_frame (f.reqs.foldl (State.fillGive st data) (s.fillEnded f st ws))
      rw [timed]
      exact State.fillGives_returned st data waits there piece asked
  · exact ⟨fun idle => ⟨basinInvAll_starts open_ privileged v idle, basinInvRange_starts open_ privileged v idle,
      basinInvRange_rejected open_ privileged v idle⟩, fun busy => ⟨basinInvAll_busy open_ privileged v busy, basinInvRange_busy open_ privileged v busy⟩⟩
  · obtain ⟨cnt, lakes, springs, pw, reached, come⟩ := s.reach_frame s.basin.due
    obtain ⟨pw', timed, now⟩ := State.deepTimer_frame (s.reach s.basin.due).invEnded
    have ran := exec_basinInvDone busy
    rw [timed, reached] at ran
    rw [reached] at now
    refine ⟨_, ran, rfl, rfl, come.trans (Nat.le_of_eq now.symm), fun e => ?_, fun f left swept started => ?_, rfl⟩
    · simp [State.invEnded, List.mem_filter]
    · exact State.invEnded_noInstall left swept (Nat.lt_of_lt_of_eq started now)

end Sys2Proof.Machine
end
